-- ==== Sys2Proof/Word.lean ====
section
/-! DEFINITION. The machine's word types and the closed sets of names used everywhere: streams, element types, traps. -/

namespace Sys2Proof

/-- A scalar register (R18). -/
abbrev Word := BitVec 64

/-- A halfword of instruction memory (R46). -/
abbrev Half := BitVec 16

/-- A byte of any memory. -/
abbrev Byte := BitVec 8

/-- One 1 KiB row of the pool; the byte at offset k is bits [8k+7:8k] (R2, R24). -/
abbrev Row := BitVec 8192

/-- A sparse table in canonical form: keys rising, no entry equal to the table's default. -/
abbrev Table (α : Type) := List (Nat × α)

/-- The four sequencers of a core (R18). -/
inductive Stream where
  | ctl | ld | mx | st
  deriving DecidableEq, Repr

/-- The element types, by type code 1 to 15 (R59). -/
inductive Ty where
  | f32 | f16 | bf16 | e4m3 | e5m2 | e2m1 | i32 | i16 | i8 | n32 | n16 | n8 | cb16 | cf32 | f64
  deriving DecidableEq, Repr

/-- The profiles, in the bit order of PROF (R17, R269). -/
inductive Profile where
  | core | spectral | narrow4 | media | wide
  deriving DecidableEq, Repr

/-- The trap and fault causes (R346). -/
inductive Cause where
  | wall | fetchBound | illegal | illegalStream | migrate | tileUnconf | constUnconf | addr | align
  | poolBound | clusterBound | pageFault | priv | copyExtent | ring | wfmt | domain | outlier
  | barUnder | trapi | brk | uncorr | kerf | lenMismatch | sdc
  | restoreLayout | restoreCrc | saveFault | startFault
  deriving DecidableEq, Repr

/-- The agents named in EINFO of KERF and of imprecise UNCORR (R148). -/
inductive Agent where
  | ctl | ld | mx | st | copyEngine | multicast
  deriving DecidableEq, Repr

/-- The privilege levels (R318). -/
inductive Priv where
  | user | guest | hyp | maker
  deriving DecidableEq, Repr

end Sys2Proof
end

