-- ==== Sys2Proof/Syntax.lean ====
section
/-! DEFINITION. One constructor for each row of the opcode table: the encoded instructions with the fields of their encodings,
lowest bit first, then the steps that have no encoding (95_what_each_step_holds.md) with the agent or object they concern. -/
namespace Sys2Proof
/-- The fields D and A of a move to or from a row queue (R209): one of them names the queue (R72). -/
structure QueueMove where
  d : BitVec 6
  a : BitVec 8
  deriving DecidableEq, Repr

/-- What a measurement is extended with (R323): the word written to PMREXT, or a register MR2 to MR7 of the hypervisor's with its digest. -/
structure Extension where
  word : Word
  mr : Option (Nat × BitVec 384)
  deriving DecidableEq, Repr

/-- A host window (R319): the host port, and the partition of a guest window. -/
structure Window where
  port : Nat
  part : Option Nat
  deriving DecidableEq, Repr

/-- The way of a write over a pod link (R265): the port, the package it comes from, and the partition whose tree it is walked in. -/
structure PodPath where
  port : Nat
  pkg : Nat
  owner : Nat
  deriving DecidableEq, Repr

/-- What a manifest speaks of (R353, R354): its package, the entries of its regions, and the shavings shipped with it. -/
structure Shipment where
  pkg : Nat
  regions : List (List Nat)
  shavings : List (Nat × List Byte)
  deriving DecidableEq, Repr

/-- An acknowledgement of a manifest (R353): which of the two buddies gives it, and the packages of the job. -/
structure Ack where
  buddy : Nat
  job : List Nat
  deriving DecidableEq, Repr

/-- The operations and events of the part (R83, R84, R242). -/
inductive Instr where
  /-- NOP: R87 C16 no-operation. -/
  | nop
  /-- MOV_C16: R83 16-bit register move. -/
  | movC16 (d : BitVec 5) (a : BitVec 5)
  /-- ADDI_C16: R87 16-bit add of a small signed immediate to D. -/
  | addiC16 (d : BitVec 5) (i : BitVec 5)
  /-- ADD_C16: R83 16-bit add D := D + B. -/
  | addC16 (d : BitVec 5) (b : BitVec 5)
  /-- SUB_C16: R83 16-bit subtract D := D - B. -/
  | subC16 (d : BitVec 5) (b : BitVec 5)
  /-- LI_C16: R87 16-bit load of a small signed immediate. -/
  | liC16 (d : BitVec 5) (i : BitVec 5)
  /-- PMOV: R89 Copies one predicate into another. -/
  | pmov (d : BitVec 5) (a : BitVec 5)
  /-- PNOT: R89 Writes the complement of a predicate. -/
  | pnot (d : BitVec 5) (a : BitVec 5)
  /-- QPUSH_C16: R99 16-bit push of a scalar register into a value queue. -/
  | qpushC16 (q : BitVec 3) (s : BitVec 5)
  /-- QPOP_C16: R99 16-bit pop of a value-queue head into a register. -/
  | qpopC16 (q : BitVec 3) (s : BitVec 5)
  /-- KPUSH_C16: R100 16-bit push of one dependency token to a peer sequencer. -/
  | kpushC16 (p : BitVec 2)
  /-- KPOP_C16: R100 16-bit pop of one dependency token from a peer sequencer. -/
  | kpopC16 (p : BitVec 2)
  /-- MARK: R105 Marker target of a CUT; no effect in normal flow. -/
  | mark (l : BitVec 5) (h : BitVec 5)
  /-- RET: R97 Returns to the address in s31. -/
  | ret
  /-- WALL: R47 The 0xFFFF halfword, which traps WALL. -/
  | wall
  /-- ADD: R86 D := A + B modulo 2^64. -/
  | add (d : BitVec 5) (a : BitVec 5) (b : BitVec 5)
  /-- SUB: R86 D := A - B. -/
  | sub (d : BitVec 5) (a : BitVec 5) (b : BitVec 5)
  /-- AND: R86 Bitwise AND. -/
  | and (d : BitVec 5) (a : BitVec 5) (b : BitVec 5)
  /-- OR: R86 Bitwise OR. -/
  | or (d : BitVec 5) (a : BitVec 5) (b : BitVec 5)
  /-- XOR: R86 Bitwise XOR. -/
  | xor (d : BitVec 5) (a : BitVec 5) (b : BitVec 5)
  /-- SHL: R86 Shift left by B[5:0]. -/
  | shl (d : BitVec 5) (a : BitVec 5) (b : BitVec 5)
  /-- SHR: R86 Logical shift right by B[5:0]. -/
  | shr (d : BitVec 5) (a : BitVec 5) (b : BitVec 5)
  /-- SRA: R86 Arithmetic shift right by B[5:0]. -/
  | sra (d : BitVec 5) (a : BitVec 5) (b : BitVec 5)
  /-- MUL: R86 Low 64 bits of A x B. -/
  | mul (d : BitVec 5) (a : BitVec 5) (b : BitVec 5)
  /-- MULH: R86 High 64 bits of the signed product. -/
  | mulh (d : BitVec 5) (a : BitVec 5) (b : BitVec 5)
  /-- MULHU: R86 High 64 bits of the unsigned product. -/
  | mulhu (d : BitVec 5) (a : BitVec 5) (b : BitVec 5)
  /-- MIN: R86 Signed minimum. -/
  | min (d : BitVec 5) (a : BitVec 5) (b : BitVec 5)
  /-- MAX: R86 Signed maximum. -/
  | max (d : BitVec 5) (a : BitVec 5) (b : BitVec 5)
  /-- MINU: R86 Unsigned minimum. -/
  | minu (d : BitVec 5) (a : BitVec 5) (b : BitVec 5)
  /-- MAXU: R86 Unsigned maximum. -/
  | maxu (d : BitVec 5) (a : BitVec 5) (b : BitVec 5)
  /-- MOV: R86 32-bit register move D := A. -/
  | mov (d : BitVec 5) (a : BitVec 5)
  /-- ADDI: R87 D := A + sext(IMM). -/
  | addi (d : BitVec 5) (a : BitVec 5) (i : BitVec 15)
  /-- LI: R87 D := sext(IMM). -/
  | li (d : BitVec 5) (i : BitVec 15)
  /-- ANDI: R87 D := A and zext(IMM). -/
  | andi (d : BitVec 5) (a : BitVec 5) (i : BitVec 15)
  /-- CMP_EQ: R88 Predicate := A = B. -/
  | cmpEq (d : BitVec 5) (a : BitVec 5) (b : BitVec 5)
  /-- CMP_NE: R88 Predicate := A != B. -/
  | cmpNe (d : BitVec 5) (a : BitVec 5) (b : BitVec 5)
  /-- CMP_LT: R88 Predicate := A < B signed. -/
  | cmpLt (d : BitVec 5) (a : BitVec 5) (b : BitVec 5)
  /-- CMP_LE: R88 Predicate := A <= B signed. -/
  | cmpLe (d : BitVec 5) (a : BitVec 5) (b : BitVec 5)
  /-- CMP_GT: R88 Predicate := A > B signed. -/
  | cmpGt (d : BitVec 5) (a : BitVec 5) (b : BitVec 5)
  /-- CMP_GE: R88 Predicate := A >= B signed. -/
  | cmpGe (d : BitVec 5) (a : BitVec 5) (b : BitVec 5)
  /-- CMP_LTU: R88 Predicate := A < B unsigned. -/
  | cmpLtu (d : BitVec 5) (a : BitVec 5) (b : BitVec 5)
  /-- CMP_GEU: R88 Predicate := A >= B unsigned. -/
  | cmpGeu (d : BitVec 5) (a : BitVec 5) (b : BitVec 5)
  /-- PAND: R89 Predicate AND. -/
  | pand (d : BitVec 5) (a : BitVec 5) (b : BitVec 5)
  /-- POR: R89 Predicate OR. -/
  | por (d : BitVec 5) (a : BitVec 5) (b : BitVec 5)
  /-- PXOR: R89 Predicate XOR. -/
  | pxor (d : BitVec 5) (a : BitVec 5) (b : BitVec 5)
  /-- PANDN: R89 Predicate A and not B. -/
  | pandn (d : BitVec 5) (a : BitVec 5) (b : BitVec 5)
  /-- SEL: R91 D := A if old D is non-zero, else B. -/
  | sel (d : BitVec 5) (a : BitVec 5) (b : BitVec 5)
  /-- CMPI: R88 Compare with a signed 12-bit literal into a predicate. -/
  | cmpi (d : BitVec 5) (a : BitVec 5) (v : BitVec 12) (c : BitVec 3)
  /-- LD_B: R93 Scalar byte load. -/
  | ldB (d : BitVec 5) (a : BitVec 5) (o : BitVec 13)
  /-- LD_H: R93 Scalar halfword load. -/
  | ldH (d : BitVec 5) (a : BitVec 5) (o : BitVec 13)
  /-- LD_W: R93 Scalar word load. -/
  | ldW (d : BitVec 5) (a : BitVec 5) (o : BitVec 13)
  /-- LD_D: R93 Scalar doubleword load. -/
  | ldD (d : BitVec 5) (a : BitVec 5) (o : BitVec 13)
  /-- ST_B: R93 Scalar byte store. -/
  | stB (d : BitVec 5) (a : BitVec 5) (o : BitVec 13)
  /-- ST_H: R93 Scalar halfword store. -/
  | stH (d : BitVec 5) (a : BitVec 5) (o : BitVec 13)
  /-- ST_W: R93 Scalar word store. -/
  | stW (d : BitVec 5) (a : BitVec 5) (o : BitVec 13)
  /-- ST_D: R93 Scalar doubleword store. -/
  | stD (d : BitVec 5) (a : BitVec 5) (o : BitVec 13)
  /-- AMO_ADD: R95 Scoped atomic add. -/
  | amoAdd (d : BitVec 5) (a : BitVec 5) (b : BitVec 5) (s : BitVec 3)
  /-- AMO_SWAP: R95 Scoped atomic swap. -/
  | amoSwap (d : BitVec 5) (a : BitVec 5) (b : BitVec 5) (s : BitVec 3)
  /-- AMO_CAS: R95 Scoped atomic compare-and-swap. -/
  | amoCas (d : BitVec 5) (a : BitVec 5) (b : BitVec 5) (s : BitVec 3)
  /-- AMO_MIN: R95 Scoped atomic signed minimum. -/
  | amoMin (d : BitVec 5) (a : BitVec 5) (b : BitVec 5) (s : BitVec 3)
  /-- AMO_MAX: R95 Scoped atomic signed maximum. -/
  | amoMax (d : BitVec 5) (a : BitVec 5) (b : BitVec 5) (s : BitVec 3)
  /-- AMO_AND: R95 Scoped atomic AND. -/
  | amoAnd (d : BitVec 5) (a : BitVec 5) (b : BitVec 5) (s : BitVec 3)
  /-- AMO_OR: R95 Scoped atomic OR. -/
  | amoOr (d : BitVec 5) (a : BitVec 5) (b : BitVec 5) (s : BitVec 3)
  /-- BR: R96 Branch to a block header at a signed halfword offset. -/
  | br (d : BitVec 5) (a : BitVec 5) (i : BitVec 15)
  /-- CALL: R96 Writes s31 with the next block header and branches. -/
  | call (d : BitVec 5) (a : BitVec 5) (i : BitVec 15)
  /-- JR: R97 Jumps to A[15:0]. -/
  | jr (a : BitVec 5)
  /-- CALLR: R97 Register call: writes s31 and jumps to A. -/
  | callr (a : BitVec 5)
  /-- EXIT: R98 Exit of an atomic block, evaluated at the end of its body. -/
  | exit (d : BitVec 5) (a : BitVec 5) (i : BitVec 15)
  /-- QPUSH: R99 Appends a register to a value queue, waiting for room. -/
  | qpush (q : BitVec 3) (a : BitVec 5)
  /-- QPOP: R99 Removes a value-queue head into a register, waiting for an entry. -/
  | qpop (d : BitVec 5) (q : BitVec 3)
  /-- QPUSH_T: R99 Queue push with timeout writing p23. -/
  | qpushT (q : BitVec 3) (a : BitVec 5) (b : BitVec 5)
  /-- QPOP_T: R99 Queue pop with timeout writing p23. -/
  | qpopT (d : BitVec 5) (q : BitVec 3) (b : BitVec 5)
  /-- KPUSH: R100 Pushes one token to a peer sequencer. -/
  | kpush (p : BitVec 2)
  /-- KPOP: R100 Pops one token from a peer sequencer. -/
  | kpop (p : BitVec 2)
  /-- CUT: R101 Appends a CUT word to the named control queues and zeroes CTL's tokens to them. -/
  | cut (m : BitVec 10) (s : BitVec 3)
  /-- FWAIT: R107 Waits with timeout until a flag reaches a target value. -/
  | fwait (d : BitVec 5) (a : BitVec 5) (b : BitVec 5)
  /-- BWAIT: R111 Waits with timeout for a barrier PHASE change and acquires. -/
  | bwait (d : BitVec 5) (a : BitVec 5) (b : BitVec 5)
  /-- BAR_INIT: R108 Initialises a transaction barrier word. -/
  | barInit (a : BitVec 5) (b : BitVec 5)
  /-- BAR_ARRIVE: R109 Releases and subtracts one pending arrival, possibly flipping the barrier. -/
  | barArrive (a : BitVec 5)
  /-- BAR_EXPECT: R109 Adds expected bytes to a barrier's pending count. -/
  | barExpect (a : BitVec 5) (b : BitVec 5)
  /-- FENCE: R112 Orders CTL's scalar accesses at a scope. -/
  | fence (s : BitVec 3)
  /-- TIME: R113 Reads the region's TIME counter. -/
  | time (d : BitVec 5)
  /-- CONTAIN: R114 Opens a containment region with a handler. -/
  | contain (d : BitVec 5) (a : BitVec 5) (i : BitVec 15)
  /-- UNCONTAIN: R114 Closes the open containment region. -/
  | uncontain
  /-- TRAP: R117 Raises TRAPI with EINFO := A. -/
  | trap (a : BitVec 5)
  /-- ERET: R118 Returns from a trap handler and releases the other streams. -/
  | eret
  /-- CSRR: R119 Reads a control register. -/
  | csrr (d : BitVec 5) (a : BitVec 5) (b : BitVec 5)
  /-- CSRW: R119 Writes a control register field by field. -/
  | csrw (d : BitVec 5) (a : BitVec 5) (b : BitVec 5)
  /-- CT_OPEN: R121 Submits a contract descriptor to admission. -/
  | ctOpen (d : BitVec 5) (a : BitVec 5)
  /-- CT_CLOSE: R121 Closes a contract. -/
  | ctClose (d : BitVec 5) (a : BitVec 5)
  /-- YIELD: R122 Ends the task's run, completing it or returning it to the pool. -/
  | yield (a : BitVec 5)
  /-- BRK: R117 Debug stop or BRK trap. -/
  | brk
  /-- COPY_G2S: R126 Enqueues a global-to-scratchpad copy. -/
  | copyG2s (d : BitVec 5) (a : BitVec 5) (b : BitVec 5) (c : BitVec 5) (z : BitVec 1)
  /-- COPY_S2G: R126 Enqueues a scratchpad-to-global copy. -/
  | copyS2g (d : BitVec 5) (a : BitVec 5) (b : BitVec 5) (c : BitVec 5) (z : BitVec 1)
  /-- COPY_G2C: R126 Enqueues a global-to-cluster copy, optionally setting page form. -/
  | copyG2c (d : BitVec 5) (a : BitVec 5) (b : BitVec 5) (c : BitVec 5) (z : BitVec 1)
  /-- COPY_C2G: R126 Enqueues a cluster-to-global copy. -/
  | copyC2g (d : BitVec 5) (a : BitVec 5) (b : BitVec 5) (c : BitVec 5) (z : BitVec 1)
  /-- COPY_C2S: R126 Enqueues a cluster-to-scratchpad copy. -/
  | copyC2s (d : BitVec 5) (a : BitVec 5) (b : BitVec 5) (c : BitVec 5) (z : BitVec 1)
  /-- COPY_S2C: R126 Enqueues a scratchpad-to-cluster copy, optionally setting page form. -/
  | copyS2c (d : BitVec 5) (a : BitVec 5) (b : BitVec 5) (c : BitVec 5) (z : BitVec 1)
  /-- COPY_X2S: R143 Enqueues a decoding copy of a compressed stream into scratchpad. -/
  | copyX2s (d : BitVec 5) (a : BitVec 5) (b : BitVec 5) (c : BitVec 5) (z : BitVec 1)
  /-- COPY_S2X: R144 Enqueues an encoding copy of scratchpad into a compressed stream. -/
  | copyS2x (d : BitVec 5) (a : BitVec 5) (b : BitVec 5) (c : BitVec 5) (z : BitVec 1)
  /-- COPY_RING: R134 Enqueues a copy into a reserved ring slot. -/
  | copyRing (d : BitVec 4) (a : BitVec 5) (b : BitVec 5) (z : BitVec 1)
  /-- COPY_MX: R137 Ring copy that chains a control word and token to MX at completion. -/
  | copyMx (d : BitVec 4) (a : BitVec 5) (b : BitVec 5) (c : BitVec 5) (z : BitVec 1)
  /-- COPY_MC: R138 Enqueues a multicast copy into the quad's selected scratchpads. -/
  | copyMc (d : BitVec 5) (a : BitVec 5) (b : BitVec 5) (c : BitVec 5) (z : BitVec 1)
  /-- CP_SNAP: R149 Enqueues a snapshot-delta command. -/
  | cpSnap (a : BitVec 5) (b : BitVec 5)
  /-- SALLOC: R147 Allocates kerf-guarded scratchpad from the top stack. -/
  | salloc (d : BitVec 5) (a : BitVec 5)
  /-- SFREE: R147 Frees the newest scratchpad allocation. -/
  | sfree (a : BitVec 5)
  /-- IMLD: R151 Loads halfwords into a stream's instruction memory. -/
  | imld (a : BitVec 5) (b : BitVec 5) (c : BitVec 5)
  /-- PEER_IMP: R158 Maps an exported handle into the peer window. -/
  | peerImp (d : BitVec 5) (a : BitVec 5) (b : BitVec 5)
  /-- PEER_EXP: R157 Exports a global range as a handle. -/
  | peerExp (d : BitVec 5) (a : BitVec 5) (b : BitVec 5) (c : BitVec 5)
  /-- PEER_REL: R159 Releases an import or revokes an export. -/
  | peerRel (d : BitVec 5) (a : BitVec 5)
  /-- RENQ: R152 Remote enqueue of a value into another core's control queue. -/
  | renq (a : BitVec 5) (b : BitVec 5) (c : BitVec 5)
  /-- TASK_POST: R153 Writes a task record into the domain's ready pool. -/
  | taskPost (d : BitVec 5) (a : BitVec 5) (b : BitVec 5)
  /-- DQ_PUSH: R154 Pushes a value at the bottom of the core's deque. -/
  | dqPush (a : BitVec 5) (c : BitVec 5)
  /-- DQ_POP: R154 Pops the bottom of the core's deque. -/
  | dqPop (d : BitVec 5) (c : BitVec 5)
  /-- DQ_STEAL: R154 Steals the top entry of another core's deque. -/
  | dqSteal (d : BitVec 5) (a : BitVec 5) (c : BitVec 5)
  /-- RNG_SET: R155 Sets the range registers and chunk size. -/
  | rngSet (a : BitVec 5) (b : BitVec 5) (c : BitVec 5)
  /-- RNG_TAKE: R155 Takes the next chunk of the own range. -/
  | rngTake (d : BitVec 5) (a : BitVec 5) (c : BitVec 5)
  /-- RNG_STEAL: R155 Steals the upper half of another core's range. -/
  | rngSteal (d : BitVec 5) (a : BitVec 5) (b : BitVec 5) (c : BitVec 5)
  /-- GATH: R145 Gathers bytes within scratchpad by point, reading all sources first. -/
  | gath (d : BitVec 4) (a : BitVec 4)
  /-- SCAT: R145 Scatters bytes within scratchpad point by point. -/
  | scat (d : BitVec 4) (a : BitVec 4)
  /-- GATH_Q: R146 Gathers points into 1 KiB rows pushed into q5. -/
  | gathQ (a : BitVec 4)
  /-- RING_INIT: R133 Makes an address-generator set a ring. -/
  | ringInit (d : BitVec 4) (a : BitVec 5) (b : BitVec 5)
  /-- RING_PUSH: R135 Reserves a ring slot and copies scratchpad bytes into it. -/
  | ringPush (d : BitVec 4) (a : BitVec 5)
  /-- RING_POP: R135 Pops the ring head slot's address, holding the slot. -/
  | ringPop (d : BitVec 5) (a : BitVec 4)
  /-- VENC: R161 Submits one frame to the die's encoder queues. -/
  | venc (d : BitVec 5) (a : BitVec 5) (b : BitVec 5)
  /-- WLOAD: R166 Fills a weight buffer with a full weight set. -/
  | wload (g : BitVec 4)
  /-- WLOAD_SPEC: R167 Fills a weight buffer with a spectral weight set. -/
  | wloadSpec (g : BitVec 4)
  /-- SLOAD: R169 Loads an activation or staged weight E3M5 scale table. -/
  | sload (g : BitVec 4) (s : BitVec 4)
  /-- BLOAD: R171 Loads eight BF16 band scales. -/
  | bload (g : BitVec 4)
  /-- OLOAD: R170 Loads an activation or staged weight outlier list. -/
  | oload (g : BitVec 4) (s : BitVec 4)
  /-- BGEO: R168 Sets the stream's FP4 block rectangle. -/
  | bgeo (g : BitVec 4)
  /-- MMA: R174 Systolic matrix multiply-accumulate into an accumulator tile. -/
  | mma (d : BitVec 4) (g : BitVec 4) (s : BitVec 4)
  /-- MMA_SPEC: R180 Per-bin complex matrix product of a spectral tile. -/
  | mmaSpec (d : BitVec 4) (a : BitVec 4) (s : BitVec 4)
  /-- MZERO: R178 Zeroes an accumulator tile and clears its drain record. -/
  | mzero (d : BitVec 4)
  /-- XF_FWD: R182 Forward real transform of a tile into its spectral pair. -/
  | xfFwd (d : BitVec 4) (a : BitVec 4) (s : BitVec 4)
  /-- XF_INV: R183 Inverse transform of a spectral tile into its spatial pair. -/
  | xfInv (d : BitVec 4) (a : BitVec 4)
  /-- DOM_SCL: R184 Scales a spectral tile by a power of two. -/
  | domScl (d : BitVec 4) (a : BitVec 4) (s : BitVec 4)
  /-- SEGCHK: R187 Compares segment cycle count and CRC with a constant row. -/
  | segchk (c : BitVec 6)
  /-- VADD: R196 Lane-wise add. -/
  | vadd (d : BitVec 6) (a : BitVec 8) (b : BitVec 8)
  /-- VSUB: R196 Lane-wise subtract. -/
  | vsub (d : BitVec 6) (a : BitVec 8) (b : BitVec 8)
  /-- VMUL: R196 Lane-wise multiply. -/
  | vmul (d : BitVec 6) (a : BitVec 8) (b : BitVec 8)
  /-- VMIN: R196 Lane-wise minimum. -/
  | vmin (d : BitVec 6) (a : BitVec 8) (b : BitVec 8)
  /-- VMAX: R196 Lane-wise maximum. -/
  | vmax (d : BitVec 6) (a : BitVec 8) (b : BitVec 8)
  /-- VABS: R196 Lane-wise absolute value. -/
  | vabs (d : BitVec 6) (a : BitVec 8)
  /-- VNEG: R196 Lane-wise negation. -/
  | vneg (d : BitVec 6) (a : BitVec 8)
  /-- VMOV: R196 Lane-wise bit-pattern move. -/
  | vmov (d : BitVec 6) (a : BitVec 8)
  /-- VFMA: R197 Fused A*B + D. -/
  | vfma (d : BitVec 6) (a : BitVec 8) (b : BitVec 8)
  /-- VFMS: R197 Fused A*B - D. -/
  | vfms (d : BitVec 6) (a : BitVec 8) (b : BitVec 8)
  /-- VFNMA: R197 Fused -A*B + D. -/
  | vfnma (d : BitVec 6) (a : BitVec 8) (b : BitVec 8)
  /-- VFNMS: R197 Fused -A*B - D. -/
  | vfnms (d : BitVec 6) (a : BitVec 8) (b : BitVec 8)
  /-- VCMUL: R197 Complex multiply-accumulate. -/
  | vcmul (d : BitVec 6) (a : BitVec 8) (b : BitVec 8)
  /-- VAND: R198 Lane-wise AND of patterns. -/
  | vand (d : BitVec 6) (a : BitVec 8) (b : BitVec 8)
  /-- VOR: R198 Lane-wise OR of patterns. -/
  | vor (d : BitVec 6) (a : BitVec 8) (b : BitVec 8)
  /-- VXOR: R198 Lane-wise XOR of patterns. -/
  | vxor (d : BitVec 6) (a : BitVec 8) (b : BitVec 8)
  /-- VSHL: R198 Lane-wise shift left. -/
  | vshl (d : BitVec 6) (a : BitVec 8) (b : BitVec 8)
  /-- VSHR: R198 Lane-wise logical shift right. -/
  | vshr (d : BitVec 6) (a : BitVec 8) (b : BitVec 8)
  /-- VSRA: R198 Lane-wise arithmetic shift right. -/
  | vsra (d : BitVec 6) (a : BitVec 8) (b : BitVec 8)
  /-- VADDS: R198 Lane-wise saturating add. -/
  | vadds (d : BitVec 6) (a : BitVec 8) (b : BitVec 8)
  /-- VSUBS: R198 Lane-wise saturating subtract. -/
  | vsubs (d : BitVec 6) (a : BitVec 8) (b : BitVec 8)
  /-- VCVT: R199 Converts lanes between element types in a rounding mode. -/
  | vcvt (d : BitVec 6) (a : BitVec 8) (t : BitVec 4) (p : BitVec 3) (r : BitVec 3)
  /-- VQUANT: R201 Quantises a row to E2M1 codes with block scales. -/
  | vquant (d : BitVec 6) (a : BitVec 8) (b : BitVec 8)
  /-- VCMP_EQ: R202 Lane compare equal into a mask. -/
  | vcmpEq (d : BitVec 6) (a : BitVec 8) (b : BitVec 8)
  /-- VCMP_NE: R202 Lane compare not equal into a mask. -/
  | vcmpNe (d : BitVec 6) (a : BitVec 8) (b : BitVec 8)
  /-- VCMP_LT: R202 Lane compare less-than into a mask. -/
  | vcmpLt (d : BitVec 6) (a : BitVec 8) (b : BitVec 8)
  /-- VCMP_LE: R202 Lane compare less-or-equal into a mask. -/
  | vcmpLe (d : BitVec 6) (a : BitVec 8) (b : BitVec 8)
  /-- VCMP_GT: R202 Lane compare greater-than into a mask. -/
  | vcmpGt (d : BitVec 6) (a : BitVec 8) (b : BitVec 8)
  /-- VCMP_GE: R202 Lane compare greater-or-equal into a mask. -/
  | vcmpGe (d : BitVec 6) (a : BitVec 8) (b : BitVec 8)
  /-- VCMP_UN: R202 Lane unordered compare into a mask. -/
  | vcmpUn (d : BitVec 6) (a : BitVec 8) (b : BitVec 8)
  /-- VSEL: R203 Selects lanes of A or B by the block mask. -/
  | vsel (d : BitVec 6) (a : BitVec 8) (b : BitVec 8)
  /-- MAND: R203 AND of two masks. -/
  | mand (d : BitVec 6) (a : BitVec 8) (b : BitVec 8)
  /-- MOR: R203 OR of two masks. -/
  | mor (d : BitVec 6) (a : BitVec 8) (b : BitVec 8)
  /-- MXOR: R203 XOR of two masks. -/
  | mxor (d : BitVec 6) (a : BitVec 8) (b : BitVec 8)
  /-- MNOT: R203 Complement of a mask. -/
  | mnot (d : BitVec 6) (a : BitVec 8)
  /-- VRED_ADD: R204 Pairwise-tree sum reduction of a row. -/
  | vredAdd (d : BitVec 6) (a : BitVec 8)
  /-- VRED_MAX: R204 Maximum reduction of a row. -/
  | vredMax (d : BitVec 6) (a : BitVec 8)
  /-- VRED_MIN: R204 Minimum reduction of a row. -/
  | vredMin (d : BitVec 6) (a : BitVec 8)
  /-- VRED_AMAX: R204 Absolute-maximum reduction of a row. -/
  | vredAmax (d : BitVec 6) (a : BitVec 8)
  /-- VEXP2: R205 Lane-wise 2^x. -/
  | vexp2 (d : BitVec 6) (a : BitVec 8)
  /-- VLOG2: R205 Lane-wise log2 x. -/
  | vlog2 (d : BitVec 6) (a : BitVec 8)
  /-- VRCP: R205 Lane-wise reciprocal. -/
  | vrcp (d : BitVec 6) (a : BitVec 8)
  /-- VRSQRT: R205 Lane-wise reciprocal square root. -/
  | vrsqrt (d : BitVec 6) (a : BitVec 8)
  /-- VTANH: R205 Lane-wise tanh. -/
  | vtanh (d : BitVec 6) (a : BitVec 8)
  /-- VSIGM: R205 Lane-wise logistic sigmoid. -/
  | vsigm (d : BitVec 6) (a : BitVec 8)
  /-- VTOPK: R206 Merges a row of candidates into a top-k list. -/
  | vtopk (d : BitVec 6) (a : BitVec 8) (b : BitVec 8)
  /-- VPERM: R207 Permutes lanes within groups. -/
  | vperm (d : BitVec 6) (a : BitVec 8) (b : BitVec 8)
  /-- VBCAST: R207 Broadcasts one lane. -/
  | vbcast (d : BitVec 6) (a : BitVec 8) (b : BitVec 8)
  /-- VREV: R207 Reverses lane order. -/
  | vrev (d : BitVec 6) (a : BitVec 8)
  /-- TCFG: R210 Configures a tile shape from a scalar register. -/
  | tcfg (d : BitVec 6) (a : BitVec 8)
  /-- TROW_RD: R211 Reads a tile row into a vector row. -/
  | trowRd (d : BitVec 6) (a : BitVec 8) (b : BitVec 8)
  /-- TROW_WR: R211 Writes a vector row into a tile row. -/
  | trowWr (d : BitVec 6) (a : BitVec 8) (b : BitVec 8)
  /-- TCOL_RD: R211 Reads a tile column into a vector row. -/
  | tcolRd (d : BitVec 6) (a : BitVec 8) (b : BitVec 8)
  /-- TCOL_WR: R211 Writes a vector row into a tile column, row by row. -/
  | tcolWr (d : BitVec 6) (a : BitVec 8) (b : BitVec 8)
  /-- TCLEAN: R212 Clears a tile's DIRTY bit. -/
  | tclean (d : BitVec 6)
  /-- VPUSH: R209 Appends a row to q6. -/
  | vpush (m : QueueMove)
  /-- VPOP: R209 Pops the head row of q5 into a vector row. -/
  | vpop (m : QueueMove)
  /-- DRAIN: R215 Drains accumulator tile rows into scratchpad with conversion. -/
  | drain (a : BitVec 4) (g : BitVec 4) (s : BitVec 4)
  /-- DRAIN_Q: R215 Drains rows popped from q6 into scratchpad with conversion. -/
  | drainQ (g : BitVec 4) (s : BitVec 4)
  /-- VINS: R208 Inserts a scalar into one lane. -/
  | vins (d : BitVec 6) (a : BitVec 8) (b : BitVec 8)
  /-- VEXT: R208 Extracts one lane into an MX scalar register. -/
  | vext (d : BitVec 6) (a : BitVec 8) (b : BitVec 8)
  /-- BLOCK_ENTRY: R55 Decodes a block header, pops a rep=q count, waits and starts repetitions. -/
  | blockEntry
  /-- ATOMIC_BLOCK_COMMIT: R63 A firing exit commits every buffered effect of an atomic block once room exists. -/
  | atomicBlockCommit
  /-- RETIREMENT: R246 An instruction retires and makes its token pushes and ring pops. -/
  | retirement (core : Nat) (sq : Stream)
  /-- QUEUE_STALL_END: R19 A push or pop stalled on a full or empty value queue proceeds. -/
  | queueStallEnd
  /-- TOKEN_STALL_END: R20 A token pop or push stalled on a count proceeds. -/
  | tokenStallEnd
  /-- RING_STALL_END: R135 A ring pop stalled on an empty ring proceeds. -/
  | ringStallEnd
  /-- FLAG_WAIT_MET: R107 A fwait's flag reaches its target value and the wait completes. -/
  | flagWaitMet
  /-- BARRIER_WAIT_MET: R111 A bwait sees PHASE change and completes with its acquire. -/
  | barrierWaitMet
  /-- HEADER_WAIT_MET: R57 A CTL header wait sees its flag value and the block issues. -/
  | headerWaitMet
  /-- WAIT_TIMEOUT: R39 A flag, barrier or header wait expires and writes p22 := 1. -/
  | waitTimeout
  /-- QUEUE_OP_TIMEOUT: R73 A timed queue operation, renq or task.post expires and writes p23 := 1. -/
  | queueOpTimeout
  /-- ACQUIRE_COMPLETION: R263 An acquire completes once local TIME reaches the carried value and stamps are met. -/
  | acquireCompletion
  /-- CUT_TAKEN: R102 A consumer takes a CUT word, discards entries and abandons its block. -/
  | cutTaken
  /-- MARK_FOUND: R103 A CUT search reaches the block beginning with the matching mark. -/
  | markFound
  /-- CUT_MEETING: R104 All named consumers have found their marks and meet, resetting tokens and queues. -/
  | cutMeeting (core : Nat)
  /-- COPY_APPEND: R128 A stalled copy enqueue gets room or a ring slot and is appended. -/
  | copyAppend
  /-- IMLD_COMPLETE: R151 An instruction-memory load finishes and CTL proceeds. -/
  | imldComplete (core : Nat)
  /-- CONTEXT_SWITCH: R25 Exchanges the live context with a shadow in 100 cc. -/
  | contextSwitch (core : Nat) (shadow : Bool)
  /-- AGEING: R276 A task READY for 2^20 cc is raised one band. -/
  | ageing (dom : Nat) (slot : Nat)
  /-- CONTRACT_RELEASE: R283 A contract's period elapses and its oldest ready task becomes the job. -/
  | contractRelease (dom : Nat) (contract : Nat)
  /-- OVERRUN: R285 A job's budget count reaches BUDGET; it is moved aside and loses contract rank. -/
  | overrun (core : Nat)
  /-- MISS: R285 A job's absolute deadline passes before completion. -/
  | miss (dom : Nat) (contract : Nat)
  /-- CAPTURE_STOP: R361 The armed count of cycles ends and the core stops with BRK. -/
  | captureStop (core : Nat)
  /-- FREQUENCY_CHANGE: R394 Every region switches point when its TIME reaches T. -/
  | frequencyChange
  /-- RAIL_SAMPLE: R385 Every 1 µs all rail sensors are sampled and power records written. -/
  | railSample
  /-- STEP_END: R380 A step reaches its issue or retirement and the core stops. -/
  | stepEnd (core : Nat)
  /-- STEP_TIMEOUT: R380 A step not ended within 65,536 live cycles stops with WHY 4. -/
  | stepTimeout (core : Nat)
  /-- TRACE_SAMPLE: R373 A sample point writes SAMPLE records for selected heads. -/
  | traceSample (core : Nat)
  /-- REPLAY_INJECT: R389 A logged external event is injected once all issue counts reach its cut. -/
  | replayInject (core : Nat)
  /-- UNASSIGNED_ENCODING: R81 An issue unit whose major or function is unassigned is decoded and traps ILLEGAL on every core. -/
  | unassignedEncoding
  /-- COPY_START: R128 The copy engine starts the next queued command. -/
  | copyStart (core : Nat)
  /-- COPY_COMPLETION: R129 All bytes of a command have landed; ring count, status, barrier or flag follow. -/
  | copyCompletion (core : Nat) (pos : Nat)
  /-- COPY_MX_CHAINED_PUSH: R137 A completed copy.mx pushes its control word into q1 and a token into k.cm once room exists. -/
  | copyMxChainedPush (core : Nat)
  /-- SNAPSHOT_COMPLETION: R150 The snapshot unit finishes its blocks, writes header and counts to its target. -/
  | snapshotCompletion (core : Nat) (pos : Nat)
  /-- KBC_RELAYOUT: R141 A locked KBC page finishes its re-layout at a larger class and unlocks. -/
  | kbcRelayout (quad : Nat) (page : Nat)
  /-- REMOTE_ENQUEUE_ARRIVAL: R152 A renq entry reaches the target queue and bumps its flag. -/
  | remoteEnqueueArrival (core : Nat)
  /-- REMOTE_WRITE_APPLY: R258 A home applies a stamped remote write once its dependencies are applied. -/
  | remoteWriteApply (ix : Nat)
  /-- ENCODER_START: R161 A free encoder engine takes the next eligible submission. -/
  | encoderStart (die : Nat) (engine : Nat)
  /-- ENCODER_COMPLETION: R161 An encoder finishes a frame, writes OUTLEN and acts on its target. -/
  | encoderCompletion (die : Nat) (engine : Nat)
  /-- DISPATCH_BIND: R277 The dispatcher binds a ready task to an idle capable core. -/
  | dispatchBind (dom : Nat) (slot : Nat) (core : Nat)
  /-- TASK_START: R274 A fresh task's slice, code, constants and operands are loaded and sequencers start. -/
  | taskStart (core : Nat)
  /-- PRELOAD: R278 A ready task is placed into a core's idle shadow. -/
  | preload (dom : Nat) (slot : Nat) (core : Nat)
  /-- PREEMPT_STOP: R280 After a yield request the core stops at class stop points. -/
  | preemptStop (core : Nat)
  /-- SAVE_START: R328 The spindle starts streaming a shadow context out. -/
  | saveStart (core : Nat) (shadow : Bool)
  /-- SAVE_COMPLETE: R333 The spindle writes the shaving header last and the slot changes state. -/
  | saveComplete (core : Nat)
  /-- RESTORE_COMPLETE: R327 A streamed restore finishes and a waiting switch may proceed. -/
  | restoreComplete (core : Nat)
  /-- TASK_COMPLETION: R273 After its commands drain, a completed task releases successors and frees its slot. -/
  | taskCompletion (dom : Nat) (slot : Nat)
  /-- RERUN: R287 POOLCMD command restarting a faulted task afresh. -/
  | rerun (owner : Nat) (slot : BitVec 12)
  /-- RESUME: R287 POOLCMD command making a faulted task SAVED to restart from its shaving. -/
  | resume (owner : Nat) (slot : BitVec 12)
  /-- DROP: R287 POOLCMD command freeing a slot without releasing successors. -/
  | drop (owner : Nat) (slot : BitVec 12)
  /-- RELEASE: R287 POOLCMD command treating a faulted task as completed. -/
  | release (owner : Nat) (slot : BitVec 12)
  /-- EVICT: R287 POOLCMD command pre-empting a running task. -/
  | evict (owner : Nat) (slot : BitVec 12)
  /-- POOLQ_WRITE: R286 Hyp write of a partition's slot range, refused on overlap. -/
  | poolqWrite (owner : Nat) (v : Word)
  /-- POOLPW_WRITE: R70 Write of the pool partition word, refused on bad slices. -/
  | poolpwWrite (core : Nat) (v : Word)
  /-- TSH_WRITE: R68 Write of a tile shape register configuring the tile. -/
  | tshWrite (core : Nat) (tile : BitVec 4) (v : Word)
  /-- AGND_WRITE: R133 Write of AGnD0 or AGnD1, which ends the set's ring. -/
  | agndWrite (core : Nat) (set : BitVec 4) (dim : Bool) (v : Word)
  /-- CAPSTOP_WRITE: R361 Arms a capture stop on the next array operation. -/
  | capstopWrite (core : Nat) (v : Word)
  /-- QUAD_DEACTIVATE: R300 PARTCFG.ACTIVE := 0 evicts the quad's tasks and starts clearing. -/
  | quadDeactivate (quad : Nat)
  /-- QUAD_ACTIVATE: R300 PARTCFG.ACTIVE := 1 joins the quad to the partition OWNER names. -/
  | quadActivate (quad : Nat)
  /-- QUAD_CLEARING: R325 After saves and commands finish, the quad's state is zeroed. -/
  | quadClearing (quad : Nat)
  /-- QUAD_CLEAR_DONE: R300 Clearing ends and CLEAR returns to 0. -/
  | quadClearDone (quad : Nat)
  /-- PARTSLOT_WRITE: R301 Hyp write of a partition's HBM slot counts, refused above 240. -/
  | partslotWrite (owner : Nat) (v : Word)
  /-- REGOWN_WRITE: R307 Hyp write of region ownership. -/
  | regownWrite (region : Nat) (v : Byte)
  /-- REGION_ZEROING: R307 Once no command holds a page, the region is written with zeros. -/
  | regionZeroing (region : Nat)
  /-- REGION_ZEROING_DONE: R307 Zeroing ends and ZEROING returns to 0. -/
  | regionZeroingDone (region : Nat)
  /-- ENCOWN_WRITE: R305 Hyp write of encoder engine ownership. -/
  | encownWrite (die : Nat) (v : Word)
  /-- ENCOWN_EFFECT: R305 An engine's new owner takes effect once its queue has emptied. -/
  | encownEffect (die : Nat) (engine : Nat)
  /-- TLB_INVALIDATE: R311 TLBINV write invalidating translations covering one VA. -/
  | tlbInvalidate (core : Nat) (va : BitVec 40)
  /-- TLB_INVALIDATE_ALL: R311 TLBINV write invalidating every translation of the partition. -/
  | tlbInvalidateAll (core : Nat)
  /-- PMR_EXTEND: R323 PMREXT write extending a partition measurement register. -/
  | pmrExtend (core : Nat) (x : Extension)
  /-- ATTEST_REQUEST: R324 ATTREQ write submitting an attestation request. -/
  | attestRequest (core : Nat) (v : Word)
  /-- ATTEST_REPORT: R324 The security engine writes the signed report and increments the flag. -/
  | attestReport (ix : Nat)
  /-- FREQAT_WRITE: R393 Arms a frequency change at a TIME, refused if too soon. -/
  | freqatWrite (v : Word)
  /-- POWER_CONTROL_WINDOW: R397 At each 1 ms window end power control adjusts CEIL. -/
  | powerControlWindow (watts : Nat)
  /-- WEARSEL_WRITE: R398 Hyp selection of a wear region, refused for invalid codes. -/
  | wearselWrite (v : Word)
  /-- WEAR_UPDATE: R398 Hourly conversion of drift and stress into end-of-life predictions. -/
  | wearUpdate (region : Nat)
  /-- TIME_CORRECTION: R395 A region holds or adds ticks to align TIME with the pod reference. -/
  | timeCorrection (region : Nat) (ahead : Bool)
  /-- SCRUB_LINE: R350 The scrubber reads a line and conditionally writes back or poisons it. -/
  | scrubLine (line : Nat)
  /-- STOP: R376 DBGCMD STOP freezes cores of the scope at a consistent cut. -/
  | stop (core : Nat) (scope : BitVec 2)
  /-- RUN: R379 DBGCMD RUN releases stopped cores. -/
  | run (core : Nat) (scope : BitVec 2)
  /-- STEP_ISSUE: R380 DBGCMD releasing one sequencer to issue one unit. -/
  | stepIssue (core : Nat) (sq : Stream)
  /-- STEP_RETIRE: R380 DBGCMD releasing one sequencer until one unit retires. -/
  | stepRetire (core : Nat) (sq : Stream)
  /-- DUMP: R379 DBGCMD writing the stopped context to DBGAREA as a shaving. -/
  | dump (core : Nat)
  /-- DUMP_DONE: R379 The dump header is written and DONE becomes 1. -/
  | dumpDone (core : Nat)
  /-- LOAD: R379 DBGCMD restoring DBGAREA into the stopped context. -/
  | load (core : Nat)
  /-- TRCSRC_WRITE: R373 Selects trace sources and restarts the sample period count. -/
  | trcsrcWrite (core : Nat) (v : Word)
  /-- TL_CLEAR: R384 TLSEL.CLR zeroes every time-loss counter of the core. -/
  | tlClear (core : Nat)
  /-- HOST_WINDOW_ACCESS: R320 An 8-byte access through a hyp or guest window reaches a register or memory. -/
  | hostWindowAccess (win : Window) (write : Bool) (off : Nat) (v : Word)
  /-- POD_LINK_WRITE: R265 A write arriving over a pod link is applied under stamp entry 8. -/
  | podLinkWrite (path : PodPath) (va : BitVec 56) (v : Word)
  /-- HOST_PORT_TRAINING: R399 A host port trains its UCIe link and mode; without a mode, the port is reset. -/
  | hostPortTraining (port : Nat) (ucie2 : Option Bool) (narrow : Bool)
  /-- POWER_ON_RESET: R400 Brings the package up through rails, boot, HBM, time base, dies and links. -/
  | powerOnReset (ok : Bool)
  /-- MAKER_DEBUG_UNLOCK: R325 A signed unlock clears all quads and regions and sets DEBUG. -/
  | makerDebugUnlock (signed : Bool)
  /-- HEARTBEAT: R355 Management controllers exchange heartbeats every 250 ms. -/
  | heartbeat (pkg : Nat)
  /-- PACKAGE_FAILURE_DETECTION: R355 A package silent for 1.5 s is declared failed and fenced. -/
  | packageFailureDetection (pkg : Nat)
  /-- BUDDY_RECORD_APPLY: R353 A buddy applies arriving snapshot records to its package image. -/
  | buddyRecordApply (pkg : Nat) (src : Nat) (block : Nat) (bytes : List Byte)
  /-- CHECKPOINT_MANIFEST: R354 A management controller writes and ships an epoch manifest. -/
  | checkpointManifest (epoch : Nat) (addr : BitVec 56) (ship : Shipment)
  /-- LOAD_DONE: R379 A debug LOAD finishes restoring DBGAREA into the stopped context and DONE becomes 1. -/
  | loadDone (core : Nat)
  /-- BUDDY_ACKNOWLEDGEMENT: R353 A buddy package acknowledges an epoch manifest, making checkpoint E valid once both buddies of every
  package have acknowledged. -/
  | buddyAcknowledgement (epoch : Nat) (pkg : Nat) (ack : Ack)
  /-- SPARE_ASSIGNMENT: R355 The pod manager binds a spare package and its partitions after a failure has been declared. -/
  | spareAssignment (pkg : Nat) (spare : Nat)
  deriving DecidableEq, Repr

end Sys2Proof
end

