-- ==== Sys2Proof/Decode.lean ====
section
/-! DEFINITION. The decoder of instruction words (R47, R49 to R51, R78 to R84) and the encoder written from the same tables.
The decoder accepts exactly the assigned majors and functions with their unused fields zero; a value that an accepted field may
not hold (R52, R72, R85 and the instruction's own rule) traps in the instruction's meaning. -/

namespace Sys2Proof

/-- Why a run of bytes is no instruction. -/
inductive Reject where
  /-- Fewer bytes than the framing of R47 asks for. -/
  | truncated
  /-- The halfword is a GRD, TYP or TOK halfword of R48, which starts a unit and is no instruction. -/
  | unitHalf
  /-- Unassigned major, unassigned function, or a reserved or unused field not zero (R80, R81, R83). -/
  | unassigned
  deriving DecidableEq, Repr

/-- C16: [0] 0, [5:1] MAJ, [10:6] X, [15:11] Y (R49). -/
def encC16 (maj x y : BitVec 5) : Half := y ++ x ++ maj ++ 0#1

/-- S32R (R50). -/
def encS32R (maj : BitVec 6) (d a b : BitVec 5) (fn : BitVec 6) : BitVec 32 := 0#4 ++ fn ++ b ++ a ++ d ++ maj ++ 1#1

/-- S32I (R50), IMM as one 15-bit field. -/
def encS32I (maj : BitVec 6) (d a : BitVec 5) (im : BitVec 15) : BitVec 32 := im ++ a ++ d ++ maj ++ 1#1

/-- M32 (R78). -/
def encM32 (maj : BitVec 6) (d a b c fn : BitVec 5) : BitVec 32 := fn ++ c ++ b ++ a ++ d ++ maj ++ 1#1

/-- X32 (R78). -/
def encX32 (maj : BitVec 6) (td ta ag sr : BitVec 4) (cr : BitVec 6) (f : BitVec 3) : BitVec 32 :=
  f ++ cr ++ sr ++ ag ++ ta ++ td ++ maj ++ 1#1

/-- V32 (R51). -/
def encV32 (maj d : BitVec 6) (a b : BitVec 8) (f : BitVec 3) : BitVec 32 := f ++ b ++ a ++ d ++ maj ++ 1#1

/-- The C16 majors (R83). -/
def decC16 (maj : Nat) (x y : BitVec 5) : Option Instr :=
  match maj with
  | 0 => if x = 0 ∧ y = 0 then some (.nop) else none
  | 1 => some (.movC16 x y)
  | 2 => some (.addiC16 x y)
  | 3 => some (.addC16 x y)
  | 4 => some (.subC16 x y)
  | 5 => some (.liC16 x y)
  | 6 => some (.pmov x y)
  | 7 => some (.pnot x y)
  | 8 => if x.extractLsb' 3 2 = 0 then some (.qpushC16 (x.extractLsb' 0 3) y) else none
  | 9 => if x.extractLsb' 3 2 = 0 then some (.qpopC16 (x.extractLsb' 0 3) y) else none
  | 10 => if x.extractLsb' 2 3 = 0 ∧ y = 0 then some (.kpushC16 (x.extractLsb' 0 2)) else none
  | 11 => if x.extractLsb' 2 3 = 0 ∧ y = 0 then some (.kpopC16 (x.extractLsb' 0 2)) else none
  | 12 => some (.mark x y)
  | 13 => if x = 0 ∧ y = 0 then some (.ret) else none
  | _ => none

/-- The majors of layout S32R (R81, R84). -/
def decS32R (maj : Nat) (d a b : BitVec 5) (fn : BitVec 6) : Option Instr :=
  match maj, fn.toNat with
  | 1, 0 => some (.add d a b)
  | 1, 1 => some (.sub d a b)
  | 1, 2 => some (.and d a b)
  | 1, 3 => some (.or d a b)
  | 1, 4 => some (.xor d a b)
  | 1, 5 => some (.shl d a b)
  | 1, 6 => some (.shr d a b)
  | 1, 7 => some (.sra d a b)
  | 1, 8 => some (.mul d a b)
  | 1, 9 => some (.mulh d a b)
  | 1, 10 => some (.mulhu d a b)
  | 1, 11 => some (.min d a b)
  | 1, 12 => some (.max d a b)
  | 1, 13 => some (.minu d a b)
  | 1, 14 => some (.maxu d a b)
  | 1, 15 => if b = 0 then some (.mov d a) else none
  | 5, 0 => some (.cmpEq d a b)
  | 5, 1 => some (.cmpNe d a b)
  | 5, 2 => some (.cmpLt d a b)
  | 5, 3 => some (.cmpLe d a b)
  | 5, 4 => some (.cmpGt d a b)
  | 5, 5 => some (.cmpGe d a b)
  | 5, 6 => some (.cmpLtu d a b)
  | 5, 7 => some (.cmpGeu d a b)
  | 5, 8 => some (.pand d a b)
  | 5, 9 => some (.por d a b)
  | 5, 10 => some (.pxor d a b)
  | 5, 11 => some (.pandn d a b)
  | 5, 16 => some (.sel d a b)
  | 12, 0 => if d = 0 ∧ b = 0 then some (.jr a) else none
  | 12, 1 => if d = 0 ∧ b = 0 then some (.callr a) else none
  | 14, 0 => if d.extractLsb' 3 2 = 0 ∧ b = 0 then some (.qpush (d.extractLsb' 0 3) a) else none
  | 14, 1 => if a.extractLsb' 3 2 = 0 ∧ b = 0 then some (.qpop d (a.extractLsb' 0 3)) else none
  | 14, 2 => if d.extractLsb' 3 2 = 0 then some (.qpushT (d.extractLsb' 0 3) a b) else none
  | 14, 3 => if a.extractLsb' 3 2 = 0 then some (.qpopT d (a.extractLsb' 0 3) b) else none
  | 14, 4 => if d.extractLsb' 2 3 = 0 ∧ a = 0 ∧ b = 0 then some (.kpush (d.extractLsb' 0 2)) else none
  | 14, 5 => if d.extractLsb' 2 3 = 0 ∧ a = 0 ∧ b = 0 then some (.kpop (d.extractLsb' 0 2)) else none
  | 16, 0 => some (.fwait d a b)
  | 16, 1 => some (.bwait d a b)
  | 16, 2 => if d = 0 then some (.barInit a b) else none
  | 16, 3 => if d = 0 ∧ b = 0 then some (.barArrive a) else none
  | 16, 4 => if d = 0 then some (.barExpect a b) else none
  | 16, 16 => if a = 0 ∧ b = 0 then some (.time d) else none
  | 18, 0 => if d = 0 ∧ a = 0 ∧ b = 0 then some (.uncontain) else none
  | 18, 1 => if d = 0 ∧ b = 0 then some (.trap a) else none
  | 18, 2 => if d = 0 ∧ a = 0 ∧ b = 0 then some (.eret) else none
  | 18, 3 => some (.csrr d a b)
  | 18, 4 => some (.csrw d a b)
  | 18, 5 => if b = 0 then some (.ctOpen d a) else none
  | 18, 6 => if b = 0 then some (.ctClose d a) else none
  | 18, 7 => if d = 0 ∧ b = 0 then some (.yield a) else none
  | 18, 8 => if d = 0 ∧ a = 0 ∧ b = 0 then some (.brk) else none
  | 9, _ => if fn.extractLsb' 0 3 = 0 then some (.amoAdd d a b (fn.extractLsb' 3 3)) else if fn.extractLsb' 0 3 = 1 then some (.amoSwap d a b (fn.extractLsb' 3 3)) else if fn.extractLsb' 0 3 = 2 then some (.amoCas d a b (fn.extractLsb' 3 3)) else if fn.extractLsb' 0 3 = 3 then some (.amoMin d a b (fn.extractLsb' 3 3)) else if fn.extractLsb' 0 3 = 4 then some (.amoMax d a b (fn.extractLsb' 3 3)) else if fn.extractLsb' 0 3 = 5 then some (.amoAnd d a b (fn.extractLsb' 3 3)) else if fn.extractLsb' 0 3 = 6 then some (.amoOr d a b (fn.extractLsb' 3 3)) else none
  | 16, _ => if d = 0 ∧ a = 0 ∧ b = 0 ∧ fn.extractLsb' 3 3 = 1 then some (.fence (fn.extractLsb' 0 3)) else none
  | _, _ => none

/-- The majors of layout S32I (R81, R84). -/
def decS32I (maj : Nat) (d a : BitVec 5) (im : BitVec 15) : Option Instr :=
  match maj with
  | 2 => some (.addi d a im)
  | 3 => if a = 0 then some (.li d im) else none
  | 4 => some (.andi d a im)
  | 6 => some (.cmpi d a (im.extractLsb' 0 12) (im.extractLsb' 12 3))
  | 7 => if im.extractLsb' 13 2 = 0 then some (.ldB d a (im.extractLsb' 0 13)) else if im.extractLsb' 13 2 = 1 then some (.ldH d a (im.extractLsb' 0 13)) else if im.extractLsb' 13 2 = 2 then some (.ldW d a (im.extractLsb' 0 13)) else if im.extractLsb' 13 2 = 3 then some (.ldD d a (im.extractLsb' 0 13)) else none
  | 8 => if im.extractLsb' 13 2 = 0 then some (.stB d a (im.extractLsb' 0 13)) else if im.extractLsb' 13 2 = 1 then some (.stH d a (im.extractLsb' 0 13)) else if im.extractLsb' 13 2 = 2 then some (.stW d a (im.extractLsb' 0 13)) else if im.extractLsb' 13 2 = 3 then some (.stD d a (im.extractLsb' 0 13)) else none
  | 10 => some (.br d a im)
  | 11 => some (.call d a im)
  | 13 => some (.exit d a im)
  | 15 => if d = 0 ∧ a = 0 ∧ im.extractLsb' 13 2 = 0 then some (.cut (im.extractLsb' 0 10) (im.extractLsb' 10 3)) else none
  | 17 => some (.contain d a im)
  | _ => none

/-- The majors of layout M32 (R81, R84). -/
def decM32 (maj : Nat) (d a b c fn : BitVec 5) : Option Instr :=
  match maj, fn.toNat with
  | 21, 0 => if d = 0 ∧ c = 0 then some (.cpSnap a b) else none
  | 21, 1 => if b = 0 ∧ c = 0 then some (.salloc d a) else none
  | 21, 2 => if d = 0 ∧ b = 0 ∧ c = 0 then some (.sfree a) else none
  | 21, 3 => if d = 0 then some (.imld a b c) else none
  | 21, 4 => if c = 0 then some (.peerImp d a b) else none
  | 21, 5 => some (.peerExp d a b c)
  | 21, 6 => if b = 0 ∧ c = 0 then some (.peerRel d a) else none
  | 22, 0 => if d = 0 then some (.renq a b c) else none
  | 22, 1 => if c = 0 then some (.taskPost d a b) else none
  | 22, 2 => if d = 0 ∧ b = 0 then some (.dqPush a c) else none
  | 22, 3 => if a = 0 ∧ b = 0 then some (.dqPop d c) else none
  | 22, 4 => if b = 0 then some (.dqSteal d a c) else none
  | 22, 5 => if d = 0 then some (.rngSet a b c) else none
  | 22, 6 => if b = 0 then some (.rngTake d a c) else none
  | 22, 7 => some (.rngSteal d a b c)
  | 23, 0 => if d.extractLsb' 4 1 = 0 ∧ a.extractLsb' 4 1 = 0 ∧ b = 0 ∧ c = 0 then some (.gath (d.extractLsb' 0 4) (a.extractLsb' 0 4)) else none
  | 23, 1 => if d.extractLsb' 4 1 = 0 ∧ a.extractLsb' 4 1 = 0 ∧ b = 0 ∧ c = 0 then some (.scat (d.extractLsb' 0 4) (a.extractLsb' 0 4)) else none
  | 23, 2 => if d = 0 ∧ a.extractLsb' 4 1 = 0 ∧ b = 0 ∧ c = 0 then some (.gathQ (a.extractLsb' 0 4)) else none
  | 23, 3 => if d.extractLsb' 4 1 = 0 ∧ c = 0 then some (.ringInit (d.extractLsb' 0 4) a b) else none
  | 23, 4 => if d.extractLsb' 4 1 = 0 ∧ b = 0 ∧ c = 0 then some (.ringPush (d.extractLsb' 0 4) a) else none
  | 23, 5 => if a.extractLsb' 4 1 = 0 ∧ b = 0 ∧ c = 0 then some (.ringPop d (a.extractLsb' 0 4)) else none
  | 24, 0 => if c = 0 then some (.venc d a b) else none
  | 20, _ => if fn.extractLsb' 0 4 = 0 then some (.copyG2s d a b c (fn.extractLsb' 4 1)) else if fn.extractLsb' 0 4 = 1 then some (.copyS2g d a b c (fn.extractLsb' 4 1)) else if fn.extractLsb' 0 4 = 2 then some (.copyG2c d a b c (fn.extractLsb' 4 1)) else if fn.extractLsb' 0 4 = 3 then some (.copyC2g d a b c (fn.extractLsb' 4 1)) else if fn.extractLsb' 0 4 = 4 then some (.copyC2s d a b c (fn.extractLsb' 4 1)) else if fn.extractLsb' 0 4 = 5 then some (.copyS2c d a b c (fn.extractLsb' 4 1)) else if fn.extractLsb' 0 4 = 6 then some (.copyX2s d a b c (fn.extractLsb' 4 1)) else if fn.extractLsb' 0 4 = 7 then some (.copyS2x d a b c (fn.extractLsb' 4 1)) else if d.extractLsb' 4 1 = 0 ∧ c = 0 ∧ fn.extractLsb' 0 4 = 8 then some (.copyRing (d.extractLsb' 0 4) a b (fn.extractLsb' 4 1)) else if d.extractLsb' 4 1 = 0 ∧ fn.extractLsb' 0 4 = 9 then some (.copyMx (d.extractLsb' 0 4) a b c (fn.extractLsb' 4 1)) else if fn.extractLsb' 0 4 = 10 then some (.copyMc d a b c (fn.extractLsb' 4 1)) else none
  | _, _ => none

/-- The majors of layout X32 (R81, R84). -/
def decX32 (maj : Nat) (td ta ag sr : BitVec 4) (cr : BitVec 6) (f : BitVec 3) : Option Instr :=
  match maj, f.toNat with
  | 28, 0 => if td = 0 ∧ ta = 0 ∧ sr = 0 ∧ cr = 0 then some (.wload ag) else none
  | 28, 1 => if td = 0 ∧ ta = 0 ∧ sr = 0 ∧ cr = 0 then some (.wloadSpec ag) else none
  | 28, 2 => if td = 0 ∧ ta = 0 ∧ cr = 0 then some (.sload ag sr) else none
  | 28, 3 => if td = 0 ∧ ta = 0 ∧ sr = 0 ∧ cr = 0 then some (.bload ag) else none
  | 28, 4 => if td = 0 ∧ ta = 0 ∧ cr = 0 then some (.oload ag sr) else none
  | 28, 5 => if td = 0 ∧ ta = 0 ∧ sr = 0 ∧ cr = 0 then some (.bgeo ag) else none
  | 29, 0 => if ta = 0 ∧ cr = 0 then some (.mma td ag sr) else none
  | 29, 1 => if ag = 0 ∧ cr = 0 then some (.mmaSpec td ta sr) else none
  | 29, 2 => if ta = 0 ∧ ag = 0 ∧ sr = 0 ∧ cr = 0 then some (.mzero td) else none
  | 30, 0 => if ag = 0 ∧ cr = 0 then some (.xfFwd td ta sr) else none
  | 30, 1 => if ag = 0 ∧ sr = 0 ∧ cr = 0 then some (.xfInv td ta) else none
  | 30, 2 => if ag = 0 ∧ cr = 0 then some (.domScl td ta sr) else none
  | 31, 0 => if td = 0 ∧ ta = 0 ∧ ag = 0 ∧ sr = 0 then some (.segchk cr) else none
  | 45, 0 => if td = 0 ∧ cr = 0 then some (.drain ta ag sr) else none
  | 45, 1 => if td = 0 ∧ ta = 0 ∧ cr = 0 then some (.drainQ ag sr) else none
  | _, _ => none

/-- The majors of layout V32 (R81, R84). -/
def decV32 (maj : Nat) (d : BitVec 6) (a b : BitVec 8) (f : BitVec 3) : Option Instr :=
  match maj, f.toNat with
  | 32, 0 => some (.vadd d a b)
  | 32, 1 => some (.vsub d a b)
  | 32, 2 => some (.vmul d a b)
  | 32, 3 => some (.vmin d a b)
  | 32, 4 => some (.vmax d a b)
  | 32, 5 => if b = 0 then some (.vabs d a) else none
  | 32, 6 => if b = 0 then some (.vneg d a) else none
  | 32, 7 => if b = 0 then some (.vmov d a) else none
  | 33, 0 => some (.vfma d a b)
  | 33, 1 => some (.vfms d a b)
  | 33, 2 => some (.vfnma d a b)
  | 33, 3 => some (.vfnms d a b)
  | 33, 4 => some (.vcmul d a b)
  | 34, 0 => some (.vand d a b)
  | 34, 1 => some (.vor d a b)
  | 34, 2 => some (.vxor d a b)
  | 34, 3 => some (.vshl d a b)
  | 34, 4 => some (.vshr d a b)
  | 34, 5 => some (.vsra d a b)
  | 34, 6 => some (.vadds d a b)
  | 34, 7 => some (.vsubs d a b)
  | 36, 0 => some (.vquant d a b)
  | 37, 0 => some (.vcmpEq d a b)
  | 37, 1 => some (.vcmpNe d a b)
  | 37, 2 => some (.vcmpLt d a b)
  | 37, 3 => some (.vcmpLe d a b)
  | 37, 4 => some (.vcmpGt d a b)
  | 37, 5 => some (.vcmpGe d a b)
  | 37, 6 => some (.vcmpUn d a b)
  | 38, 0 => some (.vsel d a b)
  | 38, 1 => some (.mand d a b)
  | 38, 2 => some (.mor d a b)
  | 38, 3 => some (.mxor d a b)
  | 38, 4 => if b = 0 then some (.mnot d a) else none
  | 39, 0 => if b = 0 then some (.vredAdd d a) else none
  | 39, 1 => if b = 0 then some (.vredMax d a) else none
  | 39, 2 => if b = 0 then some (.vredMin d a) else none
  | 39, 3 => if b = 0 then some (.vredAmax d a) else none
  | 40, 0 => if b = 0 then some (.vexp2 d a) else none
  | 40, 1 => if b = 0 then some (.vlog2 d a) else none
  | 40, 2 => if b = 0 then some (.vrcp d a) else none
  | 40, 3 => if b = 0 then some (.vrsqrt d a) else none
  | 40, 4 => if b = 0 then some (.vtanh d a) else none
  | 40, 5 => if b = 0 then some (.vsigm d a) else none
  | 41, 0 => some (.vtopk d a b)
  | 42, 0 => some (.vperm d a b)
  | 42, 1 => some (.vbcast d a b)
  | 42, 2 => if b = 0 then some (.vrev d a) else none
  | 43, 0 => if b = 0 then some (.tcfg d a) else none
  | 43, 1 => some (.trowRd d a b)
  | 43, 2 => some (.trowWr d a b)
  | 43, 3 => some (.tcolRd d a b)
  | 43, 4 => some (.tcolWr d a b)
  | 43, 5 => if a = 0 ∧ b = 0 then some (.tclean d) else none
  | 44, 0 => if b = 0 then some (.vpush ⟨d, a⟩) else none
  | 44, 1 => if b = 0 then some (.vpop ⟨d, a⟩) else none
  | 46, 0 => some (.vins d a b)
  | 46, 1 => some (.vext d a b)
  | 35, _ => if b.extractLsb' 7 1 = 0 then some (.vcvt d a (b.extractLsb' 0 4) (b.extractLsb' 4 3) f) else none
  | _, _ => none

/-- A 16-bit instruction, or why there is none. -/
def decode16 (h : Half) : Except Reject Instr :=
  if h = 0xFFFF then .ok .wall
  else
    let maj := (h.extractLsb' 1 5).toNat
    if 29 ≤ maj then .error .unitHalf
    else match decC16 maj (h.extractLsb' 6 5) (h.extractLsb' 11 5) with
      | some i => .ok i
      | none => .error .unassigned

/-- The layout a major is read by (R81). -/
inductive Layout where
  | s32r | s32i | m32 | x32 | v32 | none
  deriving DecidableEq, Repr

/-- R81. -/
def layoutOf (maj : Nat) : Layout :=
  if maj ∈ [1, 5, 9, 12, 14, 16, 18] then .s32r
  else if maj ∈ [2, 3, 4, 6, 7, 8, 10, 11, 13, 15, 17] then .s32i
  else if maj ∈ [20, 21, 22, 23, 24] then .m32
  else if maj ∈ [28, 29, 30, 31, 45] then .x32
  else if (32 ≤ maj ∧ maj ≤ 44) ∨ maj = 46 then .v32
  else .none

/-- A 32-bit instruction word (R50, R51, R78), none where the encoding is unassigned or an unused field is not zero. -/
def decode32 (w : BitVec 32) : Option Instr :=
  let maj := (w.extractLsb' 1 6).toNat
  match layoutOf maj with
  | .s32r =>
    if w.extractLsb' 28 4 = 0 then
      decS32R maj (w.extractLsb' 7 5) (w.extractLsb' 12 5) (w.extractLsb' 17 5) (w.extractLsb' 22 6)
    else none
  | .s32i => decS32I maj (w.extractLsb' 7 5) (w.extractLsb' 12 5) (w.extractLsb' 17 15)
  | .m32 =>
    decM32 maj (w.extractLsb' 7 5) (w.extractLsb' 12 5) (w.extractLsb' 17 5) (w.extractLsb' 22 5) (w.extractLsb' 27 5)
  | .x32 =>
    decX32 maj (w.extractLsb' 7 4) (w.extractLsb' 11 4) (w.extractLsb' 15 4) (w.extractLsb' 19 4) (w.extractLsb' 23 6)
      (w.extractLsb' 29 3)
  | .v32 => decV32 maj (w.extractLsb' 7 6) (w.extractLsb' 13 8) (w.extractLsb' 21 8) (w.extractLsb' 29 3)
  | .none => none

/-- The instruction that starts with halfword h, with n the halfword after it: the instruction and its length in halfwords (R47). -/
def decodeHalves (h : Half) (n : Option Half) : Except Reject (Instr × Nat) :=
  if h = 0xFFFF then .ok (.wall, 1)
  else if h.getLsbD 0 then
    match n with
    | none => .error .truncated
    | some n =>
      match decode32 (n ++ h) with
      | some i => .ok (i, 2)
      | none => .error .unassigned
  else match decode16 h with
    | .ok i => .ok (i, 1)
    | .error e => .error e

/-- The halfword whose bytes lie first in bs, low byte first (R2), and the bytes after it. -/
def takeHalf : List Byte → Option (Half × List Byte)
  | a :: b :: rest => some (b ++ a, rest)
  | _ => none

/-- The decoder on bytes as they lie in memory: the instruction and the bytes after it. -/
def decode (bs : List Byte) : Except Reject (Instr × List Byte) :=
  match takeHalf bs with
  | none => .error .truncated
  | some (h, rest) =>
    match decodeHalves h ((takeHalf rest).map Prod.fst) with
    | .ok (i, n) => .ok (i, rest.drop (2 * (n - 1)))
    | .error e => .error e

/-- The words of an instruction: one halfword, or one 32-bit word; none for a step without an encoding. -/
def encodeWord : Instr → Option (Half ⊕ BitVec 32)
  | .wall => some (.inl 0xFFFF)
  | .nop => some (.inl (encC16 0 0#5 0#5))
  | .movC16 d a => some (.inl (encC16 1 d a))
  | .addiC16 d i => some (.inl (encC16 2 d i))
  | .addC16 d b => some (.inl (encC16 3 d b))
  | .subC16 d b => some (.inl (encC16 4 d b))
  | .liC16 d i => some (.inl (encC16 5 d i))
  | .pmov d a => some (.inl (encC16 6 d a))
  | .pnot d a => some (.inl (encC16 7 d a))
  | .qpushC16 q s => some (.inl (encC16 8 (0#2 ++ q) s))
  | .qpopC16 q s => some (.inl (encC16 9 (0#2 ++ q) s))
  | .kpushC16 p => some (.inl (encC16 10 (0#3 ++ p) 0#5))
  | .kpopC16 p => some (.inl (encC16 11 (0#3 ++ p) 0#5))
  | .mark l h => some (.inl (encC16 12 l h))
  | .ret => some (.inl (encC16 13 0#5 0#5))
  | .add d a b => some (.inr (encS32R 1 d a b 0#6))
  | .sub d a b => some (.inr (encS32R 1 d a b 1#6))
  | .and d a b => some (.inr (encS32R 1 d a b 2#6))
  | .or d a b => some (.inr (encS32R 1 d a b 3#6))
  | .xor d a b => some (.inr (encS32R 1 d a b 4#6))
  | .shl d a b => some (.inr (encS32R 1 d a b 5#6))
  | .shr d a b => some (.inr (encS32R 1 d a b 6#6))
  | .sra d a b => some (.inr (encS32R 1 d a b 7#6))
  | .mul d a b => some (.inr (encS32R 1 d a b 8#6))
  | .mulh d a b => some (.inr (encS32R 1 d a b 9#6))
  | .mulhu d a b => some (.inr (encS32R 1 d a b 10#6))
  | .min d a b => some (.inr (encS32R 1 d a b 11#6))
  | .max d a b => some (.inr (encS32R 1 d a b 12#6))
  | .minu d a b => some (.inr (encS32R 1 d a b 13#6))
  | .maxu d a b => some (.inr (encS32R 1 d a b 14#6))
  | .mov d a => some (.inr (encS32R 1 d a 0#5 15#6))
  | .addi d a i => some (.inr (encS32I 2 d a i))
  | .li d i => some (.inr (encS32I 3 d 0#5 i))
  | .andi d a i => some (.inr (encS32I 4 d a i))
  | .cmpEq d a b => some (.inr (encS32R 5 d a b 0#6))
  | .cmpNe d a b => some (.inr (encS32R 5 d a b 1#6))
  | .cmpLt d a b => some (.inr (encS32R 5 d a b 2#6))
  | .cmpLe d a b => some (.inr (encS32R 5 d a b 3#6))
  | .cmpGt d a b => some (.inr (encS32R 5 d a b 4#6))
  | .cmpGe d a b => some (.inr (encS32R 5 d a b 5#6))
  | .cmpLtu d a b => some (.inr (encS32R 5 d a b 6#6))
  | .cmpGeu d a b => some (.inr (encS32R 5 d a b 7#6))
  | .pand d a b => some (.inr (encS32R 5 d a b 8#6))
  | .por d a b => some (.inr (encS32R 5 d a b 9#6))
  | .pxor d a b => some (.inr (encS32R 5 d a b 10#6))
  | .pandn d a b => some (.inr (encS32R 5 d a b 11#6))
  | .sel d a b => some (.inr (encS32R 5 d a b 16#6))
  | .cmpi d a v c => some (.inr (encS32I 6 d a (c ++ v)))
  | .ldB d a o => some (.inr (encS32I 7 d a (0#2 ++ o)))
  | .ldH d a o => some (.inr (encS32I 7 d a (1#2 ++ o)))
  | .ldW d a o => some (.inr (encS32I 7 d a (2#2 ++ o)))
  | .ldD d a o => some (.inr (encS32I 7 d a (3#2 ++ o)))
  | .stB d a o => some (.inr (encS32I 8 d a (0#2 ++ o)))
  | .stH d a o => some (.inr (encS32I 8 d a (1#2 ++ o)))
  | .stW d a o => some (.inr (encS32I 8 d a (2#2 ++ o)))
  | .stD d a o => some (.inr (encS32I 8 d a (3#2 ++ o)))
  | .amoAdd d a b s => some (.inr (encS32R 9 d a b (s ++ 0#3)))
  | .amoSwap d a b s => some (.inr (encS32R 9 d a b (s ++ 1#3)))
  | .amoCas d a b s => some (.inr (encS32R 9 d a b (s ++ 2#3)))
  | .amoMin d a b s => some (.inr (encS32R 9 d a b (s ++ 3#3)))
  | .amoMax d a b s => some (.inr (encS32R 9 d a b (s ++ 4#3)))
  | .amoAnd d a b s => some (.inr (encS32R 9 d a b (s ++ 5#3)))
  | .amoOr d a b s => some (.inr (encS32R 9 d a b (s ++ 6#3)))
  | .br d a i => some (.inr (encS32I 10 d a i))
  | .call d a i => some (.inr (encS32I 11 d a i))
  | .jr a => some (.inr (encS32R 12 0#5 a 0#5 0#6))
  | .callr a => some (.inr (encS32R 12 0#5 a 0#5 1#6))
  | .exit d a i => some (.inr (encS32I 13 d a i))
  | .qpush q a => some (.inr (encS32R 14 (0#2 ++ q) a 0#5 0#6))
  | .qpop d q => some (.inr (encS32R 14 d (0#2 ++ q) 0#5 1#6))
  | .qpushT q a b => some (.inr (encS32R 14 (0#2 ++ q) a b 2#6))
  | .qpopT d q b => some (.inr (encS32R 14 d (0#2 ++ q) b 3#6))
  | .kpush p => some (.inr (encS32R 14 (0#3 ++ p) 0#5 0#5 4#6))
  | .kpop p => some (.inr (encS32R 14 (0#3 ++ p) 0#5 0#5 5#6))
  | .cut m s => some (.inr (encS32I 15 0#5 0#5 (0#2 ++ s ++ m)))
  | .fwait d a b => some (.inr (encS32R 16 d a b 0#6))
  | .bwait d a b => some (.inr (encS32R 16 d a b 1#6))
  | .barInit a b => some (.inr (encS32R 16 0#5 a b 2#6))
  | .barArrive a => some (.inr (encS32R 16 0#5 a 0#5 3#6))
  | .barExpect a b => some (.inr (encS32R 16 0#5 a b 4#6))
  | .fence s => some (.inr (encS32R 16 0#5 0#5 0#5 (1#3 ++ s)))
  | .time d => some (.inr (encS32R 16 d 0#5 0#5 16#6))
  | .contain d a i => some (.inr (encS32I 17 d a i))
  | .uncontain => some (.inr (encS32R 18 0#5 0#5 0#5 0#6))
  | .trap a => some (.inr (encS32R 18 0#5 a 0#5 1#6))
  | .eret => some (.inr (encS32R 18 0#5 0#5 0#5 2#6))
  | .csrr d a b => some (.inr (encS32R 18 d a b 3#6))
  | .csrw d a b => some (.inr (encS32R 18 d a b 4#6))
  | .ctOpen d a => some (.inr (encS32R 18 d a 0#5 5#6))
  | .ctClose d a => some (.inr (encS32R 18 d a 0#5 6#6))
  | .yield a => some (.inr (encS32R 18 0#5 a 0#5 7#6))
  | .brk => some (.inr (encS32R 18 0#5 0#5 0#5 8#6))
  | .copyG2s d a b c z => some (.inr (encM32 20 d a b c (z ++ 0#4)))
  | .copyS2g d a b c z => some (.inr (encM32 20 d a b c (z ++ 1#4)))
  | .copyG2c d a b c z => some (.inr (encM32 20 d a b c (z ++ 2#4)))
  | .copyC2g d a b c z => some (.inr (encM32 20 d a b c (z ++ 3#4)))
  | .copyC2s d a b c z => some (.inr (encM32 20 d a b c (z ++ 4#4)))
  | .copyS2c d a b c z => some (.inr (encM32 20 d a b c (z ++ 5#4)))
  | .copyX2s d a b c z => some (.inr (encM32 20 d a b c (z ++ 6#4)))
  | .copyS2x d a b c z => some (.inr (encM32 20 d a b c (z ++ 7#4)))
  | .copyRing d a b z => some (.inr (encM32 20 (0#1 ++ d) a b 0#5 (z ++ 8#4)))
  | .copyMx d a b c z => some (.inr (encM32 20 (0#1 ++ d) a b c (z ++ 9#4)))
  | .copyMc d a b c z => some (.inr (encM32 20 d a b c (z ++ 10#4)))
  | .cpSnap a b => some (.inr (encM32 21 0#5 a b 0#5 0#5))
  | .salloc d a => some (.inr (encM32 21 d a 0#5 0#5 1#5))
  | .sfree a => some (.inr (encM32 21 0#5 a 0#5 0#5 2#5))
  | .imld a b c => some (.inr (encM32 21 0#5 a b c 3#5))
  | .peerImp d a b => some (.inr (encM32 21 d a b 0#5 4#5))
  | .peerExp d a b c => some (.inr (encM32 21 d a b c 5#5))
  | .peerRel d a => some (.inr (encM32 21 d a 0#5 0#5 6#5))
  | .renq a b c => some (.inr (encM32 22 0#5 a b c 0#5))
  | .taskPost d a b => some (.inr (encM32 22 d a b 0#5 1#5))
  | .dqPush a c => some (.inr (encM32 22 0#5 a 0#5 c 2#5))
  | .dqPop d c => some (.inr (encM32 22 d 0#5 0#5 c 3#5))
  | .dqSteal d a c => some (.inr (encM32 22 d a 0#5 c 4#5))
  | .rngSet a b c => some (.inr (encM32 22 0#5 a b c 5#5))
  | .rngTake d a c => some (.inr (encM32 22 d a 0#5 c 6#5))
  | .rngSteal d a b c => some (.inr (encM32 22 d a b c 7#5))
  | .gath d a => some (.inr (encM32 23 (0#1 ++ d) (0#1 ++ a) 0#5 0#5 0#5))
  | .scat d a => some (.inr (encM32 23 (0#1 ++ d) (0#1 ++ a) 0#5 0#5 1#5))
  | .gathQ a => some (.inr (encM32 23 0#5 (0#1 ++ a) 0#5 0#5 2#5))
  | .ringInit d a b => some (.inr (encM32 23 (0#1 ++ d) a b 0#5 3#5))
  | .ringPush d a => some (.inr (encM32 23 (0#1 ++ d) a 0#5 0#5 4#5))
  | .ringPop d a => some (.inr (encM32 23 d (0#1 ++ a) 0#5 0#5 5#5))
  | .venc d a b => some (.inr (encM32 24 d a b 0#5 0#5))
  | .wload g => some (.inr (encX32 28 0#4 0#4 g 0#4 0#6 0#3))
  | .wloadSpec g => some (.inr (encX32 28 0#4 0#4 g 0#4 0#6 1#3))
  | .sload g s => some (.inr (encX32 28 0#4 0#4 g s 0#6 2#3))
  | .bload g => some (.inr (encX32 28 0#4 0#4 g 0#4 0#6 3#3))
  | .oload g s => some (.inr (encX32 28 0#4 0#4 g s 0#6 4#3))
  | .bgeo g => some (.inr (encX32 28 0#4 0#4 g 0#4 0#6 5#3))
  | .mma d g s => some (.inr (encX32 29 d 0#4 g s 0#6 0#3))
  | .mmaSpec d a s => some (.inr (encX32 29 d a 0#4 s 0#6 1#3))
  | .mzero d => some (.inr (encX32 29 d 0#4 0#4 0#4 0#6 2#3))
  | .xfFwd d a s => some (.inr (encX32 30 d a 0#4 s 0#6 0#3))
  | .xfInv d a => some (.inr (encX32 30 d a 0#4 0#4 0#6 1#3))
  | .domScl d a s => some (.inr (encX32 30 d a 0#4 s 0#6 2#3))
  | .segchk c => some (.inr (encX32 31 0#4 0#4 0#4 0#4 c 0#3))
  | .vadd d a b => some (.inr (encV32 32 d a b 0#3))
  | .vsub d a b => some (.inr (encV32 32 d a b 1#3))
  | .vmul d a b => some (.inr (encV32 32 d a b 2#3))
  | .vmin d a b => some (.inr (encV32 32 d a b 3#3))
  | .vmax d a b => some (.inr (encV32 32 d a b 4#3))
  | .vabs d a => some (.inr (encV32 32 d a 0#8 5#3))
  | .vneg d a => some (.inr (encV32 32 d a 0#8 6#3))
  | .vmov d a => some (.inr (encV32 32 d a 0#8 7#3))
  | .vfma d a b => some (.inr (encV32 33 d a b 0#3))
  | .vfms d a b => some (.inr (encV32 33 d a b 1#3))
  | .vfnma d a b => some (.inr (encV32 33 d a b 2#3))
  | .vfnms d a b => some (.inr (encV32 33 d a b 3#3))
  | .vcmul d a b => some (.inr (encV32 33 d a b 4#3))
  | .vand d a b => some (.inr (encV32 34 d a b 0#3))
  | .vor d a b => some (.inr (encV32 34 d a b 1#3))
  | .vxor d a b => some (.inr (encV32 34 d a b 2#3))
  | .vshl d a b => some (.inr (encV32 34 d a b 3#3))
  | .vshr d a b => some (.inr (encV32 34 d a b 4#3))
  | .vsra d a b => some (.inr (encV32 34 d a b 5#3))
  | .vadds d a b => some (.inr (encV32 34 d a b 6#3))
  | .vsubs d a b => some (.inr (encV32 34 d a b 7#3))
  | .vcvt d a t p r => some (.inr (encV32 35 d a (0#1 ++ p ++ t) r))
  | .vquant d a b => some (.inr (encV32 36 d a b 0#3))
  | .vcmpEq d a b => some (.inr (encV32 37 d a b 0#3))
  | .vcmpNe d a b => some (.inr (encV32 37 d a b 1#3))
  | .vcmpLt d a b => some (.inr (encV32 37 d a b 2#3))
  | .vcmpLe d a b => some (.inr (encV32 37 d a b 3#3))
  | .vcmpGt d a b => some (.inr (encV32 37 d a b 4#3))
  | .vcmpGe d a b => some (.inr (encV32 37 d a b 5#3))
  | .vcmpUn d a b => some (.inr (encV32 37 d a b 6#3))
  | .vsel d a b => some (.inr (encV32 38 d a b 0#3))
  | .mand d a b => some (.inr (encV32 38 d a b 1#3))
  | .mor d a b => some (.inr (encV32 38 d a b 2#3))
  | .mxor d a b => some (.inr (encV32 38 d a b 3#3))
  | .mnot d a => some (.inr (encV32 38 d a 0#8 4#3))
  | .vredAdd d a => some (.inr (encV32 39 d a 0#8 0#3))
  | .vredMax d a => some (.inr (encV32 39 d a 0#8 1#3))
  | .vredMin d a => some (.inr (encV32 39 d a 0#8 2#3))
  | .vredAmax d a => some (.inr (encV32 39 d a 0#8 3#3))
  | .vexp2 d a => some (.inr (encV32 40 d a 0#8 0#3))
  | .vlog2 d a => some (.inr (encV32 40 d a 0#8 1#3))
  | .vrcp d a => some (.inr (encV32 40 d a 0#8 2#3))
  | .vrsqrt d a => some (.inr (encV32 40 d a 0#8 3#3))
  | .vtanh d a => some (.inr (encV32 40 d a 0#8 4#3))
  | .vsigm d a => some (.inr (encV32 40 d a 0#8 5#3))
  | .vtopk d a b => some (.inr (encV32 41 d a b 0#3))
  | .vperm d a b => some (.inr (encV32 42 d a b 0#3))
  | .vbcast d a b => some (.inr (encV32 42 d a b 1#3))
  | .vrev d a => some (.inr (encV32 42 d a 0#8 2#3))
  | .tcfg d a => some (.inr (encV32 43 d a 0#8 0#3))
  | .trowRd d a b => some (.inr (encV32 43 d a b 1#3))
  | .trowWr d a b => some (.inr (encV32 43 d a b 2#3))
  | .tcolRd d a b => some (.inr (encV32 43 d a b 3#3))
  | .tcolWr d a b => some (.inr (encV32 43 d a b 4#3))
  | .tclean d => some (.inr (encV32 43 d 0#8 0#8 5#3))
  | .vpush m => some (.inr (encV32 44 m.d m.a 0#8 0#3))
  | .vpop m => some (.inr (encV32 44 m.d m.a 0#8 1#3))
  | .drain a g s => some (.inr (encX32 45 0#4 a g s 0#6 0#3))
  | .drainQ g s => some (.inr (encX32 45 0#4 0#4 g s 0#6 1#3))
  | .vins d a b => some (.inr (encV32 46 d a b 0#3))
  | .vext d a b => some (.inr (encV32 46 d a b 1#3))
  | _ => none

/-- The halfwords of an instruction in memory order (R47). -/
def encodeHalves (i : Instr) : Option (List Half) :=
  match encodeWord i with
  | some (.inl h) => some [h]
  | some (.inr w) => some [w.extractLsb' 0 16, w.extractLsb' 16 16]
  | none => none

/-- The bytes of a halfword, low byte first (R2). -/
def halfBytes (h : Half) : List Byte := [h.extractLsb' 0 8, h.extractLsb' 8 8]

/-- The bytes of an instruction as they lie in memory. (DEDUCED, log entry 94.) -/
def encode (i : Instr) : Option (List Byte) := (encodeHalves i).map fun hs => (hs.map halfBytes).flatten

/-- The first n bytes of the number w, lowest first. -/
def natBytes : Nat → Nat → List Byte
  | 0, _ => []
  | n + 1, w => BitVec.ofNat 8 w :: natBytes n (w / 256)

/-- The instruction the decoder reads from bits numbered as the opcode table numbers them: the table's bits are the
instruction's own bits of R1, and R47 lays the low halfword at the lower address. -/
def decodeTableWord (nbits w : Nat) : Option Instr :=
  match decode (natBytes 4 (w % 2 ^ nbits)) with
  | .ok (i, _) => some i
  | .error _ => none

end Sys2Proof
end

