-- ==== Sys2Proof/Config.lean ====
section
/-! DEFINITION. What the part fixes (die kinds, depths, capacities) and the values the spec leaves open: each of those is an
opaque constant, so no proof can see what it is. -/
namespace Sys2Proof.Config

/-- The cores of the package (R8). -/
def cores : Nat := 192

/-- The die of a core (R15). -/
def dieOf (core : Nat) : Nat := core / 24

/-- The quad of a core (R15). -/
def quadOf (core : Nat) : Nat := core / 4

/-- The domain of a die (R8). -/
def domOfDie (die : Nat) : Nat := die / 4 % 2

/-- The domain of a core (R8, R15). -/
def domOf (core : Nat) : Nat := domOfDie (dieOf core)

/-- Whether a die is of kind Hilen B (R8). -/
def isB (die : Nat) : Bool := die % 4 == 3

/-- The profiles of a core, in the bit order of PROF (R8, R17). -/
def hasProfile (core : Nat) : Profile → Bool
  | .core => true
  | .spectral | .narrow4 => !isB (dieOf core)
  | .media | .wide => isB (dieOf core)

/-- Whether some core of the domain of a core has the profile (R8, R17): both domains hold dies of both kinds. (DEDUCED, log entry 50.) -/
def domainHas (_dom : Nat) (_p : Profile) : Bool := true

/-- FREE VALUE (R22): the extra cycles of a bank conflict on a cycle of a core. (DESIGN CHOICE, log entry 25.) -/
opaque bankConflict : Nat → Nat → Nat

/-- FREE VALUE: the events of engines, hub, fabric and outside world that fall on a cycle whose number the spec leaves open. -/
opaque arrivals : Nat → List Instr

/-- FREE VALUE (R156): the 48-bit CHECK of the n-th handle drawn. -/
opaque check : Nat → BitVec 48

/-- FREE VALUE (R322): the secret fused into the security engine. -/
opaque fusedSecret : BitVec 384

/-- FREE VALUE (R321, R322): the security version of the hub firmware's image. -/
opaque securityVersion : Nat

/-- FREE VALUE (R322): the salt of the derivation of a key, by what the key is for. -/
opaque keySalt : Nat → List Byte

/-- FREE VALUE (R322): the info of the derivation of a key, from what the key is for and the bytes it depends on. -/
opaque keyInfo : Nat → List Byte → List Byte

/-- FREE VALUE (R324): the secret number of an ECDSA signature with a key over bytes. -/
opaque signingNonce : Nat → List Byte → Nat

/-- FREE VALUE (R322): the fields of the certificate for a public key, before its signature. -/
opaque certificateFields : List Byte → List Byte

/-- FREE VALUE (R160): the compressed bytes of a frame, from the stream's earlier frames, the parameters and the samples.
(DESIGN CHOICE, log entry 95.) -/
opaque encoded : List Byte → List Byte

/-- FREE VALUE: the n-th word drawn where the spec states a result without its value. (DESIGN CHOICE, log entry 3.) -/
opaque freeWord : Nat → Word

/-- FREE VALUE (R338): the butterfly state of a transform unit that holds an operation in progress. (DESIGN CHOICE, log entry 95.) -/
opaque butterfly : Nat → List Byte

/-- FREE VALUE (R397): the package's mean draw in W over the window of power control that ends at a TIME. -/
opaque meanDraw : Nat → Nat

/-- FREE VALUE (R354): the number of this package in its pod. -/
opaque package : Nat

end Sys2Proof.Config
end

