-- ==== Sys2Proof/Machine/Store.lean ====
section
/-! DEFINITION. Tables and byte stores: the one place where a keyed piece of state is read and written, the order of the
bytes of a value (R2), and the slices of a 1 KiB row. -/
namespace Sys2Proof.Machine

/-- What a table holds at a key; a key with no entry reads as the table's default. -/
def get {α : Type} (d : α) : Table α → Nat → α
  | [], _ => d
  | (j, y) :: t, k => if j = k then y else get d t k

/-- The table with an entry put in its place by key, an older entry of the key replaced. -/
def insert {α : Type} (k : Nat) (x : α) : Table α → Table α
  | [] => [(k, x)]
  | (j, y) :: t =>
    if k < j then (k, x) :: (j, y) :: t
    else if j = k then (k, x) :: t
    else (j, y) :: insert k x t

/-- The table after a write of `x` at key `k`: no entry remains where the value is the default. -/
def put {α : Type} [DecidableEq α] (d : α) (t : Table α) (k : Nat) (x : α) : Table α :=
  if x = d then t.filter (fun e => e.1 != k) else insert k x t

/-- The table with the value at a key replaced by a function of it. -/
def update {α : Type} [DecidableEq α] (d : α) (t : Table α) (k : Nat) (f : α → α) : Table α :=
  put d t k (f (get d t k))

/-- A table whose every value is replaced by a function of it. -/
def mapTable {α : Type} [DecidableEq α] (d : α) (f : α → α) (t : Table α) : Table α :=
  t.filterMap fun e => if f e.2 = d then none else some (e.1, f e.2)

/-- The canonical form: keys rising strictly, no entry equal to the default. -/
def tableWf {α : Type} [DecidableEq α] (d : α) : Table α → Bool
  | [] => true
  | [(_, y)] => y != d
  | (j, y) :: (k, z) :: t => y != d && decide (j < k) && tableWf d ((k, z) :: t)

/-- The n bytes of a byte store from an address, the lowest address first; an unlisted byte reads 0. -/
def readBytes (m : Table Byte) : Nat → Nat → List Byte
  | _, 0 => []
  | a, n + 1 => get 0#8 m a :: readBytes m (a + 1) n

/-- The byte store after bytes are written from an address upward. -/
def writeBytes (m : Table Byte) : Nat → List Byte → Table Byte
  | _, [] => m
  | a, b :: bs => writeBytes (put 0#8 m a b) (a + 1) bs

/-- The number of a little-endian list of bytes (R2). -/
def leNat : List Byte → Nat
  | [] => 0
  | b :: bs => b.toNat + 256 * leNat bs

/-- The n low bytes of a number, little-endian (R2). -/
def leBytes : Nat → Nat → List Byte
  | 0, _ => []
  | n + 1, x => BitVec.ofNat 8 x :: leBytes n (x / 256)

/-- The number of a big-endian list of bytes. -/
def beNat (bs : List Byte) : Nat := bs.foldl (fun a b => 256 * a + b.toNat) 0

/-- The n low bytes of a number, the most significant first. -/
def beBytes (n x : Nat) : List Byte := (leBytes n x).reverse

/-- Bytes cut or padded with zeros to n. -/
def fit (n : Nat) (bs : List Byte) : List Byte := bs.take n ++ List.replicate (n - bs.length) 0#8

/-- A row from its bytes, the byte at offset 0 first (R2). -/
def rowOf (bs : List Byte) : Row := BitVec.ofNat 8192 (leNat bs)

/-- The bytes of a row, offset 0 first. -/
def rowBytes (r : Row) : List Byte := leBytes 1024 r.toNat

/-- Element i of width w of a row. -/
def lane (w : Nat) (r : Row) (i : Nat) : BitVec w := r.extractLsb' (w * i) w

/-- A row from its elements, element 0 lowest. -/
def ofLanes (w : Nat) (l : List (BitVec w)) : Row :=
  BitVec.ofNat 8192 (l.foldr (fun x a => x.toNat + 2 ^ w * a) 0)

/-- A number read as two's complement of width w. -/
def signed (w n : Nat) : Int := if 2 * (n % 2 ^ w) < 2 ^ w then (n % 2 ^ w : Nat) else (n % 2 ^ w : Nat) - (2 ^ w : Nat)

/-- Bits [hi:lo] of a number. -/
def bits (x hi lo : Nat) : Nat := x / 2 ^ lo % 2 ^ (hi + 1 - lo)

/-- A number with the bits [hi:lo] replaced. -/
def setBits (x hi lo v : Nat) : Nat :=
  x / 2 ^ (hi + 1) * 2 ^ (hi + 1) + v % 2 ^ (hi + 1 - lo) * 2 ^ lo + x % 2 ^ lo

/-- Bit i of a number. -/
def bit (x i : Nat) : Bool := x.testBit i

/-- 1 or 0. -/
def ofBool (b : Bool) : Nat := if b then 1 else 0

/-- The ceiling of a quotient. -/
def ceilDiv (a b : Nat) : Nat := (a + b - 1) / b

/-- A list with the element at a place replaced by a function of it. -/
def modifyAt {α : Type} : List α → Nat → (α → α) → List α
  | [], _, _ => []
  | x :: xs, 0, f => f x :: xs
  | x :: xs, n + 1, f => x :: modifyAt xs n f

/-- A list without the element at a place. -/
def removeAt {α : Type} : List α → Nat → List α
  | [], _ => []
  | _ :: xs, 0 => xs
  | x :: xs, n + 1 => x :: removeAt xs n

/-- Apply a function n times, handing it the number of the round, 0 first. -/
def iterate {α : Type} (n : Nat) (f : Nat → α → α) (x : α) : α := (List.range n).foldl (fun a i => f i a) x

end Sys2Proof.Machine
end

