-- ==== Sys2Proof/Machine/State.lean ====
section
/-! DEFINITION. The state of the package as plain data, and what it holds right after reset. -/
namespace Sys2Proof.Machine

/-- Reasons the machine stops: there is none, since every trap of the spec is a next state. The type has no constructor, so
no step of the model ends in a fault. -/
inductive Fault where
  deriving DecidableEq, Repr

/-- Reasons the model gives no meaning. -/
inductive Refusal where
  /-- Raised by an arm of exec whose instruction has no meaning yet. Safe: nothing can be proved about what follows. -/
  | notModelled (mnemonic : String)
  deriving DecidableEq, Repr

/-- What a step answers. -/
abbrev Out (σ : Type) := Host.Outcome σ Fault Refusal

/-! ### Queues, tokens, pipelines -/

/-- An entry of a value queue: the hidden kind bit (R72) and the 64 bits; a CUT word holds its marker in the bits [9:0] and
its consumer set in the bits [12:10] (R101). -/
structure QEntry where
  cut : Bool
  val : Word
  deriving DecidableEq, Repr

/-- A value queue (R19): the entries, head first, the pushes of this cycle, and the pops of this cycle. -/
structure VQueue where
  items : List QEntry
  staged : List QEntry
  popped : Nat
  deriving DecidableEq, Repr

/-- A row queue (q5 and q6 of R19). -/
structure RQueue where
  items : List Row
  staged : List Row
  popped : Nat
  deriving DecidableEq, Repr

/-- A token queue (R20): the count, the pushes of this cycle and the pops of this cycle. -/
structure Token where
  count : Nat
  staged : Nat
  popped : Nat
  deriving DecidableEq, Repr

/-- The kinds of wait, by WKIND of R336. -/
inductive WaitKind where
  | none | fwait | bwait | header | queueT | renq | taskPost
  deriving DecidableEq, Repr

/-- A CUT search or meeting (R102 to R105), with marker and consumer set; a search also with the header reached. -/
inductive CutState where
  | none
  | search (m : BitVec 10) (named : BitVec 3) (pos : Half)
  | meeting (m : BitVec 10) (named : BitVec 3) (pos : Half)
  deriving DecidableEq, Repr

/-- An instruction issued and not yet retired (R246): the ends of cycles up to that of its own retirement, the token pushes and ring pop due
then, the ring and slot whose counting its retirement waits for (R135), the profiles it needs, and whether a retirement has found a
token queue full (R20); `no` is its number among the units issued (R369), and `op` says that it is an array operation (1) or a
transform (2), whose record has its retirement actions (R336). -/
structure Flight where
  due : Nat
  pushM : BitVec 3
  ring : Option Nat
  after : Option (Nat × Nat)
  need : BitVec 5
  late : Bool
  no : Nat := 0
  op : Nat := 0
  deriving DecidableEq, Repr

/-- A result issued and not yet landed (R145, R190, R336 KIND 1, 2, 4 and 6; mask, configuration and gather writes have no KIND
there). -/
inductive Landing where
  | scalar (ix : Nat) (v : Word)
  | row (r : Nat) (enable : Row) (v : Row)
  | mask (ix : Nat) (enable : BitVec 1024) (v : BitVec 1024)
  | q6 (v : Row)
  | column (tile : Nat) (tsh : Word) (e : Nat) (next : Nat) (left : Nat) (a : Row)
  | shape (tile : Nat) (v : Word)
  | clean (tile : Nat)
  | bytes (ws : List (Nat × Byte))
  deriving DecidableEq, Repr

/-- A pipeline record: the stream of its instruction and its place in the order of issue of those in flight, live cycles to the landing
(R331), and what lands. -/
structure Pend where
  own : Stream
  ord : Nat
  due : Nat
  what : Landing
  deriving DecidableEq, Repr

/-- The time-loss class of a head on a cycle (R383). -/
inductive Loss where
  | issue | flag | engine | empty
  deriving DecidableEq, Repr

/-! ### A sequencer -/

/-- One sequencer of a context (R18, R336); `lb` names the block whose body, `lbuf`, stands in the loop buffer (R60), and `part` counts
the rows that a `gath.q` at its head has pushed (R146). -/
structure Seq where
  pc : Half
  hdr : Half
  hword : BitVec 32
  inBody : Bool
  rep : Nat
  reps : Nat
  regs : Table Word
  preds : Table Bool
  imem : Table Half
  iend : Half
  imldw : Bool
  lb : Option Half
  lbuf : List Half
  fetched : Nat
  wait : WaitKind
  waitRem : Nat
  stalled : Option Instr
  cut : CutState
  part : Nat
  flight : List Flight
  icnt : Nat
  blki : Nat
  loss : Loss
  waitsOn : List Nat
  deriving DecidableEq, Repr

/-- A cleared sequencer (R325); its instruction memory holds 0xFFFF (R46). (DESIGN CHOICE, log entry 10.) -/
def Seq.cleared : Seq :=
  { pc := 0, hdr := 0, hword := 0, inBody := false, rep := 0, reps := 0, regs := [], preds := [], imem := [], iend := 0,
    imldw := false, lb := none, lbuf := [], fetched := 0, wait := .none, waitRem := 0, stalled := none, cut := .none, part := 0, flight := [],
    icnt := 0, blki := 0, loss := .empty, waitsOn := [] }

/-! ### CTL's control registers and its atomic block -/

/-- A place where bytes lie: SCR of a core's live slice, cluster SRAM by key, or physical memory. -/
inductive Loc where
  | scr (off : Nat)
  | clus (key : Nat)
  | phys (pa : Nat)
  deriving DecidableEq, Repr

/-- An error held for a context (R336, R347); `now` marks one that is delivered on CTL's first live cycle and not only at a
report point. -/
structure HeldError where
  cause : Cause
  info : Word
  now : Bool
  deriving DecidableEq, Repr

/-- A page held by a command (R128, R313): its extent (0 source, 1 destination, 2 target, 3 and 4 of a snapshot), the address its
part begins at as the command names it, the physical address, and the size; the partition whose tables map it, with the leaf's
address there and its size (R311). -/
structure PageHold where
  ext : Nat
  va : Nat
  pa : Nat
  size : Nat
  own : Nat
  at_ : Nat
  room : Nat
  deriving DecidableEq, Repr

/-- A context that has begun in a slot of a domain's pool: what is aimed at one context follows it, and drops once it has ended (R402). -/
structure Aim where
  dom : Nat
  slot : Nat
  begun : Nat
  deriving DecidableEq, Repr

/-- The sources of a FLAG record (R371). -/
inductive FlagSource where
  | copy | flip | remote | encoder
  deriving DecidableEq, Repr

/-- An increment of a flag that is held (R378, R402), with the TIME and the stamps it carries (R262, R263). -/
structure Bump where
  flag : Nat
  time : Nat
  kv : Table Nat
  src : FlagSource
  deriving DecidableEq, Repr

/-- A command of the copy engine or the snapshot unit (R128, R129, R149, R338), from its enqueue to its completion; `vals` are its
destination, its source, and its operands B and C; `kept` are the source bytes of a command whose context has ended, when they lay
in that context's slice, and `keptBad` the lines of them that were uncorrectable; `id` tells the writes of one command from those of
another, and is 0 before the command is appended; `hit` says that a replay has the command completed, its entry still to be injected
(R389). -/
structure Command where
  instr : Instr
  vals : List Word
  len : Nat
  target : Word
  holds : List PageHold
  slot : Option (Nat × Nat)
  counted : Bool
  chained : Bool
  started : Bool
  moved : Table Bool
  status : Nat
  error : Option HeldError
  desc : List Word
  block : Nat
  written : Nat
  emitted : Nat
  landed : Bool
  kept : Option (List Byte)
  task : Option Aim
  keptBad : List Nat := []
  id : Nat := 0
  hit : Bool := false
  deriving DecidableEq, Repr

/-- A side effect buffered by an atomic block (R63). -/
inductive Buffered where
  | store (l : Loc) (bytes : List Byte)
  | push (q : Nat) (e : QEntry)
  | token (m : BitVec 3)
  | copy (cmd : Command)
  | cut (m : BitVec 10) (named : BitVec 3)
  deriving DecidableEq, Repr

/-- An exit met in the block: its guard (predicate and the value it asks for) and its target (R98). -/
structure ExitMet where
  pred : Nat
  want : Bool
  target : Int
  deriving DecidableEq, Repr

/-- The atomic block being run (R63, R64): the registers and predicates to go back to, and what is buffered. -/
structure Atomic where
  regs : Table Word
  preds : Table Bool
  effects : List Buffered
  deriving DecidableEq, Repr

/-- The state of CTL's block that EPC has no bits for, kept at trap entry (R116). -/
structure BlockSave where
  hword : BitVec 32
  inBody : Bool
  rep : Nat
  reps : Nat
  wait : WaitKind
  waitRem : Nat
  stalled : Option Instr
  deriving DecidableEq, Repr

/-- The control registers of a context (R71, R120); `kv` is the knowledge vector saved with them (R264). -/
structure CtlRegs where
  wtmo : BitVec 32
  ecause : Byte
  einfo : Word
  epc : BitVec 40
  epcSave : Option BlockSave
  trapAt : Option (Stream × Half)
  estat : BitVec 7
  tvec : BitVec 17
  chnd : BitVec 17
  slipcnt : Word
  retryMax : BitVec 3
  priv : Priv
  errors : List HeldError
  kv : Table Nat
  acquireUntil : Nat
  atomic : Option Atomic
  deriving DecidableEq, Repr

/-- CTL's control registers at reset (R71, R120). (DESIGN CHOICE, log entry 1.) -/
def CtlRegs.cleared : CtlRegs :=
  { wtmo := 0xFFFFFFFF, ecause := 0, einfo := 0, epc := 0, epcSave := none, trapAt := none, estat := 0, tvec := 0, chnd := 0, slipcnt := 0,
    retryMax := 3, priv := .user, errors := [], kv := [], acquireUntil := 0, atomic := none }

/-! ### Segment 5 and the copy engine -/

/-- A ring's state (R132). -/
structure RingState where
  on : Bool
  slotsM1 : Nat
  head : Nat
  count : Nat
  rsv : Nat
  held : Bool
  hslot : Nat
  deriving DecidableEq, Repr

/-- A ring that is off. -/
def RingState.off : RingState := { on := false, slotsM1 := 0, head := 0, count := 0, rsv := 0, held := false, hslot := 0 }

/-- Address generators, rings, tile shapes, masks, window, allocator and kerfs of a context (R67 to R69, R71, R132, R147). -/
structure Pieces where
  ag : Table Word
  rings : Table RingState
  tsh : Table Word
  masks : Table (BitVec 1024)
  vbase : BitVec 12
  turn : Nat
  satop : Nat
  allocs : List (Nat × Nat)
  kerf : Table Bool
  stGeo : Nat
  deriving DecidableEq, Repr

/-- Nothing configured (R325). -/
def Pieces.cleared : Pieces :=
  { ag := [], rings := [], tsh := [], masks := [], vbase := 0, turn := 0, satop := 0, allocs := [], kerf := [], stGeo := 0 }

/-- The copy engine and snapshot unit of a context (R128, R137, R369, R371) with the commands each has completed and
the lines each has moved, the class of the copy engine's head on the last cycle (R383), the command whose enqueue waits with its pages held
(R128), and the instruction-memory load in progress with its stream and the cycles left (R151). -/
structure Engine where
  cmds : List Command
  done : Nat
  snaps : Nat
  lines : Nat
  snapLines : Nat
  moving : Bool
  head : Loss
  waiting : Option Command
  imld : Option (Nat × Nat)
  deriving DecidableEq, Repr

/-- An idle engine. -/
def Engine.idle : Engine := { cmds := [], done := 0, snaps := 0, lines := 0, snapLines := 0, moving := false, head := .empty, waiting := none, imld := none }

/-! ### The array, the vector unit, the transform unit and drains -/

/-- A weight set (R164, R165): format code, spectral mark, whether it was fed for slot 0 (R181), block geometry, the KiB of the
read, and the scales and outliers latched with it; `fixed` holds, plus 1, the W fields that a restore has put in the place of what the
read gives, PE (r, n) at 256 r + n (R339). -/
structure WeightSet where
  fmt : Nat
  spectral : Bool
  zeroSlot : Bool
  geo : Nat
  rows : Table Row
  scales : Table Row
  outliers : List Word
  fixed : Table Nat := []
  deriving DecidableEq, Repr

/-- No set: format 0, weights 0 (R164). -/
def WeightSet.none : WeightSet := { fmt := 0, spectral := false, zeroSlot := false, geo := 0, rows := [], scales := [], outliers := [] }

/-- A weight buffer (R164): 0 empty, 1 filling, 2 staged, 3 feeding. -/
structure Buffer where
  st : Nat
  set : WeightSet
  deriving DecidableEq, Repr

/-- What a fill in progress writes (R166, R167, R169, R170). -/
inductive FillDest where
  | buffer (b : Nat)
  | scales (weight : Bool)
  | outliers (weight : Bool) (list : List Word)
  | bands (l : List Half)
  deriving DecidableEq, Repr

/-- A load of weights or scales in progress, with the KiB read so far. -/
structure Fill where
  dest : FillDest
  base : Nat
  beats : Nat
  elapsed : Nat
  total : Nat
  rows : Table Row
  deriving DecidableEq, Repr

/-- The kinds of array operation. -/
inductive ArrayKind where
  | mma | spec | zero
  deriving DecidableEq, Repr

/-- An array operation in progress, or the operand buffers of the last one (R174, R175, R188); `redo` marks a replay, and `corr` lists
the places in D's drain record whose partners are the activations still to be read (R177); `word` is its X32 word, and `old` the set the
PEs held before it (R363); `held` holds, plus 1, the ALAT fields that a restore has put in the place of what was read, row m at PE row r
at 96 m + r, and `psum` what it has put into a PE for the sum of (m, n), at 512 m + n: the PE row, the sum and the operands in transit
to it (R339). -/
structure ArrayOp where
  kind : ArrayKind
  redo : Bool
  corr : List Nat
  ord : Nat
  word : BitVec 32
  shape : Word
  ty : Nat
  dTile : Nat
  dTsh : Word
  aTsh : Word
  base : Nat
  elapsed : Nat
  set : WeightSet
  old : WeightSet
  feeding : Option Nat
  geo : Nat
  scales : Table Row
  acts : Table Row
  read : Table Word
  sums : Table Word
  held : Table Nat := []
  psum : Table (Option (Nat × Nat × Nat)) := []
  deriving DecidableEq, Repr

/-- A transform operation in progress (R182 to R185). -/
structure TransformOp where
  instr : Instr
  ord : Nat
  lb : Nat
  exp : Int
  dTsh : Word
  aTsh : Word
  elapsed : Nat
  rows : Table Row
  deriving DecidableEq, Repr

/-- A correction of a drain record (R177, R338): value, kind, places, and the exact partner values in BF16. -/
structure Correction where
  val : Half
  weight : Bool
  kix : Nat
  oix : Nat
  partners : List Half
  deriving DecidableEq, Repr

/-- A drain record (R177). -/
structure DrainRecord where
  bands : List Half
  corrections : List Correction
  deriving DecidableEq, Repr

/-- A cleared drain record: no corrections, band scales 1.0 (R215). -/
def DrainRecord.cleared : DrainRecord := { bands := List.replicate 8 0x3F80, corrections := [] }

/-- A drain in progress (R215 to R217), with the rows read so far as the drain record has left them. -/
structure DrainOp where
  queue : Bool
  tile : Nat
  tsh : Word
  set : Nat
  base : Nat
  stride : Int
  sr : Word
  ty : Nat
  geo : Nat
  scaleBase : Nat
  sideBase : Nat
  elapsed : Nat
  taken : Nat
  rows : Table Row
  deriving DecidableEq, Repr

/-- What the last array operation has supplied to SEGCRC: where its unit stands, its halfwords, the bytes, and how many bytes have been
supplied since (R188). -/
structure OpBytes where
  at_ : Half
  len : Nat
  bytes : List Byte
  since : Nat
  deriving DecidableEq, Repr

/-- The matrix side of a context (segment 7, R164 to R188, R190, R217); `segDebug` says that the core was stopped or stepped while the
open segment ran (R380). -/
structure Matrix where
  wb0 : Buffer
  wb1 : Buffer
  order : List Nat
  pe : WeightSet
  curfmt : Nat
  specm : Bool
  geo : Nat
  actScales : Table Row
  wScales : Table Row
  actOut : List Word
  wOut : List Word
  bands : List Half
  records : Table DrainRecord
  fills : List Fill
  ops : List ArrayOp
  xops : List TransformOp
  drains : List DrainOp
  replay : Option ArrayOp
  vbusy : Nat
  abusy : Nat
  xbusy : Nat
  segCyc : Nat
  segCrc : BitVec 32
  opBytes : Option OpBytes
  tries : Nat
  segHas : Bool
  segClose : Bool
  segStopped : Bool
  segDebug : Bool
  replaying : Nat
  deriving DecidableEq, Repr

/-- Nothing latched (R164, R325). (DEDUCED, log entry 2.) -/
def Matrix.cleared : Matrix :=
  { wb0 := { st := 0, set := .none }, wb1 := { st := 0, set := .none }, order := [], pe := .none, curfmt := 0, specm := false,
    geo := 0, actScales := [], wScales := [], actOut := [], wOut := [], bands := [], records := [], fills := [], ops := [],
    xops := [], drains := [], replay := none, vbusy := 0, abusy := 0, xbusy := 0, segCyc := 0, segCrc := 0xFFFFFFFF, opBytes := none,
    tries := 0, segHas := false, segClose := false, segStopped := false, segDebug := false, replaying := 0 }

/-! ### A context and a core -/

/-- The queues, tokens, flags, deque and range of a context (R19 to R21, R154, R155, R337). With a flag stand the largest TIME and the
stamps of its increments (R262, R263), and how often it has been incremented on this cycle (R119). -/
structure Links where
  vq : Table VQueue
  rq : Table RQueue
  tok : Table Token
  flags : Table Byte
  flagTime : Table Nat
  flagKv : Table (Table Nat)
  raised : Table Nat
  deque : List Word
  lo : Word
  hi : Word
  ch : Word
  deriving DecidableEq, Repr

/-- Empty links. -/
def Links.cleared : Links := { vq := [], rq := [], tok := [], flags := [], flagTime := [], flagKv := [], raised := [], deque := [], lo := 0, hi := 0, ch := 0 }

/-- A context (R25, R326): every architected element of a core except the pool; with it stand the write bits of its slice (R341), whether
the slice's split has changed since the last save (R343), and the TIME of the stop (R333). -/
structure Ctx where
  ctl : Seq
  ld : Seq
  mx : Seq
  st : Seq
  cr : CtlRegs
  links : Links
  loc : Pieces
  eng : Engine
  mat : Matrix
  pend : List Pend
  task : Option (Nat × Nat)
  clean : Table Bool
  resplit : Bool
  stopAt : Nat
  deriving DecidableEq, Repr

/-- A cleared context (R325). -/
def Ctx.cleared : Ctx :=
  { ctl := .cleared, ld := .cleared, mx := .cleared, st := .cleared, cr := .cleared, links := .cleared, loc := .cleared,
    eng := .idle, mat := .cleared, pend := [], task := none, clean := [], resplit := false, stopAt := 0 }

/-- What a shadow holds (R278, R327, R328). -/
inductive ShadowUse where
  | empty | held | saving | preload (committed : Bool) | restoring
  deriving DecidableEq, Repr

/-- The save or restore the spindle is streaming (R327 to R329): OWN as a save found it, the address of the area, whose pages are held
(R332), and the number of the last write that the core's die had sent when a save began (R264). -/
structure Spindle where
  save : Bool
  shadow : Bool
  own : BitVec 128
  area : Nat
  holds : List PageHold
  sent : Nat
  deriving DecidableEq, Repr

/-- Debug registers of a core (R375 to R380), the step in progress, and whether a DUMP (1) or a LOAD (2)
is. -/
structure Debug where
  att : Bool
  stopped : Bool
  why : Nat
  done : Bool
  err : Bool
  segSkip : Nat
  area : BitVec 40
  step : Option (Bool × Stream × Nat × Nat)
  aside : List Bump
  request : Option Nat
  busy : Nat
  deriving DecidableEq, Repr

/-- A trace record of a core's current cycle that is still to enter its ring (R371, R372). -/
structure TraceRec where
  kind : Nat
  time : Nat
  corr : Nat
  name : Nat
  data : Nat
  deriving DecidableEq, Repr

/-- An event of a core's current cycle that is still to enter its replay log (R388): the cut as bytes, the kind, the index and the value. -/
structure LogEvent where
  cut : List Byte
  kind : Nat
  ix : Nat
  value : Nat
  deriving DecidableEq, Repr

/-- Trace, counters and replay of a core (R373, R384, R387), with the trace records, the STAMP records and the log entries of its current
cycle; `rplDone` counts the encoder commands that have completed in a replay and whose entry is still to be injected (R389), `buffer` is the
write buffer of the log, each entry with its global address, and `onWay` the numbers of the entries' writes that have been sent (R388). -/
structure Watch where
  trcsrc : BitVec 17
  since : Nat
  tlIx : BitVec 7
  tl : Table Nat
  rplMode : Nat
  rplFull : Bool
  rplLog2n : Nat
  rplCount : Nat
  rplBase : BitVec 50
  rplLive : Nat
  rplHold : Option (List Word)
  rplDone : Nat
  records : List TraceRec
  stamps : List TraceRec
  events : List LogEvent
  buffer : List (Nat × LogEvent)
  onWay : List Nat
  deriving DecidableEq, Repr

/-- The partition word as fields (R70); LIVE is the slice of the live context. -/
structure Slice where
  base : Nat
  tileg : Nat
  scrg : Nat
  constg : Nat
  valid : Bool
  deriving DecidableEq, Repr

/-- What the current cycle is to a core: running; one on which a trap has been taken, of which there is one a cycle (R346), or one that has unwound CTL alone (R115); or one on
which the trap handler runs and LD, MX and ST stand (R116). -/
inductive Cycle where
  | running | trapped | unwound | frozen
  deriving DecidableEq, Repr

/-- A core's context and pool as a cycle found them, before the results that land on it (R362). -/
structure Before where
  live : Ctx
  pool : Table Row
  poolBad : Table Bool
  deriving DecidableEq, Repr

/-- Why the live context leaves at the end of the cycle (R122, R330, R362): the trap of a unit that stands at its sequencer's head, another
trap, or a `yield` that completes the task or has its context captured. -/
inductive Leave where
  | precise (sm : Stream) (at_ : Half) (cause : Cause) (info : Word)
  | other
  | ended
  | yielded
  deriving DecidableEq, Repr

/-- A core (R15, R24, R25); `demand` counts the cycles until a request to yield reaches it (R280), `kv` is its knowledge vector and `seen`
what the responses to it have carried since its last fence or acquire (R258), `stored` says that CTL has written SCR on this cycle
(R245), `slip` that the cycle is one on which its array does not advance, `sharp` that a precise trap has been taken on it (R361), and `leaving` that the context leaves at its end (R122, R330, R362), `start` being what the cycle began with. -/
structure Core where
  hasLive : Bool
  kv : Table Nat
  seen : Table Nat
  live : Ctx
  shA : Ctx
  shB : Ctx
  useA : ShadowUse
  useB : ShadowUse
  spindle : Option Spindle
  switchTo : Option (Bool × Nat)
  pool : Table Row
  poolBad : Table Bool
  slice0 : Slice
  slice1 : Slice
  liveSlice : Bool
  sliceA : Option Bool
  sliceB : Option Bool
  orphans : List Command
  captStop : BitVec 16
  captArm : Bool
  captCount : Option Nat
  demand : Option Nat
  slips : Nat
  cycle : Cycle
  slip : Bool
  sharp : Bool
  stored : Bool
  dbg : Debug
  watch : Watch
  leaving : Option Leave
  start : Option Before
  deriving DecidableEq, Repr

/-- A core at reset: no live context, one slice of 16, 46 and 1 granules (R70), everything else zero (R325). -/
def Core.cleared : Core :=
  { hasLive := false, kv := [], seen := [], live := .cleared, shA := .cleared, shB := .cleared, useA := .empty, useB := .empty, spindle := none,
    switchTo := none, pool := [], poolBad := [], slice0 := { base := 0, tileg := 16, scrg := 46, constg := 1, valid := true },
    slice1 := { base := 0, tileg := 0, scrg := 0, constg := 0, valid := false }, liveSlice := false, sliceA := none,
    sliceB := none, orphans := [], captStop := 0, captArm := false, captCount := none, demand := none, slips := 0, cycle := .running, slip := false, sharp := false, stored := false,
    dbg := { att := false, stopped := false, why := 0, done := false, err := false, segSkip := 0, area := 0, step := none,
             aside := [], request := none, busy := 0 },
    watch := { trcsrc := 0, since := 0, tlIx := 0, tl := [], rplMode := 0, rplFull := false, rplLog2n := 0, rplCount := 0,
               rplBase := 0, rplLive := 0, rplHold := none, rplDone := 0, records := [], stamps := [], events := [], buffer := [], onWay := [] }, leaving := none, start := none }

/-! ### Quads, dies, partitions, domains -/

/-- A page of cluster SRAM (R141): whether it is held in KBC form, its class 0 to 3, whether it is locked to be laid out
again, and the class that the block that outgrew its slot asks for. -/
structure Page where
  kbc : Bool
  cls : Nat
  locked : Bool
  want : Nat
  deriving DecidableEq, Repr

/-- A quad (R11, R299, R398); `veneer` is the fuse behind CLUSTER_CAP. -/
structure Quad where
  owner : BitVec 6
  active : Bool
  clear : Bool
  borrow : Bool
  host : Bool
  debug : Bool
  err : Bool
  veneer : Bool
  pages : Table Page
  deriving DecidableEq, Repr

/-- A quad at reset, its OWNER apart (R299). (DESIGN CHOICE, log entry 4.) -/
def Quad.cleared : Quad :=
  { owner := 0, active := false, clear := false, borrow := false, host := false, debug := false, err := false, veneer := true,
    pages := [] }

/-- A submission to the encoders (R160, R161, R305); `coded` says that its output has been written and its completion target is to follow,
`bad` that a line of its frame was uncorrectable. -/
structure Submission where
  desc : List Byte
  at_ : Word
  core : Nat
  number : Nat
  engine : Nat
  target : Word
  holds : List PageHold
  task : Option Aim
  coded : Bool
  bad : Bool
  deriving DecidableEq, Repr

/-- A die (R258, R305). -/
structure Die where
  encown : BitVec 28
  inForce : Table Nat
  queue : List Submission
  busy : Table (Option Submission)
  number : Nat
  started : Table Bool
  last : Table (List Byte)
  sc : Nat
  deriving DecidableEq, Repr

/-- A die at reset. -/
def Die.cleared : Die :=
  { encown := 0, inForce := [], queue := [], busy := [], number := 0, started := [], last := [], sc := 0 }

/-- A translation kept by a walker (R311): the partition, the page's address and the leaf. -/
structure Kept where
  va : Nat
  size : Nat
  leaf : Word
  level : Nat
  deriving DecidableEq, Repr

/-- An import of a partition (R158, R316). -/
structure Import where
  off : Nat
  len : Nat
  handle : Word
  deriving DecidableEq, Repr

/-- A trace ring's registers (R370) and the records dropped since the last accepted one (R372). -/
structure TraceRing where
  base : BitVec 50
  log2n : BitVec 4
  en : Bool
  ovf : Bool
  pwr : Bool
  head : BitVec 24
  tail : BitVec 24
  lost : Nat
  deriving DecidableEq, Repr

/-- A trace ring at reset. -/
def TraceRing.cleared : TraceRing :=
  { base := 0, log2n := 0, en := false, ovf := false, pwr := false, head := 0, tail := 0, lost := 0 }

/-- A request for a report that has been accepted (R324): the core, the context that wrote it or that is live there, the nonce, the flag,
where each 64 bytes of the report go, and the pages held for them (R313). -/
structure Attest where
  core : Nat
  task : Option Aim
  nonce : List Byte
  flag : Nat
  places : List Loc
  holds : List PageHold
  deriving DecidableEq, Repr

/-- The registers of a partition, kept under its owner quad (R286, R301, R308, R311, R314, R316, R323, R357, R370); `ended` says that its
owner quad has become inactive, and its quads have not all been cleared (R300). -/
structure Part where
  ptbase : BitVec 50
  poolqFirst : BitVec 12
  poolqQuota : BitVec 13
  shvStride : BitVec 8
  shvBase : BitVec 40
  evqBase : BitVec 50
  evLog2n : BitVec 4
  evFlag : BitVec 6
  evCore : BitVec 8
  evEn : Bool
  evOvf : Bool
  evHead : BitVec 20
  evTail : BitVec 20
  tvecdef : BitVec 17
  partslot : Word
  ptroot : BitVec 36
  ftbase : BitVec 46
  invalid : Option (Option Nat)
  kept : List Kept
  imports : List Import
  impAfter : Nat
  pmr : Table (BitVec 384)
  trace : TraceRing
  attest : List Attest
  ended : Bool
  deriving DecidableEq, Repr

/-- A partition's registers at reset. -/
def Part.cleared : Part :=
  { ptbase := 0, poolqFirst := 0, poolqQuota := 0, shvStride := 0, shvBase := 0, evqBase := 0, evLog2n := 0, evFlag := 0,
    evCore := 0, evEn := false, evOvf := false, evHead := 0, evTail := 0, tvecdef := 0, partslot := 0, ptroot := 0, ftbase := 0,
    invalid := none, kept := [], imports := [], impAfter := 0, pmr := [], trace := .cleared, attest := [], ended := false }

/-- The states of a ready-pool slot (R272); a completing task waits for its commands (R273). -/
inductive SlotState where
  | free | waiting | ready | preloaded | running | saved | faulted | completing
  deriving DecidableEq, Repr

/-- A slot of the ready pool (R269, R272, R276, R285, R368, R402): `ownBand` is the band that ageing raises `band` from, `images` the
contexts as saved, each with the number below which it stands for the segments of its area, `begun` counts the contexts that have begun
in the slot, `rerun` says that RERUN or RESUME has made the task ready, and `faultAt` is the place of the unit it faulted at (R362). -/
structure Slot where
  st : SlotState
  owner : Nat
  record : List Word
  prof : BitVec 5
  band : Nat
  ownBand : Nat
  uncontracted : Bool
  preds : Nat
  readyAt : Nat
  raisedAt : Nat
  run : Nat
  core : Nat
  job : Bool
  budget : Nat
  deadline : Option Nat
  shaving : Bool
  saves : Nat
  infl : BitVec 5
  images : List (Nat × Ctx)
  begun : Nat
  rerun : Bool
  faultAt : Option (Stream × Half)
  heldFlags : List Bump
  heldErrors : List HeldError
  faulting : Option Cause
  deriving DecidableEq, Repr

/-- A free slot. -/
def Slot.free : Slot :=
  { st := .free, owner := 0, record := [], prof := 0, band := 0, ownBand := 0, uncontracted := false, preds := 0, readyAt := 0, raisedAt := 0,
    run := 0, core := 0, job := false, budget := 0, deadline := none, shaving := false, saves := 0, infl := 0, images := [], begun := 0, rerun := false, faultAt := none,
    heldFlags := [], heldErrors := [], faulting := none }

/-- A contract (R121, R283, R284). -/
structure Contract where
  isOpen : Bool
  owner : Nat
  period : Nat
  budget : Nat
  deadline : Nat
  band : Nat
  coreset : BitVec 96
  next : Nat
  job : Option Nat
  deriving DecidableEq, Repr

/-- No contract. -/
def Contract.none : Contract :=
  { isOpen := false, owner := 0, period := 0, budget := 0, deadline := 0, band := 0, coreset := 0, next := 0, job := .none }

/-- An export (R156, R157, R316). -/
structure Export where
  valid : Bool
  owner : Nat
  base : Nat
  len : Nat
  rights : BitVec 2
  check : BitVec 48
  deriving DecidableEq, Repr

/-- No export. -/
def Export.none : Export := { valid := false, owner := 0, base := 0, len := 0, rights := 0, check := 0 }

/-- A region's owner byte (R307), with the write that waits for holds. -/
structure Region where
  owner : BitVec 6
  assigned : Bool
  zeroing : Bool
  waiting : Option Byte
  deriving DecidableEq, Repr

/-- An unassigned region. -/
def Region.free : Region := { owner := 0, assigned := false, zeroing := false, waiting := none }

/-- A write sent to another die's home and not yet applied (R258): source 8 is the hub, whose `core` is the port (R265); `engine` marks
a write of a core's copy engine or snapshot unit, or of a die's encoders, and `cmd` is the number of its command. -/
structure Sent where
  die : Nat
  core : Nat
  engine : Bool
  seq : Nat
  stamp : Table Nat
  home : Nat
  pa : Nat
  bytes : List Byte
  cmd : Nat := 0
  deriving DecidableEq, Repr

/-- The context that last ran `bar.init` on a word of the cluster or of global memory (R108, R110, R402): its core and what names it,
and the core and the partition relative to which the word's subscribers are named (R108, R124). -/
structure BarOwner where
  known : Bool
  core : Nat
  base : Nat
  part : Nat
  task : Option Aim
  deriving DecidableEq, Repr

/-- No context known. -/
def BarOwner.none : BarOwner := { known := false, core := 0, base := 0, part := 0, task := .none }

/-- A sender waiting at a full target (R292): the core, and for `renq` the target core and queue. -/
structure Sender where
  core : Nat
  target : Option (Nat × Nat)
  owner : Nat
  deriving DecidableEq, Repr

/-- An entry a `renq` has sent and that has not arrived (R152): its target and its sender, with the sender's TIME and vector. -/
structure Enqueued where
  core : Nat
  sender : Nat
  queue : Nat
  val : Word
  flag : Option Nat
  time : Nat
  kv : Table Nat
  deriving DecidableEq, Repr

/-- Frequency, power and wear registers of the package (R392 to R398): beside FREQCTL's fields, the point an armed change asks for, the
hypervisor's latest effective request, CEIL as it acts, and the TIME at which a new CEIL will. -/
structure Power where
  cur : Nat
  next : BitVec 3
  pend : Bool
  ceil : Nat
  err : Bool
  at_ : Word
  armed : Nat
  request : Nat
  ceilOn : Nat
  ceilAt : Option Nat
  quiet : Nat
  limit : BitVec 12
  wearsel : BitVec 6
  wear : Table Word
  deriving DecidableEq, Repr

/-- The rest of the hub (R321 to R325, R370, R382, R399): `up` says that bring-up has come to the training of the host ports (R400), `window` is
the TIME at which the window of power control ends (R397), `slowLinks` are the pod-link ports that run at 200 Gb/s, `joined` says that the
pod links have trained and TIME has been aligned to the pod (R400), `certificate` is the one signed for the alias key at this boot (R322), and
`answer` is the hub's answer to the last window access (R320), of which none is an error response. -/
structure Hub where
  mr : Table (BitVec 384)
  unlocked : Bool
  recovery : Bool
  psSet : BitVec 48
  psHold : Bool
  trace : TraceRing
  narrow : Table Bool
  ucie2 : Table Bool
  trained : Table Bool
  up : Bool
  window : Nat
  drawn : Nat
  slowHbm : Bool
  slowLinks : Table Bool
  joined : Bool
  certificate : List Byte
  answer : Option Word
  deriving DecidableEq, Repr

/-- The pod as the package's management controller knows it (R353 to R355): as a buddy it keeps the images and the shipped shavings of other
packages; `valid` lists the epochs found valid, by package. -/
structure Pod where
  heard : Table Nat
  failed : Table Bool
  images : Table (Table Byte)
  manifests : Table Bool
  shavings : Table (Table (List Byte))
  acks : Table Bool
  valid : Table Bool
  spares : Table Nat
  deriving DecidableEq, Repr

/-- What is a domain's own beside its pool, tables and partitions (R9): the host command queues, and its barrier group mask on the package
barrier network. (DESIGN CHOICE, log entry 99.) -/
structure Domain where
  commands : Table (List Word)
  group : Word
  deriving DecidableEq, Repr

/-- Whose turn it is: a sequencer of a core on this cycle, the steals of the cycle after all of them (R154, R155), the end of the cycle,
or the beginning of the next. -/
inductive Turn where
  | issue (core : Nat) (sq : Stream)
  | late
  | tick
  | begin
  deriving DecidableEq, Repr

/-- The issue unit being run (R48): its core and sequencer, whether its guard holds, the type of R58 (0 none), its token
masks, the address of its first halfword and of its instruction's word, its length in halfwords, whether a TYP prefix stands
before it, whether the sequencer goes on in the same cycle, and whether the unit is a steal in its turn after all others. -/
structure IssueUnit where
  core : Nat
  sq : Stream
  guard : Bool
  ty : Nat
  popM : BitVec 3
  pushM : BitVec 3
  addr : Half
  word : Half
  len : Nat
  hasTyp : Bool
  hasPre : Bool
  pred : Nat
  need : BitVec 5
  stay : Bool
  late : Bool
  deriving DecidableEq, Repr

/-- No unit. -/
def IssueUnit.none : IssueUnit :=
  { core := 0, sq := .ctl, guard := true, ty := 0, popM := 0, pushM := 0, addr := 0, word := 0, len := 0, hasTyp := false,
    hasPre := false, pred := 0, need := 0, stay := false, late := false }

/-- Bytes of a memory (HBM and host memory, or the cluster SRAM), in canonical form: addresses rising, no byte 0. -/
abbrev Memory := List Host.Cell

/-- The canonical form of a memory. (DESIGN CHOICE, log entry 5.) -/
abbrev Memory.wf (m : Memory) : Bool := tableWf 0#8 m

/-- The state of the package; `withdrawn` lists the handles of the exports that have been revoked (R159); `relTime` and `relKv` keep what the
releases at a place carry (R258, R263), `barTurn` the last operation of this cycle on each barrier word (R261), `late` lists the cores whose
steal of this cycle waits for its turn (R154, R155), `ticked` says that TIME counted at the end of the cycle before (R395), `corrected` keeps one
more than a region's TIME base count at its last correction (R395), `adjust` says that the package's TIME is ahead of the pod's
reference (true) or behind it (false) and is to hold a tick or to take one more, `cmdNext` is the number of the last command appended, and
`performed` keeps by command the TIME of the engine's region when its last byte was performed (R263), `tlZero` is the cycle from which a core's time-loss counters
count (R384), and `free` numbers the free values that have been drawn. -/
structure State where
  cores : Table Core
  mem : Memory
  cluster : Memory
  clusBad : Table Bool
  quads : Table Quad
  dies : Table Die
  parts : Table Part
  slots : Table Slot
  contracts : Table Contract
  exports : Table Export
  withdrawn : List Word
  domains : Table Domain
  regions : Table Region
  relTime : Table Nat
  relKv : Table (Table Nat)
  barTurn : Table Nat
  sent : List Sent
  cmdNext : Nat
  performed : Table Nat
  hubSeq : Nat
  barOwner : Table BarOwner
  lineErr : Table Nat
  poison : Table Bool
  lineSeq : Table Nat
  scrub : Table Nat
  scrubAt : Table Nat
  senders : List Sender
  enqueued : List Enqueued
  power : Power
  hub : Hub
  pod : Pod
  tlZero : Table Nat
  cc : Nat
  time : Nat
  lag : Table Nat
  corrected : Table Nat
  adjust : Option Bool
  ticked : Bool
  ttFrac : Nat
  keepTlb : Bool
  late : List Nat
  turn : Turn
  agenda : List Instr
  unit : IssueUnit
  free : Nat
  deriving DecidableEq, Repr

/-- The machine right after reset (R400): no context on any core, memory zero, every partition register zero.
(DESIGN CHOICE, log entry 1.) (DESIGN CHOICE, log entry 3.) (DESIGN CHOICE, log entry 6.) (DESIGN CHOICE, log entry 7.)
(DESIGN CHOICE, log entry 10.) (DESIGN CHOICE, log entry 99.) -/
def State.reset : State :=
  { cores := [], mem := [], cluster := [], clusBad := [],
    quads := (List.range 47).map fun q => (q + 1, { Quad.cleared with owner := BitVec.ofNat 6 (q + 1) }),
    dies := [], parts := [], slots := [], contracts := [], exports := [], withdrawn := [], domains := [], regions := [], relTime := [], relKv := [], barTurn := [], sent := [], cmdNext := 0, performed := [], hubSeq := 0,
    barOwner := [], lineErr := [], poison := [], lineSeq := [], scrub := [], scrubAt := [], senders := [], enqueued := [],
    power := { cur := 0, next := 0, pend := false, ceil := 0, err := false, at_ := 0, armed := 0, request := 0, ceilOn := 0,
               ceilAt := none, quiet := 0, limit := 2800, wearsel := 0, wear := [] },
    hub := { mr := [], unlocked := false, recovery := false, psSet := 0, psHold := false, trace := .cleared, narrow := [],
             ucie2 := [], trained := [], up := false, window := 400000, drawn := 0, slowHbm := false, slowLinks := [], joined := false, certificate := [],
             answer := none },
    pod := { heard := [], failed := [], images := [], manifests := [], shavings := [], acks := [], valid := [], spares := [] },
    tlZero := [], cc := 0, time := 0, lag := [], corrected := [], adjust := none, ticked := false, ttFrac := 0, keepTlb := false, late := [], turn := .tick, agenda := [], unit := .none, free := 0 }

end Sys2Proof.Machine
end

