-- ==== Sys2Proof/Machine/Access.lean ====
section
/-! DEFINITION. The accessors: one place where each part of the state is read and written. -/
namespace Sys2Proof.Machine

/-- Stream codes 0 CTL, 1 LD, 2 MX, 3 ST (R120, R151). -/
def streamCode : Stream → Nat
  | .ctl => 0
  | .ld => 1
  | .mx => 2
  | .st => 3

/-- The stream of a code. -/
def streamOf (n : Nat) : Stream := if n = 0 then .ctl else if n = 1 then .ld else if n = 2 then .mx else .st

/-- The other three sequencers in the order of R48. -/
def others : Stream → List Stream
  | .ctl => [.ld, .mx, .st]
  | .ld => [.ctl, .mx, .st]
  | .mx => [.ctl, .ld, .st]
  | .st => [.ctl, .ld, .mx]

/-- The registers of a stream (R18). -/
def regCount : Stream → Nat
  | .ctl => 32
  | _ => 16

/-- The halfwords of a stream's instruction memory (R18). -/
def imemSize : Stream → Nat
  | .ctl => 32768
  | _ => 16384

/-! ### Sequencers -/

/-- A scalar register. -/
def Seq.reg (q : Seq) (i : Nat) : Word := get 0#64 q.regs i

/-- A sequencer with a scalar register written. -/
def Seq.setReg (q : Seq) (i : Nat) (v : Word) : Seq := { q with regs := put 0#64 q.regs i v }

/-- A predicate; p0 reads as 1 (R65). -/
def Seq.pred (q : Seq) (i : Nat) : Bool := if i = 0 then true else get false q.preds i

/-- A sequencer with a predicate written; a write to p0 is ignored (R65). -/
def Seq.setPred (q : Seq) (i : Nat) (v : Bool) : Seq := if i = 0 then q else { q with preds := put false q.preds i v }

/-- A halfword of instruction memory; 0xFFFF where nothing was loaded (R46). -/
def Seq.half (q : Seq) (a : Nat) : Half := get 0xFFFF#16 q.imem a

/-- A halfword of the current block as its units are framed: later repetitions of a block that the loop buffer holds issue from it (R60). -/
def Seq.code (q : Seq) (a : Nat) : Half :=
  if q.lb = some q.hdr ∧ 0 < q.rep then (q.lbuf[a - q.hdr.toNat - 2]?).getD 0xFFFF else q.half a

/-- INSTR_END.END as it acts: at most the memory's size (R71). -/
def Seq.bound (q : Seq) (sm : Stream) : Nat := Nat.min q.iend.toNat (imemSize sm)

/-- LEN of the current header (R54). -/
def Seq.len (q : Seq) : Nat := (q.hword.extractLsb' 0 10).toNat

/-- ROT of the current header. -/
def Seq.rot (q : Seq) : Bool := q.hword.getLsbD 18

/-- The halfword after the current block's body. -/
def Seq.bodyEnd (q : Seq) : Nat := q.hdr.toNat + 2 + q.len

/-- Repetitions left, LEFT of R336. -/
def Seq.left (q : Seq) : Nat := q.reps - q.rep - 1

/-- A sequencer of a context. -/
def Ctx.seq (x : Ctx) : Stream → Seq
  | .ctl => x.ctl
  | .ld => x.ld
  | .mx => x.mx
  | .st => x.st

/-- A context with one sequencer replaced by a function of it. -/
def Ctx.modSeq (x : Ctx) (sm : Stream) (f : Seq → Seq) : Ctx :=
  match sm with
  | .ctl => { x with ctl := f x.ctl }
  | .ld => { x with ld := f x.ld }
  | .mx => { x with mx := f x.mx }
  | .st => { x with st := f x.st }

/-! ### Cores and contexts -/

/-- A core. -/
def State.core (s : State) (c : Nat) : Core := get Core.cleared s.cores c

/-- The state with a core replaced by a function of it. -/
def State.modCore (s : State) (c : Nat) (f : Core → Core) : State := { s with cores := update Core.cleared s.cores c f }

/-- The live context of a core. -/
def State.ctx (s : State) (c : Nat) : Ctx := (s.core c).live

/-- The state with the live context of a core replaced by a function of it. -/
def State.modCtx (s : State) (c : Nat) (f : Ctx → Ctx) : State := s.modCore c fun k => { k with live := f k.live }

/-- A sequencer of the live context of a core. -/
def State.seq (s : State) (c : Nat) (sm : Stream) : Seq := (s.ctx c).seq sm

/-- The state with a sequencer replaced by a function of it. -/
def State.modSeq (s : State) (c : Nat) (sm : Stream) (f : Seq → Seq) : State := s.modCtx c fun x => x.modSeq sm f

/-- The state with CTL's control registers of a core replaced by a function of them. -/
def State.modCr (s : State) (c : Nat) (f : CtlRegs → CtlRegs) : State := s.modCtx c fun x => { x with cr := f x.cr }

/-- The state with the links of a core replaced by a function of them. -/
def State.modLinks (s : State) (c : Nat) (f : Links → Links) : State := s.modCtx c fun x => { x with links := f x.links }

/-- The state with segment 5 of a core replaced by a function of it. -/
def State.modLoc (s : State) (c : Nat) (f : Pieces → Pieces) : State := s.modCtx c fun x => { x with loc := f x.loc }

/-- The state with the engine of a core replaced by a function of it. -/
def State.modEng (s : State) (c : Nat) (f : Engine → Engine) : State := s.modCtx c fun x => { x with eng := f x.eng }

/-- The state with the matrix side of a core replaced by a function of it. -/
def State.modMat (s : State) (c : Nat) (f : Matrix → Matrix) : State := s.modCtx c fun x => { x with mat := f x.mat }

/-- The sequencer that runs the current unit. -/
def State.here (s : State) : Seq := s.seq s.unit.core s.unit.sq

/-- The live context that runs the current unit. -/
def State.my (s : State) : Ctx := s.ctx s.unit.core

/-- A register of the sequencer that runs the current unit. -/
def State.r (s : State) (i : BitVec 5) : Word := s.here.reg i.toNat

/-- The state with a register of the running sequencer written. -/
def State.setR (s : State) (i : BitVec 5) (v : Word) : State := s.modSeq s.unit.core s.unit.sq fun q => q.setReg i.toNat v

/-- The state with a predicate of the running sequencer written. -/
def State.setP (s : State) (i : Nat) (v : Bool) : State := s.modSeq s.unit.core s.unit.sq fun q => q.setPred i v

/-! ### Quads, dies, partitions, slots -/

/-- A quad. -/
def State.quad (s : State) (q : Nat) : Quad := get Quad.cleared s.quads q

/-- The state with a quad replaced by a function of it. -/
def State.modQuad (s : State) (q : Nat) (f : Quad → Quad) : State := { s with quads := update Quad.cleared s.quads q f }

/-- The owner quad of the partition a quad belongs to (R298, R299). -/
def State.ownerOf (s : State) (q : Nat) : Nat := (s.quad q).owner.toNat

/-- The partition of a core, by owner quad. -/
def State.partOf (s : State) (c : Nat) : Nat := s.ownerOf (Config.quadOf c)

/-- The registers of a partition. -/
def State.part (s : State) (o : Nat) : Part := get Part.cleared s.parts o

/-- The state with a partition's registers replaced by a function of them. -/
def State.modPart (s : State) (o : Nat) (f : Part → Part) : State := { s with parts := update Part.cleared s.parts o f }

/-- The quads of a partition that are active (R298). -/
def State.quadsOf (s : State) (o : Nat) : List Nat :=
  (List.range 48).filter fun q => (s.quad q).owner.toNat == o && (s.quad q).active

/-- The cores of a partition. -/
def State.coresOf (s : State) (o : Nat) : List Nat :=
  (s.quadsOf o).flatMap fun q => [4 * q, 4 * q + 1, 4 * q + 2, 4 * q + 3]

/-- A die. -/
def State.die (s : State) (d : Nat) : Die := get Die.cleared s.dies d

/-- The state with a die replaced by a function of it. -/
def State.modDie (s : State) (d : Nat) (f : Die → Die) : State := { s with dies := update Die.cleared s.dies d f }

/-- The domain of a quad, 0 or 1. -/
def domOfQuad (q : Nat) : Nat := Config.domOfDie (q / 6)

/-- A slot of a domain's ready pool. -/
def State.slot (s : State) (dom slot : Nat) : Slot := get Slot.free s.slots (4096 * dom + slot)

/-- The state with a slot replaced by a function of it. -/
def State.modSlot (s : State) (dom slot : Nat) (f : Slot → Slot) : State :=
  { s with slots := update Slot.free s.slots (4096 * dom + slot) f }

/-- A contract of a domain. -/
def State.contract (s : State) (dom n : Nat) : Contract := get Contract.none s.contracts (4096 * dom + n)

/-- The state with a contract replaced by a function of it. -/
def State.modContract (s : State) (dom n : Nat) (f : Contract → Contract) : State :=
  { s with contracts := update Contract.none s.contracts (4096 * dom + n) f }

/-- A memory region by its index 120 i + k (R307). -/
def State.region (s : State) (i : Nat) : Region := get Region.free s.regions i

/-- The state with a region replaced by a function of it. -/
def State.modRegion (s : State) (i : Nat) (f : Region → Region) : State :=
  { s with regions := update Region.free s.regions i f }

/-- CLUSTER_CAP of a quad, in bytes (R11, R391). (DESIGN CHOICE, log entry 4.) -/
def State.clusterCap (s : State) (q : Nat) : Nat := if (s.quad q).veneer then 0x2000000 else 0x1000000

/-- TIME of a clock region: the hub's less the region's lag (R29, R395). Regions 0 to 47 are quads, 48 to 55 die fabrics. -/
def State.timeOf (s : State) (region : Nat) : Nat := s.time - get 0 s.lag region

/-- The profiles of a core as PROF's five bits (R269, R391). -/
def profBits (c : Nat) : BitVec 5 := if Config.isB (Config.dieOf c) then 0b11001 else 0b00111

/-! ### The pool -/

/-- A slice of a core by number. -/
def Core.slice (k : Core) (second : Bool) : Slice := if second then k.slice1 else k.slice0

/-- A core with a slice replaced. -/
def Core.setSlice (k : Core) (second : Bool) (x : Slice) : Core :=
  if second then { k with slice1 := x } else { k with slice0 := x }

/-- The slice of the live context. -/
def Core.liveSl (k : Core) : Slice := k.slice k.liveSlice

/-- TILE rows of a slice: 64 of 1 KiB in a granule (R24). -/
def Slice.tileRows (x : Slice) : Nat := 64 * x.tileg

/-- Bytes of SCR of a slice. -/
def Slice.scrBytes (x : Slice) : Nat := 65536 * x.scrg

/-- The pool line of TILE row r of a slice. -/
def Slice.tileLine (x : Slice) (r : Nat) : Nat := 64 * x.base + r

/-- The pool line of SCR offset o of a slice. -/
def Slice.scrLine (x : Slice) (o : Nat) : Nat := 64 * (x.base + x.tileg) + o / 1024

/-- The pool line of constant row i of a slice. -/
def Slice.constLine (x : Slice) (i : Nat) : Nat := 64 * (x.base + x.tileg + x.scrg) + i

/-- A line whose uncorrectable 8-byte words read 0 (R347). -/
def maskWords (bad : Table Bool) (l : Nat) (v : Row) : Row :=
  bad.foldl (fun v e => if e.2 && e.1 / 128 == l then v &&& ~~~(BitVec.ofNat 8192 ((2 ^ 64 - 1) * 2 ^ (64 * (e.1 % 128)))) else v) v

/-- A line of the pool, as every agent reads it. (DEDUCED, log entry 35.) -/
def Core.line (k : Core) (l : Nat) : Row := maskWords k.poolBad l (get 0#8192 k.pool l)

/-- A core with a pool line written whole; the write bit of the line's row or granule is set (R341), and its check bits are new. -/
def Core.setLine (k : Core) (l : Nat) (v : Row) : Core :=
  { k with
    pool := put 0#8192 k.pool l v, poolBad := k.poolBad.filter fun e => e.1 / 128 != l
    live := { k.live with clean := put false k.live.clean (128 + l - 64 * k.liveSl.base) false } }

/-- A core with the enabled bits of a pool line written: an uncorrectable word stays so until it is written whole. (DEDUCED, log entry 35.) -/
def Core.mergeLine (k : Core) (l : Nat) (en v : Row) : Core :=
  { k with
    pool := put 0#8192 k.pool l ((get 0#8192 k.pool l &&& ~~~en) ||| (v &&& en))
    poolBad := k.poolBad.filter fun e => e.1 / 128 != l || en.extractLsb' (64 * (e.1 % 128)) 64 != BitVec.allOnes 64
    live := { k.live with clean := put false k.live.clean (128 + l - 64 * k.liveSl.base) false } }

/-- The pool byte at which SCR of a slice begins. -/
def Slice.scrStart (x : Slice) : Nat := 65536 * (x.base + x.tileg)

/-- A core after writes to SCR offsets that `wrote` names: a word all of whose bytes were written has new check bits. -/
def Core.heal (k : Core) (wrote : Nat → Bool) : Core :=
  { k with poolBad := k.poolBad.filter fun e =>
      decide (8 * e.1 < k.liveSl.scrStart) || !((List.range 8).all fun i => wrote (8 * e.1 + i - k.liveSl.scrStart)) }

/-- A TILE row of the live slice. -/
def Core.tileRow (k : Core) (r : Nat) : Row := k.line (k.liveSl.tileLine r)

/-- A core with a TILE row of the live slice written. -/
def Core.setTileRow (k : Core) (r : Nat) (v : Row) : Core := k.setLine (k.liveSl.tileLine r) v

/-- A constant row of the live slice. -/
def Core.constRow (k : Core) (i : Nat) : Row := k.line (k.liveSl.constLine i)

/-- Byte j of a row. -/
def rowByte (r : Row) (j : Nat) : Byte := r.extractLsb' (8 * j) 8

/-- The place in the order of issue that the next result gets: after every one in flight (R191, R331). -/
def Ctx.nextOrd (x : Ctx) : Nat :=
  (x.pend.map (·.ord) ++ (x.mat.ops.map (·.ord) ++ x.mat.xops.map (·.ord))).foldl (fun n o => Nat.max n (o + 1)) 0

/-- Whether an SCR offset lies on a kerf of the live context (R147). -/
def Ctx.onKerf (x : Ctx) (o : Nat) : Bool := get false x.loc.kerf (o / 64)

/-- A byte of SCR as it stands in the pool, kerfs apart. -/
def Core.rawScr (k : Core) (o : Nat) : Byte := rowByte (k.line (k.liveSl.scrLine o)) (o % 1024)

/-- A byte of SCR as an agent reads it: a kerf byte reads 0 (R148). -/
def Core.scrByte (k : Core) (o : Nat) : Byte := if k.live.onKerf o then 0 else k.rawScr o

/-- The n bytes of SCR from an offset, as an agent reads them. -/
def Core.scrBytes (k : Core) : Nat → Nat → List Byte
  | _, 0 => []
  | o, n + 1 => k.scrByte o :: k.scrBytes (o + 1) n

/-- A core with a byte of SCR written; a write to a kerf byte is dropped (R148). -/
def Core.setScrByte (k : Core) (o : Nat) (b : Byte) : Core :=
  if k.live.onKerf o then k
  else k.mergeLine (k.liveSl.scrLine o) (BitVec.ofNat 8192 (255 * 2 ^ (8 * (o % 1024)))) (BitVec.ofNat 8192 (b.toNat * 2 ^ (8 * (o % 1024))))

/-- A core with bytes of SCR put into its pool one after the other. -/
def Core.putScr (k : Core) : Nat → List Byte → Core
  | _, [] => k
  | o, b :: bs => (k.setScrByte o b).putScr (o + 1) bs

/-- A core with bytes of SCR written from an offset upward. -/
def Core.setScr (k : Core) (o : Nat) (bs : List Byte) : Core :=
  (k.putScr o bs).heal fun x => decide (o ≤ x ∧ x < o + bs.length) && !k.live.onKerf x

/-- The first kerf byte of a range of SCR, if there is one. -/
def Ctx.kerfIn (x : Ctx) (o n : Nat) : Option Nat :=
  (List.range n).findSome? fun i => if x.onKerf (o + i) then some (o + i) else none

/-! ### Queues and tokens -/

/-- An empty value queue. -/
def VQueue.empty : VQueue := { items := [], staged := [], popped := 0 }

/-- An empty row queue. -/
def RQueue.empty : RQueue := { items := [], staged := [], popped := 0 }

/-- A token queue at 0. -/
def Token.zero : Token := { count := 0, staged := 0, popped := 0 }

/-- The depth of a queue (R19). -/
def queueDepth (q : Nat) : Nat := if q < 3 then 32 else if q = 5 ∨ q = 6 then 4 else 8

/-- A value queue of the links. -/
def Links.vqueue (l : Links) (q : Nat) : VQueue := get VQueue.empty l.vq q

/-- A row queue of the links. -/
def Links.rqueue (l : Links) (q : Nat) : RQueue := get RQueue.empty l.rq q

/-- A token queue of the links. -/
def Links.token (l : Links) (i : Nat) : Token := get Token.zero l.tok i

/-- Whether a value queue has room for n more entries on this cycle: pops of this cycle free none before the next (R19).
(DEDUCED, log entry 21.) -/
def Links.vroom (l : Links) (q n : Nat) : Bool :=
  let v := l.vqueue q
  v.items.length + v.staged.length + v.popped + n ≤ queueDepth q

/-- Whether a row queue has room for one more entry on this cycle. -/
def Links.rroom (l : Links) (q : Nat) : Bool :=
  let v := l.rqueue q
  v.items.length + v.staged.length + v.popped < queueDepth q

/-- The links after a push into a value queue. -/
def Links.vpush (l : Links) (q : Nat) (e : QEntry) : Links :=
  { l with vq := update VQueue.empty l.vq q fun v => { v with staged := v.staged ++ [e] } }

/-- The links after the head of a value queue is popped. -/
def Links.vpop (l : Links) (q : Nat) : Links :=
  { l with vq := update VQueue.empty l.vq q fun v => { v with items := v.items.drop 1, popped := v.popped + 1 } }

/-- The links after a push into a row queue. -/
def Links.rpush (l : Links) (q : Nat) (r : Row) : Links :=
  { l with rq := update RQueue.empty l.rq q fun v => { v with staged := v.staged ++ [r] } }

/-- The links after the head of a row queue is popped. -/
def Links.rpop (l : Links) (q : Nat) : Links :=
  { l with rq := update RQueue.empty l.rq q fun v => { v with items := v.items.drop 1, popped := v.popped + 1 } }

/-- The token queue of an ordered pair, in the order of R337. -/
def tokenIx (x y : Stream) : Nat := 3 * streamCode x + (if streamCode y < streamCode x then streamCode y else streamCode y - 1)

/-- The streams that a mask of a TOK prefix names (R48). -/
def maskStreams (sm : Stream) (m : BitVec 3) : List Stream :=
  ((others sm).zip [m.getLsbD 0, m.getLsbD 1, m.getLsbD 2]).filterMap fun p => if p.2 then some p.1 else none

/-- The token queues a pop mask of a stream names. -/
def popIxs (sm : Stream) (m : BitVec 3) : List Nat := (maskStreams sm m).map fun x => tokenIx x sm

/-- The token queues a push mask of a stream names. -/
def pushIxs (sm : Stream) (m : BitVec 3) : List Nat := (maskStreams sm m).map fun x => tokenIx sm x

/-- Whether every token queue of a list holds a token. -/
def Links.canPop (l : Links) (ix : List Nat) : Bool := ix.all fun i => 0 < (l.token i).count

/-- Whether every token queue of a list holds fewer than 15 on this cycle (R20). (DEDUCED, log entry 21.) -/
def Links.canPush (l : Links) (ix : List Nat) : Bool :=
  ix.all fun i => (l.token i).count + (l.token i).staged + (l.token i).popped < 15

/-- One token popped from each queue of a list. -/
def Links.popTokens (l : Links) (ix : List Nat) : Links :=
  ix.foldl (fun l i => { l with tok := update Token.zero l.tok i fun t => { t with count := t.count - 1, popped := t.popped + 1 } }) l

/-- One token pushed into each queue of a list, visible from the next cycle. -/
def Links.pushTokens (l : Links) (ix : List Nat) : Links :=
  ix.foldl (fun l i => { l with tok := update Token.zero l.tok i fun t => { t with staged := t.staged + 1 } }) l

/-- The control queue of a consumer (R18): q0 of LD, q1 of MX, q2 of ST. -/
def ctlQueue (sm : Stream) : Nat := streamCode sm - 1

/-- A flag of the context. -/
def Links.flag (l : Links) (f : Nat) : Byte := get 0#8 l.flags f

/-- The links with a flag incremented n times (R21). -/
def Links.bump (l : Links) (f n : Nat) : Links := { l with flags := update 0#8 l.flags f fun x => x + BitVec.ofNat 8 n }

end Sys2Proof.Machine
end

