-- ==== Sys2Proof/Machine/Memory.lean ====
section
/-! DEFINITION. Memory: the classes of an address (R92), the page walk (R308 to R316), the homes of bytes and the writes sent to
them (R243, R258), the code of a line (R348, R349), and reading and writing bytes at a resolved place. -/
namespace Sys2Proof.Machine

/-! ### Physical memory -/

/-- The stack of a physical address of HBM, or 8 for host memory (R306). -/
def homeOf (pa : Nat) : Nat := if pa < 2 ^ 39 then pa / 2 ^ 36 else 8

/-- Whether a physical address lies in the usable part of a stack (R306). -/
def usable (pa : Nat) : Bool := pa < 2 ^ 39 && pa % 2 ^ 36 < 0xF00000000

/-- The region index of a usable physical address (R307). -/
def regionIx (pa : Nat) : Nat := 120 * (pa / 2 ^ 36) + pa % 2 ^ 36 / 2 ^ 29

/-- Whether a physical address lies in a region assigned to a partition, on a stack of its domain (R307, R310). -/
def State.regionOk (s : State) (o pa : Nat) : Bool :=
  usable pa && (s.region (regionIx pa)).assigned && !(s.region (regionIx pa)).zeroing
    && (s.region (regionIx pa)).owner.toNat == o && Config.domOfDie (pa / 2 ^ 36) == domOfQuad o

/-- Whether a page may be reached by a partition: its regions, or the host window for a partition with HOST (R306, R310). -/
def State.pageOk (s : State) (o pa : Nat) : Bool :=
  if 2 ^ 51 ≤ pa then (s.quad o).host && decide (pa < 2 ^ 52) else s.regionOk o pa

/-- The slots of a partition at a stack (R301). -/
def State.slotsAt (s : State) (o stack : Nat) : Nat := bits (s.part o).partslot.toNat (8 * stack + 7) (8 * stack)

/-! ### The code of a line (R348) -/

/-- A symbol times α in GF(2^8) with x^8 + x^4 + x^3 + x^2 + 1. -/
def gfDouble (a : Nat) : Nat := if a < 128 then 2 * a else 2 * a ^^^ 0x11D

/-- The product of two symbols. -/
def gfMul (a b : Nat) : Nat :=
  ((List.range 8).foldl (fun (p : Nat × Nat) i => (if bit b i then p.1 ^^^ p.2 else p.1, gfDouble p.2)) (0, a)).1

/-- α to a power. -/
def gfPow : Nat → Nat
  | 0 => 1
  | n + 1 => gfDouble (gfPow n)

/-- A polynomial, highest coefficient first, times x − r. -/
def timesRoot (p : List Nat) (r : Nat) : List Nat := ((p ++ [0]).zip (0 :: p)).map fun (e : Nat × Nat) => e.1 ^^^ gfMul r e.2

/-- The generator: the product of x − α^i for i from 0 to 11. -/
def rsGenerator : List Nat := (List.range 12).foldl (fun p i => timesRoot p (gfPow i)) [1]

/-- One more symbol divided in: the remainder of twelve symbols after it. -/
def rsStep (rem : List Nat) (d : Nat) : List Nat :=
  let f := d ^^^ rem.headD 0
  ((rem.drop 1 ++ [0]).zip (rsGenerator.drop 1)).map fun (e : Nat × Nat) => e.1 ^^^ gfMul f e.2

/-- The check symbols of a line's 64 data bytes: byte 0 is the highest coefficient, and check symbol 0 the highest of the remainder. -/
def rsCheck (data : List Byte) : List Byte :=
  (data.foldl (fun r b => rsStep r b.toNat) (List.replicate 12 0)).map (BitVec.ofNat 8)

/-- The value of a code word of 76 symbols at a point; the code words are those that are 0 at α^0 to α^11. -/
def rsAt (word : List Byte) (x : Nat) : Nat := word.foldl (fun a b => gfMul a x ^^^ b.toNat) 0

/-- The 76 symbols of a line without errors: its data bytes and its check symbols. -/
def State.codeWord (s : State) (line : Nat) : List Byte :=
  let d := readBytes s.mem (64 * line) 64
  d ++ rsCheck d

/-- Where check symbols 8 to 11 of a line lie, in the reserved part of its stack. -/
def checkPlace (line : Nat) : Nat := line / 2 ^ 30 * 2 ^ 36 + 0xF00000000 + 4 * (line % 2 ^ 30)

/-- Where the poison bit of a line lies, in the reserved part of its stack: a byte's address and a bit of it. -/
def poisonPlace (line : Nat) : Nat × Nat := (line / 2 ^ 30 * 2 ^ 36 + 0xFF0000000 + line % 2 ^ 30 / 8, line % 8)

/-- Whether a line is uncorrectable: five or more wrong symbols, or its poison bit (R349). (DEDUCED, log entry 67.) -/
def State.badLine (s : State) (line : Nat) : Bool := 4 < get 0 s.lineErr line || get false s.poison line

/-- The lines that n bytes from a physical address touch. -/
def linesOf (pa n : Nat) : List Nat := (List.range (ceilDiv (pa % 64 + n) 64)).map fun i => pa / 64 + i

/-- Whether n bytes from a physical address touch an uncorrectable line. (DEDUCED, log entry 35.) -/
def State.badAt (s : State) (pa n : Nat) : Bool := (linesOf pa n).any s.badLine

/-- Bytes of memory at a physical address. (DESIGN CHOICE, log entry 5.) -/
def State.memBytes (s : State) (pa n : Nat) : List Byte := readBytes s.mem pa n

/-- The 64-bit word at a physical address. -/
def State.memWord (s : State) (pa : Nat) : Word := BitVec.ofNat 64 (leNat (s.memBytes pa 8))

/-- The code of one line after a write of it (R349): a whole-line write clears its errors and poison, a partial write of a
correctable line writes it back corrected, and a partial write of an uncorrectable line leaves it marked. (DEDUCED, log entry 67.) -/
def State.codeLine (s : State) (line : Nat) (whole : Bool) : State :=
  let s := { s with lineSeq := update 0 s.lineSeq line (· + 1) }
  if whole ∨ ¬ s.badLine line then
    { s with lineErr := put 0 s.lineErr line 0, poison := put false s.poison line false }
  else { s with poison := put false s.poison line true }

/-- The state after bytes are applied at their home (R243, R349). -/
def State.applyAt (s : State) (pa : Nat) (bs : List Byte) : State :=
  let s1 := (linesOf pa bs.length).foldl
    (fun s l => s.codeLine l (decide (pa ≤ 64 * l ∧ 64 * l + 64 ≤ pa + bs.length))) s
  { s1 with mem := writeBytes s1.mem pa bs }

/-! ### Stamps (R258) -/

/-- AP_h[j] of R258: every write of source j with this sequence number or a lower one, bound for home h, has been applied. -/
def State.applied (s : State) (h j : Nat) : Nat :=
  let pend := (s.sent.filter fun w => w.home == h && w.die == j).map (·.seq)
  let top := if j = 8 then s.hubSeq else (s.die j).sc
  pend.foldl (fun a q => Nat.min a (q - 1)) top

/-- KV of a core. -/
def State.kv (s : State) (c j : Nat) : Nat := get 0 (s.core c).kv j

/-- The larger of two vectors, entry by entry. -/
def merged (a b : Table Nat) : Table Nat := iterate 9 (fun j t => put 0 t j (Nat.max (get 0 t j) (get 0 b j))) a

/-- AP_h as a vector. -/
def State.appliedAt (s : State) (h : Nat) : Table Nat := iterate 9 (fun j t => put 0 t j (s.applied h j)) []

/-- Whether a home may serve a read of a core: AP_h covers KV_c (R258). -/
def State.served (s : State) (c h : Nat) : Bool := (List.range 9).all fun j => s.kv c j ≤ s.applied h j

/-- The core notes the AP_h that a response carries. -/
def State.note (s : State) (c h : Nat) : State :=
  s.modCore c fun k => { k with seen := merged k.seen (s.appliedAt h) }

/-- A fence or acquire merges what was noted into KV_c (R258). (DEDUCED, log entry 23.) -/
def State.merge (s : State) (c : Nat) : State :=
  s.modCore c fun k => { k with kv := merged k.kv k.seen }

/-- The state in which core c's die counts one more write or atomic that leaves it, which the core knows of (R258). -/
def State.countSend (s : State) (c : Nat) : State :=
  let d := Config.dieOf c
  let n := (s.die d).sc + 1
  (s.modDie d fun x => { x with sc := n }).modCore c fun k => { k with kv := put 0 k.kv d n }

/-- The write that core c, or an engine that acts for it, sends to a home on another die, with its number and its stamp (R258). -/
def State.sending (s : State) (c pa : Nat) (bs : List Byte) (engine : Bool) (id : Nat) : Sent :=
  let d := Config.dieOf c
  let n := (s.die d).sc + 1
  { die := d, core := c, engine := engine, seq := n, stamp := put 0 (s.core c).kv d n, home := homeOf pa, pa := pa, bytes := bs, cmd := id }

/-- A write of core c to a home: on its own die it is applied, to another it is sent with its stamp (R258). -/
def State.writeHome (s : State) (c pa : Nat) (bs : List Byte) : State :=
  if homeOf pa = Config.dieOf c then s.applyAt pa bs
  else { s.countSend c with sent := s.sent ++ [s.sending c pa bs false 0] }

/-- Whether a sent write may be applied at its home now (R258): the vectors cover its stamp, and it is the first of its path; those of
one port of the hub are applied in their order of arrival (R265). -/
def State.mayApply (s : State) (w : Sent) : Bool :=
  ((List.range 9).all fun j => j == w.die || decide (get 0 w.stamp j ≤ s.applied w.home j))
    && (s.sent.all fun v =>
      v.die != w.die || (v.home != w.home && !(w.die == 8 && v.core == w.core)) || decide (w.seq ≤ v.seq))

/-- A byte of a command that an engine of core c's quad runs has been performed: the TIME of the engine's region is kept (R263). -/
def State.perform (s : State) (c id : Nat) : State :=
  if id = 0 then s else { s with performed := put 0 s.performed id (s.timeOf (Config.quadOf c)) }

/-- A write of an engine that acts for core c, of the command of a number (R129, R130, R161): numbered and stamped like the core's own, and
applied in the step that sends it where its home may take it. -/
def State.writeEngine (s : State) (c id pa : Nat) (bs : List Byte) : State :=
  if homeOf pa = Config.dieOf c then (s.applyAt pa bs).perform c id
  else
    let w := s.sending c pa bs true id
    if s.mayApply w then ((s.countSend c).applyAt pa bs).perform c id else { s.countSend c with sent := s.sent ++ [w] }

/-- Whether the home of a write of core c has applied every write that it follows, where it is of the core's own die and so takes the write
at once; a home on another die orders it by its stamp (R258). -/
def State.ownServed (s : State) (c pa : Nat) : Bool := homeOf pa != Config.dieOf c || s.served c (homeOf pa)

/-- A write of core c that its home applies in the step that makes it: counted among the writes of the die where the home is on another (R258). -/
def State.writeNow (s : State) (c pa : Nat) (bs : List Byte) : State :=
  if homeOf pa = Config.dieOf c then s.applyAt pa bs else (s.countSend c).applyAt pa bs

/-- Whether a home serves a read of core c now and takes its write at once (R95, R258). -/
def State.homeServed (s : State) (c pa : Nat) : Bool :=
  s.served c (homeOf pa) && !(s.sent.any fun w => w.home == homeOf pa && w.die == Config.dieOf c)

/-- Whether every write that an engine has sent for a core has been applied at its home. -/
def State.engineDone (s : State) (c : Nat) : Bool := !(s.sent.any fun w => w.core == c && w.die == Config.dieOf c && w.engine)

/-- Whether every write that has been sent for a command has been applied at its home (R129). -/
def State.performedAll (s : State) (id : Nat) : Bool := !(s.sent.any fun w => w.cmd == id && w.engine)

/-! ### Page walks -/

/-- What a walk ends in: a physical address with the leaf's first virtual address and size, a fault, or a stall on a binding. Both the
answer and the fault carry the state, in which a leaf may have been bound on the way (R315). -/
inductive Walk where
  | ok (s : State) (pa va size : Nat)
  | fault (s : State) (c : Cause) (info : Word)
  | stall

/-- A state with what a walk that ended in a fault has left: bindings, the pages taken from their rings, and the writes that its die has
sent (R258, R315). -/
def State.boundBy (s t : State) : State :=
  { s with mem := t.mem, lineErr := t.lineErr, poison := t.poison, lineSeq := t.lineSeq, parts := t.parts, dies := t.dies }

/-- The state in which die d's walker has sent one more write or atomic to a home, which counts where the home is another die's (R258). -/
def State.countWalk (s : State) (d home : Nat) : State := if home = d then s else s.modDie d fun x => { x with sc := x.sc + 1 }

/-- Whether a home has applied every write that die d has sent to it: a path is first in, first out (R258). -/
def State.pathClear (s : State) (d home : Nat) : Bool := home == d || !(s.sent.any fun w => w.die == d && w.home == home)

/-- EINFO of a walk's fault: the address, the reason and the level (R310). -/
def walkInfo (va reason lvl : Nat) : Word := BitVec.ofNat 64 (va % 2 ^ 56 + reason * 2 ^ 56 + lvl * 2 ^ 59)

/-- The index bits of a level (R308). -/
def walkIndex (lvl va : Nat) : Nat :=
  if lvl = 4 then bits va 55 43 else if lvl = 3 then bits va 42 29 else if lvl = 2 then bits va 28 25
  else if lvl = 1 then bits va 24 21 else bits va 20 16

/-- The size of a page whose leaf stands at a level. -/
def pageSize (lvl : Nat) : Nat := if lvl = 3 then 2 ^ 29 else if lvl = 2 then 2 ^ 25 else if lvl = 1 then 2 ^ 21 else 2 ^ 16

/-- The alignment of the table of a level. -/
def tableAlign (lvl : Nat) : Nat := if lvl = 3 then 2 ^ 17 else if lvl = 0 then 256 else 128

/-- Whether an entry found at a level is well formed for it (R309, R310). -/
def entryOk (lvl ent : Nat) : Bool :=
  bits ent 63 53 == 0
    && (if bit ent 1 then
          decide (lvl < 4) && (bit ent 5 || (bits ent 51 6 * 64) % pageSize lvl == 0)
        else decide (0 < lvl) && bits ent 5 2 == 0 && (bits ent 51 6 * 64) % tableAlign (lvl - 1) == 0)

/-- The walk down to a leaf: its level, its address and its bits (R310). -/
def State.findLeaf (s : State) (o va : Nat) : Nat → Nat → Except (Cause × Word) (Nat × Nat × Nat)
  | lvl, t =>
    if ¬ s.regionOk o t then .error (.pageFault, walkInfo va 3 lvl) else
    let a := t + 8 * walkIndex lvl va
    if s.badAt a 8 then .error (.uncorr, BitVec.ofNat 64 (va % 2 ^ 56 + lvl * 2 ^ 59 + 2 ^ 62)) else
    let ent := (s.memWord a).toNat
    if ¬ bit ent 0 then .error (.pageFault, walkInfo va 0 lvl)
    else if ¬ entryOk lvl ent then .error (.pageFault, walkInfo va 2 lvl)
    else if bit ent 1 then .ok (lvl, a, ent)
    else
      match lvl with
      | 0 => .error (.pageFault, walkInfo va 2 0)
      | n + 1 => s.findLeaf o va n (bits ent 51 6 * 64)

/-- The size code z of a page at a level (R314): 0 for 64 KiB up to 3 for 512 MiB. -/
def sizeCode (lvl : Nat) : Nat := lvl

/-- What a binding ends in: the bound leaf, a fault, or a wait. -/
inductive Bound where
  | leaf (s : State) (ent : Nat)
  | fails (s : State) (c : Cause) (info : Word)
  | wait

/-- Whether a home covers what a walker has acquired by reading TAIL at another (R258, R314). -/
def State.tailSeen (s : State) (desc entry : Nat) : Bool :=
  let known := merged (s.appliedAt (homeOf desc)) (get [] s.relKv (desc + 8))
  (List.range 9).all fun j => get 0 known j ≤ s.applied (homeOf entry) j

/-- First-touch binding of a leaf on behalf of a die (R314, R315), in one step: its CAS and writes count among the die's and wait for
what the die has sent there (R258). HEAD is past an entry that turns out to be bad.
(DEDUCED, log entry 16.) (DEDUCED, log entry 24.) (DEDUCED, log entry 112.) -/
def State.bind (s : State) (o d va lvl a ent : Nat) : Bound :=
  let desc := (s.part o).ftbase.toNat * 64 + 16 * (4 * d + sizeCode lvl)
  let ring := (s.memWord desc).toNat
  let head := leNat (s.memBytes (desc + 8) 4) % 4096
  let tail := leNat (s.memBytes (desc + 12) 4) % 4096
  let taken := s.countWalk d (homeOf a)
  let fails := fun (s : State) (reason : Nat) => Bound.fails (s.countWalk d (homeOf a)) .pageFault (walkInfo va reason lvl)
  let bad := Bound.fails (taken.countWalk d (homeOf a)) .uncorr (BitVec.ofNat 64 (va % 2 ^ 56 + lvl * 2 ^ 59 + 2 ^ 62))
  if ¬ s.pathClear d (homeOf a) ∨ ¬ s.pathClear d (homeOf desc) then .wait
  else if ¬ s.regionOk o desc then fails taken 3
  else if s.badAt desc 16 then bad
  else if head = tail then fails taken 4
  else if ¬ s.regionOk o ring ∨ ¬ s.regionOk o (ring + 32767) then fails taken 3
  else if ring % 64 ≠ 0 then fails taken 2
  else if ¬ s.tailSeen desc (ring + 8 * head) then .wait
  else if s.badAt (ring + 8 * head) 8 then bad
  else
    let p := (s.memWord (ring + 8 * head)).toNat
    let s1 := (taken.countWalk d (homeOf desc)).applyAt (desc + 8) (leBytes 4 ((head + 1) % 4096))
    if p % pageSize lvl ≠ 0 ∨ ¬ s.regionOk o p ∨ homeOf p ≠ d then fails s1 2
    else
      let leaf := 3 + bits ent 4 2 * 4 + p
      .leaf ((s1.countWalk d (homeOf a)).applyAt a (leBytes 8 leaf)) leaf

/-- What the walk checks at a leaf and answers (R310). (DEDUCED, log entry 16.) -/
def State.useLeaf (s : State) (o va lvl ent : Nat) (rd wr user : Bool) : Walk :=
  let size := pageSize lvl
  let page := bits ent 51 6 * 64
  if ¬ s.pageOk o page then .fault s .pageFault (walkInfo va 3 lvl)
  else if page < 2 ^ 39 ∧ s.slotsAt o (homeOf page) = 0 then .fault s .pageFault (walkInfo va 5 lvl)
  else if (rd ∧ ¬ bit ent 2) ∨ (wr ∧ ¬ bit ent 3) ∨ (user ∧ ¬ bit ent 4) then .fault s .priv (walkInfo va 1 lvl)
  else .ok s (page + va % size) (va - va % size) size

/-- The first address of the window classes, which never reach the tables (R92, R308). -/
def windowFrom : Nat := 0xFD * 2 ^ 48

/-- The translation that a walker keeps for an address, if it keeps any (R311). -/
def State.keptAt (s : State) (o va : Nat) : Option Kept :=
  if s.keepTlb then (s.part o).kept.find? fun k => k.va ≤ va && va < k.va + k.size else none

/-- The walk for a global address (R308, R310, R311, R315); `d` is the die whose agent walks, none for the host port and peers.
(DESIGN CHOICE, log entry 6.) -/
def State.walk (s : State) (o : Nat) (d : Option Nat) (va : Nat) (rd wr user : Bool) : Walk :=
  if windowFrom ≤ va then .fault s .addr (BitVec.ofNat 64 va) else
  match s.keptAt o va with
  | some k => s.useLeaf o va k.level k.leaf.toNat rd wr user
  | none =>
    match s.findLeaf o va 4 ((s.part o).ptroot.toNat * 2 ^ 16) with
    | .error e => .fault s e.1 e.2
    | .ok (lvl, a, ent) =>
      if bit ent 5 then
        match d with
        | none => .fault s .pageFault (walkInfo va 0 lvl)
        | some d =>
          if bit ent 52 then .stall else
          match s.bind o d va lvl a ent with
          | .fails s1 c info => .fault s1 c info
          | .wait => .stall
          | .leaf s1 leaf => s1.useLeaf o va lvl leaf rd wr user
      else
        let s1 := if s.keepTlb then
            s.modPart o fun p => { p with kept := { va := va - va % pageSize lvl, size := pageSize lvl, leaf := BitVec.ofNat 64 ent, level := lvl } :: p.kept }
          else s
        s1.useLeaf o va lvl ent rd wr user

/-- Whether a handle matches a standing export (R156, R316), and which. -/
def State.exportOf (s : State) (h : Word) : Option Export :=
  let e := get Export.none s.exports (bits h.toNat 12 0)
  if bits h.toNat 15 13 = 0 ∧ e.valid ∧ e.check.toNat = bits h.toNat 63 16 then some e else none

/-- The import of a partition that covers a peer-window offset, with its standing export (R316). -/
def State.importAt (s : State) (o off : Nat) : Option (Import × Export) :=
  match (s.part o).imports.find? fun i => i.off ≤ off && off < i.off + i.len with
  | none => none
  | some i => (s.exportOf i.handle).map fun e => (i, e)

/-- The handle of an export (R156). -/
def handleOf (dom ix : Nat) (check : BitVec 48) : Word := BitVec.ofNat 64 (ix + 4096 * dom + check.toNat * 2 ^ 16)

/-- Whether a handle is that of an export that has been revoked (R159), and of none that stands. (DEDUCED, log entry 111.) -/
def State.revoked (s : State) (h : Word) : Bool := s.withdrawn.contains h && (s.exportOf h).isNone

/-- An export revoked (R159): its entry is free, and its handle is known as withdrawn. -/
def State.revoke (s : State) (h : Word) : State :=
  { s with exports := put Export.none s.exports (bits h.toNat 12 0) Export.none, withdrawn := h :: s.withdrawn }

/-- The walk for a peer-window offset (R316); it answers the offset itself and the bytes to the end of the exporter's leaf or of the
import, whichever comes first. (DEDUCED, log entry 17.) -/
def State.walkPeer (s : State) (o off : Nat) (rd wr : Bool) : Walk :=
  match s.importAt o off with
  | none => .fault s .pageFault (walkInfo off 6 0)
  | some (i, e) =>
    if (wr ∧ ¬ e.rights.getLsbD 1) ∨ (rd ∧ ¬ e.rights.getLsbD 0) then .fault s .priv (walkInfo off 1 0)
    else
      match s.walk e.owner none (e.base + (off - i.off)) rd wr false with
      | .ok s1 pa va size => .ok s1 pa off (Nat.min (va + size - (e.base + (off - i.off))) (i.off + i.len - off))
      | .fault s1 .uncorr info => .fault s1 .uncorr info
      | .fault s1 _ info => .fault s1 .pageFault (walkInfo (bits info.toNat 55 0) 7 (bits info.toNat 61 59))
      | .stall => .stall

/-! ### Addresses and places -/

/-- The classes of an address (R92). -/
inductive Place where
  | cluster (off : Nat)
  | pool (off : Nat)
  | peer (off : Nat)
  | global (va : Nat)
  | bad
  deriving DecidableEq, Repr

/-- The class of an address; nowhere when a bit that must be 0 is set (R92). -/
def placeOf (a : Word) : Place :=
  let x := a.toNat
  if bits x 63 56 ≠ 0 then .bad
  else if bits x 55 48 = 0xFD then (if bits x 47 32 = 0 then .cluster (bits x 31 0) else .bad)
  else if bits x 55 48 = 0xFE then (if bits x 47 32 = 0 then .pool (bits x 31 0) else .bad)
  else if bits x 55 48 = 0xFF then .peer (bits x 47 0)
  else .global (bits x 55 0)

/-- A resolved access: the place, a fault, or a stall. -/
inductive Resolved where
  | at (s : State) (l : Loc)
  | fault (s : State) (c : Cause) (info : Word)
  | stall

/-- The key of a byte of a quad's cluster SRAM. -/
def clusKey (q off : Nat) : Nat := q * 2 ^ 25 + off

/-- Whether the live context of a core runs at user privilege (R318). -/
def State.isUser (s : State) (c : Nat) : Bool := (s.ctx c).cr.priv == .user

/-- An address resolved for an access of n bytes within one aligned unit by way of a core, at user privilege or above (R92, R310), on behalf
of a die that binds leaves, or of a host port, which binds none (R315). -/
def State.resolveAs (s : State) (die : Option Nat) (user : Bool) (c : Nat) (a : Word) (n : Nat) (rd wr : Bool) : Resolved :=
  match placeOf a with
  | .bad => .fault s .addr a
  | .cluster off =>
    if off + n ≤ s.clusterCap (Config.quadOf c) then .at s (.clus (clusKey (Config.quadOf c) off)) else .fault s .clusterBound a
  | .pool off => if off + n ≤ (s.core c).liveSl.scrBytes then .at s (.scr off) else .fault s .poolBound a
  | .peer off =>
    match s.walkPeer (s.partOf c) off rd wr with
    | .ok s1 pa _ _ => .at s1 (.phys pa)
    | .fault t e i => .fault t e i
    | .stall => .stall
  | .global va =>
    match s.walk (s.partOf c) die va rd wr user with
    | .ok s1 pa _ _ => .at s1 (.phys pa)
    | .fault t e i => .fault t e i
    | .stall => .stall

/-- An address of the core's live context resolved for an access at the context's privilege. -/
def State.resolve (s : State) (c : Nat) (a : Word) (n : Nat) (rd wr : Bool) : Resolved :=
  s.resolveAs (some (Config.dieOf c)) (s.isUser c) c a n rd wr

/-- The bytes at a place, as the live context of a core reads them. -/
def State.bytesAt (s : State) (c : Nat) (l : Loc) (n : Nat) : List Byte :=
  match l with
  | .scr o => (s.core c).scrBytes o n
  | .clus k => readBytes s.cluster k n
  | .phys pa => s.memBytes pa n

/-- The length in which KBC codes a block (R139). -/
def kbcLen (bs : List Byte) : Nat :=
  let n := (bs.filter (· != 0)).length
  if n = 0 then 0
  else if (List.range bs.length).all fun i => bs[i]? == bs[i % 4]? then 4
  else if n ≤ 223 then 32 + n else 256

/-- The smallest slot class that a coded length fits (R140). -/
def kbcClass (len : Nat) : Nat := if len ≤ 64 then 0 else if len ≤ 128 then 1 else if len ≤ 192 then 2 else 3

/-- No page: RAW (R141). -/
def Page.raw : Page := { kbc := false, cls := 0, locked := false, want := 0 }

/-- The page of a cluster key. -/
def State.page (s : State) (key : Nat) : Page := get Page.raw (s.quad (key / 2 ^ 25)).pages (key % 2 ^ 25 / 65536)

/-- The state with the page of a cluster key replaced by a function of it. -/
def State.modPage (s : State) (key : Nat) (f : Page → Page) : State :=
  s.modQuad (key / 2 ^ 25) fun q => { q with pages := update Page.raw q.pages (key % 2 ^ 25 / 65536) f }

/-- The class a write of bytes at a cluster key asks of its block, the write lying within one 256-byte block. -/
def State.askedClass (s : State) (key : Nat) (bs : List Byte) : Nat :=
  kbcClass (kbcLen (readBytes (writeBytes s.cluster key bs) (key - key % 256) 256))

/-- A write to cluster SRAM (R141): a locked page makes it wait, and a block that outgrows its slot locks the page. The answer
is none while the write waits. -/
def State.writeCluster (s : State) (key : Nat) (bs : List Byte) : State × Bool :=
  let p := s.page key
  if p.locked then (s, false)
  else if p.kbc ∧ p.cls < s.askedClass key bs then
    (s.modPage key fun p => { p with locked := true, want := Nat.max p.want (s.askedClass key bs) }, false)
  else
    ({ s with
        cluster := writeBytes s.cluster key bs
        clusBad := s.clusBad.filter fun e => !(key ≤ 8 * e.1 && decide (8 * e.1 + 8 ≤ key + bs.length)) }, true)

/-- The key under which the TIME of a release at a place is kept (R263). -/
def locKey (c : Nat) : Loc → Nat
  | .scr o => 2 ^ 61 + c * 2 ^ 23 + o
  | .clus k => 2 ^ 60 + k
  | .phys pa => pa

/-- What core c knows stays with the doubleword that it stores to, for the acquires that read it there (R254, R258): a home on another die gets
it as the write's stamp. (DEDUCED, log entry 98.) -/
def State.leaveKv (s : State) (c : Nat) (l : Loc) : State :=
  { s with relKv := update [] s.relKv (locKey c l / 8 * 8) fun t => merged t (s.core c).kv }

/-- A place so many bytes above another. -/
def Loc.above (l : Loc) (n : Nat) : Loc :=
  match l with
  | .scr o => .scr (o + n)
  | .clus k => .clus (k + n)
  | .phys pa => .phys (pa + n)

/-- What core c knows stays with each doubleword of the n bytes that its engine writes (R254). (DEDUCED, log entry 98.) -/
def State.leaveKvs (s : State) (c : Nat) (l : Loc) (n : Nat) : State :=
  (List.range ((n + 7) / 8)).foldl (fun a i => a.leaveKv c (l.above (8 * i))) s

/-- A write of the live context of a core at a place; the second part says whether it was made (R141, R258). -/
def State.storeAt (s : State) (c : Nat) (l : Loc) (bs : List Byte) : State × Bool :=
  match l with
  | .scr o => (s.modCore c fun k => { k.setScr o bs with stored := true }, true)
  | .clus k =>
    let a := s.writeCluster k bs
    if a.2 then (a.1.leaveKv c l, true) else a
  | .phys pa =>
    if ¬ s.ownServed c pa then (s, false)
    else if homeOf pa = Config.dieOf c then ((s.writeHome c pa bs).leaveKv c l, true)
    else (s.writeHome c pa bs, true)

/-- The clock region of a place (R263, R392). -/
def locRegion (c : Nat) : Loc → Nat
  | .scr _ => Config.quadOf c
  | .clus k => k / 2 ^ 25
  | .phys pa => if homeOf pa < 8 then 48 + homeOf pa else 56

end Sys2Proof.Machine
end

