-- ==== Sys2Proof/Machine/Trace.lean ====
section
/-! DEFINITION. What the hub writes of its own accord: entries of a partition's event ring (R288), trace records (R370 to R374),
and the increments of flags, aimed at a context or at the live context of a core (R402). -/
namespace Sys2Proof.Machine

/-- The code of a cause (R346). -/
def causeCode : Cause → Nat
  | .wall => 1
  | .fetchBound => 2
  | .illegal => 3
  | .illegalStream => 4
  | .migrate => 5
  | .tileUnconf => 6
  | .constUnconf => 7
  | .addr => 8
  | .align => 9
  | .poolBound => 10
  | .clusterBound => 11
  | .pageFault => 12
  | .priv => 13
  | .copyExtent => 14
  | .ring => 15
  | .wfmt => 16
  | .domain => 17
  | .outlier => 18
  | .barUnder => 19
  | .trapi => 20
  | .brk => 21
  | .uncorr => 32
  | .kerf => 33
  | .lenMismatch => 34
  | .sdc => 35
  | .restoreLayout => 48
  | .restoreCrc => 49
  | .saveFault => 50
  | .startFault => 51

/-- The cause of a code; ILLEGAL for a code that R346 does not list. -/
def causeOf (n : Nat) : Cause :=
  ([.wall, .fetchBound, .illegal, .illegalStream, .migrate, .tileUnconf, .constUnconf, .addr, .align, .poolBound, .clusterBound,
    .pageFault, .priv, .copyExtent, .ring, .wfmt, .domain, .outlier, .barUnder, .trapi, .brk, .uncorr, .kerf, .lenMismatch,
    .sdc, .restoreLayout, .restoreCrc, .saveFault, .startFault].find? fun c => causeCode c == n).getD .illegal

/-- Whether a cause is contained (R346). -/
def contained : Cause → Bool
  | .uncorr | .kerf | .lenMismatch | .sdc => true
  | _ => false

/-- Whether a cause faults the slot and never enters a handler (R346). -/
def slotCause (c : Cause) : Bool := 48 ≤ causeCode c

/-- CORR of the task of a slot (R368). -/
def State.slotCorr (s : State) (d n : Nat) : Nat := n + 4096 * (s.slot d n).run

/-- CORR of the live context of a core, 0 when there is none (R368). -/
def State.corr (s : State) (c : Nat) : Nat :=
  if (s.core c).hasLive then
    match (s.ctx c).task with
    | some (d, n) => s.slotCorr d n
    | none => 0
  else 0

/-- The code of a time-loss class (R383). -/
def lossCode : Loss → Nat
  | .issue => 0
  | .flag => 1
  | .engine => 2
  | .empty => 3

/-- The entry name of a sequencer's head (R369). -/
def State.seqName (s : State) (c : Nat) (sm : Stream) : Nat :=
  let q := s.seq c sm
  streamCode sm + q.pc.toNat * 2 ^ 3 + q.blki % 2 ^ 24 * 2 ^ 19 + q.rep % 256 * 2 ^ 43 + lossCode q.loss * 2 ^ 51

/-- The entry name of an engine's head (R369): 4 the copy engine, 5 the snapshot unit, with the commands it has completed for the live
context. -/
def State.engName (s : State) (c que pos cls : Nat) : Nat :=
  que + pos % 32 * 2 ^ 3 + (if que = 5 then (s.ctx c).eng.snaps else (s.ctx c).eng.done) % 2 ^ 24 * 2 ^ 19 + cls * 2 ^ 51

/-- The entry name of no queue. -/
def noName : Nat := 7

/-- A record's bytes (R371). -/
def recordBytes (time kind core corr name data : Nat) : List Byte :=
  leBytes 8 time ++ leBytes 1 kind ++ leBytes 1 core ++ leBytes 2 0 ++ leBytes 4 corr ++ leBytes 8 name ++ leBytes 8 data

/-- The records a ring holds when full (R370). -/
def TraceRing.size (t : TraceRing) : Nat := 64 * 2 ^ Nat.min t.log2n.toNat 14

/-- The hub's write of bytes at a global address of a partition; none where the page is not mapped for writing (R288).
(PRESUMED, log entry 93.) -/
def State.hubWrite (s : State) (o va : Nat) (bs : List Byte) : Option State :=
  match s.walk o none va false true false with
  | .ok s1 pa _ _ => some (s1.applyAt pa bs)
  | _ => none

/-- One record written into a ring (R370 to R372), with the function that writes its bytes at an offset of the ring: a full ring drops it,
and the first record accepted after drops is preceded by a LOST record. (PRESUMED, log entry 14.) (DEDUCED, log entry 15.)
(PRESUMED, log entry 93.) -/
def pushRecord (t : TraceRing) (s : State) (write : State → Nat → List Byte → Option State) (lost rec : List Byte) :
    State × TraceRing :=
  if ¬ t.en then (s, t)
  else
    let room := fun (t : TraceRing) => (t.head - t.tail).toNat != t.size
    let put1 := fun (s : State) (t : TraceRing) (b : List Byte) =>
      if room t then
        match write s (t.head.toNat % t.size * 32) b with
        | some s1 => (s1, { t with head := t.head + 1 }, true)
        | none => (s, { t with ovf := true, lost := t.lost + 1 }, false)
      else (s, { t with ovf := true, lost := t.lost + 1 }, false)
    if t.lost = 0 then
      let a := put1 s t rec
      (a.1, a.2.1)
    else
      let a := put1 s t lost
      if a.2.2 then
        let b := put1 a.1 { a.2.1 with lost := 0 } rec
        (b.1, b.2.1)
      else (a.1, a.2.1)

/-- A record of a core, with its CORR, for its partition's guest ring, when TRCSRC selects its kind (R373, R374): it joins those of the
cycle. -/
def State.traceAs (s : State) (c kind corr name data : Nat) : State :=
  if ¬ ((s.part (s.partOf c)).trace.en ∧ (s.core c).watch.trcsrc.getLsbD (kind - 1)) then s
  else
    let r : TraceRec := { kind := kind, time := s.timeOf (Config.quadOf c), corr := corr, name := name, data := data }
    s.modCore c fun k => { k with watch := { k.watch with records := k.watch.records ++ [r] } }

/-- A record of a core for its live context. -/
def State.trace (s : State) (c kind name data : Nat) : State := s.traceAs c kind (s.corr c) name data

/-- The place of a record among those of its cycle: by KIND, then by QUE (R372). -/
def TraceRec.place (r : TraceRec) : Nat := 8 * r.kind + r.name % 8

/-- A record put among those of its cycle, behind those of its place. -/
def insertRec (x : TraceRec) : List TraceRec → List TraceRec
  | [] => [x]
  | y :: ys => if x.place < y.place then x :: y :: ys else y :: insertRec x ys

/-- A record of a core written into its partition's guest ring (R370 to R372). -/
def State.writeRec (s : State) (c : Nat) (r : TraceRec) : State :=
  let o := s.partOf c
  let t := (s.part o).trace
  let a := pushRecord t s (fun s off b => s.hubWrite o (t.base.toNat * 64 + off) b)
    (recordBytes r.time 8 c r.corr noName (Nat.min t.lost (2 ^ 32 - 1))) (recordBytes r.time r.kind c r.corr r.name r.data)
  a.1.modPart o fun p => { p with trace := a.2 }

/-- The records of a core's cycle enter the ring in increasing KIND and then increasing QUE (R372). -/
def State.flushRecs (s : State) (c : Nat) : State :=
  match (s.core c).watch.records with
  | [] => s
  | rs =>
    (rs.foldl (fun l r => insertRec r l) []).foldl (fun (a : State) r => a.writeRec c r)
      (s.modCore c fun k => { k with watch := { k.watch with records := [] } })

/-- A record written into the hyp ring (R370, R374); the ring's BASE acts as a physical address. (PRESUMED, log entry 14.) -/
def State.traceHyp (s : State) (rec : List Byte) : State :=
  let t := s.hub.trace
  if ¬ t.en then s
  else
    let a := pushRecord t s (fun s off b => some (s.applyAt (t.base.toNat * 64 + off) b))
      (recordBytes s.time 8 0xFF 0 noName (Nat.min t.lost (2 ^ 32 - 1))) rec
    { a.1 with hub := { a.1.hub with trace := a.2 } }

/-- A STAMP record of a core for one entry of a vector (KIND 6 of R371), where the hyp ring is enabled: it joins those of the cycle, whose
class of CTL's head it names (R369). -/
def State.traceStamp (s : State) (c entry value : Nat) : State :=
  if ¬ s.hub.trace.en then s
  else
    let r : TraceRec :=
      { kind := 6, time := s.timeOf (Config.quadOf c), corr := s.corr c, name := s.seqName c .ctl, data := entry + value % 2 ^ 60 * 16 }
    s.modCore c fun k => { k with watch := { k.watch with stamps := k.watch.stamps ++ [r] } }

/-- A record's entry name with another class (R369). -/
def TraceRec.classed (r : TraceRec) (l : Loss) : TraceRec := { r with name := r.name % 2 ^ 51 + lossCode l * 2 ^ 51 }

/-- The STAMP records of a core's cycle enter the hyp ring. -/
def State.flushStamps (s : State) (c : Nat) : State :=
  match (s.core c).watch.stamps with
  | [] => s
  | rs =>
    rs.foldl (fun (a : State) r => a.traceHyp (recordBytes r.time r.kind c r.corr r.name r.data))
      (s.modCore c fun k => { k with watch := { k.watch with stamps := [] } })

/-! ### Replay log (R387, R388) -/

/-- The cut of a core as the bytes of a log entry (R388). -/
def State.logCut (s : State) (c : Nat) : List Byte := [Stream.ctl, .ld, .mx, .st].flatMap fun q => leBytes 4 (s.seq c q).icnt

/-- The bytes of a log entry (R388). -/
def LogEvent.bytes (e : LogEvent) : List Byte := e.cut ++ leBytes 1 e.kind ++ leBytes 1 e.ix ++ leBytes 6 0 ++ leBytes 8 e.value

/-- An event put among those of its cycle: behind those of an earlier cut, and then by KIND, behind those of its KIND; the increments of one
flag are one entry (R388). What falls on a cycle after a core's own turns has the cut that they have left. (PRESUMED, log entry 93.) -/
def insertEvent (x : LogEvent) : List LogEvent → List LogEvent
  | [] => [x]
  | y :: ys =>
    if x.cut ≠ y.cut then y :: insertEvent x ys
    else if x.kind = 1 ∧ y.kind = 1 ∧ x.ix = y.ix then { y with value := y.value + x.value } :: ys
    else if x.kind < y.kind then x :: y :: ys
    else y :: insertEvent x ys

/-- An event recorded by a core while it records (R388): it joins those of the cycle. -/
def State.logEvent (s : State) (c kind ix value : Nat) : State :=
  let w := (s.core c).watch
  if w.rplLive ≠ 1 ∨ w.rplFull then s
  else
    let e : LogEvent := { cut := s.logCut c, kind := kind, ix := ix, value := value }
    s.modCore c fun k => { k with watch := { k.watch with events := insertEvent e k.watch.events } }

/-- The entries of a replay log (R387). -/
def Watch.logSize (w : Watch) : Nat := 1024 * 2 ^ Nat.min w.rplLog2n 12

/-- The entries that a log's write buffer holds (R388). -/
def logBuffer : Nat := 64

/-- Whether the write buffer of a core's log is full (R388): an entry leaves it when its write has been applied. -/
def State.logFull (s : State) (c : Nat) : Bool :=
  let w := (s.core c).watch
  decide (logBuffer ≤ w.buffer.length + (w.onWay.filter fun n => !s.performedAll n).length)

/-- The entries of a core's cycle joined to its write buffer, in increasing KIND (R388): a log that they fill stops recording. -/
def Watch.join (w : Watch) : Watch :=
  let new := w.events.take (w.logSize - w.rplCount)
  { w with
    events := [], rplCount := w.rplCount + new.length, rplFull := w.rplFull || decide (w.logSize ≤ w.rplCount + new.length)
    buffer := w.buffer ++ new.zipIdx.map fun e => (w.rplBase.toNat * 64 + 32 * (w.rplCount + e.2), e.1) }

/-- The first entry of a core's write buffer written by the core, translated for its die and numbered and stamped as its writes are (R258,
R388); none where its page is still being bound. (PRESUMED, log entry 93.) -/
def State.writeEvent (s : State) (c : Nat) (e : Nat × LogEvent) : Option State :=
  match s.walk (s.partOf c) (some (Config.dieOf c)) e.1 false true false with
  | .ok s1 pa _ _ =>
    let n := s1.cmdNext + 1
    some (({ s1 with cmdNext := n }.writeEngine c n pa e.2.bytes).modCore c fun k => { k with watch := { k.watch with onWay := k.watch.onWay ++ [n] } })
  | .fault s1 _ _ => some s1
  | .stall => none

/-- The entries of a list written, one after another, and those that wait left in the write buffer. -/
def State.writeEvents (s : State) (c : Nat) : List (Nat × LogEvent) → State
  | [] => s.modCore c fun k => { k with watch := { k.watch with buffer := [] } }
  | e :: es =>
    match s.writeEvent c e with
    | some s1 => s1.writeEvents c es
    | none => s.modCore c fun k => { k with watch := { k.watch with buffer := e :: es } }

/-- The entries of a core's cycle join its write buffer, which writes what it can (R388). -/
def State.flushEvents (s : State) (c : Nat) : State :=
  let w := (s.core c).watch
  if w.events = [] ∧ w.buffer = [] ∧ w.onWay = [] then s
  else
    let s1 := (s.modCore c fun k => { k with watch := k.watch.join }).writeEvents c (w.join.buffer)
    s1.modCore c fun k => { k with watch := { k.watch with onWay := k.watch.onWay.filter fun n => !s1.performedAll n } }

/-! ### Flag increments (R21, R402) -/

/-- The code of a source. -/
def flagSourceCode : FlagSource → Nat
  | .copy => 0
  | .flip => 1
  | .remote => 2
  | .encoder => 3

/-- The links after an increment: the flag keeps the largest TIME and the stamps of its increments (R262, R263). -/
def Links.take (l : Links) (b : Bump) : Links :=
  { l.bump b.flag 1 with
    flagTime := update 0 l.flagTime b.flag (fun t => Nat.max t b.time)
    flagKv := update [] l.flagKv b.flag (fun t => merged t b.kv)
    raised := update 0 l.raised b.flag (· + 1) }

/-- An increment applied to the live context of a core: counted aside while the core is debug-stopped (R378), dropped in
replay (R389), recorded and traced otherwise. -/
def State.bumpLive (s : State) (c : Nat) (b : Bump) : State :=
  let k := s.core c
  if k.watch.rplLive = 2 then s
  else if k.dbg.stopped then s.modCore c fun k => { k with dbg := { k.dbg with aside := k.dbg.aside ++ [b] } }
  else
    let s1 := s.modLinks c fun l => l.take b
    (s1.trace c 4 noName (b.flag + ((s1.ctx c).links.flag b.flag).toNat * 256 + flagSourceCode b.src * 2 ^ 16)).logEvent c 1 b.flag 1

/-- An increment aimed at the live context of a core; dropped where there is none (R402). -/
def State.bumpCore (s : State) (c : Nat) (b : Bump) : State := if (s.core c).hasLive then s.bumpLive c b else s

/-- Where a task's context lies on a core: live, or in a shadow. -/
inductive Where where
  | live | shadow (b : Bool) | away
  deriving DecidableEq, Repr

/-- Where the context of a task lies on a core. -/
def State.whereIs (s : State) (c : Nat) (t : Nat × Nat) : Where :=
  let k := s.core c
  if k.hasLive ∧ k.live.task = some t then .live
  else if k.useA ≠ .empty ∧ k.shA.task = some t then .shadow false
  else if k.useB ≠ .empty ∧ k.shB.task = some t then .shadow true
  else .away

/-- The use of a shadow of a core. -/
def Core.use (k : Core) (b : Bool) : ShadowUse := if b then k.useB else k.useA

/-- A shadow of a core. -/
def Core.shadow (k : Core) (b : Bool) : Ctx := if b then k.shB else k.shA

/-- A core with a shadow replaced by a function of it. -/
def Core.modShadow (k : Core) (b : Bool) (f : Ctx → Ctx) : Core :=
  if b then { k with shB := f k.shB } else { k with shA := f k.shA }

/-- A core with the use of a shadow set. -/
def Core.setUse (k : Core) (b : Bool) (u : ShadowUse) : Core := if b then { k with useB := u } else { k with useA := u }

/-- Whether a slot state is that of a task whose context has ended or does not exist yet. -/
def SlotState.ended : SlotState → Bool
  | .free | .completing | .waiting => true
  | _ => false

/-- Whether the context that something is aimed at has ended (R122, R402): its slot is free, or another context has begun there. -/
def State.gone (s : State) (a : Aim) : Bool := (s.slot a.dom a.slot).st.ended || (s.slot a.dom a.slot).begun != a.begun

/-- An increment aimed at one context, wherever it lies (R402): in the cells, or held by the hub for its slot from the start of a save
until the context is live again. -/
def State.bumpTask (s : State) (a : Aim) (b : Bump) : State :=
  let x := s.slot a.dom a.slot
  let hold := s.modSlot a.dom a.slot fun x => { x with heldFlags := x.heldFlags ++ [b] }
  if s.gone a then s
  else
    match s.whereIs x.core (a.dom, a.slot) with
    | .live => s.bumpLive x.core b
    | .shadow h =>
      if (s.core x.core).use h = .held then s.modCore x.core fun k => k.modShadow h fun y => { y with links := y.links.take b }
      else hold
    | .away => hold

/-- An increment aimed at the context that enqueued a command on a core; a context without a slot is the core's live one. -/
def State.bumpFor (s : State) (task : Option Aim) (c : Nat) (b : Bump) : State :=
  match task with
  | some a => s.bumpTask a b
  | none => s.bumpCore c b

/-- What names the live context of a core for what is aimed at it; none where it runs no task. -/
def State.aim (s : State) (c : Nat) : Option Aim :=
  (s.ctx c).task.map fun t => { dom := t.1, slot := t.2, begun := (s.slot t.1 t.2).begun }

/-! ### Events (R288) -/

/-- The entries of an event ring. -/
def Part.evSize (p : Part) : Nat := 16 * 2 ^ Nat.min p.evLog2n.toNat 12

/-- An event of a partition (R288). (DEDUCED, log entry 22.) -/
def State.event (s : State) (o code slot contract cv cause : Nat) : State :=
  let p := s.part o
  if ¬ p.evEn then s
  else if (p.evHead - p.evTail).toNat = p.evSize then s.modPart o fun p => { p with evOvf := true }
  else
    match s.hubWrite o (p.evqBase.toNat * 64 + p.evHead.toNat % p.evSize * 16)
        (leBytes 8 (code + slot * 2 ^ 8 + contract * 2 ^ 20 + cv * 2 ^ 32 + cause * 2 ^ 40) ++ leBytes 8 s.time) with
    | none => s.modPart o fun p => { p with evOvf := true }
    | some s1 =>
      let s2 := s1.modPart o fun p => { p with evHead := p.evHead + 1 }
      if p.evCore.toNat < 192 ∧ s.partOf p.evCore.toNat = o then 
        s2.bumpCore p.evCore.toNat { flag := p.evFlag.toNat, time := s.time, kv := [], src := .remote }
      else s2

/-- An event of a slot: CV and CONTRACT are those of its record (R269, R288). -/
def State.slotEvent (s : State) (dom n code cause : Nat) : State :=
  let x := s.slot dom n
  let w := (x.record[2]?.getD 0#64).toNat
  s.event x.owner code n (bits w 21 10) (bits w 9 9) cause

end Sys2Proof.Machine
end

