-- ==== Sys2Proof/WellFormed.lean ====
section
/-! DEFINITION. Which instructions a stream may issue: the stream sets and profiles of R84, the operand checks of R52, R72 and R90,
the element types of R58, and what an atomic block may hold (R63). -/
namespace Sys2Proof

/-- The pre-emption classes (R84, R281). -/
inductive StopClass where
  | a | b | c | d | e | f | g | h
  deriving DecidableEq, Repr

/-- What an opcode-table row says of an instruction: the streams that accept it, the profile of its function, and its class. -/
structure Shape where
  streams : List Stream
  profile : Profile
  cls : StopClass
  deriving DecidableEq, Repr

/-- All four streams. -/
def clms : List Stream := [.ctl, .ld, .mx, .st]

/-- The streams, profile and class of each instruction (R83, R84); a step without an encoding belongs to no stream. -/
def Instr.shape : Instr → Shape
  | .nop | .movC16 .. | .addiC16 .. | .addC16 .. | .subC16 .. | .liC16 .. | .pmov .. | .pnot .. | .qpushC16 .. | .qpopC16 ..
  | .kpushC16 .. | .kpopC16 .. | .add .. | .sub .. | .and .. | .or .. | .xor .. | .shl .. | .shr .. | .sra .. | .mul ..
  | .mulh .. | .mulhu .. | .min .. | .max .. | .minu .. | .maxu .. | .mov .. | .addi .. | .li .. | .andi .. | .cmpEq ..
  | .cmpNe .. | .cmpLt .. | .cmpLe .. | .cmpGt .. | .cmpGe .. | .cmpLtu .. | .cmpGeu .. | .pand .. | .por .. | .pxor ..
  | .pandn .. | .sel .. | .cmpi .. | .qpush .. | .qpop .. | .qpushT .. | .qpopT .. | .kpush .. | .kpop .. | .csrr .. =>
    { streams := clms, profile := .core, cls := .a }
  | .mark .. => { streams := [.ld, .mx, .st], profile := .core, cls := .a }
  | .ret | .br .. | .call .. | .jr .. | .callr .. | .exit .. | .cut .. | .fwait .. | .bwait .. | .barInit .. | .barArrive ..
  | .barExpect .. | .time .. | .contain .. | .uncontain | .trap .. | .yield .. | .brk =>
    { streams := [.ctl], profile := .core, cls := .a }
  | .ldB .. | .ldH .. | .ldW .. | .ldD .. | .stB .. | .stH .. | .stW .. | .stD .. | .amoAdd .. | .amoSwap .. | .amoCas ..
  | .amoMin .. | .amoMax .. | .amoAnd .. | .amoOr .. | .fence .. | .dqPush .. | .dqPop .. | .dqSteal .. | .rngSet ..
  | .rngTake .. | .rngSteal .. =>
    { streams := [.ctl], profile := .core, cls := .b }
  | .copyG2s .. | .copyS2g .. | .copyG2c .. | .copyC2g .. | .copyC2s .. | .copyS2c .. | .copyX2s .. | .copyS2x .. | .copyRing ..
  | .copyMx .. | .copyMc .. | .cpSnap .. | .salloc .. | .sfree .. | .peerImp .. | .peerExp .. | .peerRel .. =>
    { streams := [.ctl], profile := .core, cls := .c }
  | .imld .. | .renq .. | .taskPost .. | .eret | .csrw .. | .ctOpen .. | .ctClose .. =>
    { streams := [.ctl], profile := .core, cls := .h }
  | .venc .. => { streams := [.ctl], profile := .media, cls := .h }
  | .gath .. | .scat .. | .gathQ .. => { streams := [.ld], profile := .core, cls := .c }
  | .ringInit .. | .ringPush .. | .ringPop .. => { streams := [.ctl, .ld], profile := .core, cls := .c }
  | .wload .. | .mma .. | .mzero .. => { streams := [.mx], profile := .core, cls := .f }
  | .wloadSpec .. | .mmaSpec .. => { streams := [.mx], profile := .spectral, cls := .f }
  | .sload .. | .bload .. | .oload .. => { streams := [.mx], profile := .narrow4, cls := .f }
  | .bgeo .. => { streams := [.mx, .st], profile := .narrow4, cls := .f }
  | .xfFwd .. | .xfInv .. | .domScl .. => { streams := [.mx], profile := .spectral, cls := .g }
  | .segchk .. => { streams := [.mx], profile := .core, cls := .g }
  | .vadd .. | .vsub .. | .vmul .. | .vmin .. | .vmax .. | .vabs .. | .vneg .. | .vmov .. | .vfma .. | .vfms .. | .vfnma ..
  | .vfnms .. | .vcmul .. | .vand .. | .vor .. | .vxor .. | .vshl .. | .vshr .. | .vsra .. | .vadds .. | .vsubs .. | .vcvt ..
  | .vcmpEq .. | .vcmpNe .. | .vcmpLt .. | .vcmpLe .. | .vcmpGt .. | .vcmpGe .. | .vcmpUn .. | .vsel .. | .mand .. | .mor ..
  | .mxor .. | .mnot .. | .tcfg .. | .trowRd .. | .trowWr .. | .tcolRd .. | .tcolWr .. | .tclean .. | .vpush .. | .vpop ..
  | .vins .. | .vext .. =>
    { streams := [.mx], profile := .core, cls := .d }
  | .vquant .. => { streams := [.mx], profile := .narrow4, cls := .d }
  | .vredAdd .. | .vredMax .. | .vredMin .. | .vredAmax .. | .vexp2 .. | .vlog2 .. | .vrcp .. | .vrsqrt .. | .vtanh ..
  | .vsigm .. | .vtopk .. | .vperm .. | .vbcast .. | .vrev .. =>
    { streams := [.mx], profile := .core, cls := .e }
  | .drain .. | .drainQ .. => { streams := [.st], profile := .core, cls := .d }
  | _ => { streams := [], profile := .core, cls := .a }

/-- Whether an instruction takes an element type (R58, R162, R194, R213). -/
def Instr.takesType : Instr → Bool
  | .wload .. | .mma .. | .vadd .. | .vsub .. | .vmul .. | .vmin .. | .vmax .. | .vabs .. | .vneg .. | .vmov .. | .vfma ..
  | .vfms .. | .vfnma .. | .vfnms .. | .vcmul .. | .vand .. | .vor .. | .vxor .. | .vshl .. | .vshr .. | .vsra .. | .vadds ..
  | .vsubs .. | .vcvt .. | .vquant .. | .vcmpEq .. | .vcmpNe .. | .vcmpLt .. | .vcmpLe .. | .vcmpGt .. | .vcmpGe ..
  | .vcmpUn .. | .vsel .. | .vredAdd .. | .vredMax .. | .vredMin .. | .vredAmax .. | .vexp2 .. | .vlog2 .. | .vrcp ..
  | .vrsqrt .. | .vtanh .. | .vsigm .. | .vtopk .. | .vperm .. | .vbcast .. | .vrev .. | .vins .. | .vext .. | .drain ..
  | .drainQ .. => true
  | _ => false

/-- The profiles an instruction of an element type requires: its function's and its type's (R80, R82, R199). (DEDUCED, log entry 91.) -/
def Instr.required (i : Instr) (ty : Nat) : List Profile :=
  let own := [i.shape.profile]
  let wide := if i.takesType && ty == 15 then [Profile.wide] else []
  let narrow := match i with
    | .wload .. | .mma .. | .drain .. | .drainQ .. => if ty = 6 then [Profile.narrow4] else []
    | .vcvt _ _ t _ _ =>
      (if ty = 6 ∨ t.toNat = 6 then [Profile.narrow4] else []) ++ (if t.toNat = 15 then [Profile.wide] else [])
    | _ => []
  own ++ wide ++ narrow

/-- What an atomic block may hold (R63): `time` too, which R63 names. (DEDUCED, log entry 12.) -/
def Instr.atomicOk : Instr → Bool
  | .nop | .movC16 .. | .addiC16 .. | .addC16 .. | .subC16 .. | .liC16 .. | .pmov .. | .pnot .. | .qpushC16 .. | .kpushC16 ..
  | .add .. | .sub .. | .and .. | .or .. | .xor .. | .shl .. | .shr .. | .sra .. | .mul ..
  | .mulh .. | .mulhu .. | .min .. | .max .. | .minu .. | .maxu .. | .mov .. | .addi .. | .li .. | .andi .. | .cmpEq ..
  | .cmpNe .. | .cmpLt .. | .cmpLe .. | .cmpGt .. | .cmpGe .. | .cmpLtu .. | .cmpGeu .. | .pand .. | .por .. | .pxor ..
  | .pandn .. | .sel .. | .cmpi .. | .ldB .. | .ldH .. | .ldW .. | .ldD .. | .stB .. | .stH .. | .stW .. | .stD ..
  | .qpush .. | .kpush .. | .copyG2s .. | .copyS2g .. | .copyG2c .. | .copyC2g .. | .copyC2s .. | .copyS2c .. | .copyX2s ..
  | .copyS2x .. | .copyRing .. | .copyMx .. | .copyMc .. | .cut .. | .exit .. | .time .. | .csrr .. => true
  | _ => false

/-- Function values of a form that the opcode table's mask leaves open and that R85 and R199 make unassigned. -/
def Instr.fieldsOk : Instr → Bool
  | .amoAdd _ _ _ s | .amoSwap _ _ _ s | .amoCas _ _ _ s | .amoMin _ _ _ s | .amoMax _ _ _ s | .amoAnd _ _ _ s
  | .amoOr _ _ _ s => s.toNat ≤ 4
  | .fence s => s.toNat ≤ 4
  | .vcvt _ _ _ _ r => r.toNat ≤ 3
  | _ => true

/-- A predicate that an instruction may write (R90). -/
def predDest (p : Nat) : Bool := p ≤ 21

/-- A predicate that an instruction may read (R90). -/
def predSource (p : Nat) : Bool := p ≤ 23

/-- The registers that a stream may name (R52). -/
def regOk (sm : Stream) (r : BitVec 5) : Bool := sm == .ctl || r.toNat < 16

/-- Queues a stream may push with a scalar (R72). -/
def pushable (sm : Stream) (q : BitVec 3) : Bool :=
  match sm with
  | .ctl => q.toNat ≤ 2
  | .ld => q.toNat == 3
  | .mx => false
  | .st => q.toNat == 4 || q.toNat == 7

/-- Queues a stream may pop into a scalar (R72). -/
def poppable (sm : Stream) (q : BitVec 3) : Bool :=
  match sm with
  | .ctl => q.toNat == 3 || q.toNat == 4
  | .ld => q.toNat == 0 || q.toNat == 7
  | .mx => q.toNat == 1
  | .st => q.toNat == 2

/-- The kind tag of a V32 source (R51). -/
def kindOf (a : BitVec 8) : Nat := a.toNat / 64

/-- The index of a V32 source. -/
def indexOf (a : BitVec 8) : Nat := a.toNat % 64

/-- A V32 source that names a register of MX (R52): a kind-01 index names s0 to s15. -/
def sourceOk (a : BitVec 8) : Bool := kindOf a != 1 || indexOf a < 16

/-- The operand indices of R52, the predicate limits of R90 and the queue directions of R72, in a stream. (DEDUCED, log entry 114.) -/
def Instr.operandsOk (sm : Stream) : Instr → Bool
  | .movC16 d a => regOk sm d && regOk sm a
  | .addiC16 d _ | .liC16 d _ => regOk sm d
  | .addC16 d b | .subC16 d b => regOk sm d && regOk sm b
  | .pmov d a | .pnot d a => predDest d.toNat && predSource a.toNat
  | .qpushC16 q s => pushable sm q && regOk sm s
  | .qpopC16 q s => poppable sm q && regOk sm s
  | .kpushC16 p | .kpopC16 p | .kpush p | .kpop p => p.toNat < 3
  | .add d a b | .sub d a b | .and d a b | .or d a b | .xor d a b | .shl d a b | .shr d a b | .sra d a b | .mul d a b
  | .mulh d a b | .mulhu d a b | .min d a b | .max d a b | .minu d a b | .maxu d a b | .sel d a b =>
    regOk sm d && regOk sm a && regOk sm b
  | .mov d a => regOk sm d && regOk sm a
  | .addi d a _ | .andi d a _ => regOk sm d && regOk sm a
  | .li d _ => regOk sm d
  | .cmpEq d a b | .cmpNe d a b | .cmpLt d a b | .cmpLe d a b | .cmpGt d a b | .cmpGe d a b | .cmpLtu d a b | .cmpGeu d a b =>
    predDest d.toNat && regOk sm a && regOk sm b
  | .pand d a b | .por d a b | .pxor d a b | .pandn d a b => predDest d.toNat && predSource a.toNat && predSource b.toNat
  | .cmpi d a _ _ => predDest d.toNat && regOk sm a
  | .qpush q a => pushable sm q && regOk sm a
  | .qpop d q => poppable sm q && regOk sm d
  | .qpushT q a b => pushable sm q && regOk sm a && regOk sm b
  | .qpopT d q b => poppable sm q && regOk sm d && regOk sm b
  | .csrr d _ _ => regOk sm d
  | .dqPush _ c | .dqPop _ c | .dqSteal _ _ c | .rngTake _ _ c | .rngSteal _ _ _ c => predDest c.toNat
  | .ringInit _ a b => regOk sm a && regOk sm b
  | .ringPush _ a => regOk sm a
  | .ringPop d _ => regOk sm d
  | .vadd _ a b | .vsub _ a b | .vmul _ a b | .vmin _ a b | .vmax _ a b | .vfma _ a b | .vfms _ a b | .vfnma _ a b
  | .vfnms _ a b | .vcmul _ a b | .vand _ a b | .vor _ a b | .vxor _ a b | .vshl _ a b | .vshr _ a b | .vsra _ a b
  | .vadds _ a b | .vsubs _ a b | .vquant _ a b | .vsel _ a b | .vtopk _ a b | .vperm _ a b | .vbcast _ a b | .vins _ a b =>
    sourceOk a && sourceOk b
  | .vabs _ a | .vneg _ a | .vmov _ a | .vcvt _ a _ _ _ | .vredAdd _ a | .vredMax _ a | .vredMin _ a | .vredAmax _ a
  | .vexp2 _ a | .vlog2 _ a | .vrcp _ a | .vrsqrt _ a | .vtanh _ a | .vsigm _ a | .vrev _ a => sourceOk a
  | .vpush m => m.d.toNat == 6 && sourceOk m.a
  | .vpop m => m.a.toNat == 5
  | .vcmpEq d a b | .vcmpNe d a b | .vcmpLt d a b | .vcmpLe d a b | .vcmpGt d a b | .vcmpGe d a b | .vcmpUn d a b =>
    d.toNat < 8 && sourceOk a && sourceOk b
  | .mand d a b | .mor d a b | .mxor d a b => d.toNat < 8 && a.toNat < 8 && b.toNat < 8
  | .mnot d a => d.toNat < 8 && a.toNat < 8
  | .tcfg d a => d.toNat < 16 && sourceOk a
  | .tclean d => d.toNat < 16
  | .trowRd _ a b | .tcolRd _ a b => a.toNat < 16 && sourceOk b
  | .trowWr d a b | .tcolWr d a b => d.toNat < 16 && sourceOk a && sourceOk b
  | .vext d a b => d.toNat < 16 && sourceOk a && sourceOk b
  | _ => true

/-- The number of a control register that `csrr` and `csrw` name (R119). -/
def csrNumber (a b : BitVec 5) : Nat := 32 * b.toNat + a.toNat

/-- Whether a stream accepts an instruction (R84); in LD, MX and ST `csrr` may name only FLAGS0 to FLAGS7 (R119). -/
def Instr.streamOk (sm : Stream) (i : Instr) : Bool :=
  i.shape.streams.contains sm &&
    match i with
    | .csrr _ a b => sm == .ctl || (0x70 ≤ csrNumber a b && csrNumber a b ≤ 0x77)
    | _ => true

/-- A well-formed instruction: its fields are assigned and some stream accepts it with its operands. -/
def Instr.wf (i : Instr) : Bool := i.fieldsOk && clms.any fun sm => i.streamOk sm && i.operandsOk sm

/-- Whether an instruction reports errors held for its context: it is `fwait`, `bwait`, a barrier operation or `yield` (R347).
(DEDUCED, log entry 43.) -/
def Instr.reports : Instr → Bool
  | .fwait .. | .bwait .. | .barInit .. | .barArrive .. | .barExpect .. | .yield .. => true
  | _ => false

end Sys2Proof
end

