-- ==== Sys2Proof/Machine/Operands.lean ====
section
/-! DEFINITION. Operand forms shared by the meanings: addresses and offsets of the scalar forms, the type and row forms of the
vector and matrix instructions, address-generator points. -/
namespace Sys2Proof.Machine

/-! ### Scalar forms -/

/-- A signed immediate as a register value. -/
def sext {w : Nat} (i : BitVec w) : Word := i.signExtend 64

/-- An unsigned immediate as a register value. -/
def zext {w : Nat} (i : BitVec w) : Word := i.zeroExtend 64

/-- The signed 25-bit halfword offset of `br`, `call`, `exit` and `contain` (R79): D, A and IMM from the top. -/
def codeOffset (d a : BitVec 5) (i : BitVec 15) : Int := (d ++ a ++ i).toInt

/-- The target of a code offset: the address of the instruction's own word plus the offset (R96). -/
def State.target (s : State) (d a : BitVec 5) (i : BitVec 15) : Int := s.unit.word.toNat + codeOffset d a i

/-- A timeout operand: bits [31:0] of a register (R73, R99, R107). -/
def timeout (b : Word) : Nat := bits b.toNat 31 0

/-! ### Element types (R59) -/

/-- Bits per element of a type code. -/
def elemBits (ty : Nat) : Nat :=
  if ty = 6 then 4 else if ty = 4 ∨ ty = 5 ∨ ty = 9 ∨ ty = 12 then 8 else if ty = 2 ∨ ty = 3 ∨ ty = 8 ∨ ty = 11 then 16
  else if ty = 1 ∨ ty = 7 ∨ ty = 10 ∨ ty = 13 then 32 else if ty = 14 ∨ ty = 15 then 64 else 0

/-- Lanes of a 1 KiB row of a type code; 0 for code 0. -/
def lanesOf (ty : Nat) : Nat := if elemBits ty = 0 then 0 else 8192 / elemBits ty

/-- Real floating types other than `.f64` and `.e2m1` (R194). -/
def isReal (ty : Nat) : Bool := 1 ≤ ty && ty ≤ 5

/-- Integer types (R194). -/
def isInt (ty : Nat) : Bool := 7 ≤ ty && ty ≤ 12

/-- Signed integer types. -/
def isSigned (ty : Nat) : Bool := 7 ≤ ty && ty ≤ 9

/-- Complex types (R194). -/
def isComplex (ty : Nat) : Bool := ty == 13 || ty == 14

/-! ### Tile shapes (R67) -/

/-- CFG of a shape word. -/
def tshCfg (t : Word) : Bool := t.getLsbD 0

/-- ROWBASE. -/
def tshBase (t : Word) : Nat := bits t.toNat 12 1

/-- Rows. -/
def tshRows (t : Word) : Nat := bits t.toNat 20 13 + 1

/-- Columns. -/
def tshCols (t : Word) : Nat := bits t.toNat 31 21 + 1

/-- ETYPE. -/
def tshType (t : Word) : Nat := bits t.toNat 35 32

/-- DIRTY. -/
def tshDirty (t : Word) : Bool := t.getLsbD 36

/-- DOM: 1 spectral. -/
def tshDom (t : Word) : Bool := t.getLsbD 37

/-- LB. -/
def tshLb (t : Word) : Nat := bits t.toNat 40 38

/-- SEXP. -/
def tshSexp (t : Word) : Int := signed 6 (bits t.toNat 46 41)

/-- A shape word with its tags replaced: DIRTY, DOM, LB and SEXP. -/
def tshTags (t : Word) (dirty dom : Bool) (lb : Nat) (sexp : Int) : Word :=
  BitVec.ofNat 64 (setBits t.toNat 46 36 (ofBool dirty + 2 * ofBool dom + 4 * (lb % 8) + 32 * (sexp % 64).toNat))

/-- A shape register of a context. -/
def Ctx.shape (x : Ctx) (t : Nat) : Word := get 0#64 x.loc.tsh t

/-- A context with a shape register replaced. -/
def Ctx.setShape (x : Ctx) (t : Nat) (v : Word) : Ctx := { x with loc := { x.loc with tsh := put 0#64 x.loc.tsh t v } }

/-- Tile configuration (R68): fields [35:1] of a value written to TSHi, on a slice of so many TILE rows. -/
def configure (old v : Word) (tileRows : Nat) : Word :=
  let f := setBits old.toNat 35 1 (bits v.toNat 35 1)
  let w := BitVec.ofNat 64 f
  if tshType w ≠ 0 ∧ tshCols w ≤ lanesOf (tshType w) ∧ tshBase w + tshRows w ≤ tileRows then
    BitVec.ofNat 64 (setBits (setBits (setBits f 0 0 1) 46 37 0) 36 36 (ofBool (tshCfg old && tshDirty old)))
  else BitVec.ofNat 64 (setBits f 0 0 0)

/-- Whether a configured shape's window holds a TILE row. -/
def inWindow (t : Word) (r : Nat) : Bool := tshCfg t && tshBase t ≤ r && r < tshBase t + tshRows t

/-- The lowest-numbered configured tile whose window holds a TILE row (R66, R192). -/
def Ctx.tileOf (x : Ctx) (r : Nat) : Option Nat := (List.range 16).find? fun t => inWindow (x.shape t) r

/-- DIRTY set in every configured tile whose window holds a row (R192). -/
def Ctx.dirtyRow (x : Ctx) (r : Nat) : Ctx :=
  (List.range 16).foldl (fun x t =>
    if inWindow (x.shape t) r then x.setShape t (x.shape t ||| BitVec.ofNat 64 (2 ^ 36)) else x) x

/-! ### Address generators (R69) -/

/-- An address-generator register: 0 AGnB, 1 to 4 AGnD0 to AGnD3. -/
def Ctx.ag (x : Ctx) (n i : Nat) : Word := get 0#64 x.loc.ag (5 * n + i)

/-- The base of a set. -/
def Ctx.agBase (x : Ctx) (n : Nat) : Nat := bits (x.ag n 0).toNat 31 0

/-- The count of a dimension of a set. -/
def Ctx.agCount (x : Ctx) (n d : Nat) : Nat := bits (x.ag n (d + 1)).toNat 15 0 + 1

/-- The stride of a dimension of a set. -/
def Ctx.agStride (x : Ctx) (n d : Nat) : Int := signed 32 (bits (x.ag n (d + 1)).toNat 47 16)

/-- The points a set enumerates. -/
def Ctx.agPoints (x : Ctx) (n : Nat) : Nat := x.agCount n 0 * x.agCount n 1 * x.agCount n 2 * x.agCount n 3

/-- The address of point p of a set, dimension 0 innermost. -/
def Ctx.agPoint (x : Ctx) (n p : Nat) : Int :=
  let c0 := x.agCount n 0
  let c1 := x.agCount n 1
  let c2 := x.agCount n 2
  x.agBase n + (p % c0 : Nat) * x.agStride n 0 + (p / c0 % c1 : Nat) * x.agStride n 1 + (p / (c0 * c1) % c2 : Nat) * x.agStride n 2
    + (p / (c0 * c1 * c2) : Nat) * x.agStride n 3

/-- A ring's state. -/
def Ctx.ring (x : Ctx) (n : Nat) : RingState := get RingState.off x.loc.rings n

/-- A context with a ring's state replaced by a function of it. -/
def Ctx.modRing (x : Ctx) (n : Nat) (f : RingState → RingState) : Ctx :=
  { x with loc := { x.loc with rings := update RingState.off x.loc.rings n f } }

/-- The slot size of a ring: AGnD0's count (R133). -/
def Ctx.slotSize (x : Ctx) (n : Nat) : Nat := x.agCount n 0

/-! ### Window rows (R56, R66) -/

/-- The TILE row that a vector name reaches: VBASE + k, with v32 to v63 turned. -/
def Ctx.vrow (x : Ctx) (k : Nat) : Nat :=
  x.loc.vbase.toNat + (if k < 32 then k else 32 + (k - 32 + 32 - x.loc.turn % 32) % 32)

/-- EINFO of TILE_UNCONF for a tile (R358). (DEDUCED, log entry 18.) -/
def tileInfo (t : Nat) : Word := BitVec.ofNat 64 (16 + t)

/-- EINFO of TILE_UNCONF for a vector row (R358). (DEDUCED, log entry 18.) -/
def rowInfo (r : Nat) : Word := BitVec.ofNat 64 (r % 4096 * 2 ^ 16)

end Sys2Proof.Machine
end

