-- ==== Sys2Proof/Machine/Flags.lean ====
section
/-! DEFINITION. Predicates and flags: the conditions of the compares (R88), the predicates that waits and timed queue operations
write (R39, R65, R73), the test of a flag wait (R107) and of a header wait (R57). -/
namespace Sys2Proof.Machine

/-- The condition of a code on two values (R88): 0 `eq`, 1 `ne`, 2 `lt`, 3 `le`, 4 `gt`, 5 `ge`, 6 `ltu`, 7 `geu`. -/
def holds (c : Nat) (a b : Word) : Bool :=
  if c = 0 then a == b
  else if c = 1 then a != b
  else if c = 2 then a.slt b
  else if c = 3 then a.sle b
  else if c = 4 then b.slt a
  else if c = 5 then b.sle a
  else if c = 6 then a.ult b
  else b.ule a

/-- Whether a flag has reached a target value (R107): (f - target) mod 256 is at most 127. -/
def reached (f target : Byte) : Bool := (f - target).toNat ≤ 127

/-- Whether a header wait's flag shows its value (R57): bits [2:0] of the flag equal WVAL. -/
def headerMet (f : Byte) (wval : BitVec 3) : Bool := f.extractLsb' 0 3 == wval

/-- p22, written by flag, barrier and header waits: 1 when the wait expired (R39, R65). -/
def Seq.setP22 (q : Seq) (v : Bool) : Seq := q.setPred 22 v

/-- p23, written by timed queue operations: 1 when the operation expired (R39, R65, R73). -/
def Seq.setP23 (q : Seq) (v : Bool) : Seq := q.setPred 23 v

/-- The stage predicates p16 to p21 of repetition j of n, with S stages (R55). -/
def Seq.stage (q : Seq) (stages j n : Nat) : Seq :=
  iterate 6 (fun k q => q.setPred (16 + k) (decide (k < stages ∧ k ≤ j ∧ j + stages ≤ k + n))) q

/-- The eight flags of FLAGSi as a register (R120). -/
def Links.flagWord (l : Links) (i : Nat) : Word :=
  BitVec.ofNat 64 (leNat ((List.range 8).map fun j => l.flag (8 * i + j)))

/-- The links with the eight flags of FLAGSi written (R119, R120). -/
def Links.setFlagWord (l : Links) (i : Nat) (v : Word) : Links :=
  { l with flags := iterate 8 (fun j t => put 0#8 t (8 * i + j) (v.extractLsb' (8 * j) 8)) l.flags }

/-- The links after `csrw` of FLAGSi, which is applied before the increments that reach its flags on the same cycle (R119). -/
def Links.writeFlags (l : Links) (i : Nat) (v : Word) : Links :=
  iterate 8 (fun j m => m.bump (8 * i + j) (get 0 m.raised (8 * i + j))) (l.setFlagWord i v)

end Sys2Proof.Machine
end

