-- ==== Sys2Proof/Machine/Ops.lean ====
section
/-! DEFINITION. The shared operations of an issue unit: how a body ends, how a sequencer goes on, taking a trap and returning from
one (R115, R116, R118), and the order in which a unit is settled (R48, R80). -/
namespace Sys2Proof.Machine

/-! ### CRC-32C (R186) -/

/-- Eight steps of the reflected CRC-32C register. -/
def crcShift : Nat → BitVec 32 → BitVec 32
  | 0, r => r
  | n + 1, r => crcShift n (if r.getLsbD 0 then (r >>> 1) ^^^ 0x82F63B78 else r >>> 1)

/-- The CRC-32C register after one byte. -/
def crcByte (r : BitVec 32) (b : Byte) : BitVec 32 := crcShift 8 (r ^^^ b.zeroExtend 32)

/-- The CRC-32C register after bytes, before the final XOR. -/
def crcBytes (r : BitVec 32) (bs : List Byte) : BitVec 32 := bs.foldl crcByte r

/-- CRC-32C of bytes (R186). -/
def crc32c (bs : List Byte) : BitVec 32 := crcBytes 0xFFFFFFFF bs ^^^ 0xFFFFFFFF

/-! ### How a body ends -/

/-- How the body of a unit ends: it issues and retires so many cycles later, it issues and transfers, it stalls, it stalls having changed
something of its surroundings, it begins a wait and stays the head, it traps precisely, it traps precisely in a walk that has left a
binding (R315), it traps precisely having changed more than that, its token pops undone (R151), it traps and counts as retired when the
handler returns (R117), it is a steal that waits for its turn at the end of the cycle (R154, R155), or it has ended the run of the
sequencer by itself. -/
inductive Res where
  | done (s : State) (lat : Nat)
  | pops (s : State) (lat : Nat) (ring : Nat)
  | goto (s : State) (target : Nat)
  | stall (loss : Loss) (on : List Nat)
  | linger (s : State) (loss : Loss) (on : List Nat)
  | park (s : State) (kind : WaitKind) (rem : Nat) (on : List Nat)
  | trap (c : Cause) (info : Word)
  | trapIn (s : State) (c : Cause) (info : Word)
  | trapKeep (s : State) (c : Cause) (info : Word)
  | soft (c : Cause) (info : Word)
  | later
  | over (s : State)

/-- Whether a body traps precisely, leaving the state it found but for a binding. -/
def Res.traps : Res → Bool
  | .trap .. | .trapIn .. => true
  | _ => false

/-- The bit of a profile in PROF (R269). -/
def profBit : Profile → BitVec 5
  | .core => 1
  | .spectral => 2
  | .narrow4 => 4
  | .media => 8
  | .wide => 16

/-- The profiles of a list as PROF bits. -/
def profMask (l : List Profile) : BitVec 5 := l.foldl (fun a p => a ||| profBit p) 0

/-! ### Going on -/

/-- A sequencer after a unit of so many halfwords has issued (R53, R55, R61): the next unit of the body, the next repetition, or
the header after the body; an atomic block stays at the end of its body until it commits. A first repetition leaves what it has issued in
the loop buffer (R60). -/
def Seq.goOn (q : Seq) (len : Nat) (atomic : Bool) : Seq :=
  let pc := q.pc.toNat + len
  let q := { q with
    fetched := if q.lb = some q.hdr ∧ 0 < q.rep then q.fetched else q.fetched - len
    lbuf := if q.lb = some q.hdr ∧ q.rep = 0 then q.lbuf ++ (List.range len).map fun i => q.half (q.pc.toNat + i) else q.lbuf }
  if pc < q.bodyEnd ∨ atomic then { q with pc := BitVec.ofNat 16 pc }
  else if q.rep + 1 < q.reps then
    let q := { q with pc := BitVec.ofNat 16 (q.hdr.toNat + 2), rep := q.rep + 1 }
    if q.rot then q.stage (q.hword.extractLsb' 26 3).toNat.succ q.rep q.reps else q
  else { q with pc := BitVec.ofNat 16 q.bodyEnd, inBody := false }

/-- The window turn after a unit of MX (R55): it turns at a repetition boundary and returns to 0 at the end. -/
def turnAfter (old new : Seq) (turn : Nat) : Nat :=
  if ¬ old.rot then turn
  else if ¬ new.inBody then 0
  else if old.rep < new.rep then (turn + 1) % 32 else turn

/-- The halfwords of the unit a sequencer stands at, low byte first. -/
def Seq.unitBytes (q : Seq) (len : Nat) : List Byte :=
  (List.range len).flatMap fun i => leBytes 2 (q.code (q.pc.toNat + i)).toNat

/-- What the end of a unit of MX does beside moving its sequencer from `old` to `new`: the window turns, and a segment block's end closes
the segment (R42, R55). -/
def Ctx.mxGone (x : Ctx) (old new : Seq) : Ctx :=
  { x with
    loc := { x.loc with turn := turnAfter old new x.loc.turn }
    mat := { x.mat with segClose := x.mat.segClose || (old.inBody && !new.inBody && old.hword.getLsbD 29) } }

/-- What the matrix side has begun on this cycle for a unit of MX: an array operation (1), a transform (2), or neither (0). -/
def Matrix.begunOp (m : Matrix) : Nat :=
  if m.ops.any fun o => o.elapsed == 0 && !o.redo then 1 else if m.xops.any fun o => o.elapsed == 0 then 2 else 0

/-- A sequencer with one more unit in flight, where that unit owes something after the cycle of its issue: token pushes, a ring pop, or its
retirement (R246). -/
def Seq.owe (q : Seq) (f : Flight) : Seq :=
  { q with flight := if f.pushM ≠ 0 ∨ 1 < f.due ∨ f.ring ≠ none then q.flight ++ [f] else q.flight }

/-- A context after one of its sequencers has issued a unit: it goes on, its issue count rises, and what the unit still owes is
noted (R246, R369). Token pushes of an atomic block are buffered (R63). -/
def Ctx.finish (x : Ctx) (sm : Stream) (len : Nat) (pushM : BitVec 3) (lat : Nat) (ring : Option Nat) (need : BitVec 5) : Ctx :=
  let q := x.seq sm
  let atomic := sm == .ctl && x.cr.atomic.isSome
  let f : Flight :=
    { due := lat + 1, pushM := pushM, ring := ring, after := none, need := need, late := false, no := q.icnt + 1
      op := if sm = .mx then x.mat.begunOp else 0 }
  let q1 := (q.goOn len atomic).owe (if atomic then { f with pushM := 0, ring := none, due := 1 } else f)
  let q2 := { q1 with
    icnt := q.icnt + 1, part := 0, stalled := none, wait := .none, waitRem := 0, loss := .issue, waitsOn := [] }
  let x1 := x.modSeq sm fun _ => q2
  let x2 := if atomic ∧ pushM ≠ 0 then
      { x1 with cr := { x1.cr with atomic := x1.cr.atomic.map fun a => { a with effects := a.effects ++ [.token pushM] } } }
    else x1
  if sm = .mx then x2.mxGone q q2 else x2

/-- The state after the current unit has issued. -/
def State.finish (s : State) (lat : Nat) (ring : Option Nat) : State :=
  s.modCtx s.unit.core fun x => x.finish s.unit.sq s.unit.len s.unit.pushM lat ring s.unit.need

/-- The state after the current unit has transferred to a header (R53, R96): the block is left, whatever repetitions remain, and fetch
restarts (R61). -/
def State.transfer (s : State) (target : Nat) : State :=
  let old := s.here
  (s.finish 0 none).modSeq s.unit.core s.unit.sq fun q =>
    { q with pc := BitVec.ofNat 16 target, inBody := false, fetched := 0, preds := old.preds, rep := old.rep }

/-- The current unit stays the head of its sequencer on this cycle, and why. -/
def State.holdHead (s : State) (i : Instr) (loss : Loss) (on : List Nat) : State :=
  s.modSeq s.unit.core s.unit.sq fun q => { q with stalled := some i, loss := loss, waitsOn := on }

/-! ### Atomic blocks (R63, R64) -/

/-- The rings whose slots the buffered copies of an atomic block reserved. -/
def Atomic.reserved (a : Atomic) : List Nat :=
  a.effects.filterMap fun e =>
    match e with
    | .copy cmd => cmd.slot.map (·.1)
    | _ => none

/-- A context that no longer waits to append a command: its pages and its reservation are released (R128). -/
def Ctx.dropWaiting (x : Ctx) : Ctx :=
  let x1 := { x with eng := { x.eng with waiting := none } }
  match x.eng.waiting.bind (·.slot) with
  | some (n, _) => x1.modRing n fun r => { r with rsv := r.rsv - 1 }
  | none => x1

/-- A context whose atomic block in progress, if there is one, is discarded: CTL stands at its header again (R64), with the
registers, predicates, ring reservations and page holds of its entry. -/
def Ctx.discard (x : Ctx) : Ctx :=
  match x.cr.atomic with
  | none => x
  | some a =>
    let x1 := a.reserved.foldl (fun x n => x.modRing n fun r => { r with rsv := r.rsv - 1 }) x.dropWaiting
    { x1 with
      cr := { x1.cr with atomic := none }
      ctl := { x1.ctl with
        regs := a.regs, preds := a.preds, pc := x1.ctl.hdr, inBody := false, stalled := none, fetched := 0 } }

/-! ### Task records (R269) -/

/-- Word k of a task record. -/
def recWord (r : List Word) (k : Nat) : Nat := ((r[k]?).getD 0).toNat

/-- The record's bytes. -/
def recBytes (r : List Word) : List Byte := r.flatMap fun w => leBytes 8 w.toNat

/-- PROF of a record (R269). -/
def recProf (r : List Word) : BitVec 5 := BitVec.ofNat 5 (recWord r 2)

/-- BAND of a record. -/
def recBand (r : List Word) : Nat := bits (recWord r 2) 8 6

/-- CV of a record. -/
def recCv (r : List Word) : Bool := bit (recWord r 2) 9

/-- CONTRACT of a record. -/
def recContract (r : List Word) : Nat := bits (recWord r 2) 21 10

/-- PREDS of a record. -/
def recPreds (r : List Word) : Nat := bits (recWord r 2) 33 22

/-- PROG of a record. -/
def recProg (r : List Word) : Nat := bits (recWord r 2) 45 34

/-- NSUCC of a record. -/
def recNsucc (r : List Word) : Nat := bits (recWord r 1) 5 0

/-- The address of a record's successor list (R270). -/
def recSucc (r : List Word) : Nat := bits (recWord r 1) 55 6 * 64

/-- Declared operand i of a record (R269): base address, extent in granules, and role. -/
def recOperand (r : List Word) (i : Nat) : Nat × Nat × Nat :=
  let v := leNat (((recBytes r).drop (28 + 6 * i)).take 6)
  (bits v 39 0 * 65536, bits v 45 40 + 1, bits v 47 46)

/-- The granules of SCR that a record's input operands take. -/
def recGranules (r : List Word) : Nat :=
  (List.range 6).foldl (fun n i => let o := recOperand r i; if o.2.2 = 1 ∨ o.2.2 = 3 then n + o.2.1 else n) 0

/-- The n bytes of two ranges meet. -/
def meets (a n b m : Nat) : Bool := 0 < n && 0 < m && decide (a < b + m ∧ b < a + n)

/-- Whether a declared operand of a record overlaps, by address, one of role 2 or 3 of another (R279). -/
def recOverlaps (r live : List Word) : Bool :=
  (List.range 6).any fun i => (List.range 6).any fun j =>
    let a := recOperand r i
    let b := recOperand live j
    a.2.2 != 0 && decide (2 ≤ b.2.2) && meets a.1 (65536 * a.2.1) b.1 (65536 * b.2.1)

/-! ### Leaving a core -/

/-- A shadow that a context leaving the live cells may take: A when it is empty, else B when it is (R25, R279). (DEDUCED, log entry 26.) -/
def Core.freeShadow (k : Core) : Option Bool := if k.useA = .empty then some false else if k.useB = .empty then some true else none

/-- A core whose switch to a shadow is not to be made any more; what was asked of the context it would have made live goes with it. -/
def Core.noSwitch (k : Core) (b : Bool) : Core :=
  if k.switchTo.any fun w => w.1 == b then { k with switchTo := none, demand := if k.hasLive then k.demand else none } else k

/-- A core asked to yield: the request reaches it within 8 cc, after a free number of cycles (R280). (DESIGN CHOICE, log entry 60.) -/
def State.ask (s : State) (c : Nat) : State :=
  match (s.core c).demand with
  | some _ => s
  | none => { s.modCore c fun k => { k with demand := some ((Config.freeWord s.free).toNat % 9) } with free := s.free + 1 }

/-- A preload, or one still being streamed in, is discarded (R279): its task is READY again. -/
def State.dropPreload (s : State) (c : Nat) (b : Bool) : State :=
  match (s.core c).use b, ((s.core c).shadow b).task with
  | .preload _, some t | .restoring, some t =>
    (s.modSlot t.1 t.2 fun x => { x with st := if x.shaving then .saved else .ready }).modCore c fun k =>
      { ((k.modShadow b fun _ => Ctx.cleared).setUse b .empty).noSwitch b with
        spindle := if k.spindle.any fun p => p.shadow == b then none else k.spindle }
  | _, _ => s

/-- The preload of a core that may hold inputs its live task will yet rewrite is discarded (R279). -/
def State.dropOverlapping (s : State) (c : Nat) (b : Bool) : State :=
  match (s.ctx c).task, ((s.core c).shadow b).task with
  | some t, some p =>
    if recOverlaps (s.slot p.1 p.2).record (s.slot t.1 t.2).record then s.dropPreload c b else s
  | _, _ => s

/-- The target that a core's CTL waits at in a `renq` or a `task.post`, with the partition that owns it. -/
def State.waitTarget (s : State) (c : Nat) : Option (Option (Nat × Nat) × Nat) :=
  let q := s.seq c .ctl
  match q.wait, q.stalled with
  | .renq, some (.renq _ b _) =>
    let v := (q.reg b.toNat).toNat
    some (some (bits v 7 0, bits v 9 8), s.partOf (bits v 7 0))
  | .taskPost, _ => some (none, s.partOf c)
  | _, _ => none

/-- A core's entry in the order of senders at a target removed (R292). -/
def State.leaveTarget (s : State) (c : Nat) (target : Option (Nat × Nat)) (owner : Nat) : State :=
  { s with senders := s.senders.filter fun x => !(x.core == c && x.target == target && x.owner == owner) }

/-- A sender that gives up the wait that it is in leaves its place in the order (R292). -/
def State.leaveWait (s : State) (c : Nat) : State :=
  match s.waitTarget c with
  | some t => s.leaveTarget c t.1 t.2
  | none => s

/-- A core whose context is not live any more leaves the order of senders (R292). -/
def State.leaveSenders (s : State) (c : Nat) : State := { s with senders := s.senders.filter fun x => x.core != c }

/-- A core without a live context. -/
def Core.emptied (k : Core) : Core :=
  { k with hasLive := false, live := .cleared, demand := none, captStop := 0, captArm := false, captCount := none, leaving := none
           start := none }

/-- The state in which the task of a core's live context competes from now on (R275, R276): one that has not faulted and does not migrate.
(DEDUCED, log entry 122.) -/
def State.readyAgain (s : State) (c : Nat) : State :=
  match (s.ctx c).task with
  | some t => s.modSlot t.1 t.2 fun x => if x.faulting.isNone then { x with readyAt := s.cc, raisedAt := s.cc } else x
  | none => s

/-- The live context of a core leaves it with its state, into a shadow that waits to be saved (R25, R330); the core is idle. The core's
knowledge goes with it (R264). A core has two slices, so that besides the live context one more is resident and a shadow is empty; in
a state where none is, the context is kept with its slot, which is FAULTED. (DEDUCED, log entry 26.) -/
def State.moveOut (s : State) (c : Nat) : State :=
  let s0 := (((s.leaveSenders c).dropOverlapping c false).dropOverlapping c true).modCtx c fun x =>
    { x.discard with
      stopAt := s.timeOf (Config.quadOf c), cr := { x.discard.cr with kv := merged x.cr.kv (merged (s.core c).kv (s.core c).seen) } }
  match (s0.core c).freeShadow with
  | none =>
    let gone := fun (a : State) => a.modCore c Core.emptied
    match (s0.ctx c).task with
    | none => gone s0
    | some t =>
      let s1 := gone (s0.modSlot t.1 t.2 fun x => { x with images := [(128, s0.ctx c)], st := .faulted })
      s1.slotEvent t.1 t.2 1 (((s0.slot t.1 t.2).faulting.map causeCode).getD 0)
  | some b =>
    (s0.readyAgain c).modCore c fun k =>
      let x := k.live
      let k1 := (k.modShadow b fun _ => x).setUse b .held
      let k2 := if b then { k1 with sliceB := some k.liveSlice } else { k1 with sliceA := some k.liveSlice }
      k2.emptied

/-! ### Errors held and delivered (R115, R347) -/

/-- An error joins those a context holds; a fifth is dropped with ESTAT.MORE set (R347). -/
def CtlRegs.hold (r : CtlRegs) (e : HeldError) : CtlRegs :=
  if 4 ≤ r.errors.length then { r with estat := r.estat ||| 0x40 } else { r with errors := r.errors ++ [e] }

/-- EPC of a context's next issue point (R120): PC, HDR and the repetitions left. (DEDUCED, log entry 107.) -/
def Seq.issuePoint (q : Seq) : BitVec 40 := BitVec.ofNat 8 q.left ++ q.hdr ++ q.pc

/-- What EPC has no bits for (R116). -/
def Seq.blockSave (q : Seq) : BlockSave :=
  { hword := q.hword, inBody := q.inBody, rep := q.rep, reps := q.reps, wait := q.wait, waitRem := q.waitRem, stalled := q.stalled }

/-- CTL sent to a header, its block and any wait or stall left behind. -/
def Seq.sendTo (q : Seq) (target : Half) : Seq :=
  { q with pc := target, inBody := false, fetched := 0, wait := .none, waitRem := 0, stalled := none }

/-- A contained error with a region open unwinds CTL alone (R115). (DEDUCED, log entry 28.) -/
def Ctx.unwind (x0 : Ctx) (c : Cause) (info : Word) : Ctx :=
  let x := x0.discard.dropWaiting
  { x with
    cr := { x.cr with
      ecause := BitVec.ofNat 8 (causeCode c), einfo := info, epc := x.ctl.issuePoint, epcSave := some x.ctl.blockSave,
      chnd := x.cr.chnd &&& 0xFFFF }
    ctl := x.ctl.sendTo (x.cr.chnd.extractLsb' 0 16) }

/-- TVEC.EN (R120). -/
def CtlRegs.trapEn (r : CtlRegs) : Bool := r.tvec.getLsbD 16

/-- ESTAT.INH (R120). -/
def CtlRegs.inh (r : CtlRegs) : Bool := r.estat.getLsbD 3

/-- ESTAT.SKIP. -/
def CtlRegs.skip (r : CtlRegs) : Bool := r.estat.getLsbD 2

/-- CHND.OPEN. -/
def CtlRegs.regionOpen (r : CtlRegs) : Bool := r.chnd.getLsbD 16

/-- The privilege that ESTAT.PPRIV encodes: 0 user, 1 guest. -/
def privCode : Priv → Nat
  | .user => 0
  | _ => 1

/-- TAKING AN EXCEPTION: entry into the trap handler (R116). CTL goes to TVEC.HANDLER at guest privilege; the other streams stand
while ESTAT.INH is 1. `precise` says that a unit at the stream's head is the trapping one. (DEDUCED, log entry 44.) -/
def Ctx.enter (x0 : Ctx) (sm : Stream) (c : Cause) (info : Word) (skip precise : Bool) : Ctx :=
  let x := x0.discard.dropWaiting
  { x with
    cr := { x.cr with
      ecause := BitVec.ofNat 8 (causeCode c), einfo := info
      estat := BitVec.ofNat 7 (streamCode sm + 4 * ofBool skip + 8 + 16 * privCode x.cr.priv + 64 * ofBool (x.cr.estat.getLsbD 6))
      epc := x.ctl.issuePoint, epcSave := some x.ctl.blockSave, priv := .guest
      trapAt := if precise then some (sm, (x.seq sm).pc) else none }
    ctl := x.ctl.sendTo (x.cr.tvec.extractLsb' 0 16) }

/-- A precise trap, or MIGRATE, on the cycle that would complete an armed capture stop is taken instead of it (R361).
(DEDUCED, log entry 75.) -/
def Core.dropCapture (k : Core) : Core :=
  if k.captCount = some 1 ∧ ¬ k.slip then { k with captArm := false, captCount := none } else k

/-- A core on whose cycle a trap has been taken, `unwound` where that has unwound CTL alone (R115); a cycle of the handler's stays one
(R346). -/
def Core.noteTrap (k : Core) (precise unwound : Bool) : Core :=
  let k1 := if precise then k.dropCapture else k
  { k1 with
    sharp := k.sharp || precise
    cycle := if k.cycle = .frozen then .frozen else if unwound then .unwound else .trapped }

/-- A context that is to leave at the end of the cycle leaves (R330, R362). -/
def State.leaveNow (s : State) (c : Nat) : State := if (s.core c).hasLive ∧ (s.core c).leaving ≠ none then s.moveOut c else s

/-- A fault of the task (R116, R362): cause and stream are written, and the context leaves at the end of the cycle to be saved; its slot
becomes FAULTED when the shaving's header is written. `precise` says that a unit at the stream's head is the trapping one: the step that
runs the cycle then makes it end where it began. (DEDUCED, log entry 92.) -/
def State.faultTask (s : State) (c : Nat) (sm : Stream) (cause : Cause) (info : Word) (precise : Bool) : State :=
  let s1 := s.modCr c fun r => { r with
    ecause := BitVec.ofNat 8 (causeCode cause), einfo := info, estat := (r.estat &&& 0x7C) ||| BitVec.ofNat 7 (streamCode sm) }
  let s2 := match (s1.ctx c).task with
    | some t => s1.modSlot t.1 t.2 fun x =>
        { x with faulting := some cause, faultAt := if precise then some (sm, (s.seq c sm).pc) else none }
    | none => s1
  s2.modCore c fun k => { k with leaving := some (if precise then .precise sm (s.seq c sm).pc cause info else .other) }

/-- MIGRATE (R293, R330): the context leaves at the end of the cycle as in a pre-emption, and the profiles that are missing join the
task's (R28). -/
def State.migrate (s : State) (c : Nat) (need : BitVec 5) : State :=
  let s1 := match (s.ctx c).task with
    | some t => s.modSlot t.1 t.2 fun x => { x with prof := x.prof ||| (need &&& ~~~(profBits c)), faulting := some .migrate, faultAt := none }
    | none => s
  s1.modCore c fun k => { k.noteTrap true false with leaving := some .other, dbg := { k.dbg with request := none } }

/-- The TRAP record of a trap of a stream (R371). -/
def State.traceTrap (s : State) (c : Nat) (sm : Stream) (cause : Cause) (info : Word) : State :=
  s.trace c 2 (s.seqName c sm) (causeCode cause + info.toNat % 2 ^ 56 * 256)

/-- The head of a sequencer on a cycle on which it neither issues nor waits on another agent: its unit traps, or its trap is discarded
(R383). (DEDUCED, log entry 123.) -/
def State.headHeld (s : State) (c : Nat) (sm : Stream) : State := s.modSeq c sm fun q => { q with loss := .engine, waitsOn := [] }

/-- TAKING AN EXCEPTION, in the three ways of R116: the handler, or the task faults; a contained error with a region open unwinds
CTL instead (R115). -/
def State.takeTrapAt (s0 : State) (c : Nat) (sm : Stream) (cause : Cause) (info : Word) (skip precise : Bool) : State :=
  let r := (s0.ctx c).cr
  let unwinds := contained cause && r.regionOpen
  let s1 := if precise ∨ sm = .ctl then s0.headHeld c sm else s0
  let s := (s1.traceTrap c sm cause info).modCore c fun k => k.noteTrap precise unwinds
  if unwinds then (s.leaveWait c).modCtx c fun x => x.unwind cause info
  else if r.trapEn ∧ ¬ r.inh then s.modCtx c fun x => x.enter sm cause info skip precise
  else s.faultTask c sm cause info precise

/-- A trap whose trapping unit stands at the stream's head (R116). -/
def State.takeTrap (s : State) (c : Nat) (sm : Stream) (cause : Cause) (info : Word) (skip : Bool) : State :=
  s.takeTrapAt c sm cause info skip true

/-- The error with the lowest cause code, among several. -/
def lowest : List HeldError → Option HeldError
  | [] => none
  | e :: es =>
    match lowest es with
    | none => some e
    | some f => if causeCode e.cause ≤ causeCode f.cause then some e else some f

/-- One delivery of the errors CTL holds (R115, R347): the lowest cause is taken, other contained errors are dropped with MORE set,
and the rest stay held. (DEDUCED, log entry 43.) -/
def State.deliver (s : State) (c : Nat) (onlyNow : Bool) : State :=
  let all := (s.ctx c).cr.errors
  let due := if onlyNow then all.filter (·.now) else all
  match lowest due with
  | none => s
  | some e =>
    let rest := (due.erase e)
    let dropped := rest.any fun f => contained f.cause
    let kept := (rest.filter fun f => !contained f.cause) ++ (if onlyNow then all.filter (!·.now) else [])
    let s1 := s.modCr c fun r => { r with errors := kept, estat := if dropped then r.estat ||| 0x40 else r.estat }
    s1.takeTrapAt c .ctl e.cause e.info false false

/-- An error that falls due to the live context of a core joins those it holds: they are delivered together, at the beginning of the
cycle or at CTL's next report point (R115). -/
def State.raise (s : State) (c : Nat) (e : HeldError) : State := s.modCr c fun r => r.hold e

/-- An error that falls due to the context of a task, wherever it lies (R347); one that has ended drops it. -/
def State.raiseFor (s : State) (task : Option Aim) (c : Nat) (e : HeldError) : State :=
  match task with
  | none => if (s.core c).hasLive then s.raise c e else s
  | some a =>
    let x := s.slot a.dom a.slot
    let hold := s.modSlot a.dom a.slot fun x => { x with heldErrors := x.heldErrors ++ [e] }
    if s.gone a then s
    else
      match s.whereIs x.core (a.dom, a.slot) with
      | .live => s.raise x.core e
      | .shadow b =>
        if (s.core x.core).use b = .held then s.modCore x.core fun k => k.modShadow b fun y => { y with cr := y.cr.hold e }
        else hold
      | .away => hold

/-- The agent code of EINFO of KERF (R148). -/
def agentCode : Agent → Nat
  | .ctl => 0
  | .ld => 1
  | .mx => 2
  | .st => 3
  | .copyEngine => 4
  | .multicast => 5

/-- The agent of a stream. -/
def agentOf : Stream → Agent
  | .ctl => .ctl
  | .ld => .ld
  | .mx => .mx
  | .st => .st

/-- A touch of a kerf at an SCR offset (R148): the first is held for report, further ones set ESTAT.MORE. -/
def State.kerfTouch (s : State) (c off : Nat) (ag : Agent) : State :=
  s.modCr c fun r =>
    if r.errors.any fun e => e.cause == .kerf then { r with estat := r.estat ||| 0x40 }
    else r.hold { cause := .kerf, now := false,
                  info := BitVec.ofNat 64 (off % 2 ^ 32 + off / 64 % 32 * 2 ^ 32 + agentCode ag * 2 ^ 40) }

/-- The state after an access to a range of SCR is checked against the kerfs (R148). -/
def State.kerfCheck (s : State) (c off n : Nat) (ag : Agent) : State :=
  match (s.ctx c).kerfIn off n with
  | some o => s.kerfTouch c o ag
  | none => s

/-- Whether one of the 8-byte words of cluster SRAM that hold n bytes from a key is uncorrectable (R351). -/
def State.clusterBad (s : State) (key n : Nat) : Bool := s.clusBad.any fun e => e.2 && decide (8 * e.1 < key + n ∧ key < 8 * e.1 + 8)

/-- The uncorrectable 8-byte words of a core's pool among those that `hit` names. -/
def Core.badWords (k : Core) (hit : Nat → Bool) : List Nat := (k.poolBad.filter fun e => e.2 && hit e.1).map (·.1)

/-- The word of a pool that holds some of the n bytes from a pool byte. -/
def inPool (a n w : Nat) : Bool := decide (8 * w < a + n ∧ a < 8 * w + 8)

/-- A read of the pool by LD, MX or ST (R347): each uncorrectable word that it meets is held for report with the word's SCR offset and the
agent. (DEDUCED, log entry 35.) -/
def State.poolRead (s : State) (c : Nat) (hit : Nat → Bool) (ag : Agent) : State :=
  ((s.core c).badWords hit).foldl (fun s w => s.modCr c fun r =>
    r.hold { cause := .uncorr, now := false,
             info := BitVec.ofNat 64 ((BitVec.ofInt 32 ((8 * w : Nat) - ((s.core c).liveSl.scrStart : Int))).toNat + agentCode ag * 2 ^ 40) }) s

/-- A read of n bytes of SCR by LD, MX or ST: the kerfs and the check bits (R148, R347). -/
def State.scrRead (s : State) (c off n : Nat) (ag : Agent) : State :=
  (s.kerfCheck c off n ag).poolRead c (inPool ((s.core c).liveSl.scrStart + off) n) ag

/-- The pool byte at which a TILE row of a core's live slice begins. -/
def State.rowAt (s : State) (c r : Nat) : Nat := 1024 * (s.core c).liveSl.tileLine r

/-- A read of whole rows of the pool, each from its first pool byte (R347). -/
def State.rowsRead (s : State) (c : Nat) (rows : List Nat) (ag : Agent) : State :=
  s.poolRead c (fun w => rows.any fun a => inPool a 1024 w) ag

/-! ### Returning from an exception (R118) -/

/-- CTL at EPC with its block state, and any wait abandoned on entry going on with what remained (R116, R118). (DEDUCED, log entry 19.) -/
def Seq.returnTo (q : Seq) (epc : BitVec 40) (save : Option BlockSave) : Seq :=
  let pc := epc.extractLsb' 0 16
  let hdr := epc.extractLsb' 16 16
  let left := (epc.extractLsb' 32 8).toNat
  let word := (q.half (hdr.toNat + 1)) ++ (q.half hdr.toNat)
  match save with
  | some b =>
    { q with
      pc := pc, hdr := hdr, hword := b.hword, inBody := b.inBody, reps := b.reps
      rep := b.rep, wait := b.wait, waitRem := b.waitRem, stalled := b.stalled, fetched := 0 }
  | none =>
    { q with
      pc := pc, hdr := hdr, hword := word, inBody := pc != hdr, reps := left + 1, rep := 0, wait := .none, waitRem := 0
      stalled := none, fetched := 0 }

/-- A sequencer moved past the unit at its head, which counts as retired (R118). (DEDUCED, log entry 109.) -/
def Seq.stepPast (q : Seq) (len : Nat) : Seq := if q.inBody then q.goOn len false else { q with pc := q.pc + 2 }

/-- The trapping unit counted as retired: its stream moves past it, if it still stands there, and a unit of MX ends as when it issues (R42,
R55, R118). (DEDUCED, log entry 44.) (DEDUCED, log entry 109.) -/
def Ctx.skipTrapping (x : Ctx) (len : Stream → Seq → Nat) : Option (Stream × Half) → Ctx
  | none => x
  | some p =>
    let q := x.seq p.1
    if q.pc ≠ p.2 then x
    else
      let q1 := q.stepPast (len p.1 q)
      let x1 := x.modSeq p.1 fun _ => q1
      if p.1 = .mx then x1.mxGone q q1 else x1

/-- The return from an exception (R118): CTL at EPC, the privilege of PPRIV, ESTAT.INH 0, and the trapping stream past its unit when
SKIP is 1; `len` answers the halfwords of the unit at a sequencer's head. (DESIGN CHOICE, log entry 115.) -/
def Ctx.leave (x : Ctx) (len : Stream → Seq → Nat) : Ctx :=
  let r := x.cr
  let x1 := { x with
    cr := { r with
      estat := r.estat &&& 0x77, priv := if r.estat.extractLsb' 4 2 = 0 then .user else .guest
      epcSave := none, trapAt := none }
    ctl := x.ctl.returnTo r.epc r.epcSave }
  if r.skip then x1.skipTrapping len r.trapAt else x1

/-! ### A unit, settled -/

/-- A wait begins, or goes on: the unit stays the head (R39). -/
def State.parkHead (s : State) (i : Instr) (kind : WaitKind) (rem : Nat) (on : List Nat) : State :=
  s.modSeq s.unit.core s.unit.sq fun q =>
    { q with wait := kind, waitRem := rem, stalled := some i, loss := .flag, waitsOn := on }

/-- How many of the 16 side effects a buffered effect counts for (R63, R101). -/
def Buffered.weight : Buffered → Nat
  | .token m => ofBool (m.getLsbD 0) + ofBool (m.getLsbD 1) + ofBool (m.getLsbD 2)
  | .cut _ n => ofBool (n.getLsbD 0) + ofBool (n.getLsbD 1) + ofBool (n.getLsbD 2)
  | _ => 1

/-- Whether CTL's atomic block, with the token pushes of the current unit, buffers more than 16 side effects (R63). -/
def CtlRegs.overfull (r : CtlRegs) (sm : Stream) (pushM : BitVec 3) : Bool :=
  match r.atomic with
  | some a => sm == .ctl && 16 < (Buffered.token pushM :: a.effects).foldl (fun n e => n + e.weight) 0
  | none => false

/-- The state in which CTL's atomic block buffers one more effect. -/
def State.buffer (s : State) (e : Buffered) : State :=
  s.modCr s.unit.core fun r => { r with atomic := r.atomic.map fun a => { a with effects := a.effects ++ [e] } }

/-- Whether the current unit runs inside an atomic block. -/
def State.inAtomic (s : State) : Bool := s.unit.sq == .ctl && s.my.cr.atomic.isSome

/-- Whether an instruction is `segchk`, which supplies nothing to SEGCRC (R186). -/
def isSegchk : Instr → Bool
  | .segchk _ => true
  | _ => false

/-- A state in which the token pops of the current unit, and the bytes it has supplied to SEGCRC, are undone: `s0` is what the unit found. -/
def State.unpopped (s s0 : State) (i : Instr) : State :=
  s.modCtx s0.unit.core fun x => { x with
    links := s0.my.links
    mat := if isSegchk i then x.mat else { x.mat with segCrc := s0.my.mat.segCrc, opBytes := s0.my.mat.opBytes } }

/-- The end of a body settled: `s0` is the state the unit found, which a stall or a trap leaves as it was. -/
def settle (i : Instr) (s0 : State) : Res → State
  | .done s lat =>
    if s.my.cr.overfull s.unit.sq s.unit.pushM then s0.takeTrap s0.unit.core s0.unit.sq .illegal 0 false else s.finish lat none
  | .pops s lat ring => s.finish lat (some ring)
  | .goto s target => s.transfer target
  | .stall loss on => s0.holdHead i loss on
  | .linger s loss on => (s.unpopped s0 i).holdHead i loss on
  | .park s kind rem on => s.parkHead i kind rem on
  | .trap c info => s0.takeTrap s0.unit.core s0.unit.sq c info false
  | .trapIn s c info => (s0.boundBy s).takeTrap s0.unit.core s0.unit.sq c info false
  | .trapKeep s c info => (s.unpopped s0 i).takeTrap s0.unit.core s0.unit.sq c info false
  | .soft c info => s0.takeTrap s0.unit.core s0.unit.sq c info true
  | .later => { s0.holdHead i .engine [] with late := s0.late ++ [s0.unit.core] }
  | .over s => s

/-- Whether some core of a domain has all of the profiles (R17): each domain holds dies of both kinds (R8). (DEDUCED, log entry 50.) -/
def domainCovers (need : BitVec 5) : Bool := need &&& ~~~0b00111 == 0 || need &&& ~~~0b11001 == 0

/-- Whether an instruction is `mark`, which takes no prefix (R105). (DEDUCED, log entry 105.) -/
def isMark : Instr → Bool
  | .mark .. => true
  | _ => false

/-- What R80 decides before the instruction's own faults: its fields, its stream, its operand indices and queue directions, what an
atomic block may hold (R63), and, with the guard true, its profile and then whether it has a type (R58). -/
inductive Fate where
  | own | illegal | illegalStream | atomicIllegal | migrate (need : BitVec 5)
  deriving DecidableEq, Repr

/-- The fate of a unit of a sequencer of a core (R48, R58, R63, R80). (DEDUCED, log entry 11.) (DEDUCED, log entry 105.)
(DEDUCED, log entry 113.) -/
def fateOf (i : Instr) (c : Nat) (sm : Stream) (guard atomic : Bool) (ty : Nat) (hasTyp hasPre hasPop : Bool) : Fate :=
  let need := profMask (i.required ty)
  if hasTyp ∧ ¬ i.takesType then .illegal
  else if hasPre ∧ isMark i then .illegal
  else if ¬ i.fieldsOk then .illegal
  else if ¬ i.streamOk sm then .illegalStream
  else if ¬ i.operandsOk sm then .illegal
  else if atomic ∧ (¬ i.atomicOk ∨ hasPop) then .atomicIllegal
  else if ¬ guard then .own
  else if need &&& ~~~(profBits c) = 0 then (if i.takesType ∧ ty = 0 then .illegal else .own)
  else if domainCovers need then .migrate need
  else .illegal

/-- SR's value, for an instruction that reads SR (R186). -/
def State.srValue (s : State) : Instr → Option Word
  | .sload _ r | .oload _ r | .mma _ _ r | .mmaSpec _ _ r | .xfFwd _ _ r | .domScl _ _ r => some (s.here.reg r.toNat)
  | _ => none

/-- The bytes a unit of MX supplies to SEGCRC (R186). -/
def State.segBytes (s : State) (i : Instr) : List Byte :=
  match i with
  | .segchk _ => []
  | _ => s.here.unitBytes s.unit.len ++ (match s.srValue i with | some v => leBytes 8 v.toNat | none => [])

/-- Whether an instruction is an array operation. -/
def isArrayOp : Instr → Bool
  | .mma .. | .mmaSpec .. | .mzero _ => true
  | _ => false

/-- The state in which a unit of MX has supplied its bytes to SEGCRC; those of an array operation are noted for its replay (R188). -/
def State.segFeed (s : State) (i : Instr) : State :=
  if s.unit.sq = .mx then
    let bs := s.segBytes i
    s.modMat s.unit.core fun m => { m with
      segCrc := crcBytes m.segCrc bs
      opBytes := if isArrayOp i then some { at_ := s.here.pc, len := s.unit.len, bytes := bs, since := 0 }
        else m.opBytes.map fun o => { o with since := o.since + bs.length } }
  else s

/-- The token queues the current unit pops. -/
def State.unitPops (s : State) : List Nat := popIxs s.unit.sq s.unit.popM

/-- The state after the current unit's token pops. -/
def State.popUnit (s : State) : State := s.modLinks s.unit.core fun l => l.popTokens s.unitPops

/-- A UNIT, SETTLED (R48, R62, R80): the fates of R80 in their order; a unit guarded false issues and does nothing; the token pops
wait together (R48); then the instruction's own body. Errors held for a report point are delivered first (R347). (DEDUCED, log entry 11.) -/
def issue (i : Instr) (body : State → Res) (s : State) : Out State :=
  let u := s.unit
  let x := s.my
  match fateOf i u.core u.sq u.guard (u.sq == .ctl && x.cr.atomic.isSome) u.ty u.hasTyp u.hasPre (u.popM != 0) with
  | .illegal => .next (s.takeTrap u.core u.sq .illegal 0 false)
  | .illegalStream => .next (s.takeTrap u.core u.sq .illegalStream 0 false)
  | .atomicIllegal => .next (s.takeTrap u.core u.sq .illegal 0 false)
  | .migrate need =>
    if x.mat.xops ≠ [] ∨ (s.core u.core).freeShadow = none then .next (s.holdHead i .engine [])
    else .next (((s.headHeld u.core u.sq).traceTrap u.core u.sq .migrate 0).migrate u.core need)
  | .own =>
    if ¬ u.guard then .next ({ s with unit := { u with pushM := 0 } }.finish 0 none)
    else if i.reports ∧ x.cr.errors ≠ [] then .next (s.deliver u.core false)
    else if ¬ x.links.canPop s.unitPops then
      .next (s.holdHead i .flag ((s.unitPops.filter fun k => !x.links.canPop [k]).map (96 + ·)))
    else .next (settle i s (body ((s.popUnit).segFeed i)))

end Sys2Proof.Machine
end

