-- ==== Sys2Proof/Machine/Memops.lean ====
section
/-! DEFINITION. Scalar loads, stores and atomics of CTL, fences and the time read (R92 to R95, R112, R113, R252 to R263). -/
namespace Sys2Proof.Machine

/-- EINFO of UNCORR at a scalar access: the address in [55:0] (R93). -/
def uncorrInfo (a : Word) : Word := BitVec.ofNat 64 (bits a.toNat 55 0)

/-- The bytes at a place as CTL's atomic block sees them: its own buffered stores over memory (R63). -/
def overlay (l : Loc) (bs : List Byte) : List Buffered → List Byte
  | [] => bs
  | .store m b :: es =>
    let at_ := fun (l : Loc) => match l with | .scr o => (0, o) | .clus k => (1, k) | .phys p => (2, p)
    let bs1 := (List.range bs.length).map fun i =>
      if (at_ m).1 = (at_ l).1 ∧ (at_ m).2 ≤ (at_ l).2 + i ∧ (at_ l).2 + i < (at_ m).2 + b.length then
        (b[(at_ l).2 + i - (at_ m).2]?).getD 0
      else (bs[i]?).getD 0
    overlay l bs1 es
  | _ :: es => overlay l bs es

/-- Bytes of a place with those on a kerf read as 0, whatever a block has buffered for them (R93, R148). -/
def Ctx.withoutKerf (x : Ctx) (l : Loc) (bs : List Byte) : List Byte :=
  match l with
  | .scr o => bs.zipIdx.map fun p => if x.onKerf (o + p.2) then 0 else p.1
  | _ => bs

/-- The value a replaying core takes for an event of a kind: none when it does not replay, `some none` while it must wait (R389). -/
def State.replayed (s : State) (c kind : Nat) : Option (Option Word) :=
  let w := (s.core c).watch
  if w.rplLive ≠ 2 then none
  else
    match w.rplHold with
    | some (k :: v :: _) => if k.toNat = kind then some (some v) else some none
    | _ => some none

/-- The injected entry of a replay used up. -/
def State.useReplay (s : State) (c : Nat) : State := s.modCore c fun k => { k with watch := { k.watch with rplHold := none } }

/-- Whether a place is of the pool class, whose loads are not events from outside (R388). -/
def isScr : Loc → Bool
  | .scr _ => true
  | _ => false

/-- Whether a place stands still: a cluster page being laid out again, or a home whose writes a read must wait for (R141, R258). -/
def State.waitsAt (s : State) (c : Nat) (l : Loc) : Bool :=
  match l with
  | .scr _ => false
  | .clus k => (s.page k).locked
  | .phys pa => !s.served c (homeOf pa)

/-- Whether an access of n bytes at a place of core c meets an uncorrectable line or word (R349, R351). (DEDUCED, log entry 35.) -/
def State.uncorrAt (s : State) (c : Nat) (l : Loc) (n : Nat) : Bool :=
  match l with
  | .phys pa => s.badAt pa n
  | .scr o => (s.core c).badWords (inPool ((s.core c).liveSl.scrStart + o) n) != []
  | .clus k => s.clusterBad k n

/-- The effects of an access on its surroundings: a touched kerf, and what the response of a global home carries (R148, R258). -/
def State.touched (s : State) (c : Nat) (l : Loc) (n : Nat) : State :=
  match l with
  | .scr o => s.kerfCheck c o n .ctl
  | .clus _ => s
  | .phys pa => s.note c (homeOf pa)

/-! ### The order of one cycle at a barrier's home (R261) -/

/-- The kinds of operation on a barrier word in the order in which those of one cycle are applied (R261). -/
inductive BarKind where
  | init | store | expect | arrive | completion
  deriving DecidableEq, Repr

/-- The place of an operation among those of one cycle: by kind, then by the core that issues it (R261). -/
def barPlace (kind : BarKind) (c : Nat) : Nat :=
  256 * (match kind with | .init => 0 | .store => 1 | .expect => 2 | .arrive => 3 | .completion => 4) + c

/-- The 16-byte word that a place lies in, as a key. -/
def barKey (c : Nat) (l : Loc) : Nat := locKey c l / 16 * 16

/-- Whether an operation may reach its home on this cycle: none that must follow it has been applied there on the cycle. One that may not
reaches it on a later cycle. (DESIGN CHOICE, log entry 8.) -/
def State.mayReach (s : State) (c : Nat) (l : Loc) (kind : BarKind) : Bool := get 0 s.barTurn (barKey c l) ≤ barPlace kind c

/-- The state in which an operation has reached its home on this cycle. -/
def State.reach (s : State) (c : Nat) (l : Loc) (kind : BarKind) : State :=
  { s with barTurn := put 0 s.barTurn (barKey c l) (barPlace kind c) }

/-- Whether a store of core c is applied at its home in the step that makes it, at a home that other agents reach. -/
def storesNow (c : Nat) : Loc → Bool
  | .scr _ => false
  | .clus _ => true
  | .phys pa => homeOf pa == Config.dieOf c

/-- A SCALAR LOAD of n bytes (R93). -/
def loadBody (d a : BitVec 5) (off : Word) (n : Nat) (s : State) : Res :=
  let c := s.unit.core
  let addr := s.r a + off
  if addr.toNat % n ≠ 0 then .trap .align addr
  else
    match s.resolve c addr n true false with
    | .fault t e i => .trapIn t e i
    | .stall => .stall .engine []
    | .at s1 l =>
      match (if isScr l then none else s1.replayed c 4) with
      | some none => .stall .engine []
      | some (some v) => .done ((s1.useReplay c).setR d v) 0
      | none =>
        if s1.waitsAt c l then .stall .engine []
        else if s1.uncorrAt c l n then .trapIn s1 .uncorr (uncorrInfo addr)
        else
          let own := match s1.my.cr.atomic with | some x => x.effects | none => []
          let v := BitVec.ofNat 64 (leNat (s1.my.withoutKerf l (overlay l (s1.bytesAt c l n) own)))
          let s2 := (s1.touched c l n).setR d v
          .done (if isScr l then s2 else s2.logEvent c 4 0 v.toNat) 0

/-- A SCALAR STORE of the low n bytes of D (R93); inside an atomic block it is buffered (R63). -/
def storeBody (d a : BitVec 5) (off : Word) (n : Nat) (s : State) : Res :=
  let c := s.unit.core
  let addr := s.r a + off
  if addr.toNat % n ≠ 0 then .trap .align addr
  else
    match s.resolve c addr n false true with
    | .fault t e i => .trapIn t e i
    | .stall => .stall .engine []
    | .at s1 l =>
      let bs := leBytes n (s.r d).toNat
      if s1.inAtomic then .done (s1.buffer (.store l bs)) 0
      else if storesNow c l ∧ ¬ s1.mayReach c l .store then .stall .engine []
      else
        let a := s1.storeAt c l bs
        let b := if storesNow c l then a.1.reach c l .store else a.1
        if a.2 then .done (match l with | .scr o => b.kerfCheck c o n .ctl | _ => b) 0
        else .linger a.1 .engine []

/-- LD_B (R93). -/
def execLdB (d a : BitVec 5) (o : BitVec 13) (s : State) : Out State := issue (.ldB d a o) (loadBody d a (sext o) 1) s

/-- LD_H (R93). -/
def execLdH (d a : BitVec 5) (o : BitVec 13) (s : State) : Out State := issue (.ldH d a o) (loadBody d a (sext o) 2) s

/-- LD_W (R93). -/
def execLdW (d a : BitVec 5) (o : BitVec 13) (s : State) : Out State := issue (.ldW d a o) (loadBody d a (sext o) 4) s

/-- LD_D (R93). -/
def execLdD (d a : BitVec 5) (o : BitVec 13) (s : State) : Out State := issue (.ldD d a o) (loadBody d a (sext o) 8) s

/-- ST_B (R93). -/
def execStB (d a : BitVec 5) (o : BitVec 13) (s : State) : Out State := issue (.stB d a o) (storeBody d a (sext o) 1) s

/-- ST_H (R93). -/
def execStH (d a : BitVec 5) (o : BitVec 13) (s : State) : Out State := issue (.stH d a o) (storeBody d a (sext o) 2) s

/-- ST_W (R93). -/
def execStW (d a : BitVec 5) (o : BitVec 13) (s : State) : Out State := issue (.stW d a o) (storeBody d a (sext o) 4) s

/-- ST_D (R93). -/
def execStD (d a : BitVec 5) (o : BitVec 13) (s : State) : Out State := issue (.stD d a o) (storeBody d a (sext o) 8) s

/-! ### Atomics (R95) -/

/-- A core notes a vector that a word, a flag or an entry carries (R258, R262). -/
def State.noteKv (s : State) (c : Nat) (kv : Table Nat) : State := s.modCore c fun k => { k with seen := merged k.seen kv }

/-- A STAMP record for each entry of a core's vector that a merge, from `s` to `t`, has changed (R371). -/
def State.traceMerge (s t : State) (c : Nat) : State :=
  (List.range 9).foldl (fun a j => if s.kv c j < t.kv c j then a.traceStamp c j (t.kv c j) else a) t

/-- An acquire of CTL that has received a TIME value and stamps (R258, R262, R263): they and what was noted join KV, and CTL waits until
its region's TIME has reached the value. Each changed entry is a STAMP record. (DEDUCED, log entry 23.) (DEDUCED, log entry 98.) -/
def State.acquire (s : State) (c time : Nat) (kv : Table Nat) : State :=
  let s1 := ((s.note c (Config.dieOf c)).noteKv c kv).merge c
  (s.traceMerge s1 c).modCr c fun r => { r with acquireUntil := if s.timeOf (Config.quadOf c) < time then Nat.max r.acquireUntil time else r.acquireUntil }

/-- The acquire of an observation of a flag (R260, R262, R263). -/
def State.acquireFlag (s : State) (c f : Nat) : State :=
  s.acquire c (get 0 (s.ctx c).links.flagTime f) (get [] (s.ctx c).links.flagKv f)

/-- A release of CTL at a place (R259, R263): its TIME and the core's vector are kept for the acquires that read it; at `.pkg` or `.pod`
it is a STAMP. (DEDUCED, log entry 98.) -/
def State.release (s : State) (c : Nat) (l : Loc) (scope : Nat) : State :=
  let s1 := { s with
    relTime := put 0 s.relTime (locKey c l) (s.timeOf (locRegion c l))
    relKv := update [] s.relKv (locKey c l) fun t => merged t (s.core c).kv }
  if 3 ≤ scope then s1.traceStamp c (Config.dieOf c) (s1.kv c (Config.dieOf c)) else s1

/-- Whether an atomic may be performed at its home now: every write of its die bound there has been applied (R95, R258). -/
def State.homeReady (s : State) (c : Nat) (l : Loc) : Bool :=
  match l with
  | .scr _ => true
  | .clus k => !(s.page k).locked
  | .phys pa => s.homeServed c pa

/-- The write of an atomic at its home, in the step that reads it (R95): a home on another die counts it (R258). -/
def State.atomicWrite (s : State) (c : Nat) (l : Loc) (bs : List Byte) : State × Bool :=
  match l with
  | .phys pa => (s.writeNow c pa bs, true)
  | _ => s.storeAt c l bs

/-- Whether every earlier access of CTL is performed at a fence's scope (R112, R255): a write that has been sent is performed with respect
to no agent until its home has applied it, whatever the scope. -/
def State.fenceReady (s : State) (c : Nat) : Bool := !(s.sent.any fun w => w.core == c && w.die == Config.dieOf c && !w.engine)

/-- Whether a release of CTL may be performed at a scope now (R95, R260): below `.pkg` it waits for what CTL has sent to other dies, and at
`.pkg` and `.pod` its number stands for that (R259). -/
def State.mayRelease (s : State) (c scope : Nat) : Bool := decide (3 ≤ scope) || s.fenceReady c

/-- AN ATOMIC (R95): the doubleword at A is replaced by a function of its old value, which D receives, in one indivisible step. In a replay
the old value is the one logged, and only the pool is accessed (R389). -/
def amoBody (d a b : BitVec 5) (scope : Nat) (f : Word → Word → Word → Word) (s : State) : Res :=
  let c := s.unit.core
  let addr := s.r a
  if addr.toNat % 8 ≠ 0 then .trap .align addr
  else
    match s.resolve c addr 8 true true with
    | .fault t e i => .trapIn t e i
    | .stall => .stall .engine []
    | .at s1 l =>
      match s1.replayed c 5 with
      | some none => .stall .engine []
      | some (some v) =>
        let s2 := if isScr l then (s1.atomicWrite c l (leBytes 8 (f v (s.r b) (s.r d)).toNat)).1.touched c l 8 else s1
        .done ((s2.useReplay c).setR d v) 0
      | none =>
        if ¬ s1.homeReady c l ∨ ¬ s1.mayRelease c scope then .stall .engine []
        else if s1.uncorrAt c l 8 then .trapIn s1 .uncorr (uncorrInfo addr)
        else
          let old := BitVec.ofNat 64 (leNat (s1.bytesAt c l 8))
          let time := get 0 s1.relTime (locKey c l)
          let w := s1.atomicWrite c l (leBytes 8 (f old (s.r b) (s.r d)).toNat)
          if ¬ w.2 then .linger w.1 .engine []
          else
            let s2 := ((w.1.touched c l 8).acquire c time (get [] s1.relKv (locKey c l))).release c l scope
            .done ((s2.setR d old).logEvent c 5 0 old.toNat) 0

/-- AMO_ADD (R95). -/
def execAmoAdd (d a b : BitVec 5) (sc : BitVec 3) (s : State) : Out State :=
  issue (.amoAdd d a b sc) (amoBody d a b sc.toNat fun old x _ => old + x) s

/-- AMO_SWAP (R95). -/
def execAmoSwap (d a b : BitVec 5) (sc : BitVec 3) (s : State) : Out State :=
  issue (.amoSwap d a b sc) (amoBody d a b sc.toNat fun _ x _ => x) s

/-- AMO_CAS (R95): B is stored when the old value equals D. -/
def execAmoCas (d a b : BitVec 5) (sc : BitVec 3) (s : State) : Out State :=
  issue (.amoCas d a b sc) (amoBody d a b sc.toNat fun old x y => if old = y then x else old) s

/-- AMO_MIN, signed (R95). -/
def execAmoMin (d a b : BitVec 5) (sc : BitVec 3) (s : State) : Out State :=
  issue (.amoMin d a b sc) (amoBody d a b sc.toNat fun old x _ => if old.slt x then old else x) s

/-- AMO_MAX, signed (R95). -/
def execAmoMax (d a b : BitVec 5) (sc : BitVec 3) (s : State) : Out State :=
  issue (.amoMax d a b sc) (amoBody d a b sc.toNat fun old x _ => if old.slt x then x else old) s

/-- AMO_AND (R95). -/
def execAmoAnd (d a b : BitVec 5) (sc : BitVec 3) (s : State) : Out State :=
  issue (.amoAnd d a b sc) (amoBody d a b sc.toNat fun old x _ => old &&& x) s

/-- AMO_OR (R95). -/
def execAmoOr (d a b : BitVec 5) (sc : BitVec 3) (s : State) : Out State :=
  issue (.amoOr d a b sc) (amoBody d a b sc.toNat fun old x _ => old ||| x) s

/-! ### Fences and time -/

/-- FENCE (R112, R258): every earlier access is performed at the scope, and what earlier reads carried joins KV. -/
def fenceBody (scope : Nat) (s : State) : Res :=
  let c := s.unit.core
  if ¬ s.fenceReady c then .stall .engine []
  else
    let s1 := s.acquire c 0 []
    .done (if 3 ≤ scope then s1.traceStamp c (Config.dieOf c) (s1.kv c (Config.dieOf c)) else s1) 0

/-- FENCE (R112). -/
def execFence (sc : BitVec 3) (s : State) : Out State := issue (.fence sc) (fenceBody sc.toNat) s

/-- TIME (R113): D receives TIME of the core's clock region. -/
def timeBody (d : BitVec 5) (s : State) : Res :=
  let c := s.unit.core
  match s.replayed c 7 with
  | some none => .stall .engine []
  | some (some v) => .done ((s.useReplay c).setR d v) 0
  | none =>
    let t := BitVec.ofNat 64 (s.timeOf (Config.quadOf c))
    .done ((s.setR d t).logEvent c 7 0 t.toNat) 0

/-- TIME (R113). -/
def execTime (d : BitVec 5) (s : State) : Out State := issue (.time d) (timeBody d) s

end Sys2Proof.Machine
end

