-- ==== Sys2Proof/Machine/Block.lean ====
section
/-! DEFINITION. Fetching and framing: the unit at a program counter (R47, R48), entering a block (R54, R55), its header wait (R57),
the end of an atomic block (R63), and CUT search and meeting (R102 to R104). -/
namespace Sys2Proof.Machine

/-- A unit as framed: its instruction, its length and the offset of the instruction's word in halfwords, its guard, its type code
and its token masks. -/
structure Framed where
  instr : Instr
  len : Nat
  word : Nat
  pred : Nat
  neg : Bool
  tcode : Nat
  hasTyp : Bool
  popM : BitVec 3
  pushM : BitVec 3
  deriving DecidableEq, Repr

/-- A unit with no prefix read yet. -/
def Framed.start : Framed :=
  { instr := .unassignedEncoding, len := 0, word := 0, pred := 0, neg := false, tcode := 0, hasTyp := false, popM := 0, pushM := 0 }

/-- The instruction of a decoder's answer: the wall and every unassigned encoding have a step of their own (R47, R81). -/
def instrOf : Except Reject (Instr × Nat) → Instr
  | .ok (i, _) => i
  | .error _ => .unassignedEncoding

/-- The stage of a prefix halfword in the order of R48: 1 GRD, 2 TYP, 3 TOK; 0 is no prefix. -/
def prefixStage (h : Half) : Nat :=
  if h.getLsbD 0 then 0
  else
    let maj := (h.extractLsb' 1 5).toNat
    if maj = 31 then 1 else if maj = 29 then 2 else if maj = 30 then 3 else 0

/-- Whether a prefix halfword's own fields are legal (R48). -/
def prefixOk (h : Half) : Bool :=
  let st := prefixStage h
  if st = 1 then (h.extractLsb' 6 5).toNat ≤ 23 && h.extractLsb' 12 4 == 0
  else if st = 2 then h.extractLsb' 6 4 != 0 && h.extractLsb' 10 6 == 0
  else h.extractLsb' 12 4 == 0

/-- A framed unit with a prefix taken in. -/
def Framed.take (f : Framed) (h : Half) : Framed :=
  let st := prefixStage h
  if st = 1 then { f with pred := (h.extractLsb' 6 5).toNat, neg := h.getLsbD 11 }
  else if st = 2 then { f with tcode := (h.extractLsb' 6 4).toNat, hasTyp := true }
  else { f with popM := h.extractLsb' 6 3, pushM := h.extractLsb' 9 3 }

/-- The unit framed from a halfword on, with so many halfwords left in its body: FETCH_BOUND before WALL, and WALL before ILLEGAL
(R48, R62). `bad` says that a prefix already makes the unit illegal, `stage` which prefix came last. (DEDUCED, log entry 104.) -/
def Seq.frameFrom (q : Seq) (bound : Nat) : Nat → Nat → Nat → Bool → Framed → Except Cause Framed
  | 0, _, _, _, f => .ok { f with instr := .unassignedEncoding }
  | n + 1, pos, stage, bad, f =>
    if bound ≤ pos then .error .fetchBound
    else
      let h := q.code pos
      if h = 0xFFFF then .ok { f with instr := .wall, len := f.len + 1, word := f.len }
      else if prefixStage h ≠ 0 then
        q.frameFrom bound n (pos + 1) (prefixStage h) (bad || prefixStage h ≤ stage || !prefixOk h || n == 0)
          { f.take h with len := f.len + 1 }
      else if h.getLsbD 0 then
        if n = 0 then .ok { f with instr := .unassignedEncoding, len := f.len + 1, word := f.len }
        else if bound ≤ pos + 1 then .error .fetchBound
        else .ok { f with instr := if bad then .unassignedEncoding else instrOf (decodeHalves h (some (q.code (pos + 1)))),
                          len := f.len + 2, word := f.len }
      else .ok { f with instr := if bad then .unassignedEncoding else instrOf (decodeHalves h none), len := f.len + 1, word := f.len }

/-- The unit at a halfword of the current block. -/
def Seq.frameAt (q : Seq) (sm : Stream) (pos : Nat) : Except Cause Framed :=
  q.frameFrom (q.bound sm) (q.bodyEnd - pos) pos 0 false .start

/-- The unit at a sequencer's program counter. -/
def Seq.frame (q : Seq) (sm : Stream) : Except Cause Framed := q.frameAt sm q.pc.toNat

/-- The halfwords of the unit at a sequencer's head, at least 1. -/
def Seq.unitLen (q : Seq) (sm : Stream) : Nat :=
  match q.frame sm with
  | .ok f => Nat.max 1 f.len
  | .error _ => 1

/-- The type of a unit (R58): its TYP prefix's, else the header's ETYPE; CTL has none. -/
def Seq.unitType (q : Seq) (sm : Stream) (tcode : Nat) : Nat :=
  if tcode ≠ 0 then tcode else if sm = .ctl then 0 else (q.hword.extractLsb' 22 4).toNat

/-- The guard of a unit (R48). -/
def Seq.guardOf (q : Seq) (f : Framed) : Bool := q.pred f.pred != f.neg

/-- The issue unit of a framed unit. -/
def Seq.issueUnit (q : Seq) (c : Nat) (sm : Stream) (f : Framed) : IssueUnit :=
  { core := c, sq := sm, guard := q.guardOf f, ty := q.unitType sm f.tcode, popM := f.popM, pushM := f.pushM, addr := q.pc,
    word := q.pc + BitVec.ofNat 16 f.word, len := f.len, hasTyp := f.hasTyp, hasPre := f.word != 0, pred := f.pred
    need := if q.guardOf f then profMask (f.instr.required (q.unitType sm f.tcode)) else 0, stay := false, late := false }

/-! ### Block entry -/

/-- The header word at a halfword (R54). -/
def Seq.headerAt (q : Seq) (h : Nat) : BitVec 32 := q.half (h + 1) ++ q.half h

/-- Whether a header's fields are legal in a stream (R54, R63). -/
def headerOk (sm : Stream) (w : BitVec 32) : Bool :=
  let len := w.extractLsb' 0 10
  let rep := w.extractLsb' 10 8
  let rot := w.getLsbD 18
  let stg := (w.extractLsb' 26 3).toNat
  let seg := w.getLsbD 29
  let kind := w.extractLsb' 30 2
  if sm = .ctl then
    len != 0 && rep != 255 && (!rot || (w.extractLsb' 19 7 == 0 && stg < 6)) && !seg
      && (kind == 0 || (kind == 1 && rep == 1 && !rot))
  else
    len != 0 && (if rot then stg < 6 else stg == 0) && (!seg || sm == .mx) && kind == 0

/-- The checks of a header that R55 makes before anything else: FETCH_BOUND, WALL, ILLEGAL. -/
def Seq.headerFault (q : Seq) (sm : Stream) (h : Nat) : Option Cause :=
  let w := q.headerAt h
  let len := (w.extractLsb' 0 10).toNat
  if q.bound sm ≤ h + 1 ∨ q.bound sm ≤ h + 1 + len then some .fetchBound
  else if w.extractLsb' 30 2 = 3 ∨ w = 0xFFFFFFFF then some .wall
  else if ¬ headerOk sm w then some .illegal
  else none

/-- Whether the last unit of a body is an unguarded exit (R63); fuel bounds the units walked over. (DEDUCED, log entry 103.) -/
def Seq.endsInExit (q : Seq) : Nat → Nat → Bool
  | 0, _ => false
  | n + 1, pos =>
    match q.frameAt .ctl pos with
    | .error _ => false
    | .ok f =>
      if q.bodyEnd ≤ pos + f.len then
        (match f.instr with | .exit .. => true | _ => false) && f.pred == 0 && !f.neg
      else q.endsInExit n (pos + Nat.max 1 f.len)

/-- A sequencer inside the block of a header, at the start of its first repetition (R55); a body of at most 128 halfwords is to be captured
into the loop buffer (R60). (DEDUCED, log entry 19.) -/
def Seq.enterBlock (q : Seq) (h : Nat) (n : Nat) : Seq :=
  let w := q.headerAt h
  let q := { q with
    pc := BitVec.ofNat 16 (h + 2), hdr := BitVec.ofNat 16 h, hword := w, inBody := true, rep := 0, reps := n, wait := .none
    waitRem := 0, stalled := none, blki := q.blki + 1, fetched := q.fetched - 2
    lb := if (w.extractLsb' 0 10).toNat ≤ 128 then some (BitVec.ofNat 16 h) else none, lbuf := [] }
  if w.getLsbD 18 then q.stage ((w.extractLsb' 26 3).toNat + 1) 0 n else q

/-- A context in which a sequencer enters a block: the window returns to 0 for a staged MX block, and an atomic block begins. -/
def Ctx.enterBlock (x : Ctx) (sm : Stream) (h n : Nat) : Ctx :=
  let w := (x.seq sm).headerAt h
  let x1 := x.modSeq sm fun q => q.enterBlock h n
  let x2 := if sm = .mx ∧ w.getLsbD 18 then { x1 with loc := { x1.loc with turn := 0 } } else x1
  if sm = .ctl ∧ w.extractLsb' 30 2 = 1 then
    { x2 with cr := { x2.cr with atomic := some { regs := x.ctl.regs, preds := x.ctl.preds, effects := [] } } }
  else x2

/-- A sequencer that passes over a block of count 0 (R55): its header counts in BLKI as every header does (R369). (DEDUCED, log entry 13.) -/
def Seq.skipBlock (q : Seq) (h : Nat) : Seq :=
  let len := ((q.headerAt h).extractLsb' 0 10).toNat
  { q with pc := BitVec.ofNat 16 (h + 2 + len), fetched := q.fetched - 2 - len, stalled := none, wait := .none, waitRem := 0
           blki := q.blki + 1 }

/-- The state in which the same sequencer goes on in this cycle (R61). -/
def State.staying (s : State) : State := { s with unit := { s.unit with stay := true } }

/-- BLOCK ENTRY at the header a sequencer stands at (R55). -/
def State.enter (s : State) (c : Nat) (sm : Stream) : State :=
  let q := s.seq c sm
  let h := q.pc.toNat
  let w := q.headerAt h
  if q.inBody then s
  else
    match q.headerFault sm h with
    | some e => s.takeTrap c sm e 0 false
    | none =>
      let atomic := sm = .ctl ∧ w.extractLsb' 30 2 = 1
      if atomic ∧ ¬ (q.enterBlock h 1).endsInExit (w.extractLsb' 0 10).toNat (h + 2) then s.takeTrap c sm .illegal 0 false
      else if w.extractLsb' 10 8 = 255 then
        match ((s.ctx c).links.vqueue (ctlQueue sm)).items with
        | [] => s.modSeq c sm fun q => { q with stalled := some .blockEntry, loss := .flag, waitsOn := [108 + ctlQueue sm] }
        | e :: _ =>
          if e.cut then s
          else
            let n := bits e.val.toNat 31 0
            let s1 := s.modLinks c fun l => l.vpop (ctlQueue sm)
            (if n = 0 then s1.modSeq c sm fun q => q.skipBlock h else s1.modCtx c fun x => x.enterBlock sm h n).staying
      else
        let n := (w.extractLsb' 10 8).toNat
        if n = 0 then (s.modSeq c sm fun q => q.skipBlock h).staying
        else if sm = .ctl ∧ w.getLsbD 19 ∧ ¬ w.getLsbD 18 then
          let f := (w.extractLsb' 20 6).toNat
          if headerMet ((s.ctx c).links.flag f) (w.extractLsb' 26 3) then
            ((s.acquireFlag c f).modCtx c fun x =>
              (x.enterBlock sm h n).modSeq .ctl fun q => q.setP22 false).staying
          else if (s.ctx c).cr.wtmo = 0 then
            (s.modCtx c fun x => (x.enterBlock sm h n).modSeq .ctl fun q => q.setP22 true).staying
          else s.modSeq c sm fun q =>
            { q with wait := .header, waitRem := (s.ctx c).cr.wtmo.toNat, loss := .flag, waitsOn := [32 + f] }
        else (s.modCtx c fun x => x.enterBlock sm h n).staying

/-! ### CUT (R102 to R104) -/

/-- The first CUT word of a consumer's control queue. -/
def Ctx.cutWord (x : Ctx) (sm : Stream) : Option QEntry :=
  if sm = .ctl then none else (x.links.vqueue (ctlQueue sm)).items.find? (·.cut)

/-- The entries behind the first CUT word. -/
def behindCut : List QEntry → List QEntry
  | [] => []
  | e :: es => if e.cut then es else behindCut es

/-- A consumer takes the CUT word (R102): the entries ahead of it and the word itself go, the block is abandoned, and the search
begins at the header that follows the block. -/
def Ctx.takeCut (x : Ctx) (sm : Stream) : Ctx :=
  match x.cutWord sm with
  | none => x
  | some e =>
    let q := x.seq sm
    let pos := if q.inBody then BitVec.ofNat 16 q.bodyEnd else q.pc
    let x1 := { x with links := { x.links with
      vq := update VQueue.empty x.links.vq (ctlQueue sm) fun v =>
        { v with items := behindCut v.items, popped := v.popped + (v.items.length - (behindCut v.items).length) } } }
    let x2 := x1.modSeq sm fun q => { q with
      cut := .search (e.val.extractLsb' 0 10) (e.val.extractLsb' 10 3) pos, pc := pos, inBody := false, wait := .none, waitRem := 0
      part := 0, stalled := none, fetched := 0, loss := .engine, waitsOn := [] }
    if sm = .mx ∧ q.rot ∧ q.inBody then { x2 with loc := { x2.loc with turn := 0 } } else x2

/-- The marker of a halfword that is `mark` (R105). -/
def markOf (h : Half) : Option (BitVec 10) :=
  match decode16 h with
  | .ok (.mark l hi) => some (hi ++ l)
  | _ => none

/-- Whether the block at a header begins with `mark` carrying a marker. -/
def Seq.marked (q : Seq) (h : Nat) (m : BitVec 10) : Bool := markOf (q.half (h + 2)) == some m

/-- A search that has reached the block of its mark waits at the header for the meeting (R103, R104). -/
def Seq.found (q : Seq) : Seq :=
  match q.cut with
  | .search m named pos => { q with cut := .meeting m named pos, pc := pos, loss := .engine, waitsOn := [] }
  | _ => q

/-- A search passes over one block (R103). -/
def Seq.searchOn (q : Seq) : Seq :=
  match q.cut with
  | .search m named pos =>
    { q with cut := .search m named (BitVec.ofNat 16 (pos.toNat + 2 + ((q.headerAt pos.toNat).extractLsb' 0 10).toNat))
             loss := .engine, waitsOn := [] }
  | _ => q

/-- The consumers that a CUT's set names (R101): bit 0 LD, bit 1 MX, bit 2 ST. -/
def namedBy (set : BitVec 3) : List Stream :=
  [(Stream.ld, set.getLsbD 0), (.mx, set.getLsbD 1), (.st, set.getLsbD 2)].filterMap fun p => if p.2 then some p.1 else none

/-- Whether a consumer stands at its mark with everything it issued retired. -/
def Seq.atMeeting (q : Seq) (m : BitVec 10) (named : BitVec 3) : Bool :=
  (match q.cut with | .meeting m' n' _ => m' == m && n' == named | _ => false) && q.flight == []

/-- The CUT for which all named consumers can meet, if there is one (R104). -/
def Ctx.meeting (x : Ctx) : Option (BitVec 10 × BitVec 3) :=
  [Stream.ld, .mx, .st].findSome? fun sm =>
    match (x.seq sm).cut with
    | .meeting m n _ => if (namedBy n).all fun k => (x.seq k).atMeeting m n then some (m, n) else none
    | _ => none

/-- Whether all consumers that some CUT names can meet (R104). -/
def Ctx.canMeet (x : Ctx) : Bool := x.meeting.isSome

/-- The figures of an empty segment (R42, R186). -/
def Matrix.openSeg (m : Matrix) : Matrix :=
  { m with segCyc := 0, segCrc := 0xFFFFFFFF, opBytes := none, segHas := false, segClose := false, segDebug := false }

/-- THE MEETING (R104) of the first CUT that has one: tokens between the named consumers and their row and return queues are cleared, CTL gets one meeting token
from each, and each consumer stands at its mark's header. -/
def Ctx.meet (x : Ctx) : Ctx :=
  match x.meeting with
  | none => x
  | some (_, n) =>
    let named := namedBy n
    let has := fun sm => named.contains sm
    let tok1 := named.foldl (fun t a => named.foldl (fun t b =>
      if a = b then t else put Token.zero t (tokenIx a b) Token.zero) t) x.links.tok
    let tok2 := named.foldl (fun t a => put Token.zero t (tokenIx a .ctl) { count := 1, staged := 0, popped := 0 }) tok1
    let rq1 := if has .ld ∧ has .mx then put RQueue.empty x.links.rq 5 RQueue.empty else x.links.rq
    let rq2 := if has .mx ∧ has .st then put RQueue.empty rq1 6 RQueue.empty else rq1
    let vq1 := if has .st ∧ has .ld then put VQueue.empty x.links.vq 7 VQueue.empty else x.links.vq
    let vq2 := if has .ld then put VQueue.empty vq1 3 VQueue.empty else vq1
    let vq3 := if has .st then put VQueue.empty vq2 4 VQueue.empty else vq2
    let x1 := { x with links := { x.links with tok := tok2, rq := rq2, vq := vq3 } }
    let x2 := named.foldl (fun x sm => x.modSeq sm fun q => { q with cut := .none }) x1
    if has .mx then { x2 with mat := x2.mat.openSeg } else x2

end Sys2Proof.Machine
end

