-- ==== Sys2Proof/Machine/Control.lean ====
section
/-! DEFINITION. Branches, calls and exits (R96 to R98), the commit of an atomic block (R63), containment (R114), system traps and the
return from them (R117, R118), and the steps of block entry (R55). -/
namespace Sys2Proof.Machine

/-- Whether a transfer's target may be fetched (R96): not below 0, nor at or above END - 1. -/
def State.targetOk (s : State) (t : Int) : Bool := 0 ≤ t && t + 1 < (s.here.bound s.unit.sq : Int)

/-- A body that transfers to a target, or traps FETCH_BOUND at the branch (R96). -/
def jumpTo (t : Int) (s : State) : Res := if s.targetOk t then .goto s t.toNat else .trap .fetchBound (BitVec.ofInt 64 t)

/-- The address of the next block's header, which a call writes to s31 (R96). (DEDUCED, log entry 13.) -/
def State.nextHeader (s : State) : Word := BitVec.ofNat 64 (s.here.bodyEnd % 65536)

/-- A register target (R97): bits [63:16] must be 0. (DEDUCED, log entry 108.) -/
def regTarget (v : Word) : Int := if bits v.toNat 63 16 = 0 then (v.toNat : Int) else -1

/-- BR (R96). -/
def execBr (d a : BitVec 5) (i : BitVec 15) (s : State) : Out State := issue (.br d a i) (fun s => jumpTo (s.target d a i) s) s

/-- A call: s31 is written, then the transfer is made; nothing is written when the target traps (R96, R97). -/
def callTo (t : Int) (s : State) : Res :=
  if s.targetOk t then .goto (s.setR 31 s.nextHeader) t.toNat else .trap .fetchBound (BitVec.ofInt 64 t)

/-- CALL (R96). -/
def execCall (d a : BitVec 5) (i : BitVec 15) (s : State) : Out State := issue (.call d a i) (fun s => callTo (s.target d a i) s) s

/-- JR (R97). -/
def execJr (a : BitVec 5) (s : State) : Out State := issue (.jr a) (fun s => jumpTo (regTarget (s.r a)) s) s

/-- CALLR (R97): A is read before s31 is written. -/
def execCallr (a : BitVec 5) (s : State) : Out State := issue (.callr a) (fun s => callTo (regTarget (s.r a)) s) s

/-- RET (R97): jr s31. -/
def execRet (s : State) : Out State := issue .ret (fun s => jumpTo (regTarget (s.r 31)) s) s

/-- EXIT met inside an atomic block: it is noted with its guard and target (R98). -/
def exitBody (s : State) : Res := if s.inAtomic then .done s 0 else .trap .illegal 0

/-- The exits of an atomic block's body in program order, with the guard of each and its target (R98); fuel bounds the units. -/
def Seq.exits (q : Seq) : Nat → Nat → List ExitMet
  | 0, _ => []
  | n + 1, pos =>
    if q.bodyEnd ≤ pos then []
    else
      match q.frameAt .ctl pos with
      | .error _ => []
      | .ok f =>
        let rest := q.exits n (pos + Nat.max 1 f.len)
        match f.instr with
        | .exit d a i => { pred := f.pred, want := !f.neg, target := (pos + f.word : Nat) + codeOffset d a i } :: rest
        | _ => rest

/-- The exit that fires at the end of a body (R98): the first whose guard holds. -/
def Seq.firing (q : Seq) : Option ExitMet :=
  (q.exits (q.len + 1) (q.hdr.toNat + 2)).find? fun e => q.pred e.pred == e.want

/-- EXIT (R98): it has no effect when met; outside an atomic block it traps ILLEGAL. -/
def execExit (d a : BitVec 5) (i : BitVec 15) (s : State) : Out State := issue (.exit d a i) exitBody s

/-! ### Commit of an atomic block -/

/-- The pushes a block buffers into each value queue. -/
def Atomic.pushesTo (a : Atomic) (q : Nat) : Nat :=
  a.effects.foldl (fun n e =>
    match e with
    | .push r _ => if r = q then n + 1 else n
    | .cut _ named => if q < 3 ∧ named.getLsbD q then n + 1 else n
    | _ => n) 0

/-- The pushes a block buffers into each token queue of CTL. -/
def Atomic.tokensTo (a : Atomic) (i : Nat) : Nat :=
  a.effects.foldl (fun n e => match e with | .token m => n + (pushIxs .ctl m).count i | _ => n) 0

/-- The copies a block buffers. -/
def Atomic.copies (a : Atomic) : List Command :=
  a.effects.filterMap fun e => match e with | .copy c => some c | _ => none

/-- Whether a block's commit finds room everywhere (R63): a place for every push it makes. (DEDUCED, log entry 20.) -/
def Ctx.mayCommit (x : Ctx) (a : Atomic) : Bool :=
  ([0, 1, 2].all fun q => x.links.vroom q (a.pushesTo q))
    && ([0, 1, 2].all fun i =>
          let t := x.links.token i
          a.tokensTo i == 0 || t.count + t.staged + t.popped + a.tokensTo i ≤ 15)
    && x.eng.cmds.length + a.copies.length ≤ 32

/-- The queues without room that a commit waits on (R384); none where it waits for the command queue alone (R383). -/
def Ctx.commitWaits (x : Ctx) (a : Atomic) : List Nat :=
  (([0, 1, 2].filter fun i =>
      let t := x.links.token i
      a.tokensTo i != 0 && decide (15 < t.count + t.staged + t.popped + a.tokensTo i)).map (96 + ·))
    ++ ([0, 1, 2].filter fun q => !x.links.vroom q (a.pushesTo q)).map (108 + ·)

/-- The links after `cut`: one CUT word into each named queue, and CTL's tokens to each named consumer set to 0 (R101). -/
def Links.cut (l : Links) (m : BitVec 10) (named : BitVec 3) : Links :=
  (List.range 3).foldl (fun l q =>
    if named.getLsbD q then
      { l.vpush q { cut := true, val := BitVec.ofNat 64 (m.toNat + 1024 * named.toNat) } with
        tok := put Token.zero l.tok q Token.zero }
    else l) l

/-- One buffered effect made (R63). -/
def State.commitOne (s : State) (c : Nat) (e : Buffered) : State :=
  match e with
  | .store l bs =>
    let a := (s.storeAt c l bs).1
    let b := if storesNow c l then a.reach c l .store else a
    match l with | .scr o => b.kerfCheck c o bs.length .ctl | _ => b
  | .push q x => s.modLinks c fun l => l.vpush q x
  | .token m => s.modLinks c fun l => l.pushTokens (pushIxs .ctl m)
  | .copy cmd =>
    { s with cmdNext := s.cmdNext + 1 }.modEng c fun g => { g with cmds := g.cmds ++ [{ cmd with id := s.cmdNext + 1 }] }
  | .cut m n => s.modLinks c fun l => l.cut m n

/-- The stores of a block made in order, and whether every home takes its own on this cycle (R93, R141, R261). -/
def State.storesTaken (s : State) (c : Nat) : List Buffered → State × Bool
  | [] => (s, true)
  | .store l bs :: es =>
    let a := s.storeAt c l bs
    let b := a.1.storesTaken c es
    (b.1, b.2 && a.2 && (!storesNow c l || s.mayReach c l .store))
  | _ :: es => s.storesTaken c es

/-- ATOMIC_BLOCK_COMMIT (R63): at the end of the body the firing exit commits every buffered effect on one cycle, once there is room,
and transfers to its target; a target outside the program traps FETCH_BOUND at the header (R64, R96). (DEDUCED, log entry 20.) -/
def State.commit (s : State) (c : Nat) : State :=
  let x := s.ctx c
  match x.cr.atomic with
  | none => s
  | some a =>
    if x.ctl.pc.toNat < x.ctl.bodyEnd then s
    else
      match x.ctl.firing with
      | none => s.takeTrap c .ctl .illegal 0 false
      | some e =>
        if ¬ (0 ≤ e.target ∧ e.target + 1 < (x.ctl.bound .ctl : Int)) then s.takeTrap c .ctl .fetchBound (BitVec.ofInt 64 e.target) false
        else if ¬ x.mayCommit a then
          let on := x.commitWaits a
          s.modSeq c .ctl fun q => { q with loss := if on = [] then .engine else .flag, waitsOn := on }
        else if ¬ (s.storesTaken c a.effects).2 then
          -- a page that a store outgrows is locked, to be laid out again, and the commit waits
          ({ s with quads := (s.storesTaken c a.effects).1.quads }).modSeq c .ctl fun q => { q with loss := .engine, waitsOn := [] }
        else
          let s1 := a.effects.foldl (fun s e => s.commitOne c e) s
          s1.modCtx c fun x =>
            { x with cr := { x.cr with atomic := none }
                     ctl := { x.ctl.sendTo (BitVec.ofNat 16 e.target.toNat) with loss := .issue, waitsOn := [] } }

/-- ATOMIC_BLOCK_COMMIT (R63), at the block the running CTL stands at the end of. -/
def execAtomicBlockCommit (s : State) : Out State := .next (s.commit s.unit.core)

/-- BLOCK_ENTRY (R55), at the header the running sequencer stands at. -/
def execBlockEntry (s : State) : Out State := .next (s.enter s.unit.core s.unit.sq)

/-! ### Containment and traps -/

/-- CONTAIN (R114): opens a region with its handler. (DEDUCED, log entry 106.) -/
def execContain (d a : BitVec 5) (i : BitVec 15) (s : State) : Out State :=
  issue (.contain d a i) (fun s =>
    if s.my.cr.regionOpen then .trap .illegal 0
    else if ¬ s.targetOk (s.target d a i) then .trap .fetchBound (BitVec.ofInt 64 (s.target d a i))
    else .done (s.modCr s.unit.core fun r => { r with chnd := BitVec.ofNat 17 ((s.target d a i).toNat % 65536 + 65536) }) 0) s

/-- UNCONTAIN (R114): closes the region. -/
def execUncontain (s : State) : Out State :=
  issue .uncontain (fun s =>
    if s.my.cr.regionOpen then .done (s.modCr s.unit.core fun r => { r with chnd := r.chnd &&& 0xFFFF }) 0
    else .trap .illegal 0) s

/-- TRAP (R117): TRAPI with EINFO := A and ESTAT.SKIP := 1. -/
def execTrap (a : BitVec 5) (s : State) : Out State := issue (.trap a) (fun s => .soft .trapi (s.r a)) s

/-- ERET (R118). -/
def execEret (s : State) : Out State :=
  issue .eret (fun s =>
    if s.my.cr.priv = .user then .trap .priv 0
    else
      let f : Flight :=
        { due := 1, pushM := s.unit.pushM, ring := none, after := none, need := s.unit.need, late := false, no := s.here.icnt + 1 }
      .over (s.modCtx s.unit.core fun x =>
        (x.leave fun sm q => q.unitLen sm).modSeq .ctl fun q =>
          { q.owe f with icnt := s.here.icnt + 1, loss := .issue, waitsOn := [] })) s

/-- WALL (R47): traps WALL. -/
def execWall (s : State) : Out State := .next (s.takeTrap s.unit.core s.unit.sq .wall 0 false)

/-- UNASSIGNED_ENCODING (R81): traps ILLEGAL on every core, whatever its guard. -/
def execUnassignedEncoding (s : State) : Out State := .next (s.takeTrap s.unit.core s.unit.sq .illegal 0 false)

/-- The state after a debug stop is asked for on a core (R376). (DEDUCED, log entry 49.) -/
def State.askStop (s : State) (c why : Nat) : State :=
  s.modCore c fun k => { k with dbg := { k.dbg with request := some why } }

/-- BRK (R117): a debug stop when a debugger is attached, with the unit retired (R376); otherwise it traps BRK with SKIP 1. -/
def execBrk (s : State) : Out State :=
  issue .brk (fun s =>
    if (s.core s.unit.core).dbg.att then .done (s.askStop s.unit.core 2) 0 else .soft .brk 0) s

end Sys2Proof.Machine
end

