-- ==== Sys2Proof/Machine/Barrier.lean ====
section
/-! DEFINITION. Transaction barriers (R108 to R111, R260 to R262): the word, its operations at its home, flips and the increments they
make, completions counted to a word, and the flag and barrier waits (R107, R111). -/
namespace Sys2Proof.Machine

/-- PHASE of a barrier word (R260). -/
def barPhase (w : Nat) : Nat := bits w 3 0

/-- ARRPEND. -/
def barArr (w : Nat) : Nat := bits w 19 4

/-- ARRINIT. -/
def barInit (w : Nat) : Nat := bits w 35 20

/-- BYTEPEND. -/
def barBytes (w : Nat) : Nat := bits w 75 36

/-- FLAGIX. -/
def barFlag (w : Nat) : Nat := bits w 81 76

/-- SUBSCR. -/
def barScope (w : Nat) : Nat := bits w 83 82

/-- The word that `bar.init` writes (R108). -/
def barNew (b : Nat) : Nat := bits b 15 0 * 2 ^ 4 + bits b 15 0 * 2 ^ 20 + bits b 21 16 * 2 ^ 76 + bits b 23 22 * 2 ^ 82

/-- The word after a flip (R109): the next phase, and the arrivals reloaded. -/
def barFlip (w : Nat) : Nat := setBits (setBits w 3 0 (barPhase w + 1)) 19 4 (barInit w)

/-- Whether a word flips after a subtraction: both counts are zero (R109). -/
def barDone (w : Nat) : Bool := barArr w == 0 && barBytes w == 0

/-- The scopes a home can serve (R108). -/
def homeServes (l : Loc) (scope : Nat) : Bool :=
  match l with
  | .scr _ => scope == 0
  | .clus _ => scope ≤ 1
  | .phys _ => true

/-- The barrier word at a place. -/
def State.barWord (s : State) (c : Nat) (l : Loc) : Nat := leNat (s.bytesAt c l 16)

/-- The address of a barrier word at its home, in EINFO of BAR_UNDER (R110). -/
def homeAddress : Loc → Nat
  | .scr o => 0xFE * 2 ^ 48 + o
  | .clus k => 0xFD * 2 ^ 48 + k % 2 ^ 25
  | .phys pa => pa

/-- The context that last ran `bar.init` on a word: for a word in the pool, the context the pool's slice belongs to. (DEDUCED, log entry 59.) -/
def State.initOf (s : State) (c : Nat) (l : Loc) (task : Option Aim) : BarOwner :=
  match l with
  | .scr _ => { known := true, core := c, base := c, part := s.partOf c, task := task }
  | _ => get BarOwner.none s.barOwner (locKey c l)

/-- BAR_UNDER raised to the context that last ran `bar.init` (R110): 0 arrivals, 1 bytes, 2 an addition beyond 40 bits. -/
def State.barUnder (s : State) (c : Nat) (l : Loc) (task : Option Aim) (why : Nat) : State :=
  let o := s.initOf c l task
  if o.known then
    s.raiseFor o.task o.core { cause := .barUnder, info := BitVec.ofNat 64 (homeAddress l % 2 ^ 56 + why * 2 ^ 56), now := false }
  else s

/-- The write of a barrier word at its home (R109): a home on another die counts it as a write of the core's die. The second part says
whether it was made: a locked cluster page, or a block that outgrows its slot, makes it wait (R141). -/
def State.setBar (s : State) (c : Nat) (l : Loc) (w : Nat) : State × Bool := s.atomicWrite c l (leBytes 16 w)

/-- The cores whose live contexts a flip of a word with SUBSCR 1 to 3 reaches (R108). (DEDUCED, log entry 59.) -/
def State.subscribers (s : State) (o : BarOwner) (scope : Nat) : List Nat :=
  (List.range 192).filter fun k =>
    s.partOf k == o.part && (s.quad (Config.quadOf k)).active &&
      (if scope = 1 then Config.quadOf k == Config.quadOf o.base
       else if scope = 2 then Config.dieOf k == Config.dieOf o.base
       else Config.domOf k == Config.domOf o.base)

/-- The vectors that a read of a place carries (R258): those of the releases made there, and the applied vector of a home of memory. -/
def State.carried (s : State) (c : Nat) (l : Loc) : Table Nat :=
  match l with
  | .phys pa => merged (get [] s.relKv (locKey c l)) (s.appliedAt (homeOf pa))
  | _ => get [] s.relKv (locKey c l)

/-- The key under which the largest TIME of the operations counted in a word's phase is kept (R263). -/
def phaseKey (c : Nat) (l : Loc) : Nat := 2 ^ 62 + locKey c l

/-- The key under which the TIME of a word's last flip is kept (R263). -/
def flipKey (c : Nat) (l : Loc) : Nat := 2 ^ 63 + locKey c l

/-- The increments of a FLIP (R109, R262, R402): one of FLAGIX for each subscriber, carrying the largest TIME and the stamps of the
operations counted. (DEDUCED, log entry 59.) -/
def State.tellFlip (s : State) (c : Nat) (l : Loc) (task : Option Aim) (w : Nat) : State :=
  let o := s.initOf c l task
  let b : Bump := { flag := barFlag w, time := get 0 s.relTime (flipKey c l), kv := s.carried c l, src := .flip }
  if ¬ o.known then s
  else if barScope w = 0 then s.bumpFor o.task o.core b
  else (s.subscribers o (barScope w)).foldl (fun s k => s.bumpCore k b) s

/-- What a subtraction that core c makes at a word leaves with it (R262, R263): the larger TIME, of the word and of its phase, and the core's
vector. -/
def State.leaveEdge (s : State) (c : Nat) (l : Loc) (time : Nat) : State :=
  { s with
    relTime := update 0 (update 0 s.relTime (locKey c l) fun t => Nat.max t time) (phaseKey c l) fun t => Nat.max t time
    relKv := update [] s.relKv (locKey c l) fun t => merged t (s.core c).kv }

/-- A phase of a word ends (R263): its flip carries the largest TIME of the operations counted in it, and the next begins with none. -/
def State.endPhase (s : State) (c : Nat) (l : Loc) : State :=
  { s with relTime := put 0 (put 0 s.relTime (flipKey c l) (get 0 s.relTime (phaseKey c l))) (phaseKey c l) 0 }

/-- A subtraction applied to a word at its home, at a TIME (R109, R110): below zero it is not applied and BAR_UNDER is raised; bringing both
counts to zero, it flips the word. The second part says whether the home took it. -/
def State.barSub (s : State) (c : Nat) (l : Loc) (task : Option Aim) (arr bytes time : Nat) : State × Bool :=
  let w := s.barWord c l
  if barArr w < arr then (s.barUnder c l task 0, true)
  else if barBytes w < bytes then (s.barUnder c l task 1, true)
  else
    let w1 := setBits (setBits w 19 4 (barArr w - arr)) 75 36 (barBytes w - bytes)
    let a := s.setBar c l (if barDone w1 then barFlip w1 else w1)
    if ¬ a.2 then a
    else
      let s1 := a.1.leaveEdge c l time
      (if barDone w1 then (s1.endPhase c l).tellFlip c l task w1 else s1, true)

/-- The status bits of a command written at a barrier's home (R125): ZFLINES saturates, ZFOFS is replaced when a line was
zero-filled, the other bits are ORed, and bits [31:20] become 0. The second part says whether the write was made. -/
def State.barStatus (s : State) (c : Nat) (l : Loc) (status : Nat) : State × Bool :=
  let at_ := match l with | .scr o => Loc.scr (o + 16) | .clus k => .clus (k + 16) | .phys p => .phys (p + 16)
  let old := leNat (s.bytesAt c at_ 8)
  let zf := Nat.min 0xFFFF (bits old 15 0 + bits status 15 0)
  let flags := (bits old 19 16) ||| (bits status 19 16)
  let ofs := if bits status 15 0 = 0 then bits old 63 32 else bits status 63 32
  s.atomicWrite c at_ (leBytes 8 (zf + flags * 2 ^ 16 + ofs * 2 ^ 32))

/-! ### The barrier instructions -/

/-- A barrier address resolved for an operation of CTL, which reaches its home in its place among those of the cycle (R261): 16-byte
aligned, any class of R92. (DEDUCED, log entry 29.) -/
def withBarrier (a : BitVec 5) (kind : BarKind) (f : State → Loc → Res) (s : State) : Res :=
  let c := s.unit.core
  let addr := s.r a
  if addr.toNat % 16 ≠ 0 then .trap .align addr
  else
    match s.resolve c addr 16 true true with
    | .fault t e i => .trapIn t e i
    | .stall => .stall .engine []
    | .at s1 l =>
      if ¬ s1.homeReady c l ∨ ¬ s1.mayReach c l kind then .stall .engine []
      else if s1.uncorrAt s.unit.core l 16 then .trapIn s1 .uncorr (uncorrInfo addr)
      else f ((s1.touched c l 16).reach c l kind) l

/-- The end of a barrier operation: a home that does not take it makes it wait (R141). -/
def barEnd (a : State × Bool) (f : State → State) : Res := if a.2 then .done (f a.1) 0 else .linger a.1 .engine []

/-- The context and the subscribers' base that `bar.init` of core c gives a word (R108): in the peer window the subscribers are cores of
the exporter (R124). (DEDUCED, log entry 59.) -/
def State.newOwner (s : State) (c : Nat) (addr : Word) : BarOwner :=
  let own : BarOwner := { known := true, core := c, base := c, part := s.partOf c, task := s.aim c }
  match placeOf addr with
  | .peer off =>
    match s.importAt (s.partOf c) off with
    | some (_, e) => { own with base := 4 * e.owner, part := e.owner }
    | none => own
  | _ => own

/-- BAR_INIT (R108). (DEDUCED, log entry 116.) -/
def barInitBody (a b : BitVec 5) (s : State) : Res :=
  let v := (s.r b).toNat
  if bits v 63 24 ≠ 0 then .trap .illegal 0
  else withBarrier a .init (fun s l =>
    if ¬ homeServes l (bits v 23 22) then .trap .illegal 0
    else
      let c := s.unit.core
      barEnd (s.setBar c l (barNew v)) fun s1 => { s1 with
        barOwner := match l with
          | .scr _ => s1.barOwner
          | _ => put BarOwner.none s1.barOwner (locKey c l) (s.newOwner c (s.r a))
        relTime := put 0 (put 0 (put 0 s1.relTime (locKey c l) 0) (phaseKey c l) 0) (flipKey c l) 0, relKv := put [] s1.relKv (locKey c l) [] }) s

/-- BAR_INIT (R108). -/
def execBarInit (a b : BitVec 5) (s : State) : Out State := issue (.barInit a b) (barInitBody a b) s

/-- BAR_ARRIVE (R109, R260): a release at the barrier's scope, a STAMP where that reaches beyond the die (R371), then one arrival
subtracted. -/
def barArriveBody (a : BitVec 5) (s : State) : Res :=
  withBarrier a .arrive (fun s l =>
    let c := s.unit.core
    let s1 := if barScope (s.barWord c l) = 3 then s.traceStamp c (Config.dieOf c) (s.kv c (Config.dieOf c)) else s
    if ¬ s.mayRelease c (barScope (s.barWord c l)) then .stall .engine []
    else barEnd (s1.barSub c l (s.aim c) 1 0 (s.timeOf (locRegion c l))) id) s

/-- BAR_ARRIVE (R109, R260). -/
def execBarArrive (a : BitVec 5) (s : State) : Out State := issue (.barArrive a) (barArriveBody a) s

/-- BAR_EXPECT (R109): bytes added to BYTEPEND; an addition never flips the word. -/
def execBarExpect (a b : BitVec 5) (s : State) : Out State :=
  issue (.barExpect a b) (fun s =>
    let v := (s.r b).toNat
    if bits v 63 40 ≠ 0 then .trap .illegal 0
    else withBarrier a .expect (fun s l =>
      let c := s.unit.core
      let w := s.barWord c l
      if 2 ^ 40 ≤ barBytes w + v then .done (s.barUnder c l (s.aim c) 2) 0
      else barEnd (s.setBar c l (setBits w 75 36 (barBytes w + v))) id) s) s

/-! ### Waits -/

/-- FWAIT (R107): it completes on its issue cycle when the flag has been reached, tests once with a timeout of 0, and waits
otherwise. -/
def execFwait (d a b : BitVec 5) (s : State) : Out State :=
  issue (.fwait d a b) (fun s =>
    let c := s.unit.core
    let t := timeout (s.r b)
    if reached (s.my.links.flag d.toNat) ((s.r a).extractLsb' 0 8) then
      .done ((s.acquireFlag c d.toNat).modSeq c s.unit.sq fun q => q.setP22 false) 0
    else if t = 0 then .done (s.modSeq c s.unit.sq fun q => q.setP22 true) 0
    else .park s .fwait t [32 + d.toNat]) s

/-- The end of a barrier wait (R111): D := PHASE, p22 := 0, and the flip is acquired. -/
def bwaitEnd (d : BitVec 5) (phase : Nat) (l : Loc) (s : State) : State :=
  let c := s.unit.core
  (((s.touched c l 16).acquire c (get 0 s.relTime (flipKey c l)) (get [] s.relKv (locKey c l))).setR d (BitVec.ofNat 64 phase)).modSeq c s.unit.sq
    fun q => q.setP22 false

/-- A `bwait` whose first look does not find it met: with a timeout of 0 it has expired, else its wait begins (R39, R111, R291). -/
def bwaitUnmet (t : Nat) (s : State) : Res :=
  if t = 0 then .done (s.modSeq s.unit.core s.unit.sq fun q => q.setP22 true) 0 else .park s .bwait t [116]

/-- A `bwait` of a replay (R389): it is met by the entry that its unit finds, and by nothing else. -/
def bwaitReplayed (d : BitVec 5) (t : Nat) (held : Option Word) (s : State) : Res :=
  match held with
  | none => bwaitUnmet t s
  | some v => .done (((s.useReplay s.unit.core).setR d v).modSeq s.unit.core s.unit.sq fun q => q.setP22 false) 0

/-- BWAIT (R111); a word that cannot be looked at yet is not met. -/
def bwaitBody (d a b : BitVec 5) (s : State) : Res :=
  let c := s.unit.core
  let addr := s.r a
  let t := timeout (s.r b)
  if addr.toNat % 16 ≠ 0 then .trap .align addr
  else
    match s.resolve c addr 16 true false with
    | .fault t e i => .trapIn t e i
    | .stall =>
      match s.replayed c 6 with
      | some held => bwaitReplayed d t held s
      | none => bwaitUnmet t s
    | .at s1 l =>
      match s1.replayed c 6 with
      | some held => bwaitReplayed d t held s1
      | none =>
        if s1.waitsAt c l then bwaitUnmet t s1
        else if s1.uncorrAt s.unit.core l 16 then .trapIn s1 .uncorr (uncorrInfo addr)
        else
          let phase := barPhase (s1.barWord c l)
          if phase ≠ bits (s1.r d).toNat 3 0 then .done ((bwaitEnd d phase l s1).logEvent c 6 0 phase) 0
          else bwaitUnmet t (s1.touched c l 16)

/-- BWAIT (R111). One that waits traps on the cycle on which a look at its word faults. -/
def execBwait (d a b : BitVec 5) (s : State) : Out State :=
  let i := Instr.bwait d a b
  if s.here.wait = .bwait ∧ (bwaitBody d a b s).traps then .next (settle i s (bwaitBody d a b s)) else issue i (bwaitBody d a b) s

/-- The unit that a wait holds at the head has issued its wait's end: it goes on, with p22 written. -/
def State.endWait (s : State) (expired : Bool) : State :=
  (s.modSeq s.unit.core s.unit.sq fun q => q.setP22 expired).finish 0 none

/-- FLAG_WAIT_MET (R107): the flag a waiting `fwait` names has reached its target. -/
def execFlagWaitMet (s : State) : Out State :=
  match s.here.wait, s.here.stalled with
  | .fwait, some (.fwait d a _) =>
    if reached (s.my.links.flag d.toNat) ((s.r a).extractLsb' 0 8) then
      .next ((s.acquireFlag s.unit.core d.toNat).endWait false)
    else .next s
  | _, _ => .next s

/-- Where the word that a waiting `bwait` looks at lies, and its PHASE, when it can be read now. -/
def State.bwaitSees (s : State) (a : BitVec 5) : Option (State × Loc × Nat) :=
  if (s.core s.unit.core).watch.rplLive = 2 then none
  else match s.resolve s.unit.core (s.r a) 16 true false with
  | .at s1 l => if s1.waitsAt s.unit.core l ∨ s1.uncorrAt s.unit.core l 16 then none else some (s1, l, barPhase (s1.barWord s.unit.core l))
  | _ => none

/-- BARRIER_WAIT_MET (R111): PHASE differs from the phase a waiting `bwait` has seen. -/
def execBarrierWaitMet (s : State) : Out State :=
  match s.here.wait, s.here.stalled with
  | .bwait, some (.bwait d a _) =>
    match s.bwaitSees a with
    | some (s1, l, phase) =>
      if phase ≠ bits (s.r d).toNat 3 0 then .next (((bwaitEnd d phase l s1).logEvent s.unit.core 6 0 phase).finish 0 none)
      else .next s
    | none => .next s
  | _, _ => .next s

/-- The flag and the value of a CTL header's wait (R54). -/
def Seq.headerWait (q : Seq) : Nat × BitVec 3 :=
  let w := q.headerAt q.pc.toNat
  ((w.extractLsb' 20 6).toNat, w.extractLsb' 26 3)

/-- CTL enters the block whose header it waited at (R55, R57), with p22 written. -/
def State.enterWaited (s : State) (expired : Bool) : State :=
  let c := s.unit.core
  let q := s.seq c .ctl
  (s.modCtx c fun x =>
    (x.enterBlock .ctl q.pc.toNat ((q.headerAt q.pc.toNat).extractLsb' 10 8).toNat).modSeq .ctl fun q => q.setP22 expired).staying

/-- HEADER_WAIT_MET (R57): the flag's low bits equal WVAL, and the block issues. -/
def execHeaderWaitMet (s : State) : Out State :=
  let c := s.unit.core
  let q := s.seq c .ctl
  if q.wait = .header ∧ headerMet ((s.ctx c).links.flag q.headerWait.1) q.headerWait.2 then
    .next ((s.acquireFlag c q.headerWait.1).enterWaited false)
  else .next s

/-- WAIT_TIMEOUT (R39, R57, R107, R111): a flag, barrier or header wait whose time has passed writes p22 := 1 and issue proceeds. -/
def execWaitTimeout (s : State) : Out State :=
  if s.here.waitRem ≠ 0 then .next s
  else
    match s.here.wait with
    | .fwait | .bwait => .next (s.endWait true)
    | .header => .next (s.enterWaited true)
    | _ => .next s

/-- ACQUIRE_COMPLETION (R263): the region's TIME has reached the value an acquire received. -/
def execAcquireCompletion (s : State) : Out State :=
  let c := s.unit.core
  if s.my.cr.acquireUntil ≤ s.timeOf (Config.quadOf c) then
    let s1 := (s.modCr c fun r => { r with acquireUntil := 0 }).merge c
    .next (s.traceMerge s1 c).staying
  else .next s

end Sys2Proof.Machine
end

