-- ==== Sys2Proof/Machine/Hash.lean ====
section
/-! DEFINITION. SHA-384 of bytes, which snapshots and measurements use (R150, R323). -/
namespace Sys2Proof.Machine

/-- The primes from 2 up, by trial division over those found so far. -/
def primesFrom : Nat → Nat → List Nat → List Nat
  | 0, _, found => found
  | n + 1, k, found => primesFrom n (k + 1) (if found.all fun p => k % p != 0 then found ++ [k] else found)

/-- The first 80 primes. -/
def primes80 : List Nat := (primesFrom 408 2 []).take 80

/-- The largest r with r ^ e ≤ x, by bits from the top. -/
def rootBits (e x : Nat) : Nat → Nat → Nat
  | 0, r => r
  | n + 1, r => rootBits e x n (if (r + 2 ^ n) ^ e ≤ x then r + 2 ^ n else r)

/-- The first 64 bits of the fractional part of the e-th root of a prime. -/
def rootFrac (e p : Nat) : Word := BitVec.ofNat 64 (rootBits e (p * 2 ^ (64 * e)) 70 0)

/-- The 80 round constants: cube roots of the first 80 primes. -/
def shaK : List Word := primes80.map (rootFrac 3)

/-- The initial value of SHA-384: square roots of the 9th to 16th primes. -/
def shaInit : List Word := ((primes80.drop 8).take 8).map (rootFrac 2)

/-- The message schedule grown to 80 words, newest first. -/
def shaSchedule : Nat → List Word → List Word
  | 0, w => w
  | n + 1, w =>
    let g := fun (i : Nat) => ((w[i]?).getD 0 : Word)
    let s0 := (g 14).rotateRight 1 ^^^ (g 14).rotateRight 8 ^^^ (g 14 >>> 7)
    let s1 := (g 1).rotateRight 19 ^^^ (g 1).rotateRight 61 ^^^ (g 1 >>> 6)
    shaSchedule n ((g 15 + s0 + g 6 + s1) :: w)

/-- One round over the eight working words. -/
def shaRound (v : List Word) (kw : Word) : List Word :=
  match v with
  | [a, b, c, d, e, f, g, h] =>
    let t1 := h + (e.rotateRight 14 ^^^ e.rotateRight 18 ^^^ e.rotateRight 41) + ((e &&& f) ^^^ (~~~e &&& g)) + kw
    let t2 := (a.rotateRight 28 ^^^ a.rotateRight 34 ^^^ a.rotateRight 39) + ((a &&& b) ^^^ (a &&& c) ^^^ (b &&& c))
    [t1 + t2, a, b, c, d + t1, e, f, g]
  | _ => v

/-- The hash value after one block of 16 words. -/
def shaBlock (h : List Word) (block : List Word) : List Word :=
  let w := (shaSchedule 64 block.reverse).reverse
  let v := (shaK.zip w).foldl (fun v kw => shaRound v (kw.1 + kw.2)) h
  (h.zip v).map fun p => p.1 + p.2

/-- The blocks of padded bytes absorbed; fuel bounds their number. -/
def shaBlocks : Nat → List Word → List Byte → List Word
  | 0, h, _ => h
  | n + 1, h, bs =>
    shaBlocks n (shaBlock h ((List.range 16).map fun i => BitVec.ofNat 64 (beNat ((bs.drop (8 * i)).take 8)))) (bs.drop 128)

/-- SHA-384 of bytes: 48 bytes. -/
def sha384 (bs : List Byte) : List Byte :=
  let n := bs.length
  let zeros := (239 - n % 128) % 128
  let padded := bs ++ [0x80#8] ++ List.replicate zeros 0#8 ++ beBytes 16 (8 * n)
  ((shaBlocks (padded.length / 128) shaInit padded).take 6).flatMap fun w => beBytes 8 w.toNat

end Sys2Proof.Machine
end

