-- ==== Sys2Proof/Machine/Queues.lean ====
section
/-! DEFINITION. Value queues and token queues (R19, R20, R72, R73, R99, R100), `cut` and `mark` (R101 to R105), the ends of their
stalls, and the retirement of instructions (R246). -/
namespace Sys2Proof.Machine

/-! ### Value queues -/

/-- The index under which a wait on a value queue is counted (R384). -/
def queueIx (q : BitVec 3) : Nat := 108 + q.toNat

/-- A PUSH of a scalar into a value queue (R99): it waits for room; inside an atomic block it is buffered (R63). -/
def pushBody (q : BitVec 3) (v : Word) (s : State) : Res :=
  if s.inAtomic then .done (s.buffer (.push q.toNat { cut := false, val := v })) 0
  else if s.my.links.vroom q.toNat 1 then
    .done (s.modLinks s.unit.core fun l => l.vpush q.toNat { cut := false, val := v }) 0
  else .stall .flag [queueIx q]

/-- A POP of a value queue's head into a scalar (R99): it waits for an entry. A CUT word at the head is no data: the consumer stands
until the CUT is taken (R102). -/
def popBody (q : BitVec 3) (d : BitVec 5) (s : State) : Res :=
  match (s.my.links.vqueue q.toNat).items with
  | [] => .stall .flag [queueIx q]
  | e :: _ =>
    if e.cut then .stall .flag [queueIx q]
    else .done ((s.modLinks s.unit.core fun l => l.vpop q.toNat).setR d e.val) 0

/-- A queue operation with a timeout (R73): done at once it writes p23 := 0; else it waits, and a timeout of 0 writes p23 := 1. -/
def timed (t : Nat) (ix : Nat) (body : State → Res) (s : State) : Res :=
  match body s with
  | .done s1 lat => .done (s1.modSeq s.unit.core s.unit.sq fun q => q.setP23 false) lat
  | .stall loss on =>
    if t = 0 then .done (s.modSeq s.unit.core s.unit.sq fun q => q.setP23 true) 0
    else if on = [ix] then .park s .queueT t on
    else .stall loss on
  | r => r

/-- QPUSH (R99). -/
def execQpush (q : BitVec 3) (a : BitVec 5) (s : State) : Out State := issue (.qpush q a) (fun s => pushBody q (s.r a) s) s

/-- QPUSH, 16-bit (R83, R99). -/
def execQpushC16 (q : BitVec 3) (a : BitVec 5) (s : State) : Out State := issue (.qpushC16 q a) (fun s => pushBody q (s.r a) s) s

/-- QPOP (R99). -/
def execQpop (d : BitVec 5) (q : BitVec 3) (s : State) : Out State := issue (.qpop d q) (popBody q d) s

/-- QPOP, 16-bit (R83, R99). -/
def execQpopC16 (q : BitVec 3) (d : BitVec 5) (s : State) : Out State := issue (.qpopC16 q d) (popBody q d) s

/-- QPUSH_T (R73, R99). -/
def execQpushT (q : BitVec 3) (a b : BitVec 5) (s : State) : Out State :=
  issue (.qpushT q a b) (fun s => timed (timeout (s.r b)) (queueIx q) (pushBody q (s.r a)) s) s

/-- QPOP_T (R73, R99). -/
def execQpopT (d : BitVec 5) (q : BitVec 3) (b : BitVec 5) (s : State) : Out State :=
  issue (.qpopT d q b) (fun s => timed (timeout (s.r b)) (queueIx q) (popBody q d) s) s

/-! ### Tokens -/

/-- The mask bit of a peer named by a field (R48, R100). -/
def peerMask (p : BitVec 2) : BitVec 3 := BitVec.ofNat 3 (2 ^ p.toNat)

/-- KPUSH (R100): the token push that a TOK prefix would owe at retirement, beside any the unit's own prefix owes. -/
def kpushBody (p : BitVec 2) (s : State) : Res :=
  if s.inAtomic then .done (s.buffer (.token (peerMask p))) 0
  else .done (s.modSeq s.unit.core s.unit.sq fun q =>
    { q with flight := q.flight ++ [{ due := 0, pushM := peerMask p, ring := none, after := none, need := s.unit.need, late := false, no := q.icnt + 1 }] }) 0

/-- KPOP (R100): the token pop that a TOK prefix would make before issue. -/
def kpopBody (p : BitVec 2) (s : State) : Res :=
  let ix := popIxs s.unit.sq (peerMask p)
  if s.my.links.canPop ix then .done (s.modLinks s.unit.core fun l => l.popTokens ix) 0
  else .stall .flag (ix.map (96 + ·))

/-- KPUSH (R100). -/
def execKpush (p : BitVec 2) (s : State) : Out State := issue (.kpush p) (kpushBody p) s

/-- KPUSH, 16-bit (R83, R100). -/
def execKpushC16 (p : BitVec 2) (s : State) : Out State := issue (.kpushC16 p) (kpushBody p) s

/-- KPOP (R100). -/
def execKpop (p : BitVec 2) (s : State) : Out State := issue (.kpop p) (kpopBody p) s

/-- KPOP, 16-bit (R83, R100). -/
def execKpopC16 (p : BitVec 2) (s : State) : Out State := issue (.kpopC16 p) (kpopBody p) s

/-! ### CUT and mark -/

/-- CUT (R101): it waits for room in every named queue, then appends the CUT words and clears CTL's tokens. (DEDUCED, log entry 40.) -/
def cutBody (m : BitVec 10) (named : BitVec 3) (s : State) : Res :=
  if named = 0 then .trap .illegal 0
  else if s.inAtomic then .done (s.buffer (.cut m named)) 0
  else
    let full := (List.range 3).filter fun q => named.getLsbD q && !s.my.links.vroom q 1
    if full = [] then .done (s.modLinks s.unit.core fun l => l.cut m named) 0 else .stall .flag (full.map (108 + ·))

/-- CUT (R101). -/
def execCut (m : BitVec 10) (named : BitVec 3) (s : State) : Out State := issue (.cut m named) (cutBody m named) s

/-- MARK (R105): no effect in normal flow. -/
def execMark (l h : BitVec 5) (s : State) : Out State := issue (.mark l h) (fun s => .done s 0) s

/-- CUT_TAKEN (R102): the running consumer takes the first CUT word of its control queue; rows that a `drain.q` at its head had taken
are dropped with it. -/
def execCutTaken (s : State) : Out State :=
  .next (s.modCtx s.unit.core fun x =>
    let x1 := x.takeCut s.unit.sq
    if s.unit.sq = .st ∧ (x.cutWord .st).isSome then
      { x1 with mat := { x1.mat with drains := x1.mat.drains.filter fun d => !d.queue || decide (d.taken = (bits d.sr.toNat 8 0)) } }
    else x1)

/-- MARK_FOUND (R103): the search of the running consumer has reached the block that begins with its mark. -/
def execMarkFound (s : State) : Out State :=
  match s.here.cut with
  | .search m _ pos => if s.here.marked pos.toNat m then .next (s.modSeq s.unit.core s.unit.sq Seq.found) else .next s
  | _ => .next s

/-- CUT_MEETING (R104): the named consumers of a core's live context meet. -/
def execCutMeeting (c : Nat) (s : State) : Out State := .next (s.modCtx c fun x => iterate 3 (fun _ x => x.meet) x)

/-! ### Retirement (R246) -/

/-- Whether a flight has reached its own retirement at the end of a cycle: its cycles have passed, and the ring slot it waits for is
counted. -/
def Flight.ripe (f : Flight) (cmds : List Command) : Bool :=
  decide (f.due ≤ 1) && (match f.after with | some r => !(cmds.any fun c => c.slot == some r) | none => true)

/-- Whether a flight has retired but for its place among those issued before it (R246): it owes nothing. -/
def Flight.settled (f : Flight) (cmds : List Command) : Bool := f.due == 0 && f.ripe cmds && f.ring == none && f.pushM == 0

/-- EINFO of RING at a retirement (R136). -/
def ringInfo (n : Nat) : Word := BitVec.ofNat 64 (n % 16)

/-- A ring after an array operation's retirement has popped it (R136). -/
def RingState.retirePop (r : RingState) : RingState :=
  if r.count = 0 then r else { r with head := (r.head + 1) % (r.slotsM1 + 1), count := r.count - 1 }

/-- The flights of a sequencer after the ring pop of the first that is ripe. -/
def ringDone (cmds : List Command) : List Flight → List Flight
  | [] => []
  | f :: fs => if f.ripe cmds ∧ f.ring.isSome then { f with ring := none } :: fs else f :: ringDone cmds fs

/-- The first ring pop that falls due at a sequencer (R136): it is made, and an empty ring traps RING, the instruction counting as
retired. -/
def State.retireRing (s : State) (c : Nat) (sm : Stream) : State :=
  let q := s.seq c sm
  match q.flight.findSome? fun f => if f.ripe (s.ctx c).eng.cmds then f.ring else none with
  | none => s
  | some n =>
    let r := (s.ctx c).ring n
    let s1 := s.modSeq c sm fun q => { q with flight := ringDone (s.ctx c).eng.cmds q.flight }
    let s2 := s1.modCtx c fun x => x.modRing n RingState.retirePop
    if r.count = 0 then s2.takeTrapAt c sm .ring (ringInfo n) true false else s2

/-- The retirement at the head of a sequencer's flights: its token pushes are made once every named queue has room (R20, R48). -/
def State.retireHead (s : State) (c : Nat) (sm : Stream) : State :=
  match (s.seq c sm).flight with
  | [] => s
  | f :: rest =>
    let ix := pushIxs sm f.pushM
    if f.ripe (s.ctx c).eng.cmds ∧ f.ring = none ∧ (s.ctx c).links.canPush ix then
      (s.modLinks c fun l => l.pushTokens ix).modSeq c sm fun q => { q with flight := rest }
    else s

/-- One retirement of a sequencer. -/
def State.retireOne (s : State) (c : Nat) (sm : Stream) : State := (s.retireRing c sm).retireHead c sm

/-- RETIREMENT (R246): an instruction of a sequencer retires and makes its token pushes and ring pops. -/
def execRetirement (c : Nat) (sm : Stream) (s : State) : Out State :=
  if (s.core c).hasLive then .next (s.retireOne c sm) else .next s

/-- Whether a sequencer stands because a retirement finds a token queue full (R20). -/
def Ctx.pushBlocked (x : Ctx) (sm : Stream) : Bool :=
  match (x.seq sm).flight with
  | f :: _ => f.late && f.ripe x.eng.cmds && f.ring == none && f.pushM != 0
  | [] => false

/-! ### The ends of stalls -/

/-- A body resumed at the head of a sequencer after it began to wait: its token pops were made when the wait began. -/
def resume (i : Instr) (body : State → Res) (s : State) : Out State :=
  match body s with
  | .park .. => .next s
  | .stall loss on => .next (s.holdHead i loss on)
  | r => .next (settle i s r)

/-- TOKEN_STALL_END (R20): a pop or push that waited on a token count proceeds; the unit at the head goes on in this cycle. -/
def execTokenStallEnd (s : State) : Out State :=
  let c := s.unit.core
  let sm := s.unit.sq
  let s1 := s.retireHead c sm
  if (s1.seq c sm).flight.length < (s.seq c sm).flight.length ∨ (s.here.stalled.isSome ∧ s.here.wait = .none) then
    .next (s1.modSeq c sm fun q => { q with stalled := none }).staying
  else .next s

/-- QUEUE_OP_TIMEOUT (R73): a timed queue operation, a `renq` or a `task.post` whose time has passed writes p23 := 1 and leaves its
destination and the queue as they are. -/
def execQueueOpTimeout (s : State) : Out State :=
  if s.here.waitRem ≠ 0 then .next s
  else
    match s.here.wait with
    | .queueT | .renq | .taskPost => .next (((s.leaveWait s.unit.core).modSeq s.unit.core s.unit.sq fun q => q.setP23 true).finish 0 none)
    | _ => .next s

end Sys2Proof.Machine
end

