-- ==== Sys2Proof/Machine/Copy.lean ====
section
/-! DEFINITION. The copy engine: completion targets (R124), the length word and the forms of a copy (R126, R127), enqueue with its
translation and page holds (R128), the moving of lines (R130, R131, R138, R141), the Kenhorn block code (R139 to R144), and the steps
of a completion (R129, R134, R137). -/
namespace Sys2Proof.Machine

/-! ### Address classes and completion targets -/

/-- A **g** address: the global or the peer class (R126). -/
def isG (a : Word) : Bool := match placeOf a with | .global _ | .peer _ => true | _ => false

/-- An address of the global class. -/
def isGlobal (a : Word) : Bool := match placeOf a with | .global _ => true | _ => false

/-- A **c** address: the cluster window. -/
def isC (a : Word) : Bool := match placeOf a with | .cluster _ => true | _ => false

/-- An **s** address: the pool window. -/
def isS (a : Word) : Bool := match placeOf a with | .pool _ => true | _ => false

/-- A **g** or **c** address. -/
def isGC (a : Word) : Bool := isG a || isC a

/-- Whether a completion target is a flag (R124). -/
def isFlagTarget (v : Word) : Bool := v.getLsbD 63 && bits v.toNat 62 6 == 0

/-- Whether a completion target is a barrier address. -/
def isBarTarget (v : Word) : Bool := v != 0 && !isFlagTarget v

/-- The pool-window address of an SCR offset. -/
def scrAddress (o : Nat) : Word := BitVec.ofNat 64 (0xFE * 2 ^ 48 + o % 2 ^ 32)

/-- The bytes of a barrier word with its status word (R125). (DEDUCED, log entry 29.) -/
def barExtent : Nat := 24

/-! ### What a copy asks for -/

/-- What the operands of a copy say (R126, R127): its addresses and their classes, the extents it translates, its length word, its
target, its ring and whether it chains a word to MX. -/
structure Plan where
  dst : Word
  src : Word
  dstOk : Bool
  srcOk : Bool
  lenw : Word
  srcLen : Nat
  dstLen : Nat
  formed : Bool
  cast : Bool
  target : Word
  ring : Option Nat
  chain : Bool
  extra : Word
  deriving DecidableEq, Repr

/-- The bound on a compressed stream of L bytes (R142). -/
def streamBound (l : Nat) : Nat := 64 + ceilDiv l 65536 * 66048

/-- A copy between an address and an address, with the length word in a register. -/
def plain (dst src lenw target : Word) (dstOk srcOk formed : Bool) : Plan :=
  { dst := dst, src := src, dstOk := dstOk, srcOk := srcOk, lenw := lenw, srcLen := bits lenw.toNat 31 0
    dstLen := bits lenw.toNat 31 0, formed := formed, cast := false, target := target, ring := none, chain := false, extra := 0 }

/-- A copy into a slot of a ring of the running context (R127, R132): its length is the ring's slot size. -/
def State.ringPlan (s : State) (n : Nat) (src target : Word) (srcOk chain : Bool) (extra : Word) : Plan :=
  let size := s.my.slotSize n
  { dst := scrAddress (s.my.agBase n), src := src, dstOk := true, srcOk := srcOk, lenw := BitVec.ofNat 64 size, srcLen := size
    dstLen := size, formed := false, cast := false, target := target, ring := some n, chain := chain, extra := extra }

/-- The plan of a copy instruction (R126). -/
def State.plan (s : State) : Instr → Plan
  | .copyG2s d a b c _ => plain (s.r d) (s.r a) (s.r b) (s.r c) (isS (s.r d)) (isG (s.r a)) false
  | .copyS2g d a b c _ => plain (s.r d) (s.r a) (s.r b) (s.r c) (isG (s.r d)) (isS (s.r a)) false
  | .copyG2c d a b c _ => plain (s.r d) (s.r a) (s.r b) (s.r c) (isC (s.r d)) (isG (s.r a)) true
  | .copyC2g d a b c _ => plain (s.r d) (s.r a) (s.r b) (s.r c) (isG (s.r d)) (isC (s.r a)) false
  | .copyC2s d a b c _ => plain (s.r d) (s.r a) (s.r b) (s.r c) (isS (s.r d)) (isC (s.r a)) false
  | .copyS2c d a b c _ => plain (s.r d) (s.r a) (s.r b) (s.r c) (isC (s.r d)) (isS (s.r a)) true
  | .copyX2s d a b c _ =>
    { plain (s.r d) (s.r a) (s.r b) (s.r c) (isS (s.r d)) (isG (s.r a)) false with
      srcLen := streamBound (bits (s.r b).toNat 31 0) }
  | .copyS2x d a b c _ =>
    { plain (s.r d) (s.r a) (s.r b) (s.r c) (isG (s.r d)) (isS (s.r a)) false with
      dstLen := streamBound (bits (s.r b).toNat 31 0) }
  | .copyMc d a b c _ =>
    { plain (s.r d) (s.r a) (s.r b) (s.r c) (isS (s.r d)) (isGC (s.r a)) false with cast := true }
  | .copyRing n a b _ => s.ringPlan n.toNat (s.r a) (s.r b) (isGC (s.r a)) false 0
  | .copyMx n a b c _ => s.ringPlan n.toNat (s.r a) (s.r b) (isGC (s.r a)) true (s.r c)
  | .ringPush n a =>
    { s.ringPlan n.toNat (scrAddress (s.r a).toNat) 0 true false 0 with extra := s.r a }
  | _ => plain 0 0 0 0 false false false

/-- `.zf` of a copy (R126). -/
def zeroFill : Instr → Bool
  | .copyG2s _ _ _ _ z | .copyS2g _ _ _ _ z | .copyG2c _ _ _ _ z | .copyC2g _ _ _ _ z | .copyC2s _ _ _ _ z | .copyS2c _ _ _ _ z
  | .copyX2s _ _ _ _ z | .copyS2x _ _ _ _ z | .copyRing _ _ _ z | .copyMx _ _ _ _ z | .copyMc _ _ _ _ z => z == 1
  | _ => false

/-- FORM of a length word. -/
def lenForm (w : Word) : Nat := bits w.toNat 35 32

/-- TGT of a length word. -/
def lenTgt (w : Word) : Nat := bits w.toNat 39 36

/-- Whether a length word is legal for its form (R127, R141). -/
def Plan.lenOk (p : Plan) : Bool :=
  bits p.lenw.toNat 31 0 != 0 && bits p.lenw.toNat 63 40 == 0
    && (if p.formed then lenForm p.lenw ≤ 1 || (4 ≤ lenForm p.lenw && lenForm p.lenw ≤ 7) else lenForm p.lenw == 0)
    && (if p.cast then lenTgt p.lenw != 0 else lenTgt p.lenw == 0)

/-- Whether everything that must be a multiple of 64, or of 64 KiB with a FORM, is (R127, R141); else what is not. (DEDUCED, log entry 32.) -/
def Plan.misaligned (p : Plan) : Option Word :=
  let unit := if p.formed ∧ lenForm p.lenw ≠ 0 then 65536 else 64
  if p.lenw.toNat % 2 ^ 32 % unit ≠ 0 then some p.lenw
  else if p.dst.toNat % unit ≠ 0 then some p.dst
  else if p.src.toNat % 64 ≠ 0 then some p.src
  else if isBarTarget p.target ∧ p.target.toNat % 16 ≠ 0 then some p.target
  else none

/-- The fault of a pool or cluster extent that leaves its window (R92, R128). (DEDUCED, log entry 53.) -/
def State.windowFault (s : State) (c : Nat) (a : Word) (n : Nat) : Option (Cause × Word) :=
  match placeOf a with
  | .pool off => if off + n ≤ (s.core c).liveSl.scrBytes then none else some (.poolBound, a)
  | .cluster off => if off + n ≤ s.clusterCap (Config.quadOf c) then none else some (.clusterBound, a)
  | _ => none

/-- The SCR bytes of a ring. -/
def Ctx.ringBytes (x : Ctx) (n : Nat) : Nat := x.slotSize n * ((x.ring n).slotsM1 + 1)

/-- Whether a plan names a ring that is off (R133). -/
def State.ringOff (s : State) (c : Nat) (p : Plan) : Bool :=
  match p.ring with
  | some n => !((s.ctx c).ring n).on
  | none => false

/-- The operand checks of a copy, in order: ILLEGAL, ADDR, ALIGN, then the window extents (R128, R133). -/
def State.checkPlan (s : State) (c : Nat) (p : Plan) (aligned : Bool) : Option (Cause × Word) :=
  if s.ringOff c p ∨ ¬ p.lenOk then some (.illegal, 0)
  else if ¬ p.dstOk then some (.addr, p.dst)
  else if ¬ p.srcOk then some (.addr, p.src)
  else if isBarTarget p.target ∧ placeOf p.target = .bad then some (.addr, p.target)
  else
    match (if aligned then p.misaligned else none) with
    | some a => some (.align, a)
    | none =>
      let dst := match p.ring with
        | some n => s.windowFault c p.dst ((s.ctx c).ringBytes n)
        | none => if p.cast then none else s.windowFault c p.dst p.dstLen
      match dst with
      | some f => some f
      | none =>
        match s.windowFault c p.src p.srcLen with
        | some f => some f
        | none => if isBarTarget p.target then s.windowFault c p.target barExtent else none

/-! ### Translation and holds (R128, R313) -/

/-- A translation that a command holds: what it answers, a fault with the state it leaves, or a wait for a page being bound. -/
abbrev Holding (α : Type) := Except (Option (State × Cause × Word)) α

/-- The exporter of the page behind a peer offset, with the address and the size of the page in its tables (R316). -/
def State.exporterPage (s : State) (o off : Nat) (rd wr : Bool) : Option (Nat × Nat × Nat) :=
  match s.importAt o off with
  | some (i, e) =>
    match s.walk e.owner none (e.base + (off - i.off)) rd wr false with
    | .ok _ _ v size => some (e.owner, v, size)
    | _ => none
  | none => none

/-- The page of a g address translated and held, with the bytes left in it. (DEDUCED, log entry 24.) -/
def State.holdPage (s : State) (c ext : Nat) (a : Word) (rd wr : Bool) : Holding (State × PageHold × Nat) :=
  let o := s.partOf c
  match placeOf a with
  | .global va =>
    match s.walk o (some (Config.dieOf c)) va rd wr (s.isUser c) with
    | .ok s1 pa v size =>
      .ok (s1, { ext := ext, va := v, pa := pa - (va - v), size := size, own := o, at_ := v, room := size }, v + size - va)
    | .fault t e i => .error (some (t, e, i))
    | .stall => .error none
  | .peer off =>
    match s.walkPeer o off rd wr, s.exporterPage o off rd wr with
    | .ok s1 pa v size, some (own, at_, room) =>
      .ok (s1, { ext := ext, va := v, pa := pa, size := size, own := own, at_ := at_, room := room }, size)
    | .fault t e i, _ => .error (some (t, e, i))
    | _, _ => .error none
  | _ => .error (some (s, .addr, a))

/-- The pages of an extent of n bytes translated in order; fuel bounds them. -/
def State.holdPages (s : State) (c ext : Nat) (rd wr : Bool) : Nat → Word → Nat → Holding (State × List PageHold)
  | 0, _, _ => .ok (s, [])
  | fuel + 1, a, n =>
    if n = 0 then .ok (s, [])
    else
      match s.holdPage c ext a rd wr with
      | .error e => .error e
      | .ok (s1, h, left) =>
        match s1.holdPages c ext rd wr fuel (a + BitVec.ofNat 64 left) (n - left) with
        | .error e => .error e
        | .ok (s2, hs) => .ok (s2, h :: hs)

/-- The address, of an extent's class, at which a held page begins. -/
def pageAddress (a : Word) (h : PageHold) : Word :=
  match placeOf a with
  | .peer _ => BitVec.ofNat 64 (0xFF * 2 ^ 48 + h.va)
  | _ => BitVec.ofNat 64 h.va

/-- An extent translated and held when it is a g extent: every page of it is translated, and more than 64 trap COPY_EXTENT (R128). Others
hold no page. -/
def State.holdExtent (s : State) (c ext : Nat) (a : Word) (n : Nat) (rd wr : Bool) : Holding (State × List PageHold) :=
  if ¬ isG a then .ok (s, [])
  else
    match s.holdPages c ext rd wr (n / 65536 + 2) a n with
    | .error e => .error e
    | .ok (t, hs) =>
      match hs[64]? with
      | some h => .error (some (t, .copyExtent, pageAddress a h))
      | none => .ok (t, hs)

/-- The extents of a command held, in order. -/
def State.holdAll (s : State) (c : Nat) : List (Nat × Word × Nat × Bool × Bool) → Holding (State × List PageHold)
  | [] => .ok (s, [])
  | (ext, a, n, rd, wr) :: rest =>
    match s.holdExtent c ext a n rd wr with
    | .error e => .error e
    | .ok (s1, hs) =>
      match s1.holdAll c rest with
      | .error e => .error e
      | .ok (s2, hs2) => .ok (s2, hs ++ hs2)

/-! ### Enqueue (R128) -/

/-- Commands the queue holds (R128). -/
def queueRoom : Nat := 32

/-- A command with nothing moved. -/
def newCommand (i : Instr) (vals : List Word) (len : Nat) (target : Word) (holds : List PageHold) (task : Option Aim) : Command :=
  { instr := i, vals := vals, len := len, target := target, holds := holds, slot := none, counted := false, chained := false
    started := false, moved := [], status := 0, error := none, desc := [], block := 0, written := 0, emitted := 0, landed := false
    kept := none, task := task }

/-- A slot of a ring reserved (R134), when one is free: its number and the ring after. -/
def RingState.reserve (r : RingState) : Option (Nat × RingState) :=
  let slots := r.slotsM1 + 1
  if slots ≤ r.count + r.rsv + ofBool r.held then none
  else some ((r.head + r.count + r.rsv) % slots, { r with rsv := r.rsv + 1 })

/-- The state in which the context's engine waits to append a command, its pages held (R128). -/
def State.waitAppend (s : State) (cmd : Option Command) : State := s.modEng s.unit.core fun g => { g with waiting := cmd }

/-- A command appended to a core's queue, under the next number. -/
def State.append (s : State) (c : Nat) (cmd : Command) : State :=
  { s with cmdNext := s.cmdNext + 1 }.modEng c fun g => { g with cmds := g.cmds ++ [{ cmd with id := s.cmdNext + 1 }] }

/-- A command with its slot appended, or buffered by an atomic block, once the queue has room (R63, R128). -/
def appendRoom (cmd : Command) (s : State) : Res :=
  if s.inAtomic then .done ((s.waitAppend none).buffer (.copy cmd)) 0
  else if queueRoom ≤ s.my.eng.cmds.length then .linger (s.waitAppend (some cmd)) .engine []
  else .done ((s.waitAppend none).append s.unit.core cmd) 0

/-- A command whose pages are held reserves its ring slot, where it has one, and is then appended (R128, R134). A stall keeps what it holds
and restarts here. -/
def appendBody (cmd : Command) (ring : Option Nat) (s : State) : Res :=
  match (if cmd.slot.isSome then none else ring) with
  | none => appendRoom cmd s
  | some n =>
    match (s.my.ring n).reserve with
    | none => .linger (s.waitAppend (some cmd)) .engine []
    | some (k, r) =>
      let base := scrAddress (s.my.agBase n + k * s.my.slotSize n)
      appendRoom { cmd with slot := some (n, k), vals := base :: cmd.vals.drop 1 } (s.modCtx s.unit.core fun x => x.modRing n fun _ => r)

/-- A COPY ENQUEUED (R128). (DEDUCED, log entry 28.) -/
def enqueueBody (i : Instr) (s : State) : Res :=
  let c := s.unit.core
  let p := s.plan i
  match s.my.eng.waiting with
  | some cmd => if cmd.instr = i then appendBody cmd p.ring s else .stall .engine []
  | none =>
    match s.checkPlan c p true with
    | some (e, info) => .trap e info
    | none =>
      match s.holdAll c [(0, p.src, p.srcLen, true, false), (1, p.dst, p.dstLen, false, true),
                         (2, if isBarTarget p.target then p.target else 0xFE000000000000, barExtent, true, true)] with
      | .error none => .stall .engine []
      | .error (some (t, e, info)) => .trapIn t e info
      | .ok (s1, hs) =>
        let cmd := newCommand i [p.dst, p.src, p.lenw, p.extra] (bits p.lenw.toNat 31 0) p.target hs (s.aim c)
        appendBody { cmd with chained := p.chain } p.ring s1

/-- COPY_G2S (R126). -/
def execCopyG2s (d a b c : BitVec 5) (z : BitVec 1) (s : State) : Out State :=
  issue (.copyG2s d a b c z) (enqueueBody (.copyG2s d a b c z)) s

/-- COPY_S2G (R126). -/
def execCopyS2g (d a b c : BitVec 5) (z : BitVec 1) (s : State) : Out State :=
  issue (.copyS2g d a b c z) (enqueueBody (.copyS2g d a b c z)) s

/-- COPY_G2C (R126, R141). -/
def execCopyG2c (d a b c : BitVec 5) (z : BitVec 1) (s : State) : Out State :=
  issue (.copyG2c d a b c z) (enqueueBody (.copyG2c d a b c z)) s

/-- COPY_C2G (R126). -/
def execCopyC2g (d a b c : BitVec 5) (z : BitVec 1) (s : State) : Out State :=
  issue (.copyC2g d a b c z) (enqueueBody (.copyC2g d a b c z)) s

/-- COPY_C2S (R126). -/
def execCopyC2s (d a b c : BitVec 5) (z : BitVec 1) (s : State) : Out State :=
  issue (.copyC2s d a b c z) (enqueueBody (.copyC2s d a b c z)) s

/-- COPY_S2C (R126, R141). -/
def execCopyS2c (d a b c : BitVec 5) (z : BitVec 1) (s : State) : Out State :=
  issue (.copyS2c d a b c z) (enqueueBody (.copyS2c d a b c z)) s

/-- COPY_X2S (R143). -/
def execCopyX2s (d a b c : BitVec 5) (z : BitVec 1) (s : State) : Out State :=
  issue (.copyX2s d a b c z) (enqueueBody (.copyX2s d a b c z)) s

/-- COPY_S2X (R144). -/
def execCopyS2x (d a b c : BitVec 5) (z : BitVec 1) (s : State) : Out State :=
  issue (.copyS2x d a b c z) (enqueueBody (.copyS2x d a b c z)) s

/-- COPY_RING (R134). -/
def execCopyRing (d : BitVec 4) (a b : BitVec 5) (z : BitVec 1) (s : State) : Out State :=
  issue (.copyRing d a b z) (enqueueBody (.copyRing d a b z)) s

/-- COPY_MX (R137). -/
def execCopyMx (d : BitVec 4) (a b c : BitVec 5) (z : BitVec 1) (s : State) : Out State :=
  issue (.copyMx d a b c z) (enqueueBody (.copyMx d a b c z)) s

/-- COPY_MC (R138). -/
def execCopyMc (d a b c : BitVec 5) (z : BitVec 1) (s : State) : Out State :=
  issue (.copyMc d a b c z) (enqueueBody (.copyMc d a b c z)) s

/-! ### Where a command's lines lie -/

/-- The physical address that a command holds for an address of an extent. -/
def Command.heldAt (cmd : Command) (ext off : Nat) : Option Nat :=
  (cmd.holds.find? fun h => h.ext == ext && h.va ≤ off && off < h.va + h.size).map fun h => h.pa + (off - h.va)

/-- The place of an address of a command's extent, on core c. -/
def Command.placeAt (cmd : Command) (c ext : Nat) (a : Word) : Option Loc :=
  match placeOf a with
  | .pool off => some (.scr off)
  | .cluster off => some (.clus (clusKey (Config.quadOf c) off))
  | .peer off | .global off => (cmd.heldAt ext off).map Loc.phys
  | .bad => none

/-- The destination of a command. -/
def Command.dst (cmd : Command) : Word := (cmd.vals[0]?).getD 0

/-- The source of a command. -/
def Command.src (cmd : Command) : Word := (cmd.vals[1]?).getD 0

/-- The lines a command moves. -/
def Command.lines (cmd : Command) : Nat := cmd.len / 64

/-- An address some bytes further. -/
def plus (a : Word) (n : Nat) : Word := a + BitVec.ofNat 64 n

/-- Whether a place can serve a command of core c now: the home's vectors cover what the core knows (R130, R258), and a cluster
page is not locked (R141). -/
def State.open_ (s : State) (c : Nat) (l : Loc) : Bool := !s.waitsAt c l

/-- Whether a place can take a command's bytes now: a write to memory is ordered by its stamp instead (R258). -/
def State.openTo (s : State) (c : Nat) (l : Loc) : Bool := match l with | .phys _ => true | _ => s.open_ c l

/-- Bytes read at a place for a command, with whether a line of them is uncorrectable. A read of SCR touches kerfs (R148). -/
def State.readFor (s : State) (c : Nat) (l : Loc) (n : Nat) : State × List Byte × Bool :=
  match l with
  | .scr o => (s.kerfCheck c o n .copyEngine, s.bytesAt c l n, s.uncorrAt c l n)
  | .clus _ => (s, s.bytesAt c l n, s.uncorrAt c l n)
  | .phys pa => (s.note c (homeOf pa), s.bytesAt c l n, s.badAt pa n)

/-- Bytes written at a place for the command of a number; the second part says whether the write was made (R141, R258). -/
def State.writeFor (s : State) (c id : Nat) (l : Loc) (bs : List Byte) : State × Bool :=
  match l with
  | .scr o => (((s.modCore c fun k => k.setScr o bs).kerfCheck c o bs.length .copyEngine).perform c id, true)
  | .clus k =>
    let a := s.writeCluster k bs
    (if a.2 then (a.1.leaveKvs c l bs.length).perform c id else a.1, a.2)
  | .phys pa =>
    if ¬ s.ownServed c pa then (s, false)
    else
      let s1 := s.writeEngine c id pa bs
      (if homeOf pa = Config.dieOf c then s1.leaveKvs c l bs.length else s1, true)

/-- Pieces of bytes written at addresses of extents of a command, each with its extent, in order; what falls into the slice of a context that
has ended is dropped. The second part says whether all were made. -/
def State.writeAt (s : State) (c : Nat) (orphan : Bool) (cmd : Command) : List (Nat × Word × List Byte) → State × Bool
  | [] => (s, true)
  | (ext, a, bs) :: rest =>
    let b := match cmd.placeAt c ext a with
      | some (.scr o) => if orphan then (s, true) else s.writeFor c cmd.id (.scr o) bs
      | some l => s.writeFor c cmd.id l bs
      | none => (s, true)
    if b.2 then b.1.writeAt c orphan cmd rest else b

/-! ### Moving a line -/

/-- Status bits of R125 as they are gathered with a command: ZFLINES, LENMM, UNCORR, SNAPOVF, MCDROP and ZFOFS. -/
def addZf (status line : Nat) : Nat :=
  setBits (setBits status 15 0 (Nat.min 0xFFFF (bits status 15 0 + 1))) 63 32 line

/-- A status with one of its bits set. -/
def setStatus (status b : Nat) : Nat := setBits status b b 1

/-- A command that has met an uncorrectable source line without `.zf` (R131): the lowest address is reported. -/
def Command.meetBad (cmd : Command) (a : Word) : Command :=
  let info := uncorrInfo a
  { cmd with
    status := setStatus cmd.status 17
    error := match cmd.error with
      | some e => if e.cause = .uncorr ∧ e.info.toNat ≤ info.toNat then some e else some { cause := .uncorr, info := info, now := true }
      | none => some { cause := .uncorr, info := info, now := true } }

/-- A core that receives a multicast line now: it has a live context, as none has that is switching (R138). (DEDUCED, log entry 31.) -/
def Core.receives (k : Core) : Bool := k.hasLive

/-- A multicast line of core c written into one target's live slice (R138); the second part says that it was dropped. Every read of the
target on or after this cycle follows the line, and with it what core c knows (R254). (DEDUCED, log entry 31.) -/
def State.castTo (s : State) (c k off : Nat) (bs : List Byte) : State × Bool :=
  if ¬ (s.core k).receives ∨ (s.core k).liveSl.scrBytes < off + bs.length then (s, true)
  else if (s.ctx k).onKerf off then (s.kerfTouch k off .multicast, true)
  else ((s.modCore k fun x => x.setScr off bs).noteKv k (s.core c).kv, false)

/-- A multicast line written into every selected scratchpad. -/
def State.castLine (s : State) (c tgt off : Nat) (bs : List Byte) : State × Bool :=
  ((List.range 4).filter fun j => bit tgt j).foldl (fun a j =>
    let b := a.1.castTo c (4 * Config.quadOf c + j) off bs
    (b.1, a.2 || b.2)) (s, false)

/-- The source bytes of a line of a command, and whether it is uncorrectable: from the place, or as kept when its context ended. -/
def State.sourceLine (s : State) (c : Nat) (cmd : Command) (i : Nat) : Option (State × List Byte × Bool) :=
  match cmd.kept with
  | some bs => some (s, (bs.drop (64 * i)).take 64, cmd.keptBad.contains i)
  | none =>
    match cmd.placeAt c 0 (plus cmd.src (64 * i)) with
    | some l => if s.open_ c l then some (s.readFor c l 64) else none
    | none => none

/-- The destination of a line of a command written; none while it waits. A destination in the slice of a context that has ended is
dropped. -/
def State.destLine (s : State) (c : Nat) (orphan : Bool) (cmd : Command) (i : Nat) (bs : List Byte) : Option (State × Bool) × State :=
  match cmd.instr with
  | .copyMc .. =>
    let off := match placeOf cmd.dst with | .pool o => o | _ => 0
    let a := s.castLine c (lenTgt ((cmd.vals[2]?).getD 0)) (off + 64 * i) bs
    (some (a.1.perform c cmd.id, a.2), s)
  | _ =>
    match cmd.placeAt c 1 (plus cmd.dst (64 * i)) with
    | some (.scr o) =>
      if orphan then (some (s, false), s) else (some ((s.writeFor c cmd.id (.scr o) bs).1, false), s)
    | some l =>
      if ¬ s.openTo c l then (none, s)
      else
        let a := s.writeFor c cmd.id l bs
        if a.2 then (some (a.1, false), s) else (none, a.1)
    | none => (none, s)

/-- Lines that a core's copy engine has moved (R383), counted for a live context's command (R369, R371). -/
def State.countLines (s : State) (c : Nat) (orphan : Bool) (n : Nat) : State :=
  if orphan then (if (s.core c).hasLive then s.modEng c fun g => { g with moving := true } else s)
  else s.modEng c fun g => { g with lines := g.lines + n, moving := true }

/-- Lines that the snapshot unit of a live context has read (R369, R371). -/
def State.countSnap (s : State) (c : Nat) (orphan : Bool) (n : Nat) : State :=
  if orphan then s else s.modEng c fun g => { g with snapLines := g.snapLines + n }

/-- One line of a copy moved (R130, R131): the state and the command after, unchanged while the line must wait. -/
def State.moveLine (s : State) (c : Nat) (orphan : Bool) (cmd : Command) (i : Nat) : State × Command :=
  if get false cmd.moved i ∨ cmd.lines ≤ i then (s, cmd)
  else
    match s.sourceLine c cmd i with
    | none => (s, cmd)
    | some (s1, bs, bad) =>
      let done := fun (cmd : Command) => { cmd with moved := put false cmd.moved i true }
      if bad ∧ ¬ zeroFill cmd.instr then (s1.countLines c orphan 1, done (cmd.meetBad (plus cmd.src (64 * i))))
      else
        let cmd1 := if bad then { cmd with status := addZf cmd.status i } else cmd
        match s1.destLine c orphan cmd i (if bad then List.replicate 64 0#8 else bs) with
        | (some (s2, dropped), _) =>
          (s2.countLines c orphan 1, done (if dropped then { cmd1 with status := setStatus cmd1.status 19 } else cmd1))
        | (none, s2) => (s2, cmd)

/-- Lines of a copy moved, in increasing number. (DESIGN CHOICE, log entry 27.) -/
def State.moveLines (s : State) (c : Nat) (orphan : Bool) (cmd : Command) (ls : List Nat) : State × Command :=
  ls.foldl (fun a i => a.1.moveLine c orphan a.2 i) (s, cmd)

/-- Whether every line of a command has moved. -/
def Command.allMoved (cmd : Command) : Bool := (List.range cmd.lines).all fun i => get false cmd.moved i

/-! ### The Kenhorn block code (R139, R140, R142) -/

/-- The mode and the payload of a block (R139). -/
def kbcEncode (bs : List Byte) : Nat × List Byte :=
  let nz := bs.filter (· != 0)
  if nz = [] then (0, [])
  else if (List.range bs.length).all fun i => bs[i]? == bs[i % 4]? then (1, bs.take 4)
  else if nz.length ≤ 223 then
    (2, (List.range 32).map (fun k =>
        BitVec.ofNat 8 ((List.range 8).foldl (fun a j => if (bs[8 * k + j]?).getD 0 ≠ 0 then a + 2 ^ j else a) 0)) ++ nz)
  else (3, bs)

/-- The non-zero bytes put back at the places a bitmap marks (R139); fuel bounds the block's bytes. -/
def kbcSpread (bitmap : Nat) : Nat → Nat → List Byte → List Byte
  | 0, _, _ => []
  | n + 1, i, bs =>
    if bit bitmap i then (bs.head?).getD 0 :: kbcSpread bitmap n (i + 1) (bs.drop 1) else 0#8 :: kbcSpread bitmap n (i + 1) bs

/-- The bits of a number that are set, below a width. -/
def popCount (x w : Nat) : Nat := ((List.range w).filter fun i => bit x i).length

/-- The 256 bytes of an entry with a mode and a payload (R139); none where it is malformed. -/
def kbcDecode (mode : Nat) (pay : List Byte) : Option (List Byte) :=
  if mode = 0 then (if pay = [] then some (List.replicate 256 0#8) else none)
  else if mode = 1 then
    (if pay.length = 4 then some ((List.range 256).map fun i => (pay[i % 4]?).getD 0) else none)
  else if mode = 2 then
    let bm := leNat (pay.take 32)
    if 32 ≤ pay.length ∧ pay.length = 32 + popCount bm 256 then some (kbcSpread bm 256 0 (pay.drop 32)) else none
  else if pay.length = 256 then some pay else none

/-- A list cut into pieces of n, the last possibly shorter; fuel bounds the pieces. -/
def pieces {α : Type} (n : Nat) : Nat → List α → List (List α)
  | 0, _ => []
  | k + 1, l => if l.isEmpty then [] else l.take n :: pieces n k (l.drop n)

/-- Bytes padded with zeros to a multiple of n. -/
def padTo (n : Nat) (bs : List Byte) : List Byte := bs ++ List.replicate ((n - bs.length % n) % n) 0#8

/-- A chunk of a compressed stream (R142): the slot table, then the payloads, padded to 64 bytes. -/
def chunkOf (bs : List Byte) : List Byte :=
  let es := (pieces 256 256 bs).map fun b => kbcEncode (padTo 256 b)
  padTo 64 ((es.flatMap fun e => leBytes 2 (e.1 + 4 * e.2.length)) ++ es.flatMap (·.2))

/-- The compressed stream of bytes (R142). -/
def streamOfBytes (bs : List Byte) : List Byte :=
  let body := (pieces 65536 (bs.length / 65536 + 1) bs).flatMap chunkOf
  leBytes 8 bs.length ++ leBytes 8 (64 + body.length) ++ List.replicate 48 0#8 ++ body

/-- The blocks of a chunk decoded in order: the bytes produced, the payload bytes consumed, those of a malformed entry included, and
whether decoding went on to the last block. The entries are the slot table's, the bytes the payload that lies within SLEN. -/
def decodeBlocks : List Nat → List Byte → List Byte × Nat × Bool
  | [], _ => ([], 0, true)
  | e :: es, pay =>
    let len := bits e 10 2
    if pay.length < len then ([], pay.length, false)
    else
      match kbcDecode (bits e 1 0) (pay.take len) with
      | none => ([], len, false)
      | some b =>
        let r := decodeBlocks es (pay.drop len)
        (b ++ r.1, len + r.2.1, r.2.2)

/-- The chunks of a stream decoded (R143): the bytes produced, the bytes read, and whether decoding reached ULEN; fuel bounds the
chunks. -/
def decodeChunks : Nat → Nat → List Byte → List Byte × Nat × Bool
  | 0, left, _ => ([], 0, left == 0)
  | n + 1, left, bs =>
    if left = 0 then ([], 0, true)
    else
      let nb := ceilDiv (Nat.min left 65536) 256
      if bs.length < 2 * nb then ([], bs.length, false)
      else
        let es := (List.range nb).map fun i => leNat ((bs.drop (2 * i)).take 2)
        let r := decodeBlocks es (bs.drop (2 * nb))
        let out := r.1.take left
        if r.2.2 then
          let used := 2 * nb + r.2.1
          let pad := (64 - used % 64) % 64
          let t := decodeChunks n (left - out.length) (bs.drop (used + pad))
          (out ++ t.1, if t.2.1 = 0 then used else used + pad + t.2.1, t.2.2)
        else (out, 2 * nb + r.2.1, false)

/-- A stream decoded for a declared length B, of which so many bytes can be read (R143): the bytes produced, the lines read, and whether
decoding reached ULEN. -/
def decodeStream (b avail : Nat) (stream : List Byte) : List Byte × Nat × Bool :=
  let ulen := leNat (stream.take 8)
  let slen := Nat.min (leNat ((stream.drop 8).take 8)) (streamBound b)
  let r := decodeChunks (stream.length / 64 + 1) ulen ((stream.take (Nat.min slen avail)).drop 64)
  (r.1, 1 + ceilDiv r.2.1 64, r.2.2)

/-- What `copy.x2s` writes for a declared length B when so many bytes have been produced (R143). -/
def filledTo (b : Nat) (bs : List Byte) : List Byte := bs.take b ++ List.replicate (b - bs.length) 0#8

/-! ### Compressed copies -/

/-- Lines of a g extent read in order: the bytes (zeros for an uncorrectable line), and the numbers of the lines that were
uncorrectable; none while a home must still apply earlier writes. -/
def State.readExtent (s : State) (c : Nat) (cmd : Command) (ext : Nat) (a : Word) : Nat → Option (State × List Byte × List Nat)
  | 0 => some (s, [], [])
  | n + 1 =>
    match s.readExtent c cmd ext a n with
    | none => none
    | some (s1, bs, bad) =>
      match cmd.placeAt c ext (plus a (64 * n)) with
      | none => none
      | some l =>
        if ¬ s1.open_ c l then none
        else
          let r := s1.readFor c l 64
          some (r.1, bs ++ (if r.2.2 then List.replicate 64 0#8 else r.2.1), if r.2.2 then bad ++ [n] else bad)

/-- What a stream decodes to for a command (R131, R143, R351): the bytes to write, and the command with what it has met. With `.zf` an
uncorrectable line that decoding reads decodes as zeros; without, decoding ends before it and what it would have given stays
unchanged. (DEDUCED, log entry 30.) -/
def Command.decoded (cmd : Command) (stream : List Byte) (bad : List Nat) : List Byte × Command :=
  let all := decodeStream cmd.len (streamBound cmd.len) stream
  let met := bad.filter fun i => decide (i < all.2.1)
  let short := fun (r : List Byte × Nat × Bool) (cmd : Command) =>
    if r.1.length ≠ cmd.len ∨ ¬ r.2.2 then { cmd with status := setStatus cmd.status 16 } else cmd
  if zeroFill cmd.instr then
    (filledTo cmd.len all.1, short all (met.foldl (fun cmd i => { cmd with status := addZf cmd.status i }) cmd))
  else
    match met with
    | [] => (filledTo cmd.len all.1, short all cmd)
    | i :: _ =>
      let r := decodeStream cmd.len (64 * i) stream
      ((if i = 0 then [] else r.1.take cmd.len), (short (r.1, r.2.1, false) cmd).meetBad (plus cmd.src (64 * i)))

/-- A command all of whose lines have moved. -/
def Command.finished (cmd : Command) : Command := { cmd with moved := (List.range cmd.lines).map fun i => (i, true) }

/-- A stream decoded into SCR (R143); none while it waits. -/
def State.decodeCopy (s : State) (c : Nat) (orphan : Bool) (cmd : Command) : Option (State × Command) :=
  match s.readExtent c cmd 0 cmd.src (streamBound cmd.len / 64) with
  | none => none
  | some (s1, bs, bad) =>
    let out := cmd.decoded bs bad
    let s2 := match placeOf cmd.dst with
      | .pool o => if orphan then s1 else (s1.writeFor c cmd.id (.scr o) out.1).1
      | _ => s1
    some (s2.countLines c orphan cmd.lines, out.2.finished)

/-- The source lines of a command read in order: the bytes (zeros for an uncorrectable line), and the numbers of the lines that were
uncorrectable. -/
def State.sourceLines (s : State) (c : Nat) (cmd : Command) : Nat → Option (State × List Byte × List Nat)
  | 0 => some (s, [], [])
  | n + 1 =>
    match s.sourceLines c cmd n with
    | none => none
    | some (s1, bs, bad) =>
      match s1.sourceLine c cmd n with
      | none => none
      | some (s2, b, isBad) => some (s2, bs ++ (if isBad then List.replicate 64 0#8 else b), if isBad then bad ++ [n] else bad)

/-- The stream of a command written line by line behind its header (R144); its length is noted with the command. -/
def State.encodeBody (s : State) (c : Nat) (cmd : Command) (bs : List Byte) : State × Command :=
  let stream := streamOfBytes bs
  let lines := (pieces 64 (streamBound cmd.len) stream).zipIdx.drop 1
  let a := s.writeAt c false cmd (lines.map fun l => (1, plus cmd.dst (64 * l.2), l.1))
  if a.2 then (a.1.countLines c cmd.kept.isSome cmd.lines, { cmd with written := stream.length }) else (s, cmd)

/-- The header of a stream written, its length with it, once everything before it is performed (R144). -/
def State.encodeHead (s : State) (c : Nat) (cmd : Command) : State × Command :=
  if ¬ s.performedAll cmd.id then (s, cmd)
  else
    let a := s.writeAt c false cmd [(1, cmd.dst, leBytes 8 cmd.len ++ leBytes 8 cmd.written ++ List.replicate 48 0#8)]
    if a.2 then (a.1, cmd.finished) else (s, cmd)

/-- SCR encoded into a stream (R131, R144). With `.zf` an uncorrectable line encodes as zeros; without, no byte of the stream is
written. (DEDUCED, log entry 30.) -/
def State.encodeCopy (s : State) (c : Nat) (cmd : Command) : State × Command :=
  if cmd.written ≠ 0 then s.encodeHead c cmd
  else
    match s.sourceLines c cmd cmd.lines with
    | none => (s, cmd)
    | some (s1, bs, bad) =>
      match (if zeroFill cmd.instr then none else bad.head?) with
      | some i => (s1.countLines c cmd.kept.isSome cmd.lines, (cmd.meetBad (plus cmd.src (64 * i))).finished)
      | none =>
        let a := s1.encodeBody c (bad.foldl (fun cmd i => { cmd with status := addZf cmd.status i }) cmd) bs
        if a.2.written = 0 then (s, cmd) else a.1.encodeHead c a.2

/-! ### Start and completion -/

/-- Whether a command belongs to the snapshot unit. -/
def isSnap : Instr → Bool
  | .cpSnap .. => true
  | _ => false

/-- The pages a FORM covers set to it (R141), before the copy writes them. -/
def State.setForm (s : State) (c : Nat) (cmd : Command) : State :=
  let form := lenForm ((cmd.vals[2]?).getD 0)
  match placeOf cmd.dst with
  | .cluster off =>
    if form = 0 then s
    else iterate (cmd.len / 65536) (fun i s =>
      s.modPage (clusKey (Config.quadOf c) (off + 65536 * i)) fun p =>
        if form = 1 then { p with kbc := false, cls := 0, want := 0 } else { p with kbc := true, cls := form - 4, want := 0 }) s
  | _ => s

/-- The command at a place of a core's queue; places from 32 on are those of commands whose context has ended. -/
def State.cmdAt (s : State) (c pos : Nat) : Option Command :=
  if pos < 32 then (if (s.core c).hasLive then (s.ctx c).eng.cmds[pos]? else none) else (s.core c).orphans[pos - 32]?

/-- The state with the command at a place replaced. -/
def State.setCmd (s : State) (c pos : Nat) (cmd : Command) : State :=
  if pos < 32 then s.modEng c fun g => { g with cmds := modifyAt g.cmds pos fun _ => cmd }
  else s.modCore c fun k => { k with orphans := modifyAt k.orphans (pos - 32) fun _ => cmd }

/-- The state without the command at a place: a completed command counts for its own engine (R369). -/
def State.dropCmd (s : State) (c pos : Nat) (snap : Bool) : State :=
  if pos < 32 then s.modEng c fun g =>
    { g with cmds := removeAt g.cmds pos, done := g.done + ofBool (!snap), snaps := g.snaps + ofBool snap }
  else s.modCore c fun k => { k with orphans := removeAt k.orphans (pos - 32) }

/-- The commands of a core in the order of their enqueue, those of ended contexts first. -/
def State.cmdPlaces (s : State) (c : Nat) : List Nat :=
  ((List.range (s.core c).orphans.length).map (· + 32))
    ++ (if (s.core c).hasLive then List.range (s.ctx c).eng.cmds.length else [])

/-- COPY_START (R128): the engine starts the next queued command, at most 8 being in progress; a frozen core starts none (R376). -/
def execCopyStart (c : Nat) (s : State) : Out State :=
  let cmds := (s.cmdPlaces c).filterMap fun p => (s.cmdAt c p).map fun k => (p, k)
  let busy := (cmds.filter fun e => e.2.started && !isSnap e.2.instr).length
  match cmds.find? fun e => !e.2.started && !isSnap e.2.instr with
  | some (p, cmd) =>
    if 8 ≤ busy ∨ (s.core c).dbg.stopped then .next s
    else .next ((s.setForm c cmd).setCmd c p { cmd with started := true })
  | none => .next s

/-- The slots of a ring that commands of a context hold reserved: queued ones, those of an open atomic block, and one whose enqueue
waits. -/
def Ctx.reservedSlots (x : Ctx) (n : Nat) : List Nat :=
  let cmds := x.eng.cmds ++ (match x.cr.atomic with
      | some a => a.effects.filterMap fun e => match e with | .copy k => some k | _ => none
      | none => []) ++ x.eng.waiting.toList
  cmds.filterMap fun k => match k.slot with | some (m, i) => if m = n ∧ ¬ k.counted then some i else none | none => none

/-- How many reservations of a ring stand before that of a slot (R134): they follow the slots that are counted. -/
def RingState.place (r : RingState) (k : Nat) : Nat := (k + 2 * (r.slotsM1 + 1) - (r.head + r.count) % (r.slotsM1 + 1)) % (r.slotsM1 + 1)

/-- Whether an earlier command stands before a completion: an earlier reservation of the same ring (R134), or an earlier
`copy.mx` of the queue (R137). -/
def State.mustWait (s : State) (c pos : Nat) (cmd : Command) : Bool :=
  (cmd.chained && (List.range pos).any fun p => match s.cmdAt c p with | some e => e.chained | none => false)
    || (match cmd.slot with
        | some (n, k) =>
          decide (pos < 32) && ((s.ctx c).reservedSlots n).any fun j => decide (((s.ctx c).ring n).place j < ((s.ctx c).ring n).place k)
        | none => false)

/-- A slot counted into its ring (R134); a ring that another setting has ended counts nothing. -/
def RingState.count1 (r : RingState) : RingState := { r with rsv := r.rsv - 1, count := r.count + 1 }

/-- The barrier place of a command's target (R124). -/
def Command.barPlace (cmd : Command) (c : Nat) : Option Loc :=
  match cmd.placeAt c 2 cmd.target with
  | some l => some l
  | none => none

/-- The TIME that a command's completion carries (R263): that of its engine's region when its last byte was performed. -/
def State.doneTime (s : State) (c : Nat) (cmd : Command) : Nat :=
  let t := get 0 s.performed cmd.id
  if t = 0 then s.timeOf (Config.quadOf c) else t

/-- The status bits and the subtraction of a completion at its barrier's home (R125, R129); the second part says whether the home took
both. It takes them in their place among the operations of the cycle (R261), and after the writes to it that stand before (R94). -/
def State.hitBarrier (s : State) (c : Nat) (l : Loc) (cmd : Command) : State × Bool :=
  if ¬ s.homeReady c l ∨ ¬ s.mayReach c l .completion then (s, false)
  else
    let s0 := match l with | .scr o => s.kerfCheck c o barExtent .copyEngine | _ => s
    let a := (s0.reach c l .completion).barStatus c l cmd.status
    let b := a.1.barSub c l cmd.task 0 cmd.len (s.doneTime c cmd)
    if ¬ a.2 then ({ s with quads := a.1.quads }, false)
    else if ¬ b.2 then ({ s with quads := b.1.quads }, false)
    else b

/-- Steps 2 and 3 of a completion (R129): status bits and the subtraction at the barrier, or the flag increment. The second part says
whether they were made. -/
def State.hitTarget (s : State) (c : Nat) (orphan : Bool) (cmd : Command) : State × Bool :=
  if cmd.target = 0 then (s, true)
  else if isFlagTarget cmd.target then
    if orphan then (s, true)
    else
      (s.bumpFor cmd.task c { flag := bits cmd.target.toNat 5 0, time := s.doneTime c cmd, kv := (s.core c).kv, src := .copy },
        true)
  else
    match cmd.barPlace c with
    | some (.scr o) => if orphan then (s, true) else s.hitBarrier c (.scr o) cmd
    | some l => s.hitBarrier c l cmd
    | none => (s, true)

/-- Whether the chained push of `copy.mx` finds room (R137). -/
def Links.chainRoom (l : Links) : Bool := l.vroom 1 1 && l.canPush (pushIxs .ctl 2)

/-- The contained errors of a command that has completed (R115): UNCORR of its lowest line, and LEN_MISMATCH. -/
def Command.errors (cmd : Command) : List HeldError :=
  cmd.error.toList
    ++ if bit cmd.status 16 then [{ cause := .lenMismatch, info := uncorrInfo cmd.src, now := true }] else []

/-- Whether a command waits for no memory any more: what is left are its barrier's home, its chained push and its ring (R383). -/
def State.atEnd (s : State) (cmd : Command) : Bool :=
  cmd.landed || (decide (cmd.len ≤ 64 * cmd.moved.length) && s.performedAll cmd.id)

/-- The class of a core's copy engine on a cycle (R383). (DEDUCED, log entry 90.) -/
def State.engineLoss (s : State) (c : Nat) : Loss :=
  let g := (s.ctx c).eng
  let cmds := ((s.core c).orphans ++ g.cmds).filter fun k => !isSnap k.instr
  let busy := cmds.filter (·.started)
  if g.moving then .issue else if cmds.isEmpty then .empty
  else if busy ≠ [] ∧ busy.all s.atEnd then .flag else .engine

/-- The COPY record of a command that completes (R371): one whose context has ended is named by its place among those, with no count of
completed commands, and by its own task. (DEDUCED, log entry 90.) -/
def State.traceCmd (s : State) (c pos : Nat) (cmd : Command) : State :=
  let cls := lossCode (s.engineLoss c)
  if pos < 32 then s.trace c 5 (s.engName c 4 pos cls) (cmd.status % 2 ^ 32)
  else
    let corr := match cmd.task with | some a => s.slotCorr a.dom a.slot | none => 0
    s.traceAs c 5 corr (4 + (pos - 32) % 32 * 2 ^ 3 + cls * 2 ^ 51) (cmd.status % 2 ^ 32)

/-- The end of a command (R129 step 5): it leaves the queue, its errors fall due, and it is recorded. The completion of a command of an ended
context is no event of the live one (R388). -/
def State.endCmd (s : State) (c pos : Nat) (cmd : Command) : State :=
  let s1 := s.traceCmd c pos cmd
  let s2 := { s1.dropCmd c pos (isSnap cmd.instr) with performed := put 0 s1.performed cmd.id 0 }
  if pos < 32 then cmd.errors.foldl (fun (a : State) e => a.raiseFor cmd.task c e) (s2.logEvent c 3 pos cmd.status) else s2

/-- The chained push of a landed `copy.mx` (R137): the word into q1 and one token into k.cm, on one cycle. -/
def State.chainPush (s : State) (c : Nat) (cmd : Command) : State :=
  s.modLinks c fun l => (l.vpush 1 { cut := false, val := (cmd.vals[3]?).getD 0 }).pushTokens (pushIxs .ctl 2)

/-- What a landed command still does: the chained push where there is one and it finds room, then its end. -/
def State.afterLanding (s : State) (c pos : Nat) (cmd : Command) : State :=
  if ¬ cmd.chained ∨ 32 ≤ pos then s.endCmd c pos cmd
  else if (s.ctx c).links.chainRoom then (s.chainPush c cmd).endCmd c pos cmd
  else s.setCmd c pos cmd

/-- Everything a command still has to move, moved, each source byte being read once (R130); the second part is the command after. (DESIGN CHOICE, log entry 27.) -/
def State.moveRest (s : State) (c : Nat) (orphan : Bool) (cmd : Command) : State × Command :=
  if cmd.allMoved then (s, cmd)
  else match cmd.instr with
  | .copyX2s .. => (s.decodeCopy c orphan cmd).getD (s, cmd)
  | .copyS2x .. => s.encodeCopy c cmd
  | _ => s.moveLines c orphan cmd (List.range cmd.lines)

/-- A command whose completion's steps at its ring have been made. -/
def State.landCmd (s : State) (c : Nat) (orphan : Bool) (cmd : Command) : State :=
  match cmd.slot with
  | some (n, _) => if orphan then s else s.modCtx c fun x => x.modRing n RingState.count1
  | none => s

/-- Whether a core replays, so that what a command does to its context waits for its entry (R389). -/
def State.replays (s : State) (c pos : Nat) : Bool := decide (pos < 32) && (s.core c).watch.rplLive == 2

/-- COPY_COMPLETION (R129): the command at a place of a core's queue lands, and the steps of its completion follow, once its bytes are
performed at their homes, every earlier reservation and chained word has been made, and its barrier's home takes it. In a replay the
barrier or flag is reached, and the context sees the completion with its entry (R389). -/
def execCopyCompletion (c pos : Nat) (s : State) : Out State :=
  match s.cmdAt c pos with
  | none => .next s
  | some cmd =>
    let orphan := decide (32 ≤ pos)
    if ¬ cmd.started ∨ cmd.landed ∨ cmd.hit ∨ isSnap cmd.instr ∨ (s.core c).dbg.stopped then .next s
    else
      let a := s.moveRest c orphan cmd
      if ¬ a.2.allMoved ∨ ¬ a.1.performedAll a.2.id ∨ a.1.mustWait c pos a.2 then .next (a.1.setCmd c pos a.2)
      else if s.replays c pos then
        let b := a.1.hitTarget c orphan a.2
        .next (if b.2 then b.1.setCmd c pos { a.2 with hit := true } else ({ a.1 with quads := b.1.quads }).setCmd c pos a.2)
      else
        let cmd1 := { a.2 with counted := true, landed := true }
        let b := (a.1.landCmd c orphan a.2).hitTarget c orphan cmd1
        if b.2 then .next (b.1.afterLanding c pos cmd1) else .next (({ a.1 with quads := b.1.quads }).setCmd c pos a.2)

/-- Whether the command at a place of a replaying core's queue has truly completed and its context can see it (R389). -/
def State.mayFinish (s : State) (c pos : Nat) : Bool :=
  match s.cmdAt c pos with
  | some cmd => cmd.hit && (!cmd.chained || (s.ctx c).links.chainRoom)
  | none => false

/-- The steps of a completion that a replaying core's context sees, made with the completion's entry (R389). -/
def State.finishCmd (s : State) (c pos : Nat) : State :=
  match s.cmdAt c pos with
  | some cmd => (s.landCmd c false cmd).afterLanding c pos { cmd with counted := true, landed := true }
  | none => s

/-- COPY_MX_CHAINED_PUSH (R137): the oldest landed `copy.mx` of a core makes its chained push, once there is room; a stopped core makes none
(R376). -/
def execCopyMxChainedPush (c : Nat) (s : State) : Out State :=
  if ¬ (s.core c).hasLive ∨ (s.core c).dbg.stopped then .next s
  else
    match (s.ctx c).eng.cmds.findIdx? fun k => k.chained && k.landed with
    | some pos =>
      match s.cmdAt c pos with
      | some cmd => .next (s.afterLanding c pos cmd)
      | none => .next s
    | none => .next s

/-- KBC_RELAYOUT (R141): a locked page has been laid out again with the smallest class that fits all its blocks, and unlocks. -/
def execKbcRelayout (quad page : Nat) (s : State) : Out State :=
  let key := clusKey quad (65536 * page)
  let p := s.page key
  if p.locked then .next (s.modPage key fun p => { p with locked := false, cls := Nat.max p.cls p.want, want := 0 }) else .next s

/-- The commands of a context that ends (R122): they run on, with the source bytes that lie in its slice taken as they stand, uncorrectable
lines marked. Chained pushes are dropped with it, and hold nothing back (R137). -/
def State.orphan (s : State) (c : Nat) : State :=
  let keep := fun (cmd : Command) =>
    let cmd := { cmd with chained := false }
    match placeOf cmd.src with
    | .pool o =>
      { cmd with kept := some (s.bytesAt c (.scr o) cmd.len)
                 keptBad := (List.range cmd.lines).filter fun i => s.uncorrAt c (.scr (o + 64 * i)) 64 }
    | _ => cmd
  let left := fun (g : Engine) => (g.cmds.filter fun cmd => !(cmd.chained && cmd.landed)).map keep
  (s.modCore c fun k => { k with orphans := k.orphans ++ left k.live.eng }).modEng c fun g =>
    { g with cmds := [], waiting := none }

/-! ### Snapshots (R149, R150) -/

/-- Field k of a snapshot's descriptor. (DEDUCED, log entry 33.) -/
def snapField (desc : List Word) (k : Nat) : Word := (desc[k]?).getD 0

/-- The descriptor's own checks (R149): no zero field, and each aligned and of its class. (DEDUCED, log entry 33.) -/
def snapFault (desc : List Word) : Option (Cause × Word) :=
  let f := snapField desc
  if f 0 = 0 ∨ f 1 = 0 ∨ f 2 = 0 ∨ f 3 = 0 ∨ f 4 = 0 then some (.illegal, 0)
  else if (f 0).toNat % 4096 ≠ 0 then some (.align, f 0)
  else if (f 2).toNat % 64 ≠ 0 then some (.align, f 2)
  else if (f 3).toNat % 64 ≠ 0 then some (.align, f 3)
  else
    if ¬ isGlobal (f 0) then some (.addr, f 0)
    else if ¬ isGlobal (f 2) then some (.addr, f 2)
    else if ¬ isGlobal (f 3) then some (.addr, f 3)
    else none

/-- CP_SNAP (R149): the descriptor is read and its extents held, and the command joins the queue. -/
def snapBody (a b : BitVec 5) (s : State) : Res :=
  let c := s.unit.core
  let addr := s.r a
  let target := s.r b
  match s.my.eng.waiting with
  | some cmd => if cmd.instr = .cpSnap a b then appendBody cmd none s else .stall .engine []
  | none =>
    if ¬ (isGlobal addr || isS addr) then .trap .addr addr
    else if isBarTarget target ∧ placeOf target = .bad then .trap .addr target
    else if addr.toNat % 64 ≠ 0 then .trap .align addr
    else if isBarTarget target ∧ target.toNat % 16 ≠ 0 then .trap .align target
    else
      match s.resolve c addr 64 true true with
      | .fault t e i => .trapIn t e i
      | .stall => .stall .engine []
      | .at s1 l =>
        if s1.waitsAt c l then .stall .engine []
        else if s1.uncorrAt c l 64 then .trapIn s1 .uncorr (uncorrInfo addr)
        else
          let bs := s1.bytesAt c l 64
          let desc := (List.range 8).map fun i => BitVec.ofNat 64 (leNat ((bs.drop (8 * i)).take 8))
          match snapFault desc with
          | some (e, i) => .trapIn s1 e i
          | none =>
            match (if isBarTarget target then s1.windowFault c target barExtent else none) with
            | some (e, i) => .trapIn s1 e i
            | none =>
              let n := (snapField desc 1).toNat
              match (s1.touched c l 64).holdAll c
                  [(0, snapField desc 0, 4096 * n, true, false), (3, snapField desc 2, 32 * n, true, true),
                   (4, snapField desc 3, Nat.max 64 (snapField desc 4).toNat, false, true), (1, addr, 64, true, true),
                   (2, if isBarTarget target then target else 0xFE000000000000, barExtent, true, true)] with
              | .error none => .stall .engine []
              | .error (some (t, e, i)) => .trapIn t e i
              | .ok (s2, hs) =>
                appendBody { newCommand (.cpSnap a b) [addr, snapField desc 0, 0, 0] (4096 * n) target hs (s.aim c) with desc := desc }
                  none s2

/-- CP_SNAP (R149). -/
def execCpSnap (a b : BitVec 5) (s : State) : Out State := issue (.cpSnap a b) (snapBody a b) s

/-- What a snapshot does with a block whose bytes it has read (R150): what it writes, and the command after. An entry of a block with an
uncorrectable line becomes all ones, whether or not it is emitted. -/
def Command.snapOf (cmd : Command) (bs : List Byte) (bad : List Nat) (entry : List Byte) : List (Nat × Word × List Byte) × Command :=
  let j := cmd.block
  let f := snapField cmd.desc
  let cmd1 := bad.foldl (fun cmd i => cmd.meetBad (plus (f 0) (4096 * j + 64 * i))) cmd
  let h := (sha384 bs).take 32
  let next := { cmd1 with block := j + 1 }
  let enter := fun (bs : List Byte) => [(3, plus (f 2) (32 * j), bs)]
  let again := if bad = [] then [] else enter (List.replicate 32 0xFF#8)
  if h = entry ∨ bit cmd1.status 18 then (again, next)
  else if (f 4).toNat - 64 < cmd1.written + 4160 then (again, { next with status := setStatus cmd1.status 18 })
  else
    let rec_ := leBytes 8 j ++ h ++ List.replicate 24 0#8 ++ bs
    ((pieces 64 66 rec_).zipIdx.map (fun p => (4, plus (f 3) (64 + cmd1.written + 64 * p.2), p.1)) ++ (if bad = [] then enter h else again),
      { next with written := cmd1.written + 4160, emitted := cmd1.emitted + 1 })

/-- One block of a snapshot (R150), unless a home must apply earlier writes first. A hash-table entry in an uncorrectable line differs
from every hash, and its line is reported (R351). (DEDUCED, log entry 125.) -/
def State.snapBlock (s : State) (c : Nat) (orphan : Bool) (cmd : Command) : State × Command :=
  let f := snapField cmd.desc
  match s.readExtent c cmd 0 (plus (f 0) (4096 * cmd.block)) 64, cmd.placeAt c 3 (plus (f 2) (32 * cmd.block)) with
  | some (s1, bs, bad), some l =>
    if ¬ s1.open_ c l then (s, cmd)
    else
      let r := s1.readFor c l 32
      let e := (if r.2.2 then cmd.meetBad (plus (f 2) (cmd.block / 2 * 64)) else cmd).snapOf bs bad (if r.2.2 then [] else r.2.1)
      let a := r.1.writeAt c orphan cmd e.1
      if a.2 then (a.1, e.2) else (s, cmd)
  | _, _ => (s, cmd)

/-- What a snapshot writes last (R150): the header of its output, and the two counts into its descriptor. -/
def Command.snapEnd (cmd : Command) : List (Nat × Word × List Byte) :=
  let f := snapField cmd.desc
  [(4, f 3, leBytes 8 (f 5).toNat ++ leBytes 8 (f 1).toNat ++ leBytes 8 cmd.emitted ++ List.replicate 40 0#8),
   (1, plus cmd.dst 48, leBytes 8 cmd.emitted ++ leBytes 8 (64 + cmd.written))]

/-- SNAPSHOT_COMPLETION (R150): the unit visits the blocks that are left, writes the header and the two counts, and completes once all of it
is performed at its homes. -/
def execSnapshotCompletion (c pos : Nat) (s : State) : Out State :=
  match s.cmdAt c pos with
  | none => .next s
  | some cmd =>
    let f := snapField cmd.desc
    let orphan := decide (32 ≤ pos)
    let finish := fun (s : State) (cmd : Command) =>
      if ¬ s.performedAll cmd.id then s.setCmd c pos cmd
      else
        let b := s.hitTarget c orphan cmd
        if ¬ b.2 then ({ s with quads := b.1.quads }).setCmd c pos cmd
        else if s.replays c pos then b.1.setCmd c pos { cmd with hit := true }
        else b.1.endCmd c pos cmd
    if ¬ isSnap cmd.instr ∨ cmd.hit ∨ (s.core c).dbg.stopped then .next s
    else if cmd.landed then .next (finish s cmd)
    else
      let b := iterate ((f 1).toNat - cmd.block) (fun _ a => a.1.snapBlock c orphan a.2) (s, { cmd with started := true })
      let a := (b.1.countSnap c orphan (64 * (b.2.block - cmd.block)), b.2)
      if a.2.block < (f 1).toNat then .next (a.1.setCmd c pos a.2)
      else
        let w := a.1.writeAt c orphan a.2 a.2.snapEnd
        .next (if w.2 then finish w.1 { a.2 with landed := true } else a.1.setCmd c pos a.2)

end Sys2Proof.Machine
end

