-- ==== Sys2Proof/Machine/Float.lean ====
section
/-! DEFINITION. Numbers: the element formats (R220 to R225), exact values, rounding (R226, R227), conversion between types (R228),
and the functions of R205, each rounded once from its exact value. -/
namespace Sys2Proof.Machine

/-! ### Formats -/

/-- A signed floating format: its width, its fraction bits, its bias, the largest finite magnitude code, the code of infinity
where there is one, and the canonical NaN (R193, R220, R221); E2M1 writes 0 for a NaN (R227). -/
structure Fmt where
  width : Nat
  frac : Nat
  bias : Nat
  largest : Nat
  inf : Option Nat
  nan : Nat
  deriving DecidableEq, Repr

/-- FP32. -/
def fp32 : Fmt := { width := 32, frac := 23, bias := 127, largest := 0x7F7FFFFF, inf := some 0x7F800000, nan := 0x7FC00000 }

/-- FP16. -/
def fp16 : Fmt := { width := 16, frac := 10, bias := 15, largest := 0x7BFF, inf := some 0x7C00, nan := 0x7E00 }

/-- BF16. -/
def bf16 : Fmt := { width := 16, frac := 7, bias := 127, largest := 0x7F7F, inf := some 0x7F80, nan := 0x7FC0 }

/-- FP8 E4M3. -/
def e4m3 : Fmt := { width := 8, frac := 3, bias := 7, largest := 0x7E, inf := none, nan := 0x7F }

/-- FP8 E5M2. -/
def e5m2 : Fmt := { width := 8, frac := 2, bias := 15, largest := 0x7B, inf := some 0x7C, nan := 0x7E }

/-- FP4 E2M1. -/
def e2m1 : Fmt := { width := 4, frac := 1, bias := 1, largest := 7, inf := none, nan := 0 }

/-- FP64. -/
def fp64 : Fmt :=
  { width := 64, frac := 52, bias := 1023, largest := 0x7FEFFFFFFFFFFFFF, inf := some 0x7FF0000000000000, nan := 0x7FF8000000000000 }

/-- The format of a floating type code; FP32 for a code that is none. -/
def fmtOf (ty : Nat) : Fmt :=
  if ty = 2 then fp16 else if ty = 3 then bf16 else if ty = 4 then e4m3 else if ty = 5 then e5m2 else if ty = 6 then e2m1
  else if ty = 15 then fp64 else fp32

/-- The type of each part of a complex type (R225). -/
def partType (ty : Nat) : Nat := if ty = 13 then 3 else 1

/-! ### Exact values -/

/-- An exact value: a signed dyadic number, a zero keeping its sign, an infinity, or a NaN. -/
inductive Num where
  | fin (neg : Bool) (m : Nat) (e : Int)
  | inf (neg : Bool)
  | nan
  deriving DecidableEq, Repr

/-- +0. -/
def Num.zero : Num := .fin false 0 0

/-- An integer. -/
def Num.ofInt (i : Int) : Num := .fin (decide (i < 0)) i.natAbs 0

/-- A signed magnitude at an exponent no larger than its own. -/
def scaled (neg : Bool) (m : Nat) (e g : Int) : Int :=
  let x : Int := m * 2 ^ (e - g).toNat
  if neg then -x else x

/-- The value with its sign inverted; a NaN stays one. -/
def Num.neg : Num → Num
  | .fin s m e => .fin (!s) m e
  | .inf s => .inf (!s)
  | .nan => .nan

/-- The magnitude. -/
def Num.abs : Num → Num
  | .fin _ m e => .fin false m e
  | .inf _ => .inf false
  | .nan => .nan

/-- The exact sum (R193, R226). -/
def Num.add : Num → Num → Num
  | .fin s m e, .fin t n f =>
    let g := if e ≤ f then e else f
    let x := scaled s m e g + scaled t n f g
    if x = 0 then .fin (s && t) 0 0 else .fin (decide (x < 0)) x.natAbs g
  | .nan, _ | _, .nan => .nan
  | .inf s, .inf t => if s = t then .inf s else .nan
  | .inf s, .fin .. => .inf s
  | .fin .., .inf t => .inf t

/-- The exact product (R193, R226). -/
def Num.mul : Num → Num → Num
  | .fin s m e, .fin t n f => .fin (s != t) (m * n) (e + f)
  | .nan, _ | _, .nan => .nan
  | .inf s, .inf t => .inf (s != t)
  | .inf s, .fin t n _ => if n = 0 then .nan else .inf (s != t)
  | .fin s m _, .inf t => if m = 0 then .nan else .inf (s != t)

/-- The exact difference. -/
def Num.sub (a b : Num) : Num := a.add b.neg

/-- A value times 2^e. -/
def Num.scale (x : Num) (e : Int) : Num :=
  match x with
  | .fin s m f => .fin s m (f + e)
  | y => y

/-- Whether a value is a NaN. -/
def Num.isNan : Num → Bool
  | .nan => true
  | _ => false

/-- Whether a value is finite. -/
def Num.finite : Num → Bool
  | .fin .. => true
  | _ => false

/-- Whether a value is a zero. -/
def Num.isZero : Num → Bool
  | .fin _ m _ => m == 0
  | _ => false

/-- The sign bit of a value. -/
def Num.isNeg : Num → Bool
  | .fin s _ _ | .inf s => s
  | .nan => false

/-- The order of two values, zeros equal; none where a value is a NaN. -/
def Num.cmp : Num → Num → Option Ordering
  | .nan, _ | _, .nan => none
  | .inf s, .inf t => some (if s = t then .eq else if s then .lt else .gt)
  | .inf s, .fin .. => some (if s then .lt else .gt)
  | .fin .., .inf t => some (if t then .gt else .lt)
  | .fin s m e, .fin t n f =>
    let g := if e ≤ f then e else f
    some (compare (scaled s m e g) (scaled t n f g))

/-- Whether a value is less than another, by the numbers alone. -/
def Num.lt (a b : Num) : Bool := a.cmp b == some .lt

/-- The smaller of two values, -0 below +0; a NaN gives a NaN (R196). -/
def Num.min (a b : Num) : Num :=
  match a.cmp b with
  | none => .nan
  | some .lt => a
  | some .gt => b
  | some .eq => if a.isNeg then a else b

/-- The larger of two values, +0 above -0; a NaN gives a NaN (R196). -/
def Num.max (a b : Num) : Num :=
  match a.cmp b with
  | none => .nan
  | some .lt => b
  | some .gt => a
  | some .eq => if a.isNeg then b else a

/-- The numerator and denominator of a magnitude m * 2^e. -/
def frac (m : Nat) (e : Int) : Nat × Nat := if 0 ≤ e then (m * 2 ^ e.toNat, 1) else (m, 2 ^ (-e).toNat)

/-! ### Rounding (R226, R227): modes 0 RNE, 1 RTZ, 2 RDN, 3 RUP -/

/-- Whether a magnitude is rounded away from zero: n units and r / b of the next. -/
def roundsUp (mode : Nat) (neg : Bool) (n r b : Nat) : Bool :=
  if mode = 0 then decide (b < 2 * r) || (2 * r == b && n % 2 == 1)
  else if mode = 2 then neg && r != 0
  else if mode = 3 then !neg && r != 0
  else false

/-- A magnitude num / den in units of 2^q, rounded. -/
def roundUnits (mode : Nat) (neg : Bool) (num den : Nat) (q : Int) : Nat :=
  let a := if 0 ≤ q then num else num * 2 ^ (-q).toNat
  let b := if 0 ≤ q then den * 2 ^ q.toNat else den
  a / b + ofBool (roundsUp mode neg (a / b) (a % b) b)

/-- The exponent k with 2^k ≤ num / den < 2^(k+1), for a non-zero numerator. -/
def exponentOf (num den : Nat) : Int :=
  let d : Int := (Nat.log2 num : Int) - (Nat.log2 den : Int)
  let ge := if 0 ≤ d then decide (den * 2 ^ d.toNat ≤ num) else decide (den ≤ num * 2 ^ (-d).toNat)
  if ge then d else d - 1

/-- The magnitude code of num / den rounded on a format's grid, its exponent range unbounded above (R226). -/
def roundCode (f : Fmt) (mode : Nat) (neg : Bool) (num den : Nat) : Nat :=
  if num = 0 then 0
  else
    let low : Int := 1 - (f.bias : Int)
    let k := exponentOf num den
    let e := if k ≤ low then low else k
    (e - low).toNat * 2 ^ f.frac + roundUnits mode neg num den (e - (f.frac : Int))

/-- The sign bit of a format. -/
def signOf (f : Fmt) (neg : Bool) : Nat := if neg then 2 ^ (f.width - 1) else 0

/-- The magnitude code of an overflow (R227). -/
def overflowCode (f : Fmt) (mode : Nat) (neg : Bool) : Nat :=
  match f.inf with
  | some i => if mode = 0 ∨ (mode = 2 ∧ neg) ∨ (mode = 3 ∧ ¬ neg) then i else f.largest
  | none => f.largest

/-- A magnitude num / den with a sign, rounded to a format (R226, R227); E2M1 has no negative zero. (DEDUCED, log entry 94.) -/
def encodeRatio (f : Fmt) (mode : Nat) (neg : Bool) (num den : Nat) : Nat :=
  let c := roundCode f mode neg num den
  if f.largest < c then overflowCode f mode neg + signOf f neg
  else if c = 0 ∧ f.width = 4 then 0
  else c + signOf f neg

/-- An exact value rounded to a format (R226, R227). -/
def encode (f : Fmt) (mode : Nat) : Num → Nat
  | .nan => f.nan
  | .inf s => f.inf.getD f.largest + signOf f s
  | .fin s m e => encodeRatio f mode s (frac m e).1 (frac m e).2

/-- The exact value of a code (R220 to R222); an E2M1 escape reads as a NaN (R199). -/
def decode (f : Fmt) (code : Nat) : Num :=
  let neg := code / 2 ^ (f.width - 1) % 2 == 1
  let mag := code % 2 ^ (f.width - 1)
  if f.width = 4 ∧ neg ∧ mag = 0 then .nan
  else if f.largest < mag then (if f.inf = some mag then .inf neg else .nan)
  else
    let e := mag / 2 ^ f.frac
    let m := mag % 2 ^ f.frac
    if e = 0 then .fin neg m (1 - (f.bias : Int) - (f.frac : Int))
    else .fin neg (2 ^ f.frac + m) ((e : Int) - (f.bias : Int) - (f.frac : Int))

/-- A value rounded once to FP32, as the value of the code (R229). -/
def rne32 (x : Num) : Num := decode fp32 (encode fp32 0 x)

/-! ### Types -/

/-- The least value of an integer type. -/
def intLow (ty : Nat) : Int := if isSigned ty then -(2 ^ (elemBits ty - 1) : Nat) else 0

/-- The greatest value of an integer type. -/
def intHigh (ty : Nat) : Int := if isSigned ty then (2 ^ (elemBits ty - 1) : Nat) - 1 else (2 ^ elemBits ty : Nat) - 1

/-- A number brought into the range of an integer type. -/
def saturate (ty : Nat) (i : Int) : Int := if i < intLow ty then intLow ty else if intHigh ty < i then intHigh ty else i

/-- The pattern of an integer in an integer type, wrapping (R193). -/
def wrapInt (ty : Nat) (i : Int) : Nat := (i % (2 ^ elemBits ty : Nat)).toNat

/-- The number of a pattern of an integer type (R225). -/
def intOf (ty code : Nat) : Int := if isSigned ty then signed (elemBits ty) code else (code % 2 ^ elemBits ty : Nat)

/-- An exact value rounded to an integer, ties to even in RNE (R226). -/
def roundInt (mode : Nat) (neg : Bool) (m : Nat) (e : Int) : Int :=
  let n := roundUnits mode neg (frac m e).1 (frac m e).2 0
  if neg then -(n : Int) else n

/-- The exact value of an element of a real or integer type. -/
def valueOf (ty code : Nat) : Num := if isInt ty then .ofInt (intOf ty code) else decode (fmtOf ty) code

/-- The element of a real or integer type nearest a value in a mode (R227): integers saturate, and a NaN gives integer 0. -/
def elementOf (ty mode : Nat) (x : Num) : Nat :=
  if isInt ty then
    match x with
    | .nan => 0
    | .inf s => wrapInt ty (if s then intLow ty else intHigh ty)
    | .fin s m e => wrapInt ty (saturate ty (roundInt mode s m e))
  else encode (fmtOf ty) mode x

/-- The real and the imaginary part of a complex element (R225). -/
def partsOf (ty code : Nat) : Num × Num :=
  let h := elemBits ty / 2
  (decode (fmtOf (partType ty)) (code % 2 ^ h), decode (fmtOf (partType ty)) (code / 2 ^ h % 2 ^ h))

/-- A complex element from its parts, each rounded in a mode. -/
def ofParts (ty mode : Nat) (re im : Num) : Nat :=
  encode (fmtOf (partType ty)) mode re + 2 ^ (elemBits ty / 2) * encode (fmtOf (partType ty)) mode im

/-- One element converted from a type to another in a mode (R199, R228). -/
def convert (ty u mode code : Nat) : Nat :=
  if isComplex ty then
    let p := partsOf ty code
    ofParts u mode p.1 p.2
  else elementOf u mode (valueOf ty code)

/-- A literal's element (R51). -/
def literal (ty ix : Nat) : Nat :=
  let v : Int := if isInt ty && !isSigned ty then ix % 64 else signed 6 ix
  if isInt ty then wrapInt ty v
  else if isComplex ty then ofParts ty 0 (.ofInt v) .zero
  else encode (fmtOf ty) 0 (.ofInt v)

/-! ### Block scales (R200, R223) -/

/-- An E3M5 scale as a number of 128ths (R223). -/
def scaleUnits (code : Nat) : Nat :=
  let e := code / 32 % 8
  let m := code % 32
  if e = 0 then m else (32 + m) * 2 ^ (e - 1)

/-- An E3M5 scale (R223). -/
def scaleValue (code : Nat) : Num := .fin false (scaleUnits code) (-7)

/-- A quotient of the block-scale rule: its sign and its magnitude num / den. -/
structure Quot5 where
  neg : Bool
  num : Nat
  den : Nat
  deriving DecidableEq, Repr

/-- x / g for finite values, g not zero (R200). -/
def quotient (x g : Num) : Quot5 :=
  match x, g with
  | .fin s m e, .fin t n f =>
    let a := frac m e
    let b := frac n f
    { neg := s != t, num := a.1 * b.2, den := a.2 * b.1 }
  | _, _ => { neg := false, num := 0, den := 1 }

/-- The larger magnitude of two quotients. -/
def Quot5.max (a b : Quot5) : Quot5 := if a.num * b.den < b.num * a.den then b else a

/-- The scale code of a block whose greatest quotient is num / den (R200). -/
def scaleCode (q : Quot5) : Nat :=
  if q.num = 0 then 0
  else if 189 * q.den < q.num then 0xFF
  else ((List.range 256).find? fun c => decide (q.num * 128 ≤ 6 * scaleUnits c * q.den)).getD 0xFF

/-- The E2M1 code of a quotient under a scale, in a mode (R200). -/
def quantCode (mode scale : Nat) (q : Quot5) : Nat :=
  if scaleUnits scale = 0 then 0 else encodeRatio e2m1 mode q.neg (q.num * 128) (q.den * scaleUnits scale)

/-! ### Functions rounded once (R205) -/

/-- The integer square root, by bits from the highest. -/
def isqrtFrom (x : Nat) : Nat → Nat → Nat
  | 0, r => r
  | b + 1, r => isqrtFrom x b (if (r + 2 ^ b) * (r + 2 ^ b) ≤ x then r + 2 ^ b else r)

/-- The integer square root. -/
def isqrt (x : Nat) : Nat := isqrtFrom x (Nat.log2 x / 2 + 1) 0

/-- Σ a^(2k+1) / (2k+1), k below n, in units of 2^-p, from a term t = a^(2k+1) and a² in units of 2^-p: twice the sum is the
logarithm of (1 + a) / (1 - a). -/
def atanhSum (p a2 : Nat) : Nat → Nat → Nat → Nat
  | 0, _, _ => 0
  | n + 1, k, t => t / (2 * k + 1) + atanhSum p a2 n (k + 1) (t * a2 / 2 ^ p)

/-- ln m in units of 2^-p, for m = num / den in [1, 2]; the error is below 2p + 8 units. -/
def lnUnits (p num den : Nat) : Nat :=
  let a := (num - den) * 2 ^ p / (num + den)
  2 * atanhSum p (a * a / 2 ^ p) p 0 a

/-- Σ y^k / k!, from the k-th term t, in units of 2^-p. -/
def expSum (p y : Nat) : Nat → Nat → Nat → Nat
  | 0, _, _ => 0
  | n + 1, k, t => t + expSum p y n (k + 1) (t * y / (2 ^ p * (k + 1)))

/-- 2^f in units of 2^-p, for f in [0, 1) in units of 2^-p; the error is below 2^20 p units. -/
def exp2Units (p f : Nat) : Nat := expSum p (f * lnUnits p 2 1 / 2 ^ p) p 0 (2 ^ p)

/-- An approximation v with error below w, in units of 2^-p times 2^n: what both ends round to, if they round alike. -/
def settleEnds (f : Fmt) (neg : Bool) (v w p : Nat) (n : Int) : Option Nat :=
  let q := frac 1 (n - (p : Int))
  let lo := encodeRatio f 0 neg ((v - w) * q.1) q.2
  let hi := encodeRatio f 0 neg ((v + w) * q.1) q.2
  if lo = hi then some lo else none

/-- A rounding tried at precisions that double until both ends of the approximation round alike; the last try's middle is
taken if none settles. (DEDUCED, log entry 56.) -/
def retryPrecision (attempt : Nat → Option Nat) (last : Nat) : Nat → Nat → Nat
  | 0, _ => last
  | n + 1, p => (attempt p).getD (retryPrecision attempt last n (2 * p))

/-- A signed dyadic value times 2^p, rounded down. -/
def floorUnits (neg : Bool) (m : Nat) (e : Int) (p : Nat) : Int :=
  let q := frac m (e + (p : Int))
  let x : Int := (q.1 : Int) / (q.2 : Int)
  if neg then (if q.1 % q.2 = 0 then -x else -x - 1) else x

/-- 2^x for a finite x, in a format (R205). -/
def exp2Code (f : Fmt) (neg : Bool) (m : Nat) (e : Int) : Nat :=
  let q := frac m e
  let big := decide (2000 * q.2 ≤ q.1)
  if m = 0 then encodeRatio f 0 false 1 1
  else if big ∧ neg then 0
  else if big then overflowCode f 0 false
  else
    let n := floorUnits neg m e 0
    if q.1 % q.2 = 0 then encodeRatio f 0 false (frac 1 n).1 (frac 1 n).2
    else
      let attempt := fun p => settleEnds f false (exp2Units p (floorUnits neg m e p - n * (2 ^ p : Nat)).toNat) (2 ^ 24 * p) p n
      retryPrecision attempt (encodeRatio f 0 false (frac 1 n).1 (frac 1 n).2) 8 128

/-- log2 x for a finite positive x, in a format (R205). -/
def log2Code (f : Fmt) (m : Nat) (e : Int) : Nat :=
  let k := Nat.log2 m
  let n : Int := e + (k : Int)
  if m = 2 ^ k then encode f 0 (.ofInt n)
  else
    let attempt := fun p =>
      let v : Int := n * (2 ^ p : Nat) + ((lnUnits p m (2 ^ k) * 2 ^ p / lnUnits p 2 1 : Nat) : Int)
      if v.natAbs ≤ 16 * p + 64 then none else settleEnds f (decide (v < 0)) v.natAbs (16 * p + 64) p 0
    retryPrecision attempt (encode f 0 (.ofInt n)) 8 128

/-- 1 / sqrt x for a finite positive x, in a format (R205): the root is exact, or lies strictly between two neighbours that are
closer than any two codes' midpoints. -/
def rsqrtCode (f : Fmt) (m : Nat) (e : Int) : Nat :=
  let q := frac m e
  let x := q.2 * 2 ^ 2048
  let r := isqrt (x / q.1)
  if r * r * q.1 = x then encodeRatio f 0 false r (2 ^ 1024) else encodeRatio f 0 false (2 * r + 1) (2 ^ 1025)

/-- e^y as a number in units of 2^-p times 2^n, for y in units of 2^-p (n, then the number); the error is below 2^20 p units. -/
def expUnits (p : Nat) (y : Int) : Int × Nat :=
  let l : Int := lnUnits p 2 1
  let n := y / l
  (n, expSum p (y - n * l).toNat p 0 (2 ^ p))

/-- A quotient a / (a + b) whose parts are known to within w of the first: what both ends round to, if they round alike. -/
def settleRatio (f : Fmt) (neg : Bool) (num den wn wd : Nat) : Option Nat :=
  let lo := encodeRatio f 0 neg (num - wn) (den + wd)
  let hi := encodeRatio f 0 neg (num + wn) (den - wd)
  if lo = hi then some lo else none

/-- tanh x for a finite x that is not 0, in a format (R205): (e^2|x| - 1) / (e^2|x| + 1) with the sign of x. Below 2^-40 it
rounds to x, and from 64 on to 1. -/
def tanhCode (f : Fmt) (neg : Bool) (m : Nat) (e : Int) : Nat :=
  let q := frac m e
  if q.1 * 2 ^ 40 < q.2 then encodeRatio f 0 neg q.1 q.2
  else if 64 * q.2 ≤ q.1 then encodeRatio f 0 neg 1 1
  else
    let attempt := fun p =>
      let r := expUnits p (2 * floorUnits false m e p)
      let w := 2 ^ 24 * p * 2 ^ r.1.toNat
      let x := r.2 * 2 ^ r.1.toNat
      settleRatio f neg (x - 2 ^ p) (x + 2 ^ p) w w
    retryPrecision attempt (encodeRatio f 0 neg q.1 q.2) 8 256

/-- 1 / (1 + e^-x) for a finite x that is not 0, in a format (R205): e^x / (1 + e^x), with e^x at most 1 by symmetry. From 64 on it
rounds to 1, and below -1000 to 0. -/
def sigmCode (f : Fmt) (neg : Bool) (m : Nat) (e : Int) : Nat :=
  let q := frac m e
  if ¬ neg ∧ 64 * q.2 ≤ q.1 then encodeRatio f 0 false 1 1
  else if neg ∧ 1000 * q.2 ≤ q.1 then 0
  else
    let attempt := fun p =>
      let r := expUnits p (floorUnits true m e p)
      let k := (-r.1).toNat
      let one := 2 ^ (p + k)
      let w := 2 ^ 24 * p
      if neg then settleRatio f false r.2 (one + r.2) w w else settleRatio f false one (one + r.2) 0 w
    retryPrecision attempt (encodeRatio f 0 false 1 2) 8 256

/-- The functions of major 40. -/
inductive Special where
  | exp2 | log2 | rcp | rsqrt | tanh | sigm
  deriving DecidableEq, Repr

/-- A function of R205 on an element of a floating type, with the special values of its table. (DEDUCED, log entry 56.) -/
def special (k : Special) (ty code : Nat) : Nat :=
  let f := fmtOf ty
  let out := encode f 0
  let one : Num := .fin false 1 0
  match k, decode f code with
  | _, .nan => f.nan
  | .exp2, .inf s => if s then out .zero else out (.inf false)
  | .exp2, .fin s m e => exp2Code f s m e
  | .log2, .inf s => if s then f.nan else out (.inf false)
  | .log2, .fin s m e => if m = 0 then out (.inf true) else if s then f.nan else log2Code f m e
  | .rcp, .inf s => out (.fin s 0 0)
  | .rcp, .fin s m e => if m = 0 then out (.inf s) else encodeRatio f 0 s (frac m e).2 (frac m e).1
  | .rsqrt, .inf s => if s then f.nan else out .zero
  | .rsqrt, .fin s m e => if m = 0 then out (.inf s) else if s then f.nan else rsqrtCode f m e
  | .tanh, .inf s => out (if s then one.neg else one)
  | .tanh, .fin s m e => if m = 0 then out (.fin s 0 0) else tanhCode f s m e
  | .sigm, .inf s => if s then out .zero else out one
  | .sigm, .fin s m e => if m = 0 then encodeRatio f 0 false 1 2 else sigmCode f s m e

end Sys2Proof.Machine
end

