-- ==== Sys2Proof/Machine/Vector.lean ====
section
/-! DEFINITION. The vector instructions of MX (R189 to R212): operands, enables and landings, element arithmetic, conversion and
quantisation, compares and masks, reductions, special functions, top-k, lane and queue moves, tile configuration and slices. -/
namespace Sys2Proof.Machine

/-! ### Operands -/

/-- A check that may trap, with its cause and EINFO. -/
abbrev Check (α : Type) := Except (Cause × Word) α

/-- A check passed on to a body. (DEDUCED, log entry 51.) -/
def Check.body {α : Type} (m : Check α) (f : α → Res) : Res :=
  match m with
  | .ok a => f a
  | .error e => .trap e.1 e.2

/-- A condition that must hold, else ILLEGAL. -/
def legal (b : Bool) : Check Unit := if b then .ok () else .error (.illegal, 0)

/-- The TILE row a vector name reaches, TILE_UNCONF outside TILE (R66, R189). -/
def State.vname (s : State) (k : Nat) : Check Nat :=
  let r := s.my.vrow k
  if r < (s.core s.unit.core).liveSl.tileRows then .ok r else .error (.tileUnconf, rowInfo r)

/-- A constant row, CONST_UNCONF in an empty bank (R52). -/
def State.vconst (s : State) (k : Nat) : Check Row :=
  if (s.core s.unit.core).liveSl.constg = 0 then .error (.constUnconf, 0) else .ok ((s.core s.unit.core).constRow k)

/-- A row as its elements of w bits. -/
def lanes (w : Nat) (r : Row) : List Nat := (List.range (8192 / w)).map fun i => bits r.toNat (w * i + w - 1) (w * i)

/-- A row from its elements of w bits. -/
def ofElems (w : Nat) (l : List Nat) : Row := BitVec.ofNat 8192 (l.foldr (fun x a => x % 2 ^ w + 2 ^ w * a) 0)

/-- A row whose enabled elements are all ones. -/
def enableRow (w : Nat) (l : List Bool) : Row := ofElems w (l.map fun b => if b then 2 ^ w - 1 else 0)

/-- A row operand of kind 00 or 10, with its TILE row where it has one; another kind is ILLEGAL (R208, R209, R211). -/
def State.rowOperand (s : State) (a : BitVec 8) : Check (Row × Option Nat) :=
  if kindOf a = 0 then (s.vname (indexOf a)).map fun r => ((s.core s.unit.core).tileRow r, some r)
  else if kindOf a = 2 then (s.vconst (indexOf a)).map fun r => (r, none)
  else .error (.illegal, 0)

/-- A source operand's elements, with its TILE row where it has one (R51). -/
def State.source (s : State) (ty : Nat) (a : BitVec 8) : Check (List Nat × Option Nat) :=
  let n := lanesOf ty
  if kindOf a = 1 then .ok (List.replicate n ((s.here.reg (indexOf a)).toNat % 2 ^ elemBits ty), none)
  else if kindOf a = 3 then .ok (List.replicate n (literal ty (indexOf a)), none)
  else (s.rowOperand a).map fun p => (lanes (elemBits ty) p.1, p.2)

/-- The active columns of a row under a type (R66). -/
def Ctx.active (x : Ctx) (r ty : Nat) : Nat :=
  match x.tileOf r with
  | some t => Nat.min (tshCols (x.shape t)) (lanesOf ty)
  | none => lanesOf ty

/-- MSEL of the running block (R54). -/
def State.msel (s : State) : Nat := bits s.here.hword.toNat 21 19

/-- A mask of a context. -/
def Ctx.mask (x : Ctx) (m : Nat) : BitVec 1024 := get 0#1024 x.loc.masks m

/-- Whether the block mask enables a lane of elements of a type (R58, R68). -/
def State.maskOn (s : State) (ty i : Nat) : Bool := s.msel = 0 || (s.my.mask s.msel).getLsbD (i * elemBits ty / 8)

/-- The enabled lanes of a destination row of a type: its active columns and, in a masked major, the block mask (R189). -/
def State.enables (s : State) (masked : Bool) (row : Option Nat) (ty : Nat) : List Bool :=
  let act := match row with
    | some r => s.my.active r ty
    | none => lanesOf ty
  (List.range (lanesOf ty)).map fun i => decide (i < act) && (!masked || s.maskOn ty i)

/-- The tags of a row (R192): whether it is spectral, and its LB and SEXP. -/
def Ctx.rowTags (x : Ctx) (r : Nat) : Bool × Nat × Int :=
  match x.tileOf r with
  | some t => (tshDom (x.shape t), tshLb (x.shape t), tshSexp (x.shape t))
  | none => (false, 0, 0)

/-- The domain check of R192 over the destination and source rows. -/
def State.domainCheck (s : State) (allowed : Bool) (rows : List (Option Nat)) : Check Unit :=
  let tags := (rows.filterMap id).map s.my.rowTags
  if (tags.any (·.1)) && !(allowed && tags.all fun t => tags.head? == some t) then .error (.domain, 0) else .ok ()

/-! ### Issue and landing (R190, R191) -/

/-- The live context of the running core with a result that lands so many cycles later. -/
def State.lands (s : State) (d : Nat) (l : Landing) : State :=
  s.modCtx s.unit.core fun x => { x with pend := x.pend ++ [{ own := .mx, ord := x.nextOrd, due := d, what := l }] }

/-- The vector unit occupied for so many cycles (R190). -/
def State.occupy (s : State) (n : Nat) : State := s.modMat s.unit.core fun m => { m with vbusy := n }

/-- A vector instruction issued: its result lands, it occupies the unit, and it retires with its landing (R190, R191); `.f64` forms
take two cycles more and occupy the unit for two. (DEDUCED, log entry 51.) -/
def State.vissue (s : State) (ty d occ : Nat) (l : Landing) : Res :=
  let d := if ty = 15 then d + 2 else d
  .done ((s.lands d l).occupy (if ty = 15 then 2 else occ)) d

/-- A body that waits while an earlier instruction occupies the vector unit (R190). -/
def vunit (body : State → Res) (s : State) : Res := if s.my.mat.vbusy ≠ 0 then .stall .engine [] else body s

/-- The pool byte at which a constant row begins. -/
def State.constAt (s : State) (i : Nat) : Nat := 1024 * (s.core s.unit.core).liveSl.constLine i

/-- The row that an operand names, by its first pool byte (R51). -/
def State.operandAt (s : State) (a : BitVec 8) : List Nat :=
  if kindOf a = 0 then [s.rowAt s.unit.core (s.my.vrow (indexOf a))] else if kindOf a = 2 then [s.constAt (indexOf a)] else []

/-- The rows of a tile, by their first pool bytes. -/
def State.tileAt (s : State) (t : Nat) : List Nat :=
  (List.range (tshRows (s.my.shape t))).map fun i => s.rowAt s.unit.core (tshBase (s.my.shape t) + i)

/-- A body of MX that reads rows of the pool as it issues: their check bits (R347). -/
def reads (rows : State → List Nat) (body : State → Res) (s : State) : Res :=
  match body s with
  | .done s1 lat => .done (s1.rowsRead s.unit.core (rows s) .mx) lat
  | r => r

/-- The landing of elements of a type in a row, under enables. -/
def rowLanding (r ty : Nat) (en : List Bool) (vals : List Nat) : Landing :=
  .row r (enableRow (elemBits ty) en) (ofElems (elemBits ty) vals)

/-- The landing of the low n bytes of a row. -/
def lowLanding (r n v : Nat) : Landing := .row r (BitVec.ofNat 8192 (2 ^ (8 * n) - 1)) (BitVec.ofNat 8192 v)

/-! ### Element arithmetic (R196 to R198) -/

/-- The lane-wise operations of majors 32 to 34. -/
inductive LaneOp where
  | add | sub | mul | min | max | abs | neg | mov | fma | fms | fnma | fnms | cmul | and | or | xor | shl | shr | sra | adds | subs
  deriving DecidableEq, Repr

/-- The types an operation accepts (R194). -/
def LaneOp.accepts (ty : Nat) : LaneOp → Bool
  | .add | .sub | .mul | .neg => isReal ty || ty == 15 || isInt ty || isComplex ty
  | .mov => isReal ty || ty == 15 || isInt ty || isComplex ty || ty == 6
  | .min | .max | .abs | .fma | .fms | .fnma | .fnms | .and | .or | .xor => isReal ty || ty == 15 || isInt ty
  | .cmul => isComplex ty
  | .shl | .shr | .sra | .adds | .subs => isInt ty

/-- Whether an operation may read or write spectral rows (R192). -/
def LaneOp.spectral : LaneOp → Bool
  | .add | .sub | .neg | .mov | .mul | .cmul => true
  | _ => false

/-- The latency of an operation (R190). -/
def LaneOp.latency (ty : Nat) : LaneOp → Nat
  | .mov | .abs | .neg | .and | .or | .xor | .shl | .shr | .sra | .adds | .subs => 2
  | .add | .sub | .mul | .min | .max => if isInt ty then 2 else 4
  | .fma | .fms | .fnma | .fnms | .cmul => 5

/-- Whether an operation reads D (R51). -/
def LaneOp.readsD : LaneOp → Bool
  | .fma | .fms | .fnma | .fnms | .cmul => true
  | _ => false

/-- An operation on integers, before it wraps (R196, R197). -/
def LaneOp.ints (a b d : Int) : LaneOp → Int
  | .add => a + b
  | .sub => a - b
  | .mul => a * b
  | .min => if b < a then b else a
  | .max => if a < b then b else a
  | .abs => a.natAbs
  | .neg => -a
  | .fma => a * b + d
  | .fms => a * b - d
  | .fnma => -(a * b) + d
  | .fnms => -(a * b) - d
  | _ => a

/-- A shift of a pattern of an integer type by an unsigned amount (R198). -/
def shifted (k : LaneOp) (ty a n : Nat) : Nat :=
  let w := elemBits ty
  match k with
  | .shl => if w ≤ n then 0 else a * 2 ^ n % 2 ^ w
  | .shr => if w ≤ n then 0 else a / 2 ^ n
  | _ => if isSigned ty then wrapInt ty (intOf ty a / (2 ^ (Nat.min n w) : Nat)) else if w ≤ n then 0 else a / 2 ^ n

/-- An operation on patterns of an integer type (R193, R196 to R198). -/
def LaneOp.intPattern (k : LaneOp) (ty a b d : Nat) : Nat :=
  match k with
  | .shl | .shr | .sra => shifted k ty a b
  | .adds => wrapInt ty (saturate ty (intOf ty a + intOf ty b))
  | .subs => wrapInt ty (saturate ty (intOf ty a - intOf ty b))
  | _ => wrapInt ty (k.ints (intOf ty a) (intOf ty b) (intOf ty d))

/-- An operation on exact floating values (R196, R197). -/
def LaneOp.nums (a b d : Num) : LaneOp → Num
  | .add => a.add b
  | .sub => a.sub b
  | .mul => a.mul b
  | .min => a.min b
  | .max => a.max b
  | .abs => a.abs
  | .neg => a.neg
  | .fma => (a.mul b).add d
  | .fms => (a.mul b).sub d
  | .fnma => (a.neg.mul b).add d
  | .fnms => (a.neg.mul b).sub d
  | _ => a

/-- The exact complex product (R196). -/
def complexMul (a b : Num × Num) : Num × Num := ((a.1.mul b.1).sub (a.2.mul b.2), (a.1.mul b.2).add (a.2.mul b.1))

/-- An operation on exact complex values (R196, R197). -/
def LaneOp.complex (a b d : Num × Num) : LaneOp → Num × Num
  | .mul => complexMul a b
  | .cmul => ((d.1.add (a.1.mul b.1)).sub (a.2.mul b.2), (d.2.add (a.1.mul b.2)).add (a.2.mul b.1))
  | k => (k.nums a.1 b.1 d.1, k.nums a.2 b.2 d.2)

/-- One element of an operation, from the patterns of A, B and D (R193, R196 to R198). -/
def LaneOp.elem (k : LaneOp) (ty a b d : Nat) : Nat :=
  match k with
  | .mov => a
  | .and => a &&& b
  | .or => a ||| b
  | .xor => a ^^^ b
  | _ =>
    if isInt ty then k.intPattern ty a b d
    else if isComplex ty then
      let r := k.complex (partsOf ty a) (partsOf ty b) (partsOf ty d)
      ofParts ty 0 r.1 r.2
    else encode (fmtOf ty) 0 (k.nums (decode (fmtOf ty) a) (decode (fmtOf ty) b) (decode (fmtOf ty) d))

/-- The elements of an operation, lane by lane. -/
def LaneOp.row (k : LaneOp) (ty : Nat) (a b d : List Nat) : List Nat :=
  (a.zip (b.zip d)).map fun p => k.elem ty p.1 p.2.1 p.2.2

/-- A lane-wise instruction of majors 32 to 34 (R189, R196 to R198); `b` is none for a form with one source. -/
def laneBody (k : LaneOp) (d : BitVec 6) (a : BitVec 8) (b : Option (BitVec 8)) : State → Res :=
  vunit <| reads (fun s => s.operandAt a ++ (b.map s.operandAt).getD [] ++ if k.readsD then [s.rowAt s.unit.core (s.my.vrow d.toNat)] else [])
  fun s =>
  let ty := s.unit.ty
  let c : Check Landing := do
    legal (k.accepts ty)
    let r ← s.vname d.toNat
    let x ← s.source ty a
    let y ← match b with
      | some b => s.source ty b
      | none => pure x
    s.domainCheck (k.spectral && isComplex ty) [some r, x.2, y.2]
    let old := lanes (elemBits ty) ((s.core s.unit.core).tileRow r)
    pure (rowLanding r ty (s.enables true (some r) ty) (k.row ty x.1 y.1 old))
  c.body fun l => s.vissue ty (k.latency ty) 1 l

/-- VADD (R196). -/
def execVadd (d : BitVec 6) (a b : BitVec 8) (s : State) : Out State := issue (.vadd d a b) (laneBody .add d a (some b)) s

/-- VSUB (R196). -/
def execVsub (d : BitVec 6) (a b : BitVec 8) (s : State) : Out State := issue (.vsub d a b) (laneBody .sub d a (some b)) s

/-- VMUL (R196). -/
def execVmul (d : BitVec 6) (a b : BitVec 8) (s : State) : Out State := issue (.vmul d a b) (laneBody .mul d a (some b)) s

/-- VMIN (R196). -/
def execVmin (d : BitVec 6) (a b : BitVec 8) (s : State) : Out State := issue (.vmin d a b) (laneBody .min d a (some b)) s

/-- VMAX (R196). -/
def execVmax (d : BitVec 6) (a b : BitVec 8) (s : State) : Out State := issue (.vmax d a b) (laneBody .max d a (some b)) s

/-- VABS (R196). -/
def execVabs (d : BitVec 6) (a : BitVec 8) (s : State) : Out State := issue (.vabs d a) (laneBody .abs d a none) s

/-- VNEG (R196). -/
def execVneg (d : BitVec 6) (a : BitVec 8) (s : State) : Out State := issue (.vneg d a) (laneBody .neg d a none) s

/-- VMOV (R196). -/
def execVmov (d : BitVec 6) (a : BitVec 8) (s : State) : Out State := issue (.vmov d a) (laneBody .mov d a none) s

/-- VFMA (R197). -/
def execVfma (d : BitVec 6) (a b : BitVec 8) (s : State) : Out State := issue (.vfma d a b) (laneBody .fma d a (some b)) s

/-- VFMS (R197). -/
def execVfms (d : BitVec 6) (a b : BitVec 8) (s : State) : Out State := issue (.vfms d a b) (laneBody .fms d a (some b)) s

/-- VFNMA (R197). -/
def execVfnma (d : BitVec 6) (a b : BitVec 8) (s : State) : Out State := issue (.vfnma d a b) (laneBody .fnma d a (some b)) s

/-- VFNMS (R197). -/
def execVfnms (d : BitVec 6) (a b : BitVec 8) (s : State) : Out State := issue (.vfnms d a b) (laneBody .fnms d a (some b)) s

/-- VCMUL (R197). -/
def execVcmul (d : BitVec 6) (a b : BitVec 8) (s : State) : Out State := issue (.vcmul d a b) (laneBody .cmul d a (some b)) s

/-- VAND (R198). -/
def execVand (d : BitVec 6) (a b : BitVec 8) (s : State) : Out State := issue (.vand d a b) (laneBody .and d a (some b)) s

/-- VOR (R198). -/
def execVor (d : BitVec 6) (a b : BitVec 8) (s : State) : Out State := issue (.vor d a b) (laneBody .or d a (some b)) s

/-- VXOR (R198). -/
def execVxor (d : BitVec 6) (a b : BitVec 8) (s : State) : Out State := issue (.vxor d a b) (laneBody .xor d a (some b)) s

/-- VSHL (R198). -/
def execVshl (d : BitVec 6) (a b : BitVec 8) (s : State) : Out State := issue (.vshl d a b) (laneBody .shl d a (some b)) s

/-- VSHR (R198). -/
def execVshr (d : BitVec 6) (a b : BitVec 8) (s : State) : Out State := issue (.vshr d a b) (laneBody .shr d a (some b)) s

/-- VSRA (R198). -/
def execVsra (d : BitVec 6) (a b : BitVec 8) (s : State) : Out State := issue (.vsra d a b) (laneBody .sra d a (some b)) s

/-- VADDS (R198). -/
def execVadds (d : BitVec 6) (a b : BitVec 8) (s : State) : Out State := issue (.vadds d a b) (laneBody .adds d a (some b)) s

/-- VSUBS (R198). -/
def execVsubs (d : BitVec 6) (a b : BitVec 8) (s : State) : Out State := issue (.vsubs d a b) (laneBody .subs d a (some b)) s

/-! ### Conversion and quantisation (R199 to R201) -/

/-- Whether `vcvt` accepts a pair of types and a part (R199). -/
def cvtOk (ty u part : Nat) : Bool :=
  ty != 0 && u != 0 && isComplex ty == isComplex u
    && decide (part < Nat.max (elemBits ty) (elemBits u) / Nat.min (elemBits ty) (elemBits u))

/-- The source lane that destination lane i converts, where it converts one (R199). -/
def cvtLane (ty u part i : Nat) : Option Nat :=
  if elemBits u ≤ elemBits ty then
    (if part * lanesOf ty ≤ i ∧ i < part * lanesOf ty + lanesOf ty then some (i - part * lanesOf ty) else none)
  else some (part * lanesOf u + i)

/-- VCVT (R199). -/
def cvtBody (d : BitVec 6) (a : BitVec 8) (u part rm : Nat) : State → Res := vunit <| reads (fun s => s.operandAt a) fun s =>
  let ty := s.unit.ty
  let c : Check Landing := do
    legal (cvtOk ty u part)
    let r ← s.vname d.toNat
    let x ← s.source ty a
    s.domainCheck (isComplex ty && ty != u) [some r, x.2]
    let src := fun (i : Nat) => cvtLane ty u part i
    let en := (s.enables true (some r) u).zipIdx.map fun p => p.1 && (src p.2).isSome
    let vals := (List.range (lanesOf u)).map fun i =>
      match src i with
      | some j => convert ty u rm (x.1[j]?.getD 0)
      | none => 0
    pure (rowLanding r u en vals)
  c.body fun l => s.vissue (if u = 15 then 15 else ty) 3 1 l

/-- VCVT (R199). -/
def execVcvt (d : BitVec 6) (a : BitVec 8) (t : BitVec 4) (p r : BitVec 3) (s : State) : Out State :=
  issue (.vcvt d a t p r) (cvtBody d a t.toNat p.toNat r.toNat) s

/-- A lane of `vquant`: its quotient, or the code of a lane that has no finite one (R201). -/
def quantLane (x g : Num) : Quot5 ⊕ Nat :=
  match x, g with
  | .nan, _ | _, .nan => .inr 0
  | .inf _, .inf _ => .inr 0
  | .inf s, .fin t _ _ => .inr (if s = t then 7 else 15)
  | .fin .., .inf _ => .inl { neg := false, num := 0, den := 1 }
  | .fin s m _, .fin t n _ =>
    if n ≠ 0 then .inl (quotient x g) else if m = 0 then .inr 0 else .inr (if s = t then 7 else 15)

/-- The scale code of a block of lanes (R200). -/
def quantScale (l : List (Quot5 ⊕ Nat)) : Nat :=
  scaleCode (l.foldl (fun a q => match q with | .inl q => a.max q | .inr _ => a) { neg := false, num := 0, den := 1 })

/-- Lists cut into pieces of n. -/
def chunks {α : Type} (n : Nat) : Nat → List α → List (List α)
  | 0, _ => []
  | k + 1, l => l.take n :: chunks n k (l.drop n)

/-- What `vquant` writes for its lanes: the codes, two to a byte, then the scale codes (R201). -/
def quantBytes (l : List (Quot5 ⊕ Nat)) : Nat × Nat :=
  let blocks := chunks 8 (l.length / 8) l
  let codes := blocks.flatMap fun b => b.map fun q =>
    match q with
    | .inl q => quantCode 0 (quantScale b) q
    | .inr c => c
  let low := codes.foldr (fun x a => x + 16 * a) 0
  (l.length / 2 + l.length / 8, low + 2 ^ (4 * l.length) * (blocks.map quantScale).foldr (fun x a => x + 256 * a) 0)

/-- VQUANT (R201). -/
def quantBody (d : BitVec 6) (a b : BitVec 8) : State → Res := vunit <| reads (fun s => s.operandAt a ++ s.operandAt b) fun s =>
  let ty := s.unit.ty
  let c : Check Landing := do
    legal (ty == 1 || ty == 2 || ty == 3)
    let r ← s.vname d.toNat
    let x ← s.source ty a
    let y ← s.source ty b
    s.domainCheck false [some r, x.2, y.2]
    let q := quantBytes ((x.1.zip y.1).map fun p => quantLane (decode (fmtOf ty) p.1) (decode (fmtOf ty) p.2))
    pure (lowLanding r q.1 q.2)
  c.body fun l => s.vissue ty 6 1 l

/-- VQUANT (R201). -/
def execVquant (d : BitVec 6) (a b : BitVec 8) (s : State) : Out State := issue (.vquant d a b) (quantBody d a b) s

/-! ### Compares, selects and masks (R202, R203) -/

/-- The conditions of `vcmp`. -/
inductive LaneCond where
  | eq | ne | lt | le | gt | ge | un
  deriving DecidableEq, Repr

/-- A condition on the order of two values; none is a NaN operand (R202). -/
def LaneCond.holds (c : LaneCond) : Option Ordering → Bool
  | none => c == .ne || c == .un
  | some o =>
    match c with
    | .eq => o == .eq
    | .ne => o != .eq
    | .lt => o == .lt
    | .le => o != .gt
    | .gt => o == .gt
    | .ge => o != .lt
    | .un => false

/-- The mask bits of lanes of a type: each lane's z bits, or for `.e2m1` the bit two lanes share (R68). -/
def maskOfLanes (ty : Nat) (l : List Bool) : BitVec 1024 :=
  let z := elemBits ty / 8
  BitVec.ofNat 1024 (l.foldr (fun b a => (if b then 2 ^ z - 1 else 0) + 2 ^ z * a) 0)

/-- VCMP (R189, R202). -/
def cmpBody (c : LaneCond) (d : BitVec 6) (a b : BitVec 8) : State → Res := vunit <| reads (fun s => s.operandAt a ++ s.operandAt b) fun s =>
  let ty := s.unit.ty
  let k : Check Landing := do
    legal (isReal ty || ty == 15 || (isInt ty && c != .un))
    let x ← s.source ty a
    let y ← s.source ty b
    s.domainCheck false [x.2, y.2]
    let vals := (x.1.zip y.1).map fun p => c.holds ((valueOf ty p.1).cmp (valueOf ty p.2))
    pure (.mask d.toNat (maskOfLanes ty (s.enables true none ty)) (maskOfLanes ty vals))
  k.body fun l => s.vissue ty 2 1 l

/-- VCMP_EQ (R202). -/
def execVcmpEq (d : BitVec 6) (a b : BitVec 8) (s : State) : Out State := issue (.vcmpEq d a b) (cmpBody .eq d a b) s

/-- VCMP_NE (R202). -/
def execVcmpNe (d : BitVec 6) (a b : BitVec 8) (s : State) : Out State := issue (.vcmpNe d a b) (cmpBody .ne d a b) s

/-- VCMP_LT (R202). -/
def execVcmpLt (d : BitVec 6) (a b : BitVec 8) (s : State) : Out State := issue (.vcmpLt d a b) (cmpBody .lt d a b) s

/-- VCMP_LE (R202). -/
def execVcmpLe (d : BitVec 6) (a b : BitVec 8) (s : State) : Out State := issue (.vcmpLe d a b) (cmpBody .le d a b) s

/-- VCMP_GT (R202). -/
def execVcmpGt (d : BitVec 6) (a b : BitVec 8) (s : State) : Out State := issue (.vcmpGt d a b) (cmpBody .gt d a b) s

/-- VCMP_GE (R202). -/
def execVcmpGe (d : BitVec 6) (a b : BitVec 8) (s : State) : Out State := issue (.vcmpGe d a b) (cmpBody .ge d a b) s

/-- VCMP_UN (R202). -/
def execVcmpUn (d : BitVec 6) (a b : BitVec 8) (s : State) : Out State := issue (.vcmpUn d a b) (cmpBody .un d a b) s

/-- VSEL (R203). -/
def selBody (d : BitVec 6) (a b : BitVec 8) : State → Res := vunit <| reads (fun s => s.operandAt a ++ s.operandAt b) fun s =>
  let ty := s.unit.ty
  let c : Check Landing := do
    legal (isReal ty || ty == 15 || isInt ty || isComplex ty)
    let r ← s.vname d.toNat
    let x ← s.source ty a
    let y ← s.source ty b
    s.domainCheck false [some r, x.2, y.2]
    let vals := (x.1.zip y.1).zipIdx.map fun p => if s.maskOn ty p.2 then p.1.1 else p.1.2
    pure (rowLanding r ty (s.enables false (some r) ty) vals)
  c.body fun l => s.vissue ty 2 1 l

/-- VSEL (R203). -/
def execVsel (d : BitVec 6) (a b : BitVec 8) (s : State) : Out State := issue (.vsel d a b) (selBody d a b) s

/-- An instruction on whole masks (R203). -/
def maskBody (d : BitVec 6) (v : Ctx → BitVec 1024) : State → Res := vunit fun s =>
  s.vissue 0 1 1 (.mask d.toNat (BitVec.allOnes 1024) (v s.my))

/-- MAND (R203). -/
def execMand (d : BitVec 6) (a b : BitVec 8) (s : State) : Out State :=
  issue (.mand d a b) (maskBody d fun x => x.mask a.toNat &&& x.mask b.toNat) s

/-- MOR (R203). -/
def execMor (d : BitVec 6) (a b : BitVec 8) (s : State) : Out State :=
  issue (.mor d a b) (maskBody d fun x => x.mask a.toNat ||| x.mask b.toNat) s

/-- MXOR (R203). -/
def execMxor (d : BitVec 6) (a b : BitVec 8) (s : State) : Out State :=
  issue (.mxor d a b) (maskBody d fun x => x.mask a.toNat ^^^ x.mask b.toNat) s

/-- MNOT (R203). -/
def execMnot (d : BitVec 6) (a : BitVec 8) (s : State) : Out State := issue (.mnot d a) (maskBody d fun x => ~~~(x.mask a.toNat)) s

/-! ### Reductions (R204) -/

/-- The reductions. -/
inductive Fold where
  | add | max | min | amax
  deriving DecidableEq, Repr

/-- A fixed pairwise tree over 2^n values (R204). -/
def pairwise {α : Type} (f : α → α → α) (z : α) : Nat → List α → α
  | 0, l => l.headD z
  | n + 1, l => f (pairwise f z n (l.take (2 ^ n))) (pairwise f z n (l.drop (2 ^ n)))

/-- The identity of a reduction for a floating type (R204). (DEDUCED, log entry 57.) -/
def Fold.identity : Fold → Num
  | .add | .amax => .zero
  | .max => .inf true
  | .min => .inf false

/-- One step of a reduction of floating values, sums rounded to FP32, or to FP64 for `.f64` (R204). -/
def Fold.step (k : Fold) (ty : Nat) (a b : Num) : Num :=
  match k with
  | .add => if ty = 15 then decode fp64 (encode fp64 0 (a.add b)) else rne32 (a.add b)
  | .max | .amax => a.max b
  | .min => a.min b

/-- One step of a reduction of integers (R204). -/
def Fold.intStep (k : Fold) (a b : Int) : Int :=
  match k with
  | .add => a + b
  | .min => if b < a then b else a
  | _ => if a < b then b else a

/-- What a reduction writes: so many bytes from byte 0, and their number (R204). -/
def reduce (k : Fold) (ty : Nat) (l : List (Nat × Bool)) : Nat × Nat :=
  let n := Nat.log2 l.length
  if isInt ty then
    let id : Int := match k with
      | .max => intLow ty
      | .min => intHigh ty
      | _ => 0
    let y := pairwise k.intStep 0 n (l.map fun p => if p.2 then intOf ty p.1 else id)
    if k = .add then (4, (y % (2 ^ 32 : Nat)).toNat) else (elemBits ty / 8, wrapInt ty y)
  else
    let y := pairwise (k.step ty) .zero n
      (l.map fun p => if p.2 then (if k = .amax then (decode (fmtOf ty) p.1).abs else decode (fmtOf ty) p.1) else k.identity)
    let out := if k = .add ∧ ty ≠ 15 then 1 else ty
    (elemBits out / 8, encode (fmtOf out) 0 y)

/-- VRED (R204): source lanes are disabled by the block mask and the source row's active columns (R189). -/
def redBody (k : Fold) (d : BitVec 6) (a : BitVec 8) : State → Res := vunit <| reads (fun s => s.operandAt a) fun s =>
  let ty := s.unit.ty
  let c : Check Landing := do
    legal (isReal ty || ty == 15 || (isInt ty && k != .amax))
    let r ← s.vname d.toNat
    let x ← s.source ty a
    s.domainCheck false [some r, x.2]
    let q := reduce k ty (x.1.zip (s.enables true x.2 ty))
    pure (lowLanding r q.1 q.2)
  c.body fun l => s.vissue ty 12 1 l

/-- VRED_ADD (R204). -/
def execVredAdd (d : BitVec 6) (a : BitVec 8) (s : State) : Out State := issue (.vredAdd d a) (redBody .add d a) s

/-- VRED_MAX (R204). -/
def execVredMax (d : BitVec 6) (a : BitVec 8) (s : State) : Out State := issue (.vredMax d a) (redBody .max d a) s

/-- VRED_MIN (R204). -/
def execVredMin (d : BitVec 6) (a : BitVec 8) (s : State) : Out State := issue (.vredMin d a) (redBody .min d a) s

/-- VRED_AMAX (R204). -/
def execVredAmax (d : BitVec 6) (a : BitVec 8) (s : State) : Out State := issue (.vredAmax d a) (redBody .amax d a) s

/-! ### Special functions (R205) -/

/-- An instruction of major 40. -/
def specialBody (k : Special) (d : BitVec 6) (a : BitVec 8) : State → Res := vunit <| reads (fun s => s.operandAt a) fun s =>
  let ty := s.unit.ty
  let c : Check Landing := do
    legal (isReal ty || ty == 15)
    let r ← s.vname d.toNat
    let x ← s.source ty a
    s.domainCheck false [some r, x.2]
    pure (rowLanding r ty (s.enables true (some r) ty) (x.1.map (special k ty)))
  c.body fun l => s.vissue ty 10 1 l

/-- VEXP2 (R205). -/
def execVexp2 (d : BitVec 6) (a : BitVec 8) (s : State) : Out State := issue (.vexp2 d a) (specialBody .exp2 d a) s

/-- VLOG2 (R205). -/
def execVlog2 (d : BitVec 6) (a : BitVec 8) (s : State) : Out State := issue (.vlog2 d a) (specialBody .log2 d a) s

/-- VRCP (R205). -/
def execVrcp (d : BitVec 6) (a : BitVec 8) (s : State) : Out State := issue (.vrcp d a) (specialBody .rcp d a) s

/-- VRSQRT (R205). -/
def execVrsqrt (d : BitVec 6) (a : BitVec 8) (s : State) : Out State := issue (.vrsqrt d a) (specialBody .rsqrt d a) s

/-- VTANH (R205). -/
def execVtanh (d : BitVec 6) (a : BitVec 8) (s : State) : Out State := issue (.vtanh d a) (specialBody .tanh d a) s

/-- VSIGM (R205). -/
def execVsigm (d : BitVec 6) (a : BitVec 8) (s : State) : Out State := issue (.vsigm d a) (specialBody .sigm d a) s

/-! ### Top-k (R206) -/

/-- An entry of a top-k list or a candidate: the element's pattern, its index, and whether it stood in D. -/
structure TopEntry where
  code : Nat
  ix : Nat
  old : Bool
  deriving DecidableEq, Repr

/-- Whether an entry ranks before another (R206): numbers, then NaNs, then empty entries; by value descending, then by index, then
the entry of D. (DEDUCED, log entry 132.) -/
def TopEntry.before (ty : Nat) (a b : TopEntry) : Bool :=
  let group := fun (e : TopEntry) => if e.ix = 0xFFFFFFFF ∧ e.old then 2 else if (valueOf ty e.code).isNan then 1 else 0
  let tie := decide (a.ix < b.ix) || (a.ix == b.ix && a.old && !b.old)
  if group a ≠ group b then decide (group a < group b)
  else if group a = 0 then
    match (valueOf ty a.code).cmp (valueOf ty b.code) with
    | some .gt => true
    | some .eq => tie
    | _ => false
  else tie

/-- An entry put into a ranked list, after those that do not rank behind it. -/
def rankIn (ty : Nat) (e : TopEntry) : List TopEntry → List TopEntry
  | [] => [e]
  | x :: xs => if e.before ty x then e :: x :: xs else x :: rankIn ty e xs

/-- Entries ranked (R206). -/
def rank (ty : Nat) (l : List TopEntry) : List TopEntry := l.foldl (fun a e => rankIn ty e a) []

/-- VTOPK (R206). (DEDUCED, log entry 131.) -/
def topkBody (d : BitVec 6) (a b : BitVec 8) : State → Res :=
  vunit <| reads (fun s => s.operandAt a ++ [s.rowAt s.unit.core (s.my.vrow d.toNat)]) fun s =>
  let ty := s.unit.ty
  let z := elemBits ty
  let reg := (s.here.reg (indexOf b)).toNat
  let k := bits reg 7 0
  let c : Check Landing := do
    legal (ty == 1 || ty == 2 || ty == 3 || ty == 7)
    legal (kindOf b == 1 && decide (1 ≤ k) && decide (k ≤ 128) && bits reg 31 8 == 0)
    let r ← s.vname d.toNat
    let x ← s.source ty a
    s.domainCheck false [some r, x.2]
    let old := ((s.core s.unit.core).tileRow r).toNat
    let entries := (List.range k).map fun j =>
      { code := bits old (64 * j + z - 1) (64 * j), ix := bits old (64 * j + 63) (64 * j + 32), old := true : TopEntry }
    let en := s.enables true x.2 ty
    let cands := ((x.1.zip en).zipIdx.filter fun p => p.1.2 && !(valueOf ty p.1.1).isNan).map fun p =>
      { code := p.1.1, ix := (bits reg 63 32 + p.2) % 2 ^ 32, old := false : TopEntry }
    let out := (rank ty (entries ++ cands)).take k
    pure (lowLanding r (8 * k) (out.foldr (fun e n => e.code + 2 ^ 32 * e.ix + 2 ^ 64 * n) 0))
  c.body fun l => s.vissue ty 16 4 l

/-- VTOPK (R206). -/
def execVtopk (d : BitVec 6) (a b : BitVec 8) (s : State) : Out State := issue (.vtopk d a b) (topkBody d a b) s

/-! ### Lane moves (R207, R208) -/

/-- An index operand read as an integer: a register, or a literal 0 to 31 (R207). -/
def State.indexOperand (s : State) (b : BitVec 8) : Check Nat :=
  if kindOf b = 1 then .ok (s.here.reg (indexOf b)).toNat
  else if kindOf b = 3 ∧ indexOf b < 32 then .ok (indexOf b)
  else .error (.illegal, 0)

/-- The types of the lane moves (R194). -/
def laneType (ty : Nat) : Bool := isReal ty || ty == 15 || isInt ty || isComplex ty

/-- The lane an entry of `vperm` names, within the group of lane i (R207). (DEDUCED, log entry 46.) -/
def permLane (ty i e : Nat) : Nat :=
  let g := if elemBits ty = 8 then 256 else lanesOf ty
  let e := if 32 ≤ elemBits ty then e % 65536 else e
  i - i % g + e % g

/-- VPERM (R207). (DEDUCED, log entry 46.) -/
def permBody (d : BitVec 6) (a b : BitVec 8) : State → Res := vunit <| reads (fun s => s.operandAt a ++ s.operandAt b) fun s =>
  let ty := s.unit.ty
  let c : Check Landing := do
    legal (laneType ty)
    let r ← s.vname d.toNat
    let x ← s.source ty a
    let y ← s.source ty b
    s.domainCheck false [some r, x.2, y.2]
    pure (rowLanding r ty (s.enables true (some r) ty) (y.1.zipIdx.map fun p => x.1[permLane ty p.2 p.1]?.getD 0))
  c.body fun l => s.vissue ty 3 1 l

/-- VPERM (R207). -/
def execVperm (d : BitVec 6) (a b : BitVec 8) (s : State) : Out State := issue (.vperm d a b) (permBody d a b) s

/-- VBCAST (R207). -/
def bcastBody (d : BitVec 6) (a b : BitVec 8) : State → Res := vunit <| reads (fun s => s.operandAt a) fun s =>
  let ty := s.unit.ty
  let c : Check Landing := do
    legal (laneType ty)
    let e ← s.indexOperand b
    let r ← s.vname d.toNat
    let x ← s.source ty a
    s.domainCheck false [some r, x.2]
    pure (rowLanding r ty (s.enables true (some r) ty) (List.replicate (lanesOf ty) (x.1[e % lanesOf ty]?.getD 0)))
  c.body fun l => s.vissue ty 3 1 l

/-- VBCAST (R207). -/
def execVbcast (d : BitVec 6) (a b : BitVec 8) (s : State) : Out State := issue (.vbcast d a b) (bcastBody d a b) s

/-- VREV (R207). -/
def revBody (d : BitVec 6) (a : BitVec 8) : State → Res := vunit <| reads (fun s => s.operandAt a) fun s =>
  let ty := s.unit.ty
  let c : Check Landing := do
    legal (laneType ty)
    let r ← s.vname d.toNat
    let x ← s.source ty a
    s.domainCheck false [some r, x.2]
    pure (rowLanding r ty (s.enables true (some r) ty) x.1.reverse)
  c.body fun l => s.vissue ty 3 1 l

/-- VREV (R207). -/
def execVrev (d : BitVec 6) (a : BitVec 8) (s : State) : Out State := issue (.vrev d a) (revBody d a) s

/-- VINS (R208). -/
def insBody (d : BitVec 6) (a b : BitVec 8) : State → Res := vunit fun s =>
  let ty := s.unit.ty
  let c : Check Landing := do
    legal (laneType ty)
    legal (kindOf a == 1)
    let e ← s.indexOperand b
    let r ← s.vname d.toNat
    let at_ := e % lanesOf ty
    pure (rowLanding r ty ((List.range (lanesOf ty)).map (· == at_))
      (List.replicate (lanesOf ty) ((s.here.reg (indexOf a)).toNat % 2 ^ elemBits ty)))
  c.body fun l => s.vissue ty 2 1 l

/-- VINS (R208). -/
def execVins (d : BitVec 6) (a b : BitVec 8) (s : State) : Out State := issue (.vins d a b) (insBody d a b) s

/-- The register value of an extracted lane (R208): signed integers are sign-extended. -/
def laneWord (ty code : Nat) : Word :=
  if isSigned ty then BitVec.ofInt 64 (intOf ty code) else BitVec.ofNat 64 code

/-- VEXT (R208). -/
def extBody (d : BitVec 6) (a b : BitVec 8) : State → Res := vunit <| reads (fun s => s.operandAt a) fun s =>
  let ty := s.unit.ty
  let c : Check Landing := do
    legal (laneType ty)
    let e ← s.indexOperand b
    let x ← s.rowOperand a
    pure (.scalar d.toNat (laneWord ty ((lanes (elemBits ty) x.1)[e % lanesOf ty]?.getD 0)))
  c.body fun l => s.vissue ty 2 1 l

/-- VEXT (R208). -/
def execVext (d : BitVec 6) (a b : BitVec 8) (s : State) : Out State := issue (.vext d a b) (extBody d a b) s

/-! ### Rows to and from q5 and q6 (R209) -/

/-- VPUSH (R209). (DEDUCED, log entry 51.) -/
def vpushBody (a : BitVec 8) : State → Res := vunit <| reads (fun s => s.operandAt a) fun s =>
  (legal (kindOf a == 0 || kindOf a == 2)).body fun _ =>
    if ¬ s.my.links.rroom 6 then .stall .flag [114]
    else (s.rowOperand a).body fun x => s.vissue 0 1 1 (.q6 x.1)

/-- VPUSH (R209). -/
def execVpush (m : QueueMove) (s : State) : Out State := issue (.vpush m) (vpushBody m.a) s

/-- VPOP (R209). -/
def vpopBody (d : BitVec 6) : State → Res := vunit fun s =>
  (s.vname d.toNat).body fun r =>
    match (s.my.links.rqueue 5).items with
    | [] => .stall .flag [113]
    | row :: _ => (s.modLinks s.unit.core fun l => l.rpop 5).vissue 0 1 1 (.row r (BitVec.allOnes 8192) row)

/-- VPOP (R209). -/
def execVpop (m : QueueMove) (s : State) : Out State := issue (.vpop m) (vpopBody m.d) s

/-! ### Tile configuration and slices (R210 to R212) -/

/-- TCFG (R210). -/
def tcfgBody (d : BitVec 6) (a : BitVec 8) : State → Res := vunit fun s =>
  (legal (kindOf a == 1)).body fun _ => s.vissue 0 1 1 (.shape d.toNat (s.here.reg (indexOf a)))

/-- TCFG (R210). -/
def execTcfg (d : BitVec 6) (a : BitVec 8) (s : State) : Out State := issue (.tcfg d a) (tcfgBody d a) s

/-- The shape of a configured tile, else TILE_UNCONF (R68). -/
def State.tile (s : State) (t : Nat) : Check Word :=
  if tshCfg (s.my.shape t) then .ok (s.my.shape t) else .error (.tileUnconf, tileInfo t)

/-- TCLEAN (R212). -/
def tcleanBody (d : BitVec 6) : State → Res := vunit fun s =>
  (s.tile d.toNat).body fun _ => s.vissue 0 1 1 (.clean d.toNat)

/-- TCLEAN (R212). -/
def execTclean (d : BitVec 6) (s : State) : Out State := issue (.tclean d) (tcleanBody d) s

/-- The rows of a tile, as the domain check names them. -/
def tileRowsOf (t : Word) : List (Option Nat) := (List.range (tshRows t)).map fun i => some (tshBase t + i)

/-- A row of the slice's TILE region. -/
def State.trow (s : State) (r : Nat) : Row := (s.core s.unit.core).tileRow r

/-- The row of a tile that an index operand names, by its first pool byte. -/
def State.rowOfTile (s : State) (t : Nat) (b : BitVec 8) : List Nat :=
  match s.indexOperand b with
  | .ok e => [s.rowAt s.unit.core (tshBase (s.my.shape t) + e)]
  | .error _ => []

/-- TROW_RD (R211). (DEDUCED, log entry 118.) -/
def trowRdBody (d : BitVec 6) (a b : BitVec 8) : State → Res := vunit <| reads (fun s => s.rowOfTile a.toNat b) fun s =>
  let c : Check Landing := do
    let e ← s.indexOperand b
    let r ← s.vname d.toNat
    let t ← s.tile a.toNat
    legal (decide (e < tshRows t))
    s.domainCheck (isComplex (tshType t)) [some r, some (tshBase t + e)]
    let n := lanesOf (tshType t)
    pure (rowLanding r (tshType t) ((List.range n).map fun i => decide (i < tshCols t))
      (lanes (elemBits (tshType t)) (s.trow (tshBase t + e))))
  c.body fun l => s.vissue 0 2 1 l

/-- TROW_RD (R211). -/
def execTrowRd (d : BitVec 6) (a b : BitVec 8) (s : State) : Out State := issue (.trowRd d a b) (trowRdBody d a b) s

/-- TROW_WR (R211). -/
def trowWrBody (d : BitVec 6) (a b : BitVec 8) : State → Res := vunit <| reads (fun s => s.operandAt a) fun s =>
  let c : Check Landing := do
    legal (kindOf a == 0 || kindOf a == 2)
    let e ← s.indexOperand b
    let t ← s.tile d.toNat
    legal (decide (e < tshRows t))
    let x ← s.rowOperand a
    s.domainCheck (isComplex (tshType t)) [some (tshBase t + e), x.2]
    let n := lanesOf (tshType t)
    pure (rowLanding (tshBase t + e) (tshType t) ((List.range n).map fun i => decide (i < tshCols t))
      (lanes (elemBits (tshType t)) x.1))
  c.body fun l => s.vissue 0 2 1 l

/-- TROW_WR (R211). -/
def execTrowWr (d : BitVec 6) (a b : BitVec 8) (s : State) : Out State := issue (.trowWr d a b) (trowWrBody d a b) s

/-- TCOL_RD (R211): every row is read at issue, and one row write lands whole; rows beyond a row's lanes give nothing. (DEDUCED, log entry 118.) -/
def tcolRdBody (d : BitVec 6) (a b : BitVec 8) : State → Res := vunit <| reads (fun s => s.tileAt a.toNat) fun s =>
  let c : Check (Landing × Nat) := do
    let e ← s.indexOperand b
    let r ← s.vname d.toNat
    let t ← s.tile a.toNat
    legal (decide (e < tshCols t))
    s.domainCheck (isComplex (tshType t)) (some r :: tileRowsOf t)
    let w := elemBits (tshType t)
    let n := lanesOf (tshType t)
    let vals := (List.range n).map fun i =>
      if i < tshRows t then bits (s.trow (tshBase t + i)).toNat (w * e + w - 1) (w * e) else 0
    pure (rowLanding r (tshType t) ((List.range n).map fun i => decide (i < tshRows t)) vals, tshRows t)
  c.body fun p => s.vissue 0 (p.2 + 2) p.2 p.1

/-- TCOL_RD (R211). -/
def execTcolRd (d : BitVec 6) (a b : BitVec 8) (s : State) : Out State := issue (.tcolRd d a b) (tcolRdBody d a b) s

/-- TCOL_WR (R211): the source is read at issue, and one row after the other is written. -/
def tcolWrBody (d : BitVec 6) (a b : BitVec 8) : State → Res := vunit <| reads (fun s => s.operandAt a) fun s =>
  let c : Check (Landing × Nat) := do
    let e ← s.indexOperand b
    let t ← s.tile d.toNat
    legal (decide (e < tshCols t))
    let x ← s.source (tshType t) a
    s.domainCheck (isComplex (tshType t)) (tileRowsOf t ++ [x.2])
    pure (.column d.toNat t e 0 (tshRows t) (ofElems (elemBits (tshType t)) x.1), tshRows t)
  c.body fun p => .done ((s.lands 2 p.1).occupy p.2) (p.2 + 1)

/-- TCOL_WR (R211). -/
def execTcolWr (d : BitVec 6) (a b : BitVec 8) (s : State) : Out State := issue (.tcolWr d a b) (tcolWrBody d a b) s

/-! ### Landings -/

/-- A core with a TILE row written under enables, its tiles marked DIRTY (R192). -/
def Core.landRow (k : Core) (r : Nat) (en v : Row) : Core :=
  if r < k.liveSl.tileRows then
    let k1 := k.mergeLine (k.liveSl.tileLine r) en v
    { k1 with live := k1.live.dirtyRow r }
  else k

/-- A core with row i of a `tcol.wr` written, under the shape its tile had at issue (R211). -/
def Core.landColumn (k : Core) (tsh : Word) (e i : Nat) (a : Row) : Core :=
  let w := elemBits (tshType tsh)
  if lanesOf (tshType tsh) ≤ i then k
  else k.landRow (tshBase tsh + i) (BitVec.ofNat 8192 ((2 ^ w - 1) * 2 ^ (w * e)))
    (BitVec.ofNat 8192 (bits a.toNat (w * i + w - 1) (w * i) * 2 ^ (w * e)))

/-- A core in which a result lands (R190, R191); bytes of a gather or scatter go to SCR. -/
def Core.land (k : Core) : Landing → Core
  | .scalar ix v => { k with live := { k.live with mx := k.live.mx.setReg ix v } }
  | .row r en v => k.landRow r en v
  | .mask ix en v =>
    { k with live := { k.live with loc := { k.live.loc with masks := update 0#1024 k.live.loc.masks ix fun m => (m &&& ~~~en) ||| (v &&& en) } } }
  | .q6 v => { k with live := { k.live with links := k.live.links.rpush 6 v } }
  | .column _ tsh e i _ a => k.landColumn tsh e i a
  | .shape t v =>
    { k with live :=
        { (k.live.setShape t (configure (k.live.shape t) v k.liveSl.tileRows)) with
          mat := { k.live.mat with records := put DrainRecord.cleared k.live.mat.records t DrainRecord.cleared } } }
  | .clean t => { k with live := k.live.setShape t (BitVec.ofNat 64 (setBits (k.live.shape t).toNat 36 36 0)) }
  | .bytes ws => (ws.foldl (fun k w => k.setScrByte w.1 w.2) k).heal fun x => ws.any fun w => w.1 == x && !k.live.onKerf x

/-- What remains of a result after it lands: a column write goes on to its next row. -/
def Landing.next : Landing → Option Landing
  | .column t tsh e i left a => if left ≤ 1 then none else some (.column t tsh e (i + 1) (left - 1) a)
  | _ => none

end Sys2Proof.Machine
end

