-- ==== Sys2Proof/Machine/Matrix.lean ====
section
/-! DEFINITION. The array of MX (R162 to R181, R229 to R233): loads of weights, scales, outliers and bands, products of tiles in
their cycles, drain records, and the segment check with its replay (R186 to R188). -/
namespace Sys2Proof.Machine

/-! ### Reads through an address-generator set (R162) -/

/-- The SCR offset of an array read of n bytes: the head slot of a ring, or AGnB. (DEDUCED, log entry 117.) -/
def State.agRead (s : State) (g n : Nat) : Check Nat :=
  let x := s.my
  let r := x.ring g
  if r.on ∧ x.slotSize g < n then .error (.illegal, 0)
  else
    let base := x.agBase g + (if r.on then r.head * x.slotSize g else 0)
    if base + n ≤ (s.core s.unit.core).liveSl.scrBytes then .ok base else .error (.poolBound, BitVec.ofNat 64 base)

/-- The end of an instruction that reads through a set: a ring's slot is popped at its retirement (R136, R162). -/
def State.agDone (s : State) (g lat : Nat) : Res := if (s.my.ring g).on then .pops s lat g else .done s lat

/-- So many bytes of SCR read by MX as one row, a kerf or an uncorrectable word noted (R148, R347). -/
def State.readRow (s : State) (c base n : Nat) : State × Row :=
  (s.scrRead c base n .mx, rowOf ((s.core c).scrBytes base n))

/-! ### Weight sets (R164 to R167) -/

/-- The format code of an element type (R165); 0 for a type that is none. -/
def weightFmt (ty : Nat) : Nat :=
  if ty = 4 then 1 else if ty = 5 then 2 else if ty = 9 then 3 else if ty = 12 then 4 else if ty = 3 then 5
  else if ty = 2 then 6 else if ty = 6 then 7 else 0

/-- The element type of a format code. -/
def fmtType (f : Nat) : Nat :=
  if f = 1 then 4 else if f = 2 then 5 else if f = 3 then 9 else if f = 4 then 12 else if f = 5 then 3 else if f = 6 then 2
  else if f = 7 then 6 else 0

/-- Weights per PE (R165). -/
def weightsPerPe (f : Nat) : Nat := if f = 7 then 4 else if f = 5 ∨ f = 6 then 1 else if f = 0 then 0 else 2

/-- The number of rows of a table that reads 1.0 where nothing was loaded (R169). -/
def scaleRow : Row := rowOf (List.replicate 1024 0x60)

/-- A scale code of a table of rows (R168, R169). -/
def scaleAt (t : Table Row) (i : Nat) : Nat := bits (get scaleRow t (i / 1024)).toNat (8 * (i % 1024) + 7) (8 * (i % 1024))

/-- Element i of w bits of a read held in rows. -/
def elemAt (t : Table Row) (w i : Nat) : Nat :=
  let n := 8192 / w
  bits (get 0#8192 t (i / n)).toNat (w * (i % n) + w - 1) (w * (i % n))

/-- What a restore has put at a place, plus 1 (R339). -/
def restored (t : Table Nat) (i : Nat) : Option Nat := match get 0 t i with | 0 => none | v + 1 => some v

/-- The j-th of the values of z bits that a field of a PE packs (R165). -/
def packed (v z j : Nat) : Nat := bits v (z * j + z - 1) (z * j)

/-- The code of W[k][n] (R166). -/
def WeightSet.code (x : WeightSet) (k n : Nat) : Nat :=
  let z := elemBits (fmtType x.fmt)
  match restored x.fixed (256 * (k / weightsPerPe x.fmt) + n) with
  | some v => packed v z (k % weightsPerPe x.fmt)
  | Option.none => elemAt x.rows z (256 * k + n)

/-- The staged complex weight (k, n) of a spectral set, in BF16 parts (R167). -/
def WeightSet.complex (x : WeightSet) (k n : Nat) : Num × Num := partsOf 13 (elemAt x.rows 32 (128 * k + n))

/-- The exact value of an E2M1 code under a scale; the escape contributes 0 (R174, R231). -/
def fp4Value (code scale : Nat) : Num := if code = 8 then .zero else (decode e2m1 code).mul (scaleValue scale)

/-- The index of the scale of the block at row i, column j, blocks of 2^geo rows, in a grid of so many columns (R168). -/
def scaleIndex (geo cols i j : Nat) : Nat := i / 2 ^ geo * (cols / (8 / 2 ^ geo)) + j / (8 / 2 ^ geo)

/-- The exact value of W[k][n] in the main sum (R231). -/
def WeightSet.value (x : WeightSet) (k n : Nat) : Num :=
  if x.fmt = 7 then fp4Value (x.code k n) (scaleAt x.scales (scaleIndex x.geo 256 k n)) else valueOf (fmtType x.fmt) (x.code k n)

/-- VAL, KIX and OIX of an outlier entry (R170). -/
def outVal (e : Word) : Nat := bits e.toNat 15 0

/-- KIX. -/
def outK (e : Word) : Nat := bits e.toNat 24 16

/-- OIX. -/
def outO (e : Word) : Nat := bits e.toNat 32 25

/-- The true value of W[k][n]: an escape takes the first entry of the set's list for its place, or 0 (R177). -/
def WeightSet.trueValue (x : WeightSet) (k n : Nat) : Num :=
  if x.code k n = 8 then
    ((x.outliers.find? fun e => outK e == k && outO e == n).map fun e => decode bf16 (outVal e)).getD .zero
  else x.value k n

/-- An empty buffer to fill, WB0 before WB1 (R166). -/
def Matrix.emptyBuffer (m : Matrix) : Option Nat := if m.wb0.st = 0 then some 0 else if m.wb1.st = 0 then some 1 else none

/-- A weight buffer. -/
def Matrix.buffer (m : Matrix) (b : Nat) : Buffer := if b = 0 then m.wb0 else m.wb1

/-- The matrix side with a buffer replaced. -/
def Matrix.setBuffer (m : Matrix) (b : Nat) (x : Buffer) : Matrix := if b = 0 then { m with wb0 := x } else { m with wb1 := x }

/-- What a row of a load reads as that is not listed: a scale table holds 1.0 (R169). -/
def FillDest.blank : FillDest → Row
  | .scales _ => scaleRow
  | _ => 0

/-- The state in which a load of so many KiB has begun: KiB 0 is read on the issue cycle (R166, R245). -/
def State.startFill (s : State) (dest : FillDest) (base beats total : Nat) : State :=
  let c := s.unit.core
  let r := s.readRow c base (if beats = 0 then 0 else 1024)
  r.1.modMat c fun m => { m with
    fills := m.fills ++ [{ dest := dest, base := base, beats := beats, elapsed := 0, total := total,
                           rows := if beats = 0 then [] else put dest.blank [] 0 r.2 }] }

/-- WLOAD and WLOAD_SPEC (R166, R167): the buffer latches format, geometry, scales and outliers on the issue cycle. -/
def fillBody (g : BitVec 4) (spectral : Bool) (fmt beats : Nat) (s : State) : Res :=
  if fmt = 0 then .trap .illegal 0
  else
    match s.my.mat.emptyBuffer with
    | none => .stall .engine []
    | some b => (s.agRead g.toNat (1024 * beats)).body fun base =>
      let m := s.my.mat
      let set : WeightSet :=
        { fmt := fmt, spectral := spectral, zeroSlot := false, geo := m.geo, rows := [], scales := m.wScales, outliers := m.wOut }
      let s1 := s.modMat s.unit.core fun m => m.setBuffer b { st := 1, set := set }
      (s1.startFill (.buffer b) base beats beats).agDone g.toNat beats

/-- WLOAD (R166). -/
def execWload (g : BitVec 4) (s : State) : Out State := issue (.wload g) (fun s => fillBody g false (weightFmt s.unit.ty) 48 s) s

/-- WLOAD_SPEC (R167). -/
def execWloadSpec (g : BitVec 4) (s : State) : Out State := issue (.wloadSpec g) (fillBody g true 5 24) s

/-! ### Geometry, scales, bands and outliers (R168 to R171) -/

/-- BGEO (R168): GEO of MX, or the rectangle of ST's drains. -/
def bgeoBody (g : BitVec 4) (s : State) : Res :=
  let w := s.my.agCount g.toNat 0
  let h := s.my.agCount g.toNat 1
  if h * w ≠ 8 then .trap .illegal 0
  else if s.unit.sq = .mx then .done (s.modMat s.unit.core fun m => { m with geo := Nat.log2 h }) 0
  else .done (s.modLoc s.unit.core fun l => { l with stGeo := Nat.log2 h }) 0

/-- BGEO (R168). -/
def execBgeo (g : BitVec 4) (s : State) : Out State := issue (.bgeo g) (bgeoBody g) s

/-- A register that an X32 field SR names. -/
def State.sr (s : State) (r : BitVec 4) : Nat := (s.here.reg r.toNat).toNat

/-- SLOAD (R169). -/
def sfillBody (g r : BitVec 4) (s : State) : Res :=
  if s.sr r / 2 ≠ 0 then .trap .illegal 0
  else (s.agRead g.toNat 12288).body fun base =>
    (s.startFill (.scales (s.sr r == 1)) base 12 12).agDone g.toNat 12

/-- SLOAD (R169). -/
def execSload (g r : BitVec 4) (s : State) : Out State := issue (.sload g r) (sfillBody g r) s

/-- The 64-bit entries of bytes. -/
def wordsIn (n : Nat) (r : Row) : List Word := (List.range n).map fun i => r.extractLsb' (64 * i) 64

/-- OLOAD (R170): the list is read and checked whole on the issue cycle. -/
def ofillBody (g r : BitVec 4) (s : State) : Res :=
  let n := bits (s.sr r) 14 8
  if bits (s.sr r) 7 1 ≠ 0 ∨ bits (s.sr r) 63 15 ≠ 0 ∨ 64 < n then .trap .illegal 0
  else (s.agRead g.toNat (8 * n)).body fun base =>
    let p := s.readRow s.unit.core base (8 * n)
    let l := wordsIn n p.2
    if l.any fun e => bits e.toNat 63 33 != 0 then .trap .illegal 0
    else (p.1.startFill (.outliers (s.sr r % 2 == 1) l) base 0 1).agDone g.toNat 1

/-- OLOAD (R170). -/
def execOload (g r : BitVec 4) (s : State) : Out State := issue (.oload g r) (ofillBody g r) s

/-- BLOAD (R171). -/
def bfillBody (g : BitVec 4) (s : State) : Res :=
  (s.agRead g.toNat 16).body fun base =>
    let p := s.readRow s.unit.core base 16
    let l := (List.range 8).map fun i => p.2.extractLsb' (16 * i) 16
    (p.1.startFill (.bands l) base 0 1).agDone g.toNat 1

/-- BLOAD (R171). -/
def execBload (g : BitVec 4) (s : State) : Out State := issue (.bload g) (bfillBody g) s

/-- The matrix side when a load is complete (R166, R169 to R171). -/
def Matrix.filled (m : Matrix) (f : Fill) : Matrix :=
  match f.dest with
  | .buffer b => { m.setBuffer b { st := 2, set := { (m.buffer b).set with rows := f.rows } } with order := m.order ++ [b] }
  | .scales w => if w then { m with wScales := f.rows } else { m with actScales := f.rows }
  | .outliers w l => if w then { m with wOut := l } else { m with actOut := l }
  | .bands l => { m with bands := l }

/-- One cycle of a load: its next KiB is read, or it is complete. -/
def State.stepFill (s : State) (c : Nat) (f : Fill) : State :=
  let f := { f with elapsed := f.elapsed + 1 }
  if f.elapsed < f.beats then
    let p := s.readRow c (f.base + 1024 * f.elapsed) 1024
    p.1.modMat c fun m => { m with fills := m.fills ++ [{ f with rows := put f.dest.blank f.rows f.elapsed p.2 }] }
  else if f.total ≤ f.elapsed then s.modMat c fun m => m.filled f
  else s.modMat c fun m => { m with fills := m.fills ++ [f] }

/-- One cycle of every load of a core. -/
def State.stepFills (s : State) (c : Nat) : State :=
  (s.ctx c).mat.fills.foldl (fun s f => s.stepFill c f) (s.modMat c fun m => { m with fills := [] })

/-! ### Shape words (R163) -/

/-- M. -/
def shM (w : Word) : Nat := bits w.toNat 8 0

/-- N. -/
def shN (w : Word) : Nat := bits w.toNat 17 9

/-- K. -/
def shK (w : Word) : Nat := bits w.toNat 26 18

/-- ACC. -/
def shAcc (w : Word) : Bool := w.getLsbD 27

/-- SLOT. -/
def shSlot (w : Word) : Nat := bits w.toNat 33 28

/-- Whether a shape word's fields lie in their ranges, with at most so many columns and terms. -/
def shapeOk (w : Word) (n k : Nat) : Bool :=
  decide (1 ≤ shM w) && decide (shM w ≤ 256) && decide (1 ≤ shN w) && decide (shN w ≤ n) && decide (1 ≤ shK w)
    && decide (shK w ≤ k) && bits w.toNat 63 34 == 0

/-! ### Sums of the array (R174, R181, R229 to R231) -/

/-- h of a spectral operand: half its block size (R179). -/
def ArrayOp.half (o : ArrayOp) : Nat := 2 ^ tshLb o.aTsh / 2

/-- The columns of PEs that an operation's results leave. -/
def ArrayOp.columns (o : ArrayOp) : Nat := if o.kind = .spec then 2 * shN o.shape else shN o.shape

/-- The bit at which the 32-bit result of a column lies in a row of D (R174, R180). -/
def ArrayOp.place (o : ArrayOp) (col : Nat) : Nat :=
  if o.kind = .spec then 64 * (col / 2 * o.half + shSlot o.shape) + 32 * (col % 2) else 32 * col

/-- The code of a[m][k] (R172). -/
def ArrayOp.actCode (o : ArrayOp) (m k : Nat) : Nat :=
  let w := weightsPerPe o.set.fmt
  match restored o.held (96 * m + k / w) with
  | some v => packed v (elemBits o.ty) (k % w)
  | none => packed (get 0#8192 o.acts m).toNat (elemBits o.ty) k

/-- The exact value of a[m][k] in the main sum (R231). -/
def ArrayOp.actValue (o : ArrayOp) (m k : Nat) : Num :=
  if o.ty = 6 then fp4Value (o.actCode m k) (scaleAt o.scales (scaleIndex o.geo 384 m k)) else valueOf o.ty (o.actCode m k)

/-- The exact sum of values, the first one apart (R229). -/
def sumNums : List Num → Num
  | [] => .zero
  | x :: xs => xs.foldl Num.add x

/-- The k of a PE row (R229). -/
def peTerms (w kk row : Nat) : List Nat := (List.range w).filterMap fun j => if w * row + j < kk then some (w * row + j) else none

/-- The sum (m, n) of floating values, from the sum p that enters PE row r (R229). (DEDUCED, log entry 135.) -/
def ArrayOp.floatSum (o : ArrayOp) (r m n : Nat) (p : Num) : Num :=
  let w := weightsPerPe o.set.fmt
  ((List.range (ceilDiv (shK o.shape) w)).drop r).foldl (fun p row =>
    rne32 (p.add (sumNums ((peTerms w (shK o.shape) row).map fun k => (o.actValue m k).mul (o.set.value k n))))) p

/-- The sum (m, n) of integers, from the sum p that enters PE row r, modulo 2^32 (R229). -/
def ArrayOp.intSum (o : ArrayOp) (r m n p : Nat) : Nat :=
  let ty := fmtType o.set.fmt
  let total := ((List.range (shK o.shape)).drop (weightsPerPe o.set.fmt * r)).foldl (fun (a : Int) k => a + intOf o.ty (o.actCode m k) * intOf ty (o.set.code k n)) (p : Int)
  (total % (2 ^ 32 : Nat)).toNat

/-- The real and imaginary part of element k of row m of a spectral operand, in BF16 (R181). -/
def ArrayOp.specValue (o : ArrayOp) (m k : Nat) : Num × Num :=
  let e := k * o.half + shSlot o.shape
  let w := elemBits (tshType o.aTsh)
  let p := partsOf (tshType o.aTsh) (packed (get 0#8192 o.acts m).toNat w e)
  (decode bf16 ((restored o.held (96 * m + 2 * k)).getD (encode bf16 0 p.1)),
    decode bf16 ((restored o.held (96 * m + 2 * k + 1)).getD (encode bf16 0 p.2)))

/-- The two weights of group (k, n) that a PE column holds, upper and lower (R181). -/
def WeightSet.pair (x : WeightSet) (k col : Nat) : Num × Num :=
  let w := x.complex k (col / 2)
  let p := if col % 2 = 0 then (w.1, if x.zeroSlot then .zero else w.2.neg)
    else (if x.zeroSlot then .zero else w.2, if x.zeroSlot then w.2 else w.1)
  (((restored x.fixed (512 * k + col)).map (decode bf16)).getD p.1, ((restored x.fixed (512 * k + 256 + col)).map (decode bf16)).getD p.2)

/-- The sum of a spectral column, from the sum p that enters PE row pair r: one rounding for each pair (R181). -/
def ArrayOp.specSum (o : ArrayOp) (r m col : Nat) (p : Num) : Num :=
  ((List.range (shK o.shape)).drop r).foldl (fun p k =>
    let x := o.specValue m k
    let w := o.set.pair k col
    rne32 (p.add ((x.1.mul w.1).add (x.2.mul w.2)))) p

/-- The 32-bit result of (m, col), from the 32-bit sum that enters PE row r, a row pair of a spectral set (R174, R181). -/
def ArrayOp.resultFrom (o : ArrayOp) (r m col p : Nat) : Nat :=
  match o.kind with
  | .zero => 0
  | .mma => if isInt o.ty then o.intSum r m col p else encode fp32 0 (o.floatSum r m col (decode fp32 p))
  | .spec => encode fp32 0 (o.specSum r m col (decode fp32 p))

/-- The 32-bit result of (m, col), from the 32-bit incoming sum (R174, R181). -/
def ArrayOp.result (o : ArrayOp) (m col p : Nat) : Nat := o.resultFrom 0 m col p

/-- The row number of an operation: M, or the rows that `mzero` writes. -/
def ArrayOp.rowCount (o : ArrayOp) : Nat := if o.kind = .zero then tshRows o.dTsh else shM o.shape

/-- The cycles from an operation's issue to its retirement (R175, R178, R181). (DEDUCED, log entry 41.) -/
def ArrayOp.latency (o : ArrayOp) : Nat :=
  if o.kind = .zero then tshRows o.dTsh else shM o.shape - 1 + (o.columns - 1) + 98

/-- The places (m, col) of an operation with m + col = i. -/
def ArrayOp.diagonal (o : ArrayOp) (i : Nat) : List (Nat × Nat) :=
  (List.range (Nat.min o.rowCount (i + 1))).filterMap fun m => if i - m < o.columns then some (m, i - m) else none

/-- The cycle of its operation that an array operation has reached: a replay starts one cycle later (R188). -/
def ArrayOp.at (o : ArrayOp) : Nat := if o.redo then o.elapsed - 1 else o.elapsed

/-- The activation partners of weight corrections, filled in when row m is read (R177). (DEDUCED, log entry 58.) -/
def DrainRecord.partners (r : DrainRecord) (at_ : List Nat) (m : Nat) (value : Nat → Half) : DrainRecord :=
  { r with corrections := at_.foldl (fun l i => modifyAt l i fun c =>
      if c.weight then { c with partners := modifyAt c.partners m fun _ => value c.kix } else c) r.corrections }

/-- An operation after it has read the incoming sums of its cycle's diagonal, whose results it then holds (R175). -/
def ArrayOp.readSums (o : ArrayOp) (k : Core) : ArrayOp :=
  let start := fun (m col : Nat) =>
    if shAcc o.shape then bits (k.tileRow (tshBase o.dTsh + m)).toNat (o.place col + 31) (o.place col) else 0
  (o.diagonal o.at).foldl (fun o q =>
    let v := start q.1 q.2
    { o with
      read := put 0#64 o.read (512 * q.1 + q.2) (BitVec.ofNat 64 v)
      sums := put 0#64 o.sums (512 * q.1 + q.2) (BitVec.ofNat 64 (o.result q.1 q.2 v)) }) o

/-- The pool words in which an operation finds the incoming sums of its cycle (R175). -/
def ArrayOp.sumWords (o : ArrayOp) (k : Core) (w : Nat) : Bool :=
  shAcc o.shape && (o.diagonal o.at).any fun q => inPool (1024 * k.liveSl.tileLine (tshBase o.dTsh + q.1) + o.place q.2 / 8) 4 w

/-- An operation that reads its TILE rows of this cycle after a write has landed there on the cycle (R175, R191). -/
def ArrayOp.reread (k : Core) (o : ArrayOp) : ArrayOp :=
  if o.kind = .zero ∨ o.redo then o
  else if o.kind = .spec ∧ o.at < shM o.shape then
    ({ o with acts := put 0#8192 o.acts o.at (k.tileRow (tshBase o.aTsh + o.at)) } : ArrayOp).readSums k
  else o.readSums k

/-- The state after an operation has read what it reads on its cycle: an activation row, and the incoming sums of a diagonal, whose
results it then holds (R172, R175). (DEDUCED, log entry 58.) -/
def State.readOp (s : State) (c : Nat) (o : ArrayOp) : State × ArrayOp :=
  if o.kind = .zero ∨ o.redo then (s, o)
  else
    let i := o.at
    let p := if i < shM o.shape then
        (if o.kind = .spec then (s.rowsRead c [s.rowAt c (tshBase o.aTsh + i)] .mx, some ((s.core c).tileRow (tshBase o.aTsh + i)))
         else
           let q := s.readRow c (o.base + 192 * i) 192
           (q.1, some q.2))
      else (s, none)
    let o1 := match p.2 with
      | some r => { o with acts := put 0#8192 o.acts i r }
      | none => o
    let s1 := if p.2.isSome ∧ o.corr ≠ [] then
        let f := fun (r : DrainRecord) => r.partners o.corr i fun k => BitVec.ofNat 16 (encode bf16 0 (o1.actValue i k))
        p.1.modMat c fun m => { m with records := update DrainRecord.cleared m.records o.dTile f }
      else p.1
    (s1.poolRead c (o.sumWords (s.core c)) .mx, o1.readSums (s.core c))

/-- A core after the results of an operation that land on its cycle have landed (R175, R178). -/
def ArrayOp.landOn (o : ArrayOp) (k : Core) : Core :=
  let i := o.at
  if o.redo ∧ o.elapsed = 0 then k
  else if o.kind = .zero then
    (if i < tshRows o.dTsh then
      k.landRow (tshBase o.dTsh + i)
        (BitVec.ofNat 8192 (2 ^ (elemBits (tshType o.dTsh) * tshCols o.dTsh) - 1)) 0
     else k)
  else if i < 98 then k
  else (o.diagonal (i - 98)).foldl (fun k q =>
    k.landRow (tshBase o.dTsh + q.1) (BitVec.ofNat 8192 ((2 ^ 32 - 1) * 2 ^ o.place q.2))
      (BitVec.ofNat 8192 ((get 0#64 o.sums (512 * q.1 + q.2)).toNat * 2 ^ o.place q.2))) k

/-! ### Issue of array operations -/

/-- The buffer an array operation uses: the oldest staged one; none for the PE weights (R172). (DEDUCED, log entry 52.) -/
def Matrix.staged (m : Matrix) : Option Nat := m.order.head?

/-- Whether an array operation would wait for a buffer that is filling (R176). -/
def Matrix.awaits (m : Matrix) : Bool := m.order == [] && (m.wb0.st == 1 || m.wb1.st == 1)

/-- The set an array operation uses (R172). (DEDUCED, log entry 52.) -/
def Matrix.nextSet (m : Matrix) : WeightSet :=
  match m.staged with
  | some b => (m.buffer b).set
  | none => m.pe

/-- A structural stall of the array: the operation before, or a buffer still filling (R176). -/
def arrayUnit (uses : Bool) (body : State → Res) (s : State) : Res :=
  if s.my.mat.abusy ≠ 0 ∨ (uses ∧ s.my.mat.awaits) then .stall .engine [] else body s

/-- The matrix side when an operation feeds a staged buffer to the PEs (R174, R181). -/
def Matrix.feed (m : Matrix) (b : Nat) (slot : Nat) : Matrix :=
  let set := { (m.buffer b).set with zeroSlot := slot == 0 }
  { m.setBuffer b { st := 3, set := (m.buffer b).set } with
    order := m.order.drop 1, pe := set, curfmt := set.fmt, specm := set.spectral }

/-- The state with the tags of a tile written at issue, its DIRTY set (R174, R181). (DEDUCED, log entry 41.) -/
def State.tagTile (s : State) (t : Nat) (dom : Bool) (lb : Nat) (sexp : Int) : State :=
  s.modCtx s.unit.core fun x => x.setShape t (tshTags (x.shape t) true dom lb sexp)

/-- The state with the drain record of a tile replaced by a function of it. -/
def State.modRecord (s : State) (t : Nat) (f : DrainRecord → DrainRecord) : State :=
  s.modMat s.unit.core fun m => { m with records := update DrainRecord.cleared m.records t f }

/-- A core whose armed capture stop begins to count with an array operation (R361); where the first counted cycle is the stop cycle and a
precise trap has been taken on it, that trap stands instead of the stop. -/
def Core.startCapture (k : Core) : Core :=
  if ¬ k.captArm ∨ k.captCount.isSome then k
  else if k.captStop = 1 ∧ k.sharp then { k with captArm := false }
  else { k with captCount := some k.captStop.toNat }

/-- The state in which an array operation has issued: the array is busy for its rows, its operand buffers are this operation's, and it
has read what it reads on its issue cycle (R175, R176, R188); an armed capture stop begins to count (R361). -/
def State.startOp (s : State) (o : ArrayOp) : State :=
  let c := s.unit.core
  let p := s.readOp c o
  ((p.1.modCore c p.2.landOn).modCore c Core.startCapture).modMat c fun m =>
    { m with ops := m.ops ++ [p.2], replay := some p.2, abusy := p.2.rowCount, segHas := true }

/-- The corrections an `mma.e2m1` appends (R177): activation entries, then the weight entries of its set. -/
def corrections (act : List Word) (set : WeightSet) (shape : Word) : List Correction :=
  (act.filter fun e => decide (outK e < shK shape) && decide (outO e < shM shape)).map (fun e =>
    { val := BitVec.ofNat 16 (outVal e), weight := false, kix := outK e, oix := outO e
      partners := (List.range (shN shape)).map fun n => BitVec.ofNat 16 (encode bf16 0 (set.trueValue (outK e) n)) })
  ++ (set.outliers.filter fun e => decide (outK e < shK shape) && decide (outO e < shN shape)).map fun e =>
    { val := BitVec.ofNat 16 (outVal e), weight := true, kix := outK e, oix := outO e, partners := List.replicate (shM shape) 0 }

/-- The D type a set format pairs with, and whether it pairs with an operation type (R172). -/
def pairs (fmt ty : Nat) : Bool :=
  if fmt = 1 ∨ fmt = 2 then ty == 4 || ty == 5
  else if fmt = 3 ∨ fmt = 4 then ty == 9 || ty == 12
  else if fmt = 5 ∨ fmt = 6 then ty == 3 || ty == 2
  else fmt == 7 && ty == 6

/-- The places of the weight corrections among new ones appended to so many. -/
def weightPlaces (before : Nat) (l : List Correction) : List Nat :=
  l.zipIdx.filterMap fun p => if p.1.weight then some (before + p.2) else none

/-- The checks of `mma`, in the order of R173, with OUTLIER of R177: the shape word, D's shape, the base of the read and the new
corrections. -/
def State.mmaCheck (s : State) (d g r : BitVec 4) : Check (Word × Word × Nat × List Correction) := do
  let w := s.here.reg r.toNat
  let m := s.my.mat
  let ty := s.unit.ty
  legal (shapeOk w 256 511 && shSlot w == 0)
  let t ← s.tile d.toNat
  let base ← s.agRead g.toNat (192 * shM w)
  let set := m.nextSet
  if set.fmt = 0 ∨ set.spectral ∨ ¬ pairs set.fmt ty then .error (.wfmt, 0)
  legal (tshType t == (if isInt ty then 7 else 1) && decide (shM w ≤ tshRows t) && decide (shN w ≤ tshCols t))
  legal (decide (shK w ≤ 96 * weightsPerPe set.fmt))
  if shAcc w ∧ tshDom t then .error (.domain, 0)
  let new := if ty = 6 then corrections m.actOut set w else []
  let old := if shAcc w then (get DrainRecord.cleared m.records d.toNat).corrections.length else 0
  if 128 < old + new.length then .error (.outlier, 0)
  pure (w, t, base, new)

/-- The operation an `mma` or `mma.spec` starts. -/
def State.newOp (s : State) (kind : ArrayKind) (w : Word) (d : BitVec 4) (dTsh aTsh : Word) (base : Nat) (corr : List Nat) :
    ArrayOp :=
  let m := s.my.mat
  { kind := kind, redo := false, corr := corr, ord := s.my.nextOrd, word := s.here.headerAt s.unit.word.toNat, shape := w, ty := s.unit.ty, dTile := d.toNat, dTsh := dTsh
    aTsh := aTsh, base := base, elapsed := 0
    set := if m.staged.isSome then { m.nextSet with zeroSlot := shSlot w == 0 } else m.pe
    old := m.pe, feeding := m.staged, geo := m.geo, scales := m.actScales, acts := [], read := [], sums := [] }

/-- The state with the staged buffer, if there is one, fed to the PEs. -/
def State.feedStaged (s : State) (slot : Nat) : State :=
  s.modMat s.unit.core fun m =>
    match m.staged with
    | some b => m.feed b slot
    | none => m

/-- MMA (R172 to R177). -/
def mmaBody (d g r : BitVec 4) : State → Res := arrayUnit true fun s =>
  (s.mmaCheck d g r).body fun p =>
    let w := p.1
    let m := s.my.mat
    let old := if shAcc w then get DrainRecord.cleared m.records d.toNat else DrainRecord.cleared
    let rec_ : DrainRecord :=
      if s.unit.ty = 6 then { bands := if m.bands = [] then List.replicate 8 0x3F80 else m.bands, corrections := old.corrections ++ p.2.2.2 }
      else old
    let o := s.newOp .mma w d p.2.1 0 p.2.2.1 (weightPlaces old.corrections.length p.2.2.2)
    let s1 := ((s.feedStaged 1).modRecord d.toNat fun _ => rec_).tagTile d.toNat false 0 0
    (s1.startOp o).agDone g.toNat o.latency

/-- MMA (R174). -/
def execMma (d g r : BitVec 4) (s : State) : Out State := issue (.mma d g r) (mmaBody d g r) s

/-- The checks of `mma.spec`, in the order of R180: the shape word and the shapes of D and A. (DEDUCED, log entry 42.) -/
def State.specCheck (s : State) (d a r : BitVec 4) : Check (Word × Word × Word) := do
  let w := s.here.reg r.toNat
  let x := s.my
  let h := 2 ^ tshLb (x.shape a.toNat) / 2
  legal (shapeOk w 128 48 && decide (2 * shSlot w < 2 ^ tshLb (x.shape a.toNat)))
  let t ← s.tile d.toNat
  let u ← s.tile a.toNat
  if ¬ tshDom u then .error (.domain, 0)
  legal (isComplex (tshType u) && tshType t == 14 && decide (shM w ≤ tshRows t) && decide (shM w ≤ tshRows u)
    && decide ((shK w - 1) * h + shSlot w < tshCols u) && decide ((shN w - 1) * h + shSlot w < tshCols t))
  if ¬ x.mat.nextSet.spectral then .error (.wfmt, 0)
  if tshDom t ∧ (tshLb t ≠ tshLb u ∨ tshSexp t ≠ tshSexp u) then .error (.domain, 0)
  if shAcc w ∧ ¬ tshDom t then .error (.domain, 0)
  pure (w, t, u)

/-- MMA_SPEC (R180, R181). -/
def mmaSpecBody (d a r : BitVec 4) : State → Res := arrayUnit true fun s =>
  (s.specCheck d a r).body fun p =>
    let w := p.1
    let u := p.2.2
    let o := s.newOp .spec w d p.2.1 u 0 []
    let s1 := if shAcc w then s else s.modRecord d.toNat fun _ => DrainRecord.cleared
    let s2 := (s1.feedStaged (shSlot w)).tagTile d.toNat true (tshLb u) (tshSexp u)
    .done (s2.startOp o) o.latency

/-- MMA_SPEC (R180). -/
def execMmaSpec (d a r : BitVec 4) (s : State) : Out State := issue (.mmaSpec d a r) (mmaSpecBody d a r) s

/-- Whether an operation is complete: its results have landed, and its feeding buffer is empty (R175). -/
def ArrayOp.complete (o : ArrayOp) : Bool := decide (o.latency ≤ o.at) && (o.feeding == none || decide (351 ≤ o.elapsed))

/-- A replay takes its operands from the buffers, which the operation may still be filling (R188). -/
def ArrayOp.refresh (o : ArrayOp) : Option ArrayOp → ArrayOp
  | some r => if o.redo ∧ r.ord = o.ord then { o with acts := r.acts, read := r.read, sums := r.sums } else o
  | none => o

/-- One cycle of an array operation, its landings apart: it reads, and a feeding buffer becomes empty at t + 351 (R175); the scales latched in
it stand until it is filled again (R338). -/
def State.stepOp (s : State) (c : Nat) (o : ArrayOp) : State :=
  let p := s.readOp c (o.refresh (s.ctx c).mat.replay)
  let s1 := p.1.modMat c fun m =>
    let m1 := match o.feeding with
      | some b => if o.elapsed = 351 then m.setBuffer b { st := 0, set := { WeightSet.none with scales := o.set.scales } } else m
      | none => m
    { m1 with
      replay := match m1.replay with
        | some r => if r.ord = p.2.ord ∧ ¬ p.2.redo then some p.2 else m1.replay
        | none => none
      ops := if p.2.complete then m1.ops else m1.ops ++ [p.2] }
  s1

/-- One cycle of every array operation of a core, after the landings of that cycle. -/
def State.stepOps (s : State) (c : Nat) : State :=
  (s.ctx c).mat.ops.foldl (fun s o => s.stepOp c o) (s.modMat c fun m => { m with ops := [] })

/-- What an array operation has read on its cycle, read again after CTL has written SCR on the cycle (R245). -/
def State.seeOp (s : State) (c : Nat) (o : ArrayOp) : State :=
  if o.kind ≠ .mma ∨ o.redo ∨ shM o.shape ≤ o.at then s.modMat c fun m => { m with ops := m.ops ++ [o] }
  else
    let o1 := ({ o with acts := put 0#8192 o.acts o.at (rowOf ((s.core c).scrBytes (o.base + 192 * o.at) 192)) } : ArrayOp).readSums (s.core c)
    s.modMat c fun m => { m with
      ops := m.ops ++ [o1]
      records := if o.corr = [] then m.records else update DrainRecord.cleared m.records o.dTile fun r =>
        r.partners o.corr o.at fun k => BitVec.ofNat 16 (encode bf16 0 (o1.actValue o.at k))
      replay := m.replay.map fun r => if r.ord = o1.ord then o1 else r }

/-- What a load has read on its cycle, read again after CTL has written SCR on the cycle (R245). -/
def Fill.see (f : Fill) (k : Core) : Fill :=
  if f.elapsed < f.beats then
    { f with rows := put f.dest.blank f.rows f.elapsed (rowOf (k.scrBytes (f.base + 1024 * f.elapsed) 1024)) }
  else f

/-- The reads that MX's loads and products make of SCR on a cycle see what CTL writes there on the cycle (R245, R249). -/
def State.seeStores (s : State) (c : Nat) : State :=
  let ops := (s.ctx c).mat.ops
  ops.foldl (fun s o => s.seeOp c o) (s.modMat c fun m => { m with ops := [], fills := m.fills.map fun f => f.see (s.core c) })

/-! ### Segment checks (R186 to R188) -/

/-- Whether the figures of the open segment match a constant row (R187). -/
def Matrix.matches (m : Matrix) (row : Row) : Bool :=
  m.segCyc == bits row.toNat 63 0 && (m.segCrc ^^^ 0xFFFFFFFF).toNat == bits row.toNat 95 64

/-- The bytes that an operation's replay supplies (R188): the encoding as it stands in instruction memory now, and SR as it was. -/
def OpBytes.replayed (o : OpBytes) (q : Seq) : List Byte :=
  ((List.range o.len).flatMap fun i => leBytes 2 (q.half (o.at_.toNat + i)).toNat) ++ o.bytes.drop (2 * o.len)

/-- The matrix side with the bytes that an operation supplied to SEGCRC replaced by those of its replay (R188). The register is linear in
the bytes. -/
def Matrix.replayCrc (m : Matrix) (q : Seq) : Matrix :=
  match m.opBytes with
  | none => m
  | some o =>
    { m with
      segCrc := m.segCrc ^^^ crcBytes 0 ((o.bytes.zip (o.replayed q)).map (fun p => p.1 ^^^ p.2) ++ List.replicate o.since 0)
      opBytes := some { o with bytes := o.replayed q } }

/-- The state in which a replay of the last array operation has begun (R188); it starts on the cycle after. (DEDUCED, log entry 55.) -/
def State.replayOp (s : State) (o : ArrayOp) : State :=
  s.modMat s.unit.core fun m => { m.replayCrc s.here with
    tries := m.tries + 1, segStopped := true, replaying := o.latency + 1
    ops := m.ops ++ [{ o with redo := true, elapsed := 0, feeding := none, corr := [] }] }

/-- A failed check: SDC (R187). With a region open `segchk` retires and CTL unwinds, and it retires too where a delivery of the same cycle
has unwound CTL already, which drops the error with ESTAT.MORE set (R115); else it traps. -/
def State.failSegment (s : State) : Res :=
  let s1 := s.modMat s.unit.core fun m => { m with segStopped := false }
  if s.my.cr.regionOpen then .over ((s1.finish 0 none).takeTrapAt s.unit.core .mx .sdc 0 false false)
  else if (s.core s.unit.core).cycle = .unwound then
    .over ((s1.finish 0 none).modCr s.unit.core fun r => { r with estat := r.estat ||| 0x40 })
  else .trapKeep s1 .sdc 0

/-- A body of MX that reads the first bytes of a row of the pool as it issues: their check bits (R347). -/
def readsPart (n : Nat) (row : State → Option Nat) (body : State → Res) (s : State) : Res :=
  match body s, row s with
  | .done s1 lat, some a => .done (s1.poolRead s.unit.core (inPool a n) .mx) lat
  | r, _ => r

/-- SEGCHK (R187): it reads 12 bytes of its row. (DEDUCED, log entry 55.) -/
def segchkBody (n : BitVec 6) : State → Res := readsPart 12 (fun s => if s.here.rep + 1 < s.here.reps then none else some (s.constAt n.toNat)) fun s =>
  let q := s.here
  let m := s.my.mat
  if ¬ q.hword.getLsbD 29 ∨ q.pc.toNat + s.unit.len ≠ q.bodyEnd then .trap .illegal 0
  else if q.rep + 1 < q.reps then .done s 0
  else (s.vconst n.toNat).body fun row =>
    if m.replaying ≠ 0 then .linger s .engine []
    else if m.segDebug then
      .done (s.modCore s.unit.core fun k => { k with dbg := { k.dbg with segSkip := Nat.min 0xFFFF (k.dbg.segSkip + 1) } }) 0
    else
      let m1 := if m.segStopped then m else { m with tries := 0 }
      let s1 := s.modMat s.unit.core fun _ => m1
      if m1.matches row then .done (s.modMat s.unit.core fun _ => { m1 with segStopped := false }) 0
      else
        match m1.replay with
        | none => s1.failSegment
        | some o =>
          if m1.tries = s.my.cr.retryMax.toNat ∨ ¬ m1.segHas then s1.failSegment
          else .linger (s1.replayOp o) .engine []

/-- SEGCHK (R187). -/
def execSegchk (c : BitVec 6) (s : State) : Out State := issue (.segchk c) (segchkBody c) s

end Sys2Proof.Machine
end

