-- ==== Sys2Proof/Machine/Drain.lean ====
section
/-! DEFINITION. The drains of ST (R213 to R217, R232): the drain word, the checks, drain records and band products, conversion, the
quantisation to E2M1 with its scale table and side block, and the cycles. -/
namespace Sys2Proof.Machine

/-! ### The drain word (R213) -/

/-- ROWS. -/
def drRows (w : Word) : Nat := bits w.toNat 8 0

/-- COL0. -/
def drCol (w : Word) : Nat := bits w.toNat 17 9

/-- NCOL. -/
def drCols (w : Word) : Nat := bits w.toNat 26 18

/-- RM. -/
def drMode (w : Word) : Nat := bits w.toNat 28 27

/-- STYPE. -/
def drType (w : Word) : Nat := bits w.toNat 33 30

/-- THR, a BF16 code. -/
def drThr (w : Word) : Nat := bits w.toNat 63 48

/-- Whether the fields of a drain word lie in their ranges for an output type (R213, R214). -/
def drainWordOk (w : Word) (ty : Nat) : Bool :=
  decide (1 ≤ drRows w) && decide (drRows w ≤ 256) && decide (1 ≤ drCols w) && decide (drCols w ≤ 256)
    && !w.getLsbD 29 && bits w.toNat 47 34 == 0 && (ty == 6 || drThr w == 0)

/-! ### Elements -/

/-- A drained element: one exact value, or the parts of a complex one. -/
inductive Drained where
  | one (x : Num)
  | two (re im : Num)
  deriving DecidableEq, Repr

/-- The source type of a drain: the tile's, or that of the queued rows. -/
def DrainOp.source (o : DrainOp) : Nat := if o.queue then drType o.sr else tshType o.tsh

/-- A drain record applied to element (m, n) of an FP32 accumulator (R177, R232): the corrections in order, one rounding each, then
one rounding by the exact band product. A correction has a partner for each m < M or n < N that it corrects. -/
def DrainRecord.apply (r : DrainRecord) (m n : Nat) (y : Num) : Num :=
  let y1 := r.corrections.foldl (fun y c =>
    match (if c.oix = (if c.weight then n else m) then c.partners[if c.weight then m else n]? else none) with
    | some w => rne32 (y.add ((decode bf16 c.val.toNat).mul (decode bf16 w.toNat)))
    | none => y) y
  let band := fun (i : Nat) => decode bf16 ((r.bands[i]?).getD 0x3F80).toNat
  rne32 (y1.mul ((band (m / 64)).mul (band (4 + n / 64))))

/-- Row r as a drain reads it: its elements of an FP32 tile with the tile's drain record applied (R215). -/
def DrainOp.corrected (o : DrainOp) (rec_ : DrainRecord) (r : Nat) (row : Row) : Row :=
  if o.queue ∨ tshType o.tsh ≠ 1 then row
  else (List.range (drCols o.sr)).foldl (fun row j =>
    let n := drCol o.sr + j
    BitVec.ofNat 8192 (setBits row.toNat (32 * n + 31) (32 * n)
      (encode fp32 0 (rec_.apply r n (decode fp32 (bits row.toNat (32 * n + 31) (32 * n))))))) row

/-- Element COL0 + j of a row as read. -/
def DrainOp.element (o : DrainOp) (j : Nat) (row : Row) : Drained :=
  let st := o.source
  let w := elemBits st
  let n := drCol o.sr + j
  let code := bits row.toNat (w * n + w - 1) (w * n)
  if isComplex st then .two (partsOf st code).1 (partsOf st code).2
  else .one (valueOf st code)

/-- The elements of output row r. -/
def DrainOp.elements (o : DrainOp) (r : Nat) : List Drained :=
  (List.range (drCols o.sr)).map fun j => o.element j (get 0#8192 o.rows r)

/-- An element converted to the output type (R199, R215). -/
def Drained.code (ty mode : Nat) : Drained → Nat
  | .one x => elementOf ty mode x
  | .two re im => ofParts ty mode re im

/-- The bytes of an output row of a type other than `.e2m1`. -/
def DrainOp.outBytes (o : DrainOp) (r : Nat) : List Byte :=
  (o.elements r).flatMap fun y => leBytes (elemBits o.ty / 8) (y.code o.ty (drMode o.sr))

/-- The SCR offset of output row r (R213). -/
def DrainOp.rowAt (o : DrainOp) (r : Nat) : Int := (o.base : Int) + (r : Int) * o.stride

/-! ### Quantisation (R216) -/

/-- The real value of a drained element. -/
def Drained.num : Drained → Num
  | .one x => x
  | .two re _ => re

/-- The values of the drained rectangle, row by row. -/
def DrainOp.values (o : DrainOp) : List (List Num) := (List.range (drRows o.sr)).map fun r => (o.elements r).map Drained.num

/-- Whether an element qualifies as an outlier: it is not finite, or THR is positive and its magnitude reaches it. -/
def qualifies (thr : Num) (y : Num) : Bool := !y.finite || (Num.zero.lt thr && !y.abs.lt thr)

/-- The outliers in row-major order: place and value of every element that qualifies. -/
def outlierPlaces (thr : Num) (v : List (List Num)) : List (Nat × Nat × Num) :=
  v.zipIdx.flatMap fun p => p.1.zipIdx.filterMap fun q => if qualifies thr q.1 then some (p.2, q.2, q.1) else none

/-- The largest magnitude of values, 0 of none. -/
def largestOf (l : List Num) : Num := l.foldl (fun a y => a.max y.abs) .zero

/-- The smallest e from -126 to 127 with amax ≤ 12 * 2^e, and 0 for amax 0 (R216). -/
def bandExp (amax : Num) : Int :=
  if amax.isZero then 0
  else (((List.range 254).map fun (i : Nat) => (i : Int) - 126).find? fun e => !(Num.fin false 12 e).lt amax).getD 127

/-- What a quantisation writes: the codes row by row, the scale codes with their indices, the side block's entries, whether a further
element qualified, and the band exponents of the bands touched. -/
structure Quantised where
  codes : List (List Nat)
  scales : List (Nat × Nat)
  entries : List Word
  spilled : Bool
  bands : List Int
  deriving DecidableEq, Repr

/-- The quantisation of a rectangle in blocks of 2^geo rows (R216). -/
def quantise (v : List (List Num)) (geo mode : Nat) (thr : Num) : Quantised :=
  let h := 2 ^ geo
  let w := 8 / h
  let places := outlierPlaces thr v
  let chosen := places.take 64
  let isOut := fun (r n : Nat) => chosen.any fun p => p.1 == r && p.2.1 == n
  let at_ := fun (r n : Nat) => ((v[r]?).getD [])[n]?
  let rows := v.length
  let cols := ((v.map List.length).foldl Nat.max 0)
  let finite := fun (rs ns : List Nat) => rs.flatMap fun r => ns.filterMap fun n =>
    match at_ r n with
    | some y => if y.finite && !isOut r n then some y else none
    | none => none
  let bands := (List.range (ceilDiv rows 64)).map fun i =>
    bandExp (largestOf (finite ((List.range 64).map (64 * i + ·)) (List.range cols)))
  let band := fun (r : Nat) => (bands[r / 64]?).getD 0
  let scale := fun (bi bj : Nat) =>
    let l := finite ((List.range h).map (h * bi + ·)) ((List.range w).map (w * bj + ·))
    scaleCode (quotient (largestOf l) (.fin false 1 (band (h * bi))))
  { codes := v.zipIdx.map fun p => p.1.zipIdx.map fun q =>
      if isOut p.2 q.2 then 8
      else if q.1.isNan then 0
      else if ¬ q.1.finite then (if q.1.isNeg then 15 else 7)
      else quantCode mode (scale (p.2 / h) (q.2 / w)) (quotient q.1 (.fin false 1 (band p.2)))
    scales := (List.range (ceilDiv rows h)).flatMap fun bi => (List.range (ceilDiv cols w)).map fun bj =>
      (bi * (384 / w) + bj, scale bi bj)
    entries := chosen.map fun p =>
      BitVec.ofNat 64 (encode bf16 0 (p.2.2.scale (-(band p.1))) + p.2.1 * 2 ^ 16 + p.1 * 2 ^ 25)
    spilled := decide (64 < places.length)
    bands := bands }

/-- The nibbles of a row of codes, two to a byte, the even one low (R213). -/
def nibbleBytes (l : List Nat) : List Byte :=
  (List.range (ceilDiv l.length 2)).map fun i =>
    BitVec.ofNat 8 ((l[2 * i]?).getD 0 + 16 * (l[2 * i + 1]?).getD 0)

/-- The BF16 code of 2^e. -/
def powerHalf (e : Int) : Nat := encode bf16 0 (.fin false 1 e)

/-- The side block of a quantisation, COUNT included (R216). -/
def Quantised.side (q : Quantised) : List Byte :=
  ((List.range 4).flatMap fun i => leBytes 2 (powerHalf ((q.bands[i]?).getD 0)))
    ++ ((List.range 4).flatMap fun _ => leBytes 2 0x3F80)
    ++ leBytes 8 (q.entries.length + ofBool q.spilled * 2 ^ 63)
    ++ q.entries.flatMap fun e => leBytes 8 e.toNat

/-- The quantisation a drain makes of its elements. -/
def DrainOp.quantised (o : DrainOp) : Quantised :=
  quantise o.values o.geo (drMode o.sr) (decode bf16 (drThr o.sr))

/-! ### Cycles (R217) -/

/-- Bytes that ST writes at an SCR offset so many cycles later, a kerf noted (R148). -/
def State.drainWrite (s : State) (c due : Nat) (off : Int) (bs : List Byte) : State :=
  let ws := bs.zipIdx.map fun p => (off.toNat + p.2, p.1)
  (s.kerfCheck c off.toNat bs.length .st).modCtx c fun x => { x with pend := x.pend ++ [{ own := .st, ord := x.nextOrd, due := due, what := .bytes ws }] }

/-- The cycles from the first row to retirement (R217). -/
def DrainOp.latency (o : DrainOp) : Nat := if o.ty = 6 then 2 * drRows o.sr + 5 else drRows o.sr + 3

/-- The state after a drain has taken a row: the writes that follow from it. The row's output lands three cycles later; an `.e2m1`
drain writes everything after its last row, codes, scale codes and side block in that order. (DEDUCED, log entry 134.) -/
def State.drainRow (s : State) (c : Nat) (o : DrainOp) : State :=
  let n := drRows o.sr
  let r := o.taken - 1
  if o.ty ≠ 6 then s.drainWrite c 3 (o.rowAt r) (o.outBytes r)
  else if o.taken < n then s
  else
    let q := o.quantised
    let s1 := q.codes.zipIdx.foldl (fun s p => s.drainWrite c (4 + p.2) (o.rowAt p.2) (nibbleBytes p.1)) s
    let s2 := q.scales.foldl (fun s p => s.drainWrite c (n + 4) (o.scaleBase + p.1 : Nat) [BitVec.ofNat 8 p.2]) s1
    s2.drainWrite c (n + 5) (o.sideBase : Nat) q.side

/-- A drain with one more row, as the tile's drain record leaves it on the cycle of the read. -/
def DrainOp.take (o : DrainOp) (rec_ : DrainRecord) (row : Row) : DrainOp :=
  { o with rows := put 0#8192 o.rows o.taken (o.corrected rec_ o.taken row), taken := o.taken + 1 }

/-- The drain record of a tile of a core's live context. -/
def State.recordOf (s : State) (c t : Nat) : DrainRecord := get DrainRecord.cleared (s.ctx c).mat.records t

/-- One cycle of a drain, after the landings of that cycle: a drain of a tile reads its next row, and a drain goes when it retires. A
`drain.q` takes its rows at ST's head, and its cycles go on with its last one (R215). (DEDUCED, log entry 54.) (DEDUCED, log entry 133.) -/
def State.stepDrain (s : State) (c : Nat) (o : DrainOp) : State :=
  let n := drRows o.sr
  if o.queue ∧ o.taken < n then s.modMat c fun m => { m with drains := m.drains ++ [o] }
  else
    let o := { o with elapsed := o.elapsed + 1 }
    if o.latency ≤ o.elapsed then s
    else if o.taken < n then
      let o := o.take (s.recordOf c o.tile) ((s.core c).tileRow (tshBase o.tsh + o.taken))
      ((s.drainRow c o).rowsRead c [s.rowAt c (tshBase o.tsh + o.taken - 1)] .st).modMat c fun m => { m with drains := m.drains ++ [o] }
    else s.modMat c fun m => { m with drains := m.drains ++ [o] }

/-- One cycle of every drain of a core, after the landings of that cycle. -/
def State.stepDrains (s : State) (c : Nat) : State :=
  (s.ctx c).mat.drains.foldl (fun s o => s.stepDrain c o) (s.modMat c fun m => { m with drains := [] })

/-! ### The instructions (R214, R215) -/

/-- The first byte of a drain's output that lies outside SCR, if there is one (R214). -/
def drainOutside (base rows bytes scr : Nat) (stride : Int) : Option Word :=
  (List.range rows).findSome? fun (r : Nat) =>
    let a := (base : Int) + (r : Int) * stride
    if a < 0 ∨ (scr : Int) < a + bytes then some (BitVec.ofInt 64 a) else none

/-- The checks of R214 after those of the source: types, the set and the bounds; the drain it makes. (DEDUCED, log entry 54.) -/
def State.drainSetup (s : State) (queue : Bool) (tile : Nat) (tsh w : Word) (g : BitVec 4) : Check DrainOp := do
  let x := s.my
  let ty := s.unit.ty
  let n := g.toNat
  let src := if queue then drType w else tshType tsh
  legal (isComplex src == isComplex ty && src != 15 && ty != 15)
  legal (!(x.ring n).on && (ty != 6 || decide (n ≤ 13)))
  let base := x.agBase n
  let stride := x.agStride n 1
  let scr := (s.core s.unit.core).liveSl.scrBytes
  let bytes := if ty = 6 then ceilDiv (drCols w) 2 else drCols w * (elemBits ty / 8)
  match drainOutside base (drRows w) bytes scr stride with
  | some e => .error (.poolBound, e)
  | none =>
    if ty = 6 ∧ scr < x.agBase (n + 1) + 12288 then .error (.poolBound, BitVec.ofNat 64 (x.agBase (n + 1)))
    else if ty = 6 ∧ scr < x.agBase (n + 2) + 536 then .error (.poolBound, BitVec.ofNat 64 (x.agBase (n + 2)))
    else .ok { queue := queue, tile := tile, tsh := tsh, set := n, base := base, stride := stride, sr := w, ty := ty, geo := x.loc.stGeo
               scaleBase := x.agBase (n + 1), sideBase := x.agBase (n + 2), elapsed := 0, taken := 0, rows := [] }

/-- A body that waits while an earlier drain of ST has not retired (R217). -/
def drainUnit (body : State → Res) (s : State) : Res := if s.my.mat.drains ≠ [] then .stall .engine [] else body s

/-- DRAIN (R215): row 0 is read on the issue cycle. (DEDUCED, log entry 54.) -/
def drainBody (a g r : BitVec 4) : State → Res := drainUnit fun s =>
  let c := s.unit.core
  let w := s.here.reg r.toNat
  let k : Check DrainOp := do
    legal (drainWordOk w s.unit.ty)
    let t ← s.tile a.toNat
    legal (decide (drRows w ≤ tshRows t) && decide (drCol w + drCols w ≤ tshCols t) && drType w == 0)
    s.drainSetup false a.toNat t w g
  k.body fun o =>
    let o := o.take (s.recordOf c o.tile) ((s.core c).tileRow (tshBase o.tsh))
    .done (((s.drainRow c o).rowsRead c [s.rowAt c (tshBase o.tsh)] .st).modMat c fun m => { m with drains := [o] }) o.latency

/-- DRAIN (R215). -/
def execDrain (a g r : BitVec 4) (s : State) : Out State := issue (.drain a g r) (drainBody a g r) s

/-- A row taken from q6 by a `drain.q` at ST's head: the instruction issues with its last row (R215). -/
def State.drainTake (s : State) (g r : BitVec 4) (o : DrainOp) : Res :=
  let c := s.unit.core
  match (s.my.links.rqueue 6).items with
  | [] => .stall .flag [114]
  | row :: _ =>
    let o := o.take .cleared row
    let s1 := ((s.modLinks c fun l => l.rpop 6).drainRow c o).modMat c fun m => { m with drains := [o] }
    if o.taken < drRows o.sr then
      .over ((s1.modSeq c s.unit.sq fun q => { q with part := o.taken }).holdHead (.drainQ g r) .issue [])
    else .done (s1.modMat c fun m => { m with drains := [{ o with elapsed := drRows o.sr - 1 }] }) (o.latency - (drRows o.sr - 1))

/-- DRAIN_Q (R215), its first row. -/
def drainQBody (g r : BitVec 4) : State → Res := drainUnit fun s =>
  let w := s.here.reg r.toNat
  let k : Check DrainOp := do
    legal (drainWordOk w s.unit.ty)
    legal (drType w != 0 && decide (drCol w + drCols w ≤ lanesOf (drType w)))
    s.drainSetup true 0 0 w g
  k.body fun o => s.drainTake g r o

/-- DRAIN_Q (R215), a later row. -/
def drainQNext (g r : BitVec 4) (s : State) : Res :=
  match s.my.mat.drains with
  | o :: _ => s.drainTake g r o
  | [] => drainQBody g r s

/-- DRAIN_Q (R215): rows after the first go on from where the unit stands, its token pops made. -/
def execDrainQ (g r : BitVec 4) (s : State) : Out State :=
  if s.here.part = 0 then issue (.drainQ g r) (drainQBody g r) s else resume (.drainQ g r) (drainQNext g r) s

end Sys2Proof.Machine
end

