-- ==== Sys2Proof/Machine/Keys.lean ====
section
/-! DEFINITION. The keys of the security engine and what they sign: HKDF with SHA-384, and ECDSA over the 384-bit brainpool curve (R321, R322,
R324). -/
namespace Sys2Proof.Machine

/-! ### HKDF (RFC 5869) -/

/-- HMAC with SHA-384, whose blocks are of 128 bytes. -/
def hmac384 (key msg : List Byte) : List Byte :=
  let k := fit 128 (if 128 < key.length then sha384 key else key)
  sha384 (k.map (· ^^^ 0x5C#8) ++ sha384 (k.map (· ^^^ 0x36#8) ++ msg))

/-- The blocks of an HKDF expansion from block i on, 48 bytes each; `last` is the block before. -/
def hkdfBlocks (prk info : List Byte) : Nat → Nat → List Byte → List (List Byte)
  | 0, _, _ => []
  | n + 1, i, last =>
    let b := hmac384 prk (last ++ info ++ [BitVec.ofNat 8 i])
    b :: hkdfBlocks prk info n (i + 1) b

/-- HKDF with SHA-384: the n blocks of 48 bytes that come from a salt, a secret and an info. -/
def hkdf384 (salt secret info : List Byte) (n : Nat) : List (List Byte) := hkdfBlocks (hmac384 salt secret) info n 1 []

/-! ### The curve of R321 -/

/-- The prime of the field of brainpoolP384r1 (RFC 5639). -/
def curveP : Nat :=
  0x8CB91E82A3386D280F5D6F7E50E641DF152F7109ED5456B412B1DA197FB71123ACD3A729901D1A71874700133107EC53

/-- The coefficient A of the curve. -/
def curveA : Nat :=
  0x7BC382C63D8C150C3C72080ACE05AFA0C2BEA28E4FB22787139165EFBA91F90F8AA5814A503AD4EB04A8C7DD22CE2826

/-- The order of the group of the curve. -/
def curveQ : Nat :=
  0x8CB91E82A3386D280F5D6F7E50E641DF152F7109ED5456B31F166E6CAC0425A7CF3AB6AF6B7FC3103B883202E9046565

/-- The base point of the curve. -/
def curveG : Nat × Nat :=
  (0x1D1C64F068CF45FFA2A63A81B7C13F6B8847A3E77EF14FE3DB7FCAFE0CBD10E8E826E03436D646AAEF87B2E247D4AF1E,
   0x8ABE1D7520F9C2A45CB1EB8E95CFD55262B70B29FEEC5864E19C054FF99129280E4646217791811142820341263C5315)

/-- b ^ e mod m, by the n low bits of e. -/
def powMod (m : Nat) : Nat → Nat → Nat → Nat
  | 0, _, _ => 1 % m
  | n + 1, b, e =>
    let r := powMod m n (b * b % m) (e / 2)
    if e % 2 = 1 then b * r % m else r

/-- The inverse modulo a prime. -/
def invMod (m a : Nat) : Nat := powMod m 384 (a % m) (m - 2)

/-- The sum of two points; `none` is the point at infinity. -/
def pointAdd : Option (Nat × Nat) → Option (Nat × Nat) → Option (Nat × Nat)
  | none, b => b
  | a, none => a
  | some (x, y), some (u, v) =>
    if x = u ∧ (y + v) % curveP = 0 then none
    else
      let slope := if x = u then (3 * x * x + curveA) * invMod curveP (2 * y) else (v + curveP - y) * invMod curveP (u + curveP - x)
      let l := slope % curveP
      let w := (l * l + 2 * curveP - x - u) % curveP
      some (w, (l * (x + curveP - w) + curveP - y) % curveP)

/-- A multiple of a point, by the n low bits of the factor. -/
def pointMul : Nat → Nat → Option (Nat × Nat) → Option (Nat × Nat)
  | 0, _, _ => none
  | n + 1, k, p =>
    let r := pointMul n (k / 2) (pointAdd p p)
    if k % 2 = 1 then pointAdd p r else r

/-- A multiple of the base point. -/
def baseMul (k : Nat) : Option (Nat × Nat) := pointMul 384 k (some curveG)

/-! ### Keys and signatures -/

/-- What a key of the security engine is for: the device's identity, the alias, and the alias after a maker debug unlock (R322, R325). -/
inductive KeyUse where
  | identity
  | attest
  | debug
  deriving DecidableEq, Repr

/-- The code under which the derivation of a key is labelled. -/
def KeyUse.code : KeyUse → Nat
  | .identity => 0
  | .attest => 1
  | .debug => 2

/-- A private key derived from the fused secret and the bytes it depends on besides (R322): the first block of the expansion that is a valid
scalar of the curve. (PRESUMED, log entry 137.) -/
def deviceKey (use : KeyUse) (context : List Byte) : Option Nat :=
  ((hkdf384 (Config.keySalt use.code) (beBytes 48 Config.fusedSecret.toNat) (Config.keyInfo use.code context) 255).map beNat).find?
    fun k => decide (0 < k ∧ k < curveQ)

/-- The public key of a private one, as the coordinates of its point. -/
def publicKey (k : Nat) : List Byte :=
  match baseMul k with
  | some (x, y) => beBytes 48 x ++ beBytes 48 y
  | none => []

/-- An ECDSA signature with a private key over bytes: r, then s (R324). The secret number of the signature is free. -/
def ecdsaSign (key : Nat) (bs : List Byte) : List Byte :=
  let k := Config.signingNonce key bs
  let r := match baseMul k with
    | some (x, _) => x % curveQ
    | none => 0
  beBytes 48 r ++ beBytes 48 (invMod curveQ k * (beNat (sha384 bs) + r * key) % curveQ)

/-- The device identity key: from the secret alone (R322). -/
def identityKey : Option Nat := deviceKey .identity []

/-- The alias key: from the secret, MR0 and the security version; a maker debug unlock replaces it by one under a label of its own (R322,
R325). (PRESUMED, log entry 137.) -/
def State.aliasKey (s : State) : Option Nat :=
  deviceKey (if s.hub.unlocked then .debug else .attest) (leBytes 48 (get 0 s.hub.mr 0).toNat ++ leBytes 8 Config.securityVersion)

/-- The certificate for the alias key that the identity key signs at a boot (R322): its fields, and the signature over them. -/
def State.aliasCertificate (s : State) : List Byte :=
  match identityKey, s.aliasKey with
  | some d, some a =>
    let body := Config.certificateFields (publicKey a)
    body ++ ecdsaSign d body
  | _, _ => []

end Sys2Proof.Machine
end

