-- ==== Sys2Proof/Machine/Spectral.lean ====
section
/-! DEFINITION. The transform unit of MX (R179, R182 to R185, R235 to R239): twiddles, the butterflies of a block, the three transform
operations and their cycles. -/
namespace Sys2Proof.Machine

/-! ### Twiddles (R236) -/

/-- arctan (1 / n) in units of 2^-p, from a term 1 / n^(2k+1). -/
def atanSum (n2 : Nat) : Nat → Nat → Int → Int
  | 0, _, _ => 0
  | f + 1, k, t => t / (2 * k + 1) + atanSum n2 f (k + 1) (-(t / n2))

/-- π in units of 2^-p. -/
def piUnits (p : Nat) : Int :=
  16 * atanSum 25 p 0 ((2 ^ p / 5 : Nat) : Int) - 4 * atanSum (239 * 239) p 0 ((2 ^ p / 239 : Nat) : Int)

/-- Σ (-1)^j θ^(2j+i) / (2j+i)!, from a term, in units of 2^-p; i is 0 for a cosine and 1 for a sine. -/
def circleSum (p : Nat) (th2 : Int) : Nat → Nat → Int → Int
  | 0, _, _ => 0
  | f + 1, k, t => t + circleSum p th2 f (k + 2) (-(t * th2 / ((2 ^ p : Nat) * ((k + 1) * (k + 2) : Nat))))

/-- The FP32 value nearest a number of units of 2^-p. -/
def unitsValue (p : Nat) (v : Int) : Num := decode fp32 (encodeRatio fp32 0 (decide (v < 0)) v.natAbs (2 ^ p))

/-- TW_b[k] (R236): the parts of e^(-2πik/b), each rounded once to FP32; an exactly zero part is +0. -/
def twiddle (b k : Nat) : Num × Num :=
  let p := 96
  let th := 2 * piUnits p * (k : Int) / (b : Int)
  let th2 := th * th / (2 ^ p : Nat)
  (if 4 * k = b then .zero else unitsValue p (circleSum p th2 40 0 (2 ^ p : Nat)),
   if k = 0 then .zero else unitsValue p (-(circleSum p th2 40 1 th)))

/-- The twiddle table of a block size (R236). -/
def twiddles (b : Nat) : List (Num × Num) := (List.range (b / 2)).map (twiddle b)

/-! ### A block (R237, R238) -/

/-- A result of the transform unit rounded to FP32; an exactly zero one is +0 (R237). -/
def unitRound (x : Num) : Num := if x.isZero then .zero else rne32 x

/-- The low n bits of j in reverse order. -/
def bitrev : Nat → Nat → Nat
  | _, 0 => 0
  | j, n + 1 => j % 2 * 2 ^ n + bitrev (j / 2) n

/-- One butterfly: the two results of u, v and a twiddle. -/
def butterfly (w u v : Num × Num) : (Num × Num) × (Num × Num) :=
  let t := (unitRound ((w.1.mul v.1).sub (w.2.mul v.2)), unitRound ((w.1.mul v.2).add (w.2.mul v.1)))
  ((unitRound (u.1.add t.1), unitRound (u.2.add t.2)), (unitRound (u.1.sub t.1), unitRound (u.2.sub t.2)))

/-- Stage s over a block, with groups of 2m (R237). -/
def stagePass (tw : List (Num × Num)) (b s : Nat) (y : List (Num × Num)) : List (Num × Num) :=
  let m := 2 ^ (s - 1)
  let z : Num × Num := (.zero, .zero)
  (List.range b).map fun i =>
    let k := i % (2 * m)
    let w := (tw[k % m * (b / 2 ^ s)]?).getD z
    if k < m then (butterfly w ((y[i]?).getD z) ((y[i + m]?).getD z)).1
    else (butterfly w ((y[i - m]?).getD z) ((y[i]?).getD z)).2

/-- The procedure of R237 on a block of 2^lb values in natural order. -/
def transformBlock (tw : List (Num × Num)) (lb : Nat) (x : List (Num × Num)) : List (Num × Num) :=
  let b := 2 ^ lb
  let y := (List.range b).map fun i => (x[bitrev i lb]?).getD (.zero, .zero)
  (List.range lb).foldl (fun y s => stagePass tw b (s + 1) y) y

/-- The packed spectrum of a real block (R179, R237). -/
def forwardBlock (tw : List (Num × Num)) (lb : Nat) (x : List Num) : List (Num × Num) :=
  let h := 2 ^ lb / 2
  let y := transformBlock tw lb (x.map fun v => (v, .zero))
  let at_ := fun (i : Nat) => (y[i]?).getD (.zero, .zero)
  (List.range h).map fun i => if i = 0 then ((at_ 0).1, (at_ h).1) else at_ i

/-- The real block of a packed spectrum, before its final rounding (R238). -/
def inverseBlock (tw : List (Num × Num)) (lb : Nat) (slots : List (Num × Num)) : List Num :=
  let b := 2 ^ lb
  let h := b / 2
  let at_ := fun (i : Nat) => (slots[i]?).getD (.zero, .zero)
  let y := (List.range b).map fun i =>
    if i = 0 then ((at_ 0).1, .zero) else if i = h then ((at_ 0).2, .zero)
    else if i < h then at_ i else ((at_ (b - i)).1, (at_ (b - i)).2.neg)
  (transformBlock (tw.map fun w => (w.1, w.2.neg)) lb y).map (·.1)

/-! ### Rows -/

/-- A row of spectra from a row of A under `xf.fwd` (R182, R237): the columns of A's blocks. -/
def forwardRow (aTsh dTsh : Word) (lb : Nat) (r : Row) : Row :=
  let b := 2 ^ lb
  let tw := twiddles b
  let x := (lanes (elemBits (tshType aTsh)) r).take (tshCols aTsh)
  ofElems (elemBits (tshType dTsh)) ((chunks b (tshCols aTsh / b) x).flatMap fun l =>
    (forwardBlock tw lb (l.map (valueOf (tshType aTsh)))).map fun p => ofParts (tshType dTsh) 0 p.1 p.2)

/-- A row of blocks from a row of spectra under `xf.inv` (R183, R238). -/
def inverseRow (aTsh dTsh : Word) (lb : Nat) (r : Row) : Row :=
  let h := 2 ^ lb / 2
  let tw := twiddles (2 ^ lb)
  let x := (lanes (elemBits (tshType aTsh)) r).take (tshCols aTsh)
  ofElems (elemBits (tshType dTsh)) ((chunks h (tshCols aTsh / h) x).flatMap fun l =>
    (inverseBlock tw lb (l.map (partsOf (tshType aTsh)))).map fun v =>
      elementOf (tshType dTsh) 0 (if v.isZero then .zero else v.scale (-(lb : Int))))

/-- A part times 2^e; an exactly zero one is +0 (R184, R237). -/
def scalePart (e : Int) (x : Num) : Num := if x.isZero then .zero else x.scale e

/-- A row of spectra times 2^e (R184). -/
def scaleRowBy (aTsh : Word) (e : Int) (r : Row) : Row :=
  ofElems (elemBits (tshType aTsh)) ((lanes (elemBits (tshType aTsh)) r).map fun c =>
    let p := partsOf (tshType aTsh) c
    ofParts (tshType aTsh) 0 (scalePart e p.1) (scalePart e p.2))

/-- What an operation writes for a row of A. -/
def TransformOp.result (o : TransformOp) (r : Row) : Row :=
  match o.instr with
  | .xfFwd .. => forwardRow o.aTsh o.dTsh o.lb r
  | .xfInv .. => inverseRow o.aTsh o.dTsh o.lb r
  | _ => scaleRowBy o.aTsh o.exp r

/-- The cycles from reading a row to writing it (R185). -/
def TransformOp.delay (o : TransformOp) : Nat :=
  match o.instr with
  | .domScl .. => 2
  | _ => 4 * o.lb + 8

/-- The cycles from issue to retirement: the last row is written (R185). -/
def TransformOp.latency (o : TransformOp) : Nat := tshRows o.aTsh - 1 + o.delay

/-- An operation after it has read the row of its cycle. -/
def TransformOp.readRow (o : TransformOp) (k : Core) : TransformOp :=
  if o.elapsed < tshRows o.aTsh then
    { o with rows := put 0#8192 o.rows o.elapsed (o.result (k.tileRow (tshBase o.aTsh + o.elapsed))) }
  else o

/-- The pool row that an operation reads on its cycle. -/
def TransformOp.rowRead (o : TransformOp) (s : State) (c : Nat) : List Nat :=
  if o.elapsed < tshRows o.aTsh then [s.rowAt c (tshBase o.aTsh + o.elapsed)] else []

/-- A core after the row of an operation's cycle has been written (R185). -/
def TransformOp.landOn (o : TransformOp) (k : Core) : Core :=
  if o.elapsed < o.delay then k
  else
    let i := o.elapsed - o.delay
    k.landRow (tshBase o.dTsh + i) (BitVec.ofNat 8192 (2 ^ (elemBits (tshType o.dTsh) * tshCols o.dTsh) - 1)) (get 0#8192 o.rows i)

/-- One cycle of every transform operation of a core, after the landings of that cycle. -/
def State.stepTransforms (s : State) (c : Nat) : State :=
  ((s.ctx c).mat.xops.foldl (fun s o => s.rowsRead c (o.rowRead s c) .mx) s).modMat c fun m => { m with
    xops := (m.xops.filter fun o => decide (o.elapsed < o.latency)).map fun o => o.readRow (s.core c) }

/-! ### Clearing a tile (R178) -/

/-- The state in which a drain that has read a row on this cycle has read it again (R191, R217). -/
def State.rereadDrain (s : State) (c : Nat) (o : DrainOp) : State :=
  if o.queue ∨ o.elapsed + 1 ≠ o.taken ∨ o.elapsed = 0 then s.modMat c fun m => { m with drains := m.drains ++ [o] }
  else
    let r := o.taken - 1
    let o1 := ({ o with taken := r } : DrainOp).take (s.recordOf c o.tile) ((s.core c).tileRow (tshBase o.tsh + r))
    ((s.modCtx c fun x => { x with pend := x.pend.filter fun p => p.own != .st || decide (p.due < 3) }).drainRow c o1).modMat c fun m =>
      { m with drains := m.drains ++ [o1] }

/-- The state in which the operations in progress on the array and the transform unit, and a drain in progress, have read their rows of
this cycle after the write of a row that an `mzero` makes on its issue cycle (R175, R178, R185, R191, R217). -/
def State.reread (s : State) (c : Nat) : State :=
  let s1 := s.modMat c fun m => { m with
    ops := m.ops.map (ArrayOp.reread (s.core c)), xops := m.xops.map (fun o => o.readRow (s.core c)), drains := [] }
  (s.ctx c).mat.drains.foldl (fun a o => a.rereadDrain c o) s1

/-- MZERO (R178). -/
def mzeroBody (d : BitVec 4) : State → Res := arrayUnit false fun s =>
  (s.tile d.toNat).body fun t =>
    let o := { s.newOp .zero 0 d t 0 0 [] with feeding := none, set := .none }
    let s1 := (s.modRecord d.toNat fun _ => DrainRecord.cleared).modCtx s.unit.core fun x =>
      x.setShape d.toNat (x.shape d.toNat ||| BitVec.ofNat 64 (2 ^ 36))
    .done ((s1.startOp o).reread s.unit.core) o.latency

/-- MZERO (R178). -/
def execMzero (d : BitVec 4) (s : State) : Out State := issue (.mzero d) (mzeroBody d) s

/-! ### The instructions (R182 to R184) -/

/-- A body that waits while the transform unit reads the rows of an earlier operation (R185). -/
def transformUnit (body : State → Res) (s : State) : Res := if s.my.mat.xbusy ≠ 0 then .stall .engine [] else body s

/-- Whether a spatial and a spectral shape are a pair (R179): types, rows and columns. -/
def spectralPair (spatial spectral : Word) : Bool :=
  ((tshType spatial == 3 && tshType spectral == 13) || (tshType spatial == 1 && tshType spectral == 14))
    && tshRows spatial == tshRows spectral && tshCols spatial == 2 * tshCols spectral

/-- A transform operation issued: tags written at once, row 0 read (R185). -/
def State.startTransform (s : State) (i : Instr) (d : BitVec 4) (lb : Nat) (e : Int) (dTsh aTsh : Word) (dom : Bool) (tagLb : Nat)
    (sexp : Int) : Res :=
  let c := s.unit.core
  let o := ({ instr := i, ord := s.my.nextOrd, lb := lb, exp := e, dTsh := dTsh, aTsh := aTsh, elapsed := 0, rows := [] } :
    TransformOp).readRow (s.core c)
  let s1 := s.tagTile d.toNat dom tagLb sexp
  .done ((s1.modMat c fun m => { m with xops := m.xops ++ [o], xbusy := tshRows aTsh }).rowsRead c [s.rowAt c (tshBase aTsh)] .mx) o.latency

/-- XF_FWD (R182). -/
def xfFwdBody (d a r : BitVec 4) : State → Res := transformUnit fun s =>
  let lb := bits (s.sr r) 2 0
  let k : Check (Word × Word) := do
    legal (s.sr r / 8 == 0 && decide (2 ≤ lb))
    let t ← s.tile d.toNat
    let u ← s.tile a.toNat
    if tshDom u then .error (.domain, 0)
    legal (tshCols u % 2 ^ lb == 0 && spectralPair u t)
    pure (t, u)
  k.body fun p =>
    (s.modRecord d.toNat fun _ => DrainRecord.cleared).startTransform (.xfFwd d a r) d lb 0 p.1 p.2 true lb 0

/-- XF_FWD (R182). -/
def execXfFwd (d a r : BitVec 4) (s : State) : Out State := issue (.xfFwd d a r) (xfFwdBody d a r) s

/-- XF_INV (R183). -/
def xfInvBody (d a : BitVec 4) : State → Res := transformUnit fun s =>
  let k : Check (Word × Word) := do
    let t ← s.tile d.toNat
    let u ← s.tile a.toNat
    if ¬ tshDom u ∨ tshSexp u ≠ 0 then .error (.domain, 0)
    legal (tshCols u % (2 ^ tshLb u / 2) == 0 && spectralPair t u)
    pure (t, u)
  k.body fun p => s.startTransform (.xfInv d a) d (tshLb p.2) 0 p.1 p.2 false 0 0

/-- XF_INV (R183). -/
def execXfInv (d a : BitVec 4) (s : State) : Out State := issue (.xfInv d a) (xfInvBody d a) s

/-- DOM_SCL (R184). -/
def domSclBody (d a r : BitVec 4) : State → Res := transformUnit fun s =>
  let e := signed 6 (s.sr r)
  let k : Check (Word × Word) := do
    legal (s.sr r / 64 == 0)
    let t ← s.tile d.toNat
    let u ← s.tile a.toNat
    if ¬ tshDom u then .error (.domain, 0)
    legal (d == a || (tshType t == tshType u && tshRows t == tshRows u && tshCols t == tshCols u))
    if tshSexp u + e < -32 ∨ 31 < tshSexp u + e then .error (.domain, 0)
    pure (t, u)
  k.body fun p => s.startTransform (.domScl d a r) d (tshLb p.2) e p.1 p.2 true (tshLb p.2) (tshSexp p.2 + e)

/-- DOM_SCL (R184). -/
def execDomScl (d a r : BitVec 4) (s : State) : Out State := issue (.domScl d a r) (domSclBody d a r) s

end Sys2Proof.Machine
end

