-- ==== Sys2Proof/Machine/Landing.lean ====
section
/-! DEFINITION. The results that land at the beginning of a cycle, in the order of issue (R190, R245, R331). -/
namespace Sys2Proof.Machine

/-- The sequencers whose side runs on a cycle: in a slip, LD and MX are frozen with their pipelines (R22, R116). -/
def sides (slip : Bool) : List Stream := if slip then [.ctl, .st] else [.ctl, .ld, .mx, .st]

/-- A function of a core put in the order of issue among others. -/
def insertByOrder (x : Nat × (Core → Core)) : List (Nat × (Core → Core)) → List (Nat × (Core → Core))
  | [] => [x]
  | y :: ys => if x.1 < y.1 then x :: y :: ys else y :: insertByOrder x ys

/-- Whether a result belongs to a side that runs on a cycle. -/
def Pend.runs (p : Pend) (slip : Bool) : Bool := (sides slip).contains p.own

/-- The results of a context one cycle nearer to landing, those of frozen sides apart (R331). -/
def Ctx.age (x : Ctx) (slip : Bool) : Ctx :=
  { x with
    pend := x.pend.map fun p => if p.runs slip then { p with due := p.due - 1 } else p
    mat := if slip then x.mat else { x.mat with
      ops := x.mat.ops.map fun o => { o with elapsed := o.elapsed + 1 }
      xops := x.mat.xops.map fun o => { o with elapsed := o.elapsed + 1 } } }

/-- Whether a result lands now. -/
def Pend.lands (p : Pend) (slip : Bool) : Bool := p.runs slip && p.due == 0

/-- What lands on a core on this cycle, in the order of issue. -/
def Ctx.landings (x : Ctx) (slip : Bool) : List (Nat × (Core → Core)) :=
  let ready := (x.pend.filter fun p => p.lands slip).map fun p => (p.ord, fun (k : Core) => k.land p.what)
  let ops := if slip then [] else
    x.mat.ops.map (fun o => (o.ord, o.landOn)) ++ x.mat.xops.map fun o => (o.ord, o.landOn)
  (ready ++ ops).foldl (fun l p => insertByOrder p l) []

/-- The SCR offsets that what lands writes. -/
def Landing.offsets : Landing → List Nat
  | .bytes ws => ws.map (·.1)
  | _ => []

/-- What is left to land when others have been written since: the bytes at some offsets have been overwritten. -/
def Landing.without (l : Landing) (os : List Nat) : Landing :=
  match l with
  | .bytes ws => if os = [] then l else .bytes (ws.filter fun w => !os.contains w.1)
  | _ => l

/-- The SCR offsets written on this cycle for instructions that a stream issued after the one at a place (R245). -/
def Ctx.overtaking (x : Ctx) (slip : Bool) (sm : Stream) (n : Nat) : List Nat :=
  (x.pend.filter fun p => p.lands slip && p.own == sm && decide (n < p.ord)).flatMap fun p => p.what.offsets

/-- What is left of a context's results after those of this cycle have landed. A byte that a later instruction of the stream has
written meanwhile is not written again (R245). -/
def Ctx.keepPend (x : Ctx) (slip : Bool) : Ctx :=
  { x with pend := x.pend.filterMap fun p =>
      if p.lands slip then p.what.next.map fun w => { p with due := 1, what := w }
      else some { p with what := p.what.without (x.overtaking slip p.own p.ord) } }

/-- A core after the landings of this cycle. -/
def Core.landAll (k : Core) (slip : Bool) : Core :=
  let k1 := { k with live := k.live.age slip }
  (k1.live.landings slip).foldl (fun k p => p.2 k) { k1 with live := k1.live.keepPend slip }

end Sys2Proof.Machine
end

