-- ==== Sys2Proof/Machine/Rings.lean ====
section
/-! DEFINITION. Rings (R132 to R135), gathers and scatters (R145, R146), scratchpad allocation (R147) and the instruction-memory load
(R151). -/
namespace Sys2Proof.Machine

/-! ### Rings -/

/-- A value of AGnD0 or AGnD1: a count and a stride (R69). -/
def agDim (count stride : Nat) : Word := BitVec.ofNat 64 ((count - 1) % 2 ^ 16 + stride % 2 ^ 32 * 2 ^ 16)

/-- A context whose set n has become a ring of slots of `size` bytes (R133); HSLOT, which names the slot that HELD speaks of, stands. -/
def Ctx.initRing (x : Ctx) (n size slots : Nat) : Ctx :=
  let ag1 := put 0#64 x.loc.ag (5 * n + 1) (agDim size 1)
  let ag2 := put 0#64 ag1 (5 * n + 2) (agDim slots size)
  { x with loc := { x.loc with
      ag := ag2
      rings := update RingState.off x.loc.rings n fun r =>
        { r with on := true, slotsM1 := slots - 1, head := 0, count := 0, held := false } } }

/-- RING_INIT (R133): ILLEGAL sizes, then POOL_BOUND, then the wait for reservations in flight. (DEDUCED, log entry 53.) -/
def ringInitBody (n : BitVec 4) (a b : BitVec 5) (s : State) : Res :=
  let size := (s.r a).toNat
  let slots := (s.r b).toNat
  let base := s.my.agBase n.toNat
  if size % 64 ≠ 0 ∨ size < 64 ∨ 65536 < size ∨ slots < 1 ∨ 64 < slots then .trap .illegal 0
  else if (s.core s.unit.core).liveSl.scrBytes < base + size * slots then .trap .poolBound (BitVec.ofNat 64 base)
  else if (s.my.ring n.toNat).rsv ≠ 0 then .stall .engine []
  else .done (s.modCtx s.unit.core fun x => x.initRing n.toNat size slots) 0

/-- RING_INIT (R133). -/
def execRingInit (d : BitVec 4) (a b : BitVec 5) (s : State) : Out State := issue (.ringInit d a b) (ringInitBody d a b) s

/-- The flight of a `ring.push`, which retires when its slot is counted (R135). -/
def State.flyUntil (s : State) (n k : Nat) : State :=
  s.modSeq s.unit.core s.unit.sq fun q =>
    { q with flight := q.flight ++ [{ due := 0, pushM := 0, ring := none, after := some (n, k), need := s.unit.need, late := false, no := q.icnt + 1 }] }

/-- RING_PUSH (R135): a slot is reserved as by `copy.ring`, and a command moves S bytes from SCR offset A into it. (DEDUCED, log entry 32.) -/
def ringPushBody (d : BitVec 4) (a : BitVec 5) (s : State) : Res :=
  let c := s.unit.core
  let i := Instr.ringPush d a
  let p := s.plan i
  if s.ringOff c p then .trap .illegal 0
  else if 2 ^ 32 ≤ (s.r a).toNat then .trap .poolBound (s.r a)
  else
    match s.checkPlan c p false with
    | some (e, info) => .trap e info
    | none =>
      if queueRoom ≤ s.my.eng.cmds.length then .stall .engine []
      else
        match (s.my.ring d.toNat).reserve with
        | none => .stall .engine []
        | some (k, r) =>
          let base := scrAddress (s.my.agBase d.toNat + k * s.my.slotSize d.toNat)
          let cmd := { newCommand i [base, p.src, p.lenw, 0] (s.my.slotSize d.toNat) 0 [] (s.aim c) with slot := some (d.toNat, k) }
          .done (((s.modCtx c fun x => x.modRing d.toNat fun _ => r).append c cmd).flyUntil d.toNat k) 0

/-- RING_PUSH (R135). -/
def execRingPush (d : BitVec 4) (a : BitVec 5) (s : State) : Out State := issue (.ringPush d a) (ringPushBody d a) s

/-- A ring after `ring.pop` (R135). -/
def RingState.pop (r : RingState) : RingState :=
  { r with held := true, hslot := r.head, head := (r.head + 1) % (r.slotsM1 + 1), count := r.count - 1 }

/-- RING_POP (R135): the head slot's address into D, the slot held. -/
def ringPopBody (d : BitVec 5) (n : BitVec 4) (s : State) : Res :=
  let r := s.my.ring n.toNat
  if ¬ r.on then .trap .illegal 0
  else if r.count = 0 then .stall .flag [117]
  else
    let v := BitVec.ofNat 64 (s.my.agBase n.toNat + r.head * s.my.slotSize n.toNat)
    .done ((s.modCtx s.unit.core fun x => x.modRing n.toNat RingState.pop).setR d v) 0

/-- RING_POP (R135). -/
def execRingPop (d : BitVec 5) (a : BitVec 4) (s : State) : Out State := issue (.ringPop d a) (ringPopBody d a) s

/-! ### Gathers -/

/-- The lowest address a set enumerates. -/
def Ctx.agLow (x : Ctx) (n : Nat) : Int :=
  (List.range 4).foldl (fun a d => a + Min.min 0 ((x.agCount n d - 1 : Nat) * x.agStride n d)) (x.agBase n : Int)

/-- The highest address a set enumerates. -/
def Ctx.agHigh (x : Ctx) (n : Nat) : Int :=
  (List.range 4).foldl (fun a d => a + Max.max 0 ((x.agCount n d - 1 : Nat) * x.agStride n d)) (x.agBase n : Int)

/-- The address of a set that lies outside SCR, if there is one. -/
def Ctx.agOutside (x : Ctx) (n scr : Nat) : Option Word :=
  if x.agLow n < 0 then some (BitVec.ofInt 64 (x.agLow n))
  else if (scr : Int) ≤ x.agHigh n then some (BitVec.ofInt 64 (x.agHigh n))
  else none

/-- Whether a set's runs move at 64 bytes per cycle (R145). -/
def Ctx.agFast (x : Ctx) (n : Nat) : Bool :=
  x.agStride n 0 == 1 && x.agBase n % 64 == 0 && x.agCount n 0 % 64 == 0
    && [1, 2, 3].all fun d => x.agCount n d == 1 || x.agStride n d % 64 == 0

/-- The cycles a move of P points takes (R145). -/
def gatherCycles (points : Nat) (fast : Bool) : Nat := if fast then ceilDiv points 64 else ceilDiv points 8

/-- The byte that a move of LD still owes an SCR offset; of two points with one destination the later stands (R145). -/
def Pend.owes (p : Pend) (o : Nat) : Option Byte :=
  match p.own, p.what with
  | .ld, .bytes ws => (ws.reverse.find? fun w => w.1 == o).map (·.2)
  | _, _ => none

/-- The byte of SCR that LD reads: its accesses to one byte are in program order, so a move that has yet to land is seen (R245). -/
def Core.ldByte (k : Core) (o : Nat) : Byte :=
  match (k.live.pend.filterMap fun p => p.owes o).getLast? with
  | some b => if k.live.onKerf o then 0 else b
  | none => k.scrByte o

/-- The kerf bytes among points touched by an agent (R148). -/
def State.touchPoints (s : State) (c : Nat) (ag : Agent) (pts : List Nat) : State :=
  (pts.filter fun o => (s.ctx c).onKerf o).foldl (fun s o => s.kerfTouch c o ag) s

/-- The uncorrectable words among points read by LD (R347). -/
def State.readWords (s : State) (c : Nat) (pts : List Nat) : State :=
  s.poolRead c (fun w => pts.any fun o => ((s.core c).liveSl.scrStart + o) / 8 == w) .ld

/-- Points read by LD: the kerf bytes and the uncorrectable words among them (R148, R347). -/
def State.readPoints (s : State) (c : Nat) (pts : List Nat) : State := (s.touchPoints c .ld pts).readWords c pts

/-- The writes of a gather: each destination point with the byte its source point held before any write (R145). (DEDUCED, log entry 34.) -/
def gatherWrites (read : Nat → Byte) (src dst : List Nat) : List (Nat × Byte) := (dst.zip src).map fun p => (p.1, read p.2)

/-- The writes of a scatter: each source byte is read after the writes of the points before it, of which one to a kerf byte is dropped (R145,
R148). (DEDUCED, log entry 34.) -/
def scatterWrites (kerf : Nat → Bool) (read : Nat → Byte) (src dst : List Nat) : List (Nat × Byte) :=
  ((dst.zip src).foldl (fun (a : List (Nat × Byte)) p =>
    (p.1, ((a.find? fun w => w.1 == p.2 && !kerf p.2).map (·.2)).getD (read p.2)) :: a) []).reverse

/-- The points that a gather touches, in order: every source before any destination; and those of a scatter: point by point (R145, R148). -/
def touchOrder (scatter : Bool) (src dst : List Nat) : List Nat :=
  if scatter then (src.zip dst).flatMap fun p => [p.1, p.2] else src ++ dst

/-- The points of a set as SCR offsets. -/
def Ctx.agOffsets (x : Ctx) (n : Nat) : List Nat := (List.range (x.agPoints n)).map fun p => (x.agPoint n p).toNat

/-- GATH and SCAT (R145): bounds and point counts at issue; the bytes are written at retirement. (DEDUCED, log entry 51.) -/
def moveBody (d a : BitVec 4) (scatter : Bool) (s : State) : Res :=
  let c := s.unit.core
  let x := s.my
  let k := s.core c
  let n := a.toNat
  let m := d.toNat
  if x.agPoints n ≠ x.agPoints m then .trap .illegal 0
  else
    match x.agOutside n k.liveSl.scrBytes, x.agOutside m k.liveSl.scrBytes with
    | some e, _ => .trap .poolBound e
    | none, some e => .trap .poolBound e
    | none, none =>
      let src := x.agOffsets n
      let dst := x.agOffsets m
      let lat := gatherCycles (x.agPoints n) (x.agFast n && x.agFast m)
      let ws := if scatter then scatterWrites x.onKerf k.ldByte src dst else gatherWrites k.ldByte src dst
      let s1 := (s.touchPoints c .ld (touchOrder scatter src dst)).readWords c src
      .done (s1.modCtx c fun x => { x with pend := x.pend ++ [{ own := .ld, ord := x.nextOrd, due := lat, what := .bytes ws }] }) lat

/-- GATH (R145). -/
def execGath (d a : BitVec 4) (s : State) : Out State := issue (.gath d a) (moveBody d a false) s

/-- SCAT (R145). -/
def execScat (d a : BitVec 4) (s : State) : Out State := issue (.scat d a) (moveBody d a true) s

/-- Row r of a set's points, the last row's tail zero (R146). -/
def State.gathRow (s : State) (c n r : Nat) : Row :=
  let x := s.ctx c
  rowOf ((List.range 1024).map fun i =>
    if 1024 * r + i < x.agPoints n then (s.core c).ldByte (x.agPoint n (1024 * r + i)).toNat else 0)

/-- GATH_Q (R146): one row a turn into q5 while it has room; the instruction issues with its last row. -/
def gathQBody (a : BitVec 4) (s : State) : Res :=
  let c := s.unit.core
  let n := a.toNat
  match s.my.agOutside n (s.core c).liveSl.scrBytes with
  | some e => .trap .poolBound e
  | none =>
    if ¬ s.my.links.rroom 5 then .stall .flag [113]
    else
      let r := s.here.part
      let pts := (List.range 1024).filterMap fun i =>
        if 1024 * r + i < s.my.agPoints n then some (s.my.agPoint n (1024 * r + i)).toNat else none
      let s1 := (s.modLinks c fun l => l.rpush 5 (s.gathRow c n r)).readPoints c pts
      if r + 1 < ceilDiv (s.my.agPoints n) 1024 then
        .over ((s1.modSeq c s.unit.sq fun q => { q with part := r + 1 }).holdHead (.gathQ a) .issue [])
      else .done s1 0

/-- GATH_Q (R146): rows after the first go on from where the unit stands, its token pops made. -/
def execGathQ (a : BitVec 4) (s : State) : Out State :=
  if s.here.part = 0 then issue (.gathQ a) (gathQBody a) s else resume (.gathQ a) (gathQBody a) s

/-! ### Scratchpad allocation -/

/-- A context with the kerf of 64 SCR bytes set or cleared. -/
def Ctx.setKerf (x : Ctx) (o : Nat) (b : Bool) : Ctx := { x with loc := { x.loc with kerf := put false x.loc.kerf (o / 64) b } }

/-- SALLOC (R147). -/
def sallocBody (d a : BitVec 5) (s : State) : Res :=
  let n := (s.r a).toNat
  let x := s.my
  if n = 0 ∨ 2 ^ 32 ≤ n then .trap .illegal 0
  else
    let len := ceilDiv n 64 * 64
    if x.loc.allocs.length = 64 ∨ x.loc.satop < len + 128 then .done (s.setR d (-1)) 0
    else
      let top := x.loc.satop - 128 - len
      let s1 := s.modCtx s.unit.core fun x =>
        let x1 := (x.setKerf (x.loc.satop - 64) true).setKerf top true
        { x1 with loc := { x1.loc with satop := top, allocs := (top + 64, len) :: x1.loc.allocs } }
      .done (s1.setR d (BitVec.ofNat 64 (top + 64))) 0

/-- SALLOC (R147). -/
def execSalloc (d a : BitVec 5) (s : State) : Out State := issue (.salloc d a) (sallocBody d a) s

/-- SFREE (R147). -/
def sfreeBody (a : BitVec 5) (s : State) : Res :=
  match s.my.loc.allocs with
  | [] => .trap .illegal 0
  | (top, len) :: rest =>
    if (s.r a).toNat ≠ top then .trap .illegal 0
    else
      .done (s.modCtx s.unit.core fun x =>
        let x1 := (x.setKerf (top - 64) false).setKerf (top + len) false
        { x1 with loc := { x1.loc with satop := x1.loc.satop + 128 + len, allocs := rest } }) 0

/-- SFREE (R147). -/
def execSfree (a : BitVec 5) (s : State) : Out State := issue (.sfree a) (sfreeBody a) s

/-! ### Instruction-memory load (R151) -/

/-- The halfwords of a list of bytes. -/
def halvesOf : List Byte → List Half
  | a :: b :: bs => (b ++ a) :: halvesOf bs
  | _ => []

/-- A sequencer with halfwords written into its instruction memory from an offset, and IMLDW set (R151, R342). -/
def Seq.loadImem (q : Seq) (off : Nat) (hs : List Half) : Seq :=
  { q with imem := hs.zipIdx.foldl (fun m p => put 0xFFFF#16 m (off + p.2) p.1) q.imem, imldw := true }

/-- The source of `imld` read 64 bytes at a time: what was read, and why it stopped. -/
inductive ImRead where
  | all (bs : List Byte) | bad (bs : List Byte) (a : Word) | fault (c : Cause) (info : Word) | stall

/-- The lines of an instruction-memory load read in order (R151). -/
def State.imRead (s : State) (c : Nat) : Word → Nat → State × ImRead
  | _, 0 => (s, .all [])
  | a, n + 1 =>
    match s.resolve c a 64 true false with
    | .fault t e i => (t, .fault e i)
    | .stall => (s, .stall)
    | .at s1 l =>
      if s1.waitsAt c l then (s1, .stall)
      else if s1.uncorrAt c l 64 then (s1, .bad [] a)
      else
        let bs := s1.bytesAt c l 64
        match (s1.touched c l 64).imRead c (plus a 64) n with
        | (s2, .all r) => (s2, .all (bs ++ r))
        | (s2, .bad r b) => (s2, .bad (bs ++ r) b)
        | r => r

/-- IMLD (R151): the checks, then the halfwords loaded, 32 in a cycle; an uncorrectable line stops the load at it. -/
def imldBody (a b c : BitVec 5) (s : State) : Res :=
  let k := s.unit.core
  let addr := s.r a
  let v := (s.r b).toNat
  let n := (s.r c).toNat
  let sm := streamOf (bits v 1 0)
  let off := bits v 31 16
  if bits v 15 3 ≠ 0 ∨ bits v 63 32 ≠ 0 ∨ n < 1 ∨ imemSize sm < off + n then .trap .illegal 0
  else if ¬ (isGlobal addr || isS addr) then .trap .addr addr
  else if addr.toNat % 64 ≠ 0 then .trap .align addr
  else
    match s.windowFault k addr (2 * n) with
    | some (e, i) => .trap e i
    | none =>
      let load := fun (s : State) (bs : List Byte) =>
        s.modSeq k sm fun q =>
          ({ q with imem := if bit v 2 then [] else q.imem }).loadImem off ((halvesOf bs).take n)
      match s.imRead k addr (ceilDiv (2 * n) 64) with
      | (t, .fault e i) => .trapIn t e i
      | (_, .stall) => .stall .engine []
      | (s1, .bad bs e) => .trapKeep (load s1 bs) .uncorr (uncorrInfo e)
      | (s1, .all bs) =>
        let t := ceilDiv n 32
        .done ((load s1 bs).modEng k fun g => { g with imld := some (streamCode sm, t) }) t

/-- IMLD (R151). -/
def execImld (a b c : BitVec 5) (s : State) : Out State := issue (.imld a b c) (imldBody a b c) s

/-- IMLD_COMPLETE (R151): the load of a core's live context has taken its cycles, and CTL proceeds. -/
def execImldComplete (c : Nat) (s : State) : Out State :=
  match (s.ctx c).eng.imld with
  | some (_, 0) => .next (s.modEng c fun g => { g with imld := none })
  | _ => .next s

end Sys2Proof.Machine
end

