-- ==== Sys2Proof/Machine/Work.lean ====
section
/-! DEFINITION. Work between cores: remote enqueue (R152), posting a task (R153, R269 to R271), deques and ranges (R154, R155), peer
handles (R156 to R159, R316, R317), and the encoders (R160, R161). -/
namespace Sys2Proof.Machine

/-! ### Senders that wait (R292) -/

/-- Whether a sender is waiting at its target now: its core is not debug-stopped, and its CTL not in a trap handler that has left the wait
behind. -/
def State.sends (s : State) (x : Sender) : Bool :=
  (s.core x.core).hasLive && !(s.core x.core).dbg.stopped && s.waitTarget x.core == some (x.target, x.owner)

/-- Whether no other sender stands before core c at a target (R292). -/
def State.firstAt (s : State) (c : Nat) (target : Option (Nat × Nat)) (owner : Nat) : Bool :=
  match (s.senders.filter fun x => x.target == target && x.owner == owner && (x.core == c || s.sends x)).head? with
  | some x => x.core == c
  | none => true

/-- Whether a sender stands in the order of a target. -/
def State.joined (s : State) (c : Nat) (target : Option (Nat × Nat)) (owner : Nat) : Bool :=
  s.senders.any fun x => x.core == c && x.target == target && x.owner == owner

/-- A sender that joins the order of a target, unless it stands in it. -/
def State.join (s : State) (c : Nat) (target : Option (Nat × Nat)) (owner : Nat) : State :=
  if s.joined c target owner then s
  else { s with senders := s.senders ++ [{ core := c, target := target, owner := owner }] }

/-- A push with a timeout to another agent (R73, R292): made now with p23 := 0, given up with p23 := 1, or waited for. -/
def sendTimed (kind : WaitKind) (t : Nat) (target : Option (Nat × Nat)) (owner : Nat) (ready : State → Bool) (go : State → State)
    (s : State) : Res :=
  let c := s.unit.core
  if s.firstAt c target owner ∧ ready s then
    .done ((go (s.leaveTarget c target owner)).modSeq c s.unit.sq fun q => q.setP23 false) 0
  else if t = 0 then .done (s.modSeq c s.unit.sq fun q => q.setP23 true) 0
  else .park (s.join c target owner) kind t [118]

/-- A waiting sender tries again: it keeps its place, or joins the order afresh after it was not live (R292). -/
def retry (i : Instr) (body : State → Res) (s : State) : Out State :=
  match body s with
  | .park s1 _ _ on => .next ({ s with senders := s1.senders }.modSeq s.unit.core s.unit.sq fun q => { q with loss := .flag, waitsOn := on })
  | .stall .. => .next s
  | r => .next (settle i s r)

/-! ### Remote enqueue (R152) -/

/-- Whether a control queue of a core's live context has room for one more entry sent to it. (DEDUCED, log entry 39.) -/
def State.remoteRoom (s : State) (k q : Nat) : Bool :=
  (s.core k).hasLive && !(s.core k).dbg.stopped &&
    (s.ctx k).links.vroom q (1 + (s.enqueued.filter fun e => e.core == k && e.queue == q).length)

/-- Whether a core is of the partition of another, whose program runs (R298). -/
def State.sharesWith (s : State) (c k : Nat) : Bool :=
  Config.quadOf k == Config.quadOf c || ((s.quad (Config.quadOf k)).active && s.partOf k == s.partOf c)

/-- RENQ (R152). (DEDUCED, log entry 38.) (DEDUCED, log entry 39.) -/
def renqBody (a b c : BitVec 5) (s : State) : Res :=
  let v := (s.r b).toNat
  let k := bits v 7 0
  let q := bits v 9 8
  if bits v 63 17 ≠ 0 ∨ Config.cores ≤ k ∨ q = 3 then .trap .illegal 0
  else if ¬ s.sharesWith s.unit.core k then .trap .priv (s.r b)
  else
    let e : Enqueued :=
      { core := k, sender := s.unit.core, queue := q, val := s.r a, flag := if bit v 16 then some (bits v 15 10) else none
        time := s.timeOf (Config.quadOf s.unit.core), kv := (s.core s.unit.core).kv }
    sendTimed .renq (timeout (s.r c)) (some (k, q)) (s.partOf k) (fun s => s.remoteRoom k q)
      (fun s => { s with enqueued := s.enqueued ++ [e] }) s

/-- RENQ (R152). -/
def execRenq (a b c : BitVec 5) (s : State) : Out State :=
  if s.here.wait = .renq then retry (.renq a b c) (renqBody a b c) s else issue (.renq a b c) (renqBody a b c) s

/-- Whether an entry may arrive (R152, R263): the sender's earlier accesses are performed towards the target, and the target's region has
reached the TIME that the entry carries. -/
def State.mayArrive (s : State) (e : Enqueued) : Bool :=
  decide (e.time ≤ s.timeOf (Config.quadOf e.core))
    && !(s.sent.any fun w => w.core == e.sender && w.die == Config.dieOf e.sender && !w.engine && decide (w.seq ≤ get 0 e.kv w.die))

/-- REMOTE_ENQUEUE_ARRIVAL (R152): the oldest entry sent to a core reaches its queue, and the flag it names rises. A core in replay
drops it (R389). -/
def execRemoteEnqueueArrival (c : Nat) (s : State) : Out State :=
  match s.enqueued.find? fun e => e.core == c with
  | none => .next s
  | some e =>
    if ¬ (s.core c).hasLive ∨ (s.core c).dbg.stopped ∨ ¬ (s.ctx c).links.vroom e.queue 1 ∨ ¬ s.mayArrive e then .next s
    else
      let s1 := { s with enqueued := s.enqueued.erase e }
      if (s.core c).watch.rplLive = 2 then .next s1
      else
        let s2 := (s1.modLinks c fun l => l.vpush e.queue { cut := false, val := e.val }).logEvent c 2 e.queue e.val.toNat
        match e.flag with
        | some f => .next (s2.bumpCore c { flag := f, time := e.time, kv := e.kv, src := .remote })
        | none => .next s2

/-! ### Posting a task (R153, R269 to R271) -/

/-- A program-table entry (R270), as eight words. -/
def progWord (e : List Word) (k : Nat) : Nat := ((e[k]?).getD 0).toNat

/-- Code length of a stream in a program-table entry, in halfwords. -/
def progLen (e : List Word) (sm : Stream) : Nat := bits (progWord e 1) (16 * streamCode sm + 15) (16 * streamCode sm)

/-- Whether a program-table entry may be named by a record (R271). -/
def progOk (e : List Word) : Bool :=
  let v := progWord e 2
  let tg := bits v 6 0
  let sg := bits v 13 7
  let cg := bits v 14 14
  bit v 27 && tg + sg + cg ≤ 63 && tg != 0 && sg != 0 && bits v 21 15 ≤ 64 * cg
    && [Stream.ctl, .ld, .mx, .st].all fun sm => progLen e sm ≤ imemSize sm

/-- Whether the pool accepts a record with its program-table entry (R271). -/
def State.recordOk (s : State) (o : Nat) (r e : List Word) : Bool :=
  let ct := s.contract (domOfQuad o) (recContract r)
  bits (recWord r 1) 63 56 == 0 && bits (recWord r 2) 63 46 == 0 && bits (recWord r 3) 31 0 == 0 && (recProf r).getLsbD 0
    && progOk e
    && (!recCv r || (ct.isOpen && ct.owner == o))
    && (recNsucc r == 0 || recSucc r != 0)
    && recGranules r ≤ bits (progWord e 2) 13 7

/-- The hub's read of bytes at a global address of a partition: the bytes, or the fault. (DEDUCED, log entry 37.) -/
def State.hubRead (s : State) (o va n : Nat) : Except (Cause × Word) (State × List Byte) :=
  match s.walk o none va true false false with
  | .ok s1 pa _ _ =>
    if s1.badAt pa n then .error (.uncorr, BitVec.ofNat 64 (va % 2 ^ 56)) else .ok (s1, s1.memBytes pa n)
  | .fault _ e i => .error (e, i)
  | .stall => .error (.pageFault, walkInfo va 0 0)

/-- The words of bytes. -/
def wordsOf (bs : List Byte) : List Word :=
  (List.range (bs.length / 8)).map fun i => BitVec.ofNat 64 (leNat ((bs.drop (8 * i)).take 8))

/-- The program-table entry a record names (R270, R286). -/
def State.progEntry (s : State) (o prog : Nat) : Except (Cause × Word) (State × List Word) :=
  match s.hubRead o ((s.part o).ptbase.toNat * 64 + 64 * prog) 64 with
  | .error e => .error e
  | .ok (s1, bs) => .ok (s1, wordsOf bs)

/-- The slots of a partition's range (R286). -/
def State.range (s : State) (o : Nat) : List Nat :=
  (List.range (s.part o).poolqQuota.toNat).map fun i => (s.part o).poolqFirst.toNat + i

/-- The lowest free slot of a partition's range. -/
def State.freeSlot (s : State) (o : Nat) : Option Nat :=
  (s.range o).find? fun n => n < 4096 && decide ((s.slot (domOfQuad o) n).st = .free)

/-- The next value of RUN of a slot (R368): 1 to 2^20 - 1, then 1 again. -/
def nextRun (n : Nat) : Nat := if n + 1 < 2 ^ 20 then n + 1 else 1

/-- A record accepted into a slot (R272, R368). -/
def State.accept (s : State) (o n : Nat) (r : List Word) : State :=
  let dom := domOfQuad o
  s.modSlot dom n fun x =>
    { Slot.free with
      st := if 0 < recPreds r then .waiting else .ready
      owner := o, record := r, prof := recProf r, preds := recPreds r, uncontracted := !recCv r
      band := if recCv r then (s.contract dom (recContract r)).band else recBand r
      ownBand := if recCv r then (s.contract dom (recContract r)).band else recBand r
      readyAt := s.cc, raisedAt := s.cc, run := nextRun x.run, begun := x.begun + 1 }

/-- TASK_POST (R153). (DEDUCED, log entry 37.) -/
def taskPostBody (d a b : BitVec 5) (s : State) : Res :=
  let c := s.unit.core
  let o := s.partOf c
  let addr := s.r a
  if ¬ isS addr then .trap .addr addr
  else if addr.toNat % 64 ≠ 0 then .trap .align addr
  else
    match s.resolve c addr 64 true false with
    | .fault t e i => .trapIn t e i
    | .stall => .stall .engine []
    | .at s1 l =>
      let r := wordsOf (s1.bytesAt c l 64)
      match (s1.touched c l 64).progEntry o (recProg r) with
      | .error (e, i) => .trap e i
      | .ok (s2, e) =>
        if ¬ s2.recordOk o r e then .done ((s2.setR d (-1)).modSeq c s.unit.sq fun q => q.setP23 false) 0
        else
          sendTimed .taskPost (timeout (s.r b)) none o (fun s => (s.freeSlot o).isSome)
            (fun s =>
              match s.freeSlot o with
              | some n => (s.accept o n r).setR d (BitVec.ofNat 64 n)
              | none => s) s2

/-- TASK_POST (R153). -/
def execTaskPost (d a b : BitVec 5) (s : State) : Out State :=
  if s.here.wait = .taskPost then retry (.taskPost d a b) (taskPostBody d a b) s
  else issue (.taskPost d a b) (taskPostBody d a b) s

/-! ### Deques and ranges (R154, R155) -/

/-- DQ_PUSH (R154). -/
def dqPushBody (a c : BitVec 5) (s : State) : Res :=
  if s.my.links.deque.length = 64 then .done (s.setP c.toNat false) 0
  else .done ((s.modLinks s.unit.core fun l => { l with deque := l.deque ++ [s.r a] }).setP c.toNat true) 0

/-- DQ_PUSH (R154). -/
def execDqPush (a c : BitVec 5) (s : State) : Out State := issue (.dqPush a c) (dqPushBody a c) s

/-- DQ_POP (R154). -/
def dqPopBody (d c : BitVec 5) (s : State) : Res :=
  match s.my.links.deque.getLast? with
  | none => .done (s.setP c.toNat false) 0
  | some v => .done (((s.modLinks s.unit.core fun l => { l with deque := l.deque.dropLast }).setR d v).setP c.toNat true) 0

/-- DQ_POP (R154). -/
def execDqPop (d c : BitVec 5) (s : State) : Out State := issue (.dqPop d c) (dqPopBody d c) s

/-- A victim core named by a register (R154, R155): a core of the package, of the same partition. A steal is applied after every owner's
own operations of the cycle, in increasing number of the thief. -/
def withVictim (v : Word) (f : Nat → State → Res) (s : State) : Res :=
  if Config.cores ≤ v.toNat then .trap .illegal 0
  else if ¬ s.sharesWith s.unit.core v.toNat then .trap .priv v
  else if ¬ s.unit.late then .later
  else f v.toNat s

/-- DQ_STEAL (R154): the top entry of the deque of the victim's live context. (DEDUCED, log entry 38.) -/
def dqStealBody (d a c : BitVec 5) (s : State) : Res :=
  withVictim (s.r a) (fun k s =>
    match (if (s.core k).hasLive then (s.ctx k).links.deque else []) with
    | [] => .done (s.setP c.toNat false) 0
    | v :: rest => .done (((s.modLinks k fun l => { l with deque := rest }).setR d v).setP c.toNat true) 0) s

/-- DQ_STEAL (R154). -/
def execDqSteal (d a c : BitVec 5) (s : State) : Out State := issue (.dqSteal d a c) (dqStealBody d a c) s

/-- RNG_SET (R155). -/
def rngSetBody (a b c : BitVec 5) (s : State) : Res :=
  if s.r c = 0 ∨ (s.r b).toNat < (s.r a).toNat then .trap .illegal 0
  else .done (s.modLinks s.unit.core fun l => { l with lo := s.r a, hi := s.r b, ch := s.r c }) 0

/-- RNG_SET (R155). -/
def execRngSet (a b c : BitVec 5) (s : State) : Out State := issue (.rngSet a b c) (rngSetBody a b c) s

/-- RNG_TAKE (R155). -/
def rngTakeBody (d a c : BitVec 5) (s : State) : Res :=
  let l := s.my.links
  if l.hi.toNat ≤ l.lo.toNat then .done (s.setP c.toNat false) 0
  else
    let e := BitVec.ofNat 64 (Nat.min (l.lo.toNat + l.ch.toNat) l.hi.toNat)
    .done ((((s.modLinks s.unit.core fun l => { l with lo := e }).setR d l.lo).setR a e).setP c.toNat true) 0

/-- RNG_TAKE (R155). -/
def execRngTake (d a c : BitVec 5) (s : State) : Out State := issue (.rngTake d a c) (rngTakeBody d a c) s

/-- Where a steal splits a range (R155). -/
def rangeMid (lo hi ch : Nat) : Nat := lo + ch * ceilDiv (ceilDiv (hi - lo) ch) 2

/-- RNG_STEAL (R155): the upper half of the range of the victim's live context. (DEDUCED, log entry 38.) -/
def rngStealBody (d a b c : BitVec 5) (s : State) : Res :=
  withVictim (s.r b) (fun k s =>
    let l := (s.ctx k).links
    if ¬ (s.core k).hasLive ∨ l.hi.toNat - l.lo.toNat ≤ l.ch.toNat then .done (s.setP c.toNat false) 0
    else
      let m := BitVec.ofNat 64 (rangeMid l.lo.toNat l.hi.toNat l.ch.toNat)
      .done ((((s.modLinks k fun l => { l with hi := m }).setR d m).setR a l.hi).setP c.toNat true) 0) s

/-- RNG_STEAL (R155). -/
def execRngSteal (d a b c : BitVec 5) (s : State) : Out State := issue (.rngSteal d a b c) (rngStealBody d a b c) s

/-! ### Peer handles (R156 to R159) -/

/-- The size of the page that maps an address in a partition's tables, where one does: a backed leaf, wherever it points (R157, R317). A
table line that cannot be read is an error (R351). -/
def State.mapping (s : State) (o va : Nat) : Except (Cause × Word) (Option Nat) :=
  match s.keptAt o va with
  | some k => .ok (some k.size)
  | none =>
    match s.findLeaf o va 4 ((s.part o).ptroot.toNat * 2 ^ 16) with
    | .error (.uncorr, i) => .error (.uncorr, i)
    | .error _ => .ok none
    | .ok (lvl, _, ent) => .ok (if bit ent 5 then none else some (pageSize lvl))

/-- Whether every page from an address on is mapped in a partition's tables (R157, R317); fuel bounds the pages. -/
def State.mapped (s : State) (o : Nat) : Nat → Nat → Nat → Except (Cause × Word) Bool
  | 0, _, n => .ok (n == 0)
  | fuel + 1, va, n =>
    if n = 0 then .ok true
    else if windowFrom ≤ va then .ok false
    else
      match s.mapping o va with
      | .error e => .error e
      | .ok none => .ok false
      | .ok (some size) => s.mapped o fuel (va - va % size + size) (n - (va - va % size + size - va))

/-- The free entry of a domain's export table with the lowest index. (DESIGN CHOICE, log entry 119.) -/
def State.freeExport (s : State) (dom : Nat) : Option Nat :=
  (List.range 4096).find? fun i => !(get Export.none s.exports (4096 * dom + i)).valid

/-- PEER_EXP (R157): the checks in their order, then the handle, or why there is none. -/
def peerExpBody (d a b c : BitVec 5) (s : State) : Res :=
  let addr := s.r a
  let n := (s.r b).toNat
  let o := s.partOf s.unit.core
  let dom := domOfQuad o
  if bits (s.r c).toNat 63 2 ≠ 0 then .trap .illegal 0
  else if n < 65536 ∨ 2 ^ 40 < n then .trap .illegal 0
  else if ¬ isGlobal addr then .trap .addr addr
  else if addr.toNat % 65536 ≠ 0 then .trap .align addr
  else if n % 65536 ≠ 0 then .trap .align (s.r b)
  else
    match s.mapped o (n / 65536) addr.toNat n with
    | .error (e, i) => .trap e i
    | .ok false => .done (s.setR d (-1)) 0
    | .ok true =>
      match s.freeExport dom with
      | none => .done (s.setR d (-2)) 0
      | some ix =>
        let check := Config.check s.hub.drawn
        let e : Export := { valid := true, owner := o, base := addr.toNat, len := n, rights := (s.r c).extractLsb' 0 2, check := check }
        let s1 := { s with
          exports := put Export.none s.exports (4096 * dom + ix) e
          hub := { s.hub with drawn := s.hub.drawn + 1 } }
        .done (s1.setR d (handleOf dom ix check)) 0

/-- PEER_EXP (R157). -/
def execPeerExp (d a b c : BitVec 5) (s : State) : Out State := issue (.peerExp d a b c) (peerExpBody d a b c) s

/-- The result of an import (R158, R316): the first of -1, -3, -2 and -4 that applies. (DEDUCED, log entry 111.) -/
def State.importFails (s : State) (o off : Nat) (h : Word) : Option Int :=
  match s.exportOf h with
  | none => some (-1)
  | some e =>
    if bits h.toNat 12 12 = domOfQuad o then some (-1)
    else if off % 65536 ≠ 0 ∨ 2 ^ 48 < off + e.len then some (-3)
    else if (s.part o).imports.any fun i => decide (i.off < off + e.len ∧ off < i.off + i.len) then some (-2)
    else if 256 ≤ (s.part o).imports.length then some (-4)
    else none

/-- PEER_IMP (R158, R316): a refused handle delays the partition's next import by 2^14 cc; the handle of a revoked export traps PAGE_FAULT
(R159). (DEDUCED, log entry 111.) -/
def peerImpBody (d a b : BitVec 5) (s : State) : Res :=
  let o := s.partOf s.unit.core
  let h := s.r a
  let off := (s.r b).toNat
  if s.cc < (s.part o).impAfter then .stall .engine []
  else if s.revoked h then .trap .pageFault (walkInfo off 6 0)
  else
    match s.importFails o off h, s.exportOf h with
    | some e, _ =>
      .done ((if e = -1 then s.modPart o fun p => { p with impAfter := s.cc + 2 ^ 14 } else s).setR d (BitVec.ofInt 64 e)) 0
    | none, some e =>
      .done ((s.modPart o fun p => { p with imports := { off := off, len := e.len, handle := h } :: p.imports }).setR d 0) 0
    | none, none => .done (s.setR d (-1)) 0

/-- PEER_IMP (R158). -/
def execPeerImp (d a b : BitVec 5) (s : State) : Out State := issue (.peerImp d a b) (peerImpBody d a b) s

/-- PEER_REL (R159): the import removed, or the export revoked. -/
def peerRelBody (d a : BitVec 5) (s : State) : Res :=
  let o := s.partOf s.unit.core
  let h := s.r a
  if (s.part o).imports.any fun i => i.handle == h then
    .done ((s.modPart o fun p => { p with imports := p.imports.filter fun i => i.handle != h }).setR d 0) 0
  else
    match s.exportOf h with
    | some e =>
      if e.owner = o then
        .done ((s.revoke h).setR d 0) 0
      else .done (s.setR d (-1)) 0
    | none => .done (s.setR d (-1)) 0

/-- PEER_REL (R159). -/
def execPeerRel (d a : BitVec 5) (s : State) : Out State := issue (.peerRel d a) (peerRelBody d a) s

/-! ### Encoders (R160, R161, R305) -/

/-- A number of a descriptor of the encoders. -/
def descNat (desc : List Byte) (off n : Nat) : Nat := leNat ((desc.drop off).take n)

/-- SID of a submission. -/
def Submission.sid (x : Submission) : Nat := descNat x.desc 12 1

/-- Whether an engine of a die is in force for a partition (R305): the table holds the owner plus 1. -/
def Die.owns (x : Die) (j o : Nat) : Bool := get 0 x.inForce j == o + 1

/-- The queue that a submission of a partition enters: that of its lowest-numbered engine with room (R305). -/
def Die.queueFor (x : Die) (o : Nat) : Option Nat :=
  (List.range 4).find? fun j => x.owns j o && decide ((x.queue.filter fun q => q.engine == j).length < 4)

/-- VENC (R160, R161): the descriptor is read and its pages held; the submission takes its number, or -1 when there is no room.
(DEDUCED, log entry 36.) -/
def vencBody (d a b : BitVec 5) (s : State) : Res :=
  let c := s.unit.core
  let o := s.partOf c
  let die := Config.dieOf c
  let addr := s.r a
  let target := s.r b
  if ¬ (isGlobal addr || isC addr) then .trap .addr addr
  else if isBarTarget target ∧ placeOf target = .bad then .trap .addr target
  else if addr.toNat % 64 ≠ 0 then .trap .align addr
  else if isBarTarget target ∧ target.toNat % 16 ≠ 0 then .trap .align target
  else
    match s.resolve c addr 64 true true with
    | .fault t e i => .trapIn t e i
    | .stall => .stall .engine []
    | .at s1 l =>
      if s1.waitsAt c l then .stall .engine []
      else if s1.uncorrAt s.unit.core l 64 then .trapIn s1 .uncorr (uncorrInfo addr)
      else
        let desc := s1.bytesAt c l 64
        let out := BitVec.ofNat 64 (descNat desc 16 8)
        let trig := BitVec.ofNat 64 (descNat desc 32 8)
        match (if isBarTarget target then s1.windowFault c target barExtent else none) with
        | some (e, i) => .trapIn s1 e i
        | none =>
          match (s1.touched c l 64).holdAll c
              [(1, addr, 64, true, true), (0, out, descNat desc 24 4, false, true),
               (3, if trig = 0 then 0xFE000000000000 else trig, 16, true, false),
               (2, if isBarTarget target then target else 0xFE000000000000, barExtent, true, true)] with
          | .error none => .stall .engine []
          | .error (some (t, e, i)) => .trapIn t e i
          | .ok (s2, hs) =>
            match (s2.die die).queueFor o with
            | none => .done (s2.setR d (-1)) 0
            | some j =>
              let n := (s2.die die).number
              let sub : Submission :=
                { desc := desc, at_ := addr, core := c, number := n, engine := j, target := target, holds := hs, task := s.aim c, coded := false, bad := false }
              .done ((s2.modDie die fun x => { x with queue := x.queue ++ [sub], number := (n + 1) % 65536 }).setR d
                (BitVec.ofNat 64 n)) 0

/-- VENC (R160). -/
def execVenc (d a b : BitVec 5) (s : State) : Out State := issue (.venc d a b) (vencBody d a b) s

/-- A submission read as a command, for its held pages and its target. -/
def Submission.command (x : Submission) : Command :=
  { newCommand (.venc 0 0 0) [BitVec.ofNat 64 (descNat x.desc 16 8), x.at_, 0, 0] (descNat x.desc 24 4) x.target x.holds x.task with
    started := true }

/-- Whether a submission's trigger lets it start (R160, R161): no trigger, or its barrier's PHASE is TRIGPH. -/
def State.triggered (s : State) (x : Submission) : Bool :=
  let trig := BitVec.ofNat 64 (descNat x.desc 32 8)
  if trig = 0 then true
  else
    match x.command.placeAt x.core 3 trig with
    | some (.scr o) =>
      decide (s.aim x.core = x.task) && (s.core x.core).hasLive &&
        barPhase (s.barWord x.core (.scr o)) == descNat x.desc 40 1
    | some l => barPhase (s.barWord x.core l) == descNat x.desc 40 1
    | none => false

/-- Whether a free engine with a lower number could take a submission of a partition. -/
def Die.lowerFree (x : Die) (j o : Nat) : Bool := (List.range j).any fun i => x.owns i o && (get none x.busy i).isNone

/-- The submission that an engine takes next (R161): the first of the queue whose trigger holds and that is behind no earlier one of
its stream. -/
def State.nextFor (s : State) (die j : Nat) : Option Submission :=
  let x := s.die die
  let ahead := fun (sid : Nat) (before : List Submission) =>
    before.any (fun q => q.sid == sid) || x.busy.any fun b => match b.2 with | some q => q.sid == sid | none => false
  (x.queue.zipIdx.find? fun p =>
    x.owns j (s.partOf p.1.core) && !x.lowerFree j (s.partOf p.1.core) && s.triggered p.1
      && !ahead p.1.sid (x.queue.take p.2)).map (·.1)

/-- ENCODER_START (R161): a free engine takes the next eligible submission. -/
def execEncoderStart (die engine : Nat) (s : State) : Out State :=
  if (get none (s.die die).busy engine).isSome then .next s
  else
    match s.nextFor die engine with
    | none => .next s
    | some sub =>
      .next (s.modDie die fun x => { x with queue := x.queue.erase sub, busy := put none x.busy engine (some sub) })

/-- The samples of a submission's frame (R160), the luma rows and then the interleaved chroma rows, and whether a line of it was
uncorrectable: such a line is coded as zeros (R161). -/
def State.frame (s : State) (x : Submission) : List Byte × Bool :=
  let w := descNat x.desc 4 2
  let h := descNat x.desc 6 2
  let key := fun (r : Nat) => clusKey (Config.quadOf x.core) (descNat x.desc 0 4 + descNat x.desc 8 2 * r)
  let bad := fun (k : Nat) => s.clusterBad (k / 64 * 64) 64
  let bytes := (List.range (h + h / 2)).flatMap fun r =>
    (readBytes s.cluster (key r) w).zipIdx.map fun p => (if bad (key r + p.2) then 0 else p.1, bad (key r + p.2))
  (bytes.map (·.1), bytes.any (·.2))

/-- The frame's parameters as the encoder takes them: dimensions, codec, QP, and whether it is coded as a key frame. (DEDUCED, log entry 36.) -/
def Submission.params (x : Submission) (first : Bool) : List Byte :=
  (x.desc.drop 4).take 8 ++ [BitVec.ofNat 8 (ofBool (first || bit (descNat x.desc 13 1) 0))]

/-- The place under which an encoder command's completion stands in a replay log (R388). (DEDUCED, log entry 78.) -/
def encoderPlace : Nat := 255

/-- The completion of an encoder command of a core's live context, recorded or, in a replay, counted (R388, R389). -/
def State.encoderDone (s : State) (c status : Nat) : State :=
  if (s.core c).watch.rplLive = 2 then s.modCore c fun k => { k with watch := { k.watch with rplDone := k.watch.rplDone + 1 } }
  else s.logEvent c 3 encoderPlace status

/-- What an encoder writes for a submission (R161): the output as far as it fits, and OUTLEN. -/
def Submission.output (x : Submission) (out : List Byte) : List (Nat × Word × List Byte) :=
  let cmd := x.command
  let max := descNat x.desc 24 4
  (out.take max).zipIdx.map (fun p => (0, plus cmd.dst p.2, [p.1]))
    ++ [(1, plus x.at_ 28, leBytes 4 (if max < out.length then 0xFFFFFFFF else out.length))]

/-- ENCODER_COMPLETION (R161): the frame's output, OUTLEN, then the completion target, each once what must be before it is performed. The
output's bytes are a free value. -/
def execEncoderCompletion (die engine : Nat) (s : State) : Out State :=
  match get none (s.die die).busy engine with
  | none => .next s
  | some sub =>
    let cmd := sub.command
    let c := sub.core
    let past := get [] (s.die die).last sub.sid
    let frame := s.frame sub
    let input := sub.params (!get false (s.die die).started sub.sid) ++ frame.1
    let out := Config.encoded (past ++ input)
    let away := decide (s.aim c ≠ sub.task)
    let w := if sub.coded then (s, true) else s.writeAt c away cmd (sub.output out)
    let s2 := w.1
    let cmd1 := { cmd with status := if (if sub.coded then sub.bad else frame.2) then setStatus 0 17 else 0 }
    let held := fun (s : State) => s.modDie die fun x =>
      { x with busy := put none x.busy engine (some { sub with coded := true, bad := if sub.coded then sub.bad else frame.2 })
               last := if sub.coded then x.last else put [] x.last sub.sid (past ++ input) }
    let done := fun (s : State) => s.modDie die fun x =>
      { x with busy := put none x.busy engine none, started := put false x.started sub.sid true
               last := if sub.coded then x.last else put [] x.last sub.sid (past ++ input) }
    let tell := fun (s : State) => if away then s else s.encoderDone c cmd1.status
    if ¬ w.2 then .next { s with quads := s2.quads }
    else if ¬ s2.engineDone c then .next (held s2)
    else if isFlagTarget sub.target then
      .next (tell ((done s2).bumpFor sub.task c
        { flag := bits sub.target.toNat 5 0, time := s.timeOf (48 + die), kv := (s2.core c).kv, src := .encoder }))
    else
      let b := s2.hitTarget c away cmd1
      if b.2 then .next (tell (done b.1)) else .next (held { s2 with quads := b.1.quads })

end Sys2Proof.Machine
end

