-- ==== Sys2Proof/Machine/Shaving.lean ====
section
/-! DEFINITION. The shaving (R332 to R343, R363): the bytes of each segment of a context. -/
namespace Sys2Proof.Machine

/-! ### Fields -/

/-- Fields packed from the lowest bit up: width and value. -/
def pack : List (Nat × Nat) → Nat
  | [] => 0
  | (w, v) :: fs => v % 2 ^ w + 2 ^ w * pack fs

/-- A list of words as 8 bytes each. -/
def words8 (l : List Nat) : List Byte := l.flatMap (leBytes 8)

/-! ### Segments 0 to 3 (R336) -/

/-- The code of a wait. -/
def waitCode : WaitKind → Nat
  | .none => 0
  | .fwait => 1
  | .bwait => 2
  | .header => 3
  | .queueT => 4
  | .renq => 5
  | .taskPost => 6

/-- CUTST, CUTM and CUTPOS. -/
def CutState.fields : CutState → Nat × Nat × Nat
  | .none => (0, 0, 0)
  | .search m _ pos => (1, m.toNat, pos.toNat)
  | .meeting m _ pos => (2, m.toNat, pos.toNat)

/-- The repetitions that a header word gives its block: its REP, and 0 for a count that its queue is to give (R54). -/
def headerCount (w : BitVec 32) : Nat := if w.extractLsb' 10 8 = 255 then 0 else (w.extractLsb' 10 8).toNat

/-- HDR, LEFT and HWORD (R336): of the current block, or between blocks of the header that the sequencer stands at. (DEDUCED, log entry 63.) -/
def Seq.blockFields (q : Seq) : Nat × Nat × Nat :=
  if q.inBody then (q.hdr.toNat, q.left, q.hword.toNat)
  else
    let w := q.headerAt q.pc.toNat
    (q.pc.toNat, headerCount w, w.toNat)

/-- The fixed part of a sequencer segment (R336). -/
def Seq.fixed (q : Seq) (sm : Stream) (turn npipe : Nat) (p : Priv) : Nat :=
  let b := q.blockFields
  let cut := q.cut.fields
  pack [(16, q.pc.toNat), (16, b.1), (8, b.2.1), (32, b.2.2),
    (24, (List.range 24).foldl (fun a i => if q.pred i then a + 2 ^ i else a) 0),
    (5, if sm = .mx then turn else 0), (3, waitCode q.wait), (32, q.waitRem), (2, cut.1), (10, cut.2.1), (16, cut.2.2),
    (1, ofBool q.lb.isSome), (16, (q.lb.getD 0).toNat), (2, if sm = .ctl then privCode p else 0), (8, npipe), (16, q.iend.toNat),
    (1, ofBool q.imldw)]

/-- A pipeline record: its head and its data padded to 16 bytes. -/
def pipeRecord (kind rel tgt row pushM : Nat) (ring : Option Nat) (value : Nat) (data : List Byte) : List Byte :=
  leBytes 8 (pack [(8, kind), (16, rel), (8, tgt), (12, row), (3, pushM), (1, ofBool ring.isSome), (4, ring.getD 0)]) ++ leBytes 8 value
    ++ padTo 16 data

/-- The retirement actions that a sequencer owes, each with its REL (R336): 0 from the first on whose cycle is not fixed, since it waits on
an engine or for room for its tokens, and every later one waits on it. -/
def owedRels : Bool → List Flight → List (Flight × Nat)
  | _, [] => []
  | open_, f :: fs =>
    let o := open_ || f.after.isSome || f.late
    (f, if o then 0 else f.due) :: owedRels o fs

/-- The retirement actions of a sequencer of a context, each with its REL. -/
def Ctx.owed (x : Ctx) (sm : Stream) : List (Flight × Nat) := owedRels false (x.seq sm).flight

/-- Retirement actions that a sequencer still owes, as a record of KIND 3. -/
def owedRecord (f : Flight × Nat) : List Byte := pipeRecord 3 f.2 0 0 f.1.pushM.toNat f.1.ring 0 []

/-- A result in flight as a record of KIND 1, 2, 4 or 6; other results have no KIND. -/
def Pend.record (p : Pend) : Option (List Byte) :=
  match p.what with
  | .scalar ix v => some (pipeRecord 1 p.due ix 0 0 none v.toNat [])
  | .row r e v =>
    let lanes := (List.range 1024).foldl (fun a i => if e.getLsbD (8 * i) then a + 2 ^ i else a) 0
    some (pipeRecord 2 p.due 0 (r) 0 none 0 (leBytes 128 lanes ++ rowBytes v))
  | .q6 v => some (pipeRecord 4 p.due 0 0 0 none 0 (rowBytes v))
  | .column t tsh e next left a =>
    some (pipeRecord 6 p.due 0 0 0 none 0
      (rowBytes a ++ leBytes 1 t ++ leBytes 1 0 ++ leBytes 2 e ++ leBytes 2 next ++ leBytes 2 left ++ leBytes 8 tsh.toNat))
  | _ => none

/-- A record of KIND 5: the retirement actions with the cycles left to them, REL being 0 where their cycle is not fixed, the X32 word, the
cycles since issue with the cycle of the issue, and the D tile. -/
def opRecord (word elapsed tile shape left : Nat) (f : Option (Flight × Nat)) : List Byte :=
  pipeRecord 5 (match f with | some f => if f.2 = 0 then 0 else left | none => left) 0 0 ((f.map fun f => f.1.pushM.toNat).getD 0)
    (f.bind (·.1.ring)) shape (leBytes 4 word ++ leBytes 8 (elapsed + 1) ++ leBytes 4 tile)

/-- Operations in the order of their issue with the retirement actions of their kind, which may outlast the oldest of them: each operation has its
own. -/
def withFlights {α : Type} (ops : List α) (fs : List (Flight × Nat)) : List (α × Option (Flight × Nat)) :=
  let late := fs.drop (fs.length - ops.length)
  ops.zipIdx.map fun o => (o.1, late[o.2 + late.length - ops.length]?)

/-- The word of an instruction, 0 where it has none of 32 bits. -/
def wordOfInstr (i : Instr) : Nat :=
  match encodeWord i with
  | some (.inr w) => w.toNat
  | _ => 0

/-- The D tile of a transform. -/
def transformTile : Instr → Nat
  | .xfFwd d _ _ | .xfInv d _ | .domScl d _ _ => d.toNat
  | _ => 0

/-- What stands for the shape word of a transform, which has none: the word of SR (R182, R184); 0 for `xf.inv`. -/
def TransformOp.word (o : TransformOp) : Nat :=
  match o.instr with
  | .xfFwd .. => o.lb
  | .domScl .. => (o.exp % 64).toNat
  | _ => 0

/-- The array operations of a matrix side that have not retired (R336). -/
def Matrix.inProgress (m : Matrix) : List ArrayOp := m.ops.filter fun o => decide (o.at < o.latency)

/-- The retirement actions that no record of an operation in progress holds. -/
def Ctx.ownFlights (x : Ctx) (sm : Stream) : List (Flight × Nat) :=
  let fs := x.owed sm
  let rest := fun (k n : Nat) => (fs.filter fun f => f.1.op == k).take ((fs.filter fun f => f.1.op == k).length - n)
  let kept := rest 1 (x.mat.inProgress.filter fun o => !o.redo).length ++ rest 2 x.mat.xops.length
  fs.filter fun f => f.1.op == 0 || kept.contains f

/-- The record of an array operation. -/
def ArrayOp.record (o : ArrayOp) (f : Option (Flight × Nat)) : List Byte :=
  opRecord o.word.toNat o.at o.dTile o.shape.toNat (o.latency - o.at) f

/-- The record of a transform. -/
def TransformOp.record (o : TransformOp) (f : Option (Flight × Nat)) : List Byte :=
  opRecord (wordOfInstr o.instr) o.elapsed (transformTile o.instr) o.word (o.latency - o.elapsed) f

/-- The records of the operations in progress, a replay's last of the array's: it has no retirement actions (R188). -/
def Ctx.opRecords (x : Ctx) : List (List Byte) :=
  let flights := fun (k : Nat) => (x.owed .mx).filter fun f => f.1.op == k
  let ops := x.mat.inProgress
  ((withFlights (ops.filter fun o => !o.redo) (flights 1)).map fun o => o.1.record o.2)
    ++ ((ops.filter (·.redo)).map fun o => o.record none)
    ++ (withFlights x.mat.xops (flights 2)).map fun o => o.1.record o.2

/-- The pipeline records of a stream of a context: retirement actions, results, and for MX the operations in progress. -/
def Ctx.records (x : Ctx) (sm : Stream) : List (List Byte) :=
  (x.ownFlights sm).map owedRecord ++ (x.pend.filter fun p => p.own == sm).filterMap Pend.record
    ++ (if sm = .mx then x.opRecords else [])

/-- CTL's control registers in the shaving's order, with pending errors and the knowledge vector. -/
def CtlRegs.bytes (r : CtlRegs) : List Byte :=
  words8 [r.wtmo.toNat, r.ecause.toNat, r.einfo.toNat, r.epc.toNat, r.estat.toNat, r.tvec.toNat, r.chnd.toNat, r.slipcnt.toNat,
      r.retryMax.toNat]
    ++ fit 64 (r.errors.flatMap fun e => words8 [causeCode e.cause, e.info.toNat])
    ++ words8 ((List.range 9).map fun j => get 0 r.kv j)

/-- Bytes of an instruction memory. -/
def Seq.imemBytes (q : Seq) (sm : Stream) : List Byte := (List.range (imemSize sm)).flatMap fun i => leBytes 2 (q.half i).toNat

/-- The payload of a sequencer segment. -/
def Ctx.seqSegment (x : Ctx) (sm : Stream) (imm : Bool) : List Byte :=
  let q := x.seq sm
  let recs := x.records sm
  leBytes 32 (q.fixed sm x.loc.turn recs.length x.cr.priv) ++ words8 ((List.range (regCount sm)).map fun i => (q.reg i).toNat)
    ++ (match sm with
        | .ctl => x.cr.bytes
        | .mx => words8 [x.loc.vbase.toNat + 2 ^ 16 * x.loc.turn, x.mat.segCyc, x.mat.segCrc.toNat, x.mat.tries]
        | _ => [])
    ++ recs.flatten ++ (if imm then q.imemBytes sm else [])

/-- Halfwords from bytes, as an instruction memory holds them: 0xFFFF is what an unlisted halfword reads as (R46). -/
def imemOf (bs : List Byte) : Table Half :=
  (List.range (bs.length / 2)).filterMap fun i =>
    let h : Half := BitVec.ofNat 16 (leNat ((bs.drop (2 * i)).take 2))
    if h = 0xFFFF then none else some (i, h)

/-! ### Segment 4 (R337) -/

/-- The entries of a value queue, its staged pushes included, as they stand at the end of a cycle. -/
def VQueue.all (q : VQueue) : List QEntry := q.items ++ q.staged

/-- The rows of a row queue. -/
def RQueue.all (q : RQueue) : List Row := q.items ++ q.staged

/-- The payload of segment 4. -/
def Links.segment (l : Links) : List Byte :=
  let count := fun (q : Nat) => if q = 5 ∨ q = 6 then (l.rqueue q).all.length else (l.vqueue q).all.length
  (List.range 64).map l.flag
    ++ leBytes 8 (pack ((List.range 12).map fun i => (4, (l.token i).count + (l.token i).staged)))
    ++ (List.range 8).map (fun q => BitVec.ofNat 8 (count q))
    ++ leBytes 8 (l.deque.length % 128) ++ words8 [l.lo.toNat, l.hi.toNat, l.ch.toNat] ++ List.replicate 16 0#8
    ++ ([0, 1, 2].flatMap fun q => fit 512 ((l.vqueue q).all.flatMap fun e => words8 [e.val.toNat, ofBool e.cut]))
    ++ ([3, 4, 7].flatMap fun q => fit 64 (words8 ((l.vqueue q).all.map fun e => e.val.toNat)))
    ++ List.replicate 64 0#8
    ++ ([5, 6].flatMap fun q => fit 4096 ((l.rqueue q).all.flatMap rowBytes))
    ++ fit 512 (words8 (l.deque.map (·.toNat)))

/-! ### Segment 5 (R338) -/

/-- A ring's state as R132 lays it out. -/
def RingState.word (r : RingState) : Nat :=
  pack [(1, ofBool r.on), (6, r.slotsM1), (6, r.head), (7, r.count), (7, r.rsv), (1, ofBool r.held), (6, r.hslot)]

/-- The payload of segment 5. -/
def Ctx.locSegment (x : Ctx) : List Byte :=
  let p := x.loc
  words8 ((List.range 80).map fun i => (get 0#64 p.ag i).toNat) ++ words8 ((List.range 16).map fun n => (x.ring n).word)
    ++ words8 ((List.range 16).map fun t => (x.shape t).toNat)
    ++ ((List.range 8).flatMap fun i => leBytes 128 (get 0#1024 p.masks i).toNat)
    ++ words8 [p.satop, p.allocs.length, p.stGeo] ++ fit 1024 (p.allocs.reverse.flatMap fun a => words8 [a.1, a.2])
    ++ leBytes 8192 (p.kerf.foldl (fun a e => if e.2 then a + 2 ^ e.1 else a) 0)

/-! ### Segment 6 (R338) -/

/-- The four operand values of a copy, D, A, B and C, and its length word (R126, R127). A ring form has its slot's place as D and its
ring's slot size as the length. -/
def Command.operands (k : Command) : List Nat :=
  let v := fun (i : Nat) => ((k.vals[i]?).getD 0).toNat
  if k.slot.isSome then [v 0, v 1, k.target.toNat, v 3, k.len] else [v 0, v 1, v 2, k.target.toNat, v 2]

/-- The ring slot of a copy with its two marks: the slot is reserved, and its chained push is still to be made. -/
def Command.slotWord (k : Command) : Nat :=
  (match k.slot with | some (_, n) => n % 64 + 64 * ofBool (!k.counted) | none => 0) + 128 * ofBool k.chained

/-- The extents whose pages a command's record holds, 64 to each: source, destination and target, or the three of a snapshot's data. -/
def heldExtents (i : Instr) : List Nat := if isSnap i then [0, 3, 4] else [0, 1, 2]

/-- The lines of a copy completed in order. -/
def Command.inOrder (k : Command) : Nat := (List.range k.lines).foldl (fun n i => if n = i ∧ get false k.moved i then n + 1 else n) 0

/-- What a `cp.snap` holds in place of the operands, the length, the lines and the slot: the records emitted above its word, the six words of its descriptor that it
reads, the descriptor's own address in bits that are 0 of SRC, NBLK and HTAB, its target, and its next block index above its status. -/
def Command.snapWords (k : Command) : List Nat :=
  let f := fun (i : Nat) => (snapField k.desc i).toNat
  let a := k.dst.toNat / 64
  [wordOfInstr k.instr + 2 ^ 32 * k.emitted, f 0 + a / 2 ^ 32 % 4096, f 1 % 2 ^ 32 + 2 ^ 32 * (a % 2 ^ 32), f 2 + a / 2 ^ 44 % 64, f 3, f 4, f 5,
    k.target.toNat, k.status % 2 ^ 32 + 2 ^ 32 * k.block]

/-- A command's record of 1,608 bytes. (DESIGN CHOICE, log entry 64.) -/
def Command.bytes (k : Command) : List Byte :=
  fit 1608 (words8 (if isSnap k.instr then k.snapWords else wordOfInstr k.instr :: k.operands ++ [k.inOrder, k.slotWord, k.status])
    ++ (heldExtents k.instr).flatMap fun e => fit 512 (words8 ((k.holds.filter fun h => h.ext == e).map (·.pa))))

/-- The payload of segment 6. (DESIGN CHOICE, log entry 64.) -/
def Engine.segment (g : Engine) : List Byte :=
  fit 64 (words8 [g.cmds.length, (g.cmds.filter (·.started)).length]) ++ fit (32 * 1608) (g.cmds.flatMap Command.bytes)

/-! ### The array's records (R339, R363) -/

/-- The W field of a PE for a weight set (R165, R181). -/
def WeightSet.peWord (x : WeightSet) (r n : Nat) : Nat :=
  if x.fmt = 0 then 0
  else if x.spectral then
    let p := x.pair (r / 2) n
    encode bf16 0 (if r % 2 = 0 then p.1 else p.2)
  else
    let w := weightsPerPe x.fmt
    let z := elemBits (fmtType x.fmt)
    (List.range w).foldl (fun a j => a + x.code (w * r + j) n * 2 ^ (z * j)) 0

/-- The set that PE (r, n) uses on the next cycle: that of the last operation whose weights have reached it (R175, R363). -/
def Matrix.setAt (m : Matrix) (r n : Nat) : WeightSet :=
  match (m.ops.filter fun o => o.feeding.isSome && decide (r + n ≤ o.elapsed + 1)).getLast? with
  | some o => o.set
  | none =>
    match m.ops.find? fun o => o.feeding.isSome with
    | some o => o.old
    | none => m.pe

/-- The activations that a PE row combines, packed as the weights are; 0 for a k at or beyond K (R363). -/
def ArrayOp.activations (o : ArrayOp) (m r : Nat) : Nat :=
  if o.kind = .spec then
    (if r / 2 < shK o.shape then
      let x := o.specValue m (r / 2)
      encode bf16 0 (if r % 2 = 0 then x.1 else x.2)
     else 0)
  else
    let w := weightsPerPe o.set.fmt
    (peTerms w (shK o.shape) r).foldl (fun a k => a + o.actCode m k * 2 ^ (elemBits o.ty * (k % w))) 0

/-- The wavefront row m of an operation that PE (r, n) combines on the cycle that the operation has reached (R363). -/
def ArrayOp.waveAt (o : ArrayOp) (r n : Nat) : Option Nat :=
  if o.kind ≠ .zero ∧ n < o.columns ∧ r + n ≤ o.at ∧ o.at - r - n < shM o.shape then some (o.at - r - n) else none

/-- The terms that the PE rows above row r add to a sum. -/
def ArrayOp.terms (o : ArrayOp) (r : Nat) : Nat :=
  if o.kind = .spec then Nat.min (r / 2) (shK o.shape) else Nat.min (weightsPerPe o.set.fmt * r) (shK o.shape)

/-- The result of (m, n) from a sum p that enters PE row r; `v` is the activation and the weight in transit to a lower PE of a spectral
pair, which adds their exact product and its own to its sum, in one rounding (R181, R339). -/
def ArrayOp.resume (o : ArrayOp) (r n m p v : Nat) : Nat :=
  if o.kind ≠ .spec then o.resultFrom r m n p
  else if r % 2 = 0 ∨ shK o.shape ≤ r / 2 then o.resultFrom (ceilDiv r 2) m n p
  else
    let upper := (decode bf16 (bits v 15 0)).mul (decode bf16 (bits v 31 16))
    let lower := (decode bf16 (o.activations m r)).mul (decode bf16 (o.set.peWord r n))
    o.resultFrom (r / 2 + 1) m n (encode fp32 0 (rne32 ((decode fp32 p).add (upper.add lower))))

/-- What stands for the sum of (m, n) above PE row r: the sum it began with, in row 0, or the one that a restore has put into a PE of a row
above. -/
def ArrayOp.entered (o : ArrayOp) (m n r : Nat) : Nat × Nat × Nat :=
  match get none o.psum (512 * m + n) with
  | some e => if e.1 ≤ r then e else (0, (get 0#64 o.read (512 * m + n)).toNat, 0)
  | none => (0, (get 0#64 o.read (512 * m + n)).toNat, 0)

/-- The incoming sum of (m, n) at PE row r (R363): what the rows above have made of the sum that entered them. -/
def ArrayOp.incoming (o : ArrayOp) (m n r : Nat) : Nat :=
  let e := o.entered m n r
  if e.1 = r ∨ o.terms r = o.terms e.1 then e.2.1
  else ({ o with shape := BitVec.ofNat 64 (setBits o.shape.toNat 26 18 (o.terms r)) } : ArrayOp).resume e.1 n m e.2.1 e.2.2

/-- ALAT, PSUM and V of PE (r, n) on the next cycle. -/
def peValue (ops : List ArrayOp) (r n : Nat) : Option (Nat × Nat) :=
  ops.findSome? fun o => (o.waveAt r n).map fun m => (o.activations m r, o.incoming m n r)

/-- The payload of a PE band (R339); `ops` are the operations as they stand on the next cycle. -/
def Matrix.band (m : Matrix) (ops : List ArrayOp) (rb cb : Nat) : List Byte :=
  (List.range 768).flatMap fun i =>
    let r := 24 * rb + i / 32
    let n := 32 * cb + i % 32
    let v := peValue ops r n
    let x := m.setAt r n
    leBytes 9 (pack [(16, x.peWord r n), (16, (v.map (·.1)).getD 0), (32, (v.map (·.2)).getD 0), (1, ofBool v.isSome), (3, x.fmt)])

/-- The operands that the upper PE of a pair used on the stop cycle (R338), both in one number. -/
def transitOperand (m : Matrix) (q n : Nat) : Nat :=
  (m.ops.findSome? fun o =>
    if o.kind = .spec ∧ q < shK o.shape then
      (o.waveAt (2 * q) n).map fun m =>
        let e := o.entered m n (2 * q + 1)
        if e.1 = 2 * q + 1 then e.2.2 else o.activations m (2 * q) + 2 ^ 16 * o.set.peWord (2 * q) n
    else none).getD 0

/-! ### Segment 7 (R164, R338) -/

/-- MSTAT (R164). -/
def Matrix.mstat (m : Matrix) : Nat :=
  let b := fun (x : Buffer) => ([(2, x.st), (3, x.set.fmt), (1, ofBool x.set.spectral), (2, x.set.geo)] : List (Nat × Nat))
  pack (b m.wb0 ++ b m.wb1 ++ [(3, m.curfmt), (1, ofBool m.specm), (2, m.geo), (3, m.tries)])

/-- Bytes of a table of rows. -/
def tableBytes (t : Table Row) (d : Row) (n : Nat) : List Byte := (List.range n).flatMap fun i => rowBytes (get d t i)

/-- A correction of 528 bytes. -/
def Correction.bytes (k : Correction) : List Byte :=
  leBytes 2 k.val.toNat ++ leBytes 2 (ofBool k.weight) ++ leBytes 2 k.kix ++ leBytes 2 k.oix ++ List.replicate 8 0#8
    ++ fit 512 (k.partners.flatMap fun h => leBytes 2 h.toNat)

/-- A drain record of 67,648 bytes. -/
def DrainRecord.bytes (r : DrainRecord) : List Byte :=
  fit 16 (r.bands.flatMap fun h => leBytes 2 h.toNat) ++ leBytes 8 r.corrections.length
    ++ fit (128 * 528) (r.corrections.flatMap Correction.bytes) ++ List.replicate 40 0#8

/-- An outlier list of 512 bytes. -/
def listBytes (l : List Word) : List Byte := fit 512 (words8 (l.map (·.toNat)))

/-- The replay's operand buffers (R188): activation rows, accumulator values read, PE weights and formats. -/
def replayBytes : Option ArrayOp → List Byte
  | none => List.replicate (49152 + 262144 + 49152 + 12288) 0#8
  | some o =>
    ((List.range 256).flatMap fun m =>
        if o.kind = .spec then (List.range 96).flatMap fun r => leBytes 2 (o.activations m r) else (rowBytes (get 0#8192 o.acts m)).take 192)
      ++ ((List.range 65536).flatMap fun i => leBytes 4 (get 0#64 o.read (512 * (i / 256) + i % 256)).toNat)
      ++ ((List.range 24576).flatMap fun i => leBytes 2 (o.set.peWord (i / 256) (i % 256)))
      ++ List.replicate 12288 (BitVec.ofNat 8 (o.set.fmt + 16 * o.set.fmt))

/-- The row of the transform unit that an operation read so many cycles ago, until it is written (R185). -/
def TransformOp.slot (o : TransformOp) (age : Nat) : Option Nat :=
  if age < o.delay ∧ age ≤ o.elapsed ∧ o.elapsed - age < tshRows o.aTsh then some (o.elapsed - age) else none

/-- The transform unit's part: 36 row slots, slot i with the row read i cycles ago, and the butterfly state. (DESIGN CHOICE, log entry 64.) -/
def transformBytes (ops : List TransformOp) (free : Nat) : List Byte :=
  if ops = [] then List.replicate 38912 0#8
  else
    ((List.range 36).flatMap fun i =>
      rowBytes ((ops.findSome? fun o => (o.slot i).map fun j => get 0#8192 o.rows j).getD 0)) ++ fit 2048 (Config.butterfly free)

/-- The weight rows of a buffer, with those that a load in progress has read (R166). -/
def Matrix.weightRows (m : Matrix) (b : Nat) : Table Row :=
  match m.fills.find? fun f => f.dest == .buffer b with
  | some f => f.rows
  | none => (m.buffer b).set.rows

/-- The payload of segment 7, the transform unit in layout 0x0A10 only. (DESIGN CHOICE, log entry 64.) -/
def Matrix.segment (m : Matrix) (layoutA : Bool) (free : Nat) : List Byte :=
  fit 128 (words8 [m.mstat, m.actOut.length, m.wOut.length, m.wb0.set.outliers.length, m.wb1.set.outliers.length]
      ++ fit 16 ((if m.bands = [] then List.replicate 8 0x3F80 else m.bands).flatMap fun h => leBytes 2 h.toNat)
      ++ words8 [match m.replay with | some o => o.shape.toNat | none => 0])
    ++ tableBytes (m.weightRows 0) 0 48 ++ tableBytes (m.weightRows 1) 0 48
    ++ tableBytes m.wb0.set.scales scaleRow 12 ++ tableBytes m.wb1.set.scales scaleRow 12
    ++ tableBytes m.actScales scaleRow 12 ++ tableBytes m.wScales scaleRow 12
    ++ listBytes m.actOut ++ listBytes m.wOut ++ listBytes m.wb0.set.outliers ++ listBytes m.wb1.set.outliers
    ++ ((List.range 16).flatMap fun t => (get DrainRecord.cleared m.records t).bytes)
    ++ replayBytes m.replay
    ++ ((List.range 48).flatMap fun q => (List.range 256).flatMap fun n => leBytes 4 (transitOperand m q n))
    ++ (if layoutA then transformBytes m.xops free else [])

/-- Bytes of segment 7 before the transform unit's part (R345). -/
def transformAt : Nat := 1653888

/-! ### The area (R332 to R335, R340, R341) -/

/-- Where a segment stands in its area (R335). -/
def segPlace (i : Nat) : Nat :=
  if i = 0 then 64 else if i = 1 then 69696 else if i = 2 then 106560 else if i = 3 then 163904 else if i = 4 then 475200
  else if i = 5 then 487488 else if i = 6 then 499776 else if i = 7 then 553024
  else if i < 40 then 2256960 + 6976 * (i - 8) else 2480192 + 65664 * (i - 40)

/-- A segment as it stands in the area (R334). -/
def segImage (i : Nat) (pay : List Byte) : List Byte :=
  leBytes 2 i ++ leBytes 2 0 ++ leBytes 4 pay.length ++ leBytes 4 (crc32c pay).toNat ++ leBytes 4 0 ++ padTo 64 pay

/-- The stream of a segment 0 to 3. -/
def segStream (i : Nat) : Stream := streamOf i

/-- The write bit of a row of a slice: 1 unless it is noted as clean (R341). (DEDUCED, log entry 62.) -/
def Ctx.written (x : Ctx) (line : Nat) : Bool := !get false x.clean (128 + line)

/-- Whether a TILE row is saved though its write bit is 1 (R341): not when every configured tile that contains it is clean. -/
def Ctx.keepsRow (x : Ctx) (r : Nat) : Bool :=
  let ts := (List.range 16).filter fun t => inWindow (x.shape t) r
  ts.isEmpty || ts.any fun t => tshDirty (x.shape t)

/-- Whether a granule of a slice has changed since it was saved or loaded. -/
def Ctx.granuleWritten (x : Ctx) (g : Nat) : Bool := (List.range 64).any fun i => x.written (64 * g + i)

/-- Whether a save writes a TILE row of a granule that it writes (R341); one that is not to be saved keeps what its place holds, where the
area's segment is valid, `owned`. -/
def Ctx.savesRow (x : Ctx) (owned : Bool) (r : Nat) : Bool := if x.written r then x.keepsRow r else !owned

/-- ROWMASK of a TILE granule (R340, R341), from the one in the area. -/
def Ctx.rowMask (x : Ctx) (owned : Bool) (g before : Nat) : Nat :=
  (List.range 64).foldl (fun a i =>
    let r := 64 * g + i
    let b := if x.written r then x.keepsRow r else !owned || bit before i
    if b then a + 2 ^ i else a) 0

/-- The payload of a granule as it stands in the area after a save: the rows of the pool, and for a TILE granule the mask before them, each
row that is not saved as its place in the area, `place`, holds it (R341). -/
def granulePay (k : Core) (x : Ctx) (z : Slice) (g : Nat) (owned : Bool) (before : Nat) (place : Nat → List Byte) : List Byte :=
  let line := fun (i : Nat) => rowBytes (k.line (64 * (z.base + g) + i))
  if g < z.tileg then
    leBytes 8 (x.rowMask owned g before) ++ (List.range 64).flatMap fun i => if x.savesRow owned (64 * g + i) then line i else place i
  else (List.range 64).flatMap line

/-- The payload of a segment below 40 of a context that stands on a core of layout A or B. -/
def Ctx.payload (x : Ctx) (layoutA : Bool) (imm free : Nat) (ops : List ArrayOp) (i : Nat) : List Byte :=
  if i < 4 then x.seqSegment (segStream i) (bit imm i)
  else if i = 4 then x.links.segment
  else if i = 5 then x.locSegment
  else if i = 6 then x.eng.segment
  else if i = 7 then x.mat.segment layoutA free
  else x.mat.band ops ((i - 8) / 8) ((i - 8) % 8)

/-- The instruction memories a save includes (R342). -/
def Ctx.imm (x : Ctx) : Nat :=
  ofBool x.ctl.imldw + 2 * ofBool x.ld.imldw + 4 * ofBool x.mx.imldw + 8 * ofBool x.st.imldw

/-- The profiles required by the instructions in progress (R333). (DEDUCED, log entry 91.) -/
def Ctx.infl (x : Ctx) : BitVec 5 :=
  [Stream.ctl, .ld, .mx, .st].foldl (fun a sm => (x.seq sm).flight.foldl (fun a f => a ||| f.need) a) 0

/-- LAYOUT of a core (R333). -/
def layoutOf (c : Nat) : Nat := if Config.isB (Config.dieOf c) then 0x0B10 else 0x0A10

/-- The segments that a mask holds, in increasing order. -/
def segsIn (own : BitVec 128) : List Nat := (List.range 128).filter fun i => own.getLsbD i

/-- The fields of a shaving's header (R333). -/
structure ShavingHeader where
  layout : Nat
  cls : Nat
  infl : Nat
  own : BitVec 128
  fresh : BitVec 128
  tileg : Nat
  scrg : Nat
  constg : Nat
  complete : Bool
  seq : Nat
  time : Nat
  imm : Nat
  deriving DecidableEq, Repr

/-- A header's bytes, with the CRC field of each segment in OWN, in order. -/
def ShavingHeader.bytes (h : ShavingHeader) (crcs : List Byte) : List Byte :=
  let a := leBytes 4 0x5648534B ++ leBytes 2 h.layout ++ leBytes 1 h.cls ++ leBytes 1 h.infl ++ leBytes 16 h.own.toNat
    ++ leBytes 16 h.fresh.toNat ++ leBytes 2 (segsIn h.own).length
    ++ leBytes 2 (pack [(7, h.tileg), (7, h.scrg), (1, h.constg), (1, ofBool h.complete)]) ++ leBytes 4 h.seq ++ leBytes 8 h.time
  let z := leBytes 1 (h.imm % 16) ++ List.replicate 3 0#8
  a ++ leBytes 4 (crc32c (a ++ leBytes 4 0 ++ z ++ crcs)).toNat ++ z

/-- A header read. -/
def ShavingHeader.read (bs : List Byte) : ShavingHeader :=
  let w := descNat bs 42 2
  { layout := descNat bs 4 2, cls := bits (descNat bs 6 1) 1 0, infl := bits (descNat bs 7 1) 4 0
    own := BitVec.ofNat 128 (descNat bs 8 16), fresh := BitVec.ofNat 128 (descNat bs 24 16), tileg := bits w 6 0, scrg := bits w 13 7
    constg := bits w 14 14, complete := bit w 15, seq := descNat bs 44 4, time := descNat bs 48 8, imm := bits (descNat bs 60 1) 3 0 }

/-- The shaving area of a slot (R286): SHVBASE.BASE + (s - FIRST) × STRIDE MiB. -/
def State.areaOf (s : State) (dom n : Nat) : Nat :=
  let p := s.part (s.slot dom n).owner
  p.shvBase.toNat * 65536 + (n - p.poolqFirst.toNat) * p.shvStride.toNat * 2 ^ 20

/-- How far the pages of an area could be translated: all of them, up to a page that faults, or up to a leaf that is being bound. -/
inductive Translated where
  | whole | fault | wait
  deriving DecidableEq, Repr

/-- The pages of n bytes from an address translated for reading and writing, for a core's spindle, and held as a copy enqueue holds them
(R128, R332); fuel bounds the pages. -/
def State.holdArea (s : State) (o c : Nat) : Nat → Nat → Nat → State × List PageHold × Translated
  | 0, _, n => (s, [], if n = 0 then .whole else .fault)
  | fuel + 1, va, n =>
    if n = 0 then (s, [], .whole)
    else
      match s.walk o (some (Config.dieOf c)) va true true false with
      | .ok s1 pa v size =>
        let k := Nat.min n (v + size - va)
        let r := s1.holdArea o c fuel (va + k) (n - k)
        (r.1, { ext := 0, va := va, pa := pa, size := k, own := o, at_ := v, room := size } :: r.2.1, r.2.2)
      | .fault s1 _ _ => (s1, [], .fault)
      | .stall => (s, [], .wait)

/-- Bytes of an area (R332): 7 MiB. -/
def areaSize : Nat := 7 * 2 ^ 20

/-- The pages of a slot's shaving area translated and held for a core's spindle; an area of less than 7 MiB is not used (R332). -/
def State.holdSlot (s : State) (dom n c : Nat) : State × List PageHold × Translated :=
  let o := (s.slot dom n).owner
  if (s.part o).shvStride.toNat < 7 then (s, [], .fault) else s.holdArea o c 113 (s.areaOf dom n) areaSize

/-- The bytes from an address of an area, through its held pages; none where a line is uncorrectable. -/
def State.heldBytes (s : State) : List PageHold → Nat → Nat → Option (List Byte)
  | [], _, n => if n = 0 then some [] else none
  | h :: hs, va, n =>
    if n = 0 then some []
    else if h.va ≤ va ∧ va < h.va + h.size then
      let k := Nat.min n (h.va + h.size - va)
      if s.badAt (h.pa + (va - h.va)) k then none
      else (s.heldBytes hs (va + k) (n - k)).map fun bs => s.memBytes (h.pa + (va - h.va)) k ++ bs
    else s.heldBytes hs va n

/-- The write of bytes from an address of an area on by core c's spindle, through its held pages, numbered and stamped as the writes of an
engine are (R258); none where a page is not held. -/
def State.heldWrite (s : State) (c : Nat) : List PageHold → Nat → List Byte → Option State
  | [], _, bs => if bs = [] then some s else none
  | h :: hs, va, bs =>
    if bs = [] then some s
    else if h.va ≤ va ∧ va < h.va + h.size then
      let k := Nat.min bs.length (h.va + h.size - va)
      (s.writeEngine c 0 (h.pa + (va - h.va)) (bs.take k)).heldWrite c hs (va + k) (bs.drop k)
    else s.heldWrite c hs va bs

/-- The hub's read of bytes that may cross pages; fuel bounds the pages. -/
def State.hubReadAll (s : State) (o : Nat) : Nat → Nat → Nat → Option (State × List Byte)
  | 0, _, n => if n = 0 then some (s, []) else none
  | fuel + 1, va, n =>
    if n = 0 then some (s, [])
    else
      match s.walk o none va true false false with
      | .ok s1 pa v size =>
        let k := Nat.min n (v + size - va)
        if s1.badAt pa k then none
        else
          match s1.hubReadAll o fuel (va + k) (n - k) with
          | some (s2, bs) => some (s2, s1.memBytes pa k ++ bs)
          | none => none
      | _ => none

/-- Pages that so many bytes may touch. -/
def pageFuel (n : Nat) : Nat := n / 65536 + 2

/-- Whether the homes of an area serve core c's spindle now (R258, R264). -/
def State.areaServed (s : State) (c : Nat) (hs : List PageHold) : Bool := hs.all fun h => s.homeServed c h.pa

/-- Bytes of an area, zeros where they cannot be read. -/
def State.areaBytes (s : State) (hs : List PageHold) (va n : Nat) : List Byte := (s.heldBytes hs va n).getD (List.replicate n 0#8)

/-- The CRC fields of the segments of an area, in order (R333). -/
def State.segCrcs (s : State) (hs : List PageHold) (va : Nat) (own : BitVec 128) : List Byte :=
  (segsIn own).flatMap fun i => s.areaBytes hs (va + segPlace i + 8) 4

/-- What a save of a context works from: the held pages of its area and the area's address, the context, and what it was when its
segments were saved last. -/
structure SaveJob where
  holds : List PageHold
  area : Nat
  core : Nat
  ctx : Ctx
  slice : Slice
  images : List (Nat × Ctx)
  own : BitVec 128
  imm : Nat
  deriving DecidableEq, Repr

/-- The segments that a layout holds. -/
def SaveJob.segments (j : SaveJob) : Nat := 40 + j.slice.tileg + j.slice.scrg + j.slice.constg

/-- The operations of a context as they stand on the next cycle, after its landings; their reads are of the slice the context owns (R363). -/
def State.opsAhead (s : State) (j : SaveJob) (x : Ctx) : List ArrayOp :=
  let s1 := s.modCore j.core fun k =>
    ({ k.setSlice k.liveSlice j.slice with live := x }).landAll false
  (s1.ctx j.core).mat.ops.map fun o => (s1.readOp j.core { o with corr := [] }).2

/-- The payload of a segment of a save. -/
def State.jobPay (s : State) (j : SaveJob) (x : Ctx) (i : Nat) : List Byte :=
  if i < 40 then
    x.payload (layoutOf j.core == 0x0A10) j.imm s.free (if i < 8 then [] else s.opsAhead j x) i
  else
    granulePay (s.core j.core) x j.slice (i - 40) (j.own.getLsbD i) (descNat (s.areaBytes j.holds (j.area + segPlace i + 16) 8) 0 8) fun r =>
      s.areaBytes j.holds (j.area + segPlace i + 24 + 1024 * r) 1024

/-- Whether the element of a segment below 40 differs from what it was when it was saved or loaded last. -/
def State.differs (s : State) (j : SaveJob) (i : Nat) : Bool :=
  match j.images.find? fun e => decide (i < e.1) with
  | some e => s.jobPay j j.ctx i != s.jobPay j e.2 i
  | none => true

/-- The write bits of segments 0 to 39 set for the elements that have changed (R341): a bit, once set, stays. (DEDUCED, log entry 62.) -/
def State.markSegs (s : State) (j : SaveJob) : Table Bool :=
  (List.range 40).foldl (fun t i => if get false t i ∧ s.differs j i then put false t i false else t) j.ctx.clean

/-- Whether a save writes a segment (R341): it is outside OWN, or its write bit is 1. (DEDUCED, log entry 62.) -/
def State.jobWrites (s : State) (j : SaveJob) (i : Nat) : Bool :=
  !j.own.getLsbD i || (if i < 40 then !get false j.ctx.clean i || s.differs j i else j.ctx.granuleWritten (i - 40))

/-- What a save writes of a segment, each part with its place in the segment: all of it, or of a TILE granule the rows that are saved and
what surrounds the rows (R341). -/
def State.segParts (s : State) (j : SaveJob) (i : Nat) : List (Nat × List Byte) :=
  let bs := segImage i (s.jobPay j j.ctx i)
  if i < 40 ∨ j.slice.tileg ≤ i - 40 then [(0, bs)]
  else
    (0, bs.take 24) :: (65560, bs.drop 65560)
      :: ((List.range 64).filter fun r => j.ctx.savesRow (j.own.getLsbD i) (64 * (i - 40) + r)).map fun r =>
        (24 + 1024 * r, (bs.drop (24 + 1024 * r)).take 1024)

/-- Parts written from an address of an area on; none on a fault of the area. -/
def State.writeParts (s : State) (c : Nat) (hs : List PageHold) (va : Nat) : List (Nat × List Byte) → Option State
  | [] => some s
  | p :: ps => match s.heldWrite c hs (va + p.1) p.2 with | some s1 => s1.writeParts c hs va ps | none => none

/-- The segments below a bound written in increasing number (R327): the state and what was written; none on a fault of the area. -/
def State.writeSegs (s : State) (j : SaveJob) (upTo : Nat) : Option (State × BitVec 128) :=
  (List.range (Nat.min upTo j.segments)).foldl (fun a i =>
    match a with
    | none => none
    | some (s1, fresh) =>
      if s.jobWrites j i then
        match s1.writeParts j.core j.holds (j.area + segPlace i) (s.segParts j i) with
        | some s2 => some (s2, fresh ||| BitVec.ofNat 128 (2 ^ i))
        | none => none
      else some (s1, fresh)) (some (s, 0))

/-- A header written (R333); none on a fault of the area. -/
def State.writeHeader (s : State) (c : Nat) (hs : List PageHold) (va : Nat) (h : ShavingHeader) : Option State :=
  s.heldWrite c hs va (h.bytes (s.segCrcs hs va h.own))

/-- The header of a save of a context. -/
def SaveJob.header (j : SaveJob) (own fresh : BitVec 128) (complete : Bool) (seq : Nat) : ShavingHeader :=
  { layout := layoutOf j.core, cls := if layoutOf j.core = 0x0A10 then 0 else 1, infl := j.ctx.infl.toNat, own := own, fresh := fresh
    tileg := j.slice.tileg, scrg := j.slice.scrg, constg := j.slice.constg, complete := complete, seq := seq, time := j.ctx.stopAt
    imm := j.imm }

/-- A whole save (R333, R341): every segment due, then the header. -/
def State.saveAll (s : State) (j : SaveJob) (seq : Nat) : Option (State × BitVec 128) :=
  match s.writeSegs j j.segments with
  | none => none
  | some (s1, fresh) =>
    match s1.writeHeader j.core j.holds j.area (j.header (j.own ||| fresh) fresh true seq) with
    | none => none
    | some s2 => some (s2, fresh)

/-- How far a save had come (R327, R329): the segments below `upTo` that are due are finished, and `cut` is the one being written, if one
was. -/
structure SaveStop where
  upTo : Nat
  cut : Option Nat
  deriving DecidableEq, Repr

/-- The stop of a save that has nothing left to write before a segment: the next one that it writes is cut short. -/
def State.stopBefore (s : State) (j : SaveJob) (n : Nat) : SaveStop :=
  match (List.range j.segments).find? fun i => decide (n ≤ i) && s.jobWrites j i with
  | some i => { upTo := i, cut := some i }
  | none => { upTo := j.segments, cut := none }

/-- The stop of a save on a fault of its area: the segment whose write fails, or the header after all of them. -/
def State.stopOnFault (s : State) (j : SaveJob) : SaveStop :=
  match (List.range j.segments).find? fun i => (s.writeSegs j (i + 1)).isNone with
  | some i => { upTo := i, cut := some i }
  | none => { upTo := j.segments, cut := none }

/-- A save that stops early (R329): OWN is the previous OWN less the segment being written, FRESH is empty and COMPLETE is 0. -/
def State.saveCut (s : State) (j : SaveJob) (e : SaveStop) (seq : Nat) : State :=
  let s1 := match s.writeSegs j e.upTo with | some (s1, _) => s1 | none => s
  let own := match e.cut with | some i => j.own &&& ~~~(BitVec.ofNat 128 (2 ^ i)) | none => j.own
  match s1.writeHeader j.core j.holds j.area (j.header own 0 false seq) with
  | some s2 => s2
  | none => s1

end Sys2Proof.Machine
end

