-- ==== Sys2Proof/Machine/Restore.lean ====
section
/-! DEFINITION. A context read back from the bytes of a shaving (R330, R331, R336 to R345). -/
namespace Sys2Proof.Machine

/-- The wait of a code. -/
def waitOf (n : Nat) : WaitKind :=
  ([WaitKind.fwait, .bwait, .header, .queueT, .renq, .taskPost].find? fun k => waitCode k == n).getD .none

/-- The wait that an instruction makes. -/
def waitKindOf : Instr → WaitKind
  | .fwait .. => .fwait
  | .bwait .. => .bwait
  | .qpushT .. | .qpopT .. => .queueT
  | .renq .. => .renq
  | .taskPost .. => .taskPost
  | _ => .none

/-- The instruction at a sequencer's head. -/
def Seq.headInstr (q : Seq) (sm : Stream) : Instr := match q.frame sm with | .ok f => f.instr | .error _ => .unassignedEncoding

/-- The wait of a restored sequencer: the unit that waits stands at its head, or it waits at the header. -/
def Seq.restoreWait (q old : Seq) (sm : Stream) (kind rem : Nat) : Seq :=
  let k := waitOf kind
  if k = old.wait ∧ q.pc = old.pc then { q with wait := k, waitRem := rem, stalled := old.stalled, part := old.part }
  else if k = .header ∧ ¬ q.inBody then { q with wait := k, waitRem := rem, stalled := none, part := 0 }
  else if k ≠ .none ∧ q.inBody ∧ waitKindOf (q.headInstr sm) = k then
    { q with wait := k, waitRem := rem, stalled := some (q.headInstr sm), part := 0 }
  else { q with wait := .none, waitRem := 0, stalled := none, part := 0 }

/-- The repetition that a restored sequencer is in where its block's count comes from a queue: of a rotating block as its stage predicates tell
(R55), of another the first unless the loop buffer holds it. -/
def Seq.guessRep (q : Seq) : Nat :=
  if q.rot then
    let n := (q.hword.extractLsb' 26 3).toNat + 1
    if q.pred (15 + n) then n - 1 else ((List.range n).filter fun k => q.pred (16 + k)).length - 1
  else ofBool (q.lb == some q.hdr)

/-- The block of a restored sequencer: HDR is PC where it stands between blocks. (DEDUCED, log entry 63.) -/
def Seq.restoreBlock (q old : Seq) (hdr left : Nat) (hw : BitVec 32) : Seq :=
  if q.pc.toNat = hdr then { q with inBody := false }
  else
    let b := { q with hdr := BitVec.ofNat 16 hdr, hword := hw, inBody := true }
    if old.inBody ∧ old.hdr = b.hdr ∧ old.hword = hw ∧ old.left = left then b
    else
      let n := if headerCount hw ≤ left then left + 1 + b.guessRep else headerCount hw
      { b with rep := n - left - 1, reps := n }

/-- The body in the loop buffer of a restored sequencer: that of its block as it stands in instruction memory, unless the kept buffer holds
the block. -/
def Seq.restoreLoop (q old : Seq) : Seq :=
  match q.lb with
  | none => { q with lbuf := [] }
  | some h =>
    if old.lb = some h ∧ old.imem = q.imem then { q with lbuf := old.lbuf }
    else { q with lbuf := (List.range ((q.headerAt h.toNat).extractLsb' 0 10).toNat).map fun i => q.half (h.toNat + 2 + i) }

/-- The CUT state of a restored sequencer; the set of consumers is the kept one. -/
def restoreCut (old : CutState) (code m pos : Nat) : CutState :=
  let n := match old with | .search _ n _ | .meeting _ n _ => n | .none => 7
  if code = 1 then .search (BitVec.ofNat 10 m) n (BitVec.ofNat 16 pos)
  else if code = 2 then .meeting (BitVec.ofNat 10 m) n (BitVec.ofNat 16 pos) else .none

/-- Registers from 8 bytes each. -/
def regsFrom (bs : List Byte) (n : Nat) : Table Word :=
  (List.range n).foldl (fun t i => put 0#64 t i (BitVec.ofNat 64 (descNat bs (8 * i) 8))) []

/-- The bytes a pipeline record takes. -/
def recordSize (kind : Nat) : Nat := 16 + (if kind = 2 then 1152 else if kind = 4 then 1024 else if kind = 5 then 16 else if kind = 6 then 1040 else 0)

/-- The bytes that so many pipeline records take; fuel counts the records. -/
def recordsSize : Nat → List Byte → Nat
  | 0, _ => 0
  | n + 1, bs => recordSize (descNat bs 0 1) + recordsSize n (bs.drop (recordSize (descNat bs 0 1)))

/-- So many pipeline records, one by one. -/
def recordsIn : Nat → List Byte → List (List Byte)
  | 0, _ => []
  | n + 1, bs => bs.take (recordSize (descNat bs 0 1)) :: recordsIn n (bs.drop (recordSize (descNat bs 0 1)))

/-- The records of retirement actions among those of a stream. -/
def owedIn (recs : List (List Byte)) : List (List Byte) := recs.filter fun r => descNat r 0 1 == 3 || descNat r 0 1 == 5

/-- The result of a record of KIND 1, 2, 4 or 6. -/
def Landing.ofRecord (bs : List Byte) : Option Landing :=
  let h := descNat bs 0 8
  let kind := descNat bs 0 1
  let d := bs.drop 16
  let lanes := leNat (d.take 128)
  if kind = 1 then some (.scalar (bits h 31 24) (BitVec.ofNat 64 (descNat bs 8 8)))
  else if kind = 2 then
    some (.row (bits h 43 32)
      (rowOf ((List.range 1024).map fun i => if bit lanes i then 0xFF#8 else 0#8)) (rowOf ((d.drop 128).take 1024)))
  else if kind = 4 then some (.q6 (rowOf (d.take 1024)))
  else if kind = 6 then
    some (.column (descNat d 1024 1) (BitVec.ofNat 64 (descNat d 1032 8)) (descNat d 1026 2) (descNat d 1028 2) (descNat d 1030 2)
      (rowOf (d.take 1024)))
  else none

/-- The results of a stream's records, in their order. -/
def pendsOf (sm : Stream) (recs : List (List Byte)) : List Pend :=
  (recs.zipIdx).filterMap fun r => (Landing.ofRecord r.1).map fun l => { own := sm, ord := r.2, due := descNat r.1 1 2, what := l }

/-- A sequencer restored from its segment, its flights apart; what the layout does not hold is the kept sequencer's. (DEDUCED, log entry 61.) -/
def Seq.restore (old : Seq) (sm : Stream) (bs : List Byte) (imm : Bool) (code : Table Half) : Seq :=
  let v := leNat (bs.take 32)
  let n := regCount sm
  let ctlBytes := match sm with | .ctl => 208 | .mx => 32 | _ => 0
  let rest := bs.drop (32 + 8 * n + ctlBytes)
  let mem := rest.drop (recordsSize (bits v 190 183) rest)
  let q : Seq := { old with
    pc := BitVec.ofNat 16 (bits v 15 0)
    regs := regsFrom (bs.drop 32) n
    preds := (List.range 23).foldl (fun t i => put false t (i + 1) (bit (bits v 95 72) (i + 1))) []
    cut := restoreCut old.cut (bits v 137 136) (bits v 147 138) (bits v 163 148)
    lb := if bit v 164 then some (BitVec.ofNat 16 (bits v 180 165)) else none
    iend := BitVec.ofNat 16 (bits v 206 191), imldw := bit v 207
    imem := if imm then imemOf mem else code }
  ((q.restoreLoop old).restoreBlock old (bits v 31 16) (bits v 39 32) (BitVec.ofNat 32 (bits v 71 40))).restoreWait old sm (bits v 103 101)
    (bits v 135 104)

/-- The results in flight of a stream of a restored context: the kept ones where the records of its segment are theirs, and otherwise what
the records tell; a result without a KIND is a kept one. (DEDUCED, log entry 61.) -/
def Ctx.restorePend (old : Ctx) (sm : Stream) (recs : List (List Byte)) : List Pend :=
  let own := old.pend.filter fun p => p.own == sm
  if recs = old.records sm then own else pendsOf sm recs ++ own.filter fun p => p.record.isNone

/-- Whether an error is delivered only at a report point (R346, R347): KERF and BAR_UNDER, and UNCORR of LD, MX and ST, whose EINFO holds the
agent in [43:40] over an SCR offset. (DEDUCED, log entry 65.) -/
def imprecise (c : Cause) (info : Word) : Bool :=
  match c with
  | .kerf | .barUnder => true
  | .uncorr => decide (1 ≤ bits info.toNat 43 40 ∧ bits info.toNat 43 40 ≤ 3 ∧ bits info.toNat 39 32 = 0 ∧ bits info.toNat 63 44 = 0)
  | _ => false

/-- A held error restored: as the kept one was held, or by its cause (R347). (DEDUCED, log entry 65.) -/
def restoreError (old : List HeldError) (c : Cause) (info : Word) : HeldError :=
  (old.find? fun e => decide (e.cause = c ∧ e.info = info)).getD { cause := c, info := info, now := !imprecise c info }

/-- CTL's control registers restored from their 208 bytes. -/
def CtlRegs.restore (old : CtlRegs) (p : Nat) (bs : List Byte) : CtlRegs :=
  { old with
    wtmo := BitVec.ofNat 32 (descNat bs 0 8), ecause := BitVec.ofNat 8 (descNat bs 8 8), einfo := BitVec.ofNat 64 (descNat bs 16 8)
    epc := BitVec.ofNat 40 (descNat bs 24 8), estat := BitVec.ofNat 7 (descNat bs 32 8), tvec := BitVec.ofNat 17 (descNat bs 40 8)
    chnd := BitVec.ofNat 17 (descNat bs 48 8), slipcnt := BitVec.ofNat 64 (descNat bs 56 8)
    retryMax := BitVec.ofNat 3 (descNat bs 64 8), priv := if p = 0 then .user else .guest
    errors := (List.range 4).filterMap fun i =>
      let c := descNat bs (72 + 16 * i) 1
      if c = 0 then none else some (restoreError old.errors (causeOf c) (BitVec.ofNat 64 (descNat bs (80 + 16 * i) 8)))
    kv := (List.range 9).foldl (fun t j => put 0 t j (descNat bs (136 + 8 * j) 8)) [] }

/-- A value queue that holds entries. -/
def VQueue.of (l : List QEntry) : VQueue := { items := l, staged := [], popped := 0 }

/-- The links restored from segment 4. -/
def Links.restore (old : Links) (bs : List Byte) : Links :=
  let count := fun (q : Nat) => descNat bs (72 + q) 1
  let word := fun (o : Nat) => BitVec.ofNat 64 (descNat bs o 8)
  let wide := fun (q : Nat) => (List.range (Nat.min (count q) 32)).map fun i =>
    ({ cut := bit (descNat bs (136 + 512 * q + 16 * i) 1) 0, val := word (128 + 512 * q + 16 * i) } : QEntry)
  let narrow := fun (q j : Nat) => (List.range (Nat.min (count q) 8)).map fun i =>
    ({ cut := false, val := word (1664 + 64 * j + 8 * i) } : QEntry)
  let rows := fun (q : Nat) => (List.range (Nat.min (count q) 4)).map fun i =>
    rowOf ((bs.drop (1920 + 4096 * (q - 5) + 1024 * i)).take 1024)
  let vq1 := [0, 1, 2].foldl (fun t q => put VQueue.empty t q (VQueue.of (wide q))) ([] : Table VQueue)
  let vq2 := [(3, 0), (4, 1), (7, 2)].foldl (fun t p => put VQueue.empty t p.1 (VQueue.of (narrow p.1 p.2))) vq1
  { old with
    vq := vq2
    rq := [5, 6].foldl (fun t q => put RQueue.empty t q { items := rows q, staged := [], popped := 0 }) []
    tok := (List.range 12).foldl (fun t i =>
      put Token.zero t i { count := bits (descNat bs 64 8) (4 * i + 3) (4 * i), staged := 0, popped := 0 }) []
    flags := (List.range 64).foldl (fun t i => put 0#8 t i (BitVec.ofNat 8 (descNat bs i 1))) []
    deque := (List.range (Nat.min (bits (descNat bs 80 1) 6 0) 64)).map fun i => word (10112 + 8 * i)
    lo := word 88, hi := word 96, ch := word 104 }

/-- The ring's state of a word. -/
def RingState.ofWord (v : Nat) : RingState :=
  { on := bit v 0, slotsM1 := bits v 6 1, head := bits v 12 7, count := bits v 19 13, rsv := bits v 26 20, held := bit v 27
    hslot := bits v 33 28 }

/-- Segment 5 restored. -/
def Pieces.restore (old : Pieces) (bs : List Byte) : Pieces :=
  let word := fun (o : Nat) => BitVec.ofNat 64 (descNat bs o 8)
  let kerfs := leNat ((bs.drop 2968).take 8192)
  { old with
    ag := (List.range 80).foldl (fun t i => put 0#64 t i (word (8 * i))) []
    rings := (List.range 16).foldl (fun t n => put RingState.off t n (RingState.ofWord (descNat bs (640 + 8 * n) 8))) []
    tsh := (List.range 16).foldl (fun t i => put 0#64 t i (word (768 + 8 * i))) []
    masks := (List.range 8).foldl (fun t i => put 0#1024 t i (BitVec.ofNat 1024 (descNat bs (896 + 128 * i) 128))) []
    satop := descNat bs 1920 8
    allocs := ((List.range (Nat.min (descNat bs 1928 8) 64)).map fun i =>
      (descNat bs (1944 + 16 * i) 8, descNat bs (1952 + 16 * i) 8)).reverse
    stGeo := bits (descNat bs 1936 8) 1 0
    kerf := (List.range 65536).filterMap fun i => if bit kerfs i then some (i, true) else none }

/-- The ring set of a copy that fills a ring's slot. -/
def ringOf : Instr → Option Nat
  | .copyRing n _ _ _ | .copyMx n _ _ _ _ | .ringPush n _ => some n.toNat
  | _ => none

/-- The instruction of an M32 word. -/
def instrOfWord (w : Nat) : Instr := instrOf (decodeHalves (BitVec.ofNat 16 w) (some (BitVec.ofNat 16 (w / 2 ^ 16))))

/-! ### The page holds of a restored command -/

/-- The page that maps a global address in a partition's tables, whatever it permits: its address, its size and its physical address; 64 KiB
where the tables no longer map it. -/
def State.leafPage (s : State) (o va : Nat) : Nat × Nat × Nat :=
  match s.keptAt o va with
  | some k => (k.va, k.size, bits k.leaf.toNat 51 6 * 64)
  | none =>
    match s.findLeaf o va 4 ((s.part o).ptroot.toNat * 2 ^ 16) with
    | .ok (lvl, _, ent) => (va - va % pageSize lvl, pageSize lvl, bits ent 51 6 * 64)
    | .error _ => (va - va % 65536, 65536, 0)

/-- The page that a restored command holds at an address of an extent, with the bytes left in it; `pa` is the physical address that its record
gives, if it gives one (R128, R338). (DEDUCED, log entry 61.) -/
def State.heldPage (s : State) (o ext : Nat) (a : Word) (pa : Option Nat) : PageHold × Nat :=
  match placeOf a with
  | .peer off =>
    match s.importAt o off with
    | some (i, e) =>
      let va := e.base + (off - i.off)
      let p := s.leafPage e.owner va
      let k := Nat.min (p.1 + p.2.1 - va) (i.off + i.len - off)
      ({ ext := ext, va := off, pa := pa.getD (p.2.2 + (va - p.1)), size := k, own := e.owner, at_ := p.1, room := p.2.1 }, k)
    | none => ({ ext := ext, va := off, pa := pa.getD 0, size := 65536, own := o, at_ := off, room := 65536 }, 65536)
  | _ =>
    let va := bits a.toNat 55 0
    let p := s.leafPage o va
    ({ ext := ext, va := p.1, pa := pa.getD p.2.2, size := p.2.1, own := o, at_ := p.1, room := p.2.1 }, p.1 + p.2.1 - va)

/-- The pages of an extent that a restored command holds, in order; fuel bounds them. -/
def State.heldAgain (s : State) (o ext : Nat) : Nat → List Nat → Word → Nat → List PageHold
  | 0, _, _, _ => []
  | fuel + 1, pas, a, n =>
    if n = 0 then []
    else
      let p := s.heldPage o ext a pas.head?
      p.1 :: s.heldAgain o ext fuel (pas.drop 1) (plus a p.2) (n - p.2)

/-- The g extents of a command: number, address and bytes (R128, R149). -/
def Command.extents (k : Command) : List (Nat × Word × Nat) :=
  let f := snapField k.desc
  let own := if isSnap k.instr then [(0, f 0, 4096 * (f 1).toNat), (3, f 2, 32 * (f 1).toNat), (4, f 3, Nat.max 64 (f 4).toNat), (1, k.dst, 64)]
    else
      [(0, (k.vals[1]?).getD 0, match k.instr with | .copyX2s .. => streamBound k.len | _ => k.len),
       (1, k.dst, match k.instr with | .copyS2x .. => streamBound k.len | _ => k.len)]
  (own ++ if isBarTarget k.target then [(2, k.target, barExtent)] else []).filter fun e => isG e.2.1

/-- The pages that a restored command holds: those its record gives, and those of a snapshot's descriptor and target as they are mapped. -/
def State.holdsAgain (s : State) (o : Nat) (k : Command) (pas : List Nat) : List PageHold :=
  k.extents.flatMap fun e =>
    match (heldExtents k.instr).idxOf? e.1 with
    | some i => s.heldAgain o e.1 64 ((pas.drop (64 * i)).take 64) e.2.1 e.2.2
    | none => s.heldAgain o e.1 2 [] e.2.1 e.2.2

/-- A command restored from its record (R338). (DEDUCED, log entry 61.) -/
def State.restoreCommand (s : State) (o id : Nat) (task : Option Aim) (bs : List Byte) : Command :=
  let w := fun (i : Nat) => descNat bs (8 * i) 8
  let i := instrOfWord (w 0 % 2 ^ 32)
  let k : Command :=
    if isSnap i then
      let at_ := 64 * (bits (w 2) 63 32 + 2 ^ 32 * (w 1 % 4096 + 4096 * (w 3 % 64)))
      let desc := [w 1 - w 1 % 4096, bits (w 2) 31 0, w 3 - w 3 % 64, w 4, w 5, w 6].map (BitVec.ofNat 64)
      let n := w 0 / 2 ^ 32
      { newCommand i [BitVec.ofNat 64 at_, snapField desc 0, 0, 0] (4096 * bits (w 2) 31 0) (BitVec.ofNat 64 (w 7)) [] task with
        desc := desc, status := w 8 % 2 ^ 32, block := w 8 / 2 ^ 32, emitted := n, written := 4160 * n }
    else
      let ring := ringOf i
      let reserved := bit (w 7) 6
      { newCommand i ([w 1, w 2, w 5, if ring.isSome then w 4 else 0].map (BitVec.ofNat 64)) (bits (w 5) 31 0)
          (BitVec.ofNat 64 (if ring.isSome then w 3 else w 4)) [] task with
        moved := (List.range (Nat.min (w 6) (bits (w 5) 31 0 / 64))).map fun j => (j, true)
        slot := ring.map fun n => (n, bits (w 7) 5 0), counted := ring.isSome && !reserved, chained := bit (w 7) 7
        landed := bit (w 7) 7 && !reserved, status := w 8 }
  { k with id := id, holds := s.holdsAgain o k ((List.range 192).map fun j => w (9 + j)) }

/-- Segment 6 restored: a command whose record a kept one has is that one. (DEDUCED, log entry 61.) -/
def State.restoreEngine (s : State) (o : Nat) (task : Option Aim) (old : Engine) (bs : List Byte) : Engine :=
  { old with cmds := (List.range (Nat.min (descNat bs 0 8) 32)).map fun i =>
      let rec_ := (bs.drop (64 + 1608 * i)).take 1608
      { (old.cmds.find? fun k => k.bytes == rec_).getD (s.restoreCommand o (s.cmdNext + 1 + i) task rec_) with
        started := decide (i < descNat bs 8 8) } }

/-- A table of rows from bytes; `d` is what a row that is not listed reads as. -/
def tableFrom (d : Row) (bs : List Byte) (n : Nat) : Table Row :=
  (List.range n).foldl (fun t i => put d t i (rowOf ((bs.drop (1024 * i)).take 1024))) []

/-- A buffer restored; an empty one keeps the scales latched in it. One that is filling by no load in progress, `filling`, is empty. -/
def restoreBuffer (filling : Bool) (st : Nat) (weights scales lists : List Byte) (n : Nat) : Buffer :=
  let z := tableFrom scaleRow scales 12
  if bits st 1 0 = 0 ∨ (bits st 1 0 = 1 ∧ ¬ filling) then { st := 0, set := { WeightSet.none with scales := z } }
  else
    { st := bits st 1 0
      set := { fmt := bits st 4 2, spectral := bit st 5, zeroSlot := false, geo := bits st 7 6, rows := tableFrom 0 weights 48, scales := z
               outliers := (List.range (Nat.min n 64)).map fun i => BitVec.ofNat 64 (descNat lists (8 * i) 8) } }

/-- A drain record restored: the kept one where the bytes are its own, otherwise 256 partners for each correction. (DEDUCED, log entry 61.) -/
def DrainRecord.restore (old : DrainRecord) (bs : List Byte) : DrainRecord :=
  if bs = old.bytes then old else
  { bands := (List.range 8).map fun i => BitVec.ofNat 16 (descNat bs (2 * i) 2)
    corrections := (List.range (Nat.min (descNat bs 16 8) 128)).map fun j =>
      let b := bs.drop (24 + 528 * j)
      { val := BitVec.ofNat 16 (descNat b 0 2), weight := descNat b 2 1 == 1, kix := descNat b 4 2, oix := descNat b 6 2
        partners := (List.range 256).map fun i => BitVec.ofNat 16 (descNat b (16 + 2 * i) 2) } }

/-- Outlier entries from bytes. -/
def listFrom (bs : List Byte) (n : Nat) : List Word := (List.range (Nat.min n 64)).map fun i => BitVec.ofNat 64 (descNat bs (8 * i) 8)

/-- The W fields of a set put in the place of what its read gives, for each PE of a list whose field is another (R339). -/
def WeightSet.fix (x : WeightSet) (w : Nat → Nat → Nat) (pes : List (Nat × Nat)) : WeightSet :=
  { x with fixed := pes.foldl (fun t p => if w p.1 p.2 = x.peWord p.1 p.2 then t else put 0 t (256 * p.1 + p.2) (w p.1 p.2 + 1)) x.fixed }

/-- Every PE, row by row. -/
def allPes : List (Nat × Nat) := (List.range 96).flatMap fun r => (List.range 256).map fun n => (r, n)

/-- What a restore reads of the array: the record of PE (r, n), and the activation and the weight in transit of a row pair (R338, R339). -/
structure ArrayImage where
  pe : Nat → Nat → Nat
  transit : Nat → Nat → Nat

/-- The image of the array in the bands and in the transit operands. -/
def arrayImage (bands : List (List Byte)) (transit : List Byte) : ArrayImage :=
  { pe := fun r n => descNat ((bands[8 * (r / 24) + n / 32]?).getD []) (9 * (32 * (r % 24) + n % 32)) 9
    transit := fun q n => descNat transit (4 * (256 * q + n)) 4 }

/-- Bits [15:0] of a PE record. -/
def peW (v : Nat) : Nat := bits v 15 0

/-- Bits [31:16] of a PE record. -/
def peAlat (v : Nat) : Nat := bits v 31 16

/-- Bits [63:32] of a PE record. -/
def pePsum (v : Nat) : Nat := bits v 63 32

/-- Bits [67:65] of a PE record. -/
def peFmt (v : Nat) : Nat := bits v 67 65

/-- The operands in transit to the lower PE of a pair whose upper PE has used its own for (m, n) (R338). -/
def ArrayOp.passed (o : ArrayOp) (r n m : Nat) : Nat :=
  if o.kind = .spec ∧ r % 2 = 1 ∧ r / 2 < shK o.shape then o.activations m (r - 1) + 2 ^ 16 * o.set.peWord (r - 1) n else 0

/-- An array operation restored: what PEs beyond row 0 hold stands for what the operation would have there, and every sum goes on from
its PE (R339, R363). Row 0 reads afresh on the first live cycle (R175). (DEDUCED, log entry 61.) -/
def ArrayOp.restore (o : ArrayOp) (a : ArrayImage) : ArrayOp :=
  let ahead : ArrayOp := { o with elapsed := o.elapsed + 1 }
  let waves := allPes.filterMap fun p => if p.1 = 0 then none else (ahead.waveAt p.1 p.2).map fun m => (p.1, p.2, m)
  let o1 : ArrayOp := { o with held := waves.foldl (fun t w =>
    if peAlat (a.pe w.1 w.2.1) = o.activations w.2.2 w.1 then t
    else put 0 t (96 * w.2.2 + w.1) (peAlat (a.pe w.1 w.2.1) + 1)) o.held }
  let transit := fun (w : Nat × Nat × Nat) =>
    if o.kind = .spec ∧ w.1 % 2 = 1 ∧ w.1 / 2 < shK o.shape then a.transit (w.1 / 2) w.2.1 else 0
  let o2 : ArrayOp := { o1 with psum := waves.foldl (fun t w =>
    let p := pePsum (a.pe w.1 w.2.1)
    if p = o1.incoming w.2.2 w.2.1 w.1 ∧ transit w = o1.passed w.1 w.2.1 w.2.2 then t
    else put none t (512 * w.2.2 + w.2.1) (some (w.1, p, transit w))) o1.psum }
  if o2 = o then o
  else
    { o2 with sums := waves.foldl (fun t w =>
        put 0#64 t (512 * w.2.2 + w.2.1) (BitVec.ofNat 64 (o2.resume w.1 w.2.1 w.2.2 (pePsum (a.pe w.1 w.2.1)) (transit w)))) o2.sums }

/-- A set with the format of the first of the PEs that use it, and their W fields (R339). -/
def WeightSet.ofPes (x : WeightSet) (a : ArrayImage) (pes : List (Nat × Nat)) : WeightSet :=
  match pes with
  | [] => x
  | p :: _ => ({ x with fmt := peFmt (a.pe p.1 p.2) } : WeightSet).fix (fun r n => peW (a.pe r n)) pes

/-- The weight sets of the array restored: the set that each PE uses takes the PE's W and FMT, wherever that set stands (R339). (DEDUCED, log entry 61.) -/
def Matrix.restorePe (old : Matrix) (a : ArrayImage) : Matrix :=
  let sets := (old.pe :: old.ops.flatMap fun o => [o.set, o.old]).eraseDups
  let fixed := sets.map fun x => (x, x.ofPes a (allPes.filter fun p => decide (old.setAt p.1 p.2 = x)))
  let now := fun (x : WeightSet) => ((fixed.find? fun e => decide (e.1 = x)).map (·.2)).getD x
  { old with pe := now old.pe, ops := old.ops.map fun o => ({ o with set := now o.set, old := now o.old } : ArrayOp).restore a }

/-! ### Operations in progress, made from their records (R336) -/

/-- The X32 word of a record of KIND 5. -/
def recordWord (bs : List Byte) : Nat := descNat bs 16 4

/-- Whether a record of KIND 5 is a transform's. -/
def spreads (bs : List Byte) : Bool := bits (recordWord bs) 5 1 == 30

/-- The kind of an array operation. -/
def arrayKindOf : Instr → ArrayKind
  | .mmaSpec .. => .spec
  | .mzero .. => .zero
  | _ => .mma

/-- The array units of MX's block from a halfword on, each with its word and its element type; fuel bounds the units. -/
def Seq.arrayUnits (q : Seq) : Nat → Nat → List (Nat × Nat)
  | 0, _ => []
  | n + 1, pos =>
    if q.bodyEnd ≤ pos then []
    else
      match q.frameAt .mx pos with
      | .error _ => []
      | .ok f =>
        (match f.instr with
         | .mma .. | .mmaSpec .. | .mzero .. => [((q.headerAt (pos + f.word)).toNat, q.unitType .mx f.tcode)]
         | _ => []) ++ q.arrayUnits n (pos + Nat.max 1 f.len)

/-- The element type of an operation on weights of a format: that of its unit in MX's block, where the two pair, and else the format's (R172). -/
def Ctx.opType (x : Ctx) (word fmt : Nat) : Nat :=
  let us := x.mx.arrayUnits 1024 (x.mx.hdr.toNat + 2)
  match us.find? fun u => u.1 == word && pairs fmt u.2 with
  | some u => u.2
  | none => fmtType fmt

/-- The array operation of a record of KIND 5 in a restored context, without its weights and what it has read. (DEDUCED, log entry 61.) -/
def Ctx.arrayTold (x : Ctx) (ord : Nat) (bs : List Byte) : ArrayOp :=
  let i := instrOfWord (recordWord bs)
  let d := descNat bs 28 4 % 16
  { kind := arrayKindOf i, redo := false, corr := [], ord := ord, word := BitVec.ofNat 32 (recordWord bs)
    shape := BitVec.ofNat 64 (descNat bs 8 8), ty := 0, dTile := d, dTsh := x.shape d
    aTsh := match i with | .mmaSpec _ a _ => x.shape a.toNat | _ => 0
    base := match i with
      | .mma _ g _ => x.agBase g.toNat + (if (x.ring g.toNat).on then (x.ring g.toNat).head * x.slotSize g.toNat else 0)
      | _ => 0
    elapsed := descNat bs 20 8 - 1, set := .none, old := .none, feeding := none, geo := x.mat.geo, scales := x.mat.actScales, acts := []
    read := [], sums := [] }

/-- The transform of a record of KIND 5 in a restored context; its rows are in the unit's slots. -/
def Ctx.transformTold (x : Ctx) (ord : Nat) (bs : List Byte) : TransformOp :=
  let i := instrOfWord (recordWord bs)
  let v := descNat bs 8 8
  let a := match i with | .xfFwd _ a _ | .xfInv _ a | .domScl _ a _ => x.shape a.toNat | _ => 0
  { instr := i, ord := ord, lb := match i with | .xfFwd .. => v % 8 | _ => tshLb a, exp := signed 6 (v % 64)
    dTsh := x.shape (transformTile i), aTsh := a, elapsed := descNat bs 20 8 - 1, rows := [] }

/-- The live cycles to the retirement of a record's operation. -/
def Ctx.leftTold (x : Ctx) (bs : List Byte) : Nat :=
  if spreads bs then (x.transformTold 0 bs).latency - (x.transformTold 0 bs).elapsed
  else (x.arrayTold 0 bs).latency - (x.arrayTold 0 bs).elapsed

/-- Whether the PEs on a diagonal hold the weights of a set. -/
def ArrayImage.shows (a : ArrayImage) (x : WeightSet) (d : Nat) : Bool :=
  (List.range 96).all fun r =>
    decide (d < r) || decide (255 + r < d) || (peW (a.pe r (d - r)) == x.peWord r (d - r) && peFmt (a.pe r (d - r)) == x.fmt)

/-- Array operations in the order of their issue with the sets they use, from the set that the PEs held before them: one that is not a kept one
feeds a buffer in state 3 whose weights stand in the PEs that it has reached last, or uses what the PEs held. -/
def Matrix.settleSets (m : Matrix) (x : Ctx) (a : ArrayImage) : WeightSet → List Nat → List (Bool × ArrayOp) → List (Bool × ArrayOp) × WeightSet
  | cur, _, [] => ([], cur)
  | _, used, (true, o) :: os =>
    let r := m.settleSets x a o.set (o.feeding.toList ++ used) os
    ((true, o) :: r.1, r.2)
  | cur, used, (false, o) :: os =>
    let fed := fun (b : Nat) => { (m.buffer b).set with zeroSlot := o.kind == .spec && shSlot o.shape == 0 }
    let b := [0, 1].find? fun b => (m.buffer b).st == 3 && !used.contains b && o.kind != .zero && a.shows (fed b) (Nat.min (o.elapsed + 1) 350)
    let set := if o.kind = .zero then WeightSet.none else match b with | some b => fed b | none => cur
    let r := m.settleSets x a (if b.isSome then set else cur) (b.toList ++ used) os
    ((false, { o with set := set, old := cur, feeding := b, ty := x.opType o.word.toNat set.fmt }) :: r.1, r.2)

/-- What goes on feeding a buffer after its operation has retired (R175), as far as the PEs show it. -/
def Matrix.ghost (m : Matrix) (a : ArrayImage) (old : WeightSet) (ord b : Nat) : ArrayOp :=
  let set := (m.buffer b).set
  let d := ((List.range 351).find? fun d => !a.shows set d).getD 351
  { kind := .zero, redo := true, corr := [], ord := ord, word := 0, shape := 0, ty := 0, dTile := 0, dTsh := 0, aTsh := 0, base := 0
    elapsed := Nat.max 98 (d - 2), set := set, old := old, feeding := some b, geo := 0, scales := [], acts := [], read := [], sums := [] }

/-- An operation put among others in the order of issue. -/
def insertOp (o : Bool × ArrayOp) : List (Bool × ArrayOp) → List (Bool × ArrayOp)
  | [] => [o]
  | p :: ps => if p.2.elapsed < o.2.elapsed then o :: p :: ps else p :: insertOp o ps

/-- The results of an operation made afresh from what it has read. -/
def ArrayOp.remade (o : ArrayOp) : ArrayOp :=
  { o with sums := ((List.range (o.at + 1)).flatMap o.diagonal).foldl (fun t q =>
      put 0#64 t (512 * q.1 + q.2) (BitVec.ofNat 64 (o.result q.1 q.2 (get 0#64 o.read (512 * q.1 + q.2)).toNat))) [] }

/-- The operation with the activation rows and accumulator values of the replay's buffers (R188, R338). -/
def ArrayOp.fromBuffers (o : ArrayOp) (bs : List Byte) : ArrayOp :=
  { o with
    psum := []
    acts := if o.kind = .spec then o.acts else
      (List.range 256).foldl (fun t m => put 0#8192 t m (rowOf (fit 1024 ((bs.drop (192 * m)).take 192)))) []
    held := if o.kind ≠ .spec then [] else
      (List.range 256).foldl (fun t m => (List.range (2 * shK o.shape)).foldl (fun t r =>
        put 0 t (96 * m + r) (descNat bs (192 * m + 2 * r) 2 + 1)) t) []
    read := (List.range 65536).foldl (fun t i =>
      put 0#64 t (512 * (i / 256) + i % 256) (BitVec.ofNat 64 (descNat bs (49152 + 4 * i) 4))) [] }

/-- Values that a restore draws for one operation. -/
def freePerOp : Nat := 2 ^ 17

/-- The operation with free values for the activation rows and accumulator values that it has read, which no segment holds of any operation
but the last. (DEDUCED, log entry 61.) -/
def ArrayOp.fromNothing (o : ArrayOp) (free : Nat) : ArrayOp :=
  { o with
    acts := (List.range (o.at + 1)).map fun m => (m, ofElems 64 ((List.range 128).map fun j => (Config.freeWord (free + 128 * m + j)).toNat))
    read := ((List.range (o.at + 1)).flatMap o.diagonal).map fun q =>
      (512 * q.1 + q.2, Config.freeWord (free + 65536 + 256 * q.1 + q.2) &&& 0xFFFFFFFF) }

/-- The corrections whose partners an `mma.e2m1` has still to read (R177): the weight entries that it has appended to its drain record. -/
def ArrayOp.corrTold (o : ArrayOp) (r : DrainRecord) : List Nat :=
  let l := weightPlaces 0 r.corrections
  l.drop (l.length - (o.set.outliers.filter fun e => decide (outK e < shK o.shape) && decide (outO e < shN o.shape)).length)

/-- An operation told by its record, once its set is known: the last has read what the replay's buffers hold. -/
def Matrix.finishTold (m : Matrix) (o : ArrayOp) (last : Bool) (buffers : List Byte) (free : Nat) : ArrayOp :=
  if o.kind = .zero then o
  else
    let o1 := if last then o.fromBuffers buffers else o.fromNothing free
    { o1.remade with corr := if o.ty = 6 ∧ o.kind = .mma then o.corrTold (get DrainRecord.cleared m.records o.dTile) else [] }

/-- The operand buffers of the last operation restored (R188): the kept ones where the bytes are theirs, else the bytes in the kept
operation, or in the last of MX's block that stands before its program counter. (DEDUCED, log entry 61.) -/
def Ctx.replayTold (x : Ctx) (old : Option ArrayOp) (shape : Nat) (bs : List Byte) : Option ArrayOp :=
  if bs = replayBytes old ∧ shape = (match old with | some o => o.shape.toNat | none => 0) then old
  else
    let base : Option ArrayOp := match old, (x.mx.arrayUnits 1024 (x.mx.hdr.toNat + 2)).getLast? with
      | some o, _ => some o
      | none, some u => if x.mx.inBody then some { x.arrayTold 0 (opRecord u.1 1000 (bits u.1 10 7) shape 0 none) with ty := u.2 } else none
      | none, none => none
    base.map fun o =>
      (({ o with
        shape := BitVec.ofNat 64 shape
        set := { o.set with fmt := bits (descNat bs 360448 1) 2 0 }.fix (fun r n => descNat bs (311296 + 2 * (256 * r + n)) 2) allPes } :
        ArrayOp).fromBuffers bs).remade

/-- The matrix side of a restored context with the operations in progress that the records of MX tell: a kept one where a record is its own.
`x` holds what segments 2 to 7 give. (DEDUCED, log entry 61.) -/
def Ctx.restoreOps (x old : Ctx) (recs : List (List Byte)) (a : ArrayImage) (shape : Nat) (buffers : List Byte) (free : Nat) : Matrix :=
  let told := recs.filter fun r => descNat r 0 1 == 5
  let m := x.mat
  if told = old.opRecords then { m with replay := x.replayTold old.mat.replay shape buffers }
  else
    let array := told.filter fun r => !spreads r
    let items := (old.mat.ops.filter fun o => decide (o.latency ≤ o.at) && o.feeding.any fun b => (m.buffer b).st == 3).map (fun o => (true, o))
      ++ array.zipIdx.map fun r =>
        match old.mat.inProgress.find? fun o => (o.record none).drop 8 == r.1.drop 8 with
        | some o => (true, o)
        | none => (false, x.arrayTold (recs.length + r.2) r.1)
    let start := match old.mat.ops.find? fun o => o.feeding.isSome with
      | some o => o.old
      | none => if m.wb0.st = 3 ∨ m.wb1.st = 3 then old.mat.pe else { old.mat.pe with fmt := m.curfmt, spectral := m.specm }
    let first := (m.settleSets x a start [] items).1
    let fed := first.flatMap fun o => o.2.feeding.toList
    let ghosts := ([0, 1].filter fun b => (m.buffer b).st == 3 && !fed.contains b).map fun b => m.ghost a start (2 * recs.length + 1 + b) b
    let r := m.settleSets x a start [] (ghosts.foldl (fun l g => insertOp (true, g) l) items)
    let last := fun (o : ArrayOp) => o.ord == recs.length + array.length - 1 && o.shape.toNat == shape
    let ops := r.1.map fun o => if o.1 then o.2 else m.finishTold o.2 (last o.2) buffers (free + freePerOp * (o.2.ord - recs.length))
    let newest := (ops.filter fun o => decide (o.at < o.latency)).getLast?
    let spread := (told.filter spreads).zipIdx.map fun r =>
      (old.mat.xops.find? fun o => (o.record none).drop 8 == r.1.drop 8).getD (x.transformTold (recs.length + array.length + r.2) r.1)
    { m with
      ops := ops, pe := r.2, xops := spread
      replay := match newest with
        | some o => if last o then some o else x.replayTold old.mat.replay shape buffers
        | none => x.replayTold old.mat.replay shape buffers
      abusy := match newest with | some o => o.rowCount - (o.at + 1) | none => 0
      xbusy := match spread.getLast? with | some o => tshRows o.aTsh - (o.elapsed + 1) | none => 0 }

/-- A transform with the rows that the unit's slots hold (R338). What the butterfly state does is not told. (DEDUCED, log entry 61.) -/
def TransformOp.restore (o : TransformOp) (bs : List Byte) : TransformOp :=
  let rows := (List.range 36).foldl (fun t i =>
    (o.slot i).elim t fun j => put 0#8192 t j (rowOf ((bs.drop (1024 * i)).take 1024))) o.rows
  { o with rows := rows }

/-- The matrix side restored from segment 7, its operations apart; loads in progress are the kept ones. -/
def Matrix.restore (old : Matrix) (bs : List Byte) : Matrix :=
  let ms := descNat bs 0 8
  let w := bs.drop 128
  let sc := w.drop 98304
  let tb := sc.drop 24576
  let ls := tb.drop 24576
  let dr := ls.drop 2048
  let filling := fun (b : Nat) => old.fills.any fun f => f.dest == .buffer b
  let b0 := restoreBuffer (filling 0) (bits ms 7 0) (w.take 49152) (sc.take 12288) (ls.drop 1024) (descNat bs 24 8)
  let b1 := restoreBuffer (filling 1) (bits ms 15 8) ((w.drop 49152).take 49152) ((sc.drop 12288).take 12288) (ls.drop 1536) (descNat bs 32 8)
  { old with
    wb0 := b0, wb1 := b1
    order := old.order.filter (fun b => (if b = 0 then b0 else b1).st == 2)
      ++ ([0, 1].filter fun b => (if b = 0 then b0 else b1).st == 2 && !old.order.contains b)
    curfmt := bits ms 18 16, specm := bit ms 19, geo := bits ms 21 20, tries := bits ms 24 22
    bands := (List.range 8).map fun i => BitVec.ofNat 16 (descNat bs (40 + 2 * i) 2)
    actScales := tableFrom scaleRow tb 12, wScales := tableFrom scaleRow (tb.drop 12288) 12
    actOut := listFrom ls (descNat bs 8 8), wOut := listFrom (ls.drop 512) (descNat bs 16 8)
    records := (List.range 16).foldl (fun t i =>
      put DrainRecord.cleared t i ((get DrainRecord.cleared old.records i).restore ((dr.drop (67648 * i)).take 67648))) [] }

/-! ### Retirement actions, made from their records -/

/-- The retirement actions of a record of KIND 3 or 5 of a stream of a restored context (R336): those whose cycle is not fixed wait for room
for their tokens where they stand first and find none. -/
def Ctx.flightTold (x : Ctx) (sm : Stream) (bs : List Byte) (first : Bool) : Flight :=
  let h := descNat bs 0 8
  let op := if descNat bs 0 1 ≠ 5 then 0 else if spreads bs then 2 else 1
  let mask := BitVec.ofNat 3 (bits h 46 44)
  let open_ := bits h 23 8 == 0
  { due := if open_ ∧ op ≠ 0 then x.leftTold bs else bits h 23 8, pushM := mask, ring := if bit h 47 then some (bits h 51 48) else none
    after := none, need := if op = 0 then 0 else profMask ((instrOfWord (recordWord bs)).required (x.opType (recordWord bs) 0))
    late := first && open_ && op == 0 && mask != 0 && !x.links.canPush (pushIxs sm mask), op := op }

/-- Retirement actions whose cycle is not fixed wait, in their order, for the ring slots that commands still fill. -/
def bindRings : List (Nat × Nat) → List Flight → List Flight
  | r :: rs, f :: fs => if f.due = 0 ∧ ¬ f.late then { f with after := some r } :: bindRings rs fs else f :: bindRings (r :: rs) fs
  | _, fs => fs

/-- The slots that `ring.push`es still fill (R135). -/
def Engine.pushedSlots (g : Engine) : List (Nat × Nat) :=
  g.cmds.filterMap fun k => match k.instr with | .ringPush .. => if k.counted then none else k.slot | _ => none

/-- The flights of a stream of a restored context: the kept ones where the records are theirs. (DEDUCED, log entry 61.) -/
def Ctx.restoreFlights (x old : Ctx) (sm : Stream) (recs : List (List Byte)) : List Flight :=
  let owes := owedIn recs
  if owes = owedIn (old.records sm) then (old.seq sm).flight
  else
    let fs := owes.zipIdx.map fun r => x.flightTold sm r.1 (r.2 == 0)
    if sm = .ctl then bindRings x.eng.pushedSlots fs else fs

/-- A segment of an area: its payload, when its header and CRC agree. -/
def State.readSeg (s : State) (hs : List PageHold) (va i : Nat) : Option (List Byte) :=
  match s.heldBytes hs (va + segPlace i) 16 with
  | none => none
  | some h =>
    let n := descNat h 4 4
    if descNat h 0 2 ≠ i ∨ 2000000 < n then none
    else
      match s.heldBytes hs (va + segPlace i + 16) n with
      | none => none
      | some pay => if (crc32c pay).toNat = descNat h 8 4 then some pay else none

/-- Whether a header is whole (R344): MAGIC, its CRC, the CRC of every segment in OWN, and COMPLETE. -/
def State.headerWhole (s : State) (hs : List PageHold) (va : Nat) (bs : List Byte) : Bool :=
  let h := ShavingHeader.read bs
  let z := bs.take 56 ++ leBytes 4 0 ++ bs.drop 60
  descNat bs 0 4 == 0x5648534B && (crc32c (z ++ s.segCrcs hs va h.own)).toNat == descNat bs 56 4
    && (segsIn h.own).all (fun i => (s.readSeg hs va i).isSome) && h.complete

/-- The checks of a restore, in the order of R344: the cause of the first that fails. -/
def State.restoreFault (s : State) (hs : List PageHold) (va c : Nat) (bs : List Byte) : Option Cause :=
  let h := ShavingHeader.read bs
  let seg7 := (s.readSeg hs va 7).getD []
  if ¬ s.headerWhole hs va bs then some .restoreCrc
  else if ¬ (List.range (40 + h.tileg + h.scrg + h.constg)).all (fun i => h.own.getLsbD i) then some .restoreCrc
  else if ¬ ((h.layout = 0x0A10 ∧ h.cls = 0) ∨ (h.layout = 0x0B10 ∧ h.cls = 1)) then some .restoreLayout
  else if h.layout = 0x0A10 ∧ layoutOf c = 0x0B10 ∧ (seg7.drop transformAt).any (· != 0) then some .restoreLayout
  else if BitVec.ofNat 5 h.infl &&& ~~~(profBits c) ≠ 0 then some .restoreLayout
  else none

/-- The translation of a shaving to the layout of a core, in place (R345). -/
def State.translate (s : State) (hs : List PageHold) (va c : Nat) (h : ShavingHeader) : Option State :=
  if h.layout = layoutOf c then some s
  else
    let seg7 := (s.readSeg hs va 7).getD []
    let bs := segImage 7 (if layoutOf c = 0x0B10 then seg7.take transformAt else seg7 ++ List.replicate 38912 0#8)
    match s.heldWrite c hs (va + segPlace 7) bs with
    | none => none
    | some s1 => s1.writeHeader c hs va { h with layout := layoutOf c, cls := if layoutOf c = 0x0A10 then 0 else 1 }

/-- A kept context that a shaving of another moment is restored over: nothing that was in progress in it goes on. -/
def Ctx.strange (x : Ctx) : Ctx :=
  let clear := fun (q : Seq) => { q with wait := .none, waitRem := 0, stalled := none, part := 0, flight := [], fetched := 0, cut := .none, inBody := false }
  { x with
    ctl := clear x.ctl, ld := clear x.ld, mx := clear x.mx, st := clear x.st
    cr := { x.cr with atomic := none, epcSave := none, trapAt := none, acquireUntil := 0, errors := [] }
    eng := { x.eng with cmds := [], waiting := none, imld := none }
    mat := .cleared, pend := [] }

/-- The pipeline records of a sequencer's segment. -/
def segRecords (sm : Stream) (bs : List Byte) : List (List Byte) :=
  let ctlBytes := match sm with | .ctl => 208 | .mx => 32 | _ => 0
  recordsIn (bits (leNat (bs.take 32)) 190 183) (bs.drop (32 + 8 * regCount sm + ctlBytes))

/-- A context restored from the segments below 40 of an area; what the layout does not hold is the kept context's where the shaving is of the
same stop, and the code of a memory that IMM leaves out comes from the image of the program-table entry. (DEDUCED, log entry 61.) -/
def State.restoreCtx (s : State) (hs : List PageHold) (va : Nat) (kept : Ctx) (imm : Nat) (code : Stream → Table Half) : Ctx :=
  let old := if (ShavingHeader.read (s.areaBytes hs va 64)).time = kept.stopAt % 2 ^ 64 then kept else kept.strange
  let seg := fun (i : Nat) => (s.readSeg hs va i).getD []
  let v := leNat ((seg 0).take 32)
  let q := fun (sm : Stream) => (old.seq sm).restore sm (seg (streamCode sm)) (bit imm (streamCode sm)) (code sm)
  let recs := fun (sm : Stream) => segRecords sm (seg (streamCode sm))
  let mxc := (seg 2).drop (32 + 128)
  let p := old.loc.restore (seg 5)
  let image := arrayImage ((List.range 32).map fun i => seg (8 + i)) ((seg 7).drop (transformAt - 49152))
  let owner := match hs with | h :: _ => h.own | [] => 0
  let x : Ctx := { old with
    ctl := q .ctl, ld := q .ld, mx := q .mx, st := q .st
    cr := old.cr.restore (bits v 182 181) ((seg 0).drop (32 + 256))
    links := old.links.restore (seg 4)
    loc := { p with vbase := BitVec.ofNat 12 (descNat mxc 0 8), turn := bits (leNat ((seg 2).take 32)) 100 96 }
    eng := s.restoreEngine owner (old.task.map fun t => { dom := t.1, slot := t.2, begun := (s.slot t.1 t.2).begun }) old.eng (seg 6)
    pend := [Stream.ctl, .ld, .mx, .st].flatMap fun sm => old.restorePend sm (recs sm)
    mat := old.mat.restore (seg 7)
    clean := ((List.range 40).map fun i => (i, true)) ++ ((List.range 4096).map fun i => (128 + i, true)), resplit := false }
  let m := (x.restoreOps old (recs .mx) image (descNat (seg 7) 56 8) (((seg 7).drop (transformAt - 49152 - 372736)).take 372736) s.free).restorePe image
  let y := { x with mat := { m with
    xops := m.xops.map fun o => o.restore ((seg 7).drop transformAt)
    segCyc := descNat mxc 8 8, segCrc := BitVec.ofNat 32 (descNat mxc 16 8), tries := descNat mxc 24 8 % 8 } }
  [Stream.ctl, .ld, .mx, .st].foldl (fun z sm => z.modSeq sm fun q => { q with flight := x.restoreFlights old sm (recs sm) }) y

/-- The numbers and the free values that a restore may have given out are used. -/
def State.drawn (s : State) : State := { s with cmdNext := s.cmdNext + 32, free := s.free + 64 * freePerOp }

/-- The lines of a granule from its payload: rows outside ROWMASK are zero (R341). -/
def granuleRows (tile : Bool) (pay : List Byte) : List Row :=
  let m := leNat (pay.take 8)
  (List.range 64).map fun i =>
    if tile then (if bit m i then rowOf ((pay.drop (8 + 1024 * i)).take 1024) else 0) else rowOf ((pay.drop (1024 * i)).take 1024)

/-- The granules of an area written into a slice of a core. -/
def State.restorePool (s : State) (hs : List PageHold) (va c : Nat) (z : Slice) : State :=
  (List.range (z.tileg + z.scrg + z.constg)).foldl (fun (a : State) g =>
    let rows := granuleRows (decide (g < z.tileg)) ((s.readSeg hs va (40 + g)).getD [])
    a.modCore c fun k =>
      { k with
        pool := rows.zipIdx.foldl (fun t e => put 0#8192 t (64 * (z.base + g) + e.2) e.1) k.pool
        poolBad := k.poolBad.filter fun e => e.1 / 8192 != z.base + g }) s

end Sys2Proof.Machine
end

