-- ==== Sys2Proof/Machine/Progress.lean ====
section
/-! DEFINITION. Progress: the ready pool and its dispatcher (R272 to R282), contracts (R121, R283 to R285), the pool registers and
commands (R286, R287), the start and the end of a task (R122, R273, R274), and the switch of contexts (R25, R328, R402). -/
namespace Sys2Proof.Machine

/-! ### Ready tasks -/

/-- The key under which what is released to a slot, its TIME and its vector, is kept (R263, R273). -/
def slotKey (dom n : Nat) : Nat := 2 ^ 59 + 4096 * dom + n

/-- A slot freed (R272); RUN of R368, and the count of the contexts that have begun in it, go on from what they were. -/
def State.freeUp (s : State) (dom n : Nat) : State :=
  { s.modSlot dom n fun x => { Slot.free with run := x.run, begun := x.begun } with
    relTime := put 0 s.relTime (slotKey dom n) 0, relKv := put [] s.relKv (slotKey dom n) [] }

/-- The slots of a domain that are not free. -/
def State.slotsOf (s : State) (dom : Nat) : List Nat :=
  s.slots.filterMap fun e => if e.1 / 4096 = dom ∧ e.2.st ≠ .free then some (e.1 % 4096) else none

/-- Whether a task belongs to a contract without being its current job: such a task is not dispatched (R275). -/
def Slot.heldBack (x : Slot) : Bool := recCv x.record && !x.uncontracted && !x.job

/-- Whether a task is READY as ageing counts it (R276). -/
def Slot.waitsReady (x : Slot) : Bool := x.st == .ready || x.st == .saved || x.st == .preloaded

/-- Whether a task is one of an open contract's, held back until it is the job: one of the partition that owns the contract (R283,
R298). -/
def State.awaits (s : State) (dom k n : Nat) : Bool :=
  let x := s.slot dom n
  x.heldBack && recContract x.record == k && x.owner == (s.contract dom k).owner

/-- Whether the context of a task stands in a shadow whence a switch back may make it live (R328). -/
def State.parked (s : State) (dom n : Nat) : Bool :=
  match s.whereIs (s.slot dom n).core (dom, n) with
  | .shadow b =>
    (match (s.core (s.slot dom n).core).use b with | .held | .saving => true | _ => false) && (s.slot dom n).faulting.isNone
  | _ => false

/-- Whether a switch to the shadow in which a task stands has been asked for: the task is then bound (R277). -/
def State.bound (s : State) (dom n : Nat) : Bool :=
  match s.whereIs (s.slot dom n).core (dom, n) with
  | .shadow b => (s.core (s.slot dom n).core).switchTo.any fun w => w.1 == b
  | _ => false

/-- Whether a task that is not bound is preloaded, whatever the state of its preload, or is still being streamed in. -/
def State.preloadedAt (s : State) (dom n : Nat) : Option (Nat × Bool) :=
  let c := (s.slot dom n).core
  match s.whereIs c (dom, n) with
  | .shadow b =>
    match (s.core c).use b, s.bound dom n with
    | .preload _, false => some (c, b)
    | .restoring, false => some (c, b)
    | _, _ => none
  | _ => none

/-- Whether a task that RERUN or RESUME has made ready waits for the core it faulted on, whose preload waits behind it (R279). -/
def State.rerunAt (s : State) (dom c : Nat) : Bool :=
  (s.slotsOf dom).any fun m =>
    let x := s.slot dom m
    x.rerun && x.core == c && !x.heldBack && (x.st == .ready || x.st == .saved)

/-- Whether a task competes for a core now (R272, R275). -/
def State.dispatchable (s : State) (dom n : Nat) : Bool :=
  let x := s.slot dom n
  !x.heldBack &&
    match x.st with
    | .ready => true
    | .saved => true
    | .preloaded => match s.preloadedAt dom n with | some (c, _) => !s.rerunAt dom c | none => false
    | .running => s.parked dom n && !s.bound dom n
    | _ => false

/-- The keys of R275, the most urgent first: a job, the band, the deadline (none after all), the time since READY, the slot. -/
def State.rank (s : State) (dom n : Nat) : List Nat :=
  let x := s.slot dom n
  let dl := if x.job then x.deadline else none
  [ofBool (!x.job), x.band, ofBool dl.isNone, dl.getD 0, x.readyAt, n]

/-- Lists of keys compared, the first difference deciding. -/
def ranksBefore : List Nat → List Nat → Bool
  | a :: l, b :: m => if a = b then ranksBefore l m else decide (a < b)
  | _, _ => false

/-- Whether a ready task outranks a running one by key 1, key 2, or key 3 with a finite deadline (R277). -/
def State.mayPreempt (s : State) (dom n victim : Nat) : Bool :=
  let a := s.rank dom n
  let b := s.rank dom victim
  if a.take 2 = b.take 2 then a[2]? == some 0 && ranksBefore ((a.drop 2).take 2) ((b.drop 2).take 2)
  else ranksBefore (a.take 2) (b.take 2)

/-- The number of a core in its domain (R121): 24 × die-in-domain + c. -/
def localCore (c : Nat) : Nat := c % 96

/-- Whether a task may run on a core (R277, R344): the partition, the CORESET of a job, the profiles of PROF and of its shaving. -/
def State.eligible (s : State) (dom n c : Nat) : Bool :=
  let x := s.slot dom n
  decide (Config.domOf c = dom) && (s.coresOf x.owner).contains c
    && (!x.job || (s.contract dom (recContract x.record)).coreset.getLsbD (localCore c))
    && (x.prof ||| (if x.shaving then x.infl else 0)) &&& ~~~(profBits c) == 0
    && (match s.whereIs x.core (dom, n) with | .shadow _ => !s.parked dom n || x.core == c | _ => true)

/-- The fresh task bound to a core and not yet started. -/
def State.boundTo (s : State) (c : Nat) : Option Nat :=
  let dom := Config.domOf c
  (s.slotsOf dom).find? fun n =>
    let x := s.slot dom n
    x.st == .preloaded && x.core == c && (match s.whereIs c (dom, n) with | .away => true | _ => false)

/-- Whether a core is idle (R277): no live context, no switch in progress, no task bound to it. -/
def State.idle (s : State) (c : Nat) : Bool :=
  !(s.core c).hasLive && (s.core c).switchTo == none && (s.boundTo c).isNone && !(s.core c).dbg.stopped

/-- Whether no other task that competes for a core ranks before one. -/
def State.bestFor (s : State) (dom n c : Nat) : Bool :=
  (s.slotsOf dom).all fun m =>
    m == n || !s.dispatchable dom m || !s.eligible dom m c || ranksBefore (s.rank dom n) (s.rank dom m)

/-! ### Slices -/

/-- Whether the slice of this number belongs to a resident context of a core (R326). -/
def Core.sliceUsed (k : Core) (n : Bool) : Bool :=
  (k.hasLive && k.liveSlice == n) || (k.useA != .empty && k.sliceA == some n) || (k.useB != .empty && k.sliceB == some n)

/-- The granules of a slice. -/
def Slice.size (x : Slice) : Nat := x.tileg + x.scrg + x.constg

/-- A place for a slice of so many granules beside the slice in use, granule 63 excepted (R278): its number and its base. -/
def Core.place (k : Core) (need : Nat) : Option (Bool × Nat) :=
  match k.sliceUsed false, k.sliceUsed true with
  | true, true => none
  | false, false => if need ≤ 63 then some (false, 0) else none
  | a, _ =>
    let o := k.slice (!a)
    if need ≤ o.base then some (a, 0)
    else if o.base + o.size + need ≤ 63 then some (a, o.base + o.size) else none

/-- A slice set with a split (R274 step 1); an unused other slice is no longer valid, and every byte of the new one is 0 (R274 step
4). -/
def Core.newSlice (k : Core) (n : Bool) (x : Slice) : Core :=
  let k1 := if k.sliceUsed (!n) then k else k.setSlice (!n) { k.slice (!n) with valid := false }
  let k2 := k1.setSlice n x
  { k2 with
    pool := k2.pool.filter fun e => !(64 * x.base ≤ e.1 && decide (e.1 < 64 * (x.base + x.size)))
    poolBad := k2.poolBad.filter fun e => !(8192 * x.base ≤ e.1 && decide (e.1 < 8192 * (x.base + x.size))) }

/-- A core whose live context and shadow have changed places, with the slices they own (R25). -/
def Core.exchange (k : Core) (b : Bool) : Core :=
  let x := k.live
  let k1 := (k.modShadow b fun _ => x)
  let k2 := { k1 with live := k.shadow b, liveSlice := (if b then k.sliceB else k.sliceA).getD false }
  if b then { k2 with sliceB := some k.liveSlice } else { k2 with sliceA := some k.liveSlice }

/-- A change made to a shadow's context and slice as if it were live. -/
def State.onShadow (s : State) (c : Nat) (b : Bool) (f : State → State) : State :=
  (f (s.modCore c fun k => k.exchange b)).modCore c fun k => k.exchange b

/-! ### Becoming live -/

/-- The issue and block counts of a sequencer at 0 (R369): no unit of the new count is in flight. -/
def Seq.recount (q : Seq) : Seq := { q with icnt := 0, blki := 0, flight := q.flight.map fun f => { f with no := 0 } }

/-- A context as it becomes live: its counts start at 0 (R369). -/
def Ctx.recount (x : Ctx) : Ctx :=
  { x with
    ctl := x.ctl.recount, ld := x.ld.recount, mx := x.mx.recount, st := x.st.recount
    eng := { x.eng with done := 0, snaps := 0, lines := 0, snapLines := 0 } }

/-- A context takes the errors that the hub held for its slot (R347). -/
def Ctx.takeErrors (x : Ctx) (p : Slot) : Ctx := { x with cr := p.heldErrors.foldl (fun r e => r.hold e) x.cr }

/-- The increments that the hub held for a slot reach the context that has become live (R402), before the cycle on which it may write a flag
(R119). Replay drops them (R389). -/
def State.takeHeld (s : State) (c : Nat) (bs : List Bump) : State :=
  (bs.foldl (fun (a : State) b => a.bumpLive c b) s).modLinks c fun l => { l with raised := [] }

/-- A context that RESUME has made ready again: where ESTAT.SKIP is 1, it goes past the unit at which it faulted (R362). A `seg` block that
ends so opens an empty segment (R42). -/
def Ctx.resumed (x : Ctx) (p : Slot) : Ctx :=
  if p.rerun ∧ x.cr.skip then
    let y := x.skipTrapping (fun sm q => q.unitLen sm) p.faultAt
    if y.mat.segClose then { y with mat := y.mat.openSeg } else y
  else x

/-- Replay's registers when a context becomes live (R387): MODE is read, and the count begins at 0. -/
def Watch.begin (w : Watch) : Watch :=
  { w with
    rplLive := w.rplMode, rplHold := none, rplDone := 0
    rplCount := if w.rplMode = 0 then w.rplCount else 0, rplFull := if w.rplMode = 0 then w.rplFull else false }

/-- A CONTEXT BECOMES LIVE on a core with a slice: its task is RUNNING in its own band (R276), its counts start afresh, CAPSTOP is 0 (R361),
its knowledge joins the core's (R264), and held increments and errors reach it before it issues (R347, R369, R387, R402). What the log of
the context before it holds is complete (R388). What EVICT has asked of it since its switch began stands (R25, R287). -/
def State.goLive (s : State) (c : Nat) (x : Ctx) (sl : Bool) : State :=
  let p := match x.task with | some t => s.slot t.1 t.2 | none => Slot.free
  let y := ((x.recount).takeErrors p).resumed p
  let s1 := (s.flushEvents c).modCore c fun k =>
    { k with
      hasLive := true, live := y, liveSlice := sl, switchTo := none, kv := merged k.kv y.cr.kv, captStop := 0, captArm := false
      captCount := none, watch := k.watch.begin }
  let s2 := match x.task with
    | some t => s1.modSlot t.1 t.2 fun p =>
        { p with
          st := .running, core := c, band := p.ownBand, heldFlags := [], heldErrors := [], faulting := none, rerun := false
          faultAt := none }
    | none => s1
  s2.takeHeld c p.heldFlags

/-- A task that cannot be started, or whose shaving cannot be restored, is FAULTED (R271, R274, R344). -/
def State.faultSlot (s : State) (dom n : Nat) (e : Cause) : State :=
  (s.modSlot dom n fun x => { x with st := .faulted, faulting := none }).slotEvent dom n 1 (causeCode e)

/-! ### A fresh start (R274) -/

/-- Bytes of a stream's code in an image, padded to a multiple of 64 (R270). -/
def codeRoom (e : List Word) (sm : Stream) : Nat := ceilDiv (2 * progLen e sm) 64 * 64

/-- Where a stream's code begins in an image. -/
def codeStart (e : List Word) : Stream → Nat
  | .ctl => 0
  | .ld => codeRoom e .ctl
  | .mx => codeRoom e .ctl + codeRoom e .ld
  | .st => codeRoom e .ctl + codeRoom e .ld + codeRoom e .mx

/-- The bytes of a stream's code in an image. -/
def codeIn (e : List Word) (img : List Byte) (sm : Stream) : List Byte := (img.drop (codeStart e sm)).take (2 * progLen e sm)

/-- The image a program-table entry names: its size, and where its constant rows and tile shapes begin (R270). -/
def imageRows (e : List Word) : Nat := codeStart e .st + codeRoom e .st

/-- Constant rows in an image. -/
def imageCrows (e : List Word) : Nat := bits (progWord e 2) 21 15

/-- Tile shapes in an image. -/
def imageShapes (e : List Word) : Nat := bits (progWord e 2) 26 22

/-- Bytes of an image. -/
def imageSize (e : List Word) : Nat := imageRows e + 1024 * imageCrows e + 8 * imageShapes e

/-- The split of a program-table entry as a slice at a base. -/
def entrySlice (e : List Word) (base : Nat) : Slice :=
  let v := progWord e 2
  { base := base, tileg := bits v 6 0, scrg := bits v 13 7, constg := bits v 14 14, valid := true }

/-- A sequencer of a fresh task (R46, R65, R274): code, INSTR_END, and the entry header. -/
def freshSeq (e r : List Word) (img : List Byte) (sm : Stream) : Seq :=
  let entry : Half := BitVec.ofNat 16 (recWord r 0 / 2 ^ (16 * streamCode sm))
  { Seq.cleared with pc := entry, hdr := entry, imem := imemOf (codeIn e img sm), iend := BitVec.ofNat 16 (progLen e sm) }

/-- The matrix side after launch: band scales of 1.0, and scale tables in which no row is listed, each of which reads 1.0 (R169, R171). -/
def Matrix.launched : Matrix := { Matrix.cleared with bands := List.replicate 8 0x3F80 }

/-- The context of a fresh task (R65, R274 steps 2 to 4): everything an image does not give is cleared. Its start is an acquire of what its
predecessors' completions released (R273). -/
def freshCtx (dom n : Nat) (e r : List Word) (img : List Byte) (sl : Slice) (tvec : BitVec 17) (after : Nat) (kv : Table Nat) : Ctx :=
  let shapes := (img.drop (imageRows e + 1024 * imageCrows e))
  let tsh := (List.range (imageShapes e)).foldl (fun t i =>
    put 0#64 t i (configure 0 (BitVec.ofNat 64 (leNat ((shapes.drop (8 * i)).take 8))) sl.tileRows)) ([] : Table Word)
  { Ctx.cleared with
    ctl := freshSeq e r img .ctl, ld := freshSeq e r img .ld, mx := freshSeq e r img .mx, st := freshSeq e r img .st
    cr := { CtlRegs.cleared with tvec := tvec, acquireUntil := after, kv := kv }
    loc := { Pieces.cleared with tsh := tsh, satop := sl.scrBytes }
    mat := Matrix.launched, task := some (dom, n) }

/-- Rows written into consecutive lines of a pool. -/
def Core.fillLines (k : Core) : Nat → List (List Byte) → Core
  | _, [] => k
  | l, b :: bs => { k with pool := put 0#8192 k.pool l (rowOf b), poolBad := k.poolBad.filter fun e => e.1 / 128 != l }.fillLines (l + 1) bs

/-- The declared input operands of a record copied into SCR from offset 0 (R274 step 5). -/
def State.loadOperands (s : State) (o c : Nat) (r : List Word) (sl : Slice) : Nat → Nat → Nat → Option State
  | 0, _, _ => some s
  | fuel + 1, i, off =>
    let op := recOperand r i
    if op.2.2 = 1 ∨ op.2.2 = 3 then
      match s.hubReadAll o (pageFuel (65536 * op.2.1)) op.1 (65536 * op.2.1) with
      | none => none
      | some (s1, bs) =>
        (s1.modCore c fun k => k.fillLines (sl.scrLine off) (pieces 1024 (64 * op.2.1) bs)).loadOperands o c r sl fuel (i + 1)
          (off + 65536 * op.2.1)
    else s.loadOperands o c r sl fuel (i + 1) off

/-- The bytes of an image. (DEDUCED, log entry 136.) -/
def State.readImage (s : State) (o : Nat) (e : List Word) : Option (State × List Byte) :=
  if progWord e 0 % 64 ≠ 0 ∨ 2 ^ 56 ≤ progWord e 0 then none
  else s.hubReadAll o (pageFuel (imageSize e)) (progWord e 0) (imageSize e)

/-- Steps 1 to 5 of R274 for a task, into a slice of a core: the state and the context. None where it cannot be started. -/
def State.loadTask (s : State) (dom n c : Nat) (e : List Word) (sl : Bool) (base : Nat) : Option (State × Ctx) :=
  let x := s.slot dom n
  match s.readImage x.owner e with
  | none => none
  | some (s1, img) =>
    let z := entrySlice e base
    let s2 := s1.modCore c fun k =>
      (k.newSlice sl z).fillLines (z.constLine 0) (pieces 1024 (imageCrows e) (img.drop (imageRows e)))
    match s2.loadOperands x.owner c x.record z 6 0 0 with
    | none => none
    | some s3 =>
      some (s3, freshCtx dom n e x.record img z (s.part x.owner).tvecdef (get 0 s.relTime (slotKey dom n))
        (get [] s.relKv (slotKey dom n)))

/-- The program-table entry of a task, when it may be started. -/
def State.startEntry (s : State) (dom n : Nat) : Option (State × List Word) :=
  let x := s.slot dom n
  match s.progEntry x.owner (recProg x.record) with
  | .ok (s1, e) => if progOk e then some (s1, e) else none
  | .error _ => none

/-- TASK_START (R274): the fresh task bound to a core is loaded and its sequencers start; it waits while a context being moved leaves
no room for its slice, and goes back to READY where the quad has become inactive (R300). Before bring-up has started the dies, and in
recovery, nothing starts (R400). (DEDUCED, log entry 9.) (DEDUCED, log entry 120.) -/
def execTaskStart (c : Nat) (s : State) : Out State :=
  match s.boundTo c with
  | none => .next s
  | some n =>
    let dom := Config.domOf c
    if ¬ s.hub.up ∨ (s.core c).hasLive ∨ (s.core c).switchTo.isSome then .next s
    else if ¬ (s.quad (Config.quadOf c)).active then .next (s.modSlot dom n fun x => { x with st := .ready })
    else
      match s.startEntry dom n with
      | none => .next (s.faultSlot dom n .startFault)
      | some (s1, e) =>
        match (s1.core c).place (entrySlice e 0).size with
        | none => .next s
        | some (sl, base) =>
          match s1.loadTask dom n c e sl base with
          | none => .next (s1.faultSlot dom n .startFault)
          | some (s2, x) => .next (s2.traceMerge (s2.goLive c x sl) c)

/-! ### Shadows, preloads, switches -/

/-- A context put into a shadow of a core with its slice. -/
def State.intoShadow (s : State) (c : Nat) (b : Bool) (x : Ctx) (sl : Bool) (u : ShadowUse) : State :=
  s.modCore c fun k =>
    let k1 := (k.modShadow b fun _ => x).setUse b u
    if b then { k1 with sliceB := some sl } else { k1 with sliceA := some sl }

/-- The split that the header of a shaving names (R333), as a slice at a base. -/
def ShavingHeader.slice (h : ShavingHeader) (base : Nat) : Slice :=
  { base := base, tileg := h.tileg, scrg := h.scrg, constg := h.constg, valid := true }

/-- A shaving begins to be streamed into an empty shadow (R327): the pages of its area are translated and held, and a fault there is
RESTORE_CRC (R332), as is a split that no slice has. It waits while another stream runs, while a page is being bound, or while no slice
fits. (DEDUCED, log entry 9.) -/
def State.startRestore (s : State) (dom n c : Nat) : Option State :=
  match (s.core c).freeShadow, (s.core c).spindle with
  | some b, none =>
    match s.holdSlot dom n c with
    | (_, _, .wait) => none
    | (s0, _, .fault) => some (s0.faultSlot dom n .restoreCrc)
    | (s0, hs, .whole) =>
      let h := ShavingHeader.read (s0.areaBytes hs (s.areaOf dom n) 64)
      if 63 < (h.slice 0).size then some (s0.faultSlot dom n .restoreCrc)
      else
        match (s0.core c).place (h.slice 0).size with
        | none => none
        | some (sl, base) =>
          let s1 := s0.modCore c fun k =>
            { k.newSlice sl (h.slice base) with
              spindle := some { save := false, shadow := b, own := 0, area := s.areaOf dom n, holds := hs, sent := 0 } }
          some ((s1.intoShadow c b { Ctx.cleared with task := some (dom, n) } sl .restoring).modSlot dom n fun x =>
            { x with st := .preloaded, core := c })
  | _, _ => none

/-- A fresh task placed into an empty shadow (R278). -/
def State.preloadFresh (s : State) (dom n c : Nat) : State :=
  match (s.core c).freeShadow, s.startEntry dom n with
  | some b, some (s1, e) =>
    match (s1.core c).place (entrySlice e 0).size with
    | none => s
    | some (sl, base) =>
      match s1.loadTask dom n c e sl base with
      | none => s1.faultSlot dom n .startFault
      | some (s2, x) =>
        (s2.intoShadow c b x sl (.preload false)).modSlot dom n fun x => { x with st := .preloaded, core := c }
  | some _, none => s.faultSlot dom n .startFault
  | none, _ => s

/-- Whether a task is the next job of its contract, within 2^16 cc of the release, on a core of the CORESET (R278, R283).
(DEDUCED, log entry 74.) -/
def State.nextJob (s : State) (dom n c : Nat) : Bool :=
  let x := s.slot dom n
  let k := s.contract dom (recContract x.record)
  s.awaits dom (recContract x.record) n && k.isOpen && decide (k.next ≤ s.cc + 2 ^ 16) && k.coreset.getLsbD (localCore c)
    && (x.st == .ready || x.st == .saved) && s.eligible dom n c
    && (s.slotsOf dom).all fun m =>
      let y := s.slot dom m
      m == n || !(s.awaits dom (recContract x.record) m && y.waitsReady) || ranksBefore [x.readyAt, n] [y.readyAt, m]

/-- PRELOAD (R278): a READY task is placed into an idle shadow of a core that runs another. (DEDUCED, log entry 74.) -/
def execPreload (dom slot core : Nat) (s : State) : Out State :=
  let x := s.slot dom slot
  let fits := s.nextJob dom slot core
    || (s.dispatchable dom slot && s.eligible dom slot core && s.bestFor dom slot core && (x.st == .ready || x.st == .saved))
  if ¬ fits ∨ ¬ (s.core core).hasLive ∨ s.parked dom slot then .next s
  else if x.shaving then .next ((s.startRestore dom slot core).getD s)
  else .next (s.preloadFresh dom slot core)

/-- A preload of a core committed. -/
def Core.commit (k : Core) (b : Bool) : Core := match k.use b with | .preload _ => k.setUse b (.preload true) | _ => k

/-- Whether a shadow of a core holds a committed preload that may start: a next job of a contract waits for its release, and a preload
waits behind a task that is run again (R278, R279). -/
def State.mayStart (s : State) (c : Nat) (b : Bool) : Bool :=
  (s.core c).use b == .preload true && !s.rerunAt (Config.domOf c) c
    && match ((s.core c).shadow b).task with | some t => !(s.slot t.1 t.2).heldBack | none => true

/-- The preloads of a core committed, and one that may start bound to it (R278, R279): the switch takes 100 cc from the cycle on which the
core is without a live context (R25). -/
def State.startCommitted (s : State) (c : Nat) : State :=
  let s1 := s.modCore c fun k => (k.commit false).commit true
  if (s1.core c).switchTo.isSome then s1
  else if s1.mayStart c false then s1.modCore c fun k => { k with switchTo := some (false, 100) }
  else if s1.mayStart c true then s1.modCore c fun k => { k with switchTo := some (true, 100) }
  else s1

/-- The cores on which a running task of a domain may be pre-empted for a task (R277), in increasing number. -/
def State.victims (s : State) (dom n : Nat) : List (Nat × Nat) :=
  (s.coresOf (s.slot dom n).owner).filterMap fun c =>
    if ¬ (s.core c).hasLive ∨ (s.core c).dbg.stopped ∨ ¬ s.eligible dom n c then none
    else
      match (s.ctx c).task with
      | some (d, m) => if d = dom ∧ s.mayPreempt dom n m then some (c, m) else none
      | none => none

/-- Whether a core runs the lowest-ranked task that may be pre-empted, and the lowest core among equals (R277). -/
def State.isVictim (s : State) (dom n c : Nat) : Bool :=
  let vs := s.victims dom n
  vs.any fun v => v.1 == c && vs.all fun w => w.1 == c || ranksBefore ((s.rank dom w.2).take 5) ((s.rank dom v.2).take 5)
    || ((s.rank dom w.2).take 5 == (s.rank dom v.2).take 5 && decide (c < w.1))

/-- Whether an idle core is the one a task is bound to (R277): that of its preload, otherwise the lowest. -/
def State.chosen (s : State) (dom n c : Nat) : Bool :=
  let free := (s.coresOf (s.slot dom n).owner).filter fun k => s.idle k && s.eligible dom n k
  match s.whereIs (s.slot dom n).core (dom, n) with
  | .shadow _ => if free.contains (s.slot dom n).core then c == (s.slot dom n).core else free.head? == some c
  | _ => free.head? == some c

/-- A task that stands in no shadow bound to an idle core: its shaving streams in for a switch, or it waits to be started afresh. -/
def State.bindAway (s : State) (dom n c : Nat) : State :=
  if (s.slot dom n).shaving then
    match s.startRestore dom n c with
    | some s1 => s1.modCore c fun k => { k with switchTo := k.spindle.map fun p => (p.shadow, 100) }
    | none => s
  else s.modSlot dom n fun x => { x with st := .preloaded, core := c }

/-- A task bound to an idle core (R277): a switch to its shadow there begins, its shaving streams in, or it waits to be started
afresh. A preload on another core is discarded. -/
def State.bindTo (s : State) (dom n c : Nat) : State :=
  match s.whereIs (s.slot dom n).core (dom, n) with
  | .shadow b =>
    if (s.slot dom n).core = c then
      s.modCore c fun k =>
        { k.commit b with switchTo := some (b, 100) }
    else
      (s.dropPreload (s.slot dom n).core b).bindAway dom n c
  | _ => s.bindAway dom n c

/-- DISPATCH_BIND (R277): the dispatcher binds a ready task to an idle core, or, when no core it may run on is idle, asks the core of
the lowest-ranked task that it may pre-empt to yield; a preload of the pre-empting task on that core is committed and bound (R279). -/
def execDispatchBind (dom slot core : Nat) (s : State) : Out State :=
  if ¬ s.dispatchable dom slot ∨ ¬ s.eligible dom slot core ∨ ¬ s.bestFor dom slot core then .next s
  else if s.idle core then
    if s.chosen dom slot core then .next (s.bindTo dom slot core) else .next s
  else if ((s.coresOf (s.slot dom slot).owner).any fun k => s.idle k && s.eligible dom slot k) ∨ ¬ s.isVictim dom slot core then .next s
  else
    match s.preloadedAt dom slot with
    | some (k, b) =>
      .next ((s.ask core).modCore k fun x =>
        if k = core ∧ x.use b ≠ .restoring then { x.commit b with switchTo := some (b, 100) } else x)
    | none => .next (s.ask core)

/-- Whether every instruction in progress stands at its class's stop point at the end of a cycle (R281): a transform at the end of a
butterfly stage, 4 cycles each; the steps of all other instructions end with every cycle, and a sequencer that stalls or waits
stops at once. (DESIGN CHOICE, log entry 60.) -/
def Ctx.atStop (x : Ctx) : Bool :=
  x.mat.xops.all fun o => match o.instr with | .domScl .. => true | _ => o.elapsed % 4 == 3

/-- Whether a core is debug-stopped or makes a step: a request that it yield is held until RUN (R378). -/
def Debug.held (d : Debug) : Bool := d.stopped || d.step.isSome

/-- Whether a core stops at the end of a cycle because it has been asked to yield (R280): the request has reached it, every instruction in
progress has passed its stop point, and a shadow can take its context. -/
def State.stopsNow (s : State) (c : Nat) : Bool :=
  (s.core c).hasLive && (s.core c).demand == some 0 && !(s.core c).dbg.held && (s.core c).freeShadow.isSome && (s.ctx c).atStop

/-- PREEMPT_STOP (R280): a core asked to yield stops; its context goes to a shadow to be streamed out, and the switch to a preload that is
bound begins; no other preload starts (R279). -/
def execPreemptStop (c : Nat) (s : State) : Out State :=
  if s.stopsNow c then .next (s.moveOut c) else .next s

/-- The save of a shadow of a core (R333): what it works from. OWN is that of the previous header of this context (R341), less the
granules when the slice has another split (R343). -/
def State.saveJob (s : State) (c : Nat) (p : Spindle) : Option SaveJob :=
  let k := s.core c
  let x := k.shadow p.shadow
  x.task.map fun t =>
    { holds := p.holds, area := p.area, core := c, ctx := x, slice := k.slice ((if p.shadow then k.sliceB else k.sliceA).getD false)
      images := (s.slot t.1 t.2).images, own := p.own, imm := x.imm }

/-- OWN as a save of a shadow finds it in an area. -/
def State.ownBefore (s : State) (c : Nat) (b : Bool) (hs : List PageHold) (va : Nat) : BitVec 128 :=
  let x := (s.core c).shadow b
  match x.task with
  | none => 0
  | some t =>
    if (s.slot t.1 t.2).saves = 0 then 0
    else
      let own := (ShavingHeader.read (s.areaBytes hs va 64)).own
      if x.resplit then own &&& BitVec.ofNat 128 (2 ^ 40 - 1) else own

/-- A context whose first segments a save has finished: the write bits of what it saved stay cleared (R329). -/
def Ctx.partSaved (x : Ctx) (upTo : Nat) : Ctx :=
  let rows := (List.range (64 * (upTo - 40))).foldl (fun t i =>
    if x.written i ∧ x.keepsRow i then put false t (128 + i) true else t) x.clean
  { x with clean := (List.range (Nat.min upTo 40)).foldl (fun t i => put false t i true) rows }

/-- What is left of a save that stops early (R329): its header, the write bits that stay cleared, and the context as the
finished segments hold it. -/
def State.cutSave (s : State) (c : Nat) (p : Spindle) (e : SaveStop) : State :=
  match s.saveJob c p, ((s.core c).shadow p.shadow).task with
  | some j, some t =>
    ((s.saveCut j e (s.slot t.1 t.2).saves).modCore c fun k => k.modShadow p.shadow fun x => x.partSaved e.upTo).modSlot t.1 t.2
      fun x => if e.upTo = 0 then x else { x with images := (e.upTo, j.ctx) :: x.images }
  | _, _ => s

/-- A save in progress of a shadow stops early (R328, R329); how far it had come is a free value. (DESIGN CHOICE, log entry 60.) -/
def State.stopSave (s : State) (c : Nat) (b : Bool) : State :=
  match (s.core c).spindle with
  | some p =>
    if p.save ∧ p.shadow = b then
      let e := match s.saveJob c p with
        | some j => s.stopBefore j ((Config.freeWord s.free).toNat % (j.segments + 1))
        | none => { upTo := 0, cut := none }
      { (s.cutSave c p e).modCore c fun k => { k with spindle := none } with free := s.free + 1 }
    else s
  | none => s

/-- CONTEXT_SWITCH (R25, R328): 100 cc after it was asked for, a switch makes a shadow's context live; one being restored is waited
for, and a save of it stops early. -/
def execContextSwitch (c : Nat) (b : Bool) (s : State) : Out State :=
  let k := s.core c
  if k.hasLive ∨ k.switchTo ≠ some (b, 0) ∨ k.useA = .restoring ∧ b = false ∨ k.useB = .restoring ∧ b = true ∨ k.use b = .empty then
    .next s
  else
    let x := k.shadow b
    let sl := ((if b then k.sliceB else k.sliceA)).getD false
    let s1 := s.stopSave c b
    let x1 := (s1.core c).shadow b
    .next ((s1.modCore c fun k => (k.modShadow b fun _ => Ctx.cleared).setUse b .empty).goLive c (if k.use b = .saving then x1 else x) sl)

/-! ### yield (R122) -/

/-- Whether everything the four sequencers have issued has retired (R122); a `drain.q` that has not taken its last row has not issued (R295). -/
def Ctx.quiet (x : Ctx) : Bool :=
  x.ctl.flight == [] && x.ld.flight == [] && x.mx.flight == [] && x.st.flight == [] && x.pend == [] && x.mat.ops == []
    && x.mat.xops == [] && x.mat.fills == [] && x.mat.drains.all fun d => d.queue && decide (d.taken < drRows d.sr)

/-- The live context of a core ends (R122, R279): its commands run on, its task waits for them with what it knows (R273), and a preload
starts. -/
def State.endContext (s : State) (c : Nat) : State :=
  let s1 := ((((s.leaveSenders c).dropOverlapping c false).dropOverlapping c true)).orphan c
  let s2 := match (s1.ctx c).task with
    | some t =>
      { s1.modSlot t.1 t.2 fun x => { x with st := .completing } with
        relKv := put [] s1.relKv (slotKey t.1 t.2) (merged (s1.core c).kv (s1.core c).seen) }
    | none => s1
  (s2.modCore c Core.emptied).startCommitted c

/-- The live context of a core, if it is to leave at the end of the cycle, leaves (R122, R330, R362). -/
def State.depart (s : State) (c : Nat) : State :=
  if ¬ (s.core c).hasLive then s
  else
    match (s.core c).leaving with
    | none => s
    | some .ended => s.endContext c
    | some .yielded => (s.moveOut c).startCommitted c
    | some _ => s.moveOut c

/-- The state in which a core's live context is to leave at the end of the cycle. -/
def State.leaveBy (s : State) (c : Nat) (w : Leave) : State := s.modCore c fun k => { k with leaving := some w }

/-- YIELD (R122): it waits until everything issued has retired; then the task completes, or its context is captured, at the end of the
cycle (R330). (DEDUCED, log entry 45.) -/
def yieldBody (a : BitVec 5) (s : State) : Res :=
  let c := s.unit.core
  if s.r a ≠ 0 ∧ s.r a ≠ 1 then .trap .illegal 0
  else if ¬ s.my.quiet ∨ s.r a = 1 ∧ (s.core c).freeShadow = none then .stall .engine []
  else
    .over ((s.finish 0 none).leaveBy c (if s.r a = 0 then .ended else .yielded))

/-- YIELD (R122). -/
def execYield (a : BitVec 5) (s : State) : Out State := issue (.yield a) (yieldBody a) s

/-! ### Completion (R273) -/

/-- Whether a task has commands, snapshots or encoder work that have not completed. -/
def State.working (s : State) (dom n : Nat) : Bool :=
  let own := fun (a : Option Aim) => match a with | some a => a.dom == dom && a.slot == n | none => false
  let c := (s.slot dom n).core
  (s.cores.any fun e => e.2.orphans.any fun k => own k.task)
    || (s.dies.any fun e => (e.2.queue.any fun q => own q.task)
          || e.2.busy.any fun b => match b.2 with | some q => own q.task | none => false)
    || (s.sent.any fun w => w.die == Config.dieOf c && w.core == c)

/-- One entry of a successor list (R273): a predecessor fewer, and what the task knew is released to the successor; or SUCC_BAD. -/
def State.release1 (s : State) (o dom n v : Nat) : State :=
  let k := bits v 11 0
  let y := s.slot dom k
  if bits v 15 12 ≠ 0 ∨ y.st = .free ∨ y.owner ≠ o ∨ y.preds = 0 then s.event o 4 n k 0 0
  else
    let s1 := s.modSlot dom k fun y =>
      { y with
        preds := y.preds - 1
        st := if y.preds = 1 ∧ y.st = .waiting then .ready else y.st
        readyAt := if y.preds = 1 then s.cc else y.readyAt, raisedAt := if y.preds = 1 then s.cc else y.raisedAt }
    { s1 with
      relTime := update 0 s1.relTime (slotKey dom k) fun t => Nat.max t s.time
      relKv := update [] s1.relKv (slotKey dom k) fun t => merged t (get [] s.relKv (slotKey dom n)) }

/-- The contract of a task loses it as its job. -/
def State.unjob (s : State) (dom n : Nat) : State :=
  let k := recContract (s.slot dom n).record
  if (s.slot dom n).job ∧ (s.contract dom k).job = some n then s.modContract dom k fun x => { x with job := none } else s

/-- A successor list read at its address, which may run into a second page: the cause of the fault, or the list's entries. -/
def State.successors (s : State) (o : Nat) (r : List Word) : Except Cause (State × List Nat) :=
  if recNsucc r = 0 then .ok (s, [])
  else
    match s.walk o none (recSucc r) true false false with
    | .fault _ e _ => .error e
    | .stall => .error .pageFault
    | .ok s0 _ v size =>
      match (if v + size < recSucc r + 2 * recNsucc r then s0.walk o none (v + size) true false false else .ok s0 0 v size) with
      | .fault _ e _ => .error e
      | .stall => .error .pageFault
      | .ok s1 _ _ _ =>
        match s1.hubReadAll o 2 (recSucc r) (2 * recNsucc r) with
        | some (s2, bs) => .ok (s2, (List.range (recNsucc r)).map fun i => leNat ((bs.drop (2 * i)).take 2))
        | none => .error .uncorr

/-- The completion of a task (R273): its successors are released in list order, and its slot is freed. -/
def State.complete (s : State) (dom n : Nat) : State :=
  let x := s.slot dom n
  let s1 := match s.successors x.owner x.record with
    | .ok (s1, l) => l.foldl (fun (a : State) v => a.release1 x.owner dom n v) s1
    | .error e => s.event x.owner 4 n 0 0 (causeCode e)
  (s1.unjob dom n).freeUp dom n

/-- TASK_COMPLETION (R273): once a completing task's commands have completed; the slot of one whose partition has ended is freed without
events (R300). -/
def execTaskCompletion (dom slot : Nat) (s : State) : Out State :=
  if (s.slot dom slot).st ≠ .completing ∨ s.working dom slot then .next s
  else if (s.part (s.slot dom slot).owner).ended then .next (s.freeUp dom slot)
  else .next (s.complete dom slot)

/-! ### Ageing and contracts -/

/-- Whether a task is due to be raised a band (R276). -/
def State.ages (s : State) (dom n : Nat) : Bool :=
  let x := s.slot dom n
  x.waitsReady && 0 < x.band && Nat.max x.raisedAt x.readyAt + 2 ^ 20 ≤ s.cc

/-- AGEING (R276): a task READY for 2^20 cc is raised one band. -/
def execAgeing (dom slot : Nat) (s : State) : Out State :=
  if s.ages dom slot then .next (s.modSlot dom slot fun x => { x with band := x.band - 1, raisedAt := s.cc }) else .next s

/-- The oldest READY or SAVED task of a contract (R283). -/
def State.oldestOf (s : State) (dom k : Nat) : Option Nat :=
  let own := (s.slotsOf dom).filter fun n => s.awaits dom k n && (s.slot dom n).waitsReady
  own.foldl (fun a n =>
    match a with
    | none => some n
    | some m => if ranksBefore [(s.slot dom n).readyAt, n] [(s.slot dom m).readyAt, m] then some n else some m) none

/-- A job becomes an uncontracted task of its contract's band (R284, R285). -/
def State.demote (s : State) (dom n : Nat) : State :=
  (s.unjob dom n).modSlot dom n fun x =>
    { x with
      job := false, uncontracted := true, band := (s.contract dom (recContract x.record)).band
      ownBand := (s.contract dom (recContract x.record)).band, deadline := none }

/-- CONTRACT_RELEASE (R283): a period has passed, and the contract's oldest ready task becomes its job, in the contract's band or the one
that ageing has raised it to (R276). -/
def execContractRelease (dom contract : Nat) (s : State) : Out State :=
  let k := s.contract dom contract
  if ¬ k.isOpen ∨ s.cc < k.next then .next s
  else
    let s1 := match k.job with | some n => s.demote dom n | none => s
    let job := s1.oldestOf dom contract
    let s2 := s1.modContract dom contract fun x => { x with next := x.next + x.period, job := job }
    match job with
    | none => .next s2
    | some n => .next (s2.modSlot dom n fun x =>
        { x with job := true, band := Nat.min x.band k.band, ownBand := k.band, budget := 0, deadline := some (k.next + k.deadline) })

/-- Whether the job of a core has used its budget (R285). -/
def State.overruns (s : State) (c : Nat) : Bool :=
  match (s.ctx c).task with
  | some (d, n) =>
    let x := s.slot d n
    (s.core c).hasLive && x.job && (s.contract d (recContract x.record)).budget ≤ x.budget
  | none => false

/-- OVERRUN (R285): the job of a core has used its budget. It loses its contract's rank, the core is asked to yield, and the core's
preload is bound to start after it (R279). -/
def execOverrun (c : Nat) (s : State) : Out State :=
  match s.overruns c, (s.ctx c).task with
  | true, some (d, n) =>
    .next ((((s.slotEvent d n 2 0).demote d n).startCommitted c).ask c)
  | _, _ => .next s

/-- Whether the job of a contract has passed its deadline (R285). -/
def State.misses (s : State) (dom k : Nat) : Option Nat :=
  match (s.contract dom k).job with
  | some n => match (s.slot dom n).deadline with | some d => if d ≤ s.cc then some n else none | none => none
  | none => none

/-- MISS (R285): the job of a contract passes its deadline before completion. -/
def execMiss (dom contract : Nat) (s : State) : Out State :=
  match s.misses dom contract with
  | some n => .next ((s.slotEvent dom n 3 0).demote dom n)
  | none => .next s

/-- A contract's descriptor (R121). -/
def contractOf (d : List Byte) (o : Nat) : Contract :=
  { isOpen := true, owner := o, period := descNat d 0 8, budget := descNat d 8 4, deadline := descNat d 12 4, band := descNat d 16 1
    coreset := BitVec.ofNat 96 (descNat d 20 12), next := 0, job := none }

/-- The cores of a contract. -/
def Contract.cores (k : Contract) (dom : Nat) : List Nat :=
  ((List.range 96).filter fun i => k.coreset.getLsbD i).map fun i => 96 * dom + i

/-- Whether a descriptor is malformed (R121). -/
def State.contractBad (s : State) (dom o : Nat) (d : List Byte) : Bool :=
  let k := contractOf d o
  k.period == 0 || k.budget == 0 || k.deadline == 0 || k.coreset == 0 || decide (7 < k.band) || decide (k.deadline < k.budget)
    || decide (k.period < k.deadline) || descNat d 17 3 != 0 || (k.cores dom).any fun c => !(s.coresOf o).contains c

/-- The open contracts of a domain that carry a core. -/
def State.carriedBy (s : State) (dom i : Nat) : List Contract :=
  s.contracts.filterMap fun e => if e.1 / 4096 = dom ∧ e.2.isOpen ∧ e.2.coreset.getLsbD i then some e.2 else none

/-- The sum of (BUDGET + 400) / DEADLINE over contracts, as a fraction. -/
def load : List Contract → Nat × Nat
  | [] => (0, 1)
  | k :: ks =>
    let r := load ks
    (r.1 * k.deadline + (k.budget + 400) * r.2, r.2 * k.deadline)

/-- Whether a core of a new contract fails the utilisation or band test (R284). -/
def State.tooLoaded (s : State) (dom : Nat) (k : Contract) (i : Nat) : Bool :=
  let all := k :: s.carriedBy dom i
  let r := load all
  decide (7 * r.2 < 8 * r.1) || all.any fun j => j.band != k.band

/-- The result of an admission (R121, R284): the first of -3, -1 and -2 that applies. (DEDUCED, log entry 47.) -/
def State.admission (s : State) (dom o : Nat) (d : List Byte) : Option Int :=
  let k := contractOf d o
  let is := (List.range 96).filter fun i => k.coreset.getLsbD i
  if s.contractBad dom o d then some (-3)
  else if is.any fun i => s.tooLoaded dom k i then some (-1)
  else if is.any fun i => 16 ≤ (s.carriedBy dom i).length then some (-2)
  else none

/-- CT_OPEN (R121). (DEDUCED, log entry 47.) (DEDUCED, log entry 110.)
(DEDUCED, log entry 116.) (DESIGN CHOICE, log entry 130.) -/
def ctOpenBody (d a : BitVec 5) (s : State) : Res :=
  let c := s.unit.core
  let o := s.partOf c
  let dom := domOfQuad o
  let addr := s.r a
  if s.my.cr.priv = .user then .trap .priv 0
  else if placeOf addr = .bad then .trap .addr addr
  else if addr.toNat % 32 ≠ 0 then .trap .align addr
  else
    match s.resolve c addr 32 true false with
    | .fault t e i => .trapIn t e i
    | .stall => .stall .engine []
    | .at s1 l =>
      if s1.waitsAt c l then .stall .engine []
      else if s1.uncorrAt c l 32 then .trapIn s1 .uncorr (uncorrInfo addr)
      else
        let desc := s1.bytesAt c l 32
        let s2 := s1.touched c l 32
        match s2.admission dom o desc, (List.range 4096).find? fun n => !(s2.contract dom n).isOpen with
        | some e, _ => .done (s2.setR d (BitVec.ofInt 64 e)) 0
        | none, some n =>
          let k := contractOf desc o
          .done ((s2.modContract dom n fun _ => { k with next := s.cc + k.period }).setR d (BitVec.ofNat 64 n)) 0
        | none, none => .done (s2.setR d (BitVec.ofInt 64 (-2))) 0

/-- CT_OPEN (R121). -/
def execCtOpen (d a : BitVec 5) (s : State) : Out State := issue (.ctOpen d a) (ctOpenBody d a) s

/-- CT_CLOSE (R121, R284): the contract ends, and its current job becomes an uncontracted task. -/
def ctCloseBody (d a : BitVec 5) (s : State) : Res :=
  let o := s.partOf s.unit.core
  let dom := domOfQuad o
  let n := (s.r a).toNat
  if s.my.cr.priv = .user then .trap .priv 0
  else if 4096 ≤ n ∨ ¬ (s.contract dom n).isOpen ∨ (s.contract dom n).owner ≠ o then .done (s.setR d (-1)) 0
  else
    let s1 := match (s.contract dom n).job with | some j => s.demote dom j | none => s
    .done ((s1.modContract dom n fun _ => Contract.none).setR d 0) 0

/-- CT_CLOSE (R121). -/
def execCtClose (d a : BitVec 5) (s : State) : Out State := issue (.ctClose d a) (ctCloseBody d a) s

/-! ### Pool commands (R287) -/

/-- The event of a refused command (R287, R288). (DEDUCED, log entry 48.) (DEDUCED, log entry 101.) -/
def State.cmdBad (s : State) (o n : Nat) : State := s.event o 6 n 0 0 0

/-- A command on a slot of a partition's range in a state that allows it; otherwise CMD_BAD. -/
def State.poolCmd (s : State) (o n : Nat) (legal : SlotState → Bool) (f : State → State) : State :=
  let x := s.slot (domOfQuad o) n
  if (s.range o).contains n ∧ x.st ≠ .free ∧ x.owner = o ∧ legal x.st then f s else s.cmdBad o n

/-- A faulted task. -/
def isFaulted (x : SlotState) : Bool := x == .faulted

/-- The context of a task is dropped from the shadow it stands in. (DEDUCED, log entry 73.) -/
def State.dropShadow (s : State) (dom n : Nat) : State :=
  let c := (s.slot dom n).core
  match s.whereIs c (dom, n) with
  | .shadow b => ((s.stopSave c b).onShadow c b fun s => s.orphan c).modCore c fun k =>
      { ((k.modShadow b fun _ => Ctx.cleared).setUse b .empty).noSwitch b with
        spindle := if k.spindle.any fun p => p.shadow == b then none else k.spindle }
  | _ => s

/-- RERUN (R287): the shaving is discarded, and the task starts afresh, in its own band (R276). -/
def execRerun (owner : Nat) (slot : BitVec 12) (s : State) : Out State :=
  let dom := domOfQuad owner
  .next (s.poolCmd owner slot.toNat isFaulted fun s =>
    (s.dropShadow dom slot.toNat).modSlot dom slot.toNat fun x =>
      { x with
        st := .ready, shaving := false, images := [], saves := 0, infl := 0, heldFlags := [], heldErrors := [], readyAt := s.cc
        raisedAt := s.cc, band := x.ownBand, faulting := none, begun := x.begun + 1, rerun := true, faultAt := none })

/-- RESUME (R287): the task is SAVED and restarts from its shaving, in its own band (R276). -/
def execResume (owner : Nat) (slot : BitVec 12) (s : State) : Out State :=
  let dom := domOfQuad owner
  .next (s.poolCmd owner slot.toNat isFaulted fun s =>
    s.modSlot dom slot.toNat fun x => { x with
      st := .saved, shaving := true, readyAt := s.cc, raisedAt := s.cc, band := x.ownBand, faulting := none, rerun := true })

/-- The live context of a core is dropped without saving (R287), and with it a preload that may hold inputs it was to rewrite (R279). -/
def State.dropLive (s : State) (c : Nat) : State :=
  (((((s.dropOverlapping c false).dropOverlapping c true).leaveSenders c).modCtx c Ctx.discard).orphan c).modCore c fun k =>
    { k with hasLive := false, live := .cleared, demand := none, captStop := 0, captArm := false, captCount := none }

/-- A task's context is dropped wherever it stands, and its slot freed (R287). (DEDUCED, log entry 73.) -/
def State.dropTask (s : State) (dom n : Nat) : State :=
  let c := (s.slot dom n).core
  let s1 := match s.whereIs c (dom, n) with
    | .live => s.dropLive c
    | .shadow _ => s.dropShadow dom n
    | .away => s
  (s1.unjob dom n).freeUp dom n

/-- DROP (R287): the slot is freed, and its successors are not released. -/
def execDrop (owner : Nat) (slot : BitVec 12) (s : State) : Out State :=
  .next (s.poolCmd owner slot.toNat (fun _ => true) fun s => s.dropTask (domOfQuad owner) slot.toNat)

/-- What a task that is not live has acquired (R264): the knowledge of its context in a shadow, or of its latest image. -/
def State.taskKv (s : State) (dom n : Nat) : Table Nat :=
  match s.whereIs (s.slot dom n).core (dom, n) with
  | .shadow b => ((s.core (s.slot dom n).core).shadow b).cr.kv
  | _ => match (s.slot dom n).images with | i :: _ => i.2.cr.kv | [] => []

/-- What a task has acquired is kept with its slot, to be passed on by its completion (R273). -/
def State.learn (s : State) (dom n : Nat) : State :=
  { s with relKv := update [] s.relKv (slotKey dom n) fun t => merged t (s.taskKv dom n) }

/-- RELEASE (R287): a faulted task is treated as completed. -/
def execRelease (owner : Nat) (slot : BitVec 12) (s : State) : Out State :=
  let dom := domOfQuad owner
  .next (s.poolCmd owner slot.toNat isFaulted fun s =>
    let s1 := ((s.learn dom slot.toNat).dropShadow dom slot.toNat).modSlot dom slot.toNat fun x => { x with st := .completing }
    if s1.working dom slot.toNat then s1 else s1.complete dom slot.toNat)

/-- EVICT (R287): a running task is pre-empted; one that is being switched back to its core when the switch completes (R25). A task whose
context stands in a shadow, pre-empted or faulted, is not RUNNING (R272, R328). -/
def execEvict (owner : Nat) (slot : BitVec 12) (s : State) : Out State :=
  let dom := domOfQuad owner
  .next (s.poolCmd owner slot.toNat (· == .running) fun s =>
    let c := (s.slot dom slot.toNat).core
    match s.whereIs c (dom, slot.toNat) with
    | .live => s.ask c
    | _ => if s.bound dom slot.toNat then s.ask c else s.cmdBad owner slot.toNat)

/-- Whether a range of slots would overlap that of another partition of the domain (R286). -/
def State.rangeOverlaps (s : State) (o first quota : Nat) : Bool :=
  s.parts.any fun e =>
    e.1 != o && domOfQuad e.1 == domOfQuad o && meets first quota e.2.poolqFirst.toNat e.2.poolqQuota.toNat

/-- ERR of a partition's owner quad is set (R286, R299). -/
def State.setErr (s : State) (o : Nat) : State := s.modQuad o fun q => { q with err := true }

/-- POOLQ_WRITE (R286): a hyp write of a partition's slot range, refused where it would overlap another's. -/
def execPoolqWrite (owner : Nat) (v : Word) (s : State) : Out State :=
  let first := bits v.toNat 11 0
  let quota := bits v.toNat 24 12
  if s.rangeOverlaps owner first quota then .next (s.setErr owner)
  else .next (s.modPart owner fun p => { p with poolqFirst := BitVec.ofNat 12 first, poolqQuota := BitVec.ofNat 13 quota })

end Sys2Proof.Machine
end

