-- ==== Sys2Proof/Machine/Recovery.lean ====
section
/-! DEFINITION. Recovery: saves and restores by the spindle (R327 to R332, R344), the scrubber (R350), and the pod's checkpoints and
failures (R353 to R355). -/
namespace Sys2Proof.Machine

/-! ### Saves -/

/-- Whether a context in a shadow is still to be saved: its slot has not been faulted by a failed save (R328). -/
def State.toSave (s : State) (c : Nat) (b : Bool) : Bool :=
  match (s.core c).use b, ((s.core c).shadow b).task with
  | .held, some t => !((s.slot t.1 t.2).st == .faulted)
  | _, _ => false

/-- A save that cannot go on (R328, R329, R335): its header is written where it can be, the context stays in its shadow, and the slot is
FAULTED with SAVE_FAULT. -/
def State.failSave (s : State) (c : Nat) (p : Spindle) (t : Nat × Nat) (e : SaveStop) : State :=
  ((s.cutSave c p e).modCore c fun k => { k.setUse p.shadow .held with spindle := none }).faultSlot t.1 t.2 .saveFault

/-- SAVE_START (R327, R328): the spindle begins to stream a shadow out, unless another stream runs. The pages of the area are translated and
held first (R332), a fault there ending it with no segment begun (R329); a save waits while one is being bound. -/
def execSaveStart (c : Nat) (b : Bool) (s : State) : Out State :=
  match ((s.core c).shadow b).task with
  | none => .next s
  | some t =>
    if ¬ s.toSave c b ∨ (s.core c).spindle.isSome then .next s
    else
      match s.holdSlot t.1 t.2 c with
      | (_, _, .wait) => .next s
      | (s1, hs, r) =>
        let va := s.areaOf t.1 t.2
        let p : Spindle :=
          { save := true, shadow := b, own := s1.ownBefore c b hs va, area := va, holds := hs, sent := (s1.die (Config.dieOf c)).sc }
        if r = .whole then .next (s1.modCore c fun k => { k.setUse b .saving with spindle := some p })
        else .next (s1.failSave c p t { upTo := 0, cut := none })

/-- Whether some core of a task's partition, and for a job of its CORESET, has its profiles (R294). -/
def State.hasCore (s : State) (dom n : Nat) : Bool :=
  let x := s.slot dom n
  (s.coresOf x.owner).any fun c =>
    x.prof &&& ~~~(profBits c) == 0
      && (!x.job || (s.contract dom (recContract x.record)).coreset.getLsbD (localCore c))

/-- The slot of a task whose shaving is complete (R272, R293, R294): FAULTED after a fault, SAVED otherwise, in its own band (R276); a
task that migrates keeps its band and its READY time, and one that no core can run is FAULTED. (DEDUCED, log entry 48.)
(DEDUCED, log entry 92.) -/
def State.settleSaved (s : State) (dom n : Nat) : State :=
  match (s.slot dom n).faulting with
  | some .migrate =>
    if s.hasCore dom n then s.modSlot dom n fun x => { x with st := .saved, faulting := none }
    else (s.faultSlot dom n .migrate).slotEvent dom n 5 0
  | some e => s.faultSlot dom n e
  | none => s.modSlot dom n fun x =>
      { x with st := .saved, readyAt := s.cc, raisedAt := s.cc, band := x.ownBand }

/-- Whether writes of a core, or of its engines, with this number or a lower one are still on their way to a home (R264). -/
def State.onItsWay (s : State) (c n : Nat) : Bool := s.sent.any fun w => w.die == Config.dieOf c && w.core == c && decide (w.seq ≤ n)

/-- SAVE_COMPLETE (R332, R333): the segments due and then the header are written, and the slot changes state. It waits for the writes that the
core had sent when the save began (R264). A fault of the area leaves the context in its shadow, and the slot is FAULTED with SAVE_FAULT
(R328). -/
def execSaveComplete (c : Nat) (s : State) : Out State :=
  match (s.core c).spindle with
  | none => .next s
  | some p =>
    if ¬ p.save ∨ s.onItsWay c p.sent ∨ ¬ s.areaServed c p.holds then .next s
    else
      match s.saveJob c p, ((s.core c).shadow p.shadow).task with
      | some j, some t =>
        match s.saveAll j ((s.slot t.1 t.2).saves + 1) with
        | some (s1, _) =>
          let s2 := s1.modCore c fun k => { (k.modShadow p.shadow fun _ => Ctx.cleared).setUse p.shadow .empty with spindle := none }
          .next ((s2.modSlot t.1 t.2 fun x =>
            { x with shaving := true, saves := x.saves + 1, infl := j.ctx.infl, images := [(128, j.ctx)] }).settleSaved t.1 t.2)
        | none => .next (s.failSave c p t (s.stopOnFault j))
      | _, _ => .next (s.modCore c fun k => { k with spindle := none })

/-! ### Restores -/

/-- A restore that fails (R344): the slot is FAULTED with the cause, and the shadow is empty again. -/
def State.failRestore (s : State) (c : Nat) (b : Bool) (t : Nat × Nat) (e : Cause) : State :=
  (s.modCore c fun k =>
    { ((k.modShadow b fun _ => Ctx.cleared).setUse b .empty).noSwitch b with spindle := none }).faultSlot t.1 t.2 e

/-- The code of the memories that IMM leaves out, from the task's program-table entry (R342, R344); none where it cannot be read. -/
def State.reload (s : State) (dom n imm : Nat) : Option (State × (Stream → Table Half)) :=
  if imm = 15 then some (s, fun _ => [])
  else
    match s.startEntry dom n with
    | none => none
    | some (s1, e) =>
      match s1.readImage (s.slot dom n).owner e with
      | none => none
      | some (s2, img) => some (s2, fun sm => imemOf (codeIn e img sm))

/-- The context that a restore starts from: what the slot's last save saw of it, with its task. (DEDUCED, log entry 61.) -/
def State.lastImage (s : State) (t : Nat × Nat) : Ctx :=
  { ((s.slot t.1 t.2).images.head?.map (·.2)).getD Ctx.cleared with task := some t }

/-- RESTORE_COMPLETE (R344): the checks in their order, of which none changes the shaving; then it is translated where it must be, every
segment is loaded, and a waiting switch may go on. -/
def execRestoreComplete (c : Nat) (s : State) : Out State :=
  match (s.core c).spindle with
  | none => .next s
  | some p =>
    match ((s.core c).shadow p.shadow).task with
    | none => .next (s.modCore c fun k => { k with spindle := none })
    | some t =>
      if p.save ∨ ¬ s.areaServed c p.holds then .next s
      else
        let bs := s.areaBytes p.holds p.area 64
        let h := ShavingHeader.read bs
        match s.restoreFault p.holds p.area c bs with
        | some e => .next (s.failRestore c p.shadow t e)
        | none =>
          match s.reload t.1 t.2 h.imm with
          | none => .next (s.failRestore c p.shadow t .startFault)
          | some (s1, code) =>
            match s1.translate p.holds p.area c h with
            | none => .next (s1.failRestore c p.shadow t .restoreLayout)
            | some s2 =>
              let k := s2.core c
              let z := k.slice ((if p.shadow then k.sliceB else k.sliceA).getD false)
              let x := s2.restoreCtx p.holds p.area (s2.lastImage t) h.imm code
              .next (((s2.restorePool p.holds p.area c z).drawn.modCore c fun k =>
                { (k.modShadow p.shadow fun _ => x).setUse p.shadow (.preload (k.switchTo.any fun w => w.1 == p.shadow)) with
                  spindle := none }).modSlot t.1 t.2 fun y => { y with images := [(128, x)] })

/-! ### The scrubber (R350) -/

/-- Lines of a stack, its reserved part among them (R306). -/
def stackLines : Nat := 2 ^ 30

/-- SCRUB_LINE (R350): the scrubber of a stack reads the next line in address order and notes its write sequence; at its next visit it writes the
line back corrected, or sets its poison bit, unless a write has reached the line in between. (DEDUCED, log entry 66.) -/
def execScrubLine (line : Nat) (s : State) : Out State :=
  match get 0 s.scrub line with
  | 0 =>
    let stack := line / stackLines
    if 8 ≤ stack ∨ line % stackLines ≠ get 0 s.scrubAt stack then .next s
    else
      .next { s with
        scrub := put 0 s.scrub line (get 0 s.lineSeq line + 1)
        scrubAt := put 0 s.scrubAt stack ((line + 1) % stackLines) }
  | n + 1 =>
    let s1 := { s with scrub := put 0 s.scrub line 0 }
    if get 0 s.lineSeq line ≠ n then .next s1
    else if s.badLine line then .next { s1 with poison := put false s.poison line true }
    else .next { s1 with lineErr := put 0 s.lineErr line 0 }

/-! ### The pod (R353 to R355) -/

/-- HEARTBEAT (R355): a package is heard; one that has been declared failed stays so. (DESIGN CHOICE, log entry 96.) -/
def execHeartbeat (pkg : Nat) (s : State) : Out State :=
  .next { s with pod := { s.pod with heard := put 0 s.pod.heard pkg s.time } }

/-- 1.5 s in ticks of the time base. -/
def silence : Nat := 600000000

/-- PACKAGE_FAILURE_DETECTION (R355): a package silent for 1.5 s is declared failed; its links' routes are dropped. -/
def execPackageFailureDetection (pkg : Nat) (s : State) : Out State :=
  if get 0 s.pod.heard pkg + silence ≤ s.time then .next { s with pod := { s.pod with failed := put false s.pod.failed pkg true } }
  else .next s

/-- BUDDY_RECORD_APPLY (R353): block j's 4,096 bytes of a record go to SRC + 4,096·j of the image of its package, unless that has been
declared failed (R355). -/
def execBuddyRecordApply (pkg src block : Nat) (bytes : List Byte) (s : State) : Out State :=
  if get false s.pod.failed pkg then .next s
  else .next { s with pod := { s.pod with
    images := update [] s.pod.images pkg fun m => writeBytes m (src + 4096 * block) (fit 4096 bytes) } }

/-- Field k of a region entry given to a manifest: whether it is a shaving, SRC, NBLK, OUT, OUTLEN, SNAPOVF. -/
def entryField (l : List Nat) (k : Nat) : Nat := (l[k]?).getD 0

/-- A manifest's bytes (R354). -/
def manifest (epoch : Nat) (regions : List (List Nat)) : List Byte :=
  let shavings := (regions.filter fun l => entryField l 0 != 0).length
  let whole := regions.all fun l => entryField l 5 == 0
  let head := leBytes 8 epoch ++ leBytes 2 Config.package ++ leBytes 2 (regions.length - shavings) ++ leBytes 2 shavings
    ++ leBytes 1 (ofBool whole)
  fit 64 head ++ regions.flatMap fun l =>
    fit 64 (words8 [entryField l 1, entryField l 2, entryField l 3, entryField l 4] ++ leBytes 1 (ofBool (entryField l 5 != 0)))

/-- The key of a package's manifest of an epoch. -/
def manifestKey (epoch pkg : Nat) : Nat := 4096 * epoch + pkg

/-- Whether no entry of a manifest has SNAPOVF, which leaves its epoch incomplete (R354). -/
def wholeEpoch (regions : List (List Nat)) : Bool := regions.all fun l => entryField l 5 == 0

/-- CHECKPOINT_MANIFEST (R353, R354): the management controller of a package writes its manifest of an epoch and ships it. This package's
is written at its address; another's arrives here as at its buddy, which keeps the shavings that come with it; of a package declared
failed nothing arrives (R355). (PRESUMED, log entry 68.) -/
def execCheckpointManifest (epoch : Nat) (addr : BitVec 56) (ship : Shipment) (s : State) : Out State :=
  if get false s.pod.failed ship.pkg then .next s else
  let s1 := if ship.pkg = Config.package then s.applyAt (addr.toNat % 2 ^ 52) (manifest epoch ship.regions)
    else { s with pod := { s.pod with
      shavings := update [] s.pod.shavings ship.pkg fun t => ship.shavings.foldl (fun t e => put [] t e.1 e.2) t } }
  .next { s1 with pod := { s1.pod with manifests := put false s1.pod.manifests (manifestKey epoch ship.pkg) (wholeEpoch ship.regions) } }

/-- Whether the checkpoint of an epoch is valid for the packages of a job (R353): their manifests are complete, and acknowledged by
both buddies. -/
def Pod.isValid (p : Pod) (epoch : Nat) (job : List Nat) : Bool :=
  job.all fun k => get false p.manifests (manifestKey epoch k) && get false p.acks (2 * manifestKey epoch k)
    && get false p.acks (2 * manifestKey epoch k + 1)

/-- BUDDY_ACKNOWLEDGEMENT (R353): one of the two buddies of a package acknowledges its manifest of an epoch; the last that the packages of
a job wait for makes the epoch's checkpoint valid. -/
def execBuddyAcknowledgement (epoch pkg : Nat) (ack : Ack) (s : State) : Out State :=
  let p : Pod := { s.pod with acks := put false s.pod.acks (2 * manifestKey epoch pkg + ack.buddy % 2) true }
  if p.isValid epoch ack.job then
    .next { s with pod := { p with valid := ack.job.foldl (fun t k => put false t (manifestKey epoch k) true) p.valid } }
  else .next { s with pod := p }

/-- SPARE_ASSIGNMENT (R355): the pod manager binds a spare for a package that has been declared failed. -/
def execSpareAssignment (pkg spare : Nat) (s : State) : Out State :=
  if get false s.pod.failed pkg then .next { s with pod := { s.pod with spares := put 0 s.pod.spares pkg (spare + 1) } } else .next s

end Sys2Proof.Machine
end

