-- ==== Sys2Proof/Machine/Isolation.lean ====
section
/-! DEFINITION. Isolation: quads and partitions (R299, R300, R325), slots of memory (R301), regions (R307), encoder engines (R305),
translations (R311), measurement and attestation (R323, R324), and the maker's unlock. -/
namespace Sys2Proof.Machine

/-! ### Held pages (R313) -/

/-- The pages that the commands of an engine hold. -/
def Engine.holds (g : Engine) : List PageHold :=
  g.cmds.flatMap (·.holds) ++ (match g.waiting with | some k => k.holds | none => [])

/-- The pages that a context's commands hold, those that an open atomic block buffers included. -/
def Ctx.holds (x : Ctx) : List PageHold :=
  x.eng.holds ++ match x.cr.atomic with
    | some a => a.effects.flatMap fun e => match e with | .copy k => k.holds | _ => []
    | none => []

/-- The pages held for a core: those of its contexts, of ended ones, and of its spindle's area (R332). -/
def Core.holds (k : Core) : List PageHold :=
  k.live.holds ++ k.shA.holds ++ k.shB.holds ++ k.orphans.flatMap (·.holds)
    ++ (match k.spindle with | some p => p.holds | none => [])

/-- Whether the context of a slot lies in its shaving, the streaming of it included. -/
def State.inShaving (s : State) (dom n : Nat) : Bool :=
  let x := s.slot dom n
  x.st != .free && match s.whereIs x.core (dom, n) with
    | .live => false
    | .shadow b => (s.core x.core).use b == .restoring
    | .away => true

/-- The pages held in the package, those of reports and the holds that travel with shavings included (R129, R313, R324). -/
def State.allHolds (s : State) : List PageHold :=
  (s.cores.flatMap fun e => e.2.holds)
    ++ (s.dies.flatMap fun e => e.2.queue.flatMap (·.holds)
          ++ e.2.busy.flatMap fun b => match b.2 with | some q => q.holds | none => [])
    ++ (s.parts.flatMap fun e => e.2.attest.flatMap (·.holds))
    ++ s.slots.flatMap fun e =>
      if s.inShaving (e.1 / 4096) (e.1 % 4096) then (match e.2.images with | i :: _ => i.2.holds | [] => []) else []

/-- The physical address at which a region begins (R306, R307). -/
def regionBase (i : Nat) : Nat := i / 120 * 2 ^ 36 + i % 120 * 2 ^ 29

/-- Whether some command holds a page in a region. -/
def State.regionHeld (s : State) (i : Nat) : Bool := s.allHolds.any fun h => meets h.pa h.size (regionBase i) (2 ^ 29)

/-! ### Regions (R307) -/

/-- A region byte's OWNER. -/
def regOwner (v : Byte) : BitVec 6 := v.extractLsb' 0 6

/-- A region byte's ASSIGNED. -/
def regAssigned (v : Byte) : Bool := v.getLsbD 6

/-- A region's byte as it reads. -/
def Region.byte (r : Region) : Byte := BitVec.ofNat 8 (r.owner.toNat + 64 * ofBool r.assigned + 128 * ofBool r.zeroing)

/-- Whether a write of a region's byte is refused: the region's stack belongs to the other domain (R307). -/
def regionRefused (i : Nat) (v : Byte) : Bool :=
  960 ≤ i || (regAssigned v && domOfQuad (regOwner v).toNat != Config.domOfDie (i / 120))

/-- REGOWN_WRITE (R307): a write that sets ASSIGNED, or changes OWNER while ASSIGNED is 1, waits for holds and then zeroes the region;
another takes effect at once; a later write supersedes one that waits. (DEDUCED, log entry 71.) -/
def execRegownWrite (region : Nat) (v : Byte) (s : State) : Out State :=
  let r := s.region region
  if regionRefused region v then .next s
  else if (regAssigned v ∧ ¬ r.assigned) ∨ (r.assigned ∧ regOwner v ≠ r.owner) then
    .next (s.modRegion region fun r => { r with waiting := some v })
  else .next (s.modRegion region fun r => { r with owner := regOwner v, assigned := regAssigned v, waiting := none })

/-- REGION_ZEROING (R307): no command holds a page of the region any more; the write takes effect and zeroing begins. (DEDUCED, log entry 71.) -/
def execRegionZeroing (region : Nat) (s : State) : Out State :=
  match (s.region region).waiting with
  | some v =>
    if s.regionHeld region then .next s
    else .next (s.modRegion region fun _ => { owner := regOwner v, assigned := regAssigned v, zeroing := true, waiting := none })
  | none => .next s

/-- Whether a key lies in a range. -/
def within (k lo n : Nat) : Bool := lo ≤ k && decide (k < lo + n)

/-- Memory with a range of bytes written with zeros, its lines whole and valid again (R307, R349). -/
def State.zeroRange (s : State) (lo n : Nat) : State :=
  { s with
    mem := s.mem.filter fun e => !within e.1 lo n
    lineErr := s.lineErr.filter fun e => !within e.1 (lo / 64) (n / 64)
    poison := s.poison.filter fun e => !within e.1 (lo / 64) (n / 64)
    scrub := s.scrub.filter fun e => !within e.1 (lo / 64) (n / 64) }

/-- REGION_ZEROING_DONE (R307): the region is zero, and ZEROING returns to 0. -/
def execRegionZeroingDone (region : Nat) (s : State) : Out State :=
  if (s.region region).zeroing then
    .next ((s.zeroRange (regionBase region) (2 ^ 29)).modRegion region fun r => { r with zeroing := false })
  else .next s

/-! ### Quads (R299, R300, R325) -/

/-- The cores of a quad. -/
def quadCores (q : Nat) : List Nat := [4 * q, 4 * q + 1, 4 * q + 2, 4 * q + 3]

/-- A quad's PARTCFG as it reads (R299). -/
def Quad.word (q : Quad) : Word :=
  BitVec.ofNat 64 (pack [(6, q.owner.toNat), (1, ofBool q.active), (1, ofBool q.clear), (1, ofBool q.borrow), (1, ofBool q.host),
    (1, ofBool q.debug), (1, ofBool q.err)])

/-- A core's tasks and preloads evicted (R300, R287): a task bound to it that has not started is READY again, and no switch begins there. -/
def State.evictCore (s : State) (c : Nat) : State :=
  let s1 := (s.dropPreload c false).dropPreload c true
  let s2 := match s1.boundTo c with
    | some n => s1.modSlot (Config.domOf c) n fun x => { x with st := .ready }
    | none => s1
  if (s2.core c).hasLive then s2.ask c else s2.modCore c fun k => (k.noSwitch false).noSwitch true

/-- Whether ACTIVE := 0 is refused for a quad: another active quad names it (R300). -/
def State.deactivateRefused (s : State) (q : Nat) : Bool :=
  (s.quad q).owner.toNat == q && (List.range 48).any fun p => p != q && (s.quad p).active && (s.quad p).owner.toNat == q

/-- Whether a slot of a partition that ends is still needed (R300): its context is live, or is being saved to the partition's area, or the
commands of its task have not completed. -/
def State.lingers (s : State) (dom n : Nat) : Bool :=
  let x := s.slot dom n
  (x.st == .running && (match s.whereIs x.core (dom, n) with | .away => false | _ => true)) || (x.st == .completing && s.working dom n)

/-- The slots of a partition that a test picks freed without events (R300). -/
def State.freeSlots (s : State) (o : Nat) (p : Nat → Bool) : State :=
  let dom := domOfQuad o
  ((s.slotsOf dom).filter fun n => (s.slot dom n).owner == o && p n).foldl (fun (a : State) n => a.freeUp dom n) s

/-- The partition of an owner quad ends (R300): its slots are freed, its contracts closed, its imports removed, its exports revoked and its
PMRs zeroed; a slot that is still needed is freed by the clearing of the quad on which its task runs. (DEDUCED, log entry 69.) -/
def State.endPartition (s : State) (o : Nat) : State :=
  let dom := domOfQuad o
  let s1 := s.modPart o fun p => { p with imports := [], pmr := [], kept := [], attest := [], ended := true }
  let s2 := (s1.slotsOf dom).foldl (fun (a : State) n =>
    if (a.slot dom n).owner = o ∧ ¬ a.lingers dom n then a.dropShadow dom n else a) s1
  let s3 := s2.exports.foldl (fun (a : State) e =>
    if e.2.valid ∧ e.2.owner = o then a.revoke (handleOf (e.1 / 4096) (e.1 % 4096) e.2.check) else a) (s2.freeSlots o fun n => !s2.lingers dom n)
  { s3 with
    contracts := s2.contracts.filter fun e => !(e.2.isOpen && e.2.owner == o) }

/-- ACTIVE := 0 for a quad (R300); false where it is refused. An owner quad's partition ends. -/
def State.deactivate (s : State) (q : Nat) : State × Bool :=
  if ¬ (s.quad q).active then (s, true)
  else if s.deactivateRefused q then (s.modQuad q fun x => { x with err := true }, false)
  else
    let s1 := (quadCores q).foldl (fun (a : State) c => a.evictCore c) (s.modQuad q fun x => { x with active := false, clear := true })
    (if (s.quad q).owner.toNat = q then s1.endPartition q else s1, true)

/-- QUAD_DEACTIVATE (R300). -/
def execQuadDeactivate (quad : Nat) (s : State) : Out State := .next (s.deactivate quad).1

/-- Whether ACTIVE := 1 is refused for a quad with an OWNER (R300): the other domain, a quad above it, or an owner that does not name
itself. (DEDUCED, log entry 70.) -/
def State.activateRefused (s : State) (q o : Nat) : Bool :=
  domOfQuad o != domOfQuad q || decide (q < o) || (o != q && (s.quad o).owner.toNat != o)

/-- ACTIVE := 1 for a quad (R300); a partition that forms has its PMRs zeroed (R323). (DEDUCED, log entry 70.) -/
def State.activate (s : State) (q : Nat) : State × Bool :=
  let o := (s.quad q).owner.toNat
  if (s.quad q).active then (s, true)
  else if s.activateRefused q o then (s.modQuad q fun x => { x with err := true }, false)
  else
    let s1 := s.modQuad q fun x => { x with active := true }
    (if o = q then s1.modPart q fun p => { p with pmr := [], ended := false } else s1, true)

/-- QUAD_ACTIVATE (R300): no quad becomes active before bring-up has started the dies, nor in recovery (R321, R400). -/
def execQuadActivate (quad : Nat) (s : State) : Out State := .next (if s.hub.up then (s.activate quad).1 else s)

/-- PARTCFG given a value, that which R401 leaves, its bit 11 being what is left of ERR (R299, R300): OWNER only while ACTIVE and CLEAR are 0,
then ACTIVE, then BORROW, HOST and ERR; false where it is refused, the register then unchanged but for ERR. -/
def State.partcfgWrite (s : State) (q : Nat) (v : Word) : State × Bool :=
  let x := s.quad q
  let o : BitVec 6 := v.extractLsb' 0 6
  let refuse := (s.modQuad q fun x => { x with err := true }, false)
  if o ≠ x.owner ∧ (x.active ∨ x.clear) then refuse
  else
    let s1 := s.modQuad q fun x => { x with owner := o }
    if v.getLsbD 6 ∧ ¬ x.active ∧ s1.activateRefused q o.toNat then refuse
    else if ¬ v.getLsbD 6 ∧ x.active ∧ s1.deactivateRefused q then refuse
    else
      let s2 := if v.getLsbD 6 then (s1.activate q).1 else (s1.deactivate q).1
      (s2.modQuad q fun x =>
        { x with borrow := v.getLsbD 8, host := v.getLsbD 9, err := v.getLsbD 11 }, true)

/-- Whether everything that a quad's clearing waits for is done (R300): its contexts are saved or their saves have failed (R328), its commands
complete, and its writes applied. -/
def State.quadStill (s : State) (q : Nat) : Bool :=
  (quadCores q).all fun c =>
    let k := s.core c
    !k.hasLive && [false, true].all (fun b => k.use b == .empty || k.use b == .held && !s.toSave c b) && k.spindle == none && k.orphans == []
      && !(s.dies.any fun e => (e.2.queue.any fun x => x.core == c)
            || e.2.busy.any fun b => match b.2 with | some x => x.core == c | none => false)
      && !(s.sent.any fun w => w.die != 8 && w.core == c)

/-- Every state element of the cores of a quad, and its cluster SRAM, zero; the translations kept for them and their requests in every queue
are gone (R325). (DEDUCED, log entry 69.) -/
def State.clearQuad (s : State) (q : Nat) : State :=
  let s1 := { s with
    cores := s.cores.filter fun e => e.1 / 4 != q
    cluster := s.cluster.filter fun e => e.1 / 2 ^ 25 != q
    clusBad := s.clusBad.filter fun e => 8 * e.1 / 2 ^ 25 != q
    barOwner := s.barOwner.filter fun e => !within e.1 (2 ^ 60 + q * 2 ^ 25) (2 ^ 25)
    senders := s.senders.filter fun x => x.core / 4 != q
    tlZero := (quadCores q).foldl (fun t c => put 0 t c s.cc) s.tlZero
    enqueued := s.enqueued.filter fun x => x.core / 4 != q
    sent := s.sent.filter fun w => w.die == 8 || w.core / 4 != q
    dies := mapTable Die.cleared (fun x => { x with
      queue := x.queue.filter fun y => y.core / 4 != q
      busy := mapTable none (fun b => b.filter fun y => y.core / 4 != q) x.busy }) s.dies }
  (s1.modPart (s.ownerOf q) fun p => { p with kept := [] }).modQuad q fun x => { x with pages := [] }

/-- QUAD_CLEARING (R300, R325): once saves and commands have finished, the quad's state is zeroed; where its partition has ended, the
slots of the tasks that ran there are freed. -/
def execQuadClearing (quad : Nat) (s : State) : Out State :=
  if ¬ (s.quad quad).clear ∨ ¬ s.quadStill quad then .next s
  else
    let o := s.ownerOf quad
    .next ((if (s.part o).ended then s.freeSlots o fun n => (s.slot (domOfQuad o) n).core / 4 == quad else s).clearQuad quad)

/-- Whether a quad's state is that of a cleared quad. -/
def State.quadCleared (s : State) (q : Nat) : Bool :=
  ((quadCores q).all fun c => decide (s.core c = Core.cleared)) && s.cluster.all (fun e => e.1 / 2 ^ 25 != q) && s.clusBad.all fun e => 8 * e.1 / 2 ^ 25 != q

/-- QUAD_CLEAR_DONE (R300): clearing has ended, and CLEAR returns to 0. -/
def execQuadClearDone (quad : Nat) (s : State) : Out State :=
  if (s.quad quad).clear ∧ s.quadCleared quad then .next (s.modQuad quad fun x => { x with clear := false }) else .next s

/-- MAKER_DEBUG_UNLOCK (R325): a signed unlock clears every quad, zeroes every assigned region, and sets DEBUG in every PARTCFG; one
that is not signed does nothing. -/
def execMakerDebugUnlock (signed : Bool) (s : State) : Out State :=
  if ¬ signed then .next s
  else
    let s1 := (List.range 48).foldl (fun (a : State) q => (a.clearQuad q).modQuad q fun x => { x with debug := true }) s
    let s2 := s1.regions.foldl (fun (a : State) e => if e.2.assigned then a.zeroRange (regionBase e.1) (2 ^ 29) else a) s1
    .next { s2 with hub := { s2.hub with unlocked := true } }

/-! ### Slots of memory and encoder engines -/

/-- Whether a partition's counts would raise a stack's sum above 240 (R301). -/
def State.slotsRefused (s : State) (o : Nat) (v : Word) : Bool :=
  (List.range 8).any fun i =>
    240 < bits v.toNat (8 * i + 7) (8 * i)
      + s.parts.foldl (fun n e => if e.1 = o then n else n + bits e.2.partslot.toNat (8 * i + 7) (8 * i)) 0

/-- PARTSLOT_WRITE (R301). -/
def execPartslotWrite (owner : Nat) (v : Word) (s : State) : Out State :=
  if s.slotsRefused owner v then .next (s.setErr owner) else .next (s.modPart owner fun p => { p with partslot := v })

/-- ENCOWN_WRITE (R305): the register changes at once, and each engine's owner when its queue has emptied. -/
def execEncownWrite (die : Nat) (v : Word) (s : State) : Out State :=
  if die = 3 ∨ die = 7 then .next (s.modDie die fun x => { x with encown := v.extractLsb' 0 28 }) else .next s

/-- The owner that ENCOWN names for an engine, plus 1; 0 for none. -/
def Die.named (x : Die) (j : Nat) : Nat :=
  if x.encown.getLsbD (24 + j) then bits x.encown.toNat (6 * j + 5) (6 * j) + 1 else 0

/-- ENCOWN_EFFECT (R305): an engine whose queue has emptied takes its new owner. -/
def execEncownEffect (die engine : Nat) (s : State) : Out State :=
  let x := s.die die
  if 4 ≤ engine ∨ (x.queue.any fun q => q.engine == engine) then .next s
  else .next (s.modDie die fun y => { y with inForce := put 0 y.inForce engine (x.named engine) })

/-! ### Translations (R311) -/

/-- The translations of a partition that cover an address removed from every walker cache. (DEDUCED, log entry 85.) -/
def State.invalidate (s : State) (o va : Nat) : State :=
  s.modPart o fun p =>
    { p with kept := p.kept.filter fun k => !within va k.va k.size, invalid := some (some va) }

/-- Every translation of a partition removed. -/
def State.invalidateAll (s : State) (o : Nat) : State := s.modPart o fun p => { p with kept := [], invalid := some none }

/-- TLB_INVALIDATE (R311). -/
def execTlbInvalidate (core : Nat) (va : BitVec 40) (s : State) : Out State :=
  .next (s.invalidate (s.partOf core) (va.toNat * 65536))

/-- TLB_INVALIDATE_ALL (R311). -/
def execTlbInvalidateAll (core : Nat) (s : State) : Out State := .next (s.invalidateAll (s.partOf core))

/-- Whether a held page is one of a partition's that covers an address; any page of it, for no address. -/
def PageHold.covers (h : PageHold) (o : Nat) (va : Option Nat) : Bool :=
  h.own == o && match va with | some x => within x h.at_ h.room | none => true

/-- HELD (R311): a hold remains on a page of the range that a partition last invalidated. -/
def State.tlbHeld (s : State) (o : Nat) : Bool :=
  match (s.part o).invalid with
  | none => false
  | some va => s.allHolds.any fun h => h.covers o va

/-! ### Measurement and attestation (R323, R324) -/

/-- What a register write that reads memory ends in: what it answers, a trap with the state it leaves, or a wait. -/
abbrev Named (α : Type) := Except (Option (State × Cause × Word)) α

/-- The die on whose behalf a register write that names memory binds a leaf: the core's, and none for a window (R315). -/
def binder (host : Bool) (c : Nat) : Option Nat := if host then none else some (Config.dieOf c)

/-- The 64 bytes that a write of PMREXT or ATTREQ names, from the global or the pool-window class; a reserved field that is not zero
traps ILLEGAL. A core writes at its context's privilege, a window, `host`, at guest privilege or above (R319) and binds no leaf (R315). -/
def State.namedBlock (s : State) (c : Nat) (host : Bool) (v : Word) (ixOk : Bool) : Named (State × List Byte) :=
  let a := BitVec.ofNat 64 (bits v.toNat 55 6 * 64)
  if bits v.toNat 5 2 ≠ 0 ∨ bits v.toNat 63 56 ≠ 0 ∨ ¬ ixOk then .error (some (s, .illegal, 0))
  else if ¬ (isGlobal a || isS a) then .error (some (s, .addr, a))
  else
    match s.resolveAs (binder host c) (!host && s.isUser c) c a 64 true false with
    | .fault t e i => .error (some (t, e, i))
    | .stall => .error none
    | .at s1 l =>
      if ¬ host ∧ s1.waitsAt c l then .error none
      else if s1.uncorrAt c l 64 then .error (some (s1, .uncorr, uncorrInfo a))
      else .ok (if host then s1 else s1.touched c l 64, s1.bytesAt c l 64)

/-- A measurement register after an extension (R323): SHA-384 of its bytes and d. -/
def extend (old : BitVec 384) (d : List Byte) : BitVec 384 := BitVec.ofNat 384 (leNat (sha384 (leBytes 48 old.toNat ++ d)))

/-- PMREXT written for a core (R323). -/
def State.pmrWrite (s : State) (c : Nat) (host : Bool) (v : Word) : Named State :=
  match s.namedBlock c host v true with
  | .error e => .error e
  | .ok (s1, bs) =>
    if (bs.drop 48).any (· != 0) then .error (some (s1, .illegal, 0))
    else .ok (s1.modPart (s.partOf c) fun p => { p with pmr := update 0 p.pmr (bits v.toNat 1 0) fun r => extend r (bs.take 48) })

/-- A measurement register of the hypervisor's, MR2 to MR7, extended (R323). (DESIGN CHOICE, log entry 100.) -/
def State.mrExtend (s : State) (i : Nat) (d : BitVec 384) : State :=
  if 2 ≤ i ∧ i < 8 then { s with hub := { s.hub with mr := update 0 s.hub.mr i fun r => extend r (leBytes 48 d.toNat) } } else s

/-- PMR_EXTEND (R323): PMREXT is written through a window for a core, or the hypervisor extends a register of its own; a write that would
trap has no effect. (DESIGN CHOICE, log entry 100.) -/
def execPmrExtend (core : Nat) (x : Extension) (s : State) : Out State :=
  match x.mr with
  | some (i, d) => .next (s.mrExtend i d)
  | none =>
    match s.pmrWrite core true x.word with
    | .ok s1 => .next s1
    | .error _ => .next s

/-- The page that n bytes of a report lie in, held as a command's is (R128, R313): none outside the global class. -/
def State.reportHold (s : State) (c : Nat) (host : Bool) (a : Word) (n : Nat) : List PageHold :=
  match placeOf a with
  | .global va =>
    match s.walk (s.partOf c) (binder host c) va false true (!host && s.isUser c) with
    | .ok _ pa v size => [{ ext := 0, va := a.toNat, pa := pa, size := n, own := s.partOf c, at_ := v, room := size }]
    | _ => []
  | _ => []

/-- The places of so many pieces of 64 bytes from an address on, resolved for writing, with the pages held for them. -/
def State.reportPlaces (s : State) (c : Nat) (host : Bool) : Nat → Word → Named (State × List Loc × List PageHold)
  | 0, _ => .ok (s, [], [])
  | n + 1, a =>
    let size := if n = 0 then 48 else 64
    match s.resolveAs (binder host c) (!host && s.isUser c) c a size false true with
    | .fault t e i => .error (some (t, e, i))
    | .stall => .error none
    | .at s1 l =>
      match s1.reportPlaces c host n (plus a 64) with
      | .ok (s2, ls, hs) => .ok (s2, l :: ls, s1.reportHold c host a size ++ hs)
      | .error e => .error e

/-- ATTREQ written for a core (R324): the request is accepted with its nonce and flag, for the context that is live there, and with the
places of its report, which are translated and held as those of a command are (R313). (DEDUCED, log entry 77.) -/
def State.attestWrite (s : State) (c : Nat) (host : Bool) (v : Word) : Named State :=
  match s.namedBlock c host v (bits v.toNat 1 0 == 0) with
  | .error e => .error e
  | .ok (s1, bs) =>
    match s1.reportPlaces c host 12 (BitVec.ofNat 64 (bits v.toNat 55 6 * 64 + 64)) with
    | .error e => .error e
    | .ok (s2, ls, hs) =>
      let q : Attest :=
        { core := c, task := s.aim c, nonce := bs.take 48, flag := descNat bs 48 1 % 64, places := ls, holds := hs }
      .ok (s2.modPart (s.partOf c) fun p => { p with attest := p.attest ++ [q] })

/-- ATTEST_REQUEST (R324): ATTREQ is written through a window for a core. (DEDUCED, log entry 77.) -/
def execAttestRequest (core : Nat) (v : Word) (s : State) : Out State :=
  match s.attestWrite core true v with
  | .ok s1 => .next s1
  | .error _ => .next s

/-- CAP of a core (R391). -/
def capOf (c : Nat) : Nat :=
  pack [(5, (profBits c).toNat), (3, 0), (3, Config.dieOf c), (1, ofBool (Config.isB (Config.dieOf c))), (1, Config.domOf c), (8, c),
    (6, Config.quadOf c), (5, 0), (16, layoutOf c)]

/-- A report before its signature (R324). -/
def State.reportBody (s : State) (o c : Nat) (nonce : List Byte) : List Byte :=
  let quads := (s.quadsOf o).foldl (fun a q => a + 2 ^ q) 0
  leBytes 4 0x41384456 ++ leBytes 4 1 ++ leBytes 8 s.time ++ leBytes 8 (quads + 2 ^ 48 * ofBool (s.quad o).debug) ++ leBytes 8 (capOf c)
    ++ fit 48 nonce ++ ((List.range 8).flatMap fun i => leBytes 48 (get 0 s.hub.mr i).toNat)
    ++ (List.range 4).flatMap fun i => leBytes 48 (get 0 (s.part o).pmr i).toNat

/-- A report: 656 bytes and the signature over them with the alias key (R324). -/
def State.report (s : State) (o c : Nat) (nonce : List Byte) : List Byte :=
  let b := s.reportBody o c nonce
  b ++ fit 96 ((s.aliasKey.map fun k => ecdsaSign k b).getD [])

/-- Whether the context that a request came from is not live on its core: what the request writes to the pool then waits for it, or is dropped
where it has ended. -/
def State.attestAway (s : State) (q : Attest) : Bool := q.task.isSome && decide (s.aim q.core ≠ q.task ∨ ¬ (s.core q.core).hasLive)

/-- A report written by the security engine at its places, 64 bytes at a time. -/
def State.reportAt (s : State) (q : Attest) (ls : List (List Byte)) : State :=
  (q.places.zip ls).foldl (fun (t : State) e =>
    match e.1 with
    | .phys pa => t.applyAt pa e.2
    | l => if s.attestAway q then t else (t.storeAt q.core l e.2).1) s

/-- ATTEST_REPORT (R324): the oldest request of a partition is answered, and the flag it names rises; a report into the pool waits until its
context is live. (DEDUCED, log entry 22.) (DEDUCED, log entry 77.) -/
def execAttestReport (ix : Nat) (s : State) : Out State :=
  match (s.part ix).attest with
  | [] => .next s
  | q :: rest =>
    if q.places.any isScr ∧ s.attestAway q ∧ ¬ q.task.any s.gone then .next s
    else
      let s1 := s.reportAt q (pieces 64 12 (s.report ix q.core q.nonce))
      .next ((s1.modPart ix fun p => { p with attest := rest }).bumpFor q.task q.core { flag := q.flag, time := s.time, kv := [], src := .remote })

end Sys2Proof.Machine
end

