-- ==== Sys2Proof/Machine/Observe.lean ====
section
/-! DEFINITION. Observation: debug stops, steps, DUMP and LOAD (R375 to R382), trace samples (R373), the time-loss counters (R384),
replay (R387 to R389), and the capture stop (R361). -/
namespace Sys2Proof.Machine

/-- The state with the debug registers of a core replaced by a function of them. -/
def State.modDbg (s : State) (c : Nat) (f : Debug → Debug) : State := s.modCore c fun k => { k with dbg := f k.dbg }

/-- The state with the watch registers of a core replaced by a function of them. -/
def State.modWatch (s : State) (c : Nat) (f : Watch → Watch) : State := s.modCore c fun k => { k with watch := f k.watch }

/-! ### Stops (R375, R376) -/

/-- The cores of a scope, seen from a core (R375): itself, its quad, its partition's cores on its die, its partition. -/
def State.scopeCores (s : State) (c : Nat) (scope : BitVec 2) : List Nat :=
  if scope = 0 then [c]
  else if scope = 1 then quadCores (Config.quadOf c)
  else
    let l := s.coresOf (s.partOf c)
    if scope = 2 then l.filter fun k => Config.dieOf k == Config.dieOf c else l

/-- A DBGCMD write that is refused sets ERR (R375). -/
def State.dbgErr (s : State) (c : Nat) : State := s.modDbg c fun d => { d with err := true }

/-- The six STOP records of a cut (R371). R383 has no class for the snapshot unit. (DEDUCED, log entry 90.) -/
def State.traceStop (s : State) (c : Nat) : State :=
  let x := s.ctx c
  let s1 := [Stream.ctl, .ld, .mx, .st].foldl (fun (a : State) sm =>
    a.trace c 3 (a.seqName c sm) ((x.seq sm).icnt % 2 ^ 32 + 2 ^ 32 * ofBool (!(x.seq sm).flight.isEmpty))) s
  let flies := fun (snap : Bool) => 2 ^ 32 * ofBool (x.eng.cmds.any fun k => isSnap k.instr == snap && k.started)
  let s2 := s1.trace c 3 (s1.engName c 4 0 (lossCode x.eng.head)) (x.eng.lines % 2 ^ 32 + flies false)
  s2.trace c 3 (s2.engName c 5 0 (lossCode (if x.eng.cmds.any fun k => isSnap k.instr then .engine else .empty)))
    (x.eng.snapLines % 2 ^ 32 + flies true)

/-- A debug stop takes effect at the end of a cycle (R376): an atomic block in progress is discarded, STOPPED and WHY are written, and
the cut is recorded. (DEDUCED, log entry 49.) -/
def State.stopNow (s : State) (c why : Nat) : State :=
  ((s.modCtx c fun x =>
    { x.discard with mat := { x.mat with segDebug := true }, stopAt := s.timeOf (Config.quadOf c) }).modDbg c fun d =>
      { d with stopped := true, why := why, step := none, request := none }).traceStop c

/-- STOP (R375, R376, R381): every core of the scope that is not stopped is asked to stop; the named core must not be. -/
def execStop (core : Nat) (scope : BitVec 2) (s : State) : Out State :=
  if (s.core core).dbg.stopped then .next (s.dbgErr core)
  else
    .next ((s.scopeCores core scope).foldl (fun (a : State) c => if (a.core c).dbg.stopped then a else a.askStop c 1) s)

/-- A stopped core released (R378, R379): what was counted aside joins its flags. -/
def State.releaseCore (s : State) (c : Nat) : State :=
  let d := (s.core c).dbg
  if ¬ d.stopped then s
  else
    (d.aside.foldl (fun (a : State) e => a.bumpCore c e)
      (s.modDbg c fun d => { d with stopped := false, step := none, aside := [] }))

/-- RUN (R379, R381). -/
def execRun (core : Nat) (scope : BitVec 2) (s : State) : Out State :=
  if ¬ (s.core core).dbg.stopped then .next (s.dbgErr core)
  else .next ((s.scopeCores core scope).foldl (fun (a : State) c => a.releaseCore c) s)

/-! ### Steps (R380) -/

/-- A step begins: the core is released for one sequencer. -/
def State.beginStep (s : State) (c : Nat) (sq : Stream) (retire : Bool) : State :=
  if ¬ (s.core c).dbg.stopped then s.dbgErr c
  else s.modDbg c fun d => { d with stopped := false, step := some (retire, sq, (s.seq c sq).icnt, 0) }

/-- STEP_ISSUE (R380). -/
def execStepIssue (core : Nat) (sq : Stream) (s : State) : Out State := .next (s.beginStep core sq false)

/-- STEP_RETIRE (R380). -/
def execStepRetire (core : Nat) (sq : Stream) (s : State) : Out State := .next (s.beginStep core sq true)

/-- Whether a core's step has reached its end (R380): the unit has issued, and for STEP_RETIRE that unit has retired. -/
def State.stepDone (s : State) (c : Nat) : Bool :=
  match (s.core c).dbg.step with
  | some (retire, sq, n, _) =>
    n < (s.seq c sq).icnt
      && (!retire || (s.seq c sq).flight.all fun f => f.no != n + 1 || f.settled (s.ctx c).eng.cmds)
  | none => false

/-- STEP_END (R380). -/
def execStepEnd (core : Nat) (s : State) : Out State := if s.stepDone core then .next (s.stopNow core 3) else .next s

/-- The live cycles after which a step is given up (R380). -/
def stepLimit : Nat := 65536

/-- STEP_TIMEOUT (R380). -/
def execStepTimeout (core : Nat) (s : State) : Out State :=
  match (s.core core).dbg.step with
  | some (_, _, _, n) => if stepLimit ≤ n then .next (s.stopNow core 4) else .next s
  | none => .next s

/-! ### DUMP and LOAD (R379) -/

/-- A DUMP (1) or LOAD (2) begins on a stopped core. -/
def State.beginMove (s : State) (c what : Nat) : State :=
  if ¬ (s.core c).dbg.stopped then s.dbgErr c else s.modDbg c fun d => { d with busy := what, done := false }

/-- DUMP (R379). -/
def execDump (core : Nat) (s : State) : Out State := .next (s.beginMove core 1)

/-- LOAD (R379). -/
def execLoad (core : Nat) (s : State) : Out State := .next (s.beginMove core 2)

/-- The end of a DUMP or LOAD: DONE, and ERR when it failed. -/
def State.endMove (s : State) (c : Nat) (ok : Bool) : State :=
  s.modDbg c fun d => { d with busy := 0, done := d.done || ok, err := d.err || !ok }

/-- The address of DBGAREA. -/
def Debug.areaVa (d : Debug) : Nat := d.area.toNat * 65536

/-- DBGAREA's pages translated and held. -/
def State.holdDebug (s : State) (c : Nat) : State × List PageHold × Translated := s.holdArea (s.partOf c) c 113 (s.core c).dbg.areaVa areaSize

/-- What a DUMP works from: every segment, with IMM 0b1111. -/
def State.dumpJob (s : State) (c : Nat) (hs : List PageHold) : SaveJob :=
  { holds := hs, area := (s.core c).dbg.areaVa, core := c, ctx := s.ctx c, slice := (s.core c).liveSl, images := [], own := 0, imm := 15 }

/-- The context of a DUMP's granules, of which every row is saved. -/
def SaveJob.wholeRows (j : SaveJob) : SaveJob :=
  let x := { j.ctx with clean := (List.range 40).map fun i => (i, true), loc := { j.ctx.loc with tsh := [] } }
  { j with ctx := x, images := [(128, x)], own := BitVec.ofNat 128 (2 ^ 40 - 1) }

/-- A whole DUMP; none on a fault of the area. -/
def State.dumpAll (s : State) (j : SaveJob) (seq : Nat) : Option State :=
  match s.writeSegs j 40 with
  | none => none
  | some (s1, a) =>
    match s1.writeSegs j.wholeRows j.segments with
    | none => none
    | some (s2, b) => s2.writeHeader j.core j.holds j.area (j.header (a ||| b) (a ||| b) true seq)

/-- The saves a core's live task has made. -/
def State.savesOf (s : State) (c : Nat) : Nat := match (s.ctx c).task with | some t => (s.slot t.1 t.2).saves | none => 0

/-- DUMP_DONE (R379): the shaving stands in DBGAREA, its header last. (DEDUCED, log entry 76.) -/
def execDumpDone (core : Nat) (s : State) : Out State :=
  if (s.core core).dbg.busy ≠ 1 ∨ ¬ (s.core core).dbg.stopped then .next s
  else
    match s.holdDebug core with
    | (_, _, .wait) => .next s
    | (s1, _, .fault) => .next (s1.endMove core false)
    | (s1, hs, .whole) =>
      if ¬ s1.areaServed core hs then .next s1 else
      match s1.dumpAll (s1.dumpJob core hs) (s.savesOf core) with
      | some s2 => .next (s2.endMove core true)
      | none => .next (s1.endMove core false)

/-- The code for the memories that a LOAD's IMM leaves out. -/
def State.loadCode (s : State) (c imm : Nat) : Option (State × (Stream → Table Half)) :=
  match (s.ctx c).task with
  | some t => s.reload t.1 t.2 imm
  | none => some (s, fun sm => (s.seq c sm).imem)

/-- Whether a shaving's slice is split as a slice is. -/
def ShavingHeader.fits (h : ShavingHeader) (z : Slice) : Bool := h.tileg == z.tileg && h.scrg == z.scrg && h.constg == z.constg

/-- A core whose CAPSTOP a restore has written to 0 (R361). -/
def Core.noCapture (k : Core) : Core := { k with captStop := 0, captArm := false, captCount := none }

/-- LOAD_DONE (R379): DBGAREA is restored into the stopped context, after the checks of R344 apart from translation; to the task's own
shaving all of it has changed (R341). (DEDUCED, log entry 76.) -/
def execLoadDone (core : Nat) (s : State) : Out State :=
  let d := (s.core core).dbg
  let z := (s.core core).liveSl
  if d.busy ≠ 2 ∨ ¬ d.stopped then .next s
  else
    match s.holdDebug core with
    | (_, _, .wait) => .next s
    | (s1, _, .fault) => .next (s1.endMove core false)
    | (s1, hs, .whole) =>
      if ¬ s1.areaServed core hs then .next s1 else
      let bs := s1.areaBytes hs d.areaVa 64
      let h := ShavingHeader.read bs
      if h.layout ≠ layoutOf core ∨ ¬ h.fits z ∨ (s1.restoreFault hs d.areaVa core bs).isSome then .next (s1.endMove core false)
      else
        match s1.loadCode core h.imm with
        | none => .next (s1.endMove core false)
        | some (s2, code) =>
          let x := s2.restoreCtx hs d.areaVa (s2.ctx core) h.imm code
          .next ((((s2.restorePool hs d.areaVa core z).drawn.modCtx core fun _ => { x with clean := [] }).modCore core Core.noCapture).endMove
            core true)

/-! ### Samples (R373) and the time-loss account (R384) -/

/-- TRCSRC's writable bits. -/
def trcsrcMask : BitVec 17 := 0x1FF1F

/-- TRCSRC_WRITE (R373). -/
def execTrcsrcWrite (core : Nat) (v : Word) (s : State) : Out State :=
  .next (s.modWatch core fun w => { w with trcsrc := v.extractLsb' 0 17 &&& trcsrcMask, since := 0 })

/-- The sample period of a core. -/
def Watch.period (w : Watch) : Nat := 2 ^ ((w.trcsrc.extractLsb' 8 4).toNat + 8)

/-- Whether a core's cycle is a sample point (R373). -/
def Watch.sampleDue (w : Watch) : Bool := w.trcsrc.getLsbD 0 && w.since % w.period == 0

/-- TRACE_SAMPLE (R371, R373): one record for each selected head. -/
def execTraceSample (core : Nat) (s : State) : Out State :=
  let w := (s.core core).watch
  let x := s.ctx core
  let low := x.cr.slipcnt.toNat % 2 ^ 32 * 2 ^ 32
  if ¬ w.sampleDue then .next s
  else
    let s1 := [Stream.ctl, .ld, .mx, .st].foldl (fun (a : State) sm =>
      if w.trcsrc.getLsbD (12 + streamCode sm) then a.trace core 1 (s.seqName core sm) ((x.seq sm).icnt % 2 ^ 32 + low) else a) s
    .next (if w.trcsrc.getLsbD 16 then
      s1.trace core 1 (s.engName core 4 0 (lossCode x.eng.head)) (x.eng.lines % 2 ^ 32 + low)
    else s1)

/-- A core's time-loss counters set to 0 (R384). (DEDUCED, log entry 89.) -/
def State.clearLoss (s : State) (c : Nat) : State :=
  { s.modWatch c fun w => { w with tl := [] } with tlZero := put 0 s.tlZero c s.cc }

/-- TL_CLEAR (R384). -/
def execTlClear (core : Nat) (s : State) : Out State := .next (s.clearLoss core)

/-- A time-loss counter of a core (R384): the cycles of class EMPTY are those on which its head was in no other class.
(DEDUCED, log entry 89.) -/
def State.lossCount (s : State) (c ix : Nat) : Nat :=
  let t := (s.core c).watch.tl
  if ix < 20 ∧ ix % 4 = 3 then s.cc - get 0 s.tlZero c - (get 0 t (ix - 3) + get 0 t (ix - 2) + get 0 t (ix - 1)) else get 0 t ix

/-! ### Replay (R389) -/

/-- An entry of a replay log: the cut, the kind, the index and the value. -/
structure LogEntry where
  cut : List Nat
  kind : Nat
  ix : Nat
  value : Nat
  deriving DecidableEq, Repr

/-- The entry that a replaying core injects next; none at the end of the log. (DEDUCED, log entry 78.) -/
def State.nextEntry (s : State) (c : Nat) : Option LogEntry :=
  let w := (s.core c).watch
  if 1024 * 2 ^ Nat.min w.rplLog2n 12 ≤ w.rplCount then none
  else
    match s.hubReadAll (s.partOf c) 2 (w.rplBase.toNat * 64 + 32 * w.rplCount) 32 with
    | none => none
    | some (_, bs) =>
      let k := descNat bs 16 1
      if 1 ≤ k ∧ k ≤ 7 then
        some { cut := [descNat bs 0 4, descNat bs 4 4, descNat bs 8 4, descNat bs 12 4], kind := k, ix := descNat bs 17 1
               value := descNat bs 24 8 }
      else none

/-- Whether all four issue counts have reached an entry's cut. -/
def State.cutReached (s : State) (c : Nat) (e : LogEntry) : Bool :=
  [Stream.ctl, .ld, .mx, .st].all fun sm => (e.cut[streamCode sm]?).getD 0 ≤ (s.seq c sm).icnt

/-- Whether a sequencer has reached its value in the cut of the entry to be injected (R389). -/
def State.replayHolds (s : State) (c : Nat) (sm : Stream) : Bool :=
  let w := (s.core c).watch
  w.rplLive == 2 && w.rplHold == none
    && (match s.nextEntry c with | some e => (e.cut[streamCode sm]?).getD 0 ≤ (s.seq c sm).icnt | none => false)

/-- The increments of a flag that an entry counts, made one by one, each with its FLAG record (R371), whose source the log does not tell: it is
a free value. (DESIGN CHOICE, log entry 127.) -/
def State.injectFlag (s : State) (c f n : Nat) : State :=
  iterate (Nat.min n 256) (fun i (a : State) =>
    let b := a.modLinks c fun l => l.bump f (if i = 0 then n - Nat.min n 256 + 1 else 1)
    b.trace c 4 noName (f + ((b.ctx c).links.flag f).toNat * 256 + (Config.freeWord (s.free + i)).toNat % 4 * 2 ^ 16))
    { s with free := s.free + 256 }

/-- What an entry does to the context when it is injected (R388, R389). -/
def State.injected (s : State) (c : Nat) (e : LogEntry) : State :=
  if e.kind = 1 then s.injectFlag c (e.ix % 64) e.value
  else if e.kind = 2 then s.modLinks c fun l => l.vpush (e.ix % 3) { cut := false, val := BitVec.ofNat 64 e.value }
  else if e.kind = 3 then
    if e.ix = encoderPlace then s.modWatch c fun w => { w with rplDone := w.rplDone - 1 } else s.finishCmd c e.ix
  else s.modWatch c fun w => { w with rplHold := some [BitVec.ofNat 64 e.kind, BitVec.ofNat 64 e.value] }

/-- Whether the next entry of a replaying core may be injected on this cycle. (DEDUCED, log entry 78.) -/
def State.injectDue (s : State) (c : Nat) : Option LogEntry :=
  let w := (s.core c).watch
  if w.rplLive ≠ 2 ∨ w.rplHold ≠ none ∨ ¬ (s.core c).hasLive then none
  else
    match s.nextEntry c with
    | some e =>
      let ready := e.kind != 3 || (if e.ix = encoderPlace then decide (0 < w.rplDone) else decide (e.ix < 32) && s.mayFinish c e.ix)
      if s.cutReached c e ∧ ready then some e else none
    | none => none

/-- The entries of a replaying core that may be injected on this cycle, injected in log order (R389); fuel bounds them. -/
def State.injectAll (c : Nat) : Nat → State → State
  | 0, s => s
  | n + 1, s =>
    match s.injectDue c with
    | some e => State.injectAll c n ((s.injected c e).modWatch c fun w => { w with rplCount := w.rplCount + 1 })
    | none => s

/-- REPLAY_INJECT (R389): every entry due on the cycle. -/
def execReplayInject (core : Nat) (s : State) : Out State := .next (State.injectAll core 4096 s)

/-- Whether a unit of CTL takes an event from outside, by the kind of its entry (R388): 4 a load of another class than the pool's, 5 an
atomic, 6 `bwait`, 7 `time`. -/
def State.replayKind (s : State) (c : Nat) (q : Seq) (i : Instr) : Option Nat :=
  let scr := fun (a : BitVec 5) (o : BitVec 13) => isS (q.reg a.toNat + sext o) || !(s.core c).hasLive
  match i with
  | .ldB _ a o | .ldH _ a o | .ldW _ a o | .ldD _ a o => if scr a o then none else some 4
  | .amoAdd .. | .amoSwap .. | .amoCas .. | .amoMin .. | .amoMax .. | .amoAnd .. | .amoOr .. => some 5
  | .bwait .. => some 6
  | .time _ => some 7
  | _ => none

/-- The trap that a unit of CTL which takes an event would end in, if it does: such a unit is no event (R388). -/
def State.eventTraps (s : State) (c : Nat) (i : Instr) : Bool :=
  let r := match i with
    | .ldB d a o => execLdB d a o s
    | .ldH d a o => execLdH d a o s
    | .ldW d a o => execLdW d a o s
    | .ldD d a o => execLdD d a o s
    | .amoAdd d a b k => execAmoAdd d a b k s
    | .amoSwap d a b k => execAmoSwap d a b k s
    | .amoCas d a b k => execAmoCas d a b k s
    | .amoMin d a b k => execAmoMin d a b k s
    | .amoMax d a b k => execAmoMax d a b k s
    | .amoAnd d a b k => execAmoAnd d a b k s
    | .amoOr d a b k => execAmoOr d a b k s
    | .bwait d a b => execBwait d a b s
    | .time d => execTime d s
    | _ => .next s
  match r with
  | .next t => (t.core c).sharp && !(s.core c).sharp
  | _ => false

/-- The kind of event that the unit of a replaying core's CTL takes: none where its guard is false, and none where it traps. -/
def State.eventKind (s : State) (c : Nat) (sm : Stream) (q : Seq) (i : Instr) : Option Nat :=
  if sm = .ctl ∧ s.unit.guard ∧ ¬ s.eventTraps c i then s.replayKind c q i else none

/-- A divergence of a replaying core at the unit of a sequencer (R389): the entry injected for CTL is not of the unit's kind, CTL's unit takes
an event and no entry is due at its cut, or the log has ended. The answer is the entry's index. A `bwait` without an entry is one that is
not met. -/
def State.diverges (s : State) (c : Nat) (sm : Stream) (q : Seq) (i : Instr) : Option Nat :=
  let w := (s.core c).watch
  if w.rplLive ≠ 2 then none
  else
    match w.rplHold with
    | some (k :: _) => if sm ≠ .ctl ∨ s.eventKind c sm q i = some k.toNat then none else some (w.rplCount - 1)
    | _ =>
      let kind := s.eventKind c sm q i
      if (s.nextEntry c).isNone ∨ (kind ≠ none ∧ kind ≠ some 6) then some w.rplCount else none

/-- A divergence raised (R389): BRK with EINFO[62] and the entry's index, and with a debugger attached a debug stop with WHY 5 whose cause and
EINFO are those of the BRK; the unit has not issued (R383). -/
def State.raiseDivergence (s : State) (c : Nat) (sm : Stream) (ix : Nat) : State :=
  let info : Word := BitVec.ofNat 64 (2 ^ 62 + ix % 2 ^ 32)
  if (s.core c).dbg.att then
    (((s.headHeld c sm).traceTrap c sm .brk info).modCr c fun r => { r with
      ecause := BitVec.ofNat 8 (causeCode .brk), einfo := info, estat := (r.estat &&& 0x7C) ||| BitVec.ofNat 7 (streamCode sm) }).askStop c 5
  else s.takeTrap c sm .brk info false

/-! ### The capture stop (R361) -/

/-- CAPTURE_STOP (R361): the counted cycles are complete; the stop is made, and BRK is raised with no trapping instruction. -/
def execCaptureStop (core : Nat) (s : State) : Out State :=
  let k := s.core core
  if ¬ k.hasLive ∨ ¬ k.captArm ∨ k.captCount ≠ some 0 then .next s
  else
    let stop := k.captStop.toNat
    let s1 := s.modCore core fun k => { k with captArm := false, captCount := none, demand := none }
    if k.dbg.att then
      let s2 := s1.traceTrap core .mx .brk (BitVec.ofNat 64 (2 ^ 63 + stop))
      .next (if k.dbg.stopped then s2.modDbg core fun d => { d with why := 6 } else s2.stopNow core 6)
    else
      let s2 := s1.modCr core fun r => { r with estat := r.estat &&& 0x7B }
      .next ((s2.takeTrapAt core .mx .brk (BitVec.ofNat 64 (2 ^ 63 + stop)) false false).leaveNow core)

end Sys2Proof.Machine
end

