-- ==== Sys2Proof/Machine/Package.lean ====
section
/-! DEFINITION. The package: frequency points (R392 to R394), the time base (R395), power control and rail samples (R385, R386, R397), wear
(R398), host ports (R399), bring-up (R400), and the writes that reach a home from another die or the hub (R258, R265). -/
namespace Sys2Proof.Machine

/-! ### Frequency -/

/-- The frequency of a point in MHz (R392). (DEDUCED, log entry 102.) -/
def pointMhz (p : Nat) : Nat := if p = 0 then 850 else if p = 1 then 765 else if p = 2 then 680 else if p = 3 then 595 else 425

/-- The state with the power registers replaced by a function of them. -/
def State.modPower (s : State) (f : Power → Power) : State := { s with power := f s.power }

/-- The state with the hub replaced by a function of it. -/
def State.modHub (s : State) (f : Hub → Hub) : State := { s with hub := f s.hub }

/-- Whether a write of FREQAT is refused (R393). -/
def State.freqRefused (s : State) (v : Word) : Bool := 4 < s.power.next.toNat || decide (v.toNat < s.time + 4000)

/-- FREQAT_WRITE (R393): it arms a change to NEXT at TIME AT, in place of one armed before, or is refused with ERR. (DEDUCED, log entry 79.) -/
def execFreqatWrite (v : Word) (s : State) : Out State :=
  if s.freqRefused v then .next (s.modPower fun p => { p with err := true })
  else .next (s.modPower fun p => { p with at_ := v, armed := p.next.toNat, pend := true })

/-- Whether some change of the point falls due at a TIME. -/
def Power.due (p : Power) (time : Nat) : Bool :=
  (p.pend && decide (p.at_.toNat ≤ time)) || (match p.ceilAt with | some t => t ≤ time | none => false)

/-- The changes that are due take effect, and the point in force is the slower of the request and CEIL (R393, R394). (DEDUCED, log entry 79.) -/
def Power.change (p : Power) (time : Nat) : Power :=
  let p1 := if p.pend ∧ p.at_.toNat ≤ time then { p with request := p.armed, pend := false } else p
  let p2 := match p1.ceilAt with
    | some t => if t ≤ time then { p1 with ceilOn := p1.ceil, ceilAt := none } else p1
    | none => p1
  { p2 with cur := Nat.max p2.request p2.ceilOn }

/-- FREQUENCY_CHANGE (R394): what has passed of a tick of the time base stays the same part of it. The one cycle count of the package is every
region's, so they switch together, with the hub. (DESIGN CHOICE, log entry 126.) -/
def execFrequencyChange (s : State) : Out State :=
  if s.power.due s.time then
    let s1 := s.modPower fun p => p.change s.time
    .next { s1 with ttFrac := s.ttFrac * pointMhz s1.power.cur / pointMhz s.power.cur }
  else .next s

/-! ### Power control -/

/-- LIMIT as it acts (R397). -/
def Power.bound (p : Power) : Nat := Nat.min 2800 (Nat.max 1000 p.limit.toNat)

/-- The fastest point at which a draw scaled from a point meets the limit, or the slowest point (R397). -/
def fastestWithin (watts f limit : Nat) : Nat := ((List.range 4).find? fun g => watts * pointMhz g ≤ limit * pointMhz f).getD 4

/-- Power control at a window's end (R397): CEIL falls when the draw exceeds the limit, and rises by one point after 100 windows at or
below 0.95 of it, where the draw at that point would not exceed the limit; either acts 4,000 tt later. -/
def Power.control (p : Power) (watts time : Nat) : Power :=
  if p.bound < watts then { p with ceil := fastestWithin watts p.cur p.bound, ceilAt := some (time + 4000), quiet := 0 }
  else if 20 * watts ≤ 19 * p.bound then
    if p.quiet + 1 < 100 then { p with quiet := p.quiet + 1 }
    else if p.ceil = 0 ∨ p.bound * pointMhz p.cur < watts * pointMhz (p.ceil - 1) then { p with quiet := 0 }
    else { p with ceil := p.ceil - 1, ceilAt := some (time + 4000), quiet := 0 }
  else { p with quiet := 0 }

/-- The state in which a window of power control that has ended has acted with the package's mean draw, and the next has begun (R397). (DESIGN CHOICE, log entry 121.) -/
def State.endWindow (s : State) (watts : Nat) : State :=
  if s.time < s.hub.window then s
  else (s.modPower fun p => p.control watts s.time).modHub fun h => { h with window := h.window + 400000 }

/-- POWER_CONTROL_WINDOW (R397): a window of 400,000 tt ends, with the package's mean draw. (DEDUCED, log entry 80.) -/
def execPowerControlWindow (watts : Nat) (s : State) : Out State := .next (s.endWindow watts)

/-! ### Rail samples -/

/-- The package's sensors (R385). -/
def sensors : Nat := 132

/-- The quad whose core rail a sensor measures, if it is one (R385). -/
def sensorQuad (n : Nat) : Option Nat := if n < 128 ∧ n % 16 < 6 then some (6 * (n / 16) + n % 16) else none

/-- Whether a sensor number is in use. -/
def sensorUsed (n : Nat) : Bool := n < 128 && n % 16 ≤ 8 || 128 ≤ n && decide (n < 132)

/-- A power record (R386); the current and the voltage are free values. -/
def State.powerRecord (s : State) (n : Nat) : List Byte :=
  let w := (Config.freeWord (s.free + n)).toNat
  let corr := match sensorQuad n with
    | some q => (quadCores q).flatMap fun c => leBytes 4 (s.corr c)
    | none => List.replicate 16 0#8
  leBytes 8 s.time ++ leBytes 1 7 ++ leBytes 1 n ++ leBytes 2 (bits w 15 0) ++ leBytes 2 (bits w 31 16) ++ leBytes 2 0 ++ corr

/-- A record of the hub's own written into a partition's guest ring. -/
def State.pushGuest (s : State) (o : Nat) (rec : List Byte) : State :=
  let t := (s.part o).trace
  let a := pushRecord t s (fun s off b => s.hubWrite o (t.base.toNat * 64 + off) b)
    (recordBytes s.time 8 0xFF 0 noName (Nat.min t.lost (2 ^ 32 - 1))) rec
  a.1.modPart o fun p => { p with trace := a.2 }

/-- RAIL_SAMPLE (R385, R386): every sensor is sampled; a guest ring with PWR takes the rails of its partition's quads, the hyp ring every
one. (DEDUCED, log entry 80.) -/
def execRailSample (s : State) : Out State :=
  let rec1 := fun (n : Nat) => s.powerRecord n
  let used := (List.range sensors).filter sensorUsed
  let s1 := used.foldl (fun (a : State) n =>
    let a1 := match sensorQuad n with
      | some q =>
        let o := a.ownerOf q
        if (a.quad q).active ∧ (a.part o).trace.pwr then a.pushGuest o (rec1 n) else a
      | none => a
    if a1.hub.trace.pwr then a1.traceHyp (rec1 n) else a1) s
  .next { s1 with free := s.free + sensors }

/-! ### Wear -/

/-- WEARSEL_WRITE (R398): a code above 56 is refused. -/
def execWearselWrite (v : Word) (s : State) : Out State :=
  if bits v.toNat 5 0 ≤ 56 then .next (s.modPower fun p => { p with wearsel := v.extractLsb' 0 6 }) else .next s

/-- WEAR as a region reads it (R398): no estimate at first. -/
def State.wearOf (s : State) (r : Nat) : Word := get 0xFFFF#64 s.power.wear r

/-- WEAR_UPDATE (R398): a region's predicted end of life, drift and stress are new; their values are free. -/
def execWearUpdate (region : Nat) (s : State) : Out State :=
  if 56 < region then .next s
  else .next { s.modPower (fun p => { p with wear := put 0xFFFF#64 p.wear region (Config.freeWord s.free) }) with free := s.free + 1 }

/-! ### The time base -/

/-- The code of the hub among the regions (R398). -/
def hubRegion : Nat := 56

/-- The host ports (R13). -/
def hostPorts : Nat := 2

/-- The pod-link ports (R10). -/
def podPorts : Nat := 24

/-- A package whose pod links have trained (R399) and whose TIME has been brought to the pod's, forward if at all (R395, R400): the speeds of
the links, and by how much TIME moves, are free. (DESIGN CHOICE, log entry 128.) -/
def State.joinPod (s : State) (ahead : Bool) : State :=
  { s with
    time := if ahead then s.time else s.time + (Config.freeWord s.free).toNat
    free := s.free + 1 + podPorts
    hub := { s.hub with
      joined := true
      slowLinks := (List.range podPorts).foldl (fun t p => put false t p ((Config.freeWord (s.free + 1 + p)).getLsbD 0)) [] } }

/-- Whether the host ports of a package have come to train after bring-up (R400). -/
def Hub.served (h : Hub) : Bool := h.up && (List.range hostPorts).any fun p => get false h.trained p

/-- TIME_CORRECTION (R395): a region that is ahead holds its count on a tick; one that is behind takes an extra tick. Within a package
regions never differ by more than 2 tt. A region holds at most one tick at a time, and takes an extra one at most once in 64 tt. The
correction of the hub's region is that of the package against the pod's reference, which every region follows; the first of them is the end
of bring-up (R400), after a host port has trained. (DESIGN CHOICE, log entry 128.) -/
def execTimeCorrection (region : Nat) (ahead : Bool) (s : State) : Out State :=
  let l := get 0 s.lag region
  let last := get 0 s.corrected region
  let s1 := { s with corrected := put 0 s.corrected region (s.time + 1) }
  if region = hubRegion then
    if ¬ s.hub.joined then .next (if s.hub.served then s.joinPod ahead else s)
    else if ahead then .next { s with adjust := some true }
    else if last = 0 ∨ last + 63 ≤ s.time then .next { s1 with adjust := some false }
    else .next s
  else if ahead then
    if s.ticked ∧ l < 2 ∧ last ≤ s.time then .next { s1 with lag := put 0 s.lag region (l + 1) } else .next s
  else if last = 0 ∨ last + 63 ≤ s.time then .next { s1 with lag := put 0 s.lag region (l - 1) }
  else .next s

/-! ### Host ports and bring-up -/

/-- HOST_PORT_TRAINING (R399): once bring-up has come to it (R400), a port that is not trained trains in a mode and a width; a port's mode
changes only at a reset of that port, `none`, after which it is not trained. (DESIGN CHOICE, log entry 7.) -/
def execHostPortTraining (port : Nat) (ucie2 : Option Bool) (narrow : Bool) (s : State) : Out State :=
  if s.hub.recovery ∨ ¬ s.hub.up ∨ hostPorts ≤ port then .next s
  else
    match ucie2 with
    | none => .next (s.modHub fun h => { h with trained := put false h.trained port false })
    | some mode =>
      if get false s.hub.trained port then .next s
      else
        .next (s.modHub fun h =>
          { h with trained := put false h.trained port true, ucie2 := put false h.ucie2 port mode, narrow := put false h.narrow port narrow })

/-- Free bytes, 8 from each free word. -/
def freeBytes (at_ n : Nat) : List Byte := (List.range n).flatMap fun i => leBytes 8 (Config.freeWord (at_ + i)).toNat

/-- POWER_ON_RESET (R400): bring-up in its order, up to the training of the host ports; MR0 and MR1 are extended by what boot measured, the
fuses fix the veneers, and HBM trains at 10 or 8 Gb/s: those values are free. The identity key signs the certificate of the alias key (R322).
A step that fails, of which the number is free, leaves the package in recovery, with what the steps before it extended.
(DEDUCED, log entry 81.) -/
def execPowerOnReset (ok : Bool) (s : State) : Out State :=
  let r := { State.reset with free := s.free + 62 }
  let failed := if ok then 10 else 1 + (Config.freeWord (s.free + 61)).toNat % 9
  let mr0 := if 2 < failed then [(0, extend 0 (freeBytes s.free 6))] else []
  let mr1 := if 3 < failed then [(1, extend 0 (freeBytes (s.free + 6) 6))] else []
  if ¬ ok then .next (r.modHub fun h => { h with recovery := true, mr := mr0 ++ mr1 })
  else
    let r1 := (List.range 48).foldl (fun (a : State) q =>
      a.modQuad q fun x => { x with veneer := (Config.freeWord (s.free + 12 + q)).getLsbD 0 }) r
    let r2 := r1.modHub fun h => { h with mr := mr0 ++ mr1, up := true, slowHbm := (Config.freeWord (s.free + 60)).getLsbD 0 }
    .next (r2.modHub fun h => { h with certificate := r2.aliasCertificate })

/-! ### Writes on their way (R258, R265) -/

/-- The core by whose number a write sent to a home takes its place among the operations of a cycle (R261): those of the hub's ports follow
those of the cores. (DEDUCED, log entry 124.) -/
def Sent.agent (w : Sent) : Nat := if w.die = 8 then 192 + w.core else w.core

/-- Whether a write sent to a home may reach it on this cycle: a plain store in its place among the operations of the cycle (R261). -/
def State.mayLand (s : State) (w : Sent) : Bool := s.mayApply w && (w.engine || s.mayReach w.agent (.phys w.pa) .store)

/-- The state in which a write has reached its home: a plain store has its place there (R261), and a byte of a command is performed (R263). -/
def State.land (s : State) (w : Sent) : State := if w.engine then s.perform w.core w.cmd else s.reach w.agent (.phys w.pa) .store

/-- REMOTE_WRITE_APPLY (R258): a home applies a write sent to it, once its dependencies are applied and every earlier one of its path
is. -/
def execRemoteWriteApply (ix : Nat) (s : State) : Out State :=
  match s.sent[ix]? with
  | none => .next s
  | some w => if s.mayLand w then .next (({ s with sent := removeAt s.sent ix }.applyAt w.pa w.bytes).land w) else .next s

/-- The number under which the hub orders the writes of a pod-link port, those of the host ports coming first (R265). -/
def podPort (p : Nat) : Nat := hostPorts + p

/-- A write that arrives at a port of the hub for a partition's memory, by global address, under entry 8 of the stamps (R265); none where the
walk faults. -/
def State.hubStore (s : State) (port o va : Nat) (bs : List Byte) : Option State :=
  match s.walk o none va false true false with
  | .ok s1 pa _ _ =>
    let n := s1.hubSeq + 1
    some { s1 with
      hubSeq := n
      sent := s1.sent ++ [{ die := 8, core := port, engine := false, seq := n, stamp := put 0 [] 8 n, home := homeOf pa, pa := pa, bytes := bs }] }
  | _ => none

/-- POD_LINK_WRITE (R265): a write of 8 bytes that arrives from a package at a pod-link port; none is taken of a package that has been declared
failed (R355). (DESIGN CHOICE, log entry 96.) -/
def execPodLinkWrite (path : PodPath) (va : BitVec 56) (v : Word) (s : State) : Out State :=
  if va.toNat % 8 ≠ 0 ∨ podPorts ≤ path.port ∨ get false s.pod.failed path.pkg then .next s
  else
    match s.hubStore (podPort path.port) path.owner va.toNat (leBytes 8 v.toNat) with
    | some s1 => .next s1
    | none => .next s

end Sys2Proof.Machine
end

