-- ==== Sys2Proof/Machine/Scalar.lean ====
section
/-! DEFINITION. Scalar arithmetic, immediates, compares, predicate logic and select (R83, R86 to R91). -/
namespace Sys2Proof.Machine

/-- A body that writes one register. -/
def writes (d : BitVec 5) (v : State → Word) (s : State) : Res := .done (s.setR d (v s)) 0

/-- A body that writes one predicate. -/
def writesP (d : BitVec 5) (v : State → Bool) (s : State) : Res := .done (s.setP d.toNat (v s)) 0

/-- A predicate named by a field. -/
def State.p (s : State) (i : BitVec 5) : Bool := s.here.pred i.toNat

/-- NOP (R87). -/
def execNop (s : State) : Out State := issue .nop (fun s => .done s 0) s

/-- MOV, 16-bit (R83, R87). -/
def execMovC16 (d a : BitVec 5) (s : State) : Out State := issue (.movC16 d a) (writes d fun s => s.r a) s

/-- ADDI, 16-bit (R87): D := D + sext(Y). -/
def execAddiC16 (d i : BitVec 5) (s : State) : Out State := issue (.addiC16 d i) (writes d fun s => s.r d + sext i) s

/-- ADD, 16-bit (R87). -/
def execAddC16 (d b : BitVec 5) (s : State) : Out State := issue (.addC16 d b) (writes d fun s => s.r d + s.r b) s

/-- SUB, 16-bit (R87). -/
def execSubC16 (d b : BitVec 5) (s : State) : Out State := issue (.subC16 d b) (writes d fun s => s.r d - s.r b) s

/-- LI, 16-bit (R87). -/
def execLiC16 (d i : BitVec 5) (s : State) : Out State := issue (.liC16 d i) (writes d fun _ => sext i) s

/-- PMOV (R89). -/
def execPmov (d a : BitVec 5) (s : State) : Out State := issue (.pmov d a) (writesP d fun s => s.p a) s

/-- PNOT (R89). -/
def execPnot (d a : BitVec 5) (s : State) : Out State := issue (.pnot d a) (writesP d fun s => !s.p a) s

/-- ADD (R86). -/
def execAdd (d a b : BitVec 5) (s : State) : Out State := issue (.add d a b) (writes d fun s => s.r a + s.r b) s

/-- SUB (R86). -/
def execSub (d a b : BitVec 5) (s : State) : Out State := issue (.sub d a b) (writes d fun s => s.r a - s.r b) s

/-- AND (R86). -/
def execAnd (d a b : BitVec 5) (s : State) : Out State := issue (.and d a b) (writes d fun s => s.r a &&& s.r b) s

/-- OR (R86). -/
def execOr (d a b : BitVec 5) (s : State) : Out State := issue (.or d a b) (writes d fun s => s.r a ||| s.r b) s

/-- XOR (R86). -/
def execXor (d a b : BitVec 5) (s : State) : Out State := issue (.xor d a b) (writes d fun s => s.r a ^^^ s.r b) s

/-- A shift amount: bits [5:0] of a register (R86). -/
def shiftAmount (b : Word) : Nat := (b.extractLsb' 0 6).toNat

/-- SHL (R86). -/
def execShl (d a b : BitVec 5) (s : State) : Out State :=
  issue (.shl d a b) (writes d fun s => s.r a <<< shiftAmount (s.r b)) s

/-- SHR (R86). -/
def execShr (d a b : BitVec 5) (s : State) : Out State :=
  issue (.shr d a b) (writes d fun s => s.r a >>> shiftAmount (s.r b)) s

/-- SRA (R86). -/
def execSra (d a b : BitVec 5) (s : State) : Out State :=
  issue (.sra d a b) (writes d fun s => (s.r a).sshiftRight (shiftAmount (s.r b))) s

/-- MUL (R86). -/
def execMul (d a b : BitVec 5) (s : State) : Out State := issue (.mul d a b) (writes d fun s => s.r a * s.r b) s

/-- Bits [127:64] of the signed product (R86). -/
def mulHigh (a b : Word) : Word := BitVec.ofInt 64 (a.toInt * b.toInt / 2 ^ 64)

/-- Bits [127:64] of the unsigned product (R86). -/
def mulHighU (a b : Word) : Word := BitVec.ofNat 64 (a.toNat * b.toNat / 2 ^ 64)

/-- MULH (R86). -/
def execMulh (d a b : BitVec 5) (s : State) : Out State := issue (.mulh d a b) (writes d fun s => mulHigh (s.r a) (s.r b)) s

/-- MULHU (R86). -/
def execMulhu (d a b : BitVec 5) (s : State) : Out State := issue (.mulhu d a b) (writes d fun s => mulHighU (s.r a) (s.r b)) s

/-- MIN, signed (R86). -/
def execMin (d a b : BitVec 5) (s : State) : Out State :=
  issue (.min d a b) (writes d fun s => if (s.r a).slt (s.r b) then s.r a else s.r b) s

/-- MAX, signed (R86). -/
def execMax (d a b : BitVec 5) (s : State) : Out State :=
  issue (.max d a b) (writes d fun s => if (s.r a).slt (s.r b) then s.r b else s.r a) s

/-- MINU (R86). -/
def execMinu (d a b : BitVec 5) (s : State) : Out State :=
  issue (.minu d a b) (writes d fun s => if (s.r a).ult (s.r b) then s.r a else s.r b) s

/-- MAXU (R86). -/
def execMaxu (d a b : BitVec 5) (s : State) : Out State :=
  issue (.maxu d a b) (writes d fun s => if (s.r a).ult (s.r b) then s.r b else s.r a) s

/-- MOV (R86). -/
def execMov (d a : BitVec 5) (s : State) : Out State := issue (.mov d a) (writes d fun s => s.r a) s

/-- ADDI (R87). -/
def execAddi (d a : BitVec 5) (i : BitVec 15) (s : State) : Out State :=
  issue (.addi d a i) (writes d fun s => s.r a + sext i) s

/-- LI (R87). -/
def execLi (d : BitVec 5) (i : BitVec 15) (s : State) : Out State := issue (.li d i) (writes d fun _ => sext i) s

/-- ANDI (R87). -/
def execAndi (d a : BitVec 5) (i : BitVec 15) (s : State) : Out State :=
  issue (.andi d a i) (writes d fun s => s.r a &&& zext i) s

/-- CMP_EQ (R88). -/
def execCmpEq (d a b : BitVec 5) (s : State) : Out State := issue (.cmpEq d a b) (writesP d fun s => holds 0 (s.r a) (s.r b)) s

/-- CMP_NE (R88). -/
def execCmpNe (d a b : BitVec 5) (s : State) : Out State := issue (.cmpNe d a b) (writesP d fun s => holds 1 (s.r a) (s.r b)) s

/-- CMP_LT (R88). -/
def execCmpLt (d a b : BitVec 5) (s : State) : Out State := issue (.cmpLt d a b) (writesP d fun s => holds 2 (s.r a) (s.r b)) s

/-- CMP_LE (R88). -/
def execCmpLe (d a b : BitVec 5) (s : State) : Out State := issue (.cmpLe d a b) (writesP d fun s => holds 3 (s.r a) (s.r b)) s

/-- CMP_GT (R88). -/
def execCmpGt (d a b : BitVec 5) (s : State) : Out State := issue (.cmpGt d a b) (writesP d fun s => holds 4 (s.r a) (s.r b)) s

/-- CMP_GE (R88). -/
def execCmpGe (d a b : BitVec 5) (s : State) : Out State := issue (.cmpGe d a b) (writesP d fun s => holds 5 (s.r a) (s.r b)) s

/-- CMP_LTU (R88). -/
def execCmpLtu (d a b : BitVec 5) (s : State) : Out State := issue (.cmpLtu d a b) (writesP d fun s => holds 6 (s.r a) (s.r b)) s

/-- CMP_GEU (R88). -/
def execCmpGeu (d a b : BitVec 5) (s : State) : Out State := issue (.cmpGeu d a b) (writesP d fun s => holds 7 (s.r a) (s.r b)) s

/-- PAND (R89). -/
def execPand (d a b : BitVec 5) (s : State) : Out State := issue (.pand d a b) (writesP d fun s => s.p a && s.p b) s

/-- POR (R89). -/
def execPor (d a b : BitVec 5) (s : State) : Out State := issue (.por d a b) (writesP d fun s => s.p a || s.p b) s

/-- PXOR (R89). -/
def execPxor (d a b : BitVec 5) (s : State) : Out State := issue (.pxor d a b) (writesP d fun s => s.p a != s.p b) s

/-- PANDN (R89). -/
def execPandn (d a b : BitVec 5) (s : State) : Out State := issue (.pandn d a b) (writesP d fun s => s.p a && !s.p b) s

/-- SEL (R91): D := A if the old D is non-zero, else B. -/
def execSel (d a b : BitVec 5) (s : State) : Out State :=
  issue (.sel d a b) (writes d fun s => if s.r d ≠ 0 then s.r a else s.r b) s

/-- CMPI (R88). -/
def execCmpi (d a : BitVec 5) (v : BitVec 12) (c : BitVec 3) (s : State) : Out State :=
  issue (.cmpi d a v c) (writesP d fun s => holds c.toNat (s.r a) (sext v)) s

end Sys2Proof.Machine
end

