-- ==== Sys2Proof/Machine/System.lean ====
section
/-! DEFINITION. The control registers (R119, R120, R286, R299 to R324, R357 to R401): their fields, reading and writing them field by field,
`csrr` and `csrw`, and the register writes that have a step of their own. -/
namespace Sys2Proof.Machine

/-! ### Fields (R3, R401) -/

/-- Access codes (R3). -/
inductive RegAccess where
  | ro | rw | wo | w1c
  deriving DecidableEq, Repr

/-- A field of a register: its bits, its access, and its read and write privileges (R401). -/
structure Field where
  hi : Nat
  lo : Nat
  access : RegAccess
  read : Priv
  write : Priv
  deriving DecidableEq, Repr

/-- The order of the privileges (R318). -/
def privRank : Priv → Nat
  | .user => 0
  | .guest => 1
  | .hyp => 2
  | .maker => 3

/-- A field whose read and write privileges are its least privilege. -/
def field (p : Priv) (a : RegAccess) (hi lo : Nat) : Field := { hi := hi, lo := lo, access := a, read := p, write := p }

/-- A field of least privilege hyp that guests read. -/
def hypField (a : RegAccess) (hi lo : Nat) : Field := { hi := hi, lo := lo, access := a, read := .guest, write := .hyp }

/-- The fields of a tile shape (R67). -/
def shapeFields : List Field :=
  [field .user .ro 0 0, field .user .rw 12 1, field .user .rw 20 13, field .user .rw 31 21, field .user .rw 35 32,
   field .user .w1c 36 36, field .user .ro 37 37, field .user .ro 40 38, field .user .ro 46 41]

/-- The fields of the core's own registers of R119 above the address generators. -/
def lowFields (n : Nat) : Option (List Field) :=
  if 0x60 ≤ n ∧ n ≤ 0x63 then some [field .guest .rw 15 0]
  else if n = 0x64 then some [field .user .rw 31 0]
  else if n = 0x65 then some [field .user .rw 11 0, field .user .ro 20 16]
  else if n = 0x66 then some [field .guest .rw 43 0, field .guest .ro 44 44]
  else if n = 0x67 then some [field .guest .rw 2 0]
  else if n = 0x68 then some [field .user .ro 63 0]
  else if n = 0x69 then some [field .user .rw 15 0, field .user .rw 16 16]
  else if 0x70 ≤ n ∧ n ≤ 0x77 then some [field .user .rw 63 0]
  else if n = 0x80 then some [field .user .ro 7 0]
  else if n = 0x81 then some [field .user .ro 63 0]
  else if n = 0x82 then some [field .guest .rw 39 0]
  else if n = 0x83 then some [field .guest .rw 2 0, field .guest .ro 3 3, field .guest .rw 5 4, field .user .w1c 6 6]
  else if n = 0x84 then some [field .guest .rw 16 0]
  else if n = 0x85 then some [field .user .ro 16 0]
  else if n = 0x90 then some [field .user .ro 63 0]
  else if n = 0x91 then some [field .user .ro 32 0]
  else none

/-- The fields of the package's registers (R392, R397, R398). -/
def packageFields (n : Nat) : Option (List Field) :=
  if n = 0x92 then
    some [hypField .ro 2 0, hypField .rw 5 3, hypField .ro 10 6, field .hyp .w1c 11 11]
  else if n = 0x93 then some [hypField .rw 63 0]
  else if n = 0x94 then some [hypField .rw 11 0]
  else if n = 0x95 then some [field .guest .ro 63 0]
  else if n = 0x96 then some [field .hyp .rw 5 0]
  else if n = 0x97 then some [field .hyp .ro 63 0]
  else none

/-- The fields of the pool's registers and of TVECDEF (R286, R357). -/
def poolFields (n : Nat) : Option (List Field) :=
  if n = 0xA0 then some [field .guest .rw 55 6]
  else if n = 0xA1 then some [hypField .rw 24 0, field .guest .ro 37 25]
  else if n = 0xA2 then some [field .guest .rw 7 0, field .guest .rw 55 16]
  else if n = 0xA3 then some [field .guest .rw 55 6]
  else if n = 0xA4 then some [field .guest .rw 18 0, field .guest .w1c 19 19, field .guest .ro 39 20, field .guest .rw 59 40]
  else if n = 0xA5 then some [field .guest .wo 14 0]
  else if n = 0xA6 then some [field .guest .rw 16 0]
  else none

/-- The fields of the isolation registers (R299, R301, R305, R308, R311, R314, R323, R324); ENCOWN stands on the B dies only. -/
def guardFields (isB : Bool) (n : Nat) : Option (List Field) :=
  if n = 0xB0 then
    some [hypField .rw 6 0, field .guest .ro 7 7, hypField .rw 9 8, field .guest .ro 10 10, hypField .w1c 11 11]
  else if n = 0xB1 then some [hypField .rw 63 0]
  else if n = 0xB2 then some [field .guest .rw 51 16]
  else if n = 0xB3 then some [field .guest .rw 51 6]
  else if n = 0xB4 then some [field .guest .ro 0 0, field .guest .wo 1 1, field .guest .wo 55 16]
  else if n = 0xB5 ∨ n = 0xB6 then some [field .guest .wo 63 0]
  else if n = 0xB7 ∧ isB then some [hypField .rw 27 0]
  else none

/-- The fields of the observation registers (R368, R370, R373, R375, R382, R384, R387). -/
def watchFields (n : Nat) : Option (List Field) :=
  let ring := fun (p : Priv) => [field p .rw 4 0, field p .w1c 5 5, field p .rw 6 6, field p .ro 31 8, field p .rw 55 32]
  if n = 0xC0 then some [field .guest .rw 55 6]
  else if n = 0xC1 then some (ring .guest)
  else if n = 0xC2 then some [field .guest .rw 4 0, field .guest .rw 16 8]
  else if n = 0xC3 then some [field .user .ro 31 0]
  else if n = 0xC4 then some [field .guest .rw 0 0, field .guest .ro 1 1]
  else if n = 0xC5 then some [field .guest .wo 6 0]
  else if n = 0xC6 then some [field .guest .ro 4 0, field .guest .w1c 5 5, field .guest .ro 21 6]
  else if n = 0xC7 then some [field .guest .rw 55 16]
  else if n = 0xC8 then some [hypField .rw 48 0]
  else if n = 0xCA then some [field .user .rw 6 0, field .user .wo 7 7]
  else if n = 0xCB then some [field .user .ro 63 0]
  else if n = 0xCC then some [field .hyp .rw 55 6]
  else if n = 0xCD then some (ring .hyp)
  else if n = 0xD0 then some [field .guest .rw 1 0, field .guest .ro 2 2, field .guest .rw 7 4, field .guest .ro 31 8]
  else if n = 0xD1 then some [field .guest .rw 55 6]
  else none

/-- The fields of the register with a number, as a core sees it; none where the number names no register (R119). (DEDUCED, log entry 86.) -/
def fieldsOf (c n : Nat) : Option (List Field) :=
  if n < 16 then some shapeFields
  else if n < 96 then
    if (n - 16) % 5 = 0 then some [field .user .rw 31 0] else some [field .user .rw 15 0, field .user .rw 47 16]
  else if n < 0x92 then lowFields n
  else if n < 0xA0 then packageFields n
  else if n < 0xB0 then poolFields n
  else if n < 0xC0 then guardFields (Config.isB (Config.dieOf c)) n
  else watchFields n

/-- Whether an access at a privilege may read a register (R401). -/
def mayRead (p : Priv) (fs : List Field) : Bool := fs.any fun f => privRank f.read ≤ privRank p

/-- Whether an access at a privilege may write a register (R401). -/
def mayWrite (p : Priv) (fs : List Field) : Bool := fs.any fun f => f.access != .ro && privRank f.write ≤ privRank p

/-- What an access at a privilege reads of a register that holds a value (R3, R401). -/
def readFields (p : Priv) (fs : List Field) (x : Nat) : Nat :=
  fs.foldl (fun a f => if privRank f.read ≤ privRank p ∧ f.access ≠ .wo then setBits a f.hi f.lo (bits x f.hi f.lo) else a) 0

/-- What a register that holds a value receives when an access at a privilege writes another (R3, R401). -/
def writeFields (p : Priv) (fs : List Field) (x v : Nat) : Nat :=
  fs.foldl (fun a f =>
    if privRank p < privRank f.write then a
    else
      match f.access with
      | .ro => a
      | .rw | .wo => setBits a f.hi f.lo (bits v f.hi f.lo)
      | .w1c => setBits a f.hi f.lo (bits x f.hi f.lo &&& (2 ^ (f.hi + 1 - f.lo) - 1 - bits v f.hi f.lo))) x

/-! ### Values -/

/-- POOLPW as a core reads it (R70). -/
def Core.poolpw (k : Core) : Nat :=
  let sl := fun (x : Slice) =>
    ([(6, x.base), (7, x.tileg), (7, x.scrg), (1, x.constg), (1, ofBool x.valid)] : List (Nat × Nat))
  pack (sl k.slice0 ++ sl k.slice1 ++ [(1, ofBool k.liveSlice)])

/-- A trace ring's control register (R370). -/
def TraceRing.ctl (t : TraceRing) : Nat :=
  pack [(4, t.log2n.toNat), (1, ofBool t.en), (1, ofBool t.ovf), (1, ofBool t.pwr), (1, 0), (24, t.head.toNat), (24, t.tail.toNat)]

/-- FREQCTL as it reads (R392). -/
def Power.ctl (p : Power) : Nat :=
  pack [(3, p.cur), (3, p.next.toNat), (1, ofBool p.pend), (1, ofBool (decide (p.request < p.ceilOn))), (3, p.ceil), (1, ofBool p.err)]

/-- USED of a partition (R286): its slots that are not FREE. -/
def State.used (s : State) (o : Nat) : Nat :=
  (s.slots.filter fun e => decide (e.1 / 4096 = domOfQuad o) && e.2.st != .free && e.2.owner == o).length

/-- The value of a core's own register of the low numbers. -/
def State.lowValue (s : State) (c n : Nat) : Nat :=
  let k := s.core c
  let x := k.live
  let r := x.cr
  if 0x60 ≤ n ∧ n ≤ 0x63 then (x.seq (streamOf (n - 0x60))).iend.toNat
  else if n = 0x64 then r.wtmo.toNat
  else if n = 0x65 then x.loc.vbase.toNat + x.loc.turn % 32 * 2 ^ 16
  else if n = 0x66 then k.poolpw
  else if n = 0x67 then r.retryMax.toNat
  else if n = 0x68 then r.slipcnt.toNat
  else if n = 0x69 then k.captStop.toNat + 2 ^ 16 * ofBool k.captArm
  else if 0x70 ≤ n ∧ n ≤ 0x77 then (x.links.flagWord (n - 0x70)).toNat
  else if n = 0x80 then r.ecause.toNat
  else if n = 0x81 then r.einfo.toNat
  else if n = 0x82 then r.epc.toNat
  else if n = 0x83 then r.estat.toNat
  else if n = 0x84 then r.tvec.toNat
  else if n = 0x85 then r.chnd.toNat
  else if n = 0x90 then capOf c
  else s.clusterCap (Config.quadOf c) + 2 ^ 32 * ofBool (s.quad (Config.quadOf c)).veneer

/-- The value of a package register; WEAR is that of a core's quad. -/
def State.packageValue (s : State) (c n : Nat) : Nat :=
  if n = 0x92 then s.power.ctl
  else if n = 0x93 then s.power.at_.toNat
  else if n = 0x94 then s.power.limit.toNat
  else if n = 0x95 then (s.wearOf (Config.quadOf c)).toNat
  else if n = 0x96 then s.power.wearsel.toNat
  else (s.wearOf s.power.wearsel.toNat).toNat

/-- The value of a pool register of a partition. -/
def State.poolValue (s : State) (o n : Nat) : Nat :=
  let p := s.part o
  if n = 0xA0 then p.ptbase.toNat * 64
  else if n = 0xA1 then pack [(12, p.poolqFirst.toNat), (13, p.poolqQuota.toNat), (13, s.used o)]
  else if n = 0xA2 then p.shvStride.toNat + p.shvBase.toNat * 65536
  else if n = 0xA3 then p.evqBase.toNat * 64
  else if n = 0xA4 then
    pack [(4, p.evLog2n.toNat), (6, p.evFlag.toNat), (8, p.evCore.toNat), (1, ofBool p.evEn), (1, ofBool p.evOvf), (20, p.evHead.toNat),
      (20, p.evTail.toNat)]
  else if n = 0xA5 then 0
  else p.tvecdef.toNat

/-- The value of an isolation register as a core sees it. -/
def State.guardValue (s : State) (c n : Nat) : Nat :=
  let o := s.partOf c
  let p := s.part o
  if n = 0xB0 then (s.quad (Config.quadOf c)).word.toNat
  else if n = 0xB1 then p.partslot.toNat
  else if n = 0xB2 then p.ptroot.toNat * 65536
  else if n = 0xB3 then p.ftbase.toNat * 64
  else if n = 0xB4 then ofBool (s.tlbHeld o)
  else if n = 0xB7 then (s.die (Config.dieOf c)).encown.toNat
  else 0

/-- The value of an observation register as a core sees it. -/
def State.watchValue (s : State) (c n : Nat) : Nat :=
  let k := s.core c
  let t := (s.part (s.partOf c)).trace
  let d := k.dbg
  let w := k.watch
  if n = 0xC0 then t.base.toNat * 64
  else if n = 0xC1 then t.ctl
  else if n = 0xC2 then w.trcsrc.toNat
  else if n = 0xC3 then s.corr c
  else if n = 0xC4 then ofBool d.att + 2 * ofBool d.stopped
  else if n = 0xC6 then pack [(4, d.why), (1, ofBool d.done), (1, ofBool d.err), (16, d.segSkip)]
  else if n = 0xC7 then d.area.toNat * 65536
  else if n = 0xC8 then s.hub.psSet.toNat + 2 ^ 48 * ofBool s.hub.psHold
  else if n = 0xCA then w.tlIx.toNat
  else if n = 0xCB then s.lossCount c w.tlIx.toNat
  else if n = 0xCC then s.hub.trace.base.toNat * 64
  else if n = 0xCD then s.hub.trace.ctl
  else if n = 0xD0 then pack [(2, w.rplMode), (1, ofBool w.rplFull), (1, 0), (4, w.rplLog2n), (24, w.rplCount)]
  else if n = 0xD1 then w.rplBase.toNat * 64
  else 0

/-- The value that the register with a number holds, as a core sees it. -/
def State.regValue (s : State) (c n : Nat) : Nat :=
  if n < 16 then ((s.ctx c).shape n).toNat
  else if n < 96 then ((s.ctx c).ag ((n - 16) / 5) ((n - 16) % 5)).toNat
  else if n < 0x92 then s.lowValue c n
  else if n < 0xA0 then s.packageValue c n
  else if n < 0xB0 then s.poolValue (s.partOf c) n
  else if n < 0xC0 then s.guardValue c n
  else s.watchValue c n

/-! ### Writes -/

/-- What a register write ends in: it is made, it is refused, it traps, each with the state that leaves, or it waits. -/
inductive Stored where
  | ok (s : State) | refused (s : State) | trap (s : State) (c : Cause) (info : Word) | wait

/-- The state of a step that cannot stop. -/
def nextOr (s : State) : Out State → State
  | .next t => t
  | _ => s

/-- TSHi written (R67, R68): DIRTY is cleared by a 1, and the tile is configured. -/
def State.writeShape (s : State) (c i : Nat) (v : Word) : State :=
  s.modCtx c fun x =>
    let old := if v.getLsbD 36 then x.shape i &&& ~~~(BitVec.ofNat 64 (2 ^ 36)) else x.shape i
    { x.setShape i (configure old v (s.core c).liveSl.tileRows) with
      mat := { x.mat with records := put DrainRecord.cleared x.mat.records i DrainRecord.cleared } }

/-- An address-generator register written (R69); a write of AGnD0 or AGnD1 ends the set's ring (R133). -/
def State.writeAg (s : State) (c n i : Nat) (v : Word) : State :=
  s.modCtx c fun x =>
    let x1 := { x with loc := { x.loc with ag := put 0#64 x.loc.ag (5 * n + i) v } }
    if i = 1 ∨ i = 2 then x1.modRing n fun r => { r with on := false } else x1

/-- A slice of POOLPW from its 22 bits (R70). -/
def sliceOf (v : Nat) : Slice :=
  { base := bits v 5 0, tileg := bits v 12 6, scrg := bits v 19 13, constg := bits v 20 20, valid := bit v 21 }

/-- Whether a slice is legal (R70). -/
def Slice.legal (x : Slice) : Bool := !x.valid || (x.base + x.size ≤ 64 && x.tileg != 0 && x.scrg != 0)

/-- Whether POOLPW refuses a value (R70). -/
def poolpwRefused (v : Nat) : Bool :=
  let a := sliceOf (bits v 21 0)
  let b := sliceOf (bits v 43 22)
  !a.legal || !b.legal || (a.valid && b.valid && meets a.base a.size b.base b.size)

/-- A context whose slice has changed (R68, R147, R343): its allocation stack is reset, tiles outside TILE are no longer configured, and
a new split makes its next save write every granule. (DEDUCED, log entry 84.) -/
def Ctx.resliced (x : Ctx) (old new : Slice) : Ctx :=
  if old = new then x
  else
    let split := old.tileg != new.tileg || old.scrg != new.scrg || old.constg != new.constg
    let tsh := (List.range 16).foldl (fun t i =>
      let w := get 0#64 t i
      if tshCfg w ∧ new.tileRows < tshBase w + tshRows w then put 0#64 t i (w &&& ~~~1#64) else t) x.loc.tsh
    { x with
      loc := { x.loc with tsh := tsh, satop := new.scrBytes, allocs := [], kerf := [] }
      resplit := x.resplit || split }

/-- POOLPW written on a core with a legal value. (DEDUCED, log entry 84.) -/
def Core.writePoolpw (k : Core) (v : Nat) : Core :=
  let k1 := { k with slice0 := sliceOf (bits v 21 0), slice1 := sliceOf (bits v 43 22) }
  let re := fun (x : Ctx) (b : Bool) => x.resliced (k.slice b) (k1.slice b)
  { k1 with
    live := if k.hasLive then re k.live k.liveSlice else k.live
    shA := match k.sliceA with | some b => if k.useA = .empty then k.shA else re k.shA b | none => k.shA
    shB := match k.sliceB with | some b => if k.useB = .empty then k.shB else re k.shB b | none => k.shB }

/-- CAPSTOP written on a core (R361). (DEDUCED, log entry 75.) -/
def Core.writeCapstop (k : Core) (v : Nat) : Core :=
  { k with captStop := BitVec.ofNat 16 v, captArm := bit v 16, captCount := none }

/-- EPC written: a new place has no block state kept for it but what EPC itself holds (R118). (DEDUCED, log entry 83.) -/
def CtlRegs.writeEpc (r : CtlRegs) (v : Nat) : CtlRegs :=
  { r with epc := BitVec.ofNat 40 v, epcSave := if r.epc = BitVec.ofNat 40 v then r.epcSave else none }

/-- A write of a core's own register of the low numbers. -/
def State.storeLow (s : State) (c n v : Nat) : Stored :=
  if 0x60 ≤ n ∧ n ≤ 0x63 then .ok (s.modSeq c (streamOf (n - 0x60)) fun q => { q with iend := BitVec.ofNat 16 v })
  else if n = 0x64 then .ok (s.modCr c fun r => { r with wtmo := BitVec.ofNat 32 v })
  else if n = 0x65 then .ok (s.modLoc c fun p => { p with vbase := BitVec.ofNat 12 v })
  else if n = 0x66 then if poolpwRefused v then .trap s .illegal 0 else .ok (s.modCore c fun k => k.writePoolpw v)
  else if n = 0x67 then .ok (s.modCr c fun r => { r with retryMax := BitVec.ofNat 3 v })
  else if n = 0x69 then if bit v 16 ∧ bits v 15 0 = 0 then .trap s .illegal 0 else .ok (s.modCore c fun k => k.writeCapstop v)
  else if 0x70 ≤ n ∧ n ≤ 0x77 then .ok (s.modLinks c fun l => l.writeFlags (n - 0x70) (BitVec.ofNat 64 v))
  else if n = 0x82 then .ok (s.modCr c fun r => r.writeEpc v)
  else if n = 0x83 then .ok (s.modCr c fun r => { r with estat := BitVec.ofNat 7 v })
  else if n = 0x84 then .ok (s.modCr c fun r => { r with tvec := BitVec.ofNat 17 v })
  else .ok s

/-- A step made for a write that may be refused: refused when a condition holds, with the state the step leaves. -/
def Stored.when (bad : Bool) (s : State) : Stored := if bad then .refused s else .ok s

/-- A write of a package register. -/
def State.storePackage (s : State) (n v : Nat) : Stored :=
  let w := BitVec.ofNat 64 v
  if n = 0x92 then .ok (s.modPower fun p => { p with next := BitVec.ofNat 3 (bits v 5 3), err := bit v 11 })
  else if n = 0x93 then Stored.when (s.freqRefused w) (nextOr s (execFreqatWrite w s))
  else if n = 0x94 then .ok (s.modPower fun p => { p with limit := BitVec.ofNat 12 v })
  else if n = 0x96 then Stored.when (decide (56 < bits v 5 0)) (nextOr s (execWearselWrite w s))
  else .ok s

/-- A POOLCMD write (R287); a reserved bit or an OP without a command raises CMD_BAD. (DEDUCED, log entry 101.) -/
def State.poolCommand (s : State) (o v : Nat) : State :=
  let n := BitVec.ofNat 12 v
  let op := bits v 14 12
  if bits v 63 15 ≠ 0 then s.cmdBad o n.toNat
  else if op = 1 then nextOr s (execRerun o n s)
  else if op = 2 then nextOr s (execResume o n s)
  else if op = 3 then nextOr s (execDrop o n s)
  else if op = 4 then nextOr s (execRelease o n s)
  else if op = 5 then nextOr s (execEvict o n s)
  else s.cmdBad o n.toNat

/-- A write of a pool register of a partition; `raw` is what was written. -/
def State.storePool (s : State) (o n v raw : Nat) : Stored :=
  if n = 0xA0 then .ok (s.modPart o fun p => { p with ptbase := BitVec.ofNat 50 (v / 64) })
  else if n = 0xA1 then Stored.when (s.rangeOverlaps o (bits v 11 0) (bits v 24 12)) (nextOr s (execPoolqWrite o (BitVec.ofNat 64 v) s))
  else if n = 0xA2 then .ok (s.modPart o fun p => { p with shvStride := BitVec.ofNat 8 v, shvBase := BitVec.ofNat 40 (v / 65536) })
  else if n = 0xA3 then .ok (s.modPart o fun p => { p with evqBase := BitVec.ofNat 50 (v / 64) })
  else if n = 0xA4 then
    .ok (s.modPart o fun p =>
      { p with evLog2n := BitVec.ofNat 4 v, evFlag := BitVec.ofNat 6 (bits v 9 4), evCore := BitVec.ofNat 8 (bits v 17 10)
               evEn := bit v 18, evOvf := bit v 19, evTail := BitVec.ofNat 20 (bits v 59 40) })
  else if n = 0xA5 then .ok (s.poolCommand o raw)
  else .ok (s.modPart o fun p => { p with tvecdef := BitVec.ofNat 17 v })

/-- TLBINV written by a core (R311), as `fence.pkg` first; the host has no accesses of a core to wait for. (DEDUCED, log entry 85.) -/
def State.writeTlbinv (s : State) (c : Nat) (host : Bool) (v : Nat) : Stored :=
  if ¬ host ∧ ¬ s.fenceReady c then .wait
  else
    let s1 := if host then s else
      let s0 := s.acquire c 0 []
      s0.traceStamp c (Config.dieOf c) (s0.kv c (Config.dieOf c))
    if bit v 1 then .ok (s1.invalidateAll (s.partOf c)) else .ok (s1.invalidate (s.partOf c) (bits v 55 16 * 65536))

/-- A write that reads memory: its trap, its wait, or its state. -/
def Stored.of : Named State → Stored
  | .ok s => .ok s
  | .error none => .wait
  | .error (some (t, e, i)) => .trap t e i

/-- A write of an isolation register for a core. -/
def State.storeGuard (s : State) (c : Nat) (host : Bool) (n v : Nat) : Stored :=
  let o := s.partOf c
  let w := BitVec.ofNat 64 v
  if n = 0xB0 then
    let a := s.partcfgWrite (Config.quadOf c) w
    Stored.when (!a.2) a.1
  else if n = 0xB1 then Stored.when (s.slotsRefused o w) (nextOr s (execPartslotWrite o w s))
  else if n = 0xB2 then .ok (s.modPart o fun p => { p with ptroot := BitVec.ofNat 36 (v / 65536) })
  else if n = 0xB3 then .ok (s.modPart o fun p => { p with ftbase := BitVec.ofNat 46 (v / 64) })
  else if n = 0xB4 then s.writeTlbinv c host v
  else if n = 0xB5 then Stored.of (s.pmrWrite c host w)
  else if n = 0xB6 then Stored.of (s.attestWrite c host w)
  else .ok (nextOr s (execEncownWrite (Config.dieOf c) w s))

/-- A trace ring's control register written (R370); bit 5 is what is left of OVF. -/
def TraceRing.write (t : TraceRing) (v : Nat) : TraceRing :=
  { t with log2n := BitVec.ofNat 4 v, en := bit v 4, ovf := bit v 5, pwr := bit v 6, tail := BitVec.ofNat 24 (bits v 55 32) }

/-- A DBGCMD write (R375). -/
def State.debugCommand (s : State) (c v : Nat) : Stored :=
  let op := bits v 2 0
  let sq := streamOf (bits v 4 3)
  let scope := BitVec.ofNat 2 (bits v 6 5)
  let stopped := (s.core c).dbg.stopped
  if bits v 63 7 ≠ 0 ∨ op = 0 ∨ op = 7 then .refused (s.dbgErr c)
  else if op = 1 then Stored.when stopped (nextOr s (execStop c scope s))
  else if op = 2 then Stored.when (!stopped) (nextOr s (execRun c scope s))
  else if op = 3 then Stored.when (!stopped) (nextOr s (execStepIssue c sq s))
  else if op = 4 then Stored.when (!stopped) (nextOr s (execStepRetire c sq s))
  else if op = 5 then Stored.when (!stopped) (nextOr s (execDump c s))
  else Stored.when (!stopped) (nextOr s (execLoad c s))

/-- A write of an observation register for a core; `raw` is what was written. -/
def State.storeWatch (s : State) (c n v raw : Nat) : Stored :=
  let o := s.partOf c
  if n = 0xC0 then .ok (s.modPart o fun p => { p with trace := { p.trace with base := BitVec.ofNat 50 (v / 64) } })
  else if n = 0xC1 then .ok (s.modPart o fun p => { p with trace := p.trace.write v })
  else if n = 0xC2 then .ok (nextOr s (execTrcsrcWrite c (BitVec.ofNat 64 v) s))
  else if n = 0xC4 then .ok (s.modDbg c fun d => { d with att := bit v 0 })
  else if n = 0xC5 then s.debugCommand c raw
  else if n = 0xC6 then .ok (s.modDbg c fun d => { d with err := bit v 5 })
  else if n = 0xC7 then .ok (s.modDbg c fun d => { d with area := BitVec.ofNat 40 (v / 65536) })
  else if n = 0xC8 then .ok (s.modHub fun h => { h with psSet := BitVec.ofNat 48 v, psHold := bit v 48 })
  else if n = 0xCA then
    let s1 := s.modWatch c fun w => { w with tlIx := BitVec.ofNat 7 v }
    .ok (if bit v 7 then nextOr s1 (execTlClear c s1) else s1)
  else if n = 0xCC then .ok (s.modHub fun h => { h with trace := { h.trace with base := BitVec.ofNat 50 (v / 64) } })
  else if n = 0xCD then .ok (s.modHub fun h => { h with trace := h.trace.write v })
  else if n = 0xD0 then .ok (s.modWatch c fun w => { w with rplMode := bits v 1 0, rplLog2n := bits v 7 4 })
  else if n = 0xD1 then .ok (s.modWatch c fun w => { w with rplBase := BitVec.ofNat 50 (v / 64) })
  else .ok s

/-- A register written for a core with the value that R401 leaves; `raw` is what was written, and `host` says that a window writes. -/
def State.store (s : State) (c : Nat) (host : Bool) (n v raw : Nat) : Stored :=
  if n < 16 then .ok (s.writeShape c n (BitVec.ofNat 64 (setBits v 36 36 (bits raw 36 36))))
  else if n < 96 then .ok (s.writeAg c ((n - 16) / 5) ((n - 16) % 5) (BitVec.ofNat 64 v))
  else if n < 0x92 then s.storeLow c n v
  else if n < 0xA0 then s.storePackage n v
  else if n < 0xB0 then s.storePool (s.partOf c) n v raw
  else if n < 0xC0 then s.storeGuard c host n v
  else s.storeWatch c n v raw

/-- A register access of a core at a privilege refused: the number names no register, or the privilege is too low (R119, R401). -/
inductive Refused where
  | unknown | privilege
  deriving DecidableEq, Repr

/-- A register read for a core at a privilege (R401). -/
def State.readReg (s : State) (c : Nat) (p : Priv) (n : Nat) : Except Refused Word :=
  match fieldsOf c n with
  | none => .error .unknown
  | some fs => if mayRead p fs then .ok (BitVec.ofNat 64 (readFields p fs (s.regValue c n))) else .error .privilege

/-- A register written for a core at a privilege (R401). -/
def State.writeReg (s : State) (c : Nat) (p : Priv) (host : Bool) (n : Nat) (v : Word) : Except Refused Stored :=
  match fieldsOf c n with
  | none => .error .unknown
  | some fs =>
    if mayWrite p fs then .ok (s.store c host n (writeFields p fs (s.regValue c n) v.toNat) v.toNat) else .error .privilege

/-! ### csrr and csrw (R119) -/

/-- The trap of a refused register access (R119). (DEDUCED, log entry 86.) -/
def refusedCause : Refused → Cause
  | .unknown => .illegal
  | .privilege => .priv

/-- A register read into D at the context's privilege. A `csrr` of TRCCTL is an acquire at `.pkg` (R372). -/
def csrrBody (d : BitVec 5) (n : Nat) (s : State) : Res :=
  let c := s.unit.core
  match s.readReg c s.my.cr.priv n with
  | .error e => .trap (refusedCause e) 0
  | .ok v => .done ((if n = 0xC1 then s.acquire c 0 [] else s).setR d v) 0

/-- CSRR (R119). -/
def execCsrr (d a b : BitVec 5) (s : State) : Out State := issue (.csrr d a b) (csrrBody d (csrNumber a b)) s

/-- A register written with D at the context's privilege. -/
def csrwBody (n : Nat) (v : Word) (s : State) : Res :=
  let c := s.unit.core
  match s.writeReg c s.my.cr.priv false n v with
  | .error e => .trap (refusedCause e) 0
  | .ok (.ok s1) => .done s1 0
  | .ok (.refused s1) => .done s1 0
  | .ok (.trap t e i) => .trapIn t e i
  | .ok .wait => .stall .engine []

/-- CSRW (R119). -/
def execCsrw (d a b : BitVec 5) (s : State) : Out State := issue (.csrw d a b) (fun s => csrwBody (csrNumber a b) (s.r d) s) s

/-! ### Register writes that are steps of their own -/

/-- The state a register write leaves; a write that traps or waits leaves the state as it was. -/
def Stored.state (s : State) : Stored → State
  | .ok t => t
  | .refused t => t
  | _ => s

/-- A register of a core written at guest privilege. -/
def State.set (s : State) (c n : Nat) (v : Word) : State :=
  match s.writeReg c .guest true n v with
  | .ok r => r.state s
  | .error _ => s

/-- POOLPW_WRITE (R70): a refused value leaves POOLPW unchanged. -/
def execPoolpwWrite (core : Nat) (v : Word) (s : State) : Out State := .next (s.set core 0x66 v)

/-- TSH_WRITE (R68). -/
def execTshWrite (core : Nat) (tile : BitVec 4) (v : Word) (s : State) : Out State := .next (s.set core tile.toNat v)

/-- AGND_WRITE (R133): AGnD0, or AGnD1. -/
def execAgndWrite (core : Nat) (set : BitVec 4) (dim : Bool) (v : Word) (s : State) : Out State :=
  .next (s.set core (17 + 5 * set.toNat + ofBool dim) v)

/-- CAPSTOP_WRITE (R361). -/
def execCapstopWrite (core : Nat) (v : Word) (s : State) : Out State := .next (s.set core 0x69 v)

/-! ### Windows (R319, R320) -/

/-- The state after a window access, with its answer; none is an error response. -/
def State.answer (s : State) (a : Option Word) : State := s.modHub fun h => { h with answer := a }

/-- The privilege of a window. -/
def winPriv : Option Nat → Priv
  | none => .hyp
  | some _ => .guest

/-- Whether a number names a register that is reached at a core's offset (R320): the package's own and the die's are not. -/
def atCore (n : Nat) : Bool := n != 0xB7 && !([0x92, 0x93, 0x94, 0x96, 0x97, 0xC8, 0xCC, 0xCD].contains n)

/-- Whether a number names a package register (R320). -/
def atPackage (n : Nat) : Bool := [0x92, 0x93, 0x94, 0x96, 0x97, 0xC8, 0xCC, 0xCD].contains n

/-- A register reached for a core through a window; a write that has to wait gets no answer yet. -/
def State.windowReg (s : State) (win : Option Nat) (c n : Nat) (write : Bool) (v : Word) : State :=
  if write then
    match s.writeReg c (winPriv win) true n v with
    | .ok (.ok t) => t.answer (some 0)
    | .ok (.refused t) => t.answer none
    | .ok (.trap t _ _) => (s.boundBy t).answer none
    | .ok .wait => s
    | .error _ => s.answer none
  else
    match s.readReg c (winPriv win) n with
    | .ok x => s.answer (some x)
    | .error _ => s.answer none

/-- REGOWN written eight bytes at a time (R320): only bytes whose value changes are written, and one refused write refuses all.
(DEDUCED, log entry 72.) -/
def State.writeRegown (s : State) (b : Nat) (v : Word) : State :=
  let byte := fun (i : Nat) => v.extractLsb' (8 * i) 8
  let fresh := (List.range 8).filter fun i => (byte i).extractLsb' 0 7 != (s.region (b + i)).byte.extractLsb' 0 7
  if fresh.any fun i => regionRefused (b + i) (byte i) then s.answer none
  else (fresh.foldl (fun (a : State) i => nextOr a (execRegownWrite (b + i) (byte i) a)) s).answer (some 0)

/-- Whether a window reaches a core's registers: the hyp window all, a guest window those of its partition. -/
def State.reaches (s : State) (win : Option Nat) (c : Nat) : Bool :=
  match win with
  | some o => (s.coresOf o).contains c
  | none => true

/-- An access of a window to a range of the layout (R320). (DESIGN CHOICE, log entry 82.) -/
def State.windowAt (s : State) (win : Option Nat) (write : Bool) (off : Nat) (v : Word) : State :=
  if off < 0xC00000 then
    let c := off / 0x10000
    let n := off % 0x10000 / 8
    if n < 1024 ∧ atCore n ∧ s.reaches win c then s.windowReg win c n write v
    else s.answer none
  else if win.isSome then
    s.answer none
  else if off < 0xC00000 + 960 then
    if write then s.writeRegown (off - 0xC00000) v
    else s.answer (some (BitVec.ofNat 64 (leNat ((List.range 8).map fun i => (s.region (off - 0xC00000 + i)).byte))))
  else if 0xD00000 ≤ off ∧ off < 0xD08000 then
    let d := (off - 0xD00000) / 0x1000
    let n := off % 0x1000 / 8
    if n = 0xB7 ∧ Config.isB d then s.windowReg win (24 * d) n write v else s.answer none
  else if 0xE00000 ≤ off ∧ off < 0xE02000 ∧ atPackage ((off - 0xE00000) / 8) then
    s.windowReg win 0 ((off - 0xE00000) / 8) write v
  else s.answer none

/-- An access of a guest window to its partition's memory by global address (R319), under entry 8 of the stamps.
(DESIGN CHOICE, log entry 82.) -/
def State.windowMemory (s : State) (port o va : Nat) (write : Bool) (v : Word) : State :=
  if write then
    match s.hubStore port o va (leBytes 8 v.toNat) with
    | some t => t.answer (some 0)
    | none => s.answer none
  else
    match s.hubReadAll o 1 va 8 with
    | some (t, bs) => t.answer (some (BitVec.ofNat 64 (leNat bs)))
    | none => s.answer none

/-- HOST_WINDOW_ACCESS (R319, R320): an aligned access of 8 bytes at a host port, through the hyp window or the guest window of a
partition. A port answers from its training on (R399, R400), and a partition's while the partition exists. In a guest window, offsets from
2^24 on stand for the global addresses from 0 on. -/
def execHostWindowAccess (win : Window) (write : Bool) (off : Nat) (v : Word) (s : State) : Out State :=
  if s.hub.recovery ∨ ¬ get false s.hub.trained win.port ∨ off % 8 ≠ 0 then .next (s.answer none)
  else
    match win.part with
    | some o =>
      if o < 48 ∧ (s.quadsOf o).contains o then
        .next (if off < 2 ^ 24 then s.windowAt win.part write off v else s.windowMemory win.port o (off - 2 ^ 24) write v)
      else .next (s.answer none)
    | none => .next (s.windowAt win.part write off v)

end Sys2Proof.Machine
end

