-- ==== Sys2Proof/Machine/Stalls.lean ====
section
/-! DEFINITION. The ends of stalls on queues, rings and the command queue (R19, R73, R128, R135). -/
namespace Sys2Proof.Machine

/-- QUEUE_STALL_END (R19, R73): a push or pop that waited on a value queue or a row queue proceeds. -/
def execQueueStallEnd (s : State) : Out State :=
  let w := s.here.wait = .queueT
  match s.here.stalled with
  | some (.qpush q a) => issue (.qpush q a) (fun s => pushBody q (s.r a) s) s
  | some (.qpushC16 q a) => issue (.qpushC16 q a) (fun s => pushBody q (s.r a) s) s
  | some (.qpop d q) => issue (.qpop d q) (popBody q d) s
  | some (.qpopC16 q d) => issue (.qpopC16 q d) (popBody q d) s
  | some (.qpushT q a b) =>
    if w then resume (.qpushT q a b) (timed 1 (queueIx q) (pushBody q (s.r a))) s else .next s
  | some (.qpopT d q b) =>
    if w then resume (.qpopT d q b) (timed 1 (queueIx q) (popBody q d)) s else .next s
  | some (.cut m n) => issue (.cut m n) (cutBody m n) s
  | some (.vpush m) => issue (.vpush m) (vpushBody m.a) s
  | some (.vpop m) => issue (.vpop m) (vpopBody m.d) s
  | some (.gathQ a) =>
    if s.here.part = 0 then issue (.gathQ a) (gathQBody a) s else resume (.gathQ a) (gathQBody a) s
  | some (.drainQ g r) =>
    if s.here.part = 0 then issue (.drainQ g r) (drainQBody g r) s else resume (.drainQ g r) (drainQNext g r) s
  | some .blockEntry => .next (s.enter s.unit.core s.unit.sq)
  | _ => .next s

/-- RING_STALL_END (R135): a `ring.pop` that waited for a slot, or a `ring.push` that waited for a reservation, proceeds. -/
def execRingStallEnd (s : State) : Out State :=
  match s.here.stalled with
  | some (.ringPop d a) => issue (.ringPop d a) (ringPopBody d a) s
  | some (.ringPush d a) => issue (.ringPush d a) (ringPushBody d a) s
  | some (.ringInit d a b) => issue (.ringInit d a b) (ringInitBody d a b) s
  | _ => .next s

/-- Whether an instruction is a copy whose enqueue may wait with its pages held (R128). -/
def isCopy : Instr → Bool
  | .copyG2s .. | .copyS2g .. | .copyG2c .. | .copyC2g .. | .copyC2s .. | .copyS2c .. | .copyX2s .. | .copyS2x .. | .copyRing ..
  | .copyMx .. | .copyMc .. => true
  | _ => false

/-- COPY_APPEND (R128): an enqueue that holds its pages and waited for room appends its command. -/
def execCopyAppend (s : State) : Out State :=
  match s.here.stalled with
  | some i => if isCopy i ∧ s.my.eng.waiting.isSome then issue i (enqueueBody i) s else .next s
  | none => .next s

end Sys2Proof.Machine
end

