-- ==== Sys2Proof/Machine/Dispatch.lean ====
section
/-! DEFINITION. The meaning of each instruction and event: one arm for each constructor of Instr. -/
namespace Sys2Proof.Machine

/-- One instruction or event, executed. -/
def exec (i : Instr) (s : State) : Host.Outcome State Fault Refusal :=
  match i with
  | .nop => Sys2Proof.Machine.execNop s
  | .movC16 d a => Sys2Proof.Machine.execMovC16 d a s
  | .addiC16 d i1 => Sys2Proof.Machine.execAddiC16 d i1 s
  | .addC16 d b => Sys2Proof.Machine.execAddC16 d b s
  | .subC16 d b => Sys2Proof.Machine.execSubC16 d b s
  | .liC16 d i1 => Sys2Proof.Machine.execLiC16 d i1 s
  | .pmov d a => Sys2Proof.Machine.execPmov d a s
  | .pnot d a => Sys2Proof.Machine.execPnot d a s
  | .qpushC16 q s1 => Sys2Proof.Machine.execQpushC16 q s1 s
  | .qpopC16 q s1 => Sys2Proof.Machine.execQpopC16 q s1 s
  | .kpushC16 p => Sys2Proof.Machine.execKpushC16 p s
  | .kpopC16 p => Sys2Proof.Machine.execKpopC16 p s
  | .mark l h => Sys2Proof.Machine.execMark l h s
  | .ret => Sys2Proof.Machine.execRet s
  | .wall => Sys2Proof.Machine.execWall s
  | .add d a b => Sys2Proof.Machine.execAdd d a b s
  | .sub d a b => Sys2Proof.Machine.execSub d a b s
  | .and d a b => Sys2Proof.Machine.execAnd d a b s
  | .or d a b => Sys2Proof.Machine.execOr d a b s
  | .xor d a b => Sys2Proof.Machine.execXor d a b s
  | .shl d a b => Sys2Proof.Machine.execShl d a b s
  | .shr d a b => Sys2Proof.Machine.execShr d a b s
  | .sra d a b => Sys2Proof.Machine.execSra d a b s
  | .mul d a b => Sys2Proof.Machine.execMul d a b s
  | .mulh d a b => Sys2Proof.Machine.execMulh d a b s
  | .mulhu d a b => Sys2Proof.Machine.execMulhu d a b s
  | .min d a b => Sys2Proof.Machine.execMin d a b s
  | .max d a b => Sys2Proof.Machine.execMax d a b s
  | .minu d a b => Sys2Proof.Machine.execMinu d a b s
  | .maxu d a b => Sys2Proof.Machine.execMaxu d a b s
  | .mov d a => Sys2Proof.Machine.execMov d a s
  | .addi d a i1 => Sys2Proof.Machine.execAddi d a i1 s
  | .li d i1 => Sys2Proof.Machine.execLi d i1 s
  | .andi d a i1 => Sys2Proof.Machine.execAndi d a i1 s
  | .cmpEq d a b => Sys2Proof.Machine.execCmpEq d a b s
  | .cmpNe d a b => Sys2Proof.Machine.execCmpNe d a b s
  | .cmpLt d a b => Sys2Proof.Machine.execCmpLt d a b s
  | .cmpLe d a b => Sys2Proof.Machine.execCmpLe d a b s
  | .cmpGt d a b => Sys2Proof.Machine.execCmpGt d a b s
  | .cmpGe d a b => Sys2Proof.Machine.execCmpGe d a b s
  | .cmpLtu d a b => Sys2Proof.Machine.execCmpLtu d a b s
  | .cmpGeu d a b => Sys2Proof.Machine.execCmpGeu d a b s
  | .pand d a b => Sys2Proof.Machine.execPand d a b s
  | .por d a b => Sys2Proof.Machine.execPor d a b s
  | .pxor d a b => Sys2Proof.Machine.execPxor d a b s
  | .pandn d a b => Sys2Proof.Machine.execPandn d a b s
  | .sel d a b => Sys2Proof.Machine.execSel d a b s
  | .cmpi d a v c => Sys2Proof.Machine.execCmpi d a v c s
  | .ldB d a o => Sys2Proof.Machine.execLdB d a o s
  | .ldH d a o => Sys2Proof.Machine.execLdH d a o s
  | .ldW d a o => Sys2Proof.Machine.execLdW d a o s
  | .ldD d a o => Sys2Proof.Machine.execLdD d a o s
  | .stB d a o => Sys2Proof.Machine.execStB d a o s
  | .stH d a o => Sys2Proof.Machine.execStH d a o s
  | .stW d a o => Sys2Proof.Machine.execStW d a o s
  | .stD d a o => Sys2Proof.Machine.execStD d a o s
  | .amoAdd d a b s1 => Sys2Proof.Machine.execAmoAdd d a b s1 s
  | .amoSwap d a b s1 => Sys2Proof.Machine.execAmoSwap d a b s1 s
  | .amoCas d a b s1 => Sys2Proof.Machine.execAmoCas d a b s1 s
  | .amoMin d a b s1 => Sys2Proof.Machine.execAmoMin d a b s1 s
  | .amoMax d a b s1 => Sys2Proof.Machine.execAmoMax d a b s1 s
  | .amoAnd d a b s1 => Sys2Proof.Machine.execAmoAnd d a b s1 s
  | .amoOr d a b s1 => Sys2Proof.Machine.execAmoOr d a b s1 s
  | .br d a i1 => Sys2Proof.Machine.execBr d a i1 s
  | .call d a i1 => Sys2Proof.Machine.execCall d a i1 s
  | .jr a => Sys2Proof.Machine.execJr a s
  | .callr a => Sys2Proof.Machine.execCallr a s
  | .exit d a i1 => Sys2Proof.Machine.execExit d a i1 s
  | .qpush q a => Sys2Proof.Machine.execQpush q a s
  | .qpop d q => Sys2Proof.Machine.execQpop d q s
  | .qpushT q a b => Sys2Proof.Machine.execQpushT q a b s
  | .qpopT d q b => Sys2Proof.Machine.execQpopT d q b s
  | .kpush p => Sys2Proof.Machine.execKpush p s
  | .kpop p => Sys2Proof.Machine.execKpop p s
  | .cut m s1 => Sys2Proof.Machine.execCut m s1 s
  | .fwait d a b => Sys2Proof.Machine.execFwait d a b s
  | .bwait d a b => Sys2Proof.Machine.execBwait d a b s
  | .barInit a b => Sys2Proof.Machine.execBarInit a b s
  | .barArrive a => Sys2Proof.Machine.execBarArrive a s
  | .barExpect a b => Sys2Proof.Machine.execBarExpect a b s
  | .fence s1 => Sys2Proof.Machine.execFence s1 s
  | .time d => Sys2Proof.Machine.execTime d s
  | .contain d a i1 => Sys2Proof.Machine.execContain d a i1 s
  | .uncontain => Sys2Proof.Machine.execUncontain s
  | .trap a => Sys2Proof.Machine.execTrap a s
  | .eret => Sys2Proof.Machine.execEret s
  | .csrr d a b => Sys2Proof.Machine.execCsrr d a b s
  | .csrw d a b => Sys2Proof.Machine.execCsrw d a b s
  | .ctOpen d a => Sys2Proof.Machine.execCtOpen d a s
  | .ctClose d a => Sys2Proof.Machine.execCtClose d a s
  | .yield a => Sys2Proof.Machine.execYield a s
  | .brk => Sys2Proof.Machine.execBrk s
  | .copyG2s d a b c z => Sys2Proof.Machine.execCopyG2s d a b c z s
  | .copyS2g d a b c z => Sys2Proof.Machine.execCopyS2g d a b c z s
  | .copyG2c d a b c z => Sys2Proof.Machine.execCopyG2c d a b c z s
  | .copyC2g d a b c z => Sys2Proof.Machine.execCopyC2g d a b c z s
  | .copyC2s d a b c z => Sys2Proof.Machine.execCopyC2s d a b c z s
  | .copyS2c d a b c z => Sys2Proof.Machine.execCopyS2c d a b c z s
  | .copyX2s d a b c z => Sys2Proof.Machine.execCopyX2s d a b c z s
  | .copyS2x d a b c z => Sys2Proof.Machine.execCopyS2x d a b c z s
  | .copyRing d a b z => Sys2Proof.Machine.execCopyRing d a b z s
  | .copyMx d a b c z => Sys2Proof.Machine.execCopyMx d a b c z s
  | .copyMc d a b c z => Sys2Proof.Machine.execCopyMc d a b c z s
  | .cpSnap a b => Sys2Proof.Machine.execCpSnap a b s
  | .salloc d a => Sys2Proof.Machine.execSalloc d a s
  | .sfree a => Sys2Proof.Machine.execSfree a s
  | .imld a b c => Sys2Proof.Machine.execImld a b c s
  | .peerImp d a b => Sys2Proof.Machine.execPeerImp d a b s
  | .peerExp d a b c => Sys2Proof.Machine.execPeerExp d a b c s
  | .peerRel d a => Sys2Proof.Machine.execPeerRel d a s
  | .renq a b c => Sys2Proof.Machine.execRenq a b c s
  | .taskPost d a b => Sys2Proof.Machine.execTaskPost d a b s
  | .dqPush a c => Sys2Proof.Machine.execDqPush a c s
  | .dqPop d c => Sys2Proof.Machine.execDqPop d c s
  | .dqSteal d a c => Sys2Proof.Machine.execDqSteal d a c s
  | .rngSet a b c => Sys2Proof.Machine.execRngSet a b c s
  | .rngTake d a c => Sys2Proof.Machine.execRngTake d a c s
  | .rngSteal d a b c => Sys2Proof.Machine.execRngSteal d a b c s
  | .gath d a => Sys2Proof.Machine.execGath d a s
  | .scat d a => Sys2Proof.Machine.execScat d a s
  | .gathQ a => Sys2Proof.Machine.execGathQ a s
  | .ringInit d a b => Sys2Proof.Machine.execRingInit d a b s
  | .ringPush d a => Sys2Proof.Machine.execRingPush d a s
  | .ringPop d a => Sys2Proof.Machine.execRingPop d a s
  | .venc d a b => Sys2Proof.Machine.execVenc d a b s
  | .wload g => Sys2Proof.Machine.execWload g s
  | .wloadSpec g => Sys2Proof.Machine.execWloadSpec g s
  | .sload g s1 => Sys2Proof.Machine.execSload g s1 s
  | .bload g => Sys2Proof.Machine.execBload g s
  | .oload g s1 => Sys2Proof.Machine.execOload g s1 s
  | .bgeo g => Sys2Proof.Machine.execBgeo g s
  | .mma d g s1 => Sys2Proof.Machine.execMma d g s1 s
  | .mmaSpec d a s1 => Sys2Proof.Machine.execMmaSpec d a s1 s
  | .mzero d => Sys2Proof.Machine.execMzero d s
  | .xfFwd d a s1 => Sys2Proof.Machine.execXfFwd d a s1 s
  | .xfInv d a => Sys2Proof.Machine.execXfInv d a s
  | .domScl d a s1 => Sys2Proof.Machine.execDomScl d a s1 s
  | .segchk c => Sys2Proof.Machine.execSegchk c s
  | .vadd d a b => Sys2Proof.Machine.execVadd d a b s
  | .vsub d a b => Sys2Proof.Machine.execVsub d a b s
  | .vmul d a b => Sys2Proof.Machine.execVmul d a b s
  | .vmin d a b => Sys2Proof.Machine.execVmin d a b s
  | .vmax d a b => Sys2Proof.Machine.execVmax d a b s
  | .vabs d a => Sys2Proof.Machine.execVabs d a s
  | .vneg d a => Sys2Proof.Machine.execVneg d a s
  | .vmov d a => Sys2Proof.Machine.execVmov d a s
  | .vfma d a b => Sys2Proof.Machine.execVfma d a b s
  | .vfms d a b => Sys2Proof.Machine.execVfms d a b s
  | .vfnma d a b => Sys2Proof.Machine.execVfnma d a b s
  | .vfnms d a b => Sys2Proof.Machine.execVfnms d a b s
  | .vcmul d a b => Sys2Proof.Machine.execVcmul d a b s
  | .vand d a b => Sys2Proof.Machine.execVand d a b s
  | .vor d a b => Sys2Proof.Machine.execVor d a b s
  | .vxor d a b => Sys2Proof.Machine.execVxor d a b s
  | .vshl d a b => Sys2Proof.Machine.execVshl d a b s
  | .vshr d a b => Sys2Proof.Machine.execVshr d a b s
  | .vsra d a b => Sys2Proof.Machine.execVsra d a b s
  | .vadds d a b => Sys2Proof.Machine.execVadds d a b s
  | .vsubs d a b => Sys2Proof.Machine.execVsubs d a b s
  | .vcvt d a t p r => Sys2Proof.Machine.execVcvt d a t p r s
  | .vquant d a b => Sys2Proof.Machine.execVquant d a b s
  | .vcmpEq d a b => Sys2Proof.Machine.execVcmpEq d a b s
  | .vcmpNe d a b => Sys2Proof.Machine.execVcmpNe d a b s
  | .vcmpLt d a b => Sys2Proof.Machine.execVcmpLt d a b s
  | .vcmpLe d a b => Sys2Proof.Machine.execVcmpLe d a b s
  | .vcmpGt d a b => Sys2Proof.Machine.execVcmpGt d a b s
  | .vcmpGe d a b => Sys2Proof.Machine.execVcmpGe d a b s
  | .vcmpUn d a b => Sys2Proof.Machine.execVcmpUn d a b s
  | .vsel d a b => Sys2Proof.Machine.execVsel d a b s
  | .mand d a b => Sys2Proof.Machine.execMand d a b s
  | .mor d a b => Sys2Proof.Machine.execMor d a b s
  | .mxor d a b => Sys2Proof.Machine.execMxor d a b s
  | .mnot d a => Sys2Proof.Machine.execMnot d a s
  | .vredAdd d a => Sys2Proof.Machine.execVredAdd d a s
  | .vredMax d a => Sys2Proof.Machine.execVredMax d a s
  | .vredMin d a => Sys2Proof.Machine.execVredMin d a s
  | .vredAmax d a => Sys2Proof.Machine.execVredAmax d a s
  | .vexp2 d a => Sys2Proof.Machine.execVexp2 d a s
  | .vlog2 d a => Sys2Proof.Machine.execVlog2 d a s
  | .vrcp d a => Sys2Proof.Machine.execVrcp d a s
  | .vrsqrt d a => Sys2Proof.Machine.execVrsqrt d a s
  | .vtanh d a => Sys2Proof.Machine.execVtanh d a s
  | .vsigm d a => Sys2Proof.Machine.execVsigm d a s
  | .vtopk d a b => Sys2Proof.Machine.execVtopk d a b s
  | .vperm d a b => Sys2Proof.Machine.execVperm d a b s
  | .vbcast d a b => Sys2Proof.Machine.execVbcast d a b s
  | .vrev d a => Sys2Proof.Machine.execVrev d a s
  | .tcfg d a => Sys2Proof.Machine.execTcfg d a s
  | .trowRd d a b => Sys2Proof.Machine.execTrowRd d a b s
  | .trowWr d a b => Sys2Proof.Machine.execTrowWr d a b s
  | .tcolRd d a b => Sys2Proof.Machine.execTcolRd d a b s
  | .tcolWr d a b => Sys2Proof.Machine.execTcolWr d a b s
  | .tclean d => Sys2Proof.Machine.execTclean d s
  | .vpush m => Sys2Proof.Machine.execVpush m s
  | .vpop m => Sys2Proof.Machine.execVpop m s
  | .drain a g s1 => Sys2Proof.Machine.execDrain a g s1 s
  | .drainQ g s1 => Sys2Proof.Machine.execDrainQ g s1 s
  | .vins d a b => Sys2Proof.Machine.execVins d a b s
  | .vext d a b => Sys2Proof.Machine.execVext d a b s
  | .blockEntry => Sys2Proof.Machine.execBlockEntry s
  | .atomicBlockCommit => Sys2Proof.Machine.execAtomicBlockCommit s
  | .retirement core sq => Sys2Proof.Machine.execRetirement core sq s
  | .queueStallEnd => Sys2Proof.Machine.execQueueStallEnd s
  | .tokenStallEnd => Sys2Proof.Machine.execTokenStallEnd s
  | .ringStallEnd => Sys2Proof.Machine.execRingStallEnd s
  | .flagWaitMet => Sys2Proof.Machine.execFlagWaitMet s
  | .barrierWaitMet => Sys2Proof.Machine.execBarrierWaitMet s
  | .headerWaitMet => Sys2Proof.Machine.execHeaderWaitMet s
  | .waitTimeout => Sys2Proof.Machine.execWaitTimeout s
  | .queueOpTimeout => Sys2Proof.Machine.execQueueOpTimeout s
  | .acquireCompletion => Sys2Proof.Machine.execAcquireCompletion s
  | .cutTaken => Sys2Proof.Machine.execCutTaken s
  | .markFound => Sys2Proof.Machine.execMarkFound s
  | .cutMeeting core => Sys2Proof.Machine.execCutMeeting core s
  | .copyAppend => Sys2Proof.Machine.execCopyAppend s
  | .copyStart core => Sys2Proof.Machine.execCopyStart core s
  | .copyCompletion core pos => Sys2Proof.Machine.execCopyCompletion core pos s
  | .copyMxChainedPush core => Sys2Proof.Machine.execCopyMxChainedPush core s
  | .snapshotCompletion core pos => Sys2Proof.Machine.execSnapshotCompletion core pos s
  | .imldComplete core => Sys2Proof.Machine.execImldComplete core s
  | .kbcRelayout quad page => Sys2Proof.Machine.execKbcRelayout quad page s
  | .remoteEnqueueArrival core => Sys2Proof.Machine.execRemoteEnqueueArrival core s
  | .remoteWriteApply ix => Sys2Proof.Machine.execRemoteWriteApply ix s
  | .encoderStart die engine => Sys2Proof.Machine.execEncoderStart die engine s
  | .encoderCompletion die engine => Sys2Proof.Machine.execEncoderCompletion die engine s
  | .dispatchBind dom slot core => Sys2Proof.Machine.execDispatchBind dom slot core s
  | .taskStart core => Sys2Proof.Machine.execTaskStart core s
  | .preload dom slot core => Sys2Proof.Machine.execPreload dom slot core s
  | .preemptStop core => Sys2Proof.Machine.execPreemptStop core s
  | .contextSwitch core shadow => Sys2Proof.Machine.execContextSwitch core shadow s
  | .saveStart core shadow => Sys2Proof.Machine.execSaveStart core shadow s
  | .saveComplete core => Sys2Proof.Machine.execSaveComplete core s
  | .restoreComplete core => Sys2Proof.Machine.execRestoreComplete core s
  | .taskCompletion dom slot => Sys2Proof.Machine.execTaskCompletion dom slot s
  | .ageing dom slot => Sys2Proof.Machine.execAgeing dom slot s
  | .contractRelease dom contract => Sys2Proof.Machine.execContractRelease dom contract s
  | .overrun core => Sys2Proof.Machine.execOverrun core s
  | .miss dom contract => Sys2Proof.Machine.execMiss dom contract s
  | .rerun owner slot => Sys2Proof.Machine.execRerun owner slot s
  | .resume owner slot => Sys2Proof.Machine.execResume owner slot s
  | .drop owner slot => Sys2Proof.Machine.execDrop owner slot s
  | .release owner slot => Sys2Proof.Machine.execRelease owner slot s
  | .evict owner slot => Sys2Proof.Machine.execEvict owner slot s
  | .poolqWrite owner v => Sys2Proof.Machine.execPoolqWrite owner v s
  | .poolpwWrite core v => Sys2Proof.Machine.execPoolpwWrite core v s
  | .tshWrite core tile v => Sys2Proof.Machine.execTshWrite core tile v s
  | .agndWrite core set dim v => Sys2Proof.Machine.execAgndWrite core set dim v s
  | .capstopWrite core v => Sys2Proof.Machine.execCapstopWrite core v s
  | .captureStop core => Sys2Proof.Machine.execCaptureStop core s
  | .quadDeactivate quad => Sys2Proof.Machine.execQuadDeactivate quad s
  | .quadActivate quad => Sys2Proof.Machine.execQuadActivate quad s
  | .quadClearing quad => Sys2Proof.Machine.execQuadClearing quad s
  | .quadClearDone quad => Sys2Proof.Machine.execQuadClearDone quad s
  | .partslotWrite owner v => Sys2Proof.Machine.execPartslotWrite owner v s
  | .regownWrite region v => Sys2Proof.Machine.execRegownWrite region v s
  | .regionZeroing region => Sys2Proof.Machine.execRegionZeroing region s
  | .regionZeroingDone region => Sys2Proof.Machine.execRegionZeroingDone region s
  | .encownWrite die v => Sys2Proof.Machine.execEncownWrite die v s
  | .encownEffect die engine => Sys2Proof.Machine.execEncownEffect die engine s
  | .tlbInvalidate core va => Sys2Proof.Machine.execTlbInvalidate core va s
  | .tlbInvalidateAll core => Sys2Proof.Machine.execTlbInvalidateAll core s
  | .pmrExtend core x => Sys2Proof.Machine.execPmrExtend core x s
  | .attestRequest core v => Sys2Proof.Machine.execAttestRequest core v s
  | .attestReport ix => Sys2Proof.Machine.execAttestReport ix s
  | .freqatWrite v => Sys2Proof.Machine.execFreqatWrite v s
  | .frequencyChange => Sys2Proof.Machine.execFrequencyChange s
  | .powerControlWindow watts => Sys2Proof.Machine.execPowerControlWindow watts s
  | .railSample => Sys2Proof.Machine.execRailSample s
  | .wearselWrite v => Sys2Proof.Machine.execWearselWrite v s
  | .wearUpdate region => Sys2Proof.Machine.execWearUpdate region s
  | .timeCorrection region ahead => Sys2Proof.Machine.execTimeCorrection region ahead s
  | .scrubLine line => Sys2Proof.Machine.execScrubLine line s
  | .stop core scope => Sys2Proof.Machine.execStop core scope s
  | .run core scope => Sys2Proof.Machine.execRun core scope s
  | .stepIssue core sq => Sys2Proof.Machine.execStepIssue core sq s
  | .stepRetire core sq => Sys2Proof.Machine.execStepRetire core sq s
  | .stepEnd core => Sys2Proof.Machine.execStepEnd core s
  | .stepTimeout core => Sys2Proof.Machine.execStepTimeout core s
  | .dump core => Sys2Proof.Machine.execDump core s
  | .dumpDone core => Sys2Proof.Machine.execDumpDone core s
  | .load core => Sys2Proof.Machine.execLoad core s
  | .trcsrcWrite core v => Sys2Proof.Machine.execTrcsrcWrite core v s
  | .traceSample core => Sys2Proof.Machine.execTraceSample core s
  | .tlClear core => Sys2Proof.Machine.execTlClear core s
  | .replayInject core => Sys2Proof.Machine.execReplayInject core s
  | .hostWindowAccess win write off v => Sys2Proof.Machine.execHostWindowAccess win write off v s
  | .podLinkWrite path va v => Sys2Proof.Machine.execPodLinkWrite path va v s
  | .hostPortTraining port ucie2 narrow => Sys2Proof.Machine.execHostPortTraining port ucie2 narrow s
  | .powerOnReset ok => Sys2Proof.Machine.execPowerOnReset ok s
  | .makerDebugUnlock signed => Sys2Proof.Machine.execMakerDebugUnlock signed s
  | .heartbeat pkg => Sys2Proof.Machine.execHeartbeat pkg s
  | .packageFailureDetection pkg => Sys2Proof.Machine.execPackageFailureDetection pkg s
  | .buddyRecordApply pkg src block bytes => Sys2Proof.Machine.execBuddyRecordApply pkg src block bytes s
  | .checkpointManifest epoch addr ship => Sys2Proof.Machine.execCheckpointManifest epoch addr ship s
  | .unassignedEncoding => Sys2Proof.Machine.execUnassignedEncoding s
  | .loadDone core => Sys2Proof.Machine.execLoadDone core s
  | .buddyAcknowledgement epoch pkg ack => Sys2Proof.Machine.execBuddyAcknowledgement epoch pkg ack s
  | .spareAssignment pkg spare => Sys2Proof.Machine.execSpareAssignment pkg spare s

end Sys2Proof.Machine
end

