-- ==== Sys2Proof/Machine/Fetch.lean ====
section
/-! DEFINITION. What a sequencer does on its turn in a cycle: the event or the unit at its head (R48, R55, R61, R102 to R104, R116, R330,
R380, R389), and why it stands when it does nothing (R383). -/
namespace Sys2Proof.Machine

/-- What a sequencer does on its turn: nothing, with the state it is left in, or an instruction or event, run in a state that names its
unit. -/
inductive Pick where
  | idle (s : State)
  | run (i : Instr) (s : State)

/-- A sequencer that stands on this cycle, and why (R383, R384). -/
def State.stand (s : State) (c : Nat) (sm : Stream) (loss : Loss) (on : List Nat) : Pick :=
  .idle (s.modSeq c sm fun q => { q with loss := loss, waitsOn := on })

/-- The unit of an event of a sequencer that is not that of an instruction word. -/
def noUnit (c : Nat) (sm : Stream) : IssueUnit := { IssueUnit.none with core := c, sq := sm }

/-- An event of a sequencer. -/
def State.doEvent (s : State) (c : Nat) (sm : Stream) (i : Instr) : Pick := .run i { s with unit := noUnit c sm }

/-- Whether an instruction is of class H (R281). -/
def isH : Instr → Bool
  | .renq .. | .taskPost .. | .imld .. | .eret | .csrw .. | .ctOpen .. | .ctClose .. | .venc .. => true
  | _ => false

/-- Whether CTL waits at a `yield` for what has issued to retire; the other sequencers then issue nothing, unless a token push that it
waits for finds its queue full (R122). (DEDUCED, log entry 45.) -/
def Ctx.yielding (x : Ctx) : Bool :=
  (match x.ctl.stalled with | some (.yield _) => x.ctl.waitsOn == [] | _ => false)
    && !([Stream.ctl, .ld, .mx, .st].any fun sm => x.pushBlocked sm)

/-- Whether a `yield` has issued on this cycle, at the end of which the context leaves: no other sequencer issues any more (R122). -/
def Core.yielded (k : Core) : Bool := k.leaving == some .ended || k.leaving == some .yielded

/-! ### Frozen sides -/

/-- Whether LD or MX of a replaying core waits for an entry: both wait, as in a slip (R389). -/
def State.replaySlip (s : State) (c : Nat) : Bool :=
  (s.core c).watch.rplLive == 2 && (s.replayHolds c .ld || s.replayHolds c .mx)

/-- Whether LD and MX, with the vector unit, the array and the transform unit, are frozen on a cycle of a core (R22, R116, R389). A
cycle on which the handler is entered is a live one, and one on which it returns a frozen one. -/
def State.slipping (s : State) (c : Nat) : Bool :=
  (s.core c).cycle == .frozen || decide (0 < (s.core c).slips) || s.replaySlip c

/-- Whether a sequencer may not issue on this cycle because its side is frozen. -/
def State.frozen (s : State) (c : Nat) : Stream → Bool
  | .ctl => false
  | .st => (s.core c).cycle == .frozen
  | _ => s.slipping c

/-- Whether a debug step lets a sequencer issue on this cycle (R380). -/
def Debug.stepLets (d : Debug) (sm : Stream) (icnt : Nat) : Bool :=
  match d.step with
  | some (_, sq, n, _) => sq == sm && decide (icnt ≤ n)
  | none => true

/-! ### Waits -/

/-- Whether a body could not proceed now. -/
def Res.blocked : Res → Bool
  | .park .. | .stall .. | .linger .. => true
  | _ => false

/-- What ends the wait of a sequencer whose unit is the state's, if something does on this cycle: its condition before its timeout (R39, R57,
R73, R107, R111, R152, R153). A sender that is live again tries again, to join the order afresh (R292). -/
def State.waitEnd (s : State) (q : Seq) : Option Instr :=
  let late := fun (i : Instr) => if q.waitRem = 0 then some i else none
  let again := fun (i : Instr) =>
    if q.waitRem = 0 then some .queueOpTimeout
    else
      match s.waitTarget s.unit.core with
      | some t => if s.joined s.unit.core t.1 t.2 then none else some i
      | none => none
  match q.wait, q.stalled with
  | .fwait, some (.fwait d a _) =>
    if reached (s.my.links.flag d.toNat) ((s.r a).extractLsb' 0 8) then some .flagWaitMet else late .waitTimeout
  | .bwait, some (.bwait d a b) =>
    match s.bwaitSees a with
    | some (_, _, phase) => if phase ≠ bits (s.r d).toNat 3 0 then some .barrierWaitMet else late .waitTimeout
    | none => if (bwaitBody d a b s).traps then some (.bwait d a b) else late .waitTimeout
  | .header, _ =>
    if headerMet (s.my.links.flag q.headerWait.1) q.headerWait.2 then some .headerWaitMet else late .waitTimeout
  | .queueT, some (.qpushT k a _) => if (pushBody k (s.r a) s).blocked then late .queueOpTimeout else some .queueStallEnd
  | .queueT, some (.qpopT d k _) => if (popBody k d s).blocked then late .queueOpTimeout else some .queueStallEnd
  | .renq, some (.renq a b k) => if (renqBody a b k s).blocked then again (.renq a b k) else some (.renq a b k)
  | .taskPost, some (.taskPost d a b) => if (taskPostBody d a b s).blocked then again (.taskPost d a b) else some (.taskPost d a b)
  | _, _ => none

/-- What a waiting sequencer waits on (R384). -/
def Seq.waitObjects (q : Seq) : List Nat :=
  match q.wait, q.stalled with
  | .fwait, some (.fwait d _ _) => [32 + d.toNat]
  | .bwait, _ => [116]
  | .header, _ => [32 + q.headerWait.1]
  | .queueT, some (.qpushT k _ _) => [108 + k.toNat]
  | .queueT, some (.qpopT _ k _) => [108 + k.toNat]
  | .renq, _ => [118]
  | .taskPost, _ => [118]
  | _, _ => []

/-! ### CUT (R102) -/

/-- Whether an instruction of a sequencer would stall on a token, a value queue, a row queue or a ring, or finds a CUT word at the head of
the queue it pops (R102, R104). -/
def Ctx.meetsCut (x : Ctx) (sm : Stream) (t : Nat) (i : Instr) : Bool :=
  let l := x.links
  let head := fun (k : BitVec 3) => match (l.vqueue k.toNat).items with | e :: _ => e.cut | [] => false
  let bare := fun (k : BitVec 3) => (l.vqueue k.toNat).items.isEmpty
  match i with
  | .qpush k _ | .qpushC16 k _ => !l.vroom k.toNat 1
  | .qpushT k _ _ => decide (0 < t) && !l.vroom k.toNat 1
  | .qpop _ k | .qpopC16 k _ => head k || bare k
  | .qpopT _ k _ => head k || (decide (0 < t) && bare k)
  | .kpop p | .kpopC16 p => !l.canPop (popIxs sm (peerMask p))
  | .vpush .. => !l.rroom 6
  | .vpop .. => (l.rqueue 5).items.isEmpty
  | .gathQ _ => !l.rroom 5
  | .drainQ _ _ => (l.rqueue 6).items.isEmpty
  | .ringPop _ a => (x.ring a.toNat).count == 0
  | _ => false

/-- The timeout of a timed queue operation. -/
def Seq.timeoutOf (q : Seq) : Instr → Nat
  | .qpushT _ _ b | .qpopT _ _ b => timeout (q.reg b.toNat)
  | _ => 0

/-- Whether the unit at a sequencer's head is a point at which a CUT is taken (R102): its guard holds and it would stall.
(DEDUCED, log entry 40.) -/
def Ctx.cutPoint (x : Ctx) (u : IssueUnit) (i : Instr) : Bool :=
  u.guard && fateOf i u.core u.sq true false u.ty u.hasTyp u.hasPre (u.popM != 0) == .own
    && (!x.links.canPop (popIxs u.sq u.popM) || x.meetsCut u.sq ((x.seq u.sq).timeoutOf i) i)

/-! ### The unit at the head -/

/-- Whether a unit of so many halfwords can issue: they stand in the loop buffer, or have been fetched (R60, R61). (DEDUCED, log entry 87.) (DEDUCED, log entry 129.) -/
def Seq.hasFetched (q : Seq) (len : Nat) : Bool := (q.lb == some q.hdr && decide (0 < q.rep)) || decide (len ≤ q.fetched)

/-- A sequencer whose unit has yet to be fetched; a consumer has then looked at it, so that a CUT that comes later is not at the end of the
repetition (R102). -/
def Seq.awaitFetch (q : Seq) (sm : Stream) (i : Instr) : Seq :=
  { q with loss := .engine, waitsOn := [], stalled := if sm = .ctl then q.stalled else some i }

/-- Whether an instruction is a `kpop`, which waits for a token of its own. -/
def isKpop : Instr → Bool
  | .kpop _ | .kpopC16 _ => true
  | _ => false

/-- The event under which a stalled unit proceeds: its own for a queue, a token, a ring or the command queue, or none. -/
def Ctx.stallEvent (x : Ctx) (u : IssueUnit) (i : Instr) : Option Instr :=
  let q := x.seq u.sq
  if q.stalled ≠ some i ∨ q.waitsOn = [] then
    if q.stalled = some i ∧ isCopy i ∧ x.eng.waiting.isSome then some .copyAppend else none
  else if q.waitsOn.all fun w => 96 ≤ w && decide (w < 108) then
    if x.links.canPop (popIxs u.sq u.popM) ∧ ¬ isKpop i then some .tokenStallEnd else none
  else if x.meetsCut u.sq 1 i then none
  else if q.waitsOn = [117] then some .ringStallEnd
  else if q.waitsOn.all fun w => 108 ≤ w && decide (w < 116) then some .queueStallEnd
  else none

/-- The unit at a sequencer's head, framed, on its turn (R48, R61, R280, R389). -/
def State.pickUnit (s : State) (c : Nat) (sm : Stream) (q : Seq) (f : Framed) : Pick :=
  let u := q.issueUnit c sm f
  let s1 := { s with unit := u }
  let x := s.ctx c
  let i := f.instr
  if q.wait = .queueT ∧ (x.cutWord sm).isSome ∧ x.meetsCut sm q.waitRem i then .run .cutTaken s1
  else if q.wait ≠ .none then
    if (q.wait = .fwait ∨ q.wait = .bwait) ∧ x.cr.errors ≠ [] then .idle (s.deliver c false)
    else
      match s1.waitEnd q with
      | some e => .run e s1
      | none => s.stand c sm .flag q.waitObjects
  else if (x.cutWord sm).isSome ∧ x.cutPoint u i then .run .cutTaken s1
  else if ¬ q.hasFetched f.len then .idle (s.modSeq c sm fun q => q.awaitFetch sm i)
  else if sm = .ctl ∧ isH i ∧ (s.core c).demand = some 0 then s.stand c sm .engine []
  else
    match s1.diverges c sm q i with
    | some ix => .idle (s.raiseDivergence c sm ix)
    | none =>
      match x.stallEvent u i with
      | some e => .run e s1
      | none => .run i s1

/-- A sequencer at a header on its turn (R55): it enters the block once the header has been fetched. -/
def State.pickHeader (s : State) (c : Nat) (sm : Stream) (q : Seq) : Pick :=
  let w := q.headerAt q.pc.toNat
  if q.wait = .header then
    match ({ s with unit := noUnit c sm }).waitEnd q with
    | some e => s.doEvent c sm e
    | none => s.stand c sm .flag q.waitObjects
  else if q.fetched < 2 then s.stand c sm .engine []
  else if sm = .ctl ∧ w.extractLsb' 30 2 = 1 ∧ (s.core c).demand = some 0 then s.stand c sm .engine []
  else if q.stalled = some .blockEntry ∧ ((s.ctx c).links.vqueue (ctlQueue sm)).items ≠ [] then s.doEvent c sm .queueStallEnd
  else s.doEvent c sm .blockEntry

/-- A sequencer in a CUT search on its turn (R103): one block per cycle, with the checks of its header. -/
def State.pickSearch (s : State) (c : Nat) (sm : Stream) (q : Seq) (m : BitVec 10) (pos : Half) : Pick :=
  match q.headerFault sm pos.toNat with
  | some e => .idle ((s.modSeq c sm fun q => { q with pc := pos }).takeTrap c sm e 0 false)
  | none => if q.marked pos.toNat m then s.doEvent c sm .markFound else .idle (s.modSeq c sm Seq.searchOn)

/-- Whether a CUT word of a consumer is taken before its unit is looked at (R102): at a header, or at the end of a repetition, when the
first unit of the next has not been looked at yet. -/
def Ctx.cutFirst (x : Ctx) (sm : Stream) : Bool :=
  let q := x.seq sm
  (x.cutWord sm).isSome
    && (!q.inBody || (decide (0 < q.rep) && q.pc.toNat == q.hdr.toNat + 2 && q.part == 0 && q.stalled == none && q.wait == .none))

/-- A sequencer that may issue, on its turn. -/
def State.pickLive (s : State) (c : Nat) (sm : Stream) : Pick :=
  let x := s.ctx c
  let q := x.seq sm
  if sm = .ctl ∧ x.eng.imld.isSome then s.stand c sm .engine []
  else if sm = .ctl ∧ 0 < x.cr.acquireUntil then
    if x.cr.acquireUntil ≤ s.timeOf (Config.quadOf c) then s.doEvent c sm .acquireCompletion else s.stand c sm .engine []
  else if x.pushBlocked sm then
    let ix := match q.flight with | f :: _ => pushIxs sm f.pushM | [] => []
    if x.links.canPush ix then s.doEvent c sm .tokenStallEnd else s.stand c sm .flag ((ix.filter fun k => !x.links.canPush [k]).map (96 + ·))
  else
    match q.cut with
    | .search m _ pos => s.pickSearch c sm q m pos
    | .meeting _ _ _ => s.stand c sm .flag [119]
    | .none =>
      if x.cutFirst sm then s.doEvent c sm .cutTaken
      else if s.replayHolds c sm then s.stand c sm .engine []
      else if ¬ q.inBody then s.pickHeader c sm q
      else if sm = .ctl ∧ x.cr.atomic.isSome ∧ q.bodyEnd ≤ q.pc.toNat then s.doEvent c sm .atomicBlockCommit
      else
        match q.frame sm with
        | .error e => .idle (s.takeTrap c sm e 0 false)
        | .ok f => s.pickUnit c sm q f

/-- A SEQUENCER'S TURN in a cycle: a core whose log's write buffer is full stalls (R388), and CTL issues nothing on a cycle that a fault has met
before its turn (R362). -/
def State.pick (s : State) (c : Nat) (sm : Stream) : Pick :=
  let k := s.core c
  if ¬ k.hasLive then .idle s
  else if k.dbg.stopped ∨ ¬ k.dbg.stepLets sm (k.live.seq sm).icnt then s.stand c sm .empty []
  else if s.logFull c ∨ (sm = .ctl ∧ k.leaving ≠ none) then s.stand c sm .engine []
  else if s.frozen c sm then s.stand c sm .engine []
  else if sm ≠ .ctl ∧ (k.live.yielding ∨ k.yielded) then s.stand c sm .engine []
  else s.pickLive c sm

end Sys2Proof.Machine
end

