-- ==== Sys2Proof/Machine/Tick.lean ====
section
/-! DEFINITION. The end of a cycle (retirements, pushes made visible, counters, timeouts, the time base, the events that fall due) and the
beginning of the next (results landing, and one cycle of every load, array operation, transform and drain). -/
namespace Sys2Proof.Machine

/-! ### The end of a cycle of a core -/

/-- A sequencer whose retirement has found a token queue full stands from now on until it can push (R20). -/
def Seq.markLate (q : Seq) (cmds : List Command) : Seq :=
  { q with
    flight := match q.flight with
      | f :: fs => if f.ripe cmds ∧ f.ring = none ∧ f.pushM ≠ 0 then { f with late := true } :: fs else f :: fs
      | [] => [] }

/-- The state in which a core's cycle has seen no trap, but for one that has unwound CTL alone. -/
def State.reopened (s : State) (c : Nat) : State :=
  if (s.core c).cycle = .trapped then s.modCore c fun k => { k with cycle := .running } else s

/-- Whether a cycle has seen a trap. -/
def Cycle.seen : Cycle → Bool
  | .trapped | .unwound => true
  | .running | .frozen => false

/-- Whether what a sequencer has reached, `t`, is a trap on a cycle that has seen one before (R346). -/
def State.trapsAgain (s : State) (c : Nat) (t : State) : Bool := (s.core c).cycle.seen && (t.core c).cycle == .trapped

/-- ONE TRAP A CYCLE (R346): what `t`, reached from `s` by one sequencer, leaves. On a cycle that has seen a trap of a stream before, a
further trap is discarded with all that led to it. (DEDUCED, log entry 97.) -/
def State.oneTrap (s : State) (c : Nat) (t : State) : State :=
  if s.trapsAgain c t then s
  else if (s.core c).cycle.seen then t.modCore c fun k => { k with cycle := (s.core c).cycle }
  else t

/-- The retirements of a sequencer on a cycle, and those still to come one cycle nearer (R246). -/
def State.retireAll (s : State) (c : Nat) (sm : Stream) : State :=
  let s1 := iterate (s.seq c sm).flight.length (fun _ (a : State) => a.oneTrap c ((a.reopened c).retireOne c sm)) s
  s1.modSeq c sm fun q =>
    let q1 := q.markLate (s1.ctx c).eng.cmds
    { q1 with flight := q1.flight.map fun f => { f with due := f.due - 1 } }

/-- The time-loss counters of a core after a cycle (R384): each head's class, and each object that a sequencer waited on. -/
def Ctx.account (x : Ctx) (head : Loss) (t : Table Nat) : Table Nat :=
  let heads := ([x.ctl.loss, x.ld.loss, x.mx.loss, x.st.loss, head].zipIdx).filter fun (p : Loss × Nat) => p.1 != .empty
  let on := (x.ctl.waitsOn ++ x.ld.waitsOn ++ x.mx.waitsOn ++ x.st.waitsOn).eraseDups
  (heads.map (fun (p : Loss × Nat) => 4 * p.2 + lossCode p.1) ++ on).foldl (fun t i => update 0 t i (· + 1)) t

/-- A value queue at the end of a cycle: what was pushed on it is visible, and what was popped makes room (R19). -/
def VQueue.turn (v : VQueue) : VQueue := { items := v.items ++ v.staged, staged := [], popped := 0 }

/-- A row queue at the end of a cycle (R19). -/
def RQueue.turn (v : RQueue) : RQueue := { items := v.items ++ v.staged, staged := [], popped := 0 }

/-- A token queue at the end of a cycle (R20). -/
def Token.turn (t : Token) : Token := { count := t.count + t.staged, staged := 0, popped := 0 }

/-- The links at the end of a cycle. -/
def Links.turn (l : Links) : Links :=
  { l with vq := mapTable .empty VQueue.turn l.vq, rq := mapTable .empty RQueue.turn l.rq, tok := mapTable .zero Token.turn l.tok }

/-- The figures of the open segment at the end of a cycle (R186): slip cycles, stalls on queues, tokens and rings, and CUT searches are
not counted, nor the cycles of a replay (R188); a closed segment leaves an empty one. (DEDUCED, log entry 55.) -/
def Matrix.countSeg (m : Matrix) (mx : Seq) (slip : Bool) : Matrix :=
  if m.segClose then m.openSeg
  else if slip ∨ m.segStopped ∨ mx.loss = .flag ∨ mx.cut ≠ .none then m
  else { m with segCyc := m.segCyc + 1 }

/-- The units of MX one cycle nearer to being free. -/
def Matrix.countUnits (m : Matrix) : Matrix :=
  { m with vbusy := m.vbusy - 1, abusy := m.abusy - 1, xbusy := m.xbusy - 1, replaying := m.replaying - 1 }

/-- A sequencer at the end of a cycle: four more halfwords are fetched, and a wait has one cycle less (R39, R60). (DEDUCED, log entry 87.)
(DEDUCED, log entry 88.) -/
def Seq.turn (q : Seq) (fetches counts : Bool) : Seq :=
  { q with
    fetched := if fetches then Nat.min 16 (q.fetched + 4) else q.fetched
    waitRem := if counts then q.waitRem - 1 else q.waitRem }

/-- The sequencers, links, engine and matrix side of a live context at the end of a cycle; `held` says whose timeouts stand still
(R380, R382). -/
def Ctx.turn (x : Ctx) (slip : Bool) (held : Stream → Bool) (head : Loss) : Ctx :=
  let loading := fun (sm : Stream) => match x.eng.imld with | some (k, _) => k == streamCode sm | none => false
  let go := fun (sm : Stream) (q : Seq) => q.turn (!loading sm) (!held sm && (sides slip).contains sm)
  let m := x.mat.countSeg x.mx slip
  { x with
    ctl := go .ctl x.ctl, ld := go .ld x.ld, mx := go .mx x.mx, st := go .st x.st
    links := x.links.turn
    mat := if slip then m else m.countUnits
    eng := { x.eng with moving := false, head := head, imld := x.eng.imld.map fun p => (p.1, p.2 - 1) }
    cr := if slip then { x.cr with slipcnt := x.cr.slipcnt + 1 } else x.cr }

/-- Whether the timeouts of a core stand still (R382): its partition is of the held set, and some core of the set is stopped, or another makes a
step before its RUN. (DEDUCED, log entry 88.) -/
def State.timersHeld (s : State) (c : Nat) : Bool :=
  let inSet := fun (k : Nat) => s.hub.psSet.getLsbD (s.partOf k)
  s.hub.psHold && inSet c && s.cores.any fun e => (e.2.dbg.stopped || (e.2.dbg.step.isSome && e.1 != c)) && inSet e.1

/-- Whether the timeouts of a sequencer stand still: its core's do, or a step is being made of another sequencer (R380). -/
def State.waitHeld (s : State) (c : Nat) (sm : Stream) : Bool :=
  s.timersHeld c || (match (s.core c).dbg.step with | some t => t.2.1 != sm | none => false)

/-- A core's own counts at the end of a live cycle: slip cycles to come (R22), the capture count (R361), the cycles of a step (R380) and
the time-loss account. -/
def Core.turn (k : Core) (slip : Bool) (conflict : Nat) (head : Loss) : Core :=
  { k with
    slips := if 0 < k.slips then k.slips - 1 else conflict
    captCount := match k.captCount with
      | some (n + 1) => if slip then some (n + 1) else some n
      | e => e
    dbg := { k.dbg with step := k.dbg.step.map fun t => (t.1, t.2.1, t.2.2.1, t.2.2.2 + 1) }
    watch := { k.watch with
      tl := k.live.account head k.watch.tl, stamps := k.watch.stamps.map fun r => r.classed k.live.ctl.loss } }

/-- The extra cycles of a bank conflict with the copy engine; none while it has started nothing (R22). (DESIGN CHOICE, log entry 25.) -/
def State.conflict (s : State) (c : Nat) : Nat :=
  if (s.ctx c).eng.cmds.any (·.started) then Config.bankConflict c s.cc else 0

/-- The budget that a core's job has used grows by a cycle (R285). -/
def State.countBudget (s : State) (c : Nat) : State :=
  match (s.ctx c).task with
  | some (d, n) => if (s.slot d n).job then s.modSlot d n fun x => { x with budget := x.budget + 1 } else s
  | none => s

/-- The write bits of segments 0 to 39 of a core's live context set for what has changed since its last save or restore (R341).
(DEDUCED, log entry 62.) -/
def State.noteWrites (s : State) (c : Nat) : State :=
  let x := s.ctx c
  match x.task with
  | some t =>
    if x.clean.any fun e => e.1 < 40 then
      let j : SaveJob :=
        { holds := [], area := 0, core := c, ctx := x, slice := (s.core c).liveSl, images := (s.slot t.1 t.2).images, own := 0, imm := x.imm }
      s.modCtx c fun x => { x with clean := s.markSegs j }
    else s
  | none => s

/-- A core on whose cycle a capture stop falls: its trap is the one of the cycle (R346, R361). -/
def Core.noteStop (k : Core) : Core :=
  if k.captArm ∧ k.captCount = some 0 ∧ k.cycle = .running then { k with cycle := .trapped } else k

/-- The end of a cycle of a live core that is not stopped; a context that is to leave does so when everything of the cycle has been done
(R330, R362). -/
def State.turnLive (s : State) (c : Nat) : State :=
  let slip := s.slipping c
  let held := s.waitHeld c
  let head := s.engineLoss c
  let conflict := s.conflict c
  let s1 := (s.modCore c fun k => (k.turn slip conflict head).noteStop).countBudget c
  let s2 := (sides slip).foldl (fun (a : State) sm => a.retireAll c sm) s1
  let s3 := (((s2.modCtx c fun x => x.turn slip held head).noteWrites c).modCore c fun k => { k with start := none }).depart c
  match (s3.core c).dbg.request with
  | some why => s3.stopNow c why
  | none => s3

/-- The end of a cycle of a core: a stopped one counts slip cycles only (R377), its heads being EMPTY (R383), one with no live context its switch (R25). -/
def State.turnCore (s : State) (c : Nat) : State :=
  let s0 := s.modCore c fun k =>
    { k with
      switchTo := if k.hasLive then k.switchTo else k.switchTo.map fun w => (w.1, w.2 - 1)
      demand := k.demand.map (· - 1), watch := { k.watch with since := k.watch.since + 1 } }
  if (s0.core c).dbg.stopped then
    s0.modCtx c fun x => { x with
      cr := { x.cr with slipcnt := x.cr.slipcnt + ofBool (s0.core c).hasLive }, eng := { x.eng with head := .empty } }
  else if (s0.core c).hasLive then s0.turnLive c
  else
    match (s0.core c).dbg.request with
    | some why => s0.stopNow c why
    | none => s0

/-! ### The events that fall due -/

/-- The events of a core that the end of a cycle makes due. -/
def State.coreEvents (s : State) (c : Nat) : List Instr :=
  let k := s.core c
  let live := k.hasLive && !k.dbg.stopped
  let when := fun (b : Bool) (i : Instr) => if b then [i] else []
  when (live && k.live.canMeet) (.cutMeeting c)
    ++ when (live && (match k.live.eng.imld with | some (_, 0) => true | _ => false)) (.imldComplete c)
    ++ when (k.hasLive && k.captCount == some 0) (.captureStop c)
    ++ when (s.stopsNow c) (.preemptStop c)
    ++ when (s.overruns c) (.overrun c)
    ++ when (s.stepDone c) (.stepEnd c)
    ++ when (match k.dbg.step with | some t => decide (stepLimit ≤ t.2.2.2) | none => false) (.stepTimeout c)
    ++ when k.watch.sampleDue (.traceSample c)
    ++ when (live && (s.injectDue c).isSome) (.replayInject c)
    ++ (match k.switchTo with | some (b, 0) => when (!k.hasLive) (.contextSwitch c b) | _ => [])

/-- The events of the pools that the end of a cycle makes due. -/
def State.poolEvents (s : State) : List Instr :=
  (s.slots.filterMap fun e => if s.ages (e.1 / 4096) (e.1 % 4096) then some (.ageing (e.1 / 4096) (e.1 % 4096)) else none)
    ++ (s.contracts.flatMap fun e =>
      let d := e.1 / 4096
      let n := e.1 % 4096
      (if (s.misses d n).isSome then [Instr.miss d n] else [])
        ++ if e.2.isOpen ∧ e.2.next ≤ s.cc then [Instr.contractRelease d n] else [])

/-- Every event that the end of a cycle makes due, and then what engines, hub, fabric and outside world do on the cycle; `before` is what TIME
was. -/
def State.dueEvents (s : State) (before : Nat) : List Instr :=
  s.cores.flatMap (fun e => s.coreEvents e.1) ++ s.poolEvents
    ++ (if s.power.due s.time then [Instr.frequencyChange] else [])
    ++ (if before ≠ s.time ∧ s.time % 400 = 0 then [Instr.railSample] else [])
    ++ Config.arrivals s.cc

/-- The time base at the end of a cycle (R29, R395): 400 MHz against the point in force, from its release during bring-up on (R400). A package
that is ahead of its pod holds a tick, and one that is behind takes one more. (DEDUCED, log entry 102.) -/
def State.turnTime (s : State) : State :=
  let f := s.ttFrac + 400
  let mhz := pointMhz s.power.cur
  let t := { s with cc := s.cc + 1, ticked := false }
  if ¬ s.hub.up then t
  else
    let t := { t with ttFrac := if mhz ≤ f then f - mhz else f }
    match s.adjust, decide (mhz ≤ f) with
    | some true, true => { t with adjust := none }
    | some false, false => { t with time := s.time + 1, ticked := true, adjust := none }
    | _, true => { t with time := s.time + 1, ticked := true }
    | _, false => t

/-- THE END OF A CYCLE: log entries leave for memory (R388), then every core in turn, the time base with power control's window (R397), and the events that fall due. (DESIGN CHOICE,
log entry 60.) -/
def State.endCycle (s : State) : State :=
  let s0 := s.cores.foldl (fun (a : State) e => a.flushEvents e.1) s
  let s1 := ((s0.cores.foldl (fun (a : State) e => a.turnCore e.1) s0).turnTime).endWindow (Config.meanDraw s.hub.window)
  { s1 with agenda := s1.dueEvents s.time, turn := .begin }

/-! ### The beginning of a cycle -/

/-- A core at the beginning of a cycle, which is the handler's where ESTAT.INH is 1 (R116, R118); no flag has risen on it yet (R119).
(DEDUCED, log entry 97.) -/
def Core.newCycle (k : Core) : Core :=
  { k with
    cycle := if k.hasLive && k.live.cr.inh then .frozen else .running, slip := false, sharp := false
    live := { k.live with links := { k.live.links with raised := [] } } }

/-- A core that keeps what its cycle begins with (R362). -/
def Core.keepStart (k : Core) : Core := { k with start := some { live := k.live, pool := k.pool, poolBad := k.poolBad } }

/-- The state in which a core's context and pool stand as the cycle found them. -/
def State.rewind (s : State) (c : Nat) : State :=
  match (s.core c).start with
  | some b => s.modCore c fun k => { k with live := b.live, pool := b.pool, poolBad := b.poolBad, start := none }
  | none => s

/-- The state in which a sequencer has entered the blocks on the way to a unit that it has come to, as it does on the cycle on which the unit
would issue (R61). -/
def State.enterTo (s : State) (c : Nat) (sm : Stream) (at_ : Half) : State :=
  iterate 8 (fun _ (a : State) => if (a.seq c sm).inBody ∨ (a.seq c sm).pc = at_ then a else a.enter c sm) s

/-- A PRECISE FAULT ends its cycle where it began (R362): nothing has issued or landed, no block has been entered, and the context leaves. Its
record names the unit. -/
def State.faultBefore (s : State) (c : Nat) (sm : Stream) (at_ : Half) (cause : Cause) (info : Word) : State :=
  let s1 := (s.rewind c).headHeld c sm
  let name := ((s1.enterTo c sm at_).headHeld c sm).seqName c sm
  (((s1.trace c 2 name (causeCode cause + info.toNat % 2 ^ 56 * 256)).modCore c fun k => k.noteTrap true false).faultTask c sm cause info
    true).leaveNow c

/-- The precise fault that a cycle of a core is going to end in, if it is, found by running its turns (R362): `run` runs one turn, and fuel
bounds them. -/
def State.foresee (run : State → Nat → Stream → State) (c : Nat) : Nat → State → Option (Stream × Half × Cause × Word)
  | 0, _ => none
  | n + 1, s =>
    match (s.core c).leaving, s.turn with
    | some (.precise sm at_ cause info), _ => some (sm, at_, cause, info)
    | some _, _ => none
    | none, .issue k sm => if k = c then State.foresee run c n (run s c sm) else none
    | none, _ => none

/-- The turns of a cycle of a core that are looked at for a precise fault. -/
def turnFuel : Nat := 24

/-- Whether a precise trap of a context would fault its task (R116). -/
def CtlRegs.faults (r : CtlRegs) : Bool := !(r.trapEn && !r.inh)

/-- The beginning of a cycle of a core: the errors that fell due since the last are delivered (R115), results land, then every load, array
operation, transform and drain has its cycle. -/
def State.beginCore (s : State) (c : Nat) : State :=
  let s0 := s.modCore c Core.newCycle
  if ¬ (s0.core c).hasLive ∨ (s0.core c).dbg.stopped then s0
  else
    let s0 := s0.deliver c true
    let slip := s0.slipping c
    let s1 := s0.modCore c fun k => { k.keepStart with slip := slip }.landAll slip
    (if slip then s1 else ((s1.stepFills c).stepOps c).stepTransforms c).stepDrains c

/-- The sequencer that has its turn first among the cores from a number on; else the steals of the cycle, or its end. -/
def State.firstTurn (s : State) (c : Nat) : Turn :=
  match s.cores.find? fun e => decide (c ≤ e.1) && e.2.hasLive with
  | some e => .issue e.1 .ctl
  | none => if s.late = [] then .tick else .late

/-- The turn after a sequencer's. (DESIGN CHOICE, log entry 8.) -/
def State.nextTurn (s : State) (c : Nat) : Stream → Turn
  | .ctl => .issue c .ld
  | .ld => .issue c .mx
  | .mx => .issue c .st
  | .st => s.firstTurn (c + 1)

/-- THE BEGINNING OF A CYCLE: the trace records of the last one enter their rings (R372), and every core begins. -/
def State.beginCycle (s : State) : State :=
  let s0 := s.cores.foldl (fun (a : State) e => (a.flushRecs e.1).flushStamps e.1) { s with barTurn := [], late := [] }
  let s1 := s0.cores.foldl (fun (a : State) e => a.beginCore e.1) s0
  { s1 with turn := s1.firstTurn 0 }

/-- After CTL's turn, what it has written to SCR is seen by the reads that MX makes on the cycle (R245, R249). -/
def State.shareStores (s : State) (c : Nat) : State :=
  if ¬ (s.core c).stored then s
  else
    let s1 := s.modCore c fun k => { k with stored := false }
    if (s.core c).hasLive ∧ ¬ s.slipping c then s1.seeStores c else s1

/-- The state after a sequencer's turn: the same sequencer goes on in this cycle, or the next has its turn (R61). -/
def State.endTurn (s0 : State) (c : Nat) (sm : Stream) : State :=
  let s := if sm = .ctl then s0.shareStores c else s0
  if s.unit.stay then { s with unit := { s.unit with stay := false } } else { s with turn := s.nextTurn c sm }

/-- What an execution on a sequencer's turn leaves, its turn ended. -/
def afterTurn (c : Nat) (sm : Stream) : Out State → Out State
  | .next s => .next (s.endTurn c sm)
  | .fault e => .fault e
  | .refused e => .refused e

/-! ### Steals (R154, R155) -/

/-- Whether an instruction is a steal, which has its turn after every sequencer of the cycle. -/
def isSteal : Instr → Bool
  | .dqSteal .. | .rngSteal .. => true
  | _ => false

/-- The turn of the steal that a core's CTL stands at, if it still stands there on this cycle. -/
def State.pickLate (s : State) (c : Nat) : Pick :=
  if (s.core c).cycle.seen then .idle s
  else
    match s.pick c .ctl with
    | .run i t => if isSteal i then .run i { t with unit := { t.unit with late := true } } else .idle s
    | .idle _ => .idle s

/-- What the turn of a steal leaves: the next one has its turn. -/
def afterSteal (rest : List Nat) : Out State → Out State
  | .next s => .next { s with late := rest }
  | .fault e => .fault e
  | .refused e => .refused e

/-! ### Events from the agenda -/

/-- Whether the array is to pop an empty ring at a retirement of this cycle, which traps RING of MX (R136). -/
def State.ringTraps (s : State) (c : Nat) : Bool :=
  (sides (s.slipping c)).contains .mx && !((s.core c).captArm && (s.core c).captCount == some 1) && ((s.retireAll c .mx).core c).cycle == .trapped

/-- The sequencer whose trap is discarded stands (R346): a trap of a lower stream has been taken on the cycle, or MX's of a retirement is to
be. -/
def State.afterTrap (s : State) (c : Nat) (sm : Stream) (t : State) : State :=
  if s.trapsAgain c t ∨ (sm = .st ∧ (s.core c).cycle = .running ∧ (t.core c).cycle = .trapped ∧ s.ringTraps c) then
    s.headHeld c sm
  else s.oneTrap c t

/-- What an execution on a sequencer's turn leaves, one trap a cycle at most (R346). -/
def keepOneTrap (s : State) (c : Nat) (sm : Stream) : Out State → Out State
  | .next t => .next (s.afterTrap c sm t)
  | .fault e => .fault e
  | .refused e => .refused e

/-- Whether an instruction is an event that comes about apart from a sequencer's turn. -/
def isEvent : Instr → Bool
  | .cutMeeting _ | .copyStart _ | .copyCompletion _ _ | .copyMxChainedPush _ | .snapshotCompletion _ _ | .imldComplete _
  | .kbcRelayout _ _ | .remoteEnqueueArrival _ | .remoteWriteApply _ | .encoderStart _ _ | .encoderCompletion _ _
  | .dispatchBind _ _ _ | .taskStart _ | .preload _ _ _ | .preemptStop _ | .contextSwitch _ _ | .saveStart _ _ | .saveComplete _
  | .restoreComplete _ | .taskCompletion _ _ | .ageing _ _ | .contractRelease _ _ | .overrun _ | .miss _ _ | .rerun _ _
  | .resume _ _ | .drop _ _ | .release _ _ | .evict _ _ | .poolqWrite _ _ | .poolpwWrite _ _ | .tshWrite _ _ _ | .agndWrite _ _ _ _
  | .capstopWrite _ _ | .captureStop _ | .quadDeactivate _ | .quadActivate _ | .quadClearing _ | .quadClearDone _
  | .partslotWrite _ _ | .regownWrite _ _ | .regionZeroing _ | .regionZeroingDone _ | .encownWrite _ _ | .encownEffect _ _
  | .tlbInvalidate _ _ | .tlbInvalidateAll _ | .pmrExtend _ _ | .attestRequest _ _ | .attestReport _ | .freqatWrite _
  | .frequencyChange | .powerControlWindow _ | .railSample | .wearselWrite _ | .wearUpdate _ | .timeCorrection _ _ | .scrubLine _
  | .stop _ _ | .run _ _ | .stepIssue _ _ | .stepRetire _ _ | .stepEnd _ | .stepTimeout _ | .dump _ | .dumpDone _ | .load _
  | .loadDone _ | .trcsrcWrite _ _ | .traceSample _ | .tlClear _ | .replayInject _ | .hostWindowAccess _ _ _ _ | .podLinkWrite _ _ _
  | .hostPortTraining _ _ _ | .powerOnReset _ | .makerDebugUnlock _ | .heartbeat _ | .packageFailureDetection _
  | .buddyRecordApply _ _ _ _ | .buddyAcknowledgement _ _ _ | .spareAssignment _ _
  | .checkpointManifest _ _ _ => true
  | _ => false

/-! ### A program placed at a sequencer -/

/-- The core on which an instruction is placed: core 0, of kind Hilen A, or core 72, of kind Hilen B (R8). -/
def coreFor (i : Instr) : Nat := if (i.required 0).any (fun p => p == .media || p == .wide) then 72 else 0

/-- The first stream, in the order CTL, LD, MX, ST, that accepts an instruction with its operands; CTL where none does. -/
def streamFor (i : Instr) : Stream := (clms.find? fun sm => i.streamOk sm && i.operandsOk sm).getD .ctl

/-- The first type code under which an instruction has its own meaning on a core; 0 where it takes none. -/
def typeFor (i : Instr) (c : Nat) (sm : Stream) : Nat :=
  if i.takesType then ((List.range 16).find? fun ty => 0 < ty && fateOf i c sm true false ty false false false == .own).getD 0 else 0

/-- A sequencer at the first unit of a block of one repetition at halfword 0, whose header gives a type and whose body is the halfwords
given (R54). -/
def Seq.standAt (q : Seq) (ty : Nat) (hs : List Half) : Seq :=
  let w := BitVec.ofNat 32 (hs.length + 2 ^ 10 + ty * 2 ^ 22)
  let code := w.extractLsb' 0 16 :: w.extractLsb' 16 16 :: hs
  { q with
    imem := code.zipIdx.foldl (fun m p => put 0xFFFF#16 m p.2 p.1) q.imem, iend := BitVec.ofNat 16 code.length
    pc := 2, hdr := 0, hword := w, inBody := true, rep := 0, reps := 1, lb := none, fetched := 16, wait := .none, waitRem := 0
    lbuf := [], stalled := none, cut := .none, part := 0, flight := [] }

/-- A context in which a sequencer stands at a placed instruction that nothing keeps from issuing. -/
def Ctx.standAt (x : Ctx) (sm : Stream) (ty : Nat) (hs : List Half) : Ctx :=
  ({ x with
    ctl := { x.ctl with wait := .none, stalled := none }
    cr := { x.cr with estat := x.cr.estat &&& 0x77, acquireUntil := 0, atomic := none, errors := [] }
    links := { x.links with vq := if sm = Stream.ctl then x.links.vq else put VQueue.empty x.links.vq (ctlQueue sm) VQueue.empty }
    eng := { x.eng with imld := none, waiting := none } }).modSeq sm fun q => q.standAt ty hs

/-- A core whose live context is to run a placed instruction on this cycle. -/
def Core.standAt (k : Core) (sm : Stream) (ty : Nat) (hs : List Half) : Core :=
  { k with
    hasLive := true, live := k.live.standAt sm ty hs, slips := 0, cycle := .running, slip := false, sharp := false, demand := none, leaving := none, start := none
    dbg := { k.dbg with stopped := false, step := none }, watch := { k.watch with rplLive := 0, buffer := [], onWay := [] } }

end Sys2Proof.Machine
end

