-- ==== Sys2Proof/Machine/Step.lean ====
section
/-! DEFINITION. One step of the package: an event of the agenda, the end or the beginning of a cycle, or one sequencer's turn. -/
namespace Sys2Proof.Machine

/-- A sequencer's turn, run. -/
def State.runTurn (s : State) (c : Nat) (sm : Stream) : Out State :=
  match (s.reopened c).pick c sm with
  | .idle t => .next { s.afterTrap c sm t with turn := (s.afterTrap c sm t).nextTurn c sm }
  | .run i t => afterTurn c sm (keepOneTrap s c sm (exec i t))

/-- The state that a sequencer's turn leaves. -/
def State.afterRun (s : State) (c : Nat) (sm : Stream) : State :=
  match s.runTurn c sm with
  | .next t => t
  | _ => s

/-- The state in which CTL's first turn of a cycle has found that the cycle goes on. -/
def State.goesAhead (s : State) (c : Nat) (sm : Stream) : State :=
  if sm = .ctl ∧ (s.core c).start ≠ none then s.modCore c fun k => { k with start := none } else s

/-- The state in which a core's cycle has ended in a precise fault, where its turns come to one (R362). -/
def State.faultFirst (s : State) (c : Nat) : Option State :=
  if (s.core c).start = none ∨ ¬ (s.ctx c).cr.faults then none
  else
    (s.foresee State.afterRun c turnFuel).map fun e =>
      { s.faultBefore c e.1 e.2.1 e.2.2.1 e.2.2.2 with turn := s.firstTurn (c + 1) }

/-- ONE STEP: an event that is due, else the end or the beginning of a cycle, else a sequencer's turn, or that of a steal.
(DESIGN CHOICE, log entry 8.) -/
def step (s : State) : Host.Outcome State Fault Refusal :=
  match s.agenda with
  | e :: rest => if isEvent e then exec e { s with agenda := rest } else .next { s with agenda := rest }
  | [] =>
    match s.turn with
    | .begin => .next s.beginCycle
    | .tick => .next s.endCycle
    | .late =>
      match s.late with
      | [] => .next { s with turn := .tick }
      | c :: rest =>
        match s.pickLate c with
        | .idle t => .next { t with late := rest }
        | .run i t => afterSteal rest (keepOneTrap s c .ctl (exec i t))
    | .issue c sm =>
      match (if sm = .ctl then s.faultFirst c else none) with
      | some t => .next t
      | none => (s.goesAhead c sm).runTurn c sm

/-- The state in which the instruction of the bits w stands at a sequencer that has its turn, so that the next step runs it. Its bits
above nbits are 0; the low halfword is the first (R47). (DEDUCED, log entry 9.) -/
def State.withFetchWord (s : State) (nbits w : Nat) : State :=
  let v := w % 2 ^ nbits
  let lo := BitVec.ofNat 16 v
  let hs := if lo.getLsbD 0 && lo != 0xFFFF then [lo, BitVec.ofNat 16 (v / 2 ^ 16)] else [lo]
  let i := (decodeTableWord nbits w).getD .unassignedEncoding
  let c := coreFor i
  let sm := streamFor i
  { s.modCore c (fun k => k.standAt sm (typeFor i c sm) hs) with
    agenda := [], late := if isSteal i then [c] else [], turn := if isSteal i then .late else .issue c sm }

end Sys2Proof.Machine
end

