-- ==== Sys2Proof/Safety.lean ====
section
/-! DEFINITION. What the statements speak of: a state whose unit issues with its own meaning, what a unit leaves unchanged, and the
form a state keeps. -/
namespace Sys2Proof.Machine

/-! ### A unit that issues -/

/-- The unit that the state names issues instruction i with the meaning of its own (R48, R80, R347): no fate of R80 stands in its way,
its guard holds, no error waits for a report point that it is, and its token pops can all be made. -/
abbrev State.runs (s : State) (i : Instr) : Prop :=
  fateOf i s.unit.core s.unit.sq s.unit.guard (s.unit.sq == .ctl && s.my.cr.atomic.isSome) s.unit.ty s.unit.hasTyp s.unit.hasPre
      (s.unit.popM != 0) = .own
    ∧ s.unit.guard = true ∧ (i.reports = true → s.my.cr.errors = []) ∧ s.my.links.canPop s.unitPops = true

/-- An atomic block that CTL runs, if any, holds at most 16 side effects with the token pushes of the current unit (R63). -/
abbrev State.roomy (s : State) : Prop := s.my.cr.overfull s.unit.sq s.unit.pushM = false

/-- CTL runs no atomic block, or the unit is not CTL's (R63). -/
abbrev State.plain (s : State) : Prop := s.my.cr.atomic = none

/-- What the body of a unit works on: its tokens are popped, and a unit of MX has supplied its bytes to SEGCRC (R48, R186). -/
def State.begun (s : State) (i : Instr) : State := (s.popUnit).segFeed i

/-- A cause that R116 sends to the handler or lets fault the task: not MIGRATE, and none of the codes 48 to 51, which never enter a
handler (R116, R346). -/
def ordinary (c : Cause) : Bool := c != .migrate && decide (causeCode c < 48)

/-! ### What a unit leaves unchanged -/

/-- Everything outside the live context of the unit's core is as it was, every byte of memory and of cluster SRAM among it. -/
def State.keepsOutside (s t : State) : Prop :=
  t = { s with cores := t.cores } ∧ (∀ c, c ≠ s.unit.core → t.core c = s.core c)
    ∧ t.core s.unit.core = { s.core s.unit.core with live := t.my }
    ∧ (∀ a, get 0#8 t.mem a = get 0#8 s.mem a) ∧ (∀ a, get 0#8 t.cluster a = get 0#8 s.cluster a)

/-- The unit's own context is as it was, but for its own sequencer, the tokens, the buffered effects of an atomic block, the window
turn and the figures of the open segment: every control and exception register, queue, flag, accumulator and copy command. -/
def State.keepsContext (s t : State) : Prop :=
  (∀ sm, sm ≠ s.unit.sq → t.my.seq sm = s.my.seq sm)
    ∧ t.my.cr = { s.my.cr with atomic := t.my.cr.atomic }
    ∧ t.my.links = { s.my.links with tok := t.my.links.tok }
    ∧ t.my.loc = { s.my.loc with turn := t.my.loc.turn }
    ∧ t.my.eng = s.my.eng
    ∧ t.my.mat = { s.my.mat with segCrc := t.my.mat.segCrc, segClose := t.my.mat.segClose, opBytes := t.my.mat.opBytes }
    ∧ t.my.pend = s.my.pend ∧ t.my.task = s.my.task ∧ t.my.clean = s.my.clean

/-- The unit's own sequencer keeps its code, every register but `reg`, and every predicate but `pred`; the stage predicates p16 to p21
are kept where the block does not rotate (R55). -/
def Seq.keeps (q r : Seq) (reg pred : Option Nat) : Prop :=
  (∀ n, some n ≠ reg → r.reg n = q.reg n)
    ∧ (∀ n, some n ≠ pred → q.rot = false ∨ n < 16 ∨ 21 < n → r.pred n = q.pred n)
    ∧ r.imem = q.imem ∧ r.iend = q.iend

/-- A predicate that the unit writes holds v afterwards: p0 stays 1 (R65), and p16 to p21 stand unless the unit ends a repetition of a
rotating block, which sets them afresh (R55). -/
def State.predIs (s t : State) (d : BitVec 5) (v : Bool) : Prop :=
  d ≠ 0 → s.here.rot = false ∨ d.toNat < 16 ∨ 21 < d.toNat ∨ s.here.pc.toNat + s.unit.len < s.here.bodyEnd ∨ s.here.reps ≤ s.here.rep + 1 →
    t.p d = v

/-- What an instruction that works on registers alone leaves unchanged: all but one register and one predicate of its sequencer. -/
def State.keepsAllBut (s t : State) (reg pred : Option Nat) : Prop :=
  s.keepsOutside t ∧ s.keepsContext t ∧ s.here.keeps t.here reg pred

/-! ### Block entry -/

/-- The unit's sequencer has entered the block whose header it stood at, for n repetitions: it stands at the first unit of the first, no register
has changed, and an atomic block keeps the registers and predicates of its entry (R55, R64). -/
def State.hasEntered (s t : State) (n : Nat) : Prop :=
  let w := s.here.headerAt s.here.pc.toNat
  t.here.pc = BitVec.ofNat 16 (s.here.pc.toNat + 2) ∧ t.here.hdr = BitVec.ofNat 16 s.here.pc.toNat ∧ t.here.hword = w
    ∧ t.here.inBody = true ∧ t.here.rep = 0 ∧ t.here.reps = n ∧ t.here.blki = s.here.blki + 1
    ∧ (s.unit.sq = .ctl → w.extractLsb' 30 2 = 1 →
        t.my.cr.atomic = some { regs := s.here.regs, preds := s.here.preds, effects := [] })
    ∧ (∀ k, t.here.reg k = s.here.reg k) ∧ t.mem = s.mem

/-- The unit's sequencer has passed over the block whose header it stood at, and no register has changed (R55). -/
def State.hasPassed (s t : State) : Prop :=
  t.here.pc = BitVec.ofNat 16 (s.here.pc.toNat + 2 + ((s.here.headerAt s.here.pc.toNat).extractLsb' 0 10).toNat)
    ∧ t.here.inBody = false ∧ t.here.blki = s.here.blki + 1 ∧ (∀ k, t.here.reg k = s.here.reg k) ∧ t.mem = s.mem

/-! ### The form a state keeps -/

/-- HBM and host memory, and cluster SRAM, are in canonical form: addresses rising strictly, no byte 0 listed. -/
abbrev State.memoryInForm (s : State) : Prop := Memory.wf s.mem = true ∧ Memory.wf s.cluster = true

/-- A step that answers a next state: no step of this machine stops. -/
def State.goesOn (s : State) : Prop := ∃ t, step s = .next t

end Sys2Proof.Machine
end

