-- ==== Sys2Proof/Certificates/Slice0/Obligations.lean ====
section
/-! DEFINITION. The statements for the provers: what the spec's numbered rules say of the instructions, of the events and of the
machine as a whole. -/
open Sys2Proof Sys2Proof.Machine

/-- Every form of mov, addi, add, sub, li, and, or, xor, shl, shr, sra, mul, mulh, mulhu, min, max, minu, maxu, andi and sel, 16-bit
and 32-bit, that runs answers a next state in which D holds the value of R86, R87 or R91, computed from the old registers, and
every other register, predicate, flag, special register, queue and byte of memory is as it was (R86, R87, R91). -/
def Obligations.ScalarResults : Prop :=
  ∀ (i : Instr) (s : State) (d : BitVec 5) (v : Word),
    (match i with
      | .movC16 x a => x = d ∧ v = s.r a
      | .addiC16 x y => x = d ∧ v = s.r d + y.signExtend 64
      | .addC16 x b => x = d ∧ v = s.r d + s.r b
      | .subC16 x b => x = d ∧ v = s.r d - s.r b
      | .liC16 x y => x = d ∧ v = y.signExtend 64
      | .add x a b => x = d ∧ v = s.r a + s.r b
      | .sub x a b => x = d ∧ v = s.r a - s.r b
      | .and x a b => x = d ∧ v = s.r a &&& s.r b
      | .or x a b => x = d ∧ v = s.r a ||| s.r b
      | .xor x a b => x = d ∧ v = s.r a ^^^ s.r b
      | .shl x a b => x = d ∧ v = s.r a <<< ((s.r b).toNat % 64)
      | .shr x a b => x = d ∧ v = s.r a >>> ((s.r b).toNat % 64)
      | .sra x a b => x = d ∧ v = BitVec.ofInt 64 ((s.r a).toInt / 2 ^ ((s.r b).toNat % 64))
      | .mul x a b => x = d ∧ v = s.r a * s.r b
      | .mulh x a b => x = d ∧ v = (((s.r a).signExtend 128) * ((s.r b).signExtend 128)).extractLsb' 64 64
      | .mulhu x a b => x = d ∧ v = (((s.r a).zeroExtend 128) * ((s.r b).zeroExtend 128)).extractLsb' 64 64
      | .min x a b => x = d ∧ v = if (s.r a).toInt ≤ (s.r b).toInt then s.r a else s.r b
      | .max x a b => x = d ∧ v = if (s.r a).toInt ≤ (s.r b).toInt then s.r b else s.r a
      | .minu x a b => x = d ∧ v = if (s.r a).toNat ≤ (s.r b).toNat then s.r a else s.r b
      | .maxu x a b => x = d ∧ v = if (s.r a).toNat ≤ (s.r b).toNat then s.r b else s.r a
      | .mov x a => x = d ∧ v = s.r a
      | .addi x a y => x = d ∧ v = s.r a + y.signExtend 64
      | .li x y => x = d ∧ v = y.signExtend 64
      | .andi x a y => x = d ∧ v = s.r a &&& y.zeroExtend 64
      | .sel x a b => x = d ∧ v = if s.r d = 0 then s.r b else s.r a
      | _ => False) →
    s.runs i → s.roomy → ∃ t, exec i s = .next t ∧ t.r d = v ∧ s.keepsAllBut t (some d.toNat) none

/-- Every compare (register and literal form, all eight conditions), pand, por, pxor, pandn, pmov and pnot that runs answers a next
state in which pD is 1 exactly when the condition or operation of R88 or R89 holds of the old values; a write of p0 is ignored (p0
stays 1), and a write of p16 to p21 stands unless the same unit ends a repetition of a rotating block, which sets them afresh; all
else is as it was. The predicate logic is encoded as R89 says: major 5 with FN 8 to 11, and C16 majors 6 and 7 (R89). -/
def Obligations.PredicateResults : Prop :=
  (∀ d a b : BitVec 5, encodeWord (.pand d a b) = some (.inr (encS32R 5 d a b 8)) ∧ encodeWord (.por d a b) = some (.inr (encS32R 5 d a b 9))
    ∧ encodeWord (.pxor d a b) = some (.inr (encS32R 5 d a b 10)) ∧ encodeWord (.pandn d a b) = some (.inr (encS32R 5 d a b 11))
    ∧ encodeWord (.pmov d a) = some (.inl (encC16 6 d a)) ∧ encodeWord (.pnot d a) = some (.inl (encC16 7 d a)))
  ∧ ∀ (i : Instr) (s : State) (d : BitVec 5) (v : Prop),
    (match i with
      | .cmpEq x a b => x = d ∧ (v ↔ s.r a = s.r b)
      | .cmpNe x a b => x = d ∧ (v ↔ s.r a ≠ s.r b)
      | .cmpLt x a b => x = d ∧ (v ↔ (s.r a).toInt < (s.r b).toInt)
      | .cmpLe x a b => x = d ∧ (v ↔ (s.r a).toInt ≤ (s.r b).toInt)
      | .cmpGt x a b => x = d ∧ (v ↔ (s.r b).toInt < (s.r a).toInt)
      | .cmpGe x a b => x = d ∧ (v ↔ (s.r b).toInt ≤ (s.r a).toInt)
      | .cmpLtu x a b => x = d ∧ (v ↔ (s.r a).toNat < (s.r b).toNat)
      | .cmpGeu x a b => x = d ∧ (v ↔ (s.r b).toNat ≤ (s.r a).toNat)
      | .cmpi x a w c => x = d ∧ (v ↔
          (if c = 0 then s.r a = w.signExtend 64 else if c = 1 then s.r a ≠ w.signExtend 64
           else if c = 2 then (s.r a).toInt < w.toInt else if c = 3 then (s.r a).toInt ≤ w.toInt
           else if c = 4 then w.toInt < (s.r a).toInt else if c = 5 then w.toInt ≤ (s.r a).toInt
           else if c = 6 then (s.r a).toNat < (w.signExtend 64 : Word).toNat else (w.signExtend 64 : Word).toNat ≤ (s.r a).toNat))
      | .pand x a b => x = d ∧ (v ↔ s.p a = true ∧ s.p b = true)
      | .por x a b => x = d ∧ (v ↔ s.p a = true ∨ s.p b = true)
      | .pxor x a b => x = d ∧ (v ↔ s.p a ≠ s.p b)
      | .pandn x a b => x = d ∧ (v ↔ s.p a = true ∧ s.p b = false)
      | .pmov x a => x = d ∧ (v ↔ s.p a = true)
      | .pnot x a => x = d ∧ (v ↔ s.p a = false)
      | _ => False) →
    s.runs i → s.roomy → ∃ t, exec i s = .next t ∧ s.keepsAllBut t none (some d.toNat)
      ∧ (d = 0 → t.p d = true)
      ∧ (d ≠ 0 → s.here.rot = false ∨ d.toNat < 16 ∨ 21 < d.toNat ∨ s.here.pc.toNat + s.unit.len < s.here.bodyEnd
          ∨ s.here.reps ≤ s.here.rep + 1 → (t.p d = true ↔ v))

/-- A nop that runs, and every unit of the tables that begins guarded false once its fate is its own, answers a next state in which
all registers, predicates, flags, special registers, queues, both pools, the matrix side, every landing to come, every other core
and memory are as they were: its own sequencer goes on, and with it the window turn, and a segment may end (R48, R87). -/
def Obligations.NopAndUnguarded : Prop :=
  (∀ s : State, s.runs .nop → s.roomy → ∃ t, exec .nop s = .next t ∧ s.keepsAllBut t none none)
    ∧ ∀ (i : Instr) (s : State), (encodeWord i).isSome = true → i ≠ .wall → s.here.wait = .none → s.here.part = 0 → s.unit.guard = false →
        fateOf i s.unit.core s.unit.sq false (s.unit.sq == .ctl && s.my.cr.atomic.isSome) s.unit.ty s.unit.hasTyp s.unit.hasPre
          (s.unit.popM != 0) = .own →
        ∃ t, exec i s = .next t ∧ ({ s with unit := t.unit } : State).keepsOutside t ∧ s.keepsContext t ∧ s.here.keeps t.here none none
          ∧ t.my.links = s.my.links ∧ t.my.cr = s.my.cr ∧ t.my.mat = { s.my.mat with segClose := t.my.mat.segClose }
          ∧ (∀ a, get 0#8 t.mem a = get 0#8 s.mem a)

/-- ld.b to ld.d and st.b to st.d that run at an address that is no multiple of their size trap ALIGN with the address in EINFO,
before any translation. ld.b, ld.h, ld.w and ld.d that run outside an atomic block, aligned, at an address that resolves to a
place that can be read now and holds no uncorrectable line or word, on a core that neither records nor replays, answer a next
state in which D holds the bytes of the place, zero-extended, and every other register, every predicate, every byte of memory and
cluster SRAM and the pool are as the translation left them. The address in EINFO of ALIGN is the model's choice (log entry 18)
(R92, R93, R2). -/
def Obligations.LoadResults : Prop :=
  (∀ (i : Instr) (s : State) (d a : BitVec 5) (o : BitVec 13) (n : Nat),
    ((match i with
      | .ldB x y z => x = d ∧ y = a ∧ z = o ∧ n = 1
      | .ldH x y z => x = d ∧ y = a ∧ z = o ∧ n = 2
      | .ldW x y z => x = d ∧ y = a ∧ z = o ∧ n = 4
      | .ldD x y z => x = d ∧ y = a ∧ z = o ∧ n = 8
      | _ => False) ∨ (match i with
      | .stB x y z => x = d ∧ y = a ∧ z = o ∧ n = 1
      | .stH x y z => x = d ∧ y = a ∧ z = o ∧ n = 2
      | .stW x y z => x = d ∧ y = a ∧ z = o ∧ n = 4
      | .stD x y z => x = d ∧ y = a ∧ z = o ∧ n = 8
      | _ => False)) →
    s.runs i → (s.r a + o.signExtend 64).toNat % n ≠ 0 →
    exec i s = .next (s.takeTrap s.unit.core s.unit.sq .align (s.r a + o.signExtend 64) false))
  ∧ ∀ (i : Instr) (s s1 : State) (d a : BitVec 5) (o : BitVec 13) (n : Nat) (l : Loc),
    (match i with
      | .ldB x y z => x = d ∧ y = a ∧ z = o ∧ n = 1
      | .ldH x y z => x = d ∧ y = a ∧ z = o ∧ n = 2
      | .ldW x y z => x = d ∧ y = a ∧ z = o ∧ n = 4
      | .ldD x y z => x = d ∧ y = a ∧ z = o ∧ n = 8
      | _ => False) →
    s.runs i → s.plain → (s.r a + o.signExtend 64).toNat % n = 0 →
    (s.begun i).resolve s.unit.core (s.r a + o.signExtend 64) n true false = .at s1 l →
    (s1.core s.unit.core).watch.rplLive = 0 → s1.waitsAt s.unit.core l = false → s1.uncorrAt s.unit.core l n = false →
    ∃ t, exec i s = .next t
      ∧ t.r d = BitVec.ofNat 64 (leNat (s1.bytesAt s.unit.core l n))
      ∧ s.here.keeps t.here (some d.toNat) none
      ∧ (∀ sm, sm ≠ s.unit.sq → t.my.seq sm = s.my.seq sm)
      ∧ (∀ x, get 0#8 t.mem x = get 0#8 s1.mem x) ∧ (∀ x, get 0#8 t.cluster x = get 0#8 s1.cluster x)
      ∧ (t.core s.unit.core).pool = (s.core s.unit.core).pool ∧ t.my.loc = { s.my.loc with turn := t.my.loc.turn }
      ∧ t.my.eng = s.my.eng

/-- st.b, st.h, st.w and st.d that run outside an atomic block, aligned, at an address that resolves, whose write is made at once and
need not follow another operation of the cycle there, answer a next state whose memory, cluster SRAM and pool are those of the
store of the low bytes of D, lowest byte first: at a home on the own die the bytes read back, for a home on another die a write
with those bytes, the die's next number and the core's knowledge as its stamp is sent and no byte changes, every byte outside them
reads as the translation left it, and no register or predicate changes. Inside an atomic block of CTL, aligned and resolved, with
room among the 16 side effects, they answer a next state in which the store is the last buffered effect and memory, cluster SRAM
and the pool are as the translation left them (R63, R93, R2, R243, R258). -/
def Obligations.StoreResults : Prop :=
  (∀ (i : Instr) (s s1 : State) (d a : BitVec 5) (o : BitVec 13) (n : Nat) (l : Loc),
    (match i with
      | .stB x y z => x = d ∧ y = a ∧ z = o ∧ n = 1
      | .stH x y z => x = d ∧ y = a ∧ z = o ∧ n = 2
      | .stW x y z => x = d ∧ y = a ∧ z = o ∧ n = 4
      | .stD x y z => x = d ∧ y = a ∧ z = o ∧ n = 8
      | _ => False) →
    s.runs i → s.plain → (s.r a + o.signExtend 64).toNat % n = 0 →
    (s.begun i).resolve s.unit.core (s.r a + o.signExtend 64) n false true = .at s1 l →
    (s1.storeAt s.unit.core l (leBytes n (s.r d).toNat)).2 = true → (storesNow s.unit.core l = true → s1.mayReach s.unit.core l .store = true) →
    ∃ t, exec i s = .next t
      ∧ s.here.keeps t.here none none ∧ (∀ sm, sm ≠ s.unit.sq → t.my.seq sm = s.my.seq sm)
      ∧ (∀ pa, l = .phys pa → homeOf pa = Config.dieOf s.unit.core → readBytes t.mem pa n = leBytes n (s.r d).toNat)
      ∧ (∀ x, (∀ pa, l = .phys pa → x < pa ∨ pa + n ≤ x) → get 0#8 t.mem x = get 0#8 s1.mem x)
      ∧ (∀ k, l = .clus k → readBytes t.cluster k n = leBytes n (s.r d).toNat)
      ∧ (∀ x, (∀ k, l = .clus k → x < k ∨ k + n ≤ x) → get 0#8 t.cluster x = get 0#8 s1.cluster x)
      ∧ (∀ o', l = .scr o' → (t.core s.unit.core).pool = ((s.core s.unit.core).setScr o' (leBytes n (s.r d).toNat)).pool)
      ∧ ((∀ o', l ≠ .scr o') → (t.core s.unit.core).pool = (s.core s.unit.core).pool)
      ∧ (∀ c, c ≠ s.unit.core → t.core c = s.core c)
      ∧ (∀ pa, l = .phys pa → homeOf pa ≠ Config.dieOf s.unit.core →
          let e := Config.dieOf s.unit.core
          let k := (s1.die e).sc + 1
          let w : Sent := { die := e, core := s.unit.core, engine := false, seq := k, stamp := put 0 (s1.core s.unit.core).kv e k
                            home := homeOf pa, pa := pa, bytes := leBytes n (s.r d).toNat }
          t.sent = s1.sent ++ [w] ∧ (t.die e).sc = k ∧ (t.core s.unit.core).kv = w.stamp)
      ∧ ((∀ pa, l = .phys pa → homeOf pa = Config.dieOf s.unit.core) → t.sent = s1.sent))
  ∧ ∀ (i : Instr) (s s1 : State) (d a : BitVec 5) (o : BitVec 13) (n : Nat) (l : Loc) (b : Atomic),
    (match i with
      | .stB x y z => x = d ∧ y = a ∧ z = o ∧ n = 1
      | .stH x y z => x = d ∧ y = a ∧ z = o ∧ n = 2
      | .stW x y z => x = d ∧ y = a ∧ z = o ∧ n = 4
      | .stD x y z => x = d ∧ y = a ∧ z = o ∧ n = 8
      | _ => False) →
    s.runs i → s.unit.sq = .ctl → s.my.cr.atomic = some b → (s.r a + o.signExtend 64).toNat % n = 0 →
    (s.begun i).resolve s.unit.core (s.r a + o.signExtend 64) n false true = .at s1 l →
    (s1.buffer (.store l (leBytes n (s.r d).toNat))).roomy → s.unit.pushM = 0 →
    ∃ t, exec i s = .next t
      ∧ t.my.cr.atomic = some { b with effects := b.effects ++ [.store l (leBytes n (s.r d).toNat)] }
      ∧ s.here.keeps t.here none none ∧ t.mem = s1.mem ∧ t.cluster = s1.cluster
      ∧ (t.core s.unit.core).pool = (s.core s.unit.core).pool

/-- amo.add, amo.swap, amo.cas, amo.min, amo.max, amo.and and amo.or that run, aligned, at a place that resolves and is ready, on a
core that neither records nor replays, below .pkg once the writes that CTL has sent to other dies are applied, answer a next
state: the old doubleword goes to D, the function of R95 of it goes to the place in the same step, and the acquire and the release
of the scope are made. They stall until then. That the vector a release leaves is kept beside the word at every place, memory,
cluster SRAM and pool alike, is the model's reading (log entry 98), and so is that an acquire merges all that the core has noted
(log entry 23) (R95, R258, R259, R263). -/
def Obligations.AtomicResults : Prop :=
  ∀ (i : Instr) (s s1 : State) (d a b : BitVec 5) (sc : BitVec 3) (l : Loc) (new : Word → Word),
    (match i with
      | .amoAdd x y z w => x = d ∧ y = a ∧ z = b ∧ w = sc ∧ ∀ old, new old = old + s.r b
      | .amoSwap x y z w => x = d ∧ y = a ∧ z = b ∧ w = sc ∧ ∀ old, new old = s.r b
      | .amoCas x y z w => x = d ∧ y = a ∧ z = b ∧ w = sc ∧ ∀ old, new old = if old = s.r d then s.r b else old
      | .amoMin x y z w => x = d ∧ y = a ∧ z = b ∧ w = sc ∧ ∀ old, new old = if old.toInt ≤ (s.r b).toInt then old else s.r b
      | .amoMax x y z w => x = d ∧ y = a ∧ z = b ∧ w = sc ∧ ∀ old, new old = if old.toInt ≤ (s.r b).toInt then s.r b else old
      | .amoAnd x y z w => x = d ∧ y = a ∧ z = b ∧ w = sc ∧ ∀ old, new old = old &&& s.r b
      | .amoOr x y z w => x = d ∧ y = a ∧ z = b ∧ w = sc ∧ ∀ old, new old = old ||| s.r b
      | _ => False) →
    s.runs i → s.plain → (s.r a).toNat % 8 = 0 →
    (s.begun i).resolve s.unit.core (s.r a) 8 true true = .at s1 l →
    (s1.core s.unit.core).watch.rplLive = 0 → (¬ (s1.homeReady s.unit.core l = true ∧ s1.mayRelease s.unit.core sc.toNat = true) →
      exec i s = .next (s.holdHead i .engine [])) ∧
    (s1.homeReady s.unit.core l = true → s1.mayRelease s.unit.core sc.toNat = true → s1.uncorrAt s.unit.core l 8 = false →
    let old := BitVec.ofNat 64 (leNat (s1.bytesAt s.unit.core l 8))
    let w := s1.atomicWrite s.unit.core l (leBytes 8 (new old).toNat)
    w.2 = true →
    ∀ u, u = (((w.1.touched s.unit.core l 8).acquire s.unit.core (get 0 s1.relTime (locKey s.unit.core l))
              (get [] s1.relKv (locKey s.unit.core l))).release s.unit.core l
              sc.toNat).setR d old → u.roomy → (u.core s.unit.core).watch.rplLive = 0 →
    exec i s = .next (u.finish 0 none) ∧ (u.finish 0 none).r d = old
      ∧ (∀ pa, l = .phys pa → readBytes w.1.mem pa 8 = leBytes 8 (new old).toNat
          ∧ ∀ x, x < pa ∨ pa + 8 ≤ x → get 0#8 w.1.mem x = get 0#8 s1.mem x))

/-- fence that runs when every write that CTL has sent has been applied at its home answers a next state in which the acquire is made,
with a STAMP record at scope .pkg or .pod; it stalls otherwise. time that runs on a core that neither records nor replays answers
a next state in which D holds TIME of the core's clock region and all else is as it was. What a core has noted and merges at an
acquire is the model's reading (log entries 23 and 98). That time may stand in an atomic block, as R63's list has it, is the
model's reading too (log entry 12) (R112, R113, R258). -/
def Obligations.FenceAndTime : Prop :=
  (∀ (s u : State) (sc : BitVec 3), s.runs (.fence sc) → (s.begun (.fence sc)).fenceReady s.unit.core = true →
      u = (let b := (s.begun (.fence sc)).acquire s.unit.core 0 []
           if 3 ≤ sc.toNat then b.traceStamp s.unit.core (Config.dieOf s.unit.core) (b.kv s.unit.core (Config.dieOf s.unit.core)) else b) →
      u.roomy → exec (.fence sc) s = .next (u.finish 0 none))
    ∧ (∀ (s : State) (sc : BitVec 3), s.runs (.fence sc) → (s.begun (.fence sc)).fenceReady s.unit.core = false →
      exec (.fence sc) s = .next (s.holdHead (.fence sc) .engine []))
    ∧ ∀ (s : State) (d : BitVec 5), s.runs (.time d) → s.roomy → (s.core s.unit.core).watch.rplLive = 0 →
      ∃ t, exec (.time d) s = .next t ∧ t.r d = BitVec.ofNat 64 (s.timeOf (Config.quadOf s.unit.core))
        ∧ s.keepsAllBut t (some d.toNat) none

/-- br, call (offset from the instruction's own word), jr, callr (a register with bits [63:16] zero) and ret (s31) that run with a
target that can be fetched answer a next state that stands at that header outside any block; call and callr write the next
header's address to s31, and no other register, no predicate and no byte of memory changes. A target below 0, or at or above END -
1, traps FETCH_BOUND at the instruction and writes nothing. The target in EINFO, all ones where the register holds no halfword
address, is the model's choice (log entry 108) (R96, R97). -/
def Obligations.TransferResults : Prop :=
  ∀ (i : Instr) (s : State) (target : Int) (link : Bool),
    (match i with
      | .br d a x => target = s.unit.word.toNat + (d ++ a ++ x).toInt ∧ link = false
      | .call d a x => target = s.unit.word.toNat + (d ++ a ++ x).toInt ∧ link = true
      | .jr a => target = (if bits (s.r a).toNat 63 16 = 0 then ((s.r a).toNat : Int) else -1) ∧ link = false
      | .callr a => target = (if bits (s.r a).toNat 63 16 = 0 then ((s.r a).toNat : Int) else -1) ∧ link = true
      | .ret => target = (if bits (s.r 31).toNat 63 16 = 0 then ((s.r 31).toNat : Int) else -1) ∧ link = false
      | _ => False) →
    s.runs i →
    (0 ≤ target ∧ target < (s.here.bound s.unit.sq : Int) - 1 →
      ∃ t, exec i s = .next t
        ∧ t.here.pc = BitVec.ofInt 16 target ∧ t.here.inBody = false
        ∧ (link = true → t.r 31 = BitVec.ofNat 64 (s.here.bodyEnd % 65536))
        ∧ (∀ n, link = false ∨ n ≠ 31 → t.here.reg n = s.here.reg n) ∧ (∀ n, t.here.pred n = s.here.pred n)
        ∧ s.keepsOutside t ∧ s.keepsContext t)
    ∧ (¬ (0 ≤ target ∧ target < (s.here.bound s.unit.sq : Int) - 1) →
      exec i s = .next (s.takeTrap s.unit.core s.unit.sq .fetchBound (BitVec.ofInt 64 target) false))

/-- exit that runs inside an atomic block of CTL answers a next state in which nothing but the sequencer's progress changes; outside
an atomic block it traps ILLEGAL. EINFO 0 is the model's choice (log entry 18) (R98). -/
def Obligations.ExitResults : Prop :=
  ∀ (s : State) (d a : BitVec 5) (x : BitVec 15), s.runs (.exit d a x) →
    (s.inAtomic = true → s.roomy → ∃ t, exec (.exit d a x) s = .next t ∧ s.keepsAllBut t none none)
      ∧ (s.inAtomic = false → exec (.exit d a x) s = .next (s.takeTrap s.unit.core s.unit.sq .illegal 0 false))

/-- BLOCK_ENTRY of a sequencer that stands at a header traps FETCH_BOUND where header or body reach the bound, else WALL for KIND 3 or
a word of ones, else ILLEGAL for a field that is illegal in the stream or for an atomic block whose body does not end in an
unguarded exit, with nothing of the block entered. Otherwise a count of 0 passes over the block, and another enters it: the body's
first unit is next, in the first of its repetitions, with the header kept and no register changed; an atomic block begins with no
effect buffered and the registers and predicates of its entry kept. With REP 255 the count is the head of the control queue, which
is popped: an empty queue stalls, and a CUT there is left. A header with WEN enters at once with p22 0 where its flag shows WVAL,
with p22 1 where WTMO is 0, and else begins a wait of WTMO cycles. Either way the header counts once in BLKI. EINFO 0 is the
model's choice (log entry 18) (R53, R54, R55, R57, R62, R63, R64). -/
def Obligations.BlockEntryResults : Prop :=
  (∀ (s : State), s.here.inBody = false →
    let w := s.here.headerAt s.here.pc.toNat
    let out := s.here.bound s.unit.sq ≤ s.here.pc.toNat + 1 ∨ s.here.bound s.unit.sq ≤ s.here.pc.toNat + 1 + (w.extractLsb' 0 10).toNat
    let wall := w.extractLsb' 30 2 = 3 ∨ w = 0xFFFFFFFF
    let trapped := fun (e : Cause) => exec .blockEntry s = .next (s.takeTrap s.unit.core s.unit.sq e 0 false)
    (out → trapped .fetchBound) ∧ (¬ out → wall → trapped .wall) ∧ (¬ out → ¬ wall → headerOk s.unit.sq w = false → trapped .illegal)
      ∧ (¬ out → ¬ wall → s.unit.sq = .ctl → w.extractLsb' 30 2 = 1 →
        (s.here.enterBlock s.here.pc.toNat 1).endsInExit (w.extractLsb' 0 10).toNat (s.here.pc.toNat + 2) = false → trapped .illegal))
  ∧ (∀ w : BitVec 32, (headerOk .ctl w = true ↔ w.extractLsb' 0 10 ≠ 0 ∧ w.extractLsb' 10 8 ≠ 255 ∧ w.getLsbD 29 = false
        ∧ (w.getLsbD 18 = true → w.extractLsb' 19 7 = 0 ∧ (w.extractLsb' 26 3).toNat < 6)
        ∧ (w.extractLsb' 30 2 = 0 ∨ (w.extractLsb' 30 2 = 1 ∧ w.extractLsb' 10 8 = 1 ∧ w.getLsbD 18 = false)))
      ∧ ∀ sm, sm ≠ .ctl → (headerOk sm w = true ↔ w.extractLsb' 0 10 ≠ 0 ∧ w.extractLsb' 30 2 = 0 ∧ (w.getLsbD 29 = true → sm = .mx)
        ∧ (w.getLsbD 18 = true → (w.extractLsb' 26 3).toNat < 6) ∧ (w.getLsbD 18 = false → w.extractLsb' 26 3 = 0)))
  ∧ ∀ (s : State), s.here.inBody = false → s.here.headerFault s.unit.sq s.here.pc.toNat = none →
    let w := s.here.headerAt s.here.pc.toNat
    let n := (w.extractLsb' 10 8).toNat
    let q := s.my.links.vqueue (ctlQueue s.unit.sq)
    let waits := s.unit.sq = .ctl ∧ w.getLsbD 19 = true ∧ w.getLsbD 18 = false
    let f := (w.extractLsb' 20 6).toNat
    let met := headerMet (s.my.links.flag f) (w.extractLsb' 26 3)
    (s.unit.sq = .ctl → w.extractLsb' 30 2 = 1 →
      (s.here.enterBlock s.here.pc.toNat 1).endsInExit (w.extractLsb' 0 10).toNat (s.here.pc.toNat + 2) = true) →
    (n = 0 → ∃ t, exec .blockEntry s = .next t ∧ s.hasPassed t)
    ∧ (n ≠ 0 → n ≠ 255 → ¬ waits → ∃ t, exec .blockEntry s = .next t ∧ s.hasEntered t n)
    ∧ (n ≠ 0 → n ≠ 255 → waits → met = true → ∃ t, exec .blockEntry s = .next t ∧ s.hasEntered t n ∧ t.here.pred 22 = false)
    ∧ (n ≠ 0 → n ≠ 255 → waits → met = false → s.my.cr.wtmo = 0 →
        ∃ t, exec .blockEntry s = .next t ∧ s.hasEntered t n ∧ t.here.pred 22 = true)
    ∧ (n ≠ 0 → n ≠ 255 → waits → met = false → s.my.cr.wtmo ≠ 0 → exec .blockEntry s = .next (s.modSeq s.unit.core .ctl fun q =>
        { q with wait := .header, waitRem := s.my.cr.wtmo.toNat, loss := .flag, waitsOn := [32 + f] }))
    ∧ (n = 255 → q.items = [] → exec .blockEntry s = .next (s.modSeq s.unit.core s.unit.sq fun x =>
        { x with stalled := some .blockEntry, loss := .flag, waitsOn := [108 + ctlQueue s.unit.sq] }))
    ∧ ∀ (e : QEntry) (es : List QEntry), n = 255 → q.items = e :: es →
      (e.cut = true → exec .blockEntry s = .next s)
      ∧ (e.cut = false → bits e.val.toNat 31 0 = 0 →
        ∃ t, exec .blockEntry s = .next t ∧ s.hasPassed t ∧ t.my.links = s.my.links.vpop (ctlQueue s.unit.sq))
      ∧ (e.cut = false → bits e.val.toNat 31 0 ≠ 0 →
        ∃ t, exec .blockEntry s = .next t ∧ s.hasEntered t (bits e.val.toNat 31 0)
          ∧ t.my.links = s.my.links.vpop (ctlQueue s.unit.sq))

/-- ATOMIC_BLOCK_COMMIT of a CTL that stands at the end of the body of its atomic block, whose firing exit has a target that can be
fetched and whose effects all find room, each store taken by its home on this cycle, answers a next state: the effects are made in
program order and CTL stands at the target, outside the block. Without room, or while a home does not take a store, it waits with
the block, memory and cluster SRAM unchanged (R63, R93, R98, R141). -/
def Obligations.AtomicCommit : Prop :=
  ∀ (s : State) (a : Atomic) (e : ExitMet), s.my.cr.atomic = some a → s.my.ctl.bodyEnd ≤ s.my.ctl.pc.toNat → s.my.ctl.firing = some e →
    0 ≤ e.target ∧ e.target + 1 < (s.my.ctl.bound .ctl : Int) →
    (s.my.mayCommit a = true → (s.storesTaken s.unit.core a.effects).2 = true → ∃ t, exec .atomicBlockCommit s = .next t
        ∧ t = (a.effects.foldl (fun (u : State) x => u.commitOne s.unit.core x) s).modCtx s.unit.core (fun x =>
            { x with cr := { x.cr with atomic := none }
                     ctl := { x.ctl.sendTo (BitVec.ofNat 16 e.target.toNat) with loss := .issue, waitsOn := [] } })
        ∧ t.my.cr.atomic = none ∧ t.my.ctl.inBody = false)
    ∧ (s.my.mayCommit a = true → (s.storesTaken s.unit.core a.effects).2 = false → ∃ t, exec .atomicBlockCommit s = .next t
        ∧ t.my.cr = s.my.cr ∧ t.my.links = s.my.links ∧ t.my.eng = s.my.eng ∧ t.my.ctl.pc = s.my.ctl.pc ∧ t.mem = s.mem ∧ t.cluster = s.cluster)
    ∧ (s.my.mayCommit a = false → exec .atomicBlockCommit s = .next (s.modSeq s.unit.core .ctl fun q =>
        { q with loss := if s.my.commitWaits a = [] then .engine else .flag, waitsOn := s.my.commitWaits a }))

/-- contain that runs with no region open and a target that can be fetched sets CHND to the target with OPEN 1; uncontain that runs
with a region open sets OPEN to 0; each changes nothing else. contain with a region open and uncontain without one trap ILLEGAL,
and so does either in an atomic block; a target of contain that cannot be fetched traps FETCH_BOUND. contain is S32I of major 17,
and uncontain major 18, FN 0. FETCH_BOUND for a target of contain that cannot be fetched, with the target in EINFO, is the model's
choice (log entries 106 and 108), and so is EINFO 0 of ILLEGAL (log entry 18) (R114). -/
def Obligations.ContainResults : Prop :=
  (∀ (d a : BitVec 5) (x : BitVec 15), encodeWord (.contain d a x) = some (.inr (encS32I 17 d a x)))
  ∧ encodeWord .uncontain = some (.inr (encS32R 18 0 0 0 0))
  ∧ (∀ (s : State) (d a : BitVec 5) (x : BitVec 15), s.runs (.contain d a x) → s.plain →
      let target : Int := s.unit.word.toNat + (d ++ a ++ x).toInt
      (s.my.cr.regionOpen = false → 0 ≤ target ∧ target < (s.here.bound s.unit.sq : Int) - 1 →
        ∃ t, exec (.contain d a x) s = .next t ∧ t.my.cr = { s.my.cr with chnd := BitVec.ofNat 17 (target.toNat % 65536 + 65536) }
          ∧ t.my.cr.regionOpen = true ∧ s.keepsOutside t ∧ s.here.keeps t.here none none)
      ∧ (s.my.cr.regionOpen = false → ¬ (0 ≤ target ∧ target < (s.here.bound s.unit.sq : Int) - 1) →
        exec (.contain d a x) s = .next (s.takeTrap s.unit.core s.unit.sq .fetchBound (BitVec.ofInt 64 target) false))
      ∧ (s.my.cr.regionOpen = true → exec (.contain d a x) s = .next (s.takeTrap s.unit.core s.unit.sq .illegal 0 false)))
  ∧ (∀ (s : State), s.runs .uncontain → s.plain →
      (s.my.cr.regionOpen = true → ∃ t, exec .uncontain s = .next t ∧ t.my.cr = { s.my.cr with chnd := s.my.cr.chnd &&& 0xFFFF }
          ∧ t.my.cr.regionOpen = false ∧ s.keepsOutside t ∧ s.here.keeps t.here none none)
      ∧ (s.my.cr.regionOpen = false → exec .uncontain s = .next (s.takeTrap s.unit.core s.unit.sq .illegal 0 false)))
  ∧ ∀ (s : State) (i : Instr), i = .uncontain ∨ (∃ d a x, i = .contain d a x) → s.inAtomic = true →
      exec i s = .next (s.takeTrap s.unit.core s.unit.sq .illegal 0 false)

/-- trap, major 18 FN 1, that runs raises TRAPI with EINFO A and SKIP 1. brk, FN 8, that runs asks for a debug stop and retires when a
debugger is attached, and otherwise raises BRK with EINFO 0 and SKIP 1. A capture stop without a debugger raises BRK with
EINFO[63] = 1 (R117). -/
def Obligations.TrapInstructions : Prop :=
  (∀ a : BitVec 5, encodeWord (.trap a) = some (.inr (encS32R 18 0 a 0 1))) ∧ encodeWord .brk = some (.inr (encS32R 18 0 0 0 8))
  ∧ (∀ (s : State) (a : BitVec 5), s.runs (.trap a) →
      exec (.trap a) s = .next (s.takeTrapAt s.unit.core s.unit.sq .trapi (s.r a) true true))
    ∧ (∀ s : State, s.runs .brk → (s.core s.unit.core).dbg.att = false →
      exec .brk s = .next (s.takeTrapAt s.unit.core s.unit.sq .brk 0 true true))
    ∧ (∀ s : State, s.runs .brk → s.roomy → (s.core s.unit.core).dbg.att = true →
      ∃ t, exec .brk s = .next t ∧ (t.core s.unit.core).dbg.request = some 2 ∧ (∀ n, t.here.reg n = s.here.reg n) ∧ t.mem = s.mem)
    ∧ (∀ (s : State) (c : Nat), (s.core c).hasLive = true → (s.core c).captArm = true → (s.core c).captCount = some 0 →
      (s.core c).dbg.att = false → ∃ (u : State) (info : Word), exec (.captureStop c) s = .next ((u.takeTrapAt c .mx .brk info false false).leaveNow c)
        ∧ info.getLsbD 63 = true ∧ u.ctx c = { s.ctx c with cr := { (s.ctx c).cr with estat := (s.ctx c).cr.estat &&& 0x7B } } ∧ u.mem = s.mem)
    ∧ ∀ (s : State) (c : Nat) (sm : Stream) (cause : Cause) (info : Word) (skip precise : Bool),
      ordinary cause = true → (contained cause = false ∨ (s.ctx c).cr.regionOpen = false) → (s.ctx c).cr.trapEn = true → (s.ctx c).cr.inh = false →
      ((s.takeTrapAt c sm cause info skip precise).ctx c).cr.einfo = info
        ∧ ((s.takeTrapAt c sm cause info skip precise).ctx c).cr.skip = skip
        ∧ ((s.takeTrapAt c sm cause info skip precise).ctx c).cr.ecause = BitVec.ofNat 8 (causeCode cause)

/-- A trap of a cause that R346 lets enter a handler, and that is no contained error with a region open, with TVEC.EN = 1 and
ESTAT.INH = 0, writes ECAUSE, EINFO, ESTAT.STREAM, SKIP, INH = 1 and PPRIV, keeps MORE, puts CTL's next issue point into EPC (of
the header, with the registers of its entry, for an atomic block, which is discarded), and CTL goes on at TVEC.HANDLER at guest
privilege; the other sequencers keep their state, but for the cause of loss of the trapping one. The class of the trapping head's
cycle, ENGINE, is the model's reading (log entry 123), and so is EPC of a CTL that stands between two blocks (log entry 107)
(R116, R64, R120). -/
def Obligations.TrapEntersHandler : Prop :=
  ∀ (s : State) (c : Nat) (sm : Stream) (cause : Cause) (info : Word) (skip precise : Bool),
    ordinary cause = true → ¬ (contained cause = true ∧ (s.ctx c).cr.regionOpen = true) → (s.ctx c).cr.trapEn = true → (s.ctx c).cr.inh = false →
    let t := s.takeTrapAt c sm cause info skip precise
    let x := (s.ctx c).discard
    (t.ctx c).cr.ecause = BitVec.ofNat 8 (causeCode cause) ∧ (t.ctx c).cr.einfo = info
      ∧ (t.ctx c).cr.estat.extractLsb' 0 2 = BitVec.ofNat 2 (streamCode sm) ∧ (t.ctx c).cr.estat.getLsbD 2 = skip
      ∧ (t.ctx c).cr.inh = true ∧ (t.ctx c).cr.estat.extractLsb' 4 2 = BitVec.ofNat 2 (privCode (s.ctx c).cr.priv)
      ∧ (t.ctx c).cr.estat.getLsbD 6 = (s.ctx c).cr.estat.getLsbD 6
      ∧ (t.ctx c).cr.epc = BitVec.ofNat 8 x.ctl.left ++ x.ctl.hdr ++ x.ctl.pc
      ∧ (t.ctx c).cr.priv = .guest ∧ (t.ctx c).cr.tvec = (s.ctx c).cr.tvec ∧ (t.ctx c).cr.chnd = (s.ctx c).cr.chnd
      ∧ (t.ctx c).ctl.pc = (s.ctx c).cr.tvec.extractLsb' 0 16 ∧ (t.ctx c).ctl.inBody = false
      ∧ (∀ n, (t.ctx c).ctl.reg n = x.ctl.reg n)
      ∧ (∀ k, k ≠ .ctl → (t.ctx c).seq k =
          if precise = true ∧ k = sm then { (s.ctx c).seq k with loss := .engine, waitsOn := [] } else (s.ctx c).seq k)
      ∧ (∀ k, k ≠ c → t.core k = s.core k)

/-- A trap of a cause that R346 lets enter a handler, and that is no contained error with a region open, with TVEC.EN = 0 or ESTAT.INH
= 1, writes ECAUSE, EINFO and ESTAT.STREAM and leaves every other control register as it is, the task's slot notes the cause of
its fault, and the context is to leave; when it leaves, at the end of the cycle, the core has no live context any more (R116,
R362). -/
def Obligations.TrapFaultsTask : Prop :=
  ∀ (s : State) (c : Nat) (sm : Stream) (cause : Cause) (info : Word) (skip precise : Bool) (t : Nat × Nat),
    ordinary cause = true → ¬ (contained cause = true ∧ (s.ctx c).cr.regionOpen = true) → (s.ctx c).cr.trapEn = false ∨ (s.ctx c).cr.inh = true →
    (s.ctx c).task = some t →
    let u := s.takeTrapAt c sm cause info skip precise
    (u.ctx c).cr = { (s.ctx c).cr with
        ecause := BitVec.ofNat 8 (causeCode cause), einfo := info
        estat := ((s.ctx c).cr.estat &&& 0x7C) ||| BitVec.ofNat 7 (streamCode sm) }
      ∧ (u.slot t.1 t.2).faulting = some cause ∧ (u.core c).leaving ≠ none ∧ ((u.leaveNow c).core c).hasLive = false

/-- A contained error delivered while CHND.OPEN = 1 closes the region and sends CTL to CHND's handler with ECAUSE and EINFO written
and EPC at its next issue point (at the header of an atomic block, which is discarded), at the privilege it has; LD, MX and ST go
on, but for the cause of loss of a stream whose unit the error is. The class of the trapping head's cycle, ENGINE, is the model's
reading (log entry 123), and so is EPC of a CTL that stands between two blocks (log entry 107) (R115). -/
def Obligations.ContainedUnwinds : Prop :=
  ∀ (s : State) (c : Nat) (sm : Stream) (cause : Cause) (info : Word) (skip precise : Bool),
    contained cause = true → (s.ctx c).cr.regionOpen = true →
    let t := s.takeTrapAt c sm cause info skip precise
    (t.ctx c).cr.ecause = BitVec.ofNat 8 (causeCode cause) ∧ (t.ctx c).cr.einfo = info ∧ (t.ctx c).cr.regionOpen = false
      ∧ (t.ctx c).cr.epc = BitVec.ofNat 8 (s.ctx c).discard.ctl.left ++ (s.ctx c).discard.ctl.hdr ++ (s.ctx c).discard.ctl.pc
      ∧ (t.ctx c).ctl.pc = (s.ctx c).cr.chnd.extractLsb' 0 16 ∧ (t.ctx c).ctl.inBody = false
      ∧ (t.ctx c).cr.priv = (s.ctx c).cr.priv ∧ (t.ctx c).cr.estat = (s.ctx c).cr.estat
      ∧ (∀ k, k ≠ .ctl → (t.ctx c).seq k =
          if precise = true ∧ k = sm then { (s.ctx c).seq k with loss := .engine, waitsOn := [] } else (s.ctx c).seq k)

/-- eret that runs at guest privilege answers a next state in which the privilege is that of PPRIV, INH is 0, CTL stands at EPC's PC
with EPC's header, and, with SKIP 0, every register of every sequencer and the whole of LD, MX and ST are as they were; the token
pushes of its TOK prefix are owed; with SKIP 1 the trapping unit counts as retired. At user privilege it traps PRIV. That a PPRIV
other than 0 returns to guest (log entry 115) and EINFO 0 of PRIV (log entry 18) are the model's choices (R118, R120). -/
def Obligations.EretResults : Prop :=
  ∀ (s : State), s.runs .eret →
    (s.my.cr.priv ≠ .user → s.unit.sq = .ctl → ∃ t, exec .eret s = .next t
      ∧ t.my.cr.priv = (if s.my.cr.estat.extractLsb' 4 2 = 0 then .user else .guest) ∧ t.my.cr.inh = false
      ∧ (s.my.cr.skip = false → t.my.ctl.pc = s.my.cr.epc.extractLsb' 0 16 ∧ t.my.ctl.hdr = s.my.cr.epc.extractLsb' 16 16
          ∧ (∀ n, t.my.ctl.reg n = s.my.ctl.reg n) ∧ t.my.ld = s.my.ld ∧ t.my.mx = s.my.mx ∧ t.my.st = s.my.st)
      ∧ (s.my.cr.skip = false → s.unit.pushM ≠ 0 → ∃ f, t.my.ctl.flight = s.my.ctl.flight ++ [f] ∧ f.pushM = s.unit.pushM ∧ f.due = 1)
      ∧ (∀ sm pc, s.my.cr.skip = true → s.my.cr.trapAt = some (sm, pc) → sm ≠ .ctl → (s.my.seq sm).pc = pc →
          t.my.seq sm = (s.my.seq sm).stepPast ((s.my.seq sm).unitLen sm))
      ∧ t.mem = s.mem ∧ t.cluster = s.cluster)
    ∧ (s.my.cr.priv = .user → exec .eret s = .next (s.takeTrap s.unit.core s.unit.sq .priv 0 false))

/-- Every encoded instruction but the wall, at its first turn, whatever its own meaning: a fate of ILLEGAL or of an atomic block's
ILLEGAL traps ILLEGAL, and a fate of ILLEGAL_STREAM traps ILLEGAL_STREAM, precisely and with EINFO 0; a fate of MIGRATE, once no
transform runs and a shadow can take the context, moves the task at the end of the cycle. The wall traps WALL and an unassigned
encoding ILLEGAL, whatever the guard. EINFO 0 (log entry 18), MIGRATE waiting for a shadow that can take the context (log entry
26), the places of the atomic block's check, of the type check and of the prefix check of mark among R80's steps (log entries 11,
105 and 113), and the class of the migrating head's cycle (log entry 123) are the model's readings (R17, R47, R48, R63, R80, R81,
R293). -/
def Obligations.FatesTrap : Prop :=
  (∀ s : State, exec .wall s = .next (s.takeTrapAt s.unit.core s.unit.sq .wall 0 false true))
  ∧ (∀ s : State, exec .unassignedEncoding s = .next (s.takeTrapAt s.unit.core s.unit.sq .illegal 0 false true))
  ∧ ∀ (i : Instr) (s : State), (encodeWord i).isSome = true → i ≠ .wall → s.here.wait = .none → s.here.part = 0 →
    let f := fateOf i s.unit.core s.unit.sq s.unit.guard (s.unit.sq == .ctl && s.my.cr.atomic.isSome) s.unit.ty s.unit.hasTyp
      s.unit.hasPre (s.unit.popM != 0)
    (f = .illegal ∨ f = .atomicIllegal → exec i s = .next (s.takeTrap s.unit.core s.unit.sq .illegal 0 false))
    ∧ (f = .illegalStream → exec i s = .next (s.takeTrap s.unit.core s.unit.sq .illegalStream 0 false))
    ∧ (∀ need, f = .migrate need → s.my.mat.xops = [] → (s.core s.unit.core).freeShadow ≠ none →
        exec i s = .next (((s.headHeld s.unit.core s.unit.sq).traceTrap s.unit.core s.unit.sq .migrate 0).migrate s.unit.core need))

/-- qpush and its 16-bit form that run outside an atomic block append A to the staged entries of the queue when it has room, and stand
as the head otherwise; qpush.t does the same with p23 := 0, expires at once with p23 := 1 for a timeout of 0, and else waits with
the timeout; inside an atomic block the push is a buffered effect. Nothing else changes (R19, R72, R73, R83, R99, R63). -/
def Obligations.QueuePushResults : Prop :=
  ∀ (i : Instr) (s : State) (q : BitVec 3) (v : Word) (time : Option Nat),
    (match i with
      | .qpush x a => x = q ∧ v = s.r a ∧ time = none
      | .qpushC16 x a => x = q ∧ v = s.r a ∧ time = none
      | .qpushT x a b => x = q ∧ v = s.r a ∧ time = some ((s.r b).toNat % 2 ^ 32)
      | _ => False) →
    s.runs i →
    (s.inAtomic = false → s.roomy → (s.begun i).my.links.vroom q.toNat 1 = true → ∃ t, exec i s = .next t
      ∧ t.my.links = (s.begun i).my.links.vpush q.toNat { cut := false, val := v }
      ∧ (∀ n, t.here.reg n = s.here.reg n) ∧ (time ≠ none → t.here.rot = false → t.here.pred 23 = false)
      ∧ s.keepsOutside t ∧ t.my.cr = { s.my.cr with atomic := t.my.cr.atomic } ∧ t.my.eng = s.my.eng)
    ∧ (s.inAtomic = false → (s.begun i).my.links.vroom q.toNat 1 = false →
        (time = none → exec i s = .next (s.holdHead i .flag [108 + q.toNat]))
        ∧ (∀ n, time = some (n + 1) → exec i s = .next ((s.begun i).parkHead i .queueT (n + 1) [108 + q.toNat]))
        ∧ (time = some 0 → s.roomy → ∃ t, exec i s = .next t ∧ t.my.links = (s.begun i).my.links ∧ s.keepsOutside t
            ∧ (∀ n, t.here.reg n = s.here.reg n) ∧ (s.here.rot = false → t.here.pred 23 = true)))
    ∧ (∀ b, s.unit.sq = .ctl → s.my.cr.atomic = some b → time = none → s.unit.pushM = 0 →
        ((s.begun i).buffer (.push q.toNat { cut := false, val := v })).roomy →
        ∃ t, exec i s = .next t ∧ t.my.links = (s.begun i).my.links ∧ s.keepsOutside t
          ∧ t.my.cr = { s.my.cr with atomic := some { b with effects := b.effects ++ [.push q.toNat { cut := false, val := v }] } })

/-- qpop and its 16-bit form that run with a data entry at the head of the queue write its 64 bits to D and remove it; with an empty
queue, or a CUT word at the head, they stand as the head. qpop.t does the same with p23 := 0, and with an empty queue or a CUT
word at the head expires at once for a timeout of 0 with p23 := 1 and D and the queue unchanged, and else waits (R19, R72, R73,
R83, R99, R102). -/
def Obligations.QueuePopResults : Prop :=
  ∀ (i : Instr) (s : State) (d : BitVec 5) (q : BitVec 3) (time : Option Nat),
    (match i with
      | .qpop x y => x = d ∧ y = q ∧ time = none
      | .qpopC16 y x => x = d ∧ y = q ∧ time = none
      | .qpopT x y b => x = d ∧ y = q ∧ time = some ((s.r b).toNat % 2 ^ 32)
      | _ => False) →
    s.runs i →
    (∀ e es, s.roomy → ((s.begun i).my.links.vqueue q.toNat).items = e :: es → e.cut = false → ∃ t, exec i s = .next t
      ∧ t.r d = e.val ∧ (∀ n, n ≠ d.toNat → t.here.reg n = s.here.reg n) ∧ (time ≠ none → s.here.rot = false → t.here.pred 23 = false)
      ∧ t.my.links = (s.begun i).my.links.vpop q.toNat ∧ (t.my.links.vqueue q.toNat).items = es
      ∧ s.keepsOutside t ∧ t.my.eng = s.my.eng)
    ∧ ((((s.begun i).my.links.vqueue q.toNat).items = [] ∨ ∃ e es, ((s.begun i).my.links.vqueue q.toNat).items = e :: es ∧ e.cut = true) →
        (time = none → exec i s = .next (s.holdHead i .flag [108 + q.toNat]))
        ∧ (∀ n, time = some (n + 1) → exec i s = .next ((s.begun i).parkHead i .queueT (n + 1) [108 + q.toNat]))
        ∧ (time = some 0 → s.roomy → ∃ t, exec i s = .next t ∧ t.my.links = (s.begun i).my.links ∧ s.keepsOutside t
            ∧ (∀ n, t.here.reg n = s.here.reg n) ∧ (s.here.rot = false → t.here.pred 23 = true)))

/-- kpush and its 16-bit form that run outside an atomic block add one instruction in progress that owes a token to the peer named,
and inside one of CTL the push is the last of the buffered effects; kpop and its 16-bit form that run take one token from the
peer's queue when it holds one, and stand as the head otherwise. No register, predicate or byte of memory changes (R20, R48, R63,
R83, R100). -/
def Obligations.TokenResults : Prop :=
  (∀ (i : Instr) (s : State) (p : BitVec 2), (i = .kpush p ∨ i = .kpushC16 p) → s.runs i → s.inAtomic = false → s.roomy →
      ∃ t, exec i s = .next t
        ∧ t.here.flight = s.here.flight ++ [{ due := 0, pushM := BitVec.ofNat 3 (2 ^ p.toNat), ring := none, after := none, need := s.unit.need, late := false, no := s.here.icnt + 1 }]
            ++ (if s.unit.pushM = 0 then [] else [{ due := 1, pushM := s.unit.pushM, ring := none, after := none, need := s.unit.need, late := false, no := s.here.icnt + 1,
                                                       op := if s.unit.sq = .mx then s.my.mat.begunOp else 0 }])
        ∧ s.keepsAllBut t none none)
    ∧ (∀ (i : Instr) (s : State) (p : BitVec 2) (b : Atomic), (i = .kpush p ∨ i = .kpushC16 p) → s.runs i → s.unit.sq = .ctl →
      s.my.cr.atomic = some b → s.unit.pushM = 0 → ((s.begun i).buffer (.token (BitVec.ofNat 3 (2 ^ p.toNat)))).roomy →
      ∃ t, exec i s = .next t ∧ t.my.cr.atomic = some { b with effects := b.effects ++ [.token (BitVec.ofNat 3 (2 ^ p.toNat))] }
        ∧ (∀ f ∈ t.here.flight, f ∈ s.here.flight ∨ f.pushM = 0) ∧ s.keepsAllBut t none none)
    ∧ ∀ (i : Instr) (s : State) (p : BitVec 2), (i = .kpop p ∨ i = .kpopC16 p) → s.runs i →
      let ix := popIxs s.unit.sq (BitVec.ofNat 3 (2 ^ p.toNat))
      ((s.begun i).my.links.canPop ix = true → s.roomy → ∃ t, exec i s = .next t
        ∧ t.my.links = (s.begun i).my.links.popTokens ix ∧ s.keepsAllBut t none none)
      ∧ ((s.begun i).my.links.canPop ix = false → exec i s = .next (s.holdHead i .flag (ix.map (96 + ·))))

/-- QUEUE_STALL_END of an untimed queue operation, or of a header that pops its count, RING_STALL_END and COPY_APPEND end as the
instruction at the head itself would; so a stalled qpush with room, qpop with data at the head, and ring.pop with a slot complete
as R99 and R135 say, and an enqueue that waits with its pages held and finds room appends its command; TOKEN_STALL_END lets the
stalled head go on in the same cycle; QUEUE_OP_TIMEOUT of a timed operation whose time has passed writes p23 := 1, leaves
registers and queues as they are, and goes on (R19, R20, R55, R73, R99, R128, R135). -/
def Obligations.StallEnds : Prop :=
  (∀ s : State, (∀ i, s.here.stalled = some i → (∃ q a, i = .qpush q a) ∨ (∃ q a, i = .qpushC16 q a) ∨ (∃ d q, i = .qpop d q)
        ∨ (∃ q d, i = .qpopC16 q d) ∨ (∃ m n, i = .cut m n) ∨ (∃ m, i = .vpush m) ∨ (∃ m, i = .vpop m)
        ∨ (∃ a, i = .gathQ a) ∨ (∃ g r, i = .drainQ g r) ∨ i = .blockEntry →
      exec .queueStallEnd s = exec i s))
    ∧ (∀ (s : State) (q : BitVec 3) (a : BitVec 5), s.here.stalled = some (.qpush q a) → s.runs (.qpush q a) → s.inAtomic = false → s.roomy →
      (s.begun (.qpush q a)).my.links.vroom q.toNat 1 = true → ∃ t, exec .queueStallEnd s = .next t
        ∧ t.my.links = (s.begun (.qpush q a)).my.links.vpush q.toNat { cut := false, val := s.r a }
        ∧ (∀ n, t.here.reg n = s.here.reg n) ∧ s.keepsOutside t)
    ∧ (∀ (s : State) (q : BitVec 3) (d : BitVec 5) (e : QEntry) (es : List QEntry), s.here.stalled = some (.qpop d q) → s.runs (.qpop d q) →
      s.roomy → ((s.begun (.qpop d q)).my.links.vqueue q.toNat).items = e :: es → e.cut = false → ∃ t, exec .queueStallEnd s = .next t
        ∧ t.r d = e.val ∧ (t.my.links.vqueue q.toNat).items = es ∧ (∀ n, n ≠ d.toNat → t.here.reg n = s.here.reg n) ∧ s.keepsOutside t)
    ∧ (∀ s : State, ∀ i, s.here.stalled = some i → (∃ d a, i = .ringPop d a) ∨ (∃ d a, i = .ringPush d a) ∨ (∃ d a b, i = .ringInit d a b) →
      exec .ringStallEnd s = exec i s)
    ∧ (∀ (s : State) (d : BitVec 5) (n : BitVec 4), s.here.stalled = some (.ringPop d n) → s.runs (.ringPop d n) → s.roomy →
      (s.my.ring n.toNat).on = true → (s.my.ring n.toNat).count ≠ 0 → ∃ t, exec .ringStallEnd s = .next t
        ∧ t.r d = BitVec.ofNat 64 (s.my.agBase n.toNat + (s.my.ring n.toNat).head * s.my.slotSize n.toNat)
        ∧ t.my.ring n.toNat = { s.my.ring n.toNat with
            held := true, hslot := (s.my.ring n.toNat).head, count := (s.my.ring n.toNat).count - 1
            head := ((s.my.ring n.toNat).head + 1) % ((s.my.ring n.toNat).slotsM1 + 1) } ∧ s.keepsOutside t)
    ∧ (∀ s : State, ∀ i, s.here.stalled = some i → isCopy i = true → s.my.eng.waiting.isSome = true → exec .copyAppend s = exec i s)
    ∧ (∀ (s : State) (i : Instr) (cmd : Command), s.here.stalled = some i → isCopy i = true → s.my.eng.waiting = some cmd → cmd.instr = i →
      (cmd.slot.isSome = true ∨ (s.plan i).ring = none) → s.runs i → s.inAtomic = false → s.roomy → s.my.eng.cmds.length < 32 →
      ∃ t, exec .copyAppend s = .next t ∧ t.my.eng.cmds = s.my.eng.cmds ++ [{ cmd with id := s.cmdNext + 1 }] ∧ t.my.eng.waiting = none
        ∧ (∀ n, t.here.reg n = s.here.reg n) ∧ State.keepsOutside { s with cmdNext := s.cmdNext + 1 } t)
    ∧ (∀ s : State, s.here.stalled ≠ none → s.here.wait = .none → s.here.flight = [] →
      exec .tokenStallEnd s = .next (s.modSeq s.unit.core s.unit.sq fun q => { q with stalled := none }).staying)
    ∧ ∀ s : State, s.here.waitRem = 0 → s.here.wait = .queueT → ∃ t, exec .queueOpTimeout s = .next t
      ∧ (∀ n, t.here.reg n = s.here.reg n) ∧ t.my.links = s.my.links ∧ t.here.wait = .none ∧ (s.here.rot = false → t.here.pred 23 = true)

/-- RETIREMENT of a live core whose oldest instruction in progress has run its cycles and pops no ring pushes its tokens and leaves
the flights, when every named token queue has room; a ring pop makes HEAD (HEAD + 1) mod SLOTS and COUNT one less, and with COUNT
0 changes nothing of the ring and traps RING as an instruction that counts as retired (R20, R136, R246). -/
def Obligations.RetirementResults : Prop :=
  ∀ (s : State) (c : Nat) (sm : Stream) (f : Flight) (rest : List Flight), (s.core c).hasLive = true → (s.seq c sm).flight = f :: rest →
    f.ripe (s.ctx c).eng.cmds = true →
    (f.ring = none → (∀ g ∈ rest, g.ring = none) → (s.ctx c).links.canPush (pushIxs sm f.pushM) = true →
      exec (.retirement c sm) s = .next ((s.modLinks c fun l => l.pushTokens (pushIxs sm f.pushM)).modSeq c sm fun q => { q with flight := rest }))
    ∧ (∀ n, f.ring = some n → ((s.ctx c).ring n).count ≠ 0 → ∃ t, exec (.retirement c sm) s = .next t
        ∧ ((t.ctx c).ring n).count = ((s.ctx c).ring n).count - 1
        ∧ ((t.ctx c).ring n).head = (((s.ctx c).ring n).head + 1) % (((s.ctx c).ring n).slotsM1 + 1) ∧ t.mem = s.mem)
    ∧ (∀ n, f.ring = some n → ((s.ctx c).ring n).count = 0 → ∃ u : State, (u.ctx c).ring n = (s.ctx c).ring n ∧ u.mem = s.mem
        ∧ exec (.retirement c sm) s = .next ((u.takeTrapAt c sm .ring (BitVec.ofNat 64 (n % 16)) true false).retireHead c sm))

/-- cut that runs outside an atomic block with a non-empty set and room in every named queue appends the word MARK, SET to each named
queue and sets CTL's token queue to each named consumer to 0; without room it waits; with an empty set it traps ILLEGAL. mark that
runs changes nothing. EINFO 0 of ILLEGAL is the model's choice (log entry 18) (R101, R105). -/
def Obligations.CutResults : Prop :=
  (∀ (s : State) (m : BitVec 10) (named : BitVec 3), s.runs (.cut m named) →
      let b := s.begun (.cut m named)
      let full := (List.range 3).filter fun q => named.getLsbD q && !b.my.links.vroom q 1
      (named = 0 → exec (.cut m named) s = .next (s.takeTrap s.unit.core s.unit.sq .illegal 0 false))
      ∧ (named ≠ 0 → s.inAtomic = false → full ≠ [] → exec (.cut m named) s = .next (s.holdHead (.cut m named) .flag (full.map (108 + ·))))
      ∧ (named ≠ 0 → s.inAtomic = false → s.roomy → full = [] → ∃ t, exec (.cut m named) s = .next t
          ∧ s.keepsOutside t ∧ s.here.keeps t.here none none
          ∧ (∀ q, q < 3 → named.getLsbD q = true → t.my.links.token q = Token.zero
              ∧ (t.my.links.vqueue q) = { s.my.links.vqueue q with
                  staged := (s.my.links.vqueue q).staged ++ [{ cut := true, val := BitVec.ofNat 64 (m.toNat + 1024 * named.toNat) }] })
          ∧ (∀ q, q < 3 → named.getLsbD q = false → t.my.links.vqueue q = s.my.links.vqueue q)))
    ∧ ∀ (s : State) (l h : BitVec 5), s.runs (.mark l h) → s.roomy → ∃ t, exec (.mark l h) s = .next t ∧ s.keepsAllBut t none none

/-- CUT_TAKEN of a consumer with a CUT word in its control queue drops the entries ahead of the word and the word itself, leaves the
block and begins the search for its mark; MARK_FOUND of a search that stands at its marked block waits there for the meeting;
CUT_MEETING of consumers that all stand at their marks with everything retired clears the tokens between each pair of them, q5 of
LD and MX, q6 of MX and ST, q7 of ST and LD, q3 of LD and q4 of ST, opens a new segment for MX, gives CTL one meeting token from
each, and ends the cut (R102, R103, R104). -/
def Obligations.CutEvents : Prop :=
  (∀ (s : State) (e : QEntry), s.my.cutWord s.unit.sq = some e → ∃ t, exec .cutTaken s = .next t
      ∧ t.here.inBody = false ∧ t.here.cut = .search (e.val.extractLsb' 0 10) (e.val.extractLsb' 10 3) (if s.here.inBody then BitVec.ofNat 16 s.here.bodyEnd else s.here.pc)
      ∧ t.here.pc = (if s.here.inBody then BitVec.ofNat 16 s.here.bodyEnd else s.here.pc)
      ∧ (t.my.links.vqueue (ctlQueue s.unit.sq)).items = behindCut (s.my.links.vqueue (ctlQueue s.unit.sq)).items
      ∧ (∀ n, t.here.reg n = s.here.reg n) ∧ t.mem = s.mem)
    ∧ (∀ (s : State) (m : BitVec 10) (n : BitVec 3) (pos : Half), s.here.cut = .search m n pos → s.here.marked pos.toNat m = true →
      ∃ t, exec .markFound s = .next t ∧ t.here.cut = .meeting m n pos ∧ t.here.pc = pos ∧ (∀ k, t.here.reg k = s.here.reg k) ∧ t.mem = s.mem)
    ∧ ∀ (s : State) (c : Nat) (m : BitVec 10) (n : BitVec 3), (s.ctx c).meeting = some (m, n) → (s.ctx c).canMeet = true →
      ∃ t, exec (.cutMeeting c) s = .next t ∧ (∀ sm, sm ∈ namedBy n → ((t.ctx c).seq sm).cut = .none
          ∧ (t.ctx c).links.token (tokenIx sm .ctl) = { count := 1, staged := 0, popped := 0 })
        ∧ (∀ x y, x ∈ namedBy n → y ∈ namedBy n → x ≠ y → (t.ctx c).links.token (tokenIx x y) = Token.zero)
        ∧ (Stream.ld ∈ namedBy n → Stream.mx ∈ namedBy n → (t.ctx c).links.rqueue 5 = RQueue.empty)
        ∧ (Stream.mx ∈ namedBy n → Stream.st ∈ namedBy n → (t.ctx c).links.rqueue 6 = RQueue.empty)
        ∧ (Stream.st ∈ namedBy n → Stream.ld ∈ namedBy n → (t.ctx c).links.vqueue 7 = VQueue.empty)
        ∧ (Stream.ld ∈ namedBy n → (t.ctx c).links.vqueue 3 = VQueue.empty) ∧ (Stream.st ∈ namedBy n → (t.ctx c).links.vqueue 4 = VQueue.empty)
        ∧ (Stream.mx ∈ namedBy n → (t.ctx c).mat = (s.ctx c).mat.openSeg) ∧ (t.ctx c).ctl = (s.ctx c).ctl ∧ t.mem = s.mem

/-- fwait that runs with the flag reached acquires and writes p22 := 0; with a timeout of 0 it writes p22 := 1 at once; else it waits
with its timeout. bwait that runs, aligned and resolved, on a core that does not replay, behaves so on a PHASE that differs from
D[3:0], writing D := PHASE (R39, R107, R111). -/
def Obligations.WaitResults : Prop :=
  (∀ (s : State) (d a b : BitVec 5), s.runs (.fwait d a b) →
      let i := Instr.fwait d a b
      let u := s.begun i
      let hit := decide ((s.my.links.flag d.toNat - (s.r a).extractLsb' 0 8).toNat ≤ 127)
      (hit = true → s.roomy → exec i s = .next (((u.acquireFlag s.unit.core d.toNat).modSeq s.unit.core s.unit.sq
          fun q => q.setPred 22 false).finish 0 none))
      ∧ (hit = false → (s.r b).toNat % 2 ^ 32 = 0 → s.roomy →
          exec i s = .next ((u.modSeq s.unit.core s.unit.sq fun q => q.setPred 22 true).finish 0 none))
      ∧ (hit = false → (s.r b).toNat % 2 ^ 32 ≠ 0 → exec i s = .next (u.parkHead i .fwait ((s.r b).toNat % 2 ^ 32) [32 + d.toNat])))
    ∧ ∀ (s s1 : State) (d a b : BitVec 5) (l : Loc), s.runs (.bwait d a b) → s.plain → (s.r a).toNat % 16 = 0 →
      let i := Instr.bwait d a b
      (s.begun i).resolve s.unit.core (s.r a) 16 true false = .at s1 l → (s1.core s.unit.core).watch.rplLive = 0 →
      s1.waitsAt s.unit.core l = false → s1.uncorrAt s.unit.core l 16 = false →
      let phase := barPhase (leNat (s1.bytesAt s.unit.core l 16))
      (phase ≠ (s.r d).toNat % 16 → (bwaitEnd d phase l s1).roomy → ((bwaitEnd d phase l s1).core s.unit.core).watch.rplLive = 0 →
          exec i s = .next ((bwaitEnd d phase l s1).finish 0 none) ∧ ((bwaitEnd d phase l s1).finish 0 none).r d = BitVec.ofNat 64 phase)
      ∧ (phase = (s.r d).toNat % 16 → (s.r b).toNat % 2 ^ 32 = 0 →
          exec i s = .next (((s1.touched s.unit.core l 16).modSeq s.unit.core s.unit.sq fun q => q.setPred 22 true).finish 0 none))
      ∧ (phase = (s.r d).toNat % 16 → (s.r b).toNat % 2 ^ 32 ≠ 0 → exec i s = .next ((s1.touched s.unit.core l 16).parkHead i .bwait ((s.r b).toNat % 2 ^ 32) [116]))

/-- FLAG_WAIT_MET, BARRIER_WAIT_MET and HEADER_WAIT_MET end a wait whose condition holds, acquire, and go on with p22 := 0;
WAIT_TIMEOUT ends a flag, barrier or header wait whose time has passed with p22 := 1; ACQUIRE_COMPLETION lets CTL go on once its
region's TIME has reached the value an acquire received, what was noted having joined KV with a STAMP record for each entry that
changes. That an acquire merges all that the core has noted, and not only what its own response carried, is the model's reading
(log entry 23) (R39, R57, R107, R111, R263). -/
def Obligations.WaitEnds : Prop :=
  (∀ (s : State) (d a b : BitVec 5), s.here.wait = .fwait → s.here.stalled = some (.fwait d a b) →
      reached (s.my.links.flag d.toNat) ((s.r a).extractLsb' 0 8) = true →
      exec .flagWaitMet s = .next ((s.acquireFlag s.unit.core d.toNat).endWait false))
    ∧ (∀ (s s1 : State) (d a b : BitVec 5) (l : Loc) (phase : Nat), s.here.wait = .bwait → s.here.stalled = some (.bwait d a b) →
      s.bwaitSees a = some (s1, l, phase) → phase ≠ (s.r d).toNat % 16 → ((bwaitEnd d phase l s1).core s.unit.core).watch.rplLive = 0 →
      exec .barrierWaitMet s = .next ((bwaitEnd d phase l s1).finish 0 none))
    ∧ (∀ s : State, (s.seq s.unit.core .ctl).wait = .header →
      headerMet (s.my.links.flag (s.seq s.unit.core .ctl).headerWait.1) (s.seq s.unit.core .ctl).headerWait.2 = true →
      exec .headerWaitMet s = .next ((s.acquireFlag s.unit.core (s.seq s.unit.core .ctl).headerWait.1).enterWaited false))
    ∧ (∀ s : State, s.here.waitRem = 0 →
      (s.here.wait = .fwait ∨ s.here.wait = .bwait → ∃ t, exec .waitTimeout s = .next t ∧ t.here.wait = .none
          ∧ (s.here.rot = false → t.here.pred 22 = true) ∧ (∀ n, t.here.reg n = s.here.reg n) ∧ s.keepsOutside t)
      ∧ (s.here.wait = .header → exec .waitTimeout s = .next (s.enterWaited true)))
    ∧ ∀ s : State, s.my.cr.acquireUntil ≤ s.timeOf (Config.quadOf s.unit.core) → ∃ t, exec .acquireCompletion s = .next t
      ∧ t = (s.traceMerge ((s.modCr s.unit.core fun r => { r with acquireUntil := 0 }).merge s.unit.core) s.unit.core).staying
      ∧ t.my.cr.acquireUntil = 0 ∧ (∀ n, t.here.reg n = s.here.reg n) ∧ (s.hub.trace.en = false → t.mem = s.mem)

/-- bar.init that runs with B[63:24] zero, at a 16-byte aligned address that resolves, is ready and serves the scope, writes the word
of R108; bar.arrive, a release at the scope of the word that below .pkg waits for the writes that CTL has sent to other dies,
subtracts one arrival under R109; bar.expect with B[63:40] zero adds B bytes to BYTEPEND without a flip, and raises BAR_UNDER
without a change when the sum exceeds 40 bits. A misaligned address traps ALIGN. The operation is one that may reach its home on
this cycle, and the home takes the write. Which context a word in a pool and one in a peer window belong to (log entry 59), the
address in EINFO of ALIGN (log entry 18) and the wait of an operation that may not reach its home on this cycle (log entry 8) are
the model's readings (R108, R109, R110, R259, R260, R261). -/
def Obligations.BarrierInstructions : Prop :=
  (∀ (i : Instr) (s : State) (a : BitVec 5),
    (match i with
      | .barInit x b => x = a ∧ bits (s.r b).toNat 63 24 = 0
      | .barArrive x => x = a
      | .barExpect x b => x = a ∧ bits (s.r b).toNat 63 40 = 0
      | _ => False) → s.runs i → (s.r a).toNat % 16 ≠ 0 →
    exec i s = .next (s.takeTrap s.unit.core s.unit.sq .align (s.r a) false))
  ∧ ∀ (i : Instr) (s s1 : State) (a : BitVec 5) (l : Loc) (kind : BarKind),
    (match i with
      | .barInit x _ => x = a ∧ kind = .init
      | .barArrive x => x = a ∧ kind = .arrive
      | .barExpect x _ => x = a ∧ kind = .expect
      | _ => False) → s.runs i → s.plain →
    (s.r a).toNat % 16 = 0 → (s.begun i).resolve s.unit.core (s.r a) 16 true true = .at s1 l →
    s1.homeReady s.unit.core l = true → s1.mayReach s.unit.core l kind = true → s1.uncorrAt s.unit.core l 16 = false →
    let c := s.unit.core
    let u := (s1.touched c l 16).reach c l kind
    (∀ b, i = .barInit a b → bits (s.r b).toNat 63 24 = 0 → homeServes l (bits (s.r b).toNat 23 22) = true →
      let w := u.setBar c l (barNew (s.r b).toNat)
      w.2 = true → ∃ t : State, exec i s = .next (t.finish 0 none)
        ∧ t = { w.1 with
            barOwner := match l with
              | .scr _ => w.1.barOwner
              | _ => put BarOwner.none w.1.barOwner (locKey c l) (u.newOwner c (s.r a))
            relTime := put 0 (put 0 (put 0 w.1.relTime (locKey c l) 0) (phaseKey c l) 0) (flipKey c l) 0, relKv := put [] w.1.relKv (locKey c l) [] })
    ∧ (i = .barArrive a →
      let v := if barScope (u.barWord c l) = 3 then u.traceStamp c (Config.dieOf c) (u.kv c (Config.dieOf c)) else u
      let w := v.barSub c l (u.aim c) 1 0 (u.timeOf (locRegion c l))
      (u.mayRelease c (barScope (u.barWord c l)) = true → w.2 = true → w.1.roomy → exec i s = .next (w.1.finish 0 none))
      ∧ (u.mayRelease c (barScope (u.barWord c l)) = false → exec i s = .next (s.holdHead i .engine [])))
    ∧ (∀ b, i = .barExpect a b → bits (s.r b).toNat 63 40 = 0 →
      (barBytes (u.barWord c l) + (s.r b).toNat < 2 ^ 40 →
        let w := u.setBar c l (setBits (u.barWord c l) 75 36 (barBytes (u.barWord c l) + (s.r b).toNat))
        w.2 = true → exec i s = .next (w.1.finish 0 none))
      ∧ (2 ^ 40 ≤ barBytes (u.barWord c l) + (s.r b).toNat → (u.barUnder c l (u.aim c) 2).roomy →
        exec i s = .next ((u.barUnder c l (u.aim c) 2).finish 0 none)))

/-- Each of the eleven copy forms that runs outside an atomic block with no copy waiting before it, whose operand checks pass, whose
extents translate, and which finds room in the queue (and a free slot in its ring) answers a next state in which one command
stands last in the queue: the instruction, its length, target and held pages, its source, and as destination its own or the slot
reserved; the ring's RSV is one more. No register, predicate or byte of memory is changed by the append. One whose operand checks
name a fault traps with it and has no effect, ILLEGAL for a length word outside R127. EINFO of a cause for which the spec gives
none is the model's choice (log entry 18) (R126, R127, R128, R133, R134). -/
def Obligations.CopyResults : Prop :=
  (∀ (i : Instr) (s s1 u : State) (hs : List PageHold) (slot : Option (Nat × Nat)) (dst : Word),
    (match i with
      | .copyG2s .. | .copyS2g .. | .copyG2c .. | .copyC2g .. | .copyC2s .. | .copyS2c .. | .copyX2s .. | .copyS2x .. | .copyMc ..
      | .copyRing .. | .copyMx .. => True
      | _ => False) →
    s.runs i → s.plain → s.my.eng.waiting = none →
    let c := s.unit.core
    let p := (s.begun i).plan i
    (s.begun i).checkPlan c p true = none →
    (s.begun i).holdAll c [(0, p.src, p.srcLen, true, false), (1, p.dst, p.dstLen, false, true),
      (2, if isBarTarget p.target then p.target else 0xFE000000000000, barExtent, true, true)] = .ok (s1, hs) →
    s1.my.eng.cmds.length < 32 → s1.unit = s.unit → s1.my.cr = s.my.cr →
    (match p.ring with
      | none => slot = none ∧ dst = p.dst ∧ u = s1
      | some n => ∃ k r, (s1.my.ring n).reserve = some (k, r) ∧ slot = some (n, k) ∧ dst = scrAddress (s1.my.agBase n + k * s1.my.slotSize n)
          ∧ r = { s1.my.ring n with rsv := (s1.my.ring n).rsv + 1 } ∧ u = s1.modCtx c fun x => x.modRing n fun _ => r) →
    ∃ (t : State) (cmd : Command), exec i s = .next t ∧ t.my.eng = { s1.my.eng with waiting := none, cmds := s1.my.eng.cmds ++ [cmd] }
      ∧ cmd.instr = i ∧ cmd.dst = dst ∧ cmd.src = p.src ∧ cmd.len = bits p.lenw.toNat 31 0 ∧ cmd.target = p.target ∧ cmd.holds = hs
      ∧ cmd.slot = slot ∧ cmd.started = false ∧ cmd.landed = false ∧ cmd.chained = p.chain ∧ cmd.task = s.aim c ∧ cmd.id = s1.cmdNext + 1 ∧ t.cmdNext = s1.cmdNext + 1
      ∧ u.here.keeps t.here none none ∧ t.my.loc.rings = u.my.loc.rings ∧ t.mem = s1.mem ∧ t.cluster = s1.cluster
      ∧ (t.core c).pool = (s1.core c).pool)
  ∧ ∀ (i : Instr) (s : State) (e : Cause) (info : Word),
    (match i with
      | .copyG2s .. | .copyS2g .. | .copyG2c .. | .copyC2g .. | .copyC2s .. | .copyS2c .. | .copyX2s .. | .copyS2x .. | .copyMc ..
      | .copyRing .. | .copyMx .. => True
      | _ => False) →
    s.runs i → s.my.eng.waiting = none → (s.begun i).checkPlan s.unit.core ((s.begun i).plan i) true = some (e, info) →
    exec i s = .next (s.takeTrap s.unit.core s.unit.sq e info false)
      ∧ (¬ ((s.begun i).plan i).lenOk = true → e = .illegal ∧ info = 0)

/-- COPY_START of an engine with fewer than 8 commands in progress marks its oldest queued command started; COPY_COMPLETION of a
started command of a core that does not replay, whose lines can all be moved, whose writes are all performed at their homes and
that no earlier reservation holds back moves what is left and lands it: the ring slot is counted, the completion target is hit,
and the command leaves the queue, a copy.mx once its word is in q1 and its token in k.cm, for which it waits where there is no
room; COPY_MX_CHAINED_PUSH makes the chained push of a landed copy.mx once q1 and the token queue have room; KBC_RELAYOUT unlocks
a locked page with its wanted class. That COPY_COMPLETION moves at once what is left is the model's choice (log entry 27) (R128,
R129, R134, R137, R141). -/
def Obligations.CopyEvents : Prop :=
  (∀ (s : State) (c p : Nat) (cmd : Command),
      let cmds := (s.cmdPlaces c).filterMap fun p => (s.cmdAt c p).map fun k => (p, k)
      cmds.find? (fun e => !e.2.started && !isSnap e.2.instr) = some (p, cmd) →
      (cmds.filter fun e => e.2.started && !isSnap e.2.instr).length < 8 → (s.core c).dbg.stopped = false →
      exec (.copyStart c) s = .next ((s.setForm c cmd).setCmd c p { cmd with started := true }))
    ∧ (∀ (s s1 : State) (c pos : Nat) (cmd cmd1 : Command), s.cmdAt c pos = some cmd → cmd.started = true → cmd.landed = false →
      isSnap cmd.instr = false → (s.core c).dbg.stopped = false → pos < 32 →
      cmd.hit = false → s.replays c pos = false →
      s.moveRest c false cmd = (s1, cmd1) → cmd1.allMoved = true → s1.performedAll cmd1.id = true → s1.mustWait c pos cmd1 = false →
      let s2 := match cmd1.slot with | some (n, _) => s1.modCtx c fun x => x.modRing n RingState.count1 | none => s1
      let done := { cmd1 with counted := true, landed := true }
      let v := (s2.hitTarget c false done).1
      ((s2.hitTarget c false done).2 = true → exec (.copyCompletion c pos) s = .next (if cmd1.chained = false then v.endCmd c pos done
        else if (v.ctx c).links.chainRoom = true then
          (v.modLinks c fun l => (l.vpush 1 { cut := false, val := (cmd1.vals[3]?).getD 0 }).pushTokens (pushIxs .ctl 2)).endCmd c pos done
        else v.setCmd c pos done)))
    ∧ (∀ (s : State) (c pos : Nat) (cmd : Command), (s.core c).hasLive = true → (s.core c).dbg.stopped = false →
      (s.ctx c).eng.cmds.findIdx? (fun k => k.chained && k.landed) = some pos → pos < 32 → s.cmdAt c pos = some cmd → cmd.chained = true →
      exec (.copyMxChainedPush c) s = .next (if (s.ctx c).links.chainRoom then
          (s.modLinks c fun l => (l.vpush 1 { cut := false, val := (cmd.vals[3]?).getD 0 }).pushTokens (pushIxs .ctl 2)).endCmd c pos cmd
        else s.setCmd c pos cmd))
    ∧ ∀ (s : State) (quad page : Nat), (s.page (clusKey quad (65536 * page))).locked = true →
      exec (.kbcRelayout quad page) s
        = .next (s.modPage (clusKey quad (65536 * page)) fun p => { p with locked := false, cls := Nat.max p.cls p.want, want := 0 })

/-- cp.snap that runs outside an atomic block with a readable, legal descriptor, extents that translate and room in the queue appends
one command that carries the descriptor; SNAPSHOT_COMPLETION of it, on a core that does not replay, when every block is visited,
writes the header EPOCH, NBLK and the number of records, the two counts of the descriptor, and, once all of it is performed at its
homes, hits the target and retires the command (R149, R150). -/
def Obligations.SnapshotResults : Prop :=
  (∀ (s s1 s2 : State) (a b : BitVec 5) (l : Loc) (desc : List Word) (hs : List PageHold), s.runs (.cpSnap a b) → s.plain →
      s.my.eng.waiting = none → (isGlobal (s.r a) || isS (s.r a)) = true → (s.r a).toNat % 64 = 0 →
      (isBarTarget (s.r b) = true → placeOf (s.r b) ≠ .bad ∧ (s.r b).toNat % 16 = 0 ∧ s1.windowFault s.unit.core (s.r b) barExtent = none) →
      (s.begun (.cpSnap a b)).resolve s.unit.core (s.r a) 64 true true = .at s1 l → s1.waitsAt s.unit.core l = false →
      s1.uncorrAt s.unit.core l 64 = false →
      desc = (List.range 8).map (fun i => BitVec.ofNat 64 (leNat (((s1.bytesAt s.unit.core l 64).drop (8 * i)).take 8))) →
      snapFault desc = none →
      let n := (snapField desc 1).toNat
      (s1.touched s.unit.core l 64).holdAll s.unit.core
        [(0, snapField desc 0, 4096 * n, true, false), (3, snapField desc 2, 32 * n, true, true),
         (4, snapField desc 3, Nat.max 64 (snapField desc 4).toNat, false, true), (1, s.r a, 64, true, true),
         (2, if isBarTarget (s.r b) then s.r b else 0xFE000000000000, barExtent, true, true)] = .ok (s2, hs) →
      s2.my.eng.cmds.length < 32 → s2.unit = s.unit → s2.my.cr = s.my.cr →
      ∃ (t : State) (cmd : Command), exec (.cpSnap a b) s = .next t
        ∧ t.my.eng = { s2.my.eng with waiting := none, cmds := s2.my.eng.cmds ++ [cmd] } ∧ cmd.instr = .cpSnap a b ∧ cmd.desc = desc
        ∧ cmd.target = s.r b ∧ cmd.holds = hs ∧ cmd.block = 0 ∧ cmd.written = 0 ∧ cmd.emitted = 0
        ∧ s2.here.keeps t.here none none ∧ t.mem = s2.mem)
    ∧ ∀ (s s1 : State) (c pos : Nat) (cmd cmd1 : Command), s.cmdAt c pos = some cmd → isSnap cmd.instr = true → cmd.landed = false →
      cmd.hit = false → (s.core c).dbg.stopped = false → pos < 32 →
      let f := snapField cmd.desc
      iterate ((f 1).toNat - cmd.block) (fun _ a => a.1.snapBlock c false a.2) (s, { cmd with started := true }) = (s1, cmd1) →
      (f 1).toNat ≤ cmd1.block →
      let g := snapField cmd1.desc
      let w := (s1.countSnap c false (64 * (cmd1.block - cmd.block))).writeAt c false cmd1
        [(4, g 3, leBytes 8 (g 5).toNat ++ leBytes 8 (g 1).toNat ++ leBytes 8 cmd1.emitted ++ List.replicate 40 0#8),
         (1, plus cmd1.dst 48, leBytes 8 cmd1.emitted ++ leBytes 8 (64 + cmd1.written))]
      let v := w.1
      let done := { cmd1 with landed := true }
      w.2 = true →
      (v.performedAll cmd1.id = true → (v.hitTarget c false done).2 = true → (v.hitTarget c false done).1.replays c pos = false → v.replays c pos = false →
        exec (.snapshotCompletion c pos) s = .next ((v.hitTarget c false done).1.endCmd c pos done))
      ∧ (v.performedAll cmd1.id = false → exec (.snapshotCompletion c pos) s = .next (v.setCmd c pos done))

/-- ring.init that runs with a slot size of 64 to 65,536 bytes in multiples of 64, 1 to 64 slots, inside SCR and with no reservation
in flight writes AGnD0 and AGnD1 and sets the ring to empty and on; outside those sizes it traps ILLEGAL, and with a legal size
that does not lie inside SCR POOL_BOUND. ring.push that runs with its checks passed, room and a free slot reserves it and queues
its command. ring.pop that runs on a ring that holds an entry writes the head slot's SCR offset to D, advances HEAD, takes one
from COUNT and holds the slot; an empty ring stalls it; a ring that is off traps ILLEGAL. EINFO 0 of ILLEGAL and the set's base in
EINFO of POOL_BOUND are the model's choices (log entry 18) (R132, R133, R135). -/
def Obligations.RingResults : Prop :=
  (∀ (s : State) (n : BitVec 4) (a b : BitVec 5), s.runs (.ringInit n a b) →
      let size := (s.r a).toNat
      let slots := (s.r b).toNat
      (size % 64 = 0 → 64 ≤ size → size ≤ 65536 → 1 ≤ slots → slots ≤ 64 →
        s.my.agBase n.toNat + size * slots ≤ (s.core s.unit.core).liveSl.scrBytes → (s.my.ring n.toNat).rsv = 0 → s.roomy →
        ∃ t : State, exec (.ringInit n a b) s = .next t
          ∧ t.my.loc.ag = put 0#64 (put 0#64 s.my.loc.ag (5 * n.toNat + 1) (agDim size 1)) (5 * n.toNat + 2) (agDim slots size)
          ∧ t.my.ring n.toNat = { s.my.ring n.toNat with on := true, slotsM1 := slots - 1, head := 0, count := 0, held := false }
          ∧ s.here.keeps t.here none none ∧ s.keepsOutside t)
      ∧ (size % 64 ≠ 0 ∨ size < 64 ∨ 65536 < size ∨ slots < 1 ∨ 64 < slots →
        exec (.ringInit n a b) s = .next (s.takeTrap s.unit.core s.unit.sq .illegal 0 false))
      ∧ (size % 64 = 0 → 64 ≤ size → size ≤ 65536 → 1 ≤ slots → slots ≤ 64 →
        (s.core s.unit.core).liveSl.scrBytes < s.my.agBase n.toNat + size * slots →
        exec (.ringInit n a b) s = .next (s.takeTrap s.unit.core s.unit.sq .poolBound (BitVec.ofNat 64 (s.my.agBase n.toNat)) false)))
    ∧ (∀ (s : State) (n : BitVec 4) (a : BitVec 5) (k : Nat) (r : RingState), s.runs (.ringPush n a) →
      let i := Instr.ringPush n a
      let p := (s.begun i).plan i
      (s.begun i).ringOff s.unit.core p = false → (s.r a).toNat < 2 ^ 32 → (s.begun i).checkPlan s.unit.core p false = none →
      s.my.eng.cmds.length < 32 → (s.my.ring n.toNat).reserve = some (k, r) → s.roomy →
      ∃ (t : State) (cmd : Command), exec i s = .next t ∧ t.my.eng.cmds = s.my.eng.cmds ++ [cmd] ∧ cmd.instr = i
        ∧ cmd.slot = some (n.toNat, k) ∧ cmd.dst = scrAddress (s.my.agBase n.toNat + k * s.my.slotSize n.toNat)
        ∧ cmd.src = scrAddress (s.r a).toNat ∧ cmd.len = s.my.slotSize n.toNat ∧ t.my.ring n.toNat = r
        ∧ cmd.id = s.cmdNext + 1 ∧ s.here.keeps t.here none none ∧ State.keepsOutside { s with cmdNext := s.cmdNext + 1 } t)
    ∧ ∀ (s : State) (d : BitVec 5) (n : BitVec 4), s.runs (.ringPop d n) →
      let r := s.my.ring n.toNat
      (r.on = true → r.count ≠ 0 → s.roomy → ∃ t : State, exec (.ringPop d n) s = .next t
        ∧ t.r d = BitVec.ofNat 64 (s.my.agBase n.toNat + r.head * s.my.slotSize n.toNat)
        ∧ t.my.ring n.toNat = { r with held := true, hslot := r.head, head := (r.head + 1) % (r.slotsM1 + 1), count := r.count - 1 }
        ∧ s.here.keeps t.here (some d.toNat) none ∧ s.keepsOutside t)
      ∧ (r.on = true → r.count = 0 → exec (.ringPop d n) s = .next (s.holdHead (.ringPop d n) .flag [117]))
      ∧ (r.on = false → exec (.ringPop d n) s = .next (s.takeTrap s.unit.core s.unit.sq .illegal 0 false))

/-- gath and scat that run with equal point counts and both sets inside SCR owe, to be landed when the move has run its cycles, the
destination points with the source bytes: for gath as all were before any write, for scat as each stands after the writes of the
points before it; a byte that an earlier move of LD still owes counts as written. Unequal counts trap ILLEGAL, a set outside SCR
traps POOL_BOUND. gath.q with room in q5 appends the next row of 1,024 points, the last one's tail zeros, and issues with the
last; without room it stalls. That a move reads its bytes at issue, with those that earlier moves owe counted as written, and
writes them at its retirement is the model's reading (log entry 34); EINFO 0 of ILLEGAL and the address in EINFO of POOL_BOUND are
its choices (log entry 18). That the point counts are compared before the bounds of the sets is the model's reading (log entry 51)
(R145, R146, R245). -/
def Obligations.PointMoves : Prop :=
  (∀ (i : Instr) (s : State) (d a : BitVec 4) (ws : List (Nat × Byte)),
      let k := s.core s.unit.core
      let src := s.my.agOffsets a.toNat
      let dst := s.my.agOffsets d.toNat
      ((i = .gath d a ∧ ws = gatherWrites k.ldByte src dst) ∨ (i = .scat d a ∧ ws = scatterWrites s.my.onKerf k.ldByte src dst)) →
      s.runs i → s.roomy →
      (s.my.agPoints a.toNat = s.my.agPoints d.toNat → s.my.agOutside a.toNat k.liveSl.scrBytes = none →
        s.my.agOutside d.toNat k.liveSl.scrBytes = none →
        let lat := gatherCycles (s.my.agPoints a.toNat) (s.my.agFast a.toNat && s.my.agFast d.toNat)
        ∃ t : State, exec i s = .next t
          ∧ t.my.pend = s.my.pend ++ [{ own := .ld, ord := s.my.nextOrd, due := lat, what := .bytes ws }]
          ∧ s.here.keeps t.here none none ∧ (t.core s.unit.core).pool = k.pool ∧ t.mem = s.mem)
      ∧ (s.my.agPoints a.toNat ≠ s.my.agPoints d.toNat → exec i s = .next (s.takeTrap s.unit.core s.unit.sq .illegal 0 false))
      ∧ (∀ e, s.my.agPoints a.toNat = s.my.agPoints d.toNat →
        s.my.agOutside a.toNat k.liveSl.scrBytes = some e
          ∨ (s.my.agOutside a.toNat k.liveSl.scrBytes = none ∧ s.my.agOutside d.toNat k.liveSl.scrBytes = some e) →
        exec i s = .next (s.takeTrap s.unit.core s.unit.sq .poolBound e false)))
    ∧ (∀ (s : State) (a : BitVec 4) (e : Word), s.runs (.gathQ a) →
      s.my.agOutside a.toNat (s.core s.unit.core).liveSl.scrBytes = some e →
      exec (.gathQ a) s = .next (s.takeTrap s.unit.core s.unit.sq .poolBound e false))
    ∧ ∀ (s : State) (a : BitVec 4), s.runs (.gathQ a) → s.my.agOutside a.toNat (s.core s.unit.core).liveSl.scrBytes = none →
      ((s.begun (.gathQ a)).my.links.rroom 5 = false → exec (.gathQ a) s = .next (s.holdHead (.gathQ a) .flag [113]))
      ∧ ((s.begun (.gathQ a)).my.links.rroom 5 = true → s.roomy →
      (∀ p, p < s.my.agPoints a.toNat → (s.ctx s.unit.core).onKerf (s.my.agPoint a.toNat p).toNat = false) →
      let r := s.here.part
      ∃ t : State, exec (.gathQ a) s = .next t
        ∧ t.my.links = (s.begun (.gathQ a)).my.links.rpush 5 (rowOf ((List.range 1024).map fun i =>
            if 1024 * r + i < s.my.agPoints a.toNat then (s.core s.unit.core).ldByte (s.my.agPoint a.toNat (1024 * r + i)).toNat else 0))
        ∧ (1024 * (r + 1) < s.my.agPoints a.toNat → t.here.part = r + 1 ∧ t.here.pc = s.here.pc ∧ t.here.icnt = s.here.icnt)
        ∧ (s.my.agPoints a.toNat ≤ 1024 * (r + 1) → t.here.part = 0 ∧ t.here.icnt = s.here.icnt + 1)
        ∧ s.here.keeps t.here none none ∧ t.mem = s.mem)

/-- salloc that runs with 1 to 2^32 - 1 bytes and room writes to D the offset of a block of the bytes rounded up to 64, between two
kerfs of 64 bytes, and lowers the top; without room D is all ones and nothing else changes; 0 traps ILLEGAL. sfree of the newest
block clears its kerfs and raises the top; any other traps ILLEGAL. imld whose lines are all read writes the halfwords into the
named memory and lets CTL wait its cycles; IMLD_COMPLETE ends that wait. EINFO 0 of ILLEGAL is the model's choice (log entry 18)
(R147, R151). -/
def Obligations.ScratchResults : Prop :=
  (∀ (s : State) (d a : BitVec 5), s.runs (.salloc d a) → s.roomy →
      let n := (s.r a).toNat
      let len := ceilDiv n 64 * 64
      let top := s.my.loc.satop - 128 - len
      (n ≠ 0 → n < 2 ^ 32 → s.my.loc.allocs.length ≠ 64 → len + 128 ≤ s.my.loc.satop → ∃ t : State, exec (.salloc d a) s = .next t
        ∧ t.r d = BitVec.ofNat 64 (top + 64) ∧ t.my.loc.satop = top ∧ t.my.loc.allocs = (top + 64, len) :: s.my.loc.allocs
        ∧ t.my.onKerf (s.my.loc.satop - 64) = true ∧ t.my.onKerf top = true ∧ s.here.keeps t.here (some d.toNat) none ∧ s.keepsOutside t)
      ∧ (n ≠ 0 → n < 2 ^ 32 → (s.my.loc.allocs.length = 64 ∨ s.my.loc.satop < len + 128) → ∃ t : State, exec (.salloc d a) s = .next t
        ∧ t.r d = -1 ∧ s.keepsAllBut t (some d.toNat) none)
      ∧ (n = 0 ∨ 2 ^ 32 ≤ n → exec (.salloc d a) s = .next (s.takeTrap s.unit.core s.unit.sq .illegal 0 false)))
    ∧ (∀ (s : State) (a : BitVec 5), s.runs (.sfree a) → s.roomy →
      (∀ len rest, s.my.loc.allocs = ((s.r a).toNat, len) :: rest → ∃ t : State, exec (.sfree a) s = .next t
        ∧ t.my.loc.allocs = rest ∧ t.my.loc.satop = s.my.loc.satop + 128 + len ∧ t.my.onKerf ((s.r a).toNat + len) = false
        ∧ t.my.onKerf ((s.r a).toNat - 64) = false
        ∧ s.here.keeps t.here none none ∧ s.keepsOutside t)
      ∧ ((∀ len rest, s.my.loc.allocs ≠ ((s.r a).toNat, len) :: rest) →
        exec (.sfree a) s = .next (s.takeTrap s.unit.core s.unit.sq .illegal 0 false)))
    ∧ (∀ (s s1 : State) (a b c : BitVec 5) (bs : List Byte), s.runs (.imld a b c) →
      let v := (s.r b).toNat
      let n := (s.r c).toNat
      let sm := streamOf (bits v 1 0)
      bits v 15 3 = 0 → bits v 63 32 = 0 → 1 ≤ n → bits v 31 16 + n ≤ imemSize sm → (isGlobal (s.r a) || isS (s.r a)) = true →
      (s.r a).toNat % 64 = 0 → (s.begun (.imld a b c)).windowFault s.unit.core (s.r a) (2 * n) = none →
      (s.begun (.imld a b c)).imRead s.unit.core (s.r a) (ceilDiv (2 * n) 64) = (s1, .all bs) →
      let u := (s1.modSeq s.unit.core sm fun q => ({ q with imem := if bit v 2 then [] else q.imem }).loadImem (bits v 31 16)
        ((halvesOf bs).take n)).modEng s.unit.core fun g => { g with imld := some (streamCode sm, ceilDiv n 32) }
      u.roomy → exec (.imld a b c) s = .next (u.finish (ceilDiv n 32) none))
    ∧ ∀ (s : State) (c k : Nat), (s.ctx c).eng.imld = some (k, 0) →
      exec (.imldComplete c) s = .next (s.modEng c fun g => { g with imld := none })

/-- renq that runs, is first among the senders to its target and finds room sends the word of A with its flag, and p23 := 0; with no
room and a timeout of 0, p23 := 1; a core of another partition traps PRIV. REMOTE_ENQUEUE_ARRIVAL of the oldest entry for a live,
running core that does not replay appends the word as data and raises the flag named. task.post with a readable record that the
pool accepts puts it into the lowest free slot of the partition and writes the slot to D, with p23 := 0; a record the pool refuses
leaves all ones in D, and p23 := 0. p23 := 0 for a record that the pool refuses is the model's reading (log entry 37), and B in
EINFO of PRIV its choice (log entry 18). That the entry travels by itself, that the room at the target counts what travels, and
that entries to one core arrive in the order they were sent are its readings too (log entry 39) (R152, R153, R271, R272). -/
def Obligations.RemoteWork : Prop :=
  (∀ (s : State) (a b c : BitVec 5), s.runs (.renq a b c) → s.here.wait = .none → s.roomy →
      let i := Instr.renq a b c
      let v := (s.r b).toNat
      let k := bits v 7 0
      let q := bits v 9 8
      let me := s.unit.core
      bits v 63 17 = 0 → k < Config.cores → q ≠ 3 →
      ((s.begun i).sharesWith me k = false → exec i s = .next (s.takeTrap me s.unit.sq .priv (s.r b) false))
      ∧ ((s.begun i).sharesWith me k = true →
        ((s.begun i).firstAt me (some (k, q)) (s.partOf k) = true → (s.begun i).remoteRoom k q = true →
          ∃ t, exec i s = .next t ∧ t.enqueued = s.enqueued ++ [
              { core := k, sender := me, queue := q, val := s.r a, flag := (if bit v 16 then some (bits v 15 10) else none)
                time := s.timeOf (Config.quadOf me), kv := (s.core me).kv }]
            ∧ (s.here.rot = false → t.here.pred 23 = false) ∧ (∀ n, t.here.reg n = s.here.reg n) ∧ t.mem = s.mem)
        ∧ (((s.begun i).firstAt me (some (k, q)) (s.partOf k) = false ∨ (s.begun i).remoteRoom k q = false) → timeout (s.r c) = 0 →
          ∃ t, exec i s = .next t ∧ t.enqueued = s.enqueued ∧ (s.here.rot = false → t.here.pred 23 = true)
            ∧ (∀ n, t.here.reg n = s.here.reg n) ∧ t.mem = s.mem)))
    ∧ (∀ (s : State) (c : Nat) (e : Enqueued), s.enqueued.find? (fun e => e.core == c) = some e → (s.core c).hasLive = true →
      (s.core c).dbg.stopped = false → (s.ctx c).links.vroom e.queue 1 = true → s.mayArrive e = true → (s.core c).watch.rplLive ≠ 2 →
      let u := (({ s with enqueued := s.enqueued.erase e }).modLinks c fun l => l.vpush e.queue { cut := false, val := e.val }).logEvent c 2
        e.queue e.val.toNat
      (e.flag = none → exec (.remoteEnqueueArrival c) s = .next u)
      ∧ ∀ f, e.flag = some f →
        exec (.remoteEnqueueArrival c) s = .next (u.bumpCore c { flag := f, time := e.time, kv := e.kv, src := .remote }))
    ∧ ∀ (s s1 s2 : State) (d a b : BitVec 5) (l : Loc) (e : List Word), s.runs (.taskPost d a b) → s.here.wait = .none →
      isS (s.r a) = true → (s.r a).toNat % 64 = 0 →
      let i := Instr.taskPost d a b
      let me := s.unit.core
      (s.begun i).resolve me (s.r a) 64 true false = .at s1 l →
      let r := wordsOf (s1.bytesAt me l 64)
      let o := (s.begun i).partOf me
      (s1.touched me l 64).progEntry o (recProg r) = .ok (s2, e) → s2.unit = s.unit →
      (s2.recordOk o r e = true → s2.firstAt me none o = true → ∀ n, s2.freeSlot o = some n → (s2.leaveTarget me none o).freeSlot o = some n →
        let u := (((s2.leaveTarget me none o).accept o n r).setR d (BitVec.ofNat 64 n)).modSeq me s.unit.sq fun q => q.setP23 false
        u.roomy → exec i s = .next (u.finish 0 none))
      ∧ (s2.recordOk o r e = false → let u := (s2.setR d (-1)).modSeq me s.unit.sq fun q => q.setP23 false
          u.roomy → exec i s = .next (u.finish 0 none))

/-- dq.push, dq.pop, dq.steal, rng.set, rng.take and rng.steal that run answer a next state: the owner pushes and pops at the bottom
of its deque of 64, a thief, on its turn after every owner's own operations of the cycle, takes the top of the live victim's; a
range is set, taken by chunks from below, and its upper half stolen; the predicate C becomes 1 where there was room for the push,
an entry to pop, take or steal, or a range to take from or to split, and else 0, registers and queues then staying as they are (a
write of p0 is ignored, and a write of p16 to p21 stands unless the same unit ends a repetition of a rotating block). The victim
of either steal traps PRIV in another partition, and ILLEGAL outside the package; a steal changes its own D, A and C and the
victim's deque or range, and nothing else. ILLEGAL for a core number of 192 or more is the model's reading (log entry 38), and
EINFO its choice (log entry 18) (R154, R155). -/
def Obligations.DequeAndRange : Prop :=
  ∀ s : State, s.roomy →
    (∀ a c : BitVec 5, s.runs (.dqPush a c) → ∃ t, exec (.dqPush a c) s = .next t
      ∧ t.my.links.deque = (if s.my.links.deque.length = 64 then s.my.links.deque else s.my.links.deque ++ [s.r a])
      ∧ s.predIs t c (decide (s.my.links.deque.length ≠ 64)) ∧ s.here.keeps t.here none (some c.toNat) ∧ s.keepsOutside t)
    ∧ (∀ d c : BitVec 5, s.runs (.dqPop d c) → ∃ t, exec (.dqPop d c) s = .next t
      ∧ t.my.links.deque = s.my.links.deque.dropLast ∧ (∀ v, s.my.links.deque.getLast? = some v → t.r d = v)
      ∧ (s.my.links.deque = [] → s.keepsAllBut t none (some c.toNat)) ∧ s.predIs t c (decide (s.my.links.deque ≠ [])) ∧ s.here.keeps t.here (some d.toNat) (some c.toNat) ∧ s.keepsOutside t)
    ∧ (∀ d a c : BitVec 5, s.runs (.dqSteal d a c) →
      let k := (s.r a).toNat
      (Config.cores ≤ k → exec (.dqSteal d a c) s = .next (s.takeTrap s.unit.core s.unit.sq .illegal 0 false))
      ∧ (k < Config.cores → s.sharesWith s.unit.core k = false →
          exec (.dqSteal d a c) s = .next (s.takeTrap s.unit.core s.unit.sq .priv (s.r a) false))
      ∧ (k < Config.cores → s.sharesWith s.unit.core k = true → s.unit.late = false → exec (.dqSteal d a c) s =
          .next { s.holdHead (.dqSteal d a c) .engine [] with late := s.late ++ [s.unit.core] })
      ∧ (k < Config.cores → s.sharesWith s.unit.core k = true → s.unit.late = true → (s.core k).hasLive = true →
          ∀ v rest, (s.ctx k).links.deque = v :: rest → ∃ t, exec (.dqSteal d a c) s = .next t ∧ t.r d = v ∧ (t.ctx k).links.deque = rest
            ∧ s.predIs t c true ∧ s.here.keeps t.here (some d.toNat) (some c.toNat) ∧ t = { s with cores := t.cores }
            ∧ (∀ j, j ≠ k → j ≠ s.unit.core → t.core j = s.core j)
            ∧ (k ≠ s.unit.core → t.ctx k = { s.ctx k with links := { (s.ctx k).links with deque := rest } }))
      ∧ (k < Config.cores → s.sharesWith s.unit.core k = true → s.unit.late = true → (s.core k).hasLive = false ∨ (s.ctx k).links.deque = [] →
          ∃ t, exec (.dqSteal d a c) s = .next t ∧ s.predIs t c false ∧ s.keepsAllBut t none (some c.toNat)))
    ∧ (∀ a b c : BitVec 5, s.runs (.rngSet a b c) →
      (s.r c = 0 ∨ (s.r b).toNat < (s.r a).toNat → exec (.rngSet a b c) s = .next (s.takeTrap s.unit.core s.unit.sq .illegal 0 false))
      ∧ (s.r c ≠ 0 → (s.r a).toNat ≤ (s.r b).toNat → ∃ t, exec (.rngSet a b c) s = .next t
          ∧ t.my.links = { s.my.links with tok := t.my.links.tok, lo := s.r a, hi := s.r b, ch := s.r c }
          ∧ s.here.keeps t.here none none ∧ s.keepsOutside t))
    ∧ (∀ d a c : BitVec 5, s.runs (.rngTake d a c) →
      let l := s.my.links
      let e := BitVec.ofNat 64 (Nat.min (l.lo.toNat + l.ch.toNat) l.hi.toNat)
      (l.lo.toNat < l.hi.toNat → ∃ t, exec (.rngTake d a c) s = .next t ∧ (d ≠ a → t.r d = l.lo) ∧ t.r a = e ∧ t.my.links.lo = e ∧ t.my.links.hi = l.hi
          ∧ (s.here.setReg d.toNat (t.r d)).keeps t.here (some a.toNat) (some c.toNat) ∧ s.predIs t c true ∧ s.keepsOutside t)
      ∧ (l.hi.toNat ≤ l.lo.toNat → ∃ t, exec (.rngTake d a c) s = .next t ∧ s.predIs t c false ∧ s.keepsAllBut t none (some c.toNat)))
    ∧ ∀ d a b c : BitVec 5, s.runs (.rngSteal d a b c) →
      let k := (s.r b).toNat
      let l := (s.ctx k).links
      let m := BitVec.ofNat 64 (rangeMid l.lo.toNat l.hi.toNat l.ch.toNat)
      (Config.cores ≤ k → exec (.rngSteal d a b c) s = .next (s.takeTrap s.unit.core s.unit.sq .illegal 0 false))
      ∧ (k < Config.cores → s.sharesWith s.unit.core k = false →
          exec (.rngSteal d a b c) s = .next (s.takeTrap s.unit.core s.unit.sq .priv (s.r b) false))
      ∧ (k < Config.cores → s.sharesWith s.unit.core k = true →
      (s.unit.late = false → exec (.rngSteal d a b c) s =
          .next { s.holdHead (.rngSteal d a b c) .engine [] with late := s.late ++ [s.unit.core] })
      ∧ (s.unit.late = true → (s.core k).hasLive = true → l.ch.toNat < l.hi.toNat - l.lo.toNat → ∃ t, exec (.rngSteal d a b c) s = .next t
          ∧ (d ≠ a → t.r d = m) ∧ t.r a = l.hi ∧ (t.ctx k).links.hi = m ∧ (t.ctx k).links.lo = l.lo
          ∧ s.predIs t c true ∧ (s.here.setReg d.toNat (t.r d)).keeps t.here (some a.toNat) (some c.toNat)
          ∧ t = { s with cores := t.cores } ∧ (∀ j, j ≠ k → j ≠ s.unit.core → t.core j = s.core j)
          ∧ (k ≠ s.unit.core → t.ctx k = { s.ctx k with links := { (s.ctx k).links with hi := m } }))
      ∧ (s.unit.late = true → (s.core k).hasLive = false ∨ l.hi.toNat - l.lo.toNat ≤ l.ch.toNat → ∃ t, exec (.rngSteal d a b c) s = .next t
          ∧ s.predIs t c false ∧ s.keepsAllBut t none (some c.toNat)))

/-- peer.exp that runs with an aligned global extent of 64 KiB to 1 TiB that is wholly mapped takes the free export entry with the
lowest index and writes its handle to D; -1 where a page is unmapped, -2 without an entry; a table line that cannot be read traps.
peer.imp that runs after its delay traps PAGE_FAULT on the handle of a revoked export, and else writes 0 and adds the import, or
-1, -2, -3 or -4 as R316 says, -1 delaying the next import. peer.rel removes the import, or revokes the partition's own export,
and writes 0, else -1. The lowest index among the free export entries is the model's choice (log entry 119); what a handle gives
after its export is revoked, and which of the refusals applies first, is its reading (log entry 111) (R156, R157, R158, R159,
R316). -/
def Obligations.PeerResults : Prop :=
  (∀ (s : State) (d a b c : BitVec 5), s.runs (.peerExp d a b c) → s.roomy → bits (s.r c).toNat 63 2 = 0 → 65536 ≤ (s.r b).toNat →
      (s.r b).toNat ≤ 2 ^ 40 → isGlobal (s.r a) = true → (s.r a).toNat % 65536 = 0 → (s.r b).toNat % 65536 = 0 →
      let i := Instr.peerExp d a b c
      let o := (s.begun i).partOf s.unit.core
      let dom := domOfQuad o
      ((s.begun i).mapped o ((s.r b).toNat / 65536) (s.r a).toNat (s.r b).toNat = .ok false →
        ∃ t, exec i s = .next t ∧ t.r d = -1 ∧ s.keepsAllBut t (some d.toNat) none)
      ∧ (∀ e info, (s.begun i).mapped o ((s.r b).toNat / 65536) (s.r a).toNat (s.r b).toNat = .error (e, info) →
        exec i s = .next (s.takeTrap s.unit.core s.unit.sq e info false))
      ∧ ((s.begun i).mapped o ((s.r b).toNat / 65536) (s.r a).toNat (s.r b).toNat = .ok true →
        ((s.begun i).freeExport dom = none → ∃ t, exec i s = .next t ∧ t.r d = -2 ∧ s.keepsAllBut t (some d.toNat) none)
        ∧ (∀ ix, (s.begun i).freeExport dom = some ix → ∃ t, exec i s = .next t ∧ t.r d = handleOf dom ix (Config.check s.hub.drawn)
            ∧ t.exports = put Export.none s.exports (4096 * dom + ix)
                { valid := true, owner := o, base := (s.r a).toNat, len := (s.r b).toNat, rights := (s.r c).extractLsb' 0 2
                  check := Config.check s.hub.drawn }
            ∧ s.here.keeps t.here (some d.toNat) none ∧ t.mem = s.mem)))
    ∧ (∀ (s : State) (d a b : BitVec 5), s.runs (.peerImp d a b) → s.roomy →
      let i := Instr.peerImp d a b
      let o := (s.begun i).partOf s.unit.core
      let p := (s.begun i).part o
      (p.impAfter ≤ s.cc → (s.begun i).revoked (s.r a) = true →
        exec i s = .next (s.takeTrap s.unit.core s.unit.sq .pageFault (walkInfo (s.r b).toNat 6 0) false))
      ∧ (p.impAfter ≤ s.cc → (s.begun i).revoked (s.r a) = false →
        (∀ e, (s.begun i).importFails o (s.r b).toNat (s.r a) = some e → ∃ t, exec i s = .next t ∧ t.r d = BitVec.ofInt 64 e
          ∧ (e = -1 → (t.part o).impAfter = s.cc + 2 ^ 14) ∧ (t.part o).imports = p.imports ∧ t.mem = s.mem)
        ∧ (∀ e, (s.begun i).importFails o (s.r b).toNat (s.r a) = none → (s.begun i).exportOf (s.r a) = some e → ∃ t, exec i s = .next t
          ∧ t.r d = 0 ∧ (t.part o).imports = { off := (s.r b).toNat, len := e.len, handle := s.r a } :: p.imports ∧ t.mem = s.mem))
      ∧ (s.cc < p.impAfter → exec i s = .next (s.holdHead i .engine [])))
    ∧ ∀ (s : State) (d a : BitVec 5), s.runs (.peerRel d a) → s.roomy →
      let i := Instr.peerRel d a
      let o := (s.begun i).partOf s.unit.core
      let held := ((s.begun i).part o).imports.any fun i => i.handle == s.r a
      (held = true → ∃ t, exec i s = .next t ∧ t.r d = 0
        ∧ (t.part o).imports = ((s.begun i).part o).imports.filter (fun i => i.handle != s.r a) ∧ t.exports = s.exports ∧ t.mem = s.mem)
      ∧ (held = false → ∀ e, (s.begun i).exportOf (s.r a) = some e → e.owner = o → ∃ t, exec i s = .next t ∧ t.r d = 0
        ∧ t.exports = put Export.none s.exports (bits (s.r a).toNat 12 0) Export.none
        ∧ t.withdrawn = s.r a :: s.withdrawn ∧ t.mem = s.mem)
      ∧ (held = false → (∀ e, (s.begun i).exportOf (s.r a) = some e → e.owner ≠ o) → ∃ t, exec i s = .next t ∧ t.r d = -1
        ∧ s.keepsAllBut t (some d.toNat) none)

/-- venc that runs with a readable descriptor, extents that translate and an engine of its die with room appends a submission and
writes its number to D; with no room D is all ones. ENCODER_START of an idle engine takes the next eligible submission;
ENCODER_COMPLETION of a frame not yet coded writes its output, up to OUTMAX bytes, and OUTLEN (all ones when it did not fit), and,
where every home takes its part and the writes are performed, frees the engine, increments the flag or updates the barrier that
the target names, with BAD where a line of the frame was uncorrectable, and is recorded for the live context. The output's bytes
are a free value. What of a submission is held and checked as it is entered is the model's reading (log entry 36), and so is the
place under which its completion is recorded (log entry 78) (R160, R161). -/
def Obligations.EncoderResults : Prop :=
  (∀ (s s1 s2 : State) (d a b : BitVec 5) (l : Loc) (hs : List PageHold), s.runs (.venc d a b) →
      let i := Instr.venc d a b
      let c := s.unit.core
      (isGlobal (s.r a) || isC (s.r a)) = true → (s.r a).toNat % 64 = 0 →
      (isBarTarget (s.r b) = true → placeOf (s.r b) ≠ .bad ∧ (s.r b).toNat % 16 = 0 ∧ s1.windowFault c (s.r b) barExtent = none) →
      (s.begun i).resolve c (s.r a) 64 true true = .at s1 l → s1.waitsAt c l = false → s1.uncorrAt c l 64 = false →
      let desc := s1.bytesAt c l 64
      (s1.touched c l 64).holdAll c
        [(1, s.r a, 64, true, true), (0, BitVec.ofNat 64 (descNat desc 16 8), descNat desc 24 4, false, true),
         (3, if BitVec.ofNat 64 (descNat desc 32 8) = 0#64 then 0xFE000000000000 else BitVec.ofNat 64 (descNat desc 32 8), 16, true, false),
         (2, if isBarTarget (s.r b) then s.r b else 0xFE000000000000, barExtent, true, true)] = .ok (s2, hs) → s2.unit = s.unit →
      let die := Config.dieOf c
      ((s2.die die).queueFor ((s.begun i).partOf c) = none → (s2.setR d (-1)).roomy → exec i s = .next ((s2.setR d (-1)).finish 0 none))
      ∧ ∀ j, (s2.die die).queueFor ((s.begun i).partOf c) = some j →
        let n := (s2.die die).number
        let sub : Submission :=
          { desc := desc, at_ := s.r a, core := c, number := n, engine := j, target := s.r b, holds := hs, task := s.aim c, coded := false, bad := false }
        let u := (s2.modDie die fun x => { x with queue := x.queue ++ [sub], number := (n + 1) % 65536 }).setR d (BitVec.ofNat 64 n)
        u.roomy → exec i s = .next (u.finish 0 none))
    ∧ (∀ (s : State) (die engine : Nat) (sub : Submission), (get none (s.die die).busy engine) = none → s.nextFor die engine = some sub →
      exec (.encoderStart die engine) s
        = .next (s.modDie die fun x => { x with queue := x.queue.erase sub, busy := put none x.busy engine (some sub) }))
    ∧ ∀ (s : State) (die engine : Nat) (sub : Submission), get none (s.die die).busy engine = some sub → sub.coded = false →
      let c := sub.core
      let past := get [] (s.die die).last sub.sid
      let input := sub.params (!get false (s.die die).started sub.sid) ++ (s.frame sub).1
      let out := Config.encoded (past ++ input)
      let max := descNat sub.desc 24 4
      let away := decide (s.aim c ≠ sub.task)
      let status := if (s.frame sub).2 then setStatus 0 17 else 0
      let w := s.writeAt c away sub.command ((out.take max).zipIdx.map (fun p => (0, plus sub.command.dst p.2, [p.1]))
        ++ [(1, plus sub.at_ 28, leBytes 4 (if max < out.length then 0xFFFFFFFF else out.length))])
      let v := w.1
      let free := fun (u : State) => u.modDie die fun x =>
        { x with busy := put none x.busy engine none, started := put false x.started sub.sid true, last := put [] x.last sub.sid (past ++ input) }
      let tell := fun (u : State) => if away then u else u.encoderDone c status
      w.2 = true → v.engineDone c = true →
      (isFlagTarget sub.target = true → exec (.encoderCompletion die engine) s = .next (tell ((free v).bumpFor sub.task c
          { flag := bits sub.target.toNat 5 0, time := s.timeOf (48 + die), kv := (v.core c).kv, src := .encoder })))
      ∧ (isFlagTarget sub.target = false → (v.hitTarget c away { sub.command with status := status }).2 = true →
        exec (.encoderCompletion die engine) s = .next (tell (free (v.hitTarget c away { sub.command with status := status }).1)))

/-- csrr that runs on a number that names a register the privilege may read writes its value to D and changes nothing else; csrw that
runs on one it may write ends in the state the write leaves. A number that names no register traps ILLEGAL, and one above the
privilege PRIV. In particular csrw of WTMO, TVEC, EPC and VBASE writes the low bits of D to that register, TVEC and EPC at guest
only. EINFO 0 of ILLEGAL and PRIV is the model's choice (log entry 18) (R119, R401). -/
def Obligations.CsrResults : Prop :=
  (∀ (s : State) (d a b : BitVec 5), s.runs (.csrr d a b) → s.roomy →
      let p := s.my.cr.priv
      let n := csrNumber a b
      (fieldsOf s.unit.core n = none → exec (.csrr d a b) s = .next (s.takeTrap s.unit.core s.unit.sq .illegal 0 false))
      ∧ (∀ fs, fieldsOf s.unit.core n = some fs → mayRead p fs = false →
          exec (.csrr d a b) s = .next (s.takeTrap s.unit.core s.unit.sq .priv 0 false))
      ∧ (∀ fs, fieldsOf s.unit.core n = some fs → mayRead p fs = true → n ≠ 0xC1 → ∃ t, exec (.csrr d a b) s = .next t
          ∧ t.r d = BitVec.ofNat 64 (readFields p fs ((s.begun (.csrr d a b)).regValue s.unit.core n)) ∧ s.keepsAllBut t (some d.toNat) none)
      ∧ (∀ v u, n = 0xC1 → (s.begun (.csrr d a b)).readReg s.unit.core p n = .ok v →
          u = ((s.begun (.csrr d a b)).acquire s.unit.core 0 []).setR d v → u.roomy → exec (.csrr d a b) s = .next (u.finish 0 none)))
    ∧ ∀ (s : State) (d a b : BitVec 5), s.runs (.csrw d a b) →
      let i := Instr.csrw d a b
      let p := s.my.cr.priv
      let n := csrNumber a b
      let c := s.unit.core
      (fieldsOf c n = none → exec i s = .next (s.takeTrap c s.unit.sq .illegal 0 false))
      ∧ (∀ fs, fieldsOf c n = some fs → mayWrite p fs = false → exec i s = .next (s.takeTrap c s.unit.sq .priv 0 false))
      ∧ (∀ u, ((s.begun i).writeReg c p false n (s.r d) = .ok (.ok u) ∨ (s.begun i).writeReg c p false n (s.r d) = .ok (.refused u)) →
          u.roomy → exec i s = .next (u.finish 0 none))
      ∧ (s.roomy → n = 0x64 → ∃ t : State, exec i s = .next t ∧ t.my.cr.wtmo = (s.r d).extractLsb' 0 32
          ∧ t.my.cr = { s.my.cr with wtmo := t.my.cr.wtmo, atomic := t.my.cr.atomic } ∧ s.here.keeps t.here none none ∧ s.keepsOutside t)
      ∧ (s.roomy → privRank .guest ≤ privRank p → n = 0x84 → ∃ t : State, exec i s = .next t ∧ t.my.cr.tvec = (s.r d).extractLsb' 0 17
          ∧ t.my.cr = { s.my.cr with tvec := t.my.cr.tvec, atomic := t.my.cr.atomic } ∧ s.here.keeps t.here none none ∧ s.keepsOutside t)
      ∧ (s.roomy → privRank .guest ≤ privRank p → n = 0x82 → ∃ t : State, exec i s = .next t ∧ t.my.cr.epc = (s.r d).extractLsb' 0 40
          ∧ t.my.cr = { s.my.cr with epc := t.my.cr.epc, epcSave := t.my.cr.epcSave, atomic := t.my.cr.atomic }
          ∧ s.here.keeps t.here none none ∧ s.keepsOutside t)
      ∧ (s.roomy → n = 0x65 → ∃ t : State, exec i s = .next t ∧ t.my.loc.vbase = (s.r d).extractLsb' 0 12
          ∧ t.my.loc = { s.my.loc with vbase := t.my.loc.vbase, turn := t.my.loc.turn } ∧ t.my.cr = { s.my.cr with atomic := t.my.cr.atomic }
          ∧ s.here.keeps t.here none none ∧ s.keepsOutside t)
      ∧ (p = .user → n = 0x82 ∨ n = 0x84 → exec i s = .next (s.takeTrap c s.unit.sq .priv 0 false))

/-- POOLPW_WRITE sets both slices from their fields and leaves POOLPW as it was when the value is refused; TSH_WRITE configures a tile
whose fields are legal and otherwise clears CFG; AGND_WRITE sets the dimension and ends the set's ring; CAPSTOP_WRITE arms or
disarms the capture stop and is refused when it arms with a count of 0. HOST_WINDOW_ACCESS answers an error in recovery, through a
host port that has not trained and for an unaligned offset; the hyp window at a core's offset reads a register's value, and ends
in the state a write leaves (R67, R68, R69, R70, R133, R319, R320, R361). -/
def Obligations.RegisterWriteEvents : Prop :=
  (∀ (s : State) (c : Nat) (v : Word),
      (poolpwRefused (bits v.toNat 43 0) = true → exec (.poolpwWrite c v) s = .next s)
      ∧ (poolpwRefused (bits v.toNat 43 0) = false → ∃ t, exec (.poolpwWrite c v) s = .next t
        ∧ (t.core c).slice0 = sliceOf (bits v.toNat 21 0) ∧ (t.core c).slice1 = sliceOf (bits v.toNat 43 22)
        ∧ (∀ k, k ≠ c → t.core k = s.core k) ∧ (t.core c).pool = (s.core c).pool ∧ t.mem = s.mem))
    ∧ (∀ (s : State) (c : Nat) (tile : BitVec 4) (v : Word), ∃ (t : State) (w : Word), exec (.tshWrite c tile v) s = .next t
      ∧ (t.ctx c).shape tile.toNat = w ∧ (∀ k, k ≠ tile.toNat → (t.ctx c).shape k = (s.ctx c).shape k)
      ∧ bits w.toNat 35 1 = bits v.toNat 35 1
      ∧ (tshCfg w = true ↔ tshType v ≠ 0 ∧ tshCols v ≤ lanesOf (tshType v) ∧ tshBase v + tshRows v ≤ (s.core c).liveSl.tileRows)
      ∧ (t.core c).pool = (s.core c).pool ∧ t.mem = s.mem)
    ∧ (∀ (s : State) (c : Nat) (set : BitVec 4) (dim : Bool) (v : Word), ∃ t, exec (.agndWrite c set dim v) s = .next t
      ∧ bits ((t.ctx c).ag set.toNat (1 + ofBool dim)).toNat 47 0 = bits v.toNat 47 0 ∧ ((t.ctx c).ring set.toNat).on = false
      ∧ (∀ n i, 5 * n + i ≠ 5 * set.toNat + 1 + ofBool dim → (t.ctx c).ag n i = (s.ctx c).ag n i) ∧ t.mem = s.mem)
    ∧ (∀ (s : State) (c : Nat) (v : Word), ∃ t, exec (.capstopWrite c v) s = .next t ∧ t.mem = s.mem
      ∧ (if v.getLsbD 16 = true ∧ v.extractLsb' 0 16 = 0#16 then t = s
         else (t.core c).captStop = v.extractLsb' 0 16 ∧ (t.core c).captArm = v.getLsbD 16 ∧ (t.core c).captCount = none))
    ∧ (∀ (s : State) (port : Nat) (win : Option Nat) (write : Bool) (off : Nat) (v : Word),
      s.hub.recovery = true ∨ get false s.hub.trained port = false ∨ off % 8 ≠ 0 → exec (.hostWindowAccess ⟨port, win⟩ write off v) s = .next (s.answer none))
    ∧ (∀ (s : State) (port c n : Nat) (v x : Word), s.hub.recovery = false → get false s.hub.trained port = true → c < 192 → n < 256 → atCore n = true →
      s.readReg c .hyp n = .ok x → exec (.hostWindowAccess ⟨port, none⟩ false (0x10000 * c + 8 * n) v) s = .next (s.answer (some x)))
    ∧ ∀ (s t : State) (port c n : Nat) (v : Word), s.hub.recovery = false → get false s.hub.trained port = true → c < 192 → n < 256 → atCore n = true →
      s.writeReg c .hyp true n v = .ok (.ok t) → exec (.hostWindowAccess ⟨port, none⟩ true (0x10000 * c + 8 * n) v) s = .next (t.answer (some 0))

/-- Each lane-wise instruction of majors 32 to 34 that runs with the vector unit free, a type it accepts, a destination inside TILE,
source operands in order and no spectral conflict answers a next state in which one result is in flight: the destination row, its
enabled lanes and, lane by lane, the operation on the old operands; it lands after the latency of R190. No register, mask, tile or
byte is changed at issue. A type outside R194 traps ILLEGAL. On integer lanes add, sub and mul are modulo 2 to the width, and the
logical operations are bitwise. EINFO 0 of ILLEGAL is the model's choice (log entry 18). That a type outside R194 traps before the
checks that come later in the definitions is the model's reading (log entry 51) (R189, R190, R194, R196, R197, R198). -/
def Obligations.VectorLaneResults : Prop :=
  (∀ (i : Instr) (s : State) (d : BitVec 6) (a : BitVec 8) (b : Option (BitVec 8)) (k : LaneOp) (r : Nat) (x y : List Nat × Option Nat),
    (match i with
      | .vadd x y z => x = d ∧ y = a ∧ b = some z ∧ k = .add
      | .vsub x y z => x = d ∧ y = a ∧ b = some z ∧ k = .sub
      | .vmul x y z => x = d ∧ y = a ∧ b = some z ∧ k = .mul
      | .vmin x y z => x = d ∧ y = a ∧ b = some z ∧ k = .min
      | .vmax x y z => x = d ∧ y = a ∧ b = some z ∧ k = .max
      | .vfma x y z => x = d ∧ y = a ∧ b = some z ∧ k = .fma
      | .vfms x y z => x = d ∧ y = a ∧ b = some z ∧ k = .fms
      | .vfnma x y z => x = d ∧ y = a ∧ b = some z ∧ k = .fnma
      | .vfnms x y z => x = d ∧ y = a ∧ b = some z ∧ k = .fnms
      | .vcmul x y z => x = d ∧ y = a ∧ b = some z ∧ k = .cmul
      | .vand x y z => x = d ∧ y = a ∧ b = some z ∧ k = .and
      | .vor x y z => x = d ∧ y = a ∧ b = some z ∧ k = .or
      | .vxor x y z => x = d ∧ y = a ∧ b = some z ∧ k = .xor
      | .vshl x y z => x = d ∧ y = a ∧ b = some z ∧ k = .shl
      | .vshr x y z => x = d ∧ y = a ∧ b = some z ∧ k = .shr
      | .vsra x y z => x = d ∧ y = a ∧ b = some z ∧ k = .sra
      | .vadds x y z => x = d ∧ y = a ∧ b = some z ∧ k = .adds
      | .vsubs x y z => x = d ∧ y = a ∧ b = some z ∧ k = .subs
      | .vabs x y => x = d ∧ y = a ∧ b = none ∧ k = .abs
      | .vneg x y => x = d ∧ y = a ∧ b = none ∧ k = .neg
      | .vmov x y => x = d ∧ y = a ∧ b = none ∧ k = .mov
      | _ => False) →
    s.runs i → s.roomy → s.my.mat.vbusy = 0 →
    let u := s.begun i
    let ty := s.unit.ty
    (k.accepts ty = true → u.vname d.toNat = .ok r → u.source ty a = .ok x →
      (match b with | some b => u.source ty b = .ok y | none => y = x) →
      u.domainCheck (k.spectral && isComplex ty) [some r, x.2, y.2] = .ok () →
      let l := rowLanding r ty (u.enables true (some r) ty)
        ((x.1.zip (y.1.zip (lanes (elemBits ty) ((s.core s.unit.core).tileRow r)))).map fun p => k.elem ty p.1 p.2.1 p.2.2)
      let lat := k.latency ty + (if ty = 15 then 2 else 0)
      let occ := if ty = 15 then 2 else 1
      ∃ t : State, exec i s = .next t
      ∧ t.my.pend = s.my.pend ++ [{ own := .mx, ord := s.my.nextOrd, due := lat, what := l }]
      ∧ t.my.mat.vbusy = occ ∧ s.here.keeps t.here none none ∧ s.keepsOutside t ∧ t.my.loc = { s.my.loc with turn := t.my.loc.turn })
    ∧ (k.accepts ty = false → exec i s = .next (s.takeTrap s.unit.core s.unit.sq .illegal 0 false)))
  ∧ ∀ ty a b d : Nat, isInt ty = true → a < 2 ^ elemBits ty → b < 2 ^ elemBits ty → d < 2 ^ elemBits ty →
    LaneOp.add.elem ty a b d = (a + b) % 2 ^ elemBits ty ∧ LaneOp.sub.elem ty a b d = (a + 2 ^ elemBits ty - b) % 2 ^ elemBits ty
    ∧ LaneOp.mul.elem ty a b d = a * b % 2 ^ elemBits ty ∧ LaneOp.fma.elem ty a b d = (a * b + d) % 2 ^ elemBits ty
    ∧ LaneOp.and.elem ty a b d = a &&& b ∧ LaneOp.or.elem ty a b d = a ||| b ∧ LaneOp.xor.elem ty a b d = a ^^^ b
    ∧ LaneOp.shl.elem ty a b d = a * 2 ^ b % 2 ^ elemBits ty ∧ LaneOp.shr.elem ty a b d = a / 2 ^ b

/-- Each vcmp, vsel, mand, mor, mxor, mnot, vred, special function, vcvt, vquant and vtopk that runs with the vector unit free and
operands in order answers a next state in which one result is in flight, computed from the old operands, with the latency of R190:
a compare's mask, a select's row, a mask operation's mask, a reduction's low bytes, a special function's row, converted lanes,
quantised codes and scales, or the ranked list. Nothing else is changed at issue (R190, R199, R201, R202, R203, R204, R205, R206). -/
def Obligations.VectorRowResults : Prop :=
  ∀ (i : Instr) (s : State) (r : Nat) (x y : List Nat × Option Nat) (l : Landing) (lat occ : Nat),
    s.runs i → s.roomy → s.my.mat.vbusy = 0 →
    let u := s.begun i
    let ty := s.unit.ty
    let f64 := if ty = 15 then 2 else 0
    let one := if ty = 15 then 2 else 1
    let en := u.enables true (some r) ty
    (match i with
      | .vcmpEq d a b | .vcmpNe d a b | .vcmpLt d a b | .vcmpLe d a b | .vcmpGt d a b | .vcmpGe d a b | .vcmpUn d a b => ∃ k : LaneCond,
        k = (match i with
          | .vcmpEq .. => .eq | .vcmpNe .. => .ne | .vcmpLt .. => .lt | .vcmpLe .. => .le | .vcmpGt .. => .gt | .vcmpGe .. => .ge | _ => .un)
        ∧ (isReal ty = true ∨ ty = 15 ∨ (isInt ty = true ∧ k ≠ .un)) ∧ u.source ty a = .ok x ∧ u.source ty b = .ok y
        ∧ u.domainCheck false [x.2, y.2] = .ok () ∧ lat = 2 + f64 ∧ occ = one
        ∧ l = .mask d.toNat (maskOfLanes ty (u.enables true none ty))
            (maskOfLanes ty ((x.1.zip y.1).map fun p => k.holds ((valueOf ty p.1).cmp (valueOf ty p.2))))
      | .vsel d a b => (isReal ty = true ∨ ty = 15 ∨ isInt ty = true ∨ isComplex ty = true) ∧ u.vname d.toNat = .ok r
        ∧ u.source ty a = .ok x ∧ u.source ty b = .ok y ∧ u.domainCheck false [some r, x.2, y.2] = .ok () ∧ lat = 2 + f64 ∧ occ = one
        ∧ l = rowLanding r ty (u.enables false (some r) ty)
            ((x.1.zip y.1).zipIdx.map fun p => if u.maskOn ty p.2 then p.1.1 else p.1.2)
      | .mand d a b => lat = 1 ∧ occ = 1 ∧ l = .mask d.toNat (BitVec.allOnes 1024) (s.my.mask a.toNat &&& s.my.mask b.toNat)
      | .mor d a b => lat = 1 ∧ occ = 1 ∧ l = .mask d.toNat (BitVec.allOnes 1024) (s.my.mask a.toNat ||| s.my.mask b.toNat)
      | .mxor d a b => lat = 1 ∧ occ = 1 ∧ l = .mask d.toNat (BitVec.allOnes 1024) (s.my.mask a.toNat ^^^ s.my.mask b.toNat)
      | .mnot d a => lat = 1 ∧ occ = 1 ∧ l = .mask d.toNat (BitVec.allOnes 1024) (~~~(s.my.mask a.toNat))
      | .vredAdd d a | .vredMax d a | .vredMin d a | .vredAmax d a => ∃ k : Fold,
        k = (match i with | .vredAdd .. => .add | .vredMax .. => .max | .vredMin .. => .min | _ => .amax)
        ∧ (isReal ty = true ∨ ty = 15 ∨ (isInt ty = true ∧ k ≠ .amax)) ∧ u.vname d.toNat = .ok r ∧ u.source ty a = .ok x
        ∧ u.domainCheck false [some r, x.2] = .ok () ∧ lat = 12 + f64 ∧ occ = one
        ∧ l = lowLanding r (reduce k ty (x.1.zip (u.enables true x.2 ty))).1 (reduce k ty (x.1.zip (u.enables true x.2 ty))).2
      | .vexp2 d a | .vlog2 d a | .vrcp d a | .vrsqrt d a | .vtanh d a | .vsigm d a => ∃ k : Special,
        k = (match i with
          | .vexp2 .. => .exp2 | .vlog2 .. => .log2 | .vrcp .. => .rcp | .vrsqrt .. => .rsqrt | .vtanh .. => .tanh | _ => .sigm)
        ∧ (isReal ty = true ∨ ty = 15) ∧ u.vname d.toNat = .ok r ∧ u.source ty a = .ok x ∧ u.domainCheck false [some r, x.2] = .ok ()
        ∧ lat = 10 + f64 ∧ occ = one ∧ l = rowLanding r ty en (x.1.map (special k ty))
      | .vcvt d a t p rm => cvtOk ty t.toNat p.toNat = true ∧ u.vname d.toNat = .ok r ∧ u.source ty a = .ok x
        ∧ u.domainCheck (isComplex ty && ty != t.toNat) [some r, x.2] = .ok ()
        ∧ lat = 3 + (if t.toNat = 15 ∨ ty = 15 then 2 else 0) ∧ occ = (if t.toNat = 15 ∨ ty = 15 then 2 else 1)
        ∧ l = rowLanding r t.toNat
            ((u.enables true (some r) t.toNat).zipIdx.map fun q => q.1 && (cvtLane ty t.toNat p.toNat q.2).isSome)
            ((List.range (lanesOf t.toNat)).map fun j =>
              match cvtLane ty t.toNat p.toNat j with
              | some m => convert ty t.toNat rm.toNat ((x.1[m]?).getD 0)
              | none => 0)
      | .vquant d a b => (ty = 1 ∨ ty = 2 ∨ ty = 3) ∧ u.vname d.toNat = .ok r ∧ u.source ty a = .ok x ∧ u.source ty b = .ok y
        ∧ u.domainCheck false [some r, x.2, y.2] = .ok () ∧ lat = 6 ∧ occ = 1
        ∧ ∃ q, q = quantBytes ((x.1.zip y.1).map fun p => quantLane (decode (fmtOf ty) p.1) (decode (fmtOf ty) p.2)) ∧ l = lowLanding r q.1 q.2
      | .vtopk d a b => ∃ k base : Nat, k = bits (s.here.reg (indexOf b)).toNat 7 0 ∧ base = bits (s.here.reg (indexOf b)).toNat 63 32
        ∧ (ty = 1 ∨ ty = 2 ∨ ty = 3 ∨ ty = 7) ∧ kindOf b = 1 ∧ 1 ≤ k ∧ k ≤ 128 ∧ bits (s.here.reg (indexOf b)).toNat 31 8 = 0
        ∧ u.vname d.toNat = .ok r ∧ u.source ty a = .ok x ∧ u.domainCheck false [some r, x.2] = .ok () ∧ lat = 16 ∧ occ = 4
        ∧ ∃ old cands : List TopEntry,
          old = (List.range k).map (fun j =>
            { code := bits ((s.core s.unit.core).tileRow r).toNat (64 * j + elemBits ty - 1) (64 * j)
              ix := bits ((s.core s.unit.core).tileRow r).toNat (64 * j + 63) (64 * j + 32), old := true })
          ∧ cands = ((x.1.zip (u.enables true x.2 ty)).zipIdx.filter fun p => p.1.2 && !(valueOf ty p.1.1).isNan).map (fun p =>
            { code := p.1.1, ix := (base + p.2) % 2 ^ 32, old := false })
          ∧ l = lowLanding r (8 * k) (((rank ty (old ++ cands)).take k).foldr (fun e n => e.code + 2 ^ 32 * e.ix + 2 ^ 64 * n) 0)
      | _ => False) →
    ∃ t : State, exec i s = .next t
      ∧ t.my.pend = s.my.pend ++ [{ own := .mx, ord := s.my.nextOrd, due := lat, what := l }]
      ∧ t.my.mat.vbusy = occ ∧ s.here.keeps t.here none none ∧ s.keepsOutside t ∧ t.my.loc = { s.my.loc with turn := t.my.loc.turn }

/-- Each vperm, vbcast, vrev, vins, vext, vpush, vpop, tcfg, tclean, trow.rd, trow.wr, tcol.rd and tcol.wr that runs with the vector
unit free and operands in order answers a next state in which one result is in flight, of the old operands, with the latency of
R190: permuted, broadcast, reversed or inserted lanes, a register, an entry of q6, a row from q5, a tile's new shape, a cleared
DIRTY, or a row or column of a tile. That tcol.rd and tcol.wr take only the rows of the tile that have a lane is the model's
reading (log entry 46), and that trow.rd and tcol.rd heed no active columns of D (log entry 118) (R190, R207, R208, R209, R210,
R211, R212). -/
def Obligations.VectorMoveResults : Prop :=
  ∀ (i : Instr) (s : State) (r : Nat) (x y : List Nat × Option Nat) (l : Landing) (lat occ : Nat) (tsh : Word),
    s.runs i → s.roomy → s.my.mat.vbusy = 0 →
    let u := s.begun i
    let ty := s.unit.ty
    let f64 := if ty = 15 then 2 else 0
    let one := if ty = 15 then 2 else 1
    let en := u.enables true (some r) ty
    let tt := tshType tsh
    (match i with
      | .vperm d a b => laneType ty = true ∧ u.vname d.toNat = .ok r ∧ u.source ty a = .ok x ∧ u.source ty b = .ok y
        ∧ u.domainCheck false [some r, x.2, y.2] = .ok () ∧ lat = 3 + f64 ∧ occ = one
        ∧ l = rowLanding r ty en (y.1.zipIdx.map fun p => (x.1[permLane ty p.2 p.1]?).getD 0)
      | .vbcast d a b => ∃ e, laneType ty = true ∧ u.indexOperand b = .ok e ∧ u.vname d.toNat = .ok r ∧ u.source ty a = .ok x
        ∧ u.domainCheck false [some r, x.2] = .ok () ∧ lat = 3 + f64 ∧ occ = one
        ∧ l = rowLanding r ty en (List.replicate (lanesOf ty) ((x.1[e % lanesOf ty]?).getD 0))
      | .vrev d a => laneType ty = true ∧ u.vname d.toNat = .ok r ∧ u.source ty a = .ok x ∧ u.domainCheck false [some r, x.2] = .ok ()
        ∧ lat = 3 + f64 ∧ occ = one ∧ l = rowLanding r ty en x.1.reverse
      | .vins d a b => ∃ e, laneType ty = true ∧ kindOf a = 1 ∧ u.indexOperand b = .ok e ∧ u.vname d.toNat = .ok r ∧ lat = 2 + f64 ∧ occ = one
        ∧ l = rowLanding r ty ((List.range (lanesOf ty)).map (· == e % lanesOf ty))
            (List.replicate (lanesOf ty) ((s.here.reg (indexOf a)).toNat % 2 ^ elemBits ty))
      | .vext d a b => ∃ e row, laneType ty = true ∧ u.indexOperand b = .ok e ∧ u.rowOperand a = .ok row ∧ lat = 2 + f64 ∧ occ = one
        ∧ l = .scalar d.toNat (laneWord ty (((lanes (elemBits ty) row.1)[e % lanesOf ty]?).getD 0))
      | .vpush ⟨_, a⟩ => ∃ row, (kindOf a = 0 ∨ kindOf a = 2) ∧ u.my.links.rroom 6 = true ∧ u.rowOperand a = .ok row ∧ lat = 1 ∧ occ = 1
        ∧ l = .q6 row.1
      | .tcfg d a => kindOf a = 1 ∧ lat = 1 ∧ occ = 1 ∧ l = .shape d.toNat (s.here.reg (indexOf a))
      | .tclean d => tshCfg (s.my.shape d.toNat) = true ∧ lat = 1 ∧ occ = 1 ∧ l = .clean d.toNat
      | .trowRd d a b => ∃ e, u.indexOperand b = .ok e ∧ u.vname d.toNat = .ok r ∧ u.tile a.toNat = .ok tsh ∧ e < tshRows tsh
        ∧ u.domainCheck (isComplex tt) [some r, some (tshBase tsh + e)] = .ok () ∧ lat = 2 ∧ occ = 1
        ∧ l = rowLanding r tt ((List.range (lanesOf tt)).map fun j => decide (j < tshCols tsh)) (lanes (elemBits tt) (u.trow (tshBase tsh + e)))
      | .trowWr d a b => ∃ e row, (kindOf a = 0 ∨ kindOf a = 2) ∧ u.indexOperand b = .ok e ∧ u.tile d.toNat = .ok tsh ∧ e < tshRows tsh
        ∧ u.rowOperand a = .ok row ∧ u.domainCheck (isComplex tt) [some (tshBase tsh + e), row.2] = .ok () ∧ lat = 2 ∧ occ = 1
        ∧ l = rowLanding (tshBase tsh + e) tt ((List.range (lanesOf tt)).map fun j => decide (j < tshCols tsh)) (lanes (elemBits tt) row.1)
      | .tcolRd d a b => ∃ e, u.indexOperand b = .ok e ∧ u.vname d.toNat = .ok r ∧ u.tile a.toNat = .ok tsh ∧ e < tshCols tsh
        ∧ u.domainCheck (isComplex tt) (some r :: tileRowsOf tsh) = .ok () ∧ lat = tshRows tsh + 2 ∧ occ = tshRows tsh
        ∧ l = rowLanding r tt ((List.range (lanesOf tt)).map fun j => decide (j < tshRows tsh))
            ((List.range (lanesOf tt)).map fun j => if j < tshRows tsh then
              bits (u.trow (tshBase tsh + j)).toNat (elemBits tt * e + elemBits tt - 1) (elemBits tt * e) else 0)
      | .tcolWr d a b => ∃ e, u.indexOperand b = .ok e ∧ u.tile d.toNat = .ok tsh ∧ e < tshCols tsh ∧ u.source tt a = .ok x
        ∧ u.domainCheck (isComplex tt) (tileRowsOf tsh ++ [x.2]) = .ok () ∧ lat = 2 ∧ occ = tshRows tsh
        ∧ l = .column d.toNat tsh e 0 (tshRows tsh) (ofElems (elemBits tt) x.1)
      | .vpop ⟨d, _⟩ => ∃ row rest, u.vname d.toNat = .ok r ∧ (u.my.links.rqueue 5).items = row :: rest ∧ lat = 1 ∧ occ = 1
        ∧ l = .row r (BitVec.allOnes 8192) row
      | _ => False) →
    ∃ t : State, exec i s = .next t
      ∧ t.my.pend = s.my.pend ++ [{ own := .mx, ord := s.my.nextOrd, due := lat, what := l }]
      ∧ t.my.mat.vbusy = occ ∧ s.here.keeps t.here none none ∧ s.keepsOutside t ∧ t.my.loc = { s.my.loc with turn := t.my.loc.turn }
      ∧ (∀ m, i = .vpop m → t.my.links = u.my.links.rpop 5)

/-- wload and wload.spec that run with a format, an empty buffer and a read inside SCR begin to fill the lowest empty buffer, which
latches the geometry, weight scales and weight outliers; sload, oload and bload that run with legal operands begin their load. All
keep every register and every byte of the pool; the load goes on by itself. bgeo that runs with COUNT0 times COUNT1 of 8 sets the
geometry of its stream and traps ILLEGAL otherwise. EINFO 0 of ILLEGAL is the model's choice (log entry 18) (R162, R166, R167,
R168, R169, R170, R171). -/
def Obligations.MatrixLoadResults : Prop :=
  (∀ (i : Instr) (s : State) (g : BitVec 4) (fmt beats b base : Nat) (spec : Bool),
      ((i = .wload g ∧ fmt = weightFmt s.unit.ty ∧ beats = 48 ∧ spec = false) ∨ (i = .wloadSpec g ∧ fmt = 5 ∧ beats = 24 ∧ spec = true)) →
      s.runs i → s.roomy → fmt ≠ 0 → s.my.mat.emptyBuffer = some b → (s.begun i).agRead g.toNat (1024 * beats) = .ok base →
      ∃ (t : State) (f : Fill), exec i s = .next t ∧ t.my.mat.fills = s.my.mat.fills ++ [f] ∧ f.dest = .buffer b ∧ f.base = base
        ∧ f.beats = beats ∧ f.total = beats ∧ f.elapsed = 0 ∧ get 0#8192 f.rows 0 = rowOf ((s.core s.unit.core).scrBytes base 1024)
        ∧ (t.my.mat.buffer b).st = 1 ∧ (t.my.mat.buffer b).set =
            { fmt := fmt, spectral := spec, zeroSlot := false, geo := s.my.mat.geo, rows := [], scales := s.my.mat.wScales, outliers := s.my.mat.wOut }
        ∧ t.my.mat.order = s.my.mat.order ∧ s.here.keeps t.here none none ∧ (t.core s.unit.core).pool = (s.core s.unit.core).pool
        ∧ t.mem = s.mem)
    ∧ (∀ (i : Instr) (s : State) (g r : BitVec 4) (base n : Nat) (dest : FillDest) (beats total : Nat),
      (match i with
        | .sload x y => x = g ∧ y = r ∧ s.sr r < 2 ∧ n = 12288 ∧ beats = 12 ∧ total = 12 ∧ dest = .scales (s.sr r == 1)
        | .oload x y => x = g ∧ y = r ∧ bits (s.sr r) 7 1 = 0 ∧ bits (s.sr r) 63 15 = 0 ∧ bits (s.sr r) 14 8 ≤ 64
            ∧ n = 8 * bits (s.sr r) 14 8 ∧ beats = 0 ∧ total = 1
            ∧ (∀ e ∈ wordsIn (bits (s.sr r) 14 8) (rowOf ((s.core s.unit.core).scrBytes base n)), bits e.toNat 63 33 = 0)
            ∧ dest = .outliers (s.sr r % 2 == 1) (wordsIn (bits (s.sr r) 14 8) (rowOf ((s.core s.unit.core).scrBytes base n)))
        | .bload x => x = g ∧ n = 16 ∧ beats = 0 ∧ total = 1
            ∧ dest = .bands ((List.range 8).map fun j => (rowOf ((s.core s.unit.core).scrBytes base n)).extractLsb' (16 * j) 16)
        | _ => False) →
      s.runs i → s.roomy → (s.begun i).agRead g.toNat n = .ok base →
      ∃ (t : State) (f : Fill), exec i s = .next t ∧ t.my.mat.fills = s.my.mat.fills ++ [f] ∧ f.dest = dest ∧ f.base = base
        ∧ f.beats = beats ∧ f.total = total ∧ f.elapsed = 0 ∧ s.here.keeps t.here none none
        ∧ (t.core s.unit.core).pool = (s.core s.unit.core).pool ∧ t.mem = s.mem)
    ∧ ∀ (s : State) (g : BitVec 4), s.runs (.bgeo g) → s.roomy →
      let w := s.my.agCount g.toNat 0
      let h := s.my.agCount g.toNat 1
      (h * w ≠ 8 → exec (.bgeo g) s = .next (s.takeTrap s.unit.core s.unit.sq .illegal 0 false))
      ∧ (h * w = 8 → ∃ t : State, exec (.bgeo g) s = .next t ∧ s.keepsOutside t ∧ s.here.keeps t.here none none
          ∧ (s.unit.sq = .mx → t.my.mat.geo = Nat.log2 h ∧ t.my.loc.stGeo = s.my.loc.stGeo)
          ∧ (s.unit.sq ≠ .mx → t.my.loc.stGeo = Nat.log2 h ∧ t.my.mat.geo = s.my.mat.geo))

/-- mma that runs with the array free and its checks passed starts an operation of M rows on the oldest staged set, or on the PE
weights, which it consumes; D becomes DIRTY and spatial, and its record is dropped without ACC when the type is not e2m1. mma.spec
does the same with a spectral set and gives D the LB and SEXP of A. mzero zeroes a tile row by row, drops its record and marks it
DIRTY. Registers and scratchpad are kept; a failed check of mma or mma.spec traps with the cause it names, and mzero of a tile
that is not configured TILE_UNCONF. That mzero marks its tile DIRTY as it issues is the model's reading (log entry 41) (R172,
R173, R174, R175, R176, R177, R178, R180, R181). -/
def Obligations.ArrayResults : Prop :=
  (∀ (s : State) (d g r : BitVec 4) (w dTsh : Word) (base : Nat) (corr : List Correction), s.runs (.mma d g r) → s.roomy →
      s.my.mat.abusy = 0 → s.my.mat.awaits = false → (s.begun (.mma d g r)).mmaCheck d g r = .ok (w, dTsh, base, corr) →
      ∃ (t : State) (o : ArrayOp), exec (.mma d g r) s = .next t ∧ t.my.mat.ops = s.my.mat.ops ++ [o] ∧ o.kind = .mma ∧ o.redo = false
        ∧ o.shape = w ∧ o.ty = s.unit.ty ∧ o.dTile = d.toNat ∧ o.dTsh = dTsh ∧ o.base = base ∧ o.elapsed = 0
        ∧ o.set.fmt = s.my.mat.nextSet.fmt ∧ o.set.rows = s.my.mat.nextSet.rows
        ∧ o.latency = shM w - 1 + (shN w - 1) + 98 ∧ t.my.mat.abusy = shM w ∧ t.my.mat.order = s.my.mat.order.drop 1
        ∧ tshDirty (t.my.shape d.toNat) = true ∧ tshDom (t.my.shape d.toNat) = false
        ∧ (s.unit.ty ≠ 6 → get DrainRecord.cleared t.my.mat.records d.toNat =
            if shAcc w then get DrainRecord.cleared s.my.mat.records d.toNat else DrainRecord.cleared)
        ∧ s.here.keeps t.here none none ∧ (t.core s.unit.core).pool = (s.core s.unit.core).pool ∧ t.mem = s.mem)
    ∧ (∀ (s : State) (d a r : BitVec 4) (w dTsh aTsh : Word), s.runs (.mmaSpec d a r) → s.roomy →
      s.my.mat.abusy = 0 → s.my.mat.awaits = false → (s.begun (.mmaSpec d a r)).specCheck d a r = .ok (w, dTsh, aTsh) →
      ∃ (t : State) (o : ArrayOp), exec (.mmaSpec d a r) s = .next t ∧ t.my.mat.ops = s.my.mat.ops ++ [o] ∧ o.kind = .spec
        ∧ o.shape = w ∧ o.dTsh = dTsh ∧ o.aTsh = aTsh ∧ o.elapsed = 0 ∧ o.latency = shM w - 1 + (2 * shN w - 1) + 98
        ∧ t.my.mat.abusy = shM w ∧ t.my.mat.order = s.my.mat.order.drop 1
        ∧ tshDirty (t.my.shape d.toNat) = true ∧ tshDom (t.my.shape d.toNat) = true ∧ tshLb (t.my.shape d.toNat) = tshLb aTsh
        ∧ tshSexp (t.my.shape d.toNat) = tshSexp aTsh
        ∧ s.here.keeps t.here none none ∧ (t.core s.unit.core).pool = (s.core s.unit.core).pool ∧ t.mem = s.mem)
    ∧ (∀ (s : State) (d : BitVec 4), s.runs (.mzero d) → s.roomy → s.my.mat.abusy = 0 →
      let tsh := s.my.shape d.toNat
      (tshCfg tsh = true → ∃ (t : State) (l : List ArrayOp) (o : ArrayOp), exec (.mzero d) s = .next t ∧ t.my.mat.ops = l ++ [o]
        ∧ l.map (·.ord) = s.my.mat.ops.map (·.ord) ∧ o.kind = .zero
        ∧ o.dTsh = tsh ∧ t.my.mat.abusy = tshRows tsh ∧ t.my.mat.order = s.my.mat.order
        ∧ get DrainRecord.cleared t.my.mat.records d.toNat = DrainRecord.cleared
        ∧ tshDirty (t.my.shape d.toNat) = true ∧ s.here.keeps t.here none none
        ∧ t.mem = s.mem)
      ∧ (tshCfg tsh = false → exec (.mzero d) s = .next (s.takeTrap s.unit.core s.unit.sq .tileUnconf (tileInfo d.toNat) false)))
    ∧ (∀ (s : State) (d a r : BitVec 4) (e : Cause) (info : Word), s.runs (.mmaSpec d a r) → s.my.mat.abusy = 0 → s.my.mat.awaits = false →
      (s.begun (.mmaSpec d a r)).specCheck d a r = .error (e, info) →
      exec (.mmaSpec d a r) s = .next (s.takeTrap s.unit.core s.unit.sq e info false))
    ∧ ∀ (s : State) (d g r : BitVec 4) (e : Cause) (info : Word), s.runs (.mma d g r) → s.my.mat.abusy = 0 → s.my.mat.awaits = false →
      (s.begun (.mma d g r)).mmaCheck d g r = .error (e, info) →
      exec (.mma d g r) s = .next (s.takeTrap s.unit.core s.unit.sq e info false)

/-- segchk that runs as the last unit of a block with SEG set: before the last repetition it has no effect; in the last, with figures
that match the constant row, it issues, ends the stopped state, keeps everything else and closes the segment, which the end of the
cycle restarts with SEGCYC 0 and an empty CRC register; with others and tries left (RETRY_MAX, counted from 0 for each check) it
begins a replay of the segment's last array operation from its operand buffers, and stands as the head until it has run; with no
tries left, or no array operation in the segment, and no open region it traps SDC (unless a delivery of the cycle has unwound CTL
already), and with an open region it retires, the segment restarts, and SDC unwinds CTL. In a segment that a debugger has touched
it only counts SEGSKIP. Outside that place it traps ILLEGAL. EINFO 0 is the model's choice (log entry 18). That the replay begins
on the cycle after the stall, takes the latency of the operation and leaves SEGCYC as it is is the model's reading (log entry 55)
(R186, R187, R188). -/
def Obligations.SegmentChecks : Prop :=
  (∀ (m : Matrix) (q : Seq) (slip : Bool), m.segClose = true → let v := m.countSeg q slip
      v.segCyc = 0 ∧ v.segCrc = 0xFFFFFFFF ∧ v.opBytes = none ∧ v.segHas = false ∧ v.segClose = false ∧ v.ops = m.ops ∧ v.pe = m.pe)
  ∧ ∀ (s : State) (n : BitVec 6), s.runs (.segchk n) → s.roomy → s.here.inBody = true →
    let i := Instr.segchk n
    let q := s.here
    let tries := if s.my.mat.segStopped then s.my.mat.tries else 0
    let spent := s.my.mat.replay = none ∨ tries = s.my.cr.retryMax.toNat ∨ s.my.mat.segHas = false
    (q.hword.getLsbD 29 = false ∨ q.pc.toNat + s.unit.len ≠ q.bodyEnd → exec i s = .next (s.takeTrap s.unit.core s.unit.sq .illegal 0 false))
    ∧ (q.hword.getLsbD 29 = true → q.pc.toNat + s.unit.len = q.bodyEnd →
      (q.rep + 1 < q.reps → ∃ t, exec i s = .next t ∧ s.keepsAllBut t none none)
      ∧ (q.reps ≤ q.rep + 1 → ∀ row, (s.begun i).vconst n.toNat = .ok row →
        (s.my.mat.replaying ≠ 0 → ∃ t : State, exec i s = .next t ∧ t.here.stalled = some i ∧ t.here.pc = q.pc ∧ t.here.icnt = q.icnt
          ∧ t.my.mat = s.my.mat ∧ t.my.links = s.my.links ∧ s.here.keeps t.here none none ∧ s.keepsOutside t)
        ∧ (s.my.mat.replaying = 0 → s.my.mat.segDebug = true → ∃ t : State, exec i s = .next t ∧ t.here.icnt = q.icnt + 1
          ∧ (t.core s.unit.core).dbg.segSkip = Nat.min 0xFFFF ((s.core s.unit.core).dbg.segSkip + 1) ∧ s.here.keeps t.here none none ∧ t.mem = s.mem)
        ∧ (s.my.mat.replaying = 0 → s.my.mat.segDebug = false →
        (((s.begun i).my.mat).matches row = true → ∃ t : State, exec i s = .next t ∧ t.my.mat.segStopped = false ∧ t.my.mat.segClose = true
          ∧ t.my.mat.pe = s.my.mat.pe ∧ t.my.mat.ops = s.my.mat.ops ∧ s.here.keeps t.here none none ∧ s.keepsOutside t)
        ∧ (((s.begun i).my.mat).matches row = false → ∀ o, s.my.mat.replay = some o → ¬ spent → ∃ t : State, exec i s = .next t
          ∧ t.here.stalled = some i ∧ t.here.pc = q.pc ∧ t.here.icnt = q.icnt ∧ t.my.mat.segStopped = true ∧ t.my.mat.tries = tries + 1
          ∧ t.my.mat.replaying = o.latency + 1 ∧ t.my.mat.segCyc = s.my.mat.segCyc
          ∧ t.my.mat.ops = s.my.mat.ops ++ [{ o with redo := true, elapsed := 0, feeding := none, corr := [] }]
          ∧ t.my.links = s.my.links ∧ s.here.keeps t.here none none ∧ s.keepsOutside t)
        ∧ (((s.begun i).my.mat).matches row = false → spent → s.my.cr.regionOpen = false → (s.core s.unit.core).cycle ≠ .unwound →
          ∃ u : State, exec i s = .next (u.takeTrap s.unit.core .mx .sdc 0 false) ∧ s.here.keeps u.here none none ∧ s.keepsOutside u)
        ∧ (((s.begun i).my.mat).matches row = false → spent → s.my.cr.regionOpen = true →
          ∃ u : State, exec i s = .next (u.takeTrapAt s.unit.core .mx .sdc 0 false false) ∧ u.here.icnt = s.here.icnt + 1
            ∧ u.my.mat.segClose = true ∧ s.here.keeps u.here none none ∧ s.keepsOutside u))))

/-- xf.fwd that runs with the unit free, a block size of 4 to 128 that divides A's columns, a spatial A and a spectral pair starts its
operation, tags D spectral with LB and SEXP 0 and clears its drain record; xf.inv with a spectral A of SEXP 0 tags D spatial;
dom.scl tags D with A's LB and SEXP plus the exponent. Each keeps every register and byte; an A of the other domain traps DOMAIN.
An operation in progress reads row k of A on its cycle k, and row k is written to D on the cycle that is its delay later, before
which nothing is written: 4 LB + 8 cycles, 2 for dom.scl. EINFO 0 of DOMAIN is the model's choice (log entry 18) (R182, R183,
R184, R185). -/
def Obligations.TransformResults : Prop :=
  (∀ (i : Instr) (s : State) (d a : BitVec 4) (tt u : Word) (lb : Nat) (e : Int) (dom : Bool) (tagLb : Nat) (sexp : Int) (delay : Nat),
    s.runs i → s.roomy → s.my.mat.xbusy = 0 → s.my.shape d.toNat = tt → s.my.shape a.toNat = u → tshCfg tt = true → tshCfg u = true →
    (match i with
      | .xfFwd x y r => x = d ∧ y = a ∧ s.sr r < 8 ∧ lb = s.sr r ∧ 2 ≤ lb ∧ (tshDom u = false → tshCols u % 2 ^ lb = 0 ∧ spectralPair u tt = true)
        ∧ e = 0 ∧ dom = true ∧ tagLb = lb ∧ sexp = 0 ∧ delay = 4 * lb + 8
      | .xfInv x y => x = d ∧ y = a ∧ lb = tshLb u ∧ (tshDom u = true → tshSexp u = 0 ∧ tshCols u % (2 ^ lb / 2) = 0 ∧ spectralPair tt u = true)
        ∧ e = 0 ∧ dom = false ∧ tagLb = 0 ∧ sexp = 0 ∧ delay = 4 * lb + 8
      | .domScl x y r => x = d ∧ y = a ∧ s.sr r < 64 ∧ lb = tshLb u ∧ e = signed 6 (s.sr r)
        ∧ (d = a ∨ (tshType tt = tshType u ∧ tshRows tt = tshRows u ∧ tshCols tt = tshCols u))
        ∧ -32 ≤ tshSexp u + e ∧ tshSexp u + e ≤ 31 ∧ dom = true ∧ tagLb = lb ∧ sexp = tshSexp u + e ∧ delay = 2
      | _ => False) →
    let spectral := match i with | .xfFwd .. => false | _ => true
    (tshDom u = spectral → ∃ (t : State) (o : TransformOp), exec i s = .next t ∧ t.my.mat.xops = s.my.mat.xops ++ [o] ∧ o.instr = i
      ∧ o.lb = lb ∧ o.exp = e ∧ o.dTsh = tt ∧ o.aTsh = u ∧ o.delay = delay ∧ t.my.mat.xbusy = tshRows u
      ∧ t.my.shape d.toNat = tshTags tt true dom tagLb sexp
      ∧ ((∃ x y r, i = .xfFwd x y r) → get DrainRecord.cleared t.my.mat.records d.toNat = DrainRecord.cleared) ∧ s.here.keeps t.here none none ∧ s.keepsOutside t)
    ∧ (tshDom u ≠ spectral → exec i s = .next (s.takeTrap s.unit.core s.unit.sq .domain 0 false)))
  ∧ ∀ (o : TransformOp) (k : Core),
    (o.elapsed < tshRows o.aTsh →
      get 0#8192 (o.readRow k).rows o.elapsed = o.result (k.tileRow (tshBase o.aTsh + o.elapsed)) ∧ (o.readRow k).elapsed = o.elapsed)
    ∧ (o.elapsed < o.delay → o.landOn k = k)
    ∧ ∀ n, o.elapsed = o.delay + n → o.landOn k = k.landRow (tshBase o.dTsh + n)
        (BitVec.ofNat 8192 (2 ^ (elemBits (tshType o.dTsh) * tshCols o.dTsh) - 1)) (get 0#8192 o.rows n)

/-- drain that runs with no earlier drain, a legal word, a configured tile, and a set inside SCR starts its operation and takes row 0;
for a type other than e2m1 the converted bytes of that row are owed to SCR three cycles later. drain.q that runs with a row at the
head of q6 takes it; a drain of one row is then complete, and one of more waits for the next. Registers and all memory are kept. A
word that is not legal, one that asks more rows or columns than the tile or the row type has, and a row type that does not fit the
form trap ILLEGAL, a tile that is not configured TILE_UNCONF, and a failed check of the types, the set and its bounds traps with
the cause it names. What a drain latches as it issues is the model's reading (log entry 54), and EINFO of ILLEGAL its choice (log
entry 18) (R213, R214, R215, R217, R358). -/
def Obligations.DrainResults : Prop :=
  (∀ (s : State) (a g r : BitVec 4) (t0 : Word) (o : DrainOp), s.runs (.drain a g r) → s.roomy → s.my.mat.drains = [] →
      let i := Instr.drain a g r
      let w := s.here.reg r.toNat
      drainWordOk w s.unit.ty = true → (s.begun i).tile a.toNat = .ok t0 → drRows w ≤ tshRows t0 → drCol w + drCols w ≤ tshCols t0 →
      drType w = 0 → (s.begun i).drainSetup false a.toNat t0 w g = .ok o →
      let o1 := o.take (s.recordOf s.unit.core a.toNat) ((s.core s.unit.core).tileRow (tshBase t0))
      ∃ t : State, exec i s = .next t ∧ t.my.mat.drains = [o1]
        ∧ (s.unit.ty ≠ 6 → t.my.pend = s.my.pend ++ [
            { own := .st, ord := s.my.nextOrd, due := 3, what := .bytes ((o1.outBytes 0).zipIdx.map fun p => ((o1.rowAt 0).toNat + p.2, p.1)) }])
        ∧ s.here.keeps t.here none none ∧ (t.core s.unit.core).pool = (s.core s.unit.core).pool ∧ t.mem = s.mem)
    ∧ (∀ (s : State) (g r : BitVec 4) (o : DrainOp) (row : Row) (rest : List Row), s.runs (.drainQ g r) → s.roomy → s.my.mat.drains = [] →
      s.here.part = 0 →
      let i := Instr.drainQ g r
      let w := s.here.reg r.toNat
      drainWordOk w s.unit.ty = true → drType w ≠ 0 → drCol w + drCols w ≤ lanesOf (drType w) →
      (s.begun i).drainSetup true 0 0 w g = .ok o → ((s.begun i).my.links.rqueue 6).items = row :: rest →
      let o1 := o.take .cleared row
      ∃ t : State, exec i s = .next t ∧ t.my.links = (s.begun i).my.links.rpop 6
        ∧ (drRows w = 1 → t.my.mat.drains = [{ o1 with elapsed := 0 }] ∧ t.here.part = 0)
        ∧ (1 < drRows w → t.my.mat.drains = [o1] ∧ t.here.part = 1)
        ∧ (∀ n, t.here.reg n = s.here.reg n) ∧ (t.core s.unit.core).pool = (s.core s.unit.core).pool ∧ t.mem = s.mem)
    ∧ (∀ (s : State) (a g r : BitVec 4), s.runs (.drain a g r) → s.my.mat.drains = [] →
      let w := s.here.reg r.toNat
      let stops := fun (e : Cause) (info : Word) => exec (.drain a g r) s = .next (s.takeTrap s.unit.core s.unit.sq e info false)
      (drainWordOk w s.unit.ty = false → stops .illegal 0)
      ∧ (drainWordOk w s.unit.ty = true → tshCfg (s.my.shape a.toNat) = false → stops .tileUnconf (tileInfo a.toNat))
      ∧ ∀ t0, drainWordOk w s.unit.ty = true → (s.begun (.drain a g r)).tile a.toNat = .ok t0 →
        (tshRows t0 < drRows w ∨ tshCols t0 < drCol w + drCols w ∨ drType w ≠ 0 → stops .illegal 0)
        ∧ ∀ e info, drRows w ≤ tshRows t0 → drCol w + drCols w ≤ tshCols t0 → drType w = 0 →
          (s.begun (.drain a g r)).drainSetup false a.toNat t0 w g = .error (e, info) → stops e info)
    ∧ ∀ (s : State) (g r : BitVec 4), s.runs (.drainQ g r) → s.my.mat.drains = [] → s.here.part = 0 →
      let w := s.here.reg r.toNat
      let stops := fun (e : Cause) (info : Word) => exec (.drainQ g r) s = .next (s.takeTrap s.unit.core s.unit.sq e info false)
      (drainWordOk w s.unit.ty = false ∨ drType w = 0 ∨ lanesOf (drType w) < drCol w + drCols w → stops .illegal 0)
      ∧ ∀ e info, drainWordOk w s.unit.ty = true → drType w ≠ 0 → drCol w + drCols w ≤ lanesOf (drType w) →
        (s.begun (.drainQ g r)).drainSetup true 0 0 w g = .error (e, info) → stops e info

/-- DISPATCH_BIND of a dispatchable task that is the best for an idle core, the chosen one, makes a fresh task PRELOADED on that core;
PRELOAD of a fresh READY task places it in an idle shadow; TASK_START of the fresh task bound to a core makes its context live,
faults its slot where the program table entry cannot be used, makes it READY again where the quad is inactive, and does nothing
before bring-up has started the dies; PREEMPT_STOP of a core that a request to yield has reached moves its context out once the
stop points are passed and a shadow can take it; CONTEXT_SWITCH, 100 cc after it was asked for, makes a shadow's context live;
yield completes the task or, once a shadow can take the context, captures it, at the end of the cycle, when everything issued has
retired; TASK_COMPLETION frees the slot; AGEING raises a task one band. EINFO 0 of ILLEGAL is the model's choice (log entry 18).
Whether such an event happens on a cycle is free (log entry 60), a stop waits for a shadow that can take the context (log entry
26), a yield lets the other streams go on only as long as one is blocked (log entry 45), and a task bound in a quad that is no
longer active is READY again (log entry 120): the model's readings (R122, R272, R273, R274, R276, R277, R278, R280, R328, R400). -/
def Obligations.TaskEvents : Prop :=
  (∀ (s : State) (dom n c : Nat), s.dispatchable dom n = true → s.eligible dom n c = true → s.bestFor dom n c = true → s.idle c = true →
      s.chosen dom n c = true → s.whereIs (s.slot dom n).core (dom, n) = .away → (s.slot dom n).shaving = false →
      ∃ t : State, exec (.dispatchBind dom n c) s = .next t ∧ (t.slot dom n).st = .preloaded ∧ (t.slot dom n).core = c
        ∧ (∀ d m, 4096 * d + m ≠ 4096 * dom + n → t.slot d m = s.slot d m) ∧ t.cores = s.cores ∧ t.mem = s.mem)
    ∧ (∀ (s s1 s2 : State) (dom n c : Nat) (b sl : Bool) (base : Nat) (e : List Word) (x : Ctx), s.nextJob dom n c = true →
      (s.core c).hasLive = true → s.parked dom n = false → (s.slot dom n).shaving = false → (s.core c).freeShadow = some b →
      s.startEntry dom n = some (s1, e) → (s1.core c).place (entrySlice e 0).size = some (sl, base) →
      s1.loadTask dom n c e sl base = some (s2, x) → ∃ t : State, exec (.preload dom n c) s = .next t
        ∧ (t.slot dom n).st = .preloaded ∧ (t.slot dom n).core = c ∧ (t.core c).use b = .preload false ∧ (t.core c).shadow b = x
        ∧ (t.core c).live = (s2.core c).live ∧ t.mem = s2.mem)
    ∧ (∀ (s : State) (c n : Nat), s.boundTo c = some n → (s.core c).hasLive = false → (s.core c).switchTo = none →
      let dom := Config.domOf c
      (s.hub.up = false → exec (.taskStart c) s = .next s)
      ∧ (s.hub.up = true →
      ((s.quad (Config.quadOf c)).active = false → exec (.taskStart c) s = .next (s.modSlot dom n fun x => { x with st := .ready }))
      ∧ ((s.quad (Config.quadOf c)).active = true →
      (s.startEntry dom n = none → exec (.taskStart c) s = .next (s.faultSlot dom n .startFault))
      ∧ ∀ (s1 s2 : State) (e : List Word) (sl : Bool) (base : Nat) (x : Ctx), s.startEntry dom n = some (s1, e) →
        (s1.core c).place (entrySlice e 0).size = some (sl, base) → s1.loadTask dom n c e sl base = some (s2, x) →
        exec (.taskStart c) s = .next (s2.traceMerge (s2.goLive c x sl) c))))
    ∧ (∀ (s : State) (c : Nat), (s.core c).hasLive = true → (s.core c).demand = some 0 → (s.core c).dbg.held = false →
      (s.core c).freeShadow ≠ none → (s.ctx c).atStop = true → exec (.preemptStop c) s = .next (s.moveOut c))
    ∧ (∀ (s : State) (c : Nat) (b : Bool), (s.core c).hasLive = false → (s.core c).switchTo = some (b, 0) → (s.core c).use b ≠ .restoring →
      (s.core c).use b ≠ .empty →
      exec (.contextSwitch c b) s = .next (((s.stopSave c b).modCore c fun k => (k.modShadow b fun _ => Ctx.cleared).setUse b .empty).goLive c
        (if (s.core c).use b = .saving then ((s.stopSave c b).core c).shadow b else (s.core c).shadow b) ((if b then (s.core c).sliceB else (s.core c).sliceA).getD false)))
    ∧ (∀ (s : State) (a : BitVec 5), s.runs (.yield a) →
      let u := (s.begun (.yield a)).finish 0 none
      (s.r a ≠ 0 → s.r a ≠ 1 → exec (.yield a) s = .next (s.takeTrap s.unit.core s.unit.sq .illegal 0 false))
      ∧ (s.r a = 0 → s.my.quiet = true → exec (.yield a) s = .next (u.leaveBy s.unit.core .ended))
      ∧ (s.r a = 1 → s.my.quiet = true → (s.core s.unit.core).freeShadow ≠ none → exec (.yield a) s = .next (u.leaveBy s.unit.core .yielded))
      ∧ (s.r a = 0 ∨ s.r a = 1 → s.my.quiet = false → exec (.yield a) s = .next (s.holdHead (.yield a) .engine []))
      ∧ (s.r a = 1 → (s.core s.unit.core).freeShadow = none → exec (.yield a) s = .next (s.holdHead (.yield a) .engine [])))
    ∧ (∀ (s : State) (c : Nat), (s.core c).hasLive = true → ((s.core c).leaving = some .ended → s.depart c = s.endContext c)
      ∧ ((s.core c).leaving = some .yielded → s.depart c = (s.moveOut c).startCommitted c))
    ∧ (∀ (s : State) (dom n : Nat), (s.slot dom n).st = .completing → s.working dom n = false →
      ∃ t : State, exec (.taskCompletion dom n) s = .next t ∧ (t.slot dom n).st = .free)
    ∧ ∀ (s : State) (dom n : Nat), s.ages dom n = true → ∃ t : State, exec (.ageing dom n) s = .next t
      ∧ (t.slot dom n).band = (s.slot dom n).band - 1 ∧ (t.slot dom n).raisedAt = s.cc
      ∧ (∀ d m, 4096 * d + m ≠ 4096 * dom + n → t.slot d m = s.slot d m) ∧ t.cores = s.cores ∧ t.mem = s.mem

/-- ct.open at guest with a readable descriptor that admission accepts opens the free contract with the lowest number and writes it to
D, otherwise the refusal; ct.close of an own contract ends it; CONTRACT_RELEASE when a period has passed makes the oldest ready
task the job; OVERRUN and MISS report and demote the job. RERUN, RESUME, DROP, RELEASE and EVICT of a slot of the partition in a
state that allows it do what R287 says, and otherwise are CMD_BAD; POOLQ_WRITE sets a range that overlaps no other partition's, or
ERR. The order of admission's tests (log entry 47), CAUSE 0 of the event of a refused command (log entry 48) and what a command
does with a discarded context (log entry 73) are the model's readings, and EINFO 0 its choice (log entry 18). That the new
contract has the lowest number that is free in the domain is the model's choice (log entry 130) (R121, R283, R284, R285, R286,
R287). -/
def Obligations.ContractsAndCommands : Prop :=
  (∀ (s s1 : State) (d a : BitVec 5) (l : Loc), s.runs (.ctOpen d a) →
      let i := Instr.ctOpen d a
      let c := s.unit.core
      let o := (s.begun i).partOf c
      let dom := domOfQuad o
      (s.my.cr.priv = .user → exec i s = .next (s.takeTrap c s.unit.sq .priv 0 false))
      ∧ (s.my.cr.priv ≠ .user → placeOf (s.r a) ≠ .bad → (s.r a).toNat % 32 = 0 → (s.begun i).resolve c (s.r a) 32 true false = .at s1 l →
        s1.waitsAt c l = false → s1.uncorrAt c l 32 = false →
        let desc := s1.bytesAt c l 32
        let u := s1.touched c l 32
        (∀ e, u.admission dom o desc = some e → ∀ v, v = u.setR d (BitVec.ofInt 64 e) → v.roomy → exec i s = .next (v.finish 0 none))
        ∧ (∀ n, u.admission dom o desc = none → (List.range 4096).find? (fun n => !(u.contract dom n).isOpen) = some n →
            ∀ v, v = (u.modContract dom n fun _ => { contractOf desc o with next := s.cc + (contractOf desc o).period }).setR d (BitVec.ofNat 64 n) →
            v.roomy → exec i s = .next (v.finish 0 none))))
    ∧ (∀ (s : State) (d a : BitVec 5), s.runs (.ctClose d a) → s.roomy →
      let o := (s.begun (.ctClose d a)).partOf s.unit.core
      let dom := domOfQuad o
      let n := (s.r a).toNat
      (s.my.cr.priv = .user → exec (.ctClose d a) s = .next (s.takeTrap s.unit.core s.unit.sq .priv 0 false))
      ∧ (s.my.cr.priv ≠ .user → n < 4096 → (s.contract dom n).isOpen = true → (s.contract dom n).owner = o →
        ∃ t : State, exec (.ctClose d a) s = .next t ∧ t.r d = 0 ∧ t.contract dom n = Contract.none
          ∧ s.here.keeps t.here (some d.toNat) none ∧ t.mem = s.mem)
      ∧ (s.my.cr.priv ≠ .user → (4096 ≤ n ∨ (s.contract dom n).isOpen = false ∨ (s.contract dom n).owner ≠ o) →
        ∃ t : State, exec (.ctClose d a) s = .next t ∧ t.r d = -1 ∧ s.keepsAllBut t (some d.toNat) none))
    ∧ (∀ (s : State) (dom n : Nat), let k := s.contract dom n
      k.isOpen = true → k.next ≤ s.cc → k.job = none → ∀ m, s.oldestOf dom n = some m → ∃ t : State, exec (.contractRelease dom n) s = .next t
        ∧ (t.contract dom n).job = some m ∧ (t.contract dom n).next = k.next + k.period ∧ (t.slot dom m).job = true
        ∧ (t.slot dom m).deadline = some (k.next + k.deadline) ∧ (t.slot dom m).budget = 0 ∧ (t.slot dom m).band = Nat.min (s.slot dom m).band k.band
        ∧ t.cores = s.cores ∧ t.mem = s.mem)
    ∧ (∀ (s : State) (c d n : Nat), s.overruns c = true → (s.ctx c).task = some (d, n) → ∃ t : State, exec (.overrun c) s = .next t
      ∧ t = (((s.slotEvent d n 2 0).demote d n).startCommitted c).ask c ∧ (t.core c).demand ≠ none ∧ (t.slot d n).job = false ∧ (t.slot d n).uncontracted = true)
    ∧ (∀ (s : State) (dom k n : Nat), s.misses dom k = some n → ∃ t : State, exec (.miss dom k) s = .next t ∧ t = (s.slotEvent dom n 3 0).demote dom n
      ∧ (t.slot dom n).job = false ∧ (t.slot dom n).uncontracted = true ∧ (t.slot dom n).deadline = none)
    ∧ (∀ (s : State) (o : Nat) (n : BitVec 12), let dom := domOfQuad o
      let x := s.slot dom n.toNat
      ((s.range o).contains n.toNat = false ∨ x.st = .free ∨ x.owner ≠ o →
        ∀ i, (i = .rerun o n ∨ i = .resume o n ∨ i = .drop o n ∨ i = .release o n ∨ i = .evict o n) → exec i s = .next (s.event o 6 n.toNat 0 0 0))
      ∧ ((s.range o).contains n.toNat = true → x.st ≠ .free → x.owner = o →
        (x.st ≠ .faulted → ∀ i, (i = .rerun o n ∨ i = .resume o n ∨ i = .release o n) → exec i s = .next (s.event o 6 n.toNat 0 0 0))
        ∧ (x.st ≠ .running → exec (.evict o n) s = .next (s.event o 6 n.toNat 0 0 0))
        ∧ (x.st = .faulted → s.whereIs x.core (dom, n.toNat) = .away → ∃ t : State, exec (.rerun o n) s = .next t
            ∧ (t.slot dom n.toNat).st = .ready ∧ (t.slot dom n.toNat).shaving = false ∧ t.cores = s.cores ∧ t.mem = s.mem)
        ∧ (x.st = .faulted → ∃ t : State, exec (.resume o n) s = .next t ∧ (t.slot dom n.toNat).st = .saved
            ∧ (t.slot dom n.toNat).shaving = true ∧ t.cores = s.cores ∧ t.mem = s.mem)
        ∧ (s.whereIs x.core (dom, n.toNat) = .away → ∃ t : State, exec (.drop o n) s = .next t ∧ (t.slot dom n.toNat).st = .free
            ∧ t.cores = s.cores ∧ t.mem = s.mem)
        ∧ (x.st = .faulted → s.whereIs x.core (dom, n.toNat) = .away → s.working dom n.toNat = true → ∃ t : State,
            exec (.release o n) s = .next t ∧ (t.slot dom n.toNat).st = .completing ∧ t.mem = s.mem)
        ∧ (x.st = .faulted → ∀ u, u = ((s.learn dom n.toNat).dropShadow dom n.toNat).modSlot dom n.toNat (fun y => { y with st := .completing }) →
            u.working dom n.toNat = false → exec (.release o n) s = .next (u.complete dom n.toNat))
        ∧ (x.st = .running → s.whereIs x.core (dom, n.toNat) = .live → ∃ t : State, exec (.evict o n) s = .next t
            ∧ (t.core x.core).demand ≠ none ∧ t.slots = s.slots ∧ t.mem = s.mem)
        ∧ (∀ b, x.st = .running → s.whereIs x.core (dom, n.toNat) = .shadow b → s.bound dom n.toNat = false →
            exec (.evict o n) s = .next (s.event o 6 n.toNat 0 0 0))))
    ∧ ∀ (s : State) (o : Nat) (v : Word), ∃ t : State, exec (.poolqWrite o v) s = .next t
      ∧ (if s.rangeOverlaps o (bits v.toNat 11 0) (bits v.toNat 24 12) then (t.quad o).err = true ∧ t.part o = s.part o
         else (t.part o).poolqFirst = v.extractLsb' 0 12 ∧ (t.part o).poolqQuota = v.extractLsb' 12 13 ∧ t.quad o = s.quad o)
      ∧ t.cores = s.cores ∧ t.mem = s.mem

/-- SAVE_START begins to save a held context when the spindle is free and its area can be held; SAVE_COMPLETE, once the core's earlier
writes are performed and the homes of the area serve the spindle and take it, empties the shadow and counts the save;
RESTORE_COMPLETE whose checks pass puts the context into its shadow, and else fails with its cause; SCRUB_LINE, HEARTBEAT,
PACKAGE_FAILURE_DETECTION, BUDDY_RECORD_APPLY, CHECKPOINT_MANIFEST, BUDDY_ACKNOWLEDGEMENT and SPARE_ASSIGNMENT change their
records. Where a save stops (log entry 60), what is kept of a saved context beside its bytes (log entry 61), the place of
scrubbing in a stack (log entry 66), where a manifest stands (log entry 68) and what comes in from outside the package (log entry
96) are the model's readings (R327, R328, R329, R332, R344, R350, R353, R354, R355). -/
def Obligations.RecoveryEvents : Prop :=
  (∀ (s s1 : State) (c : Nat) (b : Bool) (a : Nat × Nat) (hs : List PageHold), s.toSave c b = true → (s.core c).spindle = none →
      ((s.core c).shadow b).task = some a →
      (s.holdSlot a.1 a.2 c = (s1, hs, .whole) → ∃ t : State, exec (.saveStart c b) s = .next t
        ∧ (t.core c).use b = .saving ∧ (∃ own, (t.core c).spindle = some
            { save := true, shadow := b, own := own, area := s.areaOf a.1 a.2, holds := hs, sent := (s1.die (Config.dieOf c)).sc })
        ∧ (t.core c).live = (s1.core c).live ∧ t.mem = s1.mem)
      ∧ (s.holdSlot a.1 a.2 c = (s1, hs, .fault) → ∃ p : Spindle, exec (.saveStart c b) s = .next (s1.failSave c p a { upTo := 0, cut := none })))
    ∧ (∀ (s s1 : State) (c : Nat) (p : Spindle) (j : SaveJob) (dom n : Nat) (r : BitVec 128), (s.core c).spindle = some p → p.save = true →
      (s.onItsWay c p.sent = true → exec (.saveComplete c) s = .next s)
      ∧ (s.onItsWay c p.sent = false → s.areaServed c p.holds = true → s.saveJob c p = some j → ((s.core c).shadow p.shadow).task = some (dom, n) →
        s.saveAll j ((s.slot dom n).saves + 1) = some (s1, r) → exec (.saveComplete c) s
          = .next (((s1.modCore c fun k => { (k.modShadow p.shadow fun _ => Ctx.cleared).setUse p.shadow .empty with spindle := none }).modSlot
            dom n fun x => { x with shaving := true, saves := x.saves + 1, infl := j.ctx.infl, images := [(128, j.ctx)] }).settleSaved dom n)))
    ∧ (∀ (s s1 s2 : State) (c : Nat) (p : Spindle) (dom n : Nat) (code : Stream → Table Half),
      (s.core c).spindle = some p → p.save = false → s.areaServed c p.holds = true → ((s.core c).shadow p.shadow).task = some (dom, n) →
      let bs := s.areaBytes p.holds p.area 64
      let h := ShavingHeader.read bs
      (∀ e, s.restoreFault p.holds p.area c bs = some e → exec (.restoreComplete c) s = .next (s.failRestore c p.shadow (dom, n) e))
      ∧ (s.restoreFault p.holds p.area c bs = none → s.reload dom n h.imm = some (s1, code) → s1.translate p.holds p.area c h = some s2 →
        ∃ t : State, exec (.restoreComplete c) s = .next t ∧ (t.core c).spindle = none
          ∧ (t.core c).use p.shadow = .preload ((s2.core c).switchTo.any fun w => w.1 == p.shadow)
          ∧ (t.core c).shadow p.shadow = s2.restoreCtx p.holds p.area (s2.lastImage (dom, n)) h.imm code))
    ∧ (∀ (s : State) (line : Nat), get 0 s.scrub line = 0 → line / stackLines < 8 →
        line % stackLines = get 0 s.scrubAt (line / stackLines) →
        exec (.scrubLine line) s = .next { s with
          scrub := put 0 s.scrub line (get 0 s.lineSeq line + 1)
          scrubAt := put 0 s.scrubAt (line / stackLines) ((line + 1) % stackLines) })
    ∧ (∀ (s : State) (line : Nat), get 0 s.scrub line = get 0 s.lineSeq line + 1 → ∃ t : State, exec (.scrubLine line) s = .next t
        ∧ (s.badLine line = true → get false t.poison line = true ∧ t.lineErr = s.lineErr)
        ∧ (s.badLine line = false → get 0 t.lineErr line = 0 ∧ t.poison = s.poison) ∧ get 0 t.scrub line = 0 ∧ t.mem = s.mem)
    ∧ (∀ (s : State) (k : Nat), exec (.heartbeat k) s = .next { s with pod := { s.pod with heard := put 0 s.pod.heard k s.time } })
    ∧ (∀ (s : State) (k : Nat), get 0 s.pod.heard k + 600000000 ≤ s.time →
        exec (.packageFailureDetection k) s = .next { s with pod := { s.pod with failed := put false s.pod.failed k true } })
    ∧ (∀ (s : State) (k src j : Nat) (bs : List Byte), bs.length = 4096 → get false s.pod.failed k = false → ∃ t : State, exec (.buddyRecordApply k src j bs) s = .next t
        ∧ readBytes (get [] t.pod.images k) (src + 4096 * j) 4096 = bs ∧ t.mem = s.mem)
    ∧ (∀ (s : State) (k e : Nat) (a : BitVec 56) (l : List (List Nat)) (v : List (Nat × List Byte)), get false s.pod.failed k = false →
        ∃ t : State, exec (.checkpointManifest e a ⟨k, l, v⟩) s = .next t
        ∧ get false t.pod.manifests (manifestKey e k) = (l.all fun x => entryField x 5 == 0)
        ∧ t.mem = (if k = Config.package then s.applyAt (a.toNat % 2 ^ 52) (manifest e l) else s).mem)
    ∧ (∀ (s : State) (e k b : Nat) (job : List Nat), b < 2 → ∃ t : State, exec (.buddyAcknowledgement e k ⟨b, job⟩) s = .next t
        ∧ get false t.pod.acks (2 * manifestKey e k + b) = true ∧ t.mem = s.mem
        ∧ ((∀ x ∈ job, get false t.pod.manifests (manifestKey e x) = true ∧ get false t.pod.acks (2 * manifestKey e x) = true
            ∧ get false t.pod.acks (2 * manifestKey e x + 1) = true) → ∀ x ∈ job, get false t.pod.valid (manifestKey e x) = true))
    ∧ ∀ (s : State) (k x : Nat), get false s.pod.failed k = true → ∃ t : State, exec (.spareAssignment k x) s = .next t
        ∧ get 0 t.pod.spares k = x + 1 ∧ t.mem = s.mem

/-- FREQAT_WRITE, FREQUENCY_CHANGE, POWER_CONTROL_WINDOW, RAIL_SAMPLE, WEARSEL_WRITE, WEAR_UPDATE and TIME_CORRECTION change the power
registers and the time base, and RAIL_SAMPLE writes a power record of every sensor into the hyp ring with PWR, and of the rails of
its active quads into a guest ring with PWR; the first TIME_CORRECTION of the hub's region, after a host port has trained, ends
bring-up with TIME aligned to the pod, never backwards; HOST_PORT_TRAINING, once bring-up has come to it, trains a port that is
not trained, in a mode that only a reset of the port lets change; POWER_ON_RESET, REMOTE_WRITE_APPLY of a write that may land and
POD_LINK_WRITE do what R400, R258 and R265 say. When a ceiling that changes takes effect (log entry 79), what a window draws (log
entry 80), the TIME at which one ends (log entry 121), the digests of power-on (log entry 81) and what comes in from outside the
package (log entry 96) are the model's readings. That the part of a tick that has passed is scaled to the new point's rate at a
change is its reading (log entry 102), that all regions take the new point with the hub is its choice (log entry 126), and so is
by how much joining the pod moves TIME (log entry 128) (R258, R261, R265, R385, R386, R393, R394, R395, R397, R398, R399, R400). -/
def Obligations.PackageEvents : Prop :=
  (∀ (s : State) (v : Word), ∃ t : State, exec (.freqatWrite v) s = .next t ∧ t.mem = s.mem ∧ t.cores = s.cores
        ∧ (if 4 < s.power.next.toNat ∨ v.toNat < s.time + 4000 then t.power = { s.power with err := true }
           else t.power = { s.power with at_ := v, armed := s.power.next.toNat, pend := true }))
    ∧ (∀ s : State, s.power.pend = true → s.power.at_.toNat ≤ s.time → s.power.ceilAt = none → ∃ t : State, exec .frequencyChange s = .next t
        ∧ t.power.cur = Nat.max s.power.armed s.power.ceilOn ∧ t.power.pend = false
        ∧ t.ttFrac = s.ttFrac * pointMhz t.power.cur / pointMhz s.power.cur ∧ t.cores = s.cores)
    ∧ (∀ (s : State) (w : Nat), s.hub.window ≤ s.time → ∃ t : State, exec (.powerControlWindow w) s = .next t ∧ t.cores = s.cores
        ∧ t.hub.window = s.hub.window + 400000
        ∧ (s.power.bound < w → t.power.ceil = fastestWithin w s.power.cur s.power.bound ∧ t.power.ceilAt = some (s.time + 4000))
        ∧ (20 * w ≤ 19 * s.power.bound → 99 ≤ s.power.quiet → s.power.ceil ≠ 0 →
          w * pointMhz (s.power.ceil - 1) ≤ s.power.bound * pointMhz s.power.cur →
          t.power.ceil = s.power.ceil - 1 ∧ t.power.ceilAt = some (s.time + 4000) ∧ t.power.quiet = 0))
    ∧ (∀ s : State, s.hub.trace.pwr = false → (∀ q, q < 48 → (s.part (s.ownerOf q)).trace.pwr = false) →
        exec .railSample s = .next { s with free := s.free + 132 })
    ∧ (∀ s : State, s.hub.trace.pwr = true → (∀ q, q < 48 → (s.part (s.ownerOf q)).trace.pwr = false) → exec .railSample s = .next
        { ((List.range sensors).filter sensorUsed).foldl (fun (a : State) n => a.traceHyp (s.powerRecord n)) s with free := s.free + 132 })
    ∧ (∀ s : State, s.hub.trace.pwr = false → exec .railSample s = .next
        { ((List.range sensors).filter sensorUsed).foldl (fun (a : State) n => match sensorQuad n with
            | some q => if (s.quad q).active = true ∧ (s.part (s.ownerOf q)).trace.pwr = true
                then a.pushGuest (s.ownerOf q) (s.powerRecord n) else a
            | none => a) s with free := s.free + 132 })
    ∧ (∀ (s : State) (n : Nat), (s.powerRecord n).take 10 = leBytes 8 s.time ++ leBytes 1 7 ++ leBytes 1 n ∧ (s.powerRecord n).length = 32)
    ∧ (∀ s : State, ∃ t : State, exec .railSample s = .next t ∧ t.cores = s.cores ∧ t.power = s.power)
    ∧ (∀ (s : State) (v : Word), bits v.toNat 5 0 ≤ 56 → ∃ t : State, exec (.wearselWrite v) s = .next t
        ∧ t.power = { s.power with wearsel := v.extractLsb' 0 6 } ∧ t.cores = s.cores)
    ∧ (∀ (s : State) (r : Nat), r ≤ 56 → ∃ t : State, exec (.wearUpdate r) s = .next t ∧ t.wearOf r = Config.freeWord s.free
        ∧ (∀ q, q ≠ r → t.wearOf q = s.wearOf q) ∧ t.cores = s.cores)
    ∧ (∀ (s : State) (r : Nat),
        let u := { s with corrected := put 0 s.corrected r (s.time + 1) }
        (r ≠ 56 → get 0 s.lag r < 2 → s.ticked = true → get 0 s.corrected r ≤ s.time →
          exec (.timeCorrection r true) s = .next { u with lag := put 0 s.lag r (get 0 s.lag r + 1) })
        ∧ (r ≠ 56 → get 0 s.corrected r = 0 ∨ get 0 s.corrected r + 63 ≤ s.time →
          exec (.timeCorrection r false) s = .next { u with lag := put 0 s.lag r (get 0 s.lag r - 1) })
        ∧ (r = 56 → s.hub.joined = false → ∀ b, exec (.timeCorrection r b) s = .next (if s.hub.served then s.joinPod b else s))
        ∧ (s.joinPod true).hub.joined = true ∧ (s.joinPod true).time = s.time ∧ s.time ≤ (s.joinPod false).time
        ∧ (r = 56 → s.hub.joined = true → exec (.timeCorrection r true) s = .next { s with adjust := some true })
        ∧ (r = 56 → s.hub.joined = true → get 0 s.corrected r = 0 ∨ get 0 s.corrected r + 63 ≤ s.time →
          exec (.timeCorrection r false) s = .next { u with adjust := some false }))
    ∧ (∀ (s : State) (port : Nat) (u n : Bool), s.hub.recovery = false → s.hub.up = true → port < 2 →
        (get false s.hub.trained port = false → ∃ t : State, exec (.hostPortTraining port (some u) n) s = .next t
          ∧ get false t.hub.trained port = true ∧ get false t.hub.ucie2 port = u ∧ get false t.hub.narrow port = n ∧ t.cores = s.cores)
        ∧ (get false s.hub.trained port = true → exec (.hostPortTraining port (some u) n) s = .next s)
        ∧ ∃ t : State, exec (.hostPortTraining port none n) s = .next t ∧ get false t.hub.trained port = false ∧ t.hub.ucie2 = s.hub.ucie2
          ∧ t.cores = s.cores)
    ∧ (∀ s : State, (∃ t : State, exec (.powerOnReset false) s = .next t ∧ t.hub.recovery = true ∧ t.hub.up = false ∧ t.cores = [] ∧ t.mem = [])
        ∧ ∃ t : State, exec (.powerOnReset true) s = .next t ∧ t.hub.recovery = false ∧ t.hub.up = true ∧ t.hub.certificate = t.aliasCertificate
          ∧ t.hub.joined = false ∧ t.cores = [] ∧ t.mem = [])
    ∧ (∀ (s : State) (ix : Nat) (w : Sent), s.sent[ix]? = some w → s.mayLand w = true →
        exec (.remoteWriteApply ix) s = .next (({ s with sent := removeAt s.sent ix }.applyAt w.pa w.bytes).land w))
    ∧ ∀ (s s1 : State) (port k o : Nat) (va : BitVec 56) (v : Word), va.toNat % 8 = 0 → port < 24 → get false s.pod.failed k = false →
        s.hubStore (podPort port) o va.toNat (leBytes 8 v.toNat) = some s1 → exec (.podLinkWrite ⟨port, k, o⟩ va v) s = .next s1

/-- REGOWN_WRITE waits with a new assignment and otherwise acts at once; REGION_ZEROING starts when no command holds a page of the
region, and REGION_ZEROING_DONE leaves its bytes 0; QUAD_ACTIVATE, once bring-up has started the dies, and QUAD_DEACTIVATE act or
set ERR; QUAD_CLEARING of a still quad leaves its cores as cleared, and QUAD_CLEAR_DONE ends CLEAR; a signed MAKER_DEBUG_UNLOCK
sets DEBUG everywhere; PARTSLOT_WRITE, ENCOWN_WRITE and ENCOWN_EFFECT set their fields; the TLB invalidations drop translations;
PMR_EXTEND, ATTEST_REQUEST and ATTEST_REPORT do what R323 and R324 say. When a report into the pool waits, and for whose context
(log entry 77), the source of its flag's record (log entry 22), how MR2 to MR7 are extended (log entry 100), what the end of a
partition leaves (log entry 69) and that a later write of REGOWN supersedes one that waits (log entry 71) are the model's readings
(R299, R300, R301, R305, R307, R311, R323, R324, R325). -/
def Obligations.IsolationEvents : Prop :=
  (∀ (s : State) (n : Nat) (v : Byte), regionRefused n v = false → ∃ t : State, exec (.regownWrite n v) s = .next t ∧ t.mem = s.mem
      ∧ t.cores = s.cores
      ∧ (if (regAssigned v = true ∧ (s.region n).assigned = false) ∨ ((s.region n).assigned = true ∧ regOwner v ≠ (s.region n).owner)
         then t.region n = { s.region n with waiting := some v }
         else t.region n = { s.region n with owner := regOwner v, assigned := regAssigned v, waiting := none }))
    ∧ (∀ (s : State) (n : Nat) (v : Byte), (s.region n).waiting = some v → s.regionHeld n = false → ∃ t : State,
      exec (.regionZeroing n) s = .next t ∧ t.region n = { owner := regOwner v, assigned := regAssigned v, zeroing := true, waiting := none }
      ∧ t.mem = s.mem)
    ∧ (∀ (s : State) (n : Nat), (s.region n).zeroing = true → ∃ t : State, exec (.regionZeroingDone n) s = .next t
      ∧ (t.region n).zeroing = false ∧ (∀ a, regionBase n ≤ a → a < regionBase n + 2 ^ 29 → get 0#8 t.mem a = 0)
      ∧ (∀ a, a < regionBase n ∨ regionBase n + 2 ^ 29 ≤ a → get 0#8 t.mem a = get 0#8 s.mem a))
    ∧ (∀ (s : State) (q : Nat), s.hub.up = false → exec (.quadActivate q) s = .next s)
    ∧ (∀ (s : State) (q : Nat), s.hub.up = true → (s.quad q).active = false → ∃ t : State, exec (.quadActivate q) s = .next t ∧ t.mem = s.mem
      ∧ (if s.activateRefused q (s.quad q).owner.toNat then t.quad q = { s.quad q with err := true }
         else t.quad q = { s.quad q with active := true } ∧ ((s.quad q).owner.toNat = q → (t.part q).pmr = [])))
    ∧ (∀ (s : State) (q : Nat), (s.quad q).active = true → s.deactivateRefused q = true →
      exec (.quadDeactivate q) s = .next (s.modQuad q fun x => { x with err := true }))
    ∧ (∀ (s : State) (q : Nat), (s.quad q).active = true → s.deactivateRefused q = false → 
      let u := (quadCores q).foldl (fun (a : State) c => a.evictCore c) (s.modQuad q fun x => { x with active := false, clear := true })
      exec (.quadDeactivate q) s = .next (if (s.quad q).owner.toNat = q then u.endPartition q else u))
    ∧ (∀ (s : State) (q : Nat), (s.quad q).clear = true → s.quadStill q = true → ∃ t : State, exec (.quadClearing q) s = .next t
      ∧ (∀ c, c / 4 = q → t.core c = Core.cleared) ∧ (∀ c, c / 4 ≠ q → t.core c = s.core c) ∧ t.mem = s.mem
      ∧ (∀ k, k / 2 ^ 25 = q → get 0#8 t.cluster k = 0))
    ∧ (∀ (s : State) (q : Nat), (s.quad q).clear = true → s.quadCleared q = true → ∃ t : State, exec (.quadClearDone q) s = .next t
      ∧ t.quad q = { s.quad q with clear := false } ∧ t.cores = s.cores ∧ t.mem = s.mem)
    ∧ (∀ s : State, exec (.makerDebugUnlock false) s = .next s)
    ∧ (∀ s : State, ∃ t : State, exec (.makerDebugUnlock true) s = .next t ∧ t.hub.unlocked = true
      ∧ (∀ q, q < 48 → (t.quad q).debug = true) ∧ ∀ c, c < 192 → t.core c = Core.cleared)
    ∧ (∀ (s : State) (o : Nat) (v : Word), ∃ t : State, exec (.partslotWrite o v) s = .next t ∧ t.mem = s.mem ∧ t.cores = s.cores
      ∧ (if s.slotsRefused o v then (t.quad o).err = true ∧ t.part o = s.part o else (t.part o).partslot = v ∧ t.quad o = s.quad o))
    ∧ (∀ (s : State) (d : Nat) (v : Word), d = 3 ∨ d = 7 → ∃ t : State, exec (.encownWrite d v) s = .next t
      ∧ t.die d = { s.die d with encown := v.extractLsb' 0 28 } ∧ t.cores = s.cores)
    ∧ (∀ (s : State) (d j : Nat), j < 4 → ((s.die d).queue.any fun q => q.engine == j) = false → ∃ t : State,
      exec (.encownEffect d j) s = .next t ∧ get 0 (t.die d).inForce j = (s.die d).named j ∧ t.cores = s.cores)
    ∧ (∀ (s : State) (c : Nat) (va : BitVec 40), ∃ t : State, exec (.tlbInvalidate c va) s = .next t ∧ t.mem = s.mem ∧ t.cores = s.cores
      ∧ (t.part (s.partOf c)).kept = (s.part (s.partOf c)).kept.filter fun k => !within (va.toNat * 65536) k.va k.size)
    ∧ (∀ (s : State) (c : Nat), ∃ t : State, exec (.tlbInvalidateAll c) s = .next t ∧ t.mem = s.mem ∧ t.cores = s.cores
      ∧ (t.part (s.partOf c)).kept = [])
    ∧ (∀ (s s1 : State) (c : Nat) (v : Word) (bs : List Byte), s.namedBlock c true v true = .ok (s1, bs) → (∀ x ∈ bs.drop 48, x = 0) →
      ∃ t : State, exec (.pmrExtend c ⟨v, none⟩) s = .next t ∧ t.mem = s1.mem
        ∧ get 0 (t.part (s.partOf c)).pmr (bits v.toNat 1 0) = extend (get 0 (s1.part (s.partOf c)).pmr (bits v.toNat 1 0)) (bs.take 48))
    ∧ (∀ (s : State) (c i : Nat) (v : Word) (d : BitVec 384), 2 ≤ i → i < 8 → exec (.pmrExtend c ⟨v, some (i, d)⟩) s
      = .next { s with hub := { s.hub with mr := update 0 s.hub.mr i fun r => extend r (leBytes 48 d.toNat) } })
    ∧ (∀ (s s1 s2 : State) (c : Nat) (v : Word) (bs : List Byte) (ls : List Loc) (hs : List PageHold), s.namedBlock c true v (bits v.toNat 1 0 == 0) = .ok (s1, bs) →
      s1.reportPlaces c true 12 (BitVec.ofNat 64 (bits v.toNat 55 6 * 64 + 64)) = .ok (s2, ls, hs) →
      ∃ t : State, exec (.attestRequest c v) s = .next t ∧ (t.part (s.partOf c)).attest = (s2.part (s.partOf c)).attest
          ++ [{ core := c, task := s.aim c, nonce := bs.take 48, flag := descNat bs 48 1 % 64, places := ls, holds := hs }] ∧ t.mem = s2.mem)
    ∧ ∀ (s : State) (o : Nat) (q : Attest) (rest : List Attest), (s.part o).attest = q :: rest →
      (q.places.any isScr = false ∨ s.attestAway q = false ∨ q.task.any s.gone = true → exec (.attestReport o) s = .next
        (((s.reportAt q (pieces 64 12 (s.report o q.core q.nonce))).modPart o fun p => { p with attest := rest }).bumpFor q.task q.core
          { flag := q.flag, time := s.time, kv := [], src := .remote }))
      ∧ (q.places.any isScr = true → s.attestAway q = true → q.task.any s.gone = false → exec (.attestReport o) s = .next s)

/-- STOP asks every running core of its scope to stop, RUN releases the stopped cores of its scope, and each on the other state sets
ERR; STEP_ISSUE and STEP_RETIRE release one sequencer, STEP_END and STEP_TIMEOUT stop the core with WHY 3 and 4; DUMP and LOAD
begin on a stopped core and DUMP_DONE and LOAD_DONE end them with DONE or ERR; TRCSRC_WRITE restarts the samples; TRACE_SAMPLE
outside a sample point writes none; TL_CLEAR zeroes the counters; REPLAY_INJECT applies the entries that are due, one after
another; CAPTURE_STOP raises BRK or, with a debugger, stops, with WHY 6 on a core that another stop has met on the same cycle too.
That a stop asked for is made at the end of a cycle (log entry 49), what a capture stop counts (log entry 75), the checks and the
context of a LOAD (log entry 76) and when an entry is injected (log entry 78) are the model's readings (R375, R376, R379, R380,
R384, R389, R361, R373). -/
def Obligations.ObservationEvents : Prop :=
  (∀ (s : State) (c : Nat) (scope : BitVec 2), exec (.stop c scope) s = .next (if (s.core c).dbg.stopped then s.dbgErr c
      else (s.scopeCores c scope).foldl (fun (a : State) k => if (a.core k).dbg.stopped then a else a.askStop k 1) s))
    ∧ (∀ (s : State) (c : Nat), (s.core c).dbg.stopped = false → ∃ t : State, exec (.stop c 0) s = .next t
      ∧ (t.core c).dbg.request = some 1 ∧ (∀ k, k ≠ c → t.core k = s.core k) ∧ t.mem = s.mem)
    ∧ (∀ (s : State) (c : Nat), (s.core c).dbg.stopped = true → (s.core c).dbg.aside = [] → ∃ t : State, exec (.run c 0) s = .next t
      ∧ (t.core c).dbg.stopped = false ∧ (t.core c).dbg.step = none ∧ (t.core c).live = (s.core c).live ∧ t.mem = s.mem)
    ∧ (∀ (s : State) (c : Nat) (scope : BitVec 2), (s.core c).dbg.stopped = false → exec (.run c scope) s = .next (s.dbgErr c))
    ∧ (∀ (s : State) (c : Nat) (sq : Stream), (s.core c).dbg.stopped = true →
      (∃ t : State, exec (.stepIssue c sq) s = .next t ∧ (t.core c).dbg.stopped = false
        ∧ (t.core c).dbg.step = some (false, sq, (s.seq c sq).icnt, 0) ∧ (t.core c).live = (s.core c).live ∧ t.mem = s.mem)
      ∧ (∃ t : State, exec (.stepRetire c sq) s = .next t ∧ (t.core c).dbg.stopped = false
        ∧ (t.core c).dbg.step = some (true, sq, (s.seq c sq).icnt, 0) ∧ (t.core c).live = (s.core c).live ∧ t.mem = s.mem)
      ∧ (∃ t : State, exec (.dump c) s = .next t ∧ (t.core c).dbg.busy = 1 ∧ (t.core c).dbg.done = false ∧ (t.core c).live = (s.core c).live)
      ∧ ∃ t : State, exec (.load c) s = .next t ∧ (t.core c).dbg.busy = 2 ∧ (t.core c).dbg.done = false ∧ (t.core c).live = (s.core c).live)
    ∧ (∀ (s : State) (c : Nat), (s.core c).dbg.stopped = false → exec (.dump c) s = .next (s.dbgErr c) ∧ exec (.load c) s = .next (s.dbgErr c))
    ∧ (∀ (s : State) (c : Nat), s.stepDone c = true → exec (.stepEnd c) s = .next (s.stopNow c 3))
    ∧ (∀ (s : State) (c n k : Nat) (b : Bool) (sq : Stream), (s.core c).dbg.step = some (b, sq, k, n) → 65536 ≤ n →
      exec (.stepTimeout c) s = .next (s.stopNow c 4))
    ∧ (∀ (s : State) (c : Nat), (s.core c).dbg.busy = 1 → (s.core c).dbg.stopped = true →
      ∀ (s1 : State) (hs : List PageHold),
      (∀ s2, s.holdDebug c = (s1, hs, .whole) → s1.areaServed c hs = true → s1.dumpAll (s1.dumpJob c hs) (s.savesOf c) = some s2 →
        exec (.dumpDone c) s = .next (s2.endMove c true))
      ∧ (s.holdDebug c = (s1, hs, .fault) → exec (.dumpDone c) s = .next (s1.endMove c false)))
    ∧ (∀ (s s1 s2 : State) (c : Nat) (hs : List PageHold) (code : Stream → Table Half), (s.core c).dbg.busy = 2 → (s.core c).dbg.stopped = true →
      let va := (s.core c).dbg.areaVa
      let bs := s1.areaBytes hs va 64
      let h := ShavingHeader.read bs
      (s.holdDebug c = (s1, hs, .whole) → s1.areaServed c hs = true →
        (h.layout ≠ Machine.layoutOf c ∨ h.fits (s.core c).liveSl = false ∨ s1.restoreFault hs va c bs ≠ none) →
        exec (.loadDone c) s = .next (s1.endMove c false))
      ∧ (s.holdDebug c = (s1, hs, .whole) → s1.areaServed c hs = true → h.layout = Machine.layoutOf c → h.fits (s.core c).liveSl = true →
        s1.restoreFault hs va c bs = none → s1.loadCode c h.imm = some (s2, code) → exec (.loadDone c) s = .next
          ((((s2.restorePool hs va c (s.core c).liveSl).drawn.modCtx c fun _ => { s2.restoreCtx hs va (s2.ctx c) h.imm code with clean := [] }).modCore
            c Core.noCapture).endMove c true))
      ∧ (s.holdDebug c = (s1, hs, .fault) → exec (.loadDone c) s = .next (s1.endMove c false)))
    ∧ (∀ (s : State) (c : Nat) (v : Word), ∃ t : State, exec (.trcsrcWrite c v) s = .next t
      ∧ (t.core c).watch.trcsrc = (v.extractLsb' 0 17 &&& trcsrcMask) ∧ (t.core c).watch.since = 0 ∧ (t.core c).live = (s.core c).live ∧ t.mem = s.mem)
    ∧ (∀ (s : State) (c : Nat), (s.core c).watch.sampleDue = false → exec (.traceSample c) s = .next s)
    ∧ (∀ (s : State) (c : Nat), (s.core c).watch.sampleDue = true →
      (∀ sm, (s.core c).watch.trcsrc.getLsbD (12 + streamCode sm) = (sm == Stream.ctl)) → (s.core c).watch.trcsrc.getLsbD 16 = false →
      exec (.traceSample c) s = .next (s.trace c 1 (s.seqName c .ctl)
        ((s.ctx c).ctl.icnt % 2 ^ 32 + (s.ctx c).cr.slipcnt.toNat % 2 ^ 32 * 2 ^ 32)))
    ∧ (∀ (s : State) (c : Nat), ∃ t : State, exec (.tlClear c) s = .next t ∧ (∀ ix, t.lossCount c ix = 0) ∧ (t.core c).live = (s.core c).live
      ∧ t.mem = s.mem)
    ∧ (∀ (s : State) (c : Nat) (e : LogEntry), s.injectDue c = some e →
      let t := (s.injected c e).modWatch c fun w => { w with rplCount := w.rplCount + 1 }
      exec (.replayInject c) s = .next (State.injectAll c 4095 t) ∧ (t.injectDue c = none → exec (.replayInject c) s = .next t)
      ∧ (t.core c).watch.rplCount = (s.core c).watch.rplCount + 1
      ∧ (e.kind = 1 → (t.ctx c).links = (s.ctx c).links.bump (e.ix % 64) e.value ∧ t.mem = s.mem)
      ∧ (e.kind = 2 → (t.ctx c).links = (s.ctx c).links.vpush (e.ix % 3) { cut := false, val := BitVec.ofNat 64 e.value } ∧ t.mem = s.mem)
      ∧ (e.kind = 3 → e.ix = encoderPlace → (t.core c).watch.rplDone = (s.core c).watch.rplDone - 1 ∧ t.mem = s.mem)
      ∧ (e.kind = 3 → e.ix ≠ encoderPlace → t = (s.finishCmd c e.ix).modWatch c fun w => { w with rplCount := w.rplCount + 1 })
      ∧ (4 ≤ e.kind → (t.core c).watch.rplHold = some [BitVec.ofNat 64 e.kind, BitVec.ofNat 64 e.value] ∧ (t.core c).live = (s.core c).live
        ∧ t.mem = s.mem))
    ∧ ∀ (s : State) (c : Nat), (s.core c).hasLive = true → (s.core c).captArm = true → (s.core c).captCount = some 0 →
      let u := s.modCore c fun k => { k with captArm := false, captCount := none, demand := none }
      let v := u.traceTrap c .mx .brk (BitVec.ofNat 64 (2 ^ 63 + (s.core c).captStop.toNat))
      ((s.core c).dbg.att = true → (s.core c).dbg.stopped = false → exec (.captureStop c) s = .next (v.stopNow c 6))
      ∧ ((s.core c).dbg.att = true → (s.core c).dbg.stopped = true → exec (.captureStop c) s = .next (v.modDbg c fun d => { d with why := 6 }))
      ∧ ((s.core c).dbg.att = false → exec (.captureStop c) s = .next
          (((u.modCr c fun r => { r with estat := r.estat &&& 0x7B }).takeTrapAt c .mx .brk
            (BitVec.ofNat 64 (2 ^ 63 + (s.core c).captStop.toNat)) false false).leaveNow c))

/-- For every instruction or event of the table and every state, exec answers a next state: this machine has no fault and refuses
nothing, a trap being a next state. So every step of every state answers a next state (R80, R116, R346). -/
def Obligations.NothingStops : Prop :=
  (∀ (i : Instr) (s : State), ∃ t, exec i s = .next t) ∧ ∀ s : State, s.goesOn

/-- When the halfwords at a sequencer's PC decode to an instruction of n halfwords that lie in its block's body and below its bound,
its framed unit is that instruction with length n and no prefix. When it is the turn of a sequencer whose context is live, not
stopped, not frozen and not about to leave, and nothing keeps its framed unit from issuing, step is exec of the unit's instruction
in the state whose current unit is that unit, after which the turn moves on (or stays with the sequencer where the unit takes no
cycle; CTL's stores to SCR are seen by the reads MX makes on the cycle); a steal runs on a turn of its own after every
sequencer's; that is so on a cycle on which the core has seen no trap of another stream, is not going to end in a precise fault of
the task, and (for ST) sees no RING trap of MX at a retirement. A cycle that is going to end in a precise fault ends where it
began (R362). On a cycle that has seen a trap, a further trap of a unit is discarded: the stream stands, and every register, and
memory, is as before. When an event is first of the agenda, step is exec of it with the event taken off. That the cycle is the
unit of one trap, with the streams in the order CTL, LD, MX, ST, is the model's reading in log entry 97; that a precise fault's
cycle is found by running its turns is that of log entry 92. That a cycle is a list of turns, with an agenda of events after it
and the steals on turns of their own, is the model's choice (log entries 8 and 60) (R47, R48, R61, R62, R346, R362). -/
def Obligations.StepRunsTheDecodedUnit : Prop :=
  (∀ (q : Seq) (sm : Stream) (i : Instr) (n : Nat),
      decodeHalves (q.half q.pc.toNat) (some (q.half (q.pc.toNat + 1))) = .ok (i, n) →
      q.pc.toNat + n ≤ q.bodyEnd → q.pc.toNat + n ≤ q.bound sm → q.frame sm = .ok { Framed.start with instr := i, len := n })
  ∧ (∀ (s : State) (c : Nat) (sm : Stream) (f : Framed),
      let q := (s.ctx c).seq sm
      let u := q.issueUnit c sm f
      let g := s.goesAhead c sm
      s.agenda = [] → s.turn = .issue c sm → (sm = .ctl → s.faultFirst c = none) → (s.core c).cycle.seen = false →
      (sm = .st → s.ringTraps c = false) → (s.core c).hasLive = true → (s.core c).dbg.stopped = false → (s.core c).dbg.stepLets sm q.icnt = true → s.frozen c sm = false →
      s.logFull c = false → (sm = .ctl → (s.core c).leaving = none) → (sm ≠ .ctl → (s.ctx c).yielding = false ∧ (s.core c).yielded = false) →
      (sm = .ctl → (s.ctx c).eng.imld = none ∧ (s.ctx c).cr.acquireUntil = 0 ∧ ¬ (isH f.instr = true ∧ (s.core c).demand = some 0)
        ∧ ((s.ctx c).cr.atomic = none ∨ q.pc.toNat < q.bodyEnd)) →
      (s.ctx c).pushBlocked sm = false → q.cut = .none → (s.ctx c).cutFirst sm = false → s.replayHolds c sm = false →
      q.inBody = true → q.frame sm = .ok f → q.wait = .none → q.hasFetched f.len = true →
      ((s.ctx c).cutWord sm = none ∨ (s.ctx c).cutPoint u f.instr = false) →
      State.diverges { g with unit := u } c sm q f.instr = none → (s.ctx c).stallEvent u f.instr = none →
      step s = afterTurn c sm (exec f.instr { g with unit := u })
        ∧ (g = s ∨ (sm = .ctl ∧ g = s.modCore c fun k => { k with start := none })))
  ∧ (∀ (s : State) (c : Nat) (sm : Stream) (at_ : Half) (cause : Cause) (info : Word), s.agenda = [] → s.turn = .issue c .ctl →
      (s.core c).start ≠ none → (s.ctx c).cr.faults = true → s.foresee State.afterRun c turnFuel = some (sm, at_, cause, info) →
      step s = .next { s.faultBefore c sm at_ cause info with turn := s.firstTurn (c + 1) })
  ∧ (∀ (c : Nat) (sm : Stream) (t : State),
      let u := if sm = .ctl then t.shareStores c else t
      afterTurn c sm (.next t) = .next
        (if u.unit.stay = true then { u with unit := { u.unit with stay := false } } else { u with turn := u.nextTurn c sm }))
  ∧ (∀ (s t : State) (c : Nat) (rest : List Nat) (i : Instr), s.agenda = [] → s.turn = .late → s.late = c :: rest →
      (s.core c).cycle.seen = false → s.pick c .ctl = .run i t → isSteal i = true →
      step s = afterSteal rest (exec i { t with unit := { t.unit with late := true } }))
  ∧ (∀ (s t u : State) (c : Nat) (sm : Stream) (i : Instr), s.agenda = [] → s.turn = .issue c sm → (s.core c).hasLive = true →
      (sm = .ctl → s.faultFirst c = none) → (s.core c).cycle.seen = true → ((s.goesAhead c sm).reopened c).pick c sm = .run i t →
      exec i t = .next u → (u.core c).cycle = .trapped → s.unit.stay = false →
      (sm = .ctl → (s.core c).stored = false) →
      ∃ v, step s = .next v ∧ v.turn = v.nextTurn c sm ∧ v.mem = s.mem ∧ v.cluster = s.cluster ∧ v.unit = s.unit
        ∧ v.ctx c = (s.ctx c).modSeq sm (fun q => { q with loss := .engine, waitsOn := [] }))
  ∧ ∀ (s : State) (e : Instr) (rest : List Instr), s.agenda = e :: rest → isEvent e = true →
      step s = exec e { s with agenda := rest }

/-- For every state in which HBM and host memory and cluster SRAM are in canonical form (addresses rising strictly, no byte equal to
what an unlisted address reads as), if step answers a next state then both are in canonical form in it. That an unlisted byte
reads 0 is the model's choice (see the assumption log) (R16, R24, R92). -/
def Obligations.MemoryFormKept : Prop :=
  ∀ s t : State, s.memoryInForm → step s = .next t → t.memoryInForm

/-- For every instruction that has an encoding, decoding its bytes, with any bytes after them, gives the instruction and those bytes.
Conversely, whatever bytes decode to an instruction begin with exactly the bytes of its encoding, so no two encodings share a
meaning and no field is dropped (R47, R49, R50, R51, R78, R79, R81, R83, R84). -/
def Obligations.EncodeDecodeAgree : Prop :=
  (∀ (i : Instr) (bs rest : List Byte), encode i = some bs → decode (bs ++ rest) = .ok (i, rest))
    ∧ ∀ (bs rest : List Byte) (i : Instr), decode bs = .ok (i, rest) → ∃ es, encode i = some es ∧ bs = es ++ rest

/-- The worked encodings of the opcode map and of the control, movement, matrix and vector chapters, as bytes in memory order, decode
to the instructions they stand for (R47, R50, R78, R84). -/
def Obligations.WorkedEncodingsDecode : Prop :=
  decode [0xC6, 0x20] = .ok (.addC16 3 4, [])
    ∧ decode [0xC1, 0x04, 0x61, 0x10] = .ok (.vadd 9 0x08 0x83, [])
    ∧ decode [0x0D, 0x58, 0x00, 0x80] = .ok (.cmpi 16 5 0 4, [])
    ∧ decode [0xBD, 0x00, 0x00, 0x00] = .ok (.xfFwd 1 0 0, [])
    ∧ decode [0xA1, 0x82, 0x12, 0x00] = .ok (.fwait 5 8 9, [])
    ∧ decode [0x8F, 0x41, 0x10, 0x80] = .ok (.ldW 3 4 8, [])
    ∧ decode [0x29, 0xD6, 0x96, 0x02] = .ok (.copyG2s 12 13 11 10 0, [])
    ∧ decode [0x39, 0x80, 0x01, 0x00] = .ok (.wload 3, [])

/-- After reset: TIME is 0; every instruction memory reads 0xFFFF at every halfword; POOLPW of every core holds one slice of TILE 16,
SCR 46 and CONST 1 granules; WTMO is 0xFFFFFFFF and RETRY_MAX 3; ECAUSE, EINFO, EPC, ESTAT, TVEC and CHND are 0; quad q is owned
by partition q and neither active nor under clearing nor debuggable; the measurement registers are zero; the frequency point and
the next one are 0, the power limit is 2,800 W, and WEAR is 0xFFFF; no core has a context; and both memories are in canonical form
(R46, R70, R71, R120, R299, R323, R392, R397, R398). -/
def Obligations.ResetLeaves : Prop :=
  State.reset.time = 0 ∧ State.reset.memoryInForm ∧ State.reset.agenda = []
    ∧ (∀ c, (State.reset.core c).hasLive = false)
    ∧ (∀ c sm n, (State.reset.seq c sm).half n = 0xFFFF)
    ∧ (∀ c, let k := State.reset.core c
        k.slice0.base = 0 ∧ k.slice0.tileg = 16 ∧ k.slice0.scrg = 46 ∧ k.slice0.constg = 1 ∧ k.slice0.valid = true ∧ k.slice1.valid = false)
    ∧ (∀ c, let r := (State.reset.ctx c).cr
        r.wtmo = 0xFFFFFFFF ∧ r.retryMax = 3 ∧ r.ecause = 0 ∧ r.einfo = 0 ∧ r.epc = 0 ∧ r.estat = 0 ∧ r.tvec = 0 ∧ r.chnd = 0)
    ∧ (∀ q, q < 48 → (State.reset.quad q).owner.toNat = q ∧ (State.reset.quad q).active = false ∧ (State.reset.quad q).clear = false
        ∧ (State.reset.quad q).borrow = false ∧ (State.reset.quad q).host = false ∧ (State.reset.quad q).debug = false
        ∧ (State.reset.quad q).err = false)
    ∧ (∀ n, get 0#384 State.reset.hub.mr n = 0)
    ∧ State.reset.power.cur = 0 ∧ State.reset.power.next = 0 ∧ State.reset.power.ceil = 0 ∧ State.reset.power.limit = 2800
    ∧ (∀ r, State.reset.wearOf r = 0xFFFF)
end

