-- ==== Sys2Proof/Laws/Store.lean ====
section
/-! SUPPORT. Laws of tables and byte stores: reading after writing, and the canonical form that every write keeps. -/
namespace Sys2Proof.Machine

variable {α : Type}

@[simp] theorem get_nil (d : α) (k : Nat) : get d [] k = d := rfl

theorem get_insert_same (d : α) (t : Table α) (k : Nat) (x : α) : get d (insert k x t) k = x := by
  induction t with
  | nil => simp [insert, get]
  | cons e t ih =>
    obtain ⟨j, y⟩ := e
    simp only [insert]
    split
    · simp [get]
    · split
      · simp [get]
      · rename_i h; simp [get, h, ih]

theorem get_insert_other (d : α) (t : Table α) {j k : Nat} (x : α) (h : j ≠ k) : get d (insert j x t) k = get d t k := by
  induction t with
  | nil => simp [insert, get, h]
  | cons e t ih =>
    obtain ⟨i, y⟩ := e
    simp only [insert]
    split
    · simp [get, h]
    · split
      · rename_i e; subst e; simp [get, h]
      · simp [get, ih]

theorem get_filter_same (d : α) (t : Table α) (k : Nat) : get d (t.filter fun e => e.1 != k) k = d := by
  induction t with
  | nil => rfl
  | cons e t ih =>
    obtain ⟨j, y⟩ := e
    by_cases h : j = k <;> simp [get, h, ih]

theorem get_filter_other (d : α) (t : Table α) {j k : Nat} (h : j ≠ k) : get d (t.filter fun e => e.1 != j) k = get d t k := by
  induction t with
  | nil => rfl
  | cons e t ih =>
    obtain ⟨i, y⟩ := e
    by_cases hi : i = j
    · subst hi; simp [get, h, ih]
    · simp [get, hi, ih]

variable [DecidableEq α]

/-- Reading a table where it was written gives what was written. -/
@[simp] theorem get_put_same (d : α) (t : Table α) (k : Nat) (x : α) : get d (put d t k x) k = x := by
  unfold put
  split
  · rename_i h; rw [h]; exact get_filter_same d t k
  · exact get_insert_same d t k x

/-- A write leaves every other place of a table alone. -/
theorem get_put_other (d : α) (t : Table α) {j k : Nat} (x : α) (h : j ≠ k) : get d (put d t j x) k = get d t k := by
  unfold put
  split
  · exact get_filter_other d t h
  · exact get_insert_other d t x h

theorem get_put (d : α) (t : Table α) (j k : Nat) (x : α) : get d (put d t j x) k = if j = k then x else get d t k := by
  by_cases h : j = k
  · subst h; simp
  · simp [h, get_put_other d t x h]

@[simp] theorem get_update_same (d : α) (t : Table α) (k : Nat) (f : α → α) : get d (update d t k f) k = f (get d t k) := by
  simp [update]

theorem get_update_other (d : α) (t : Table α) {j k : Nat} (f : α → α) (h : j ≠ k) : get d (update d t j f) k = get d t k := by
  simp [update, get_put_other d t _ h]

/-! ### The canonical form -/

/-- The canonical form as a statement about every entry and every pair of neighbours. -/
theorem tableWf_cons (d : α) (j : Nat) (y : α) (t : Table α) :
    tableWf d ((j, y) :: t) = true ↔ y ≠ d ∧ (∀ e ∈ t.head?, j < e.1) ∧ tableWf d t = true := by
  cases t with
  | nil => simp [tableWf]
  | cons e t => obtain ⟨k, z⟩ := e; simp [tableWf, and_assoc]

/-- Every key behind the head of a table in canonical form is larger than the head's. -/
theorem tableWf_keys (d : α) (j : Nat) (y : α) (t : Table α) (h : tableWf d ((j, y) :: t) = true) : ∀ e ∈ t, j < e.1 := by
  induction t generalizing j y with
  | nil => simp
  | cons e t ih =>
    obtain ⟨k, z⟩ := e
    rw [tableWf_cons] at h
    have hk : j < k := h.2.1 (k, z) (by simp)
    intro e he
    rcases List.mem_cons.1 he with rfl | he
    · exact hk
    · exact Nat.lt_trans hk (ih k z h.2.2 e he)

theorem tableWf_filter (d : α) (t : Table α) (p : Nat × α → Bool) (h : tableWf d t = true) : tableWf d (t.filter p) = true := by
  induction t with
  | nil => exact h
  | cons e t ih =>
    obtain ⟨j, y⟩ := e
    have hk := tableWf_keys d j y t h
    rw [tableWf_cons] at h
    rw [List.filter_cons]
    split
    · rw [tableWf_cons]
      refine ⟨h.1, fun e he => hk e ?_, ih h.2.2⟩
      exact (List.mem_filter.1 (List.mem_of_mem_head? he)).1
    · exact ih h.2.2

theorem tableWf_insert (d : α) (t : Table α) (k : Nat) (x : α) (hx : x ≠ d) (h : tableWf d t = true) :
    tableWf d (insert k x t) = true := by
  induction t with
  | nil => simp [insert, tableWf, hx]
  | cons e t ih =>
    obtain ⟨j, y⟩ := e
    simp only [insert]
    split
    · rename_i hlt
      rw [tableWf_cons]
      exact ⟨hx, by simpa using hlt, h⟩
    · split
      · rename_i e; subst e
        rw [tableWf_cons] at h ⊢
        exact ⟨hx, h.2.1, h.2.2⟩
      · rename_i hlt hne
        have hk := tableWf_keys d j y t h
        rw [tableWf_cons] at h ⊢
        refine ⟨h.1, fun e he => ?_, ih h.2.2⟩
        cases t with
        | nil => simp [insert] at he; subst he; simp; omega
        | cons e' t =>
          obtain ⟨i, z⟩ := e'
          simp only [insert] at he
          split at he
          · simp at he; subst he; simp; omega
          · split at he
            · simp at he; subst he; simp; omega
            · simp at he; subst he; exact hk _ (by simp)

/-- Every write keeps the canonical form of a table. -/
theorem tableWf_put (d : α) (t : Table α) (k : Nat) (x : α) (h : tableWf d t = true) : tableWf d (put d t k x) = true := by
  unfold put
  split
  · exact tableWf_filter d t _ h
  · rename_i hx; exact tableWf_insert d t k x hx h

theorem tableWf_update (d : α) (t : Table α) (k : Nat) (f : α → α) (h : tableWf d t = true) :
    tableWf d (update d t k f) = true := tableWf_put d t k _ h

/-! ### Byte stores -/

/-- Writing bytes keeps the canonical form of a byte store. -/
theorem tableWf_writeBytes (m : Table Byte) (a : Nat) (bs : List Byte) (h : tableWf 0#8 m = true) :
    tableWf 0#8 (writeBytes m a bs) = true := by
  induction bs generalizing m a with
  | nil => exact h
  | cons b bs ih => exact ih _ _ (tableWf_put _ _ _ _ h)

/-- A byte outside the written bytes reads as before. -/
theorem get_writeBytes_outside (m : Table Byte) (a : Nat) (bs : List Byte) (k : Nat) (h : k < a ∨ a + bs.length ≤ k) :
    get 0#8 (writeBytes m a bs) k = get 0#8 m k := by
  induction bs generalizing m a with
  | nil => rfl
  | cons b bs ih =>
    simp only [List.length_cons] at h
    rw [writeBytes, ih _ _ (by omega), get_put_other _ _ _ (by omega)]

/-- A written byte reads as it was written. -/
theorem get_writeBytes_inside (m : Table Byte) (a : Nat) (bs : List Byte) (i : Nat) (h : i < bs.length) :
    get 0#8 (writeBytes m a bs) (a + i) = bs[i] := by
  induction bs generalizing m a i with
  | nil => simp at h
  | cons b bs ih =>
    cases i with
    | zero => rw [writeBytes, get_writeBytes_outside _ _ _ _ (by omega)]; simp
    | succ i =>
      have := ih (put 0#8 m a b) (a + 1) i (by simpa using h)
      rw [writeBytes, show a + (i + 1) = a + 1 + i by omega, this]; rfl

@[simp] theorem readBytes_length (m : Table Byte) (a n : Nat) : (readBytes m a n).length = n := by
  induction n generalizing a with
  | zero => rfl
  | succ n ih => simp [readBytes, ih]

/-- What is written is read back. -/
theorem readBytes_writeBytes (m : Table Byte) (a : Nat) (bs : List Byte) : readBytes (writeBytes m a bs) a bs.length = bs := by
  induction bs generalizing m a with
  | nil => rfl
  | cons b bs ih =>
    simp only [List.length_cons, readBytes, writeBytes]
    rw [get_writeBytes_outside _ _ _ _ (by omega), get_put_same, ih]

end Sys2Proof.Machine
end

