-- ==== Sys2Proof/Laws/State.lean ====
section
/-! SUPPORT. Laws of the updates of the state: what each leaves in every field, so that no proof unfolds a record update. -/
namespace Sys2Proof.Machine

/-! ### modCore -/

@[simp] theorem State.modCore_mem (s : State) (c : Nat) (f : Core → Core) : (s.modCore c f).mem = s.mem := rfl
@[simp] theorem State.modCore_cluster (s : State) (c : Nat) (f : Core → Core) : (s.modCore c f).cluster = s.cluster := rfl
@[simp] theorem State.modCore_clusBad (s : State) (c : Nat) (f : Core → Core) : (s.modCore c f).clusBad = s.clusBad := rfl
@[simp] theorem State.modCore_quads (s : State) (c : Nat) (f : Core → Core) : (s.modCore c f).quads = s.quads := rfl
@[simp] theorem State.modCore_dies (s : State) (c : Nat) (f : Core → Core) : (s.modCore c f).dies = s.dies := rfl
@[simp] theorem State.modCore_parts (s : State) (c : Nat) (f : Core → Core) : (s.modCore c f).parts = s.parts := rfl
@[simp] theorem State.modCore_slots (s : State) (c : Nat) (f : Core → Core) : (s.modCore c f).slots = s.slots := rfl
@[simp] theorem State.modCore_contracts (s : State) (c : Nat) (f : Core → Core) : (s.modCore c f).contracts = s.contracts := rfl
@[simp] theorem State.modCore_exports (s : State) (c : Nat) (f : Core → Core) : (s.modCore c f).exports = s.exports := rfl
@[simp] theorem State.modCore_withdrawn (s : State) (c : Nat) (f : Core → Core) : (s.modCore c f).withdrawn = s.withdrawn := rfl
@[simp] theorem State.modCore_domains (s : State) (c : Nat) (f : Core → Core) : (s.modCore c f).domains = s.domains := rfl
@[simp] theorem State.modCore_regions (s : State) (c : Nat) (f : Core → Core) : (s.modCore c f).regions = s.regions := rfl
@[simp] theorem State.modCore_relTime (s : State) (c : Nat) (f : Core → Core) : (s.modCore c f).relTime = s.relTime := rfl
@[simp] theorem State.modCore_relKv (s : State) (c : Nat) (f : Core → Core) : (s.modCore c f).relKv = s.relKv := rfl
@[simp] theorem State.modCore_barTurn (s : State) (c : Nat) (f : Core → Core) : (s.modCore c f).barTurn = s.barTurn := rfl
@[simp] theorem State.modCore_sent (s : State) (c : Nat) (f : Core → Core) : (s.modCore c f).sent = s.sent := rfl
@[simp] theorem State.modCore_cmdNext (s : State) (c : Nat) (f : Core → Core) : (s.modCore c f).cmdNext = s.cmdNext := rfl
@[simp] theorem State.modCore_performed (s : State) (c : Nat) (f : Core → Core) : (s.modCore c f).performed = s.performed := rfl
@[simp] theorem State.modCore_hubSeq (s : State) (c : Nat) (f : Core → Core) : (s.modCore c f).hubSeq = s.hubSeq := rfl
@[simp] theorem State.modCore_barOwner (s : State) (c : Nat) (f : Core → Core) : (s.modCore c f).barOwner = s.barOwner := rfl
@[simp] theorem State.modCore_lineErr (s : State) (c : Nat) (f : Core → Core) : (s.modCore c f).lineErr = s.lineErr := rfl
@[simp] theorem State.modCore_poison (s : State) (c : Nat) (f : Core → Core) : (s.modCore c f).poison = s.poison := rfl
@[simp] theorem State.modCore_lineSeq (s : State) (c : Nat) (f : Core → Core) : (s.modCore c f).lineSeq = s.lineSeq := rfl
@[simp] theorem State.modCore_scrub (s : State) (c : Nat) (f : Core → Core) : (s.modCore c f).scrub = s.scrub := rfl
@[simp] theorem State.modCore_scrubAt (s : State) (c : Nat) (f : Core → Core) : (s.modCore c f).scrubAt = s.scrubAt := rfl
@[simp] theorem State.modCore_senders (s : State) (c : Nat) (f : Core → Core) : (s.modCore c f).senders = s.senders := rfl
@[simp] theorem State.modCore_enqueued (s : State) (c : Nat) (f : Core → Core) : (s.modCore c f).enqueued = s.enqueued := rfl
@[simp] theorem State.modCore_power (s : State) (c : Nat) (f : Core → Core) : (s.modCore c f).power = s.power := rfl
@[simp] theorem State.modCore_hub (s : State) (c : Nat) (f : Core → Core) : (s.modCore c f).hub = s.hub := rfl
@[simp] theorem State.modCore_pod (s : State) (c : Nat) (f : Core → Core) : (s.modCore c f).pod = s.pod := rfl
@[simp] theorem State.modCore_tlZero (s : State) (c : Nat) (f : Core → Core) : (s.modCore c f).tlZero = s.tlZero := rfl
@[simp] theorem State.modCore_cc (s : State) (c : Nat) (f : Core → Core) : (s.modCore c f).cc = s.cc := rfl
@[simp] theorem State.modCore_time (s : State) (c : Nat) (f : Core → Core) : (s.modCore c f).time = s.time := rfl
@[simp] theorem State.modCore_lag (s : State) (c : Nat) (f : Core → Core) : (s.modCore c f).lag = s.lag := rfl
@[simp] theorem State.modCore_corrected (s : State) (c : Nat) (f : Core → Core) : (s.modCore c f).corrected = s.corrected := rfl
@[simp] theorem State.modCore_adjust (s : State) (c : Nat) (f : Core → Core) : (s.modCore c f).adjust = s.adjust := rfl
@[simp] theorem State.modCore_ticked (s : State) (c : Nat) (f : Core → Core) : (s.modCore c f).ticked = s.ticked := rfl
@[simp] theorem State.modCore_ttFrac (s : State) (c : Nat) (f : Core → Core) : (s.modCore c f).ttFrac = s.ttFrac := rfl
@[simp] theorem State.modCore_keepTlb (s : State) (c : Nat) (f : Core → Core) : (s.modCore c f).keepTlb = s.keepTlb := rfl
@[simp] theorem State.modCore_late (s : State) (c : Nat) (f : Core → Core) : (s.modCore c f).late = s.late := rfl
@[simp] theorem State.modCore_turn (s : State) (c : Nat) (f : Core → Core) : (s.modCore c f).turn = s.turn := rfl
@[simp] theorem State.modCore_agenda (s : State) (c : Nat) (f : Core → Core) : (s.modCore c f).agenda = s.agenda := rfl
@[simp] theorem State.modCore_unit (s : State) (c : Nat) (f : Core → Core) : (s.modCore c f).unit = s.unit := rfl
@[simp] theorem State.modCore_free (s : State) (c : Nat) (f : Core → Core) : (s.modCore c f).free = s.free := rfl

/-! ### modQuad -/

@[simp] theorem State.modQuad_cores (s : State) (q : Nat) (f : Quad → Quad) : (s.modQuad q f).cores = s.cores := rfl
@[simp] theorem State.modQuad_mem (s : State) (q : Nat) (f : Quad → Quad) : (s.modQuad q f).mem = s.mem := rfl
@[simp] theorem State.modQuad_cluster (s : State) (q : Nat) (f : Quad → Quad) : (s.modQuad q f).cluster = s.cluster := rfl
@[simp] theorem State.modQuad_clusBad (s : State) (q : Nat) (f : Quad → Quad) : (s.modQuad q f).clusBad = s.clusBad := rfl
@[simp] theorem State.modQuad_dies (s : State) (q : Nat) (f : Quad → Quad) : (s.modQuad q f).dies = s.dies := rfl
@[simp] theorem State.modQuad_parts (s : State) (q : Nat) (f : Quad → Quad) : (s.modQuad q f).parts = s.parts := rfl
@[simp] theorem State.modQuad_slots (s : State) (q : Nat) (f : Quad → Quad) : (s.modQuad q f).slots = s.slots := rfl
@[simp] theorem State.modQuad_contracts (s : State) (q : Nat) (f : Quad → Quad) : (s.modQuad q f).contracts = s.contracts := rfl
@[simp] theorem State.modQuad_exports (s : State) (q : Nat) (f : Quad → Quad) : (s.modQuad q f).exports = s.exports := rfl
@[simp] theorem State.modQuad_withdrawn (s : State) (q : Nat) (f : Quad → Quad) : (s.modQuad q f).withdrawn = s.withdrawn := rfl
@[simp] theorem State.modQuad_domains (s : State) (q : Nat) (f : Quad → Quad) : (s.modQuad q f).domains = s.domains := rfl
@[simp] theorem State.modQuad_regions (s : State) (q : Nat) (f : Quad → Quad) : (s.modQuad q f).regions = s.regions := rfl
@[simp] theorem State.modQuad_relTime (s : State) (q : Nat) (f : Quad → Quad) : (s.modQuad q f).relTime = s.relTime := rfl
@[simp] theorem State.modQuad_relKv (s : State) (q : Nat) (f : Quad → Quad) : (s.modQuad q f).relKv = s.relKv := rfl
@[simp] theorem State.modQuad_barTurn (s : State) (q : Nat) (f : Quad → Quad) : (s.modQuad q f).barTurn = s.barTurn := rfl
@[simp] theorem State.modQuad_sent (s : State) (q : Nat) (f : Quad → Quad) : (s.modQuad q f).sent = s.sent := rfl
@[simp] theorem State.modQuad_cmdNext (s : State) (q : Nat) (f : Quad → Quad) : (s.modQuad q f).cmdNext = s.cmdNext := rfl
@[simp] theorem State.modQuad_performed (s : State) (q : Nat) (f : Quad → Quad) : (s.modQuad q f).performed = s.performed := rfl
@[simp] theorem State.modQuad_hubSeq (s : State) (q : Nat) (f : Quad → Quad) : (s.modQuad q f).hubSeq = s.hubSeq := rfl
@[simp] theorem State.modQuad_barOwner (s : State) (q : Nat) (f : Quad → Quad) : (s.modQuad q f).barOwner = s.barOwner := rfl
@[simp] theorem State.modQuad_lineErr (s : State) (q : Nat) (f : Quad → Quad) : (s.modQuad q f).lineErr = s.lineErr := rfl
@[simp] theorem State.modQuad_poison (s : State) (q : Nat) (f : Quad → Quad) : (s.modQuad q f).poison = s.poison := rfl
@[simp] theorem State.modQuad_lineSeq (s : State) (q : Nat) (f : Quad → Quad) : (s.modQuad q f).lineSeq = s.lineSeq := rfl
@[simp] theorem State.modQuad_scrub (s : State) (q : Nat) (f : Quad → Quad) : (s.modQuad q f).scrub = s.scrub := rfl
@[simp] theorem State.modQuad_scrubAt (s : State) (q : Nat) (f : Quad → Quad) : (s.modQuad q f).scrubAt = s.scrubAt := rfl
@[simp] theorem State.modQuad_senders (s : State) (q : Nat) (f : Quad → Quad) : (s.modQuad q f).senders = s.senders := rfl
@[simp] theorem State.modQuad_enqueued (s : State) (q : Nat) (f : Quad → Quad) : (s.modQuad q f).enqueued = s.enqueued := rfl
@[simp] theorem State.modQuad_power (s : State) (q : Nat) (f : Quad → Quad) : (s.modQuad q f).power = s.power := rfl
@[simp] theorem State.modQuad_hub (s : State) (q : Nat) (f : Quad → Quad) : (s.modQuad q f).hub = s.hub := rfl
@[simp] theorem State.modQuad_pod (s : State) (q : Nat) (f : Quad → Quad) : (s.modQuad q f).pod = s.pod := rfl
@[simp] theorem State.modQuad_tlZero (s : State) (q : Nat) (f : Quad → Quad) : (s.modQuad q f).tlZero = s.tlZero := rfl
@[simp] theorem State.modQuad_cc (s : State) (q : Nat) (f : Quad → Quad) : (s.modQuad q f).cc = s.cc := rfl
@[simp] theorem State.modQuad_time (s : State) (q : Nat) (f : Quad → Quad) : (s.modQuad q f).time = s.time := rfl
@[simp] theorem State.modQuad_lag (s : State) (q : Nat) (f : Quad → Quad) : (s.modQuad q f).lag = s.lag := rfl
@[simp] theorem State.modQuad_corrected (s : State) (q : Nat) (f : Quad → Quad) : (s.modQuad q f).corrected = s.corrected := rfl
@[simp] theorem State.modQuad_adjust (s : State) (q : Nat) (f : Quad → Quad) : (s.modQuad q f).adjust = s.adjust := rfl
@[simp] theorem State.modQuad_ticked (s : State) (q : Nat) (f : Quad → Quad) : (s.modQuad q f).ticked = s.ticked := rfl
@[simp] theorem State.modQuad_ttFrac (s : State) (q : Nat) (f : Quad → Quad) : (s.modQuad q f).ttFrac = s.ttFrac := rfl
@[simp] theorem State.modQuad_keepTlb (s : State) (q : Nat) (f : Quad → Quad) : (s.modQuad q f).keepTlb = s.keepTlb := rfl
@[simp] theorem State.modQuad_late (s : State) (q : Nat) (f : Quad → Quad) : (s.modQuad q f).late = s.late := rfl
@[simp] theorem State.modQuad_turn (s : State) (q : Nat) (f : Quad → Quad) : (s.modQuad q f).turn = s.turn := rfl
@[simp] theorem State.modQuad_agenda (s : State) (q : Nat) (f : Quad → Quad) : (s.modQuad q f).agenda = s.agenda := rfl
@[simp] theorem State.modQuad_unit (s : State) (q : Nat) (f : Quad → Quad) : (s.modQuad q f).unit = s.unit := rfl
@[simp] theorem State.modQuad_free (s : State) (q : Nat) (f : Quad → Quad) : (s.modQuad q f).free = s.free := rfl

/-! ### modPart -/

@[simp] theorem State.modPart_cores (s : State) (o : Nat) (f : Part → Part) : (s.modPart o f).cores = s.cores := rfl
@[simp] theorem State.modPart_mem (s : State) (o : Nat) (f : Part → Part) : (s.modPart o f).mem = s.mem := rfl
@[simp] theorem State.modPart_cluster (s : State) (o : Nat) (f : Part → Part) : (s.modPart o f).cluster = s.cluster := rfl
@[simp] theorem State.modPart_clusBad (s : State) (o : Nat) (f : Part → Part) : (s.modPart o f).clusBad = s.clusBad := rfl
@[simp] theorem State.modPart_quads (s : State) (o : Nat) (f : Part → Part) : (s.modPart o f).quads = s.quads := rfl
@[simp] theorem State.modPart_dies (s : State) (o : Nat) (f : Part → Part) : (s.modPart o f).dies = s.dies := rfl
@[simp] theorem State.modPart_slots (s : State) (o : Nat) (f : Part → Part) : (s.modPart o f).slots = s.slots := rfl
@[simp] theorem State.modPart_contracts (s : State) (o : Nat) (f : Part → Part) : (s.modPart o f).contracts = s.contracts := rfl
@[simp] theorem State.modPart_exports (s : State) (o : Nat) (f : Part → Part) : (s.modPart o f).exports = s.exports := rfl
@[simp] theorem State.modPart_withdrawn (s : State) (o : Nat) (f : Part → Part) : (s.modPart o f).withdrawn = s.withdrawn := rfl
@[simp] theorem State.modPart_domains (s : State) (o : Nat) (f : Part → Part) : (s.modPart o f).domains = s.domains := rfl
@[simp] theorem State.modPart_regions (s : State) (o : Nat) (f : Part → Part) : (s.modPart o f).regions = s.regions := rfl
@[simp] theorem State.modPart_relTime (s : State) (o : Nat) (f : Part → Part) : (s.modPart o f).relTime = s.relTime := rfl
@[simp] theorem State.modPart_relKv (s : State) (o : Nat) (f : Part → Part) : (s.modPart o f).relKv = s.relKv := rfl
@[simp] theorem State.modPart_barTurn (s : State) (o : Nat) (f : Part → Part) : (s.modPart o f).barTurn = s.barTurn := rfl
@[simp] theorem State.modPart_sent (s : State) (o : Nat) (f : Part → Part) : (s.modPart o f).sent = s.sent := rfl
@[simp] theorem State.modPart_cmdNext (s : State) (o : Nat) (f : Part → Part) : (s.modPart o f).cmdNext = s.cmdNext := rfl
@[simp] theorem State.modPart_performed (s : State) (o : Nat) (f : Part → Part) : (s.modPart o f).performed = s.performed := rfl
@[simp] theorem State.modPart_hubSeq (s : State) (o : Nat) (f : Part → Part) : (s.modPart o f).hubSeq = s.hubSeq := rfl
@[simp] theorem State.modPart_barOwner (s : State) (o : Nat) (f : Part → Part) : (s.modPart o f).barOwner = s.barOwner := rfl
@[simp] theorem State.modPart_lineErr (s : State) (o : Nat) (f : Part → Part) : (s.modPart o f).lineErr = s.lineErr := rfl
@[simp] theorem State.modPart_poison (s : State) (o : Nat) (f : Part → Part) : (s.modPart o f).poison = s.poison := rfl
@[simp] theorem State.modPart_lineSeq (s : State) (o : Nat) (f : Part → Part) : (s.modPart o f).lineSeq = s.lineSeq := rfl
@[simp] theorem State.modPart_scrub (s : State) (o : Nat) (f : Part → Part) : (s.modPart o f).scrub = s.scrub := rfl
@[simp] theorem State.modPart_scrubAt (s : State) (o : Nat) (f : Part → Part) : (s.modPart o f).scrubAt = s.scrubAt := rfl
@[simp] theorem State.modPart_senders (s : State) (o : Nat) (f : Part → Part) : (s.modPart o f).senders = s.senders := rfl
@[simp] theorem State.modPart_enqueued (s : State) (o : Nat) (f : Part → Part) : (s.modPart o f).enqueued = s.enqueued := rfl
@[simp] theorem State.modPart_power (s : State) (o : Nat) (f : Part → Part) : (s.modPart o f).power = s.power := rfl
@[simp] theorem State.modPart_hub (s : State) (o : Nat) (f : Part → Part) : (s.modPart o f).hub = s.hub := rfl
@[simp] theorem State.modPart_pod (s : State) (o : Nat) (f : Part → Part) : (s.modPart o f).pod = s.pod := rfl
@[simp] theorem State.modPart_tlZero (s : State) (o : Nat) (f : Part → Part) : (s.modPart o f).tlZero = s.tlZero := rfl
@[simp] theorem State.modPart_cc (s : State) (o : Nat) (f : Part → Part) : (s.modPart o f).cc = s.cc := rfl
@[simp] theorem State.modPart_time (s : State) (o : Nat) (f : Part → Part) : (s.modPart o f).time = s.time := rfl
@[simp] theorem State.modPart_lag (s : State) (o : Nat) (f : Part → Part) : (s.modPart o f).lag = s.lag := rfl
@[simp] theorem State.modPart_corrected (s : State) (o : Nat) (f : Part → Part) : (s.modPart o f).corrected = s.corrected := rfl
@[simp] theorem State.modPart_adjust (s : State) (o : Nat) (f : Part → Part) : (s.modPart o f).adjust = s.adjust := rfl
@[simp] theorem State.modPart_ticked (s : State) (o : Nat) (f : Part → Part) : (s.modPart o f).ticked = s.ticked := rfl
@[simp] theorem State.modPart_ttFrac (s : State) (o : Nat) (f : Part → Part) : (s.modPart o f).ttFrac = s.ttFrac := rfl
@[simp] theorem State.modPart_keepTlb (s : State) (o : Nat) (f : Part → Part) : (s.modPart o f).keepTlb = s.keepTlb := rfl
@[simp] theorem State.modPart_late (s : State) (o : Nat) (f : Part → Part) : (s.modPart o f).late = s.late := rfl
@[simp] theorem State.modPart_turn (s : State) (o : Nat) (f : Part → Part) : (s.modPart o f).turn = s.turn := rfl
@[simp] theorem State.modPart_agenda (s : State) (o : Nat) (f : Part → Part) : (s.modPart o f).agenda = s.agenda := rfl
@[simp] theorem State.modPart_unit (s : State) (o : Nat) (f : Part → Part) : (s.modPart o f).unit = s.unit := rfl
@[simp] theorem State.modPart_free (s : State) (o : Nat) (f : Part → Part) : (s.modPart o f).free = s.free := rfl

/-! ### modDie -/

@[simp] theorem State.modDie_cores (s : State) (d : Nat) (f : Die → Die) : (s.modDie d f).cores = s.cores := rfl
@[simp] theorem State.modDie_mem (s : State) (d : Nat) (f : Die → Die) : (s.modDie d f).mem = s.mem := rfl
@[simp] theorem State.modDie_cluster (s : State) (d : Nat) (f : Die → Die) : (s.modDie d f).cluster = s.cluster := rfl
@[simp] theorem State.modDie_clusBad (s : State) (d : Nat) (f : Die → Die) : (s.modDie d f).clusBad = s.clusBad := rfl
@[simp] theorem State.modDie_quads (s : State) (d : Nat) (f : Die → Die) : (s.modDie d f).quads = s.quads := rfl
@[simp] theorem State.modDie_parts (s : State) (d : Nat) (f : Die → Die) : (s.modDie d f).parts = s.parts := rfl
@[simp] theorem State.modDie_slots (s : State) (d : Nat) (f : Die → Die) : (s.modDie d f).slots = s.slots := rfl
@[simp] theorem State.modDie_contracts (s : State) (d : Nat) (f : Die → Die) : (s.modDie d f).contracts = s.contracts := rfl
@[simp] theorem State.modDie_exports (s : State) (d : Nat) (f : Die → Die) : (s.modDie d f).exports = s.exports := rfl
@[simp] theorem State.modDie_withdrawn (s : State) (d : Nat) (f : Die → Die) : (s.modDie d f).withdrawn = s.withdrawn := rfl
@[simp] theorem State.modDie_domains (s : State) (d : Nat) (f : Die → Die) : (s.modDie d f).domains = s.domains := rfl
@[simp] theorem State.modDie_regions (s : State) (d : Nat) (f : Die → Die) : (s.modDie d f).regions = s.regions := rfl
@[simp] theorem State.modDie_relTime (s : State) (d : Nat) (f : Die → Die) : (s.modDie d f).relTime = s.relTime := rfl
@[simp] theorem State.modDie_relKv (s : State) (d : Nat) (f : Die → Die) : (s.modDie d f).relKv = s.relKv := rfl
@[simp] theorem State.modDie_barTurn (s : State) (d : Nat) (f : Die → Die) : (s.modDie d f).barTurn = s.barTurn := rfl
@[simp] theorem State.modDie_sent (s : State) (d : Nat) (f : Die → Die) : (s.modDie d f).sent = s.sent := rfl
@[simp] theorem State.modDie_cmdNext (s : State) (d : Nat) (f : Die → Die) : (s.modDie d f).cmdNext = s.cmdNext := rfl
@[simp] theorem State.modDie_performed (s : State) (d : Nat) (f : Die → Die) : (s.modDie d f).performed = s.performed := rfl
@[simp] theorem State.modDie_hubSeq (s : State) (d : Nat) (f : Die → Die) : (s.modDie d f).hubSeq = s.hubSeq := rfl
@[simp] theorem State.modDie_barOwner (s : State) (d : Nat) (f : Die → Die) : (s.modDie d f).barOwner = s.barOwner := rfl
@[simp] theorem State.modDie_lineErr (s : State) (d : Nat) (f : Die → Die) : (s.modDie d f).lineErr = s.lineErr := rfl
@[simp] theorem State.modDie_poison (s : State) (d : Nat) (f : Die → Die) : (s.modDie d f).poison = s.poison := rfl
@[simp] theorem State.modDie_lineSeq (s : State) (d : Nat) (f : Die → Die) : (s.modDie d f).lineSeq = s.lineSeq := rfl
@[simp] theorem State.modDie_scrub (s : State) (d : Nat) (f : Die → Die) : (s.modDie d f).scrub = s.scrub := rfl
@[simp] theorem State.modDie_scrubAt (s : State) (d : Nat) (f : Die → Die) : (s.modDie d f).scrubAt = s.scrubAt := rfl
@[simp] theorem State.modDie_senders (s : State) (d : Nat) (f : Die → Die) : (s.modDie d f).senders = s.senders := rfl
@[simp] theorem State.modDie_enqueued (s : State) (d : Nat) (f : Die → Die) : (s.modDie d f).enqueued = s.enqueued := rfl
@[simp] theorem State.modDie_power (s : State) (d : Nat) (f : Die → Die) : (s.modDie d f).power = s.power := rfl
@[simp] theorem State.modDie_hub (s : State) (d : Nat) (f : Die → Die) : (s.modDie d f).hub = s.hub := rfl
@[simp] theorem State.modDie_pod (s : State) (d : Nat) (f : Die → Die) : (s.modDie d f).pod = s.pod := rfl
@[simp] theorem State.modDie_tlZero (s : State) (d : Nat) (f : Die → Die) : (s.modDie d f).tlZero = s.tlZero := rfl
@[simp] theorem State.modDie_cc (s : State) (d : Nat) (f : Die → Die) : (s.modDie d f).cc = s.cc := rfl
@[simp] theorem State.modDie_time (s : State) (d : Nat) (f : Die → Die) : (s.modDie d f).time = s.time := rfl
@[simp] theorem State.modDie_lag (s : State) (d : Nat) (f : Die → Die) : (s.modDie d f).lag = s.lag := rfl
@[simp] theorem State.modDie_corrected (s : State) (d : Nat) (f : Die → Die) : (s.modDie d f).corrected = s.corrected := rfl
@[simp] theorem State.modDie_adjust (s : State) (d : Nat) (f : Die → Die) : (s.modDie d f).adjust = s.adjust := rfl
@[simp] theorem State.modDie_ticked (s : State) (d : Nat) (f : Die → Die) : (s.modDie d f).ticked = s.ticked := rfl
@[simp] theorem State.modDie_ttFrac (s : State) (d : Nat) (f : Die → Die) : (s.modDie d f).ttFrac = s.ttFrac := rfl
@[simp] theorem State.modDie_keepTlb (s : State) (d : Nat) (f : Die → Die) : (s.modDie d f).keepTlb = s.keepTlb := rfl
@[simp] theorem State.modDie_late (s : State) (d : Nat) (f : Die → Die) : (s.modDie d f).late = s.late := rfl
@[simp] theorem State.modDie_turn (s : State) (d : Nat) (f : Die → Die) : (s.modDie d f).turn = s.turn := rfl
@[simp] theorem State.modDie_agenda (s : State) (d : Nat) (f : Die → Die) : (s.modDie d f).agenda = s.agenda := rfl
@[simp] theorem State.modDie_unit (s : State) (d : Nat) (f : Die → Die) : (s.modDie d f).unit = s.unit := rfl
@[simp] theorem State.modDie_free (s : State) (d : Nat) (f : Die → Die) : (s.modDie d f).free = s.free := rfl

/-! ### modSlot -/

@[simp] theorem State.modSlot_cores (s : State) (d n : Nat) (f : Slot → Slot) : (s.modSlot d n f).cores = s.cores := rfl
@[simp] theorem State.modSlot_mem (s : State) (d n : Nat) (f : Slot → Slot) : (s.modSlot d n f).mem = s.mem := rfl
@[simp] theorem State.modSlot_cluster (s : State) (d n : Nat) (f : Slot → Slot) : (s.modSlot d n f).cluster = s.cluster := rfl
@[simp] theorem State.modSlot_clusBad (s : State) (d n : Nat) (f : Slot → Slot) : (s.modSlot d n f).clusBad = s.clusBad := rfl
@[simp] theorem State.modSlot_quads (s : State) (d n : Nat) (f : Slot → Slot) : (s.modSlot d n f).quads = s.quads := rfl
@[simp] theorem State.modSlot_dies (s : State) (d n : Nat) (f : Slot → Slot) : (s.modSlot d n f).dies = s.dies := rfl
@[simp] theorem State.modSlot_parts (s : State) (d n : Nat) (f : Slot → Slot) : (s.modSlot d n f).parts = s.parts := rfl
@[simp] theorem State.modSlot_contracts (s : State) (d n : Nat) (f : Slot → Slot) : (s.modSlot d n f).contracts = s.contracts := rfl
@[simp] theorem State.modSlot_exports (s : State) (d n : Nat) (f : Slot → Slot) : (s.modSlot d n f).exports = s.exports := rfl
@[simp] theorem State.modSlot_withdrawn (s : State) (d n : Nat) (f : Slot → Slot) : (s.modSlot d n f).withdrawn = s.withdrawn := rfl
@[simp] theorem State.modSlot_domains (s : State) (d n : Nat) (f : Slot → Slot) : (s.modSlot d n f).domains = s.domains := rfl
@[simp] theorem State.modSlot_regions (s : State) (d n : Nat) (f : Slot → Slot) : (s.modSlot d n f).regions = s.regions := rfl
@[simp] theorem State.modSlot_relTime (s : State) (d n : Nat) (f : Slot → Slot) : (s.modSlot d n f).relTime = s.relTime := rfl
@[simp] theorem State.modSlot_relKv (s : State) (d n : Nat) (f : Slot → Slot) : (s.modSlot d n f).relKv = s.relKv := rfl
@[simp] theorem State.modSlot_barTurn (s : State) (d n : Nat) (f : Slot → Slot) : (s.modSlot d n f).barTurn = s.barTurn := rfl
@[simp] theorem State.modSlot_sent (s : State) (d n : Nat) (f : Slot → Slot) : (s.modSlot d n f).sent = s.sent := rfl
@[simp] theorem State.modSlot_cmdNext (s : State) (d n : Nat) (f : Slot → Slot) : (s.modSlot d n f).cmdNext = s.cmdNext := rfl
@[simp] theorem State.modSlot_performed (s : State) (d n : Nat) (f : Slot → Slot) : (s.modSlot d n f).performed = s.performed := rfl
@[simp] theorem State.modSlot_hubSeq (s : State) (d n : Nat) (f : Slot → Slot) : (s.modSlot d n f).hubSeq = s.hubSeq := rfl
@[simp] theorem State.modSlot_barOwner (s : State) (d n : Nat) (f : Slot → Slot) : (s.modSlot d n f).barOwner = s.barOwner := rfl
@[simp] theorem State.modSlot_lineErr (s : State) (d n : Nat) (f : Slot → Slot) : (s.modSlot d n f).lineErr = s.lineErr := rfl
@[simp] theorem State.modSlot_poison (s : State) (d n : Nat) (f : Slot → Slot) : (s.modSlot d n f).poison = s.poison := rfl
@[simp] theorem State.modSlot_lineSeq (s : State) (d n : Nat) (f : Slot → Slot) : (s.modSlot d n f).lineSeq = s.lineSeq := rfl
@[simp] theorem State.modSlot_scrub (s : State) (d n : Nat) (f : Slot → Slot) : (s.modSlot d n f).scrub = s.scrub := rfl
@[simp] theorem State.modSlot_scrubAt (s : State) (d n : Nat) (f : Slot → Slot) : (s.modSlot d n f).scrubAt = s.scrubAt := rfl
@[simp] theorem State.modSlot_senders (s : State) (d n : Nat) (f : Slot → Slot) : (s.modSlot d n f).senders = s.senders := rfl
@[simp] theorem State.modSlot_enqueued (s : State) (d n : Nat) (f : Slot → Slot) : (s.modSlot d n f).enqueued = s.enqueued := rfl
@[simp] theorem State.modSlot_power (s : State) (d n : Nat) (f : Slot → Slot) : (s.modSlot d n f).power = s.power := rfl
@[simp] theorem State.modSlot_hub (s : State) (d n : Nat) (f : Slot → Slot) : (s.modSlot d n f).hub = s.hub := rfl
@[simp] theorem State.modSlot_pod (s : State) (d n : Nat) (f : Slot → Slot) : (s.modSlot d n f).pod = s.pod := rfl
@[simp] theorem State.modSlot_tlZero (s : State) (d n : Nat) (f : Slot → Slot) : (s.modSlot d n f).tlZero = s.tlZero := rfl
@[simp] theorem State.modSlot_cc (s : State) (d n : Nat) (f : Slot → Slot) : (s.modSlot d n f).cc = s.cc := rfl
@[simp] theorem State.modSlot_time (s : State) (d n : Nat) (f : Slot → Slot) : (s.modSlot d n f).time = s.time := rfl
@[simp] theorem State.modSlot_lag (s : State) (d n : Nat) (f : Slot → Slot) : (s.modSlot d n f).lag = s.lag := rfl
@[simp] theorem State.modSlot_corrected (s : State) (d n : Nat) (f : Slot → Slot) : (s.modSlot d n f).corrected = s.corrected := rfl
@[simp] theorem State.modSlot_adjust (s : State) (d n : Nat) (f : Slot → Slot) : (s.modSlot d n f).adjust = s.adjust := rfl
@[simp] theorem State.modSlot_ticked (s : State) (d n : Nat) (f : Slot → Slot) : (s.modSlot d n f).ticked = s.ticked := rfl
@[simp] theorem State.modSlot_ttFrac (s : State) (d n : Nat) (f : Slot → Slot) : (s.modSlot d n f).ttFrac = s.ttFrac := rfl
@[simp] theorem State.modSlot_keepTlb (s : State) (d n : Nat) (f : Slot → Slot) : (s.modSlot d n f).keepTlb = s.keepTlb := rfl
@[simp] theorem State.modSlot_late (s : State) (d n : Nat) (f : Slot → Slot) : (s.modSlot d n f).late = s.late := rfl
@[simp] theorem State.modSlot_turn (s : State) (d n : Nat) (f : Slot → Slot) : (s.modSlot d n f).turn = s.turn := rfl
@[simp] theorem State.modSlot_agenda (s : State) (d n : Nat) (f : Slot → Slot) : (s.modSlot d n f).agenda = s.agenda := rfl
@[simp] theorem State.modSlot_unit (s : State) (d n : Nat) (f : Slot → Slot) : (s.modSlot d n f).unit = s.unit := rfl
@[simp] theorem State.modSlot_free (s : State) (d n : Nat) (f : Slot → Slot) : (s.modSlot d n f).free = s.free := rfl

/-! ### modContract -/

@[simp] theorem State.modContract_cores (s : State) (d n : Nat) (f : Contract → Contract) : (s.modContract d n f).cores = s.cores := rfl
@[simp] theorem State.modContract_mem (s : State) (d n : Nat) (f : Contract → Contract) : (s.modContract d n f).mem = s.mem := rfl
@[simp] theorem State.modContract_cluster (s : State) (d n : Nat) (f : Contract → Contract) : (s.modContract d n f).cluster = s.cluster := rfl
@[simp] theorem State.modContract_clusBad (s : State) (d n : Nat) (f : Contract → Contract) : (s.modContract d n f).clusBad = s.clusBad := rfl
@[simp] theorem State.modContract_quads (s : State) (d n : Nat) (f : Contract → Contract) : (s.modContract d n f).quads = s.quads := rfl
@[simp] theorem State.modContract_dies (s : State) (d n : Nat) (f : Contract → Contract) : (s.modContract d n f).dies = s.dies := rfl
@[simp] theorem State.modContract_parts (s : State) (d n : Nat) (f : Contract → Contract) : (s.modContract d n f).parts = s.parts := rfl
@[simp] theorem State.modContract_slots (s : State) (d n : Nat) (f : Contract → Contract) : (s.modContract d n f).slots = s.slots := rfl
@[simp] theorem State.modContract_exports (s : State) (d n : Nat) (f : Contract → Contract) : (s.modContract d n f).exports = s.exports := rfl
@[simp] theorem State.modContract_withdrawn (s : State) (d n : Nat) (f : Contract → Contract) : (s.modContract d n f).withdrawn = s.withdrawn := rfl
@[simp] theorem State.modContract_domains (s : State) (d n : Nat) (f : Contract → Contract) : (s.modContract d n f).domains = s.domains := rfl
@[simp] theorem State.modContract_regions (s : State) (d n : Nat) (f : Contract → Contract) : (s.modContract d n f).regions = s.regions := rfl
@[simp] theorem State.modContract_relTime (s : State) (d n : Nat) (f : Contract → Contract) : (s.modContract d n f).relTime = s.relTime := rfl
@[simp] theorem State.modContract_relKv (s : State) (d n : Nat) (f : Contract → Contract) : (s.modContract d n f).relKv = s.relKv := rfl
@[simp] theorem State.modContract_barTurn (s : State) (d n : Nat) (f : Contract → Contract) : (s.modContract d n f).barTurn = s.barTurn := rfl
@[simp] theorem State.modContract_sent (s : State) (d n : Nat) (f : Contract → Contract) : (s.modContract d n f).sent = s.sent := rfl
@[simp] theorem State.modContract_cmdNext (s : State) (d n : Nat) (f : Contract → Contract) : (s.modContract d n f).cmdNext = s.cmdNext := rfl
@[simp] theorem State.modContract_performed (s : State) (d n : Nat) (f : Contract → Contract) : (s.modContract d n f).performed = s.performed := rfl
@[simp] theorem State.modContract_hubSeq (s : State) (d n : Nat) (f : Contract → Contract) : (s.modContract d n f).hubSeq = s.hubSeq := rfl
@[simp] theorem State.modContract_barOwner (s : State) (d n : Nat) (f : Contract → Contract) : (s.modContract d n f).barOwner = s.barOwner := rfl
@[simp] theorem State.modContract_lineErr (s : State) (d n : Nat) (f : Contract → Contract) : (s.modContract d n f).lineErr = s.lineErr := rfl
@[simp] theorem State.modContract_poison (s : State) (d n : Nat) (f : Contract → Contract) : (s.modContract d n f).poison = s.poison := rfl
@[simp] theorem State.modContract_lineSeq (s : State) (d n : Nat) (f : Contract → Contract) : (s.modContract d n f).lineSeq = s.lineSeq := rfl
@[simp] theorem State.modContract_scrub (s : State) (d n : Nat) (f : Contract → Contract) : (s.modContract d n f).scrub = s.scrub := rfl
@[simp] theorem State.modContract_scrubAt (s : State) (d n : Nat) (f : Contract → Contract) : (s.modContract d n f).scrubAt = s.scrubAt := rfl
@[simp] theorem State.modContract_senders (s : State) (d n : Nat) (f : Contract → Contract) : (s.modContract d n f).senders = s.senders := rfl
@[simp] theorem State.modContract_enqueued (s : State) (d n : Nat) (f : Contract → Contract) : (s.modContract d n f).enqueued = s.enqueued := rfl
@[simp] theorem State.modContract_power (s : State) (d n : Nat) (f : Contract → Contract) : (s.modContract d n f).power = s.power := rfl
@[simp] theorem State.modContract_hub (s : State) (d n : Nat) (f : Contract → Contract) : (s.modContract d n f).hub = s.hub := rfl
@[simp] theorem State.modContract_pod (s : State) (d n : Nat) (f : Contract → Contract) : (s.modContract d n f).pod = s.pod := rfl
@[simp] theorem State.modContract_tlZero (s : State) (d n : Nat) (f : Contract → Contract) : (s.modContract d n f).tlZero = s.tlZero := rfl
@[simp] theorem State.modContract_cc (s : State) (d n : Nat) (f : Contract → Contract) : (s.modContract d n f).cc = s.cc := rfl
@[simp] theorem State.modContract_time (s : State) (d n : Nat) (f : Contract → Contract) : (s.modContract d n f).time = s.time := rfl
@[simp] theorem State.modContract_lag (s : State) (d n : Nat) (f : Contract → Contract) : (s.modContract d n f).lag = s.lag := rfl
@[simp] theorem State.modContract_corrected (s : State) (d n : Nat) (f : Contract → Contract) : (s.modContract d n f).corrected = s.corrected := rfl
@[simp] theorem State.modContract_adjust (s : State) (d n : Nat) (f : Contract → Contract) : (s.modContract d n f).adjust = s.adjust := rfl
@[simp] theorem State.modContract_ticked (s : State) (d n : Nat) (f : Contract → Contract) : (s.modContract d n f).ticked = s.ticked := rfl
@[simp] theorem State.modContract_ttFrac (s : State) (d n : Nat) (f : Contract → Contract) : (s.modContract d n f).ttFrac = s.ttFrac := rfl
@[simp] theorem State.modContract_keepTlb (s : State) (d n : Nat) (f : Contract → Contract) : (s.modContract d n f).keepTlb = s.keepTlb := rfl
@[simp] theorem State.modContract_late (s : State) (d n : Nat) (f : Contract → Contract) : (s.modContract d n f).late = s.late := rfl
@[simp] theorem State.modContract_turn (s : State) (d n : Nat) (f : Contract → Contract) : (s.modContract d n f).turn = s.turn := rfl
@[simp] theorem State.modContract_agenda (s : State) (d n : Nat) (f : Contract → Contract) : (s.modContract d n f).agenda = s.agenda := rfl
@[simp] theorem State.modContract_unit (s : State) (d n : Nat) (f : Contract → Contract) : (s.modContract d n f).unit = s.unit := rfl
@[simp] theorem State.modContract_free (s : State) (d n : Nat) (f : Contract → Contract) : (s.modContract d n f).free = s.free := rfl

/-! ### modRegion -/

@[simp] theorem State.modRegion_cores (s : State) (i : Nat) (f : Region → Region) : (s.modRegion i f).cores = s.cores := rfl
@[simp] theorem State.modRegion_mem (s : State) (i : Nat) (f : Region → Region) : (s.modRegion i f).mem = s.mem := rfl
@[simp] theorem State.modRegion_cluster (s : State) (i : Nat) (f : Region → Region) : (s.modRegion i f).cluster = s.cluster := rfl
@[simp] theorem State.modRegion_clusBad (s : State) (i : Nat) (f : Region → Region) : (s.modRegion i f).clusBad = s.clusBad := rfl
@[simp] theorem State.modRegion_quads (s : State) (i : Nat) (f : Region → Region) : (s.modRegion i f).quads = s.quads := rfl
@[simp] theorem State.modRegion_dies (s : State) (i : Nat) (f : Region → Region) : (s.modRegion i f).dies = s.dies := rfl
@[simp] theorem State.modRegion_parts (s : State) (i : Nat) (f : Region → Region) : (s.modRegion i f).parts = s.parts := rfl
@[simp] theorem State.modRegion_slots (s : State) (i : Nat) (f : Region → Region) : (s.modRegion i f).slots = s.slots := rfl
@[simp] theorem State.modRegion_contracts (s : State) (i : Nat) (f : Region → Region) : (s.modRegion i f).contracts = s.contracts := rfl
@[simp] theorem State.modRegion_exports (s : State) (i : Nat) (f : Region → Region) : (s.modRegion i f).exports = s.exports := rfl
@[simp] theorem State.modRegion_withdrawn (s : State) (i : Nat) (f : Region → Region) : (s.modRegion i f).withdrawn = s.withdrawn := rfl
@[simp] theorem State.modRegion_domains (s : State) (i : Nat) (f : Region → Region) : (s.modRegion i f).domains = s.domains := rfl
@[simp] theorem State.modRegion_relTime (s : State) (i : Nat) (f : Region → Region) : (s.modRegion i f).relTime = s.relTime := rfl
@[simp] theorem State.modRegion_relKv (s : State) (i : Nat) (f : Region → Region) : (s.modRegion i f).relKv = s.relKv := rfl
@[simp] theorem State.modRegion_barTurn (s : State) (i : Nat) (f : Region → Region) : (s.modRegion i f).barTurn = s.barTurn := rfl
@[simp] theorem State.modRegion_sent (s : State) (i : Nat) (f : Region → Region) : (s.modRegion i f).sent = s.sent := rfl
@[simp] theorem State.modRegion_cmdNext (s : State) (i : Nat) (f : Region → Region) : (s.modRegion i f).cmdNext = s.cmdNext := rfl
@[simp] theorem State.modRegion_performed (s : State) (i : Nat) (f : Region → Region) : (s.modRegion i f).performed = s.performed := rfl
@[simp] theorem State.modRegion_hubSeq (s : State) (i : Nat) (f : Region → Region) : (s.modRegion i f).hubSeq = s.hubSeq := rfl
@[simp] theorem State.modRegion_barOwner (s : State) (i : Nat) (f : Region → Region) : (s.modRegion i f).barOwner = s.barOwner := rfl
@[simp] theorem State.modRegion_lineErr (s : State) (i : Nat) (f : Region → Region) : (s.modRegion i f).lineErr = s.lineErr := rfl
@[simp] theorem State.modRegion_poison (s : State) (i : Nat) (f : Region → Region) : (s.modRegion i f).poison = s.poison := rfl
@[simp] theorem State.modRegion_lineSeq (s : State) (i : Nat) (f : Region → Region) : (s.modRegion i f).lineSeq = s.lineSeq := rfl
@[simp] theorem State.modRegion_scrub (s : State) (i : Nat) (f : Region → Region) : (s.modRegion i f).scrub = s.scrub := rfl
@[simp] theorem State.modRegion_scrubAt (s : State) (i : Nat) (f : Region → Region) : (s.modRegion i f).scrubAt = s.scrubAt := rfl
@[simp] theorem State.modRegion_senders (s : State) (i : Nat) (f : Region → Region) : (s.modRegion i f).senders = s.senders := rfl
@[simp] theorem State.modRegion_enqueued (s : State) (i : Nat) (f : Region → Region) : (s.modRegion i f).enqueued = s.enqueued := rfl
@[simp] theorem State.modRegion_power (s : State) (i : Nat) (f : Region → Region) : (s.modRegion i f).power = s.power := rfl
@[simp] theorem State.modRegion_hub (s : State) (i : Nat) (f : Region → Region) : (s.modRegion i f).hub = s.hub := rfl
@[simp] theorem State.modRegion_pod (s : State) (i : Nat) (f : Region → Region) : (s.modRegion i f).pod = s.pod := rfl
@[simp] theorem State.modRegion_tlZero (s : State) (i : Nat) (f : Region → Region) : (s.modRegion i f).tlZero = s.tlZero := rfl
@[simp] theorem State.modRegion_cc (s : State) (i : Nat) (f : Region → Region) : (s.modRegion i f).cc = s.cc := rfl
@[simp] theorem State.modRegion_time (s : State) (i : Nat) (f : Region → Region) : (s.modRegion i f).time = s.time := rfl
@[simp] theorem State.modRegion_lag (s : State) (i : Nat) (f : Region → Region) : (s.modRegion i f).lag = s.lag := rfl
@[simp] theorem State.modRegion_corrected (s : State) (i : Nat) (f : Region → Region) : (s.modRegion i f).corrected = s.corrected := rfl
@[simp] theorem State.modRegion_adjust (s : State) (i : Nat) (f : Region → Region) : (s.modRegion i f).adjust = s.adjust := rfl
@[simp] theorem State.modRegion_ticked (s : State) (i : Nat) (f : Region → Region) : (s.modRegion i f).ticked = s.ticked := rfl
@[simp] theorem State.modRegion_ttFrac (s : State) (i : Nat) (f : Region → Region) : (s.modRegion i f).ttFrac = s.ttFrac := rfl
@[simp] theorem State.modRegion_keepTlb (s : State) (i : Nat) (f : Region → Region) : (s.modRegion i f).keepTlb = s.keepTlb := rfl
@[simp] theorem State.modRegion_late (s : State) (i : Nat) (f : Region → Region) : (s.modRegion i f).late = s.late := rfl
@[simp] theorem State.modRegion_turn (s : State) (i : Nat) (f : Region → Region) : (s.modRegion i f).turn = s.turn := rfl
@[simp] theorem State.modRegion_agenda (s : State) (i : Nat) (f : Region → Region) : (s.modRegion i f).agenda = s.agenda := rfl
@[simp] theorem State.modRegion_unit (s : State) (i : Nat) (f : Region → Region) : (s.modRegion i f).unit = s.unit := rfl
@[simp] theorem State.modRegion_free (s : State) (i : Nat) (f : Region → Region) : (s.modRegion i f).free = s.free := rfl

/-! ### modCtx -/

@[simp] theorem State.modCtx_mem (s : State) (c : Nat) (f : Ctx → Ctx) : (s.modCtx c f).mem = s.mem := rfl
@[simp] theorem State.modCtx_cluster (s : State) (c : Nat) (f : Ctx → Ctx) : (s.modCtx c f).cluster = s.cluster := rfl
@[simp] theorem State.modCtx_clusBad (s : State) (c : Nat) (f : Ctx → Ctx) : (s.modCtx c f).clusBad = s.clusBad := rfl
@[simp] theorem State.modCtx_quads (s : State) (c : Nat) (f : Ctx → Ctx) : (s.modCtx c f).quads = s.quads := rfl
@[simp] theorem State.modCtx_dies (s : State) (c : Nat) (f : Ctx → Ctx) : (s.modCtx c f).dies = s.dies := rfl
@[simp] theorem State.modCtx_parts (s : State) (c : Nat) (f : Ctx → Ctx) : (s.modCtx c f).parts = s.parts := rfl
@[simp] theorem State.modCtx_slots (s : State) (c : Nat) (f : Ctx → Ctx) : (s.modCtx c f).slots = s.slots := rfl
@[simp] theorem State.modCtx_contracts (s : State) (c : Nat) (f : Ctx → Ctx) : (s.modCtx c f).contracts = s.contracts := rfl
@[simp] theorem State.modCtx_exports (s : State) (c : Nat) (f : Ctx → Ctx) : (s.modCtx c f).exports = s.exports := rfl
@[simp] theorem State.modCtx_withdrawn (s : State) (c : Nat) (f : Ctx → Ctx) : (s.modCtx c f).withdrawn = s.withdrawn := rfl
@[simp] theorem State.modCtx_domains (s : State) (c : Nat) (f : Ctx → Ctx) : (s.modCtx c f).domains = s.domains := rfl
@[simp] theorem State.modCtx_regions (s : State) (c : Nat) (f : Ctx → Ctx) : (s.modCtx c f).regions = s.regions := rfl
@[simp] theorem State.modCtx_relTime (s : State) (c : Nat) (f : Ctx → Ctx) : (s.modCtx c f).relTime = s.relTime := rfl
@[simp] theorem State.modCtx_relKv (s : State) (c : Nat) (f : Ctx → Ctx) : (s.modCtx c f).relKv = s.relKv := rfl
@[simp] theorem State.modCtx_barTurn (s : State) (c : Nat) (f : Ctx → Ctx) : (s.modCtx c f).barTurn = s.barTurn := rfl
@[simp] theorem State.modCtx_sent (s : State) (c : Nat) (f : Ctx → Ctx) : (s.modCtx c f).sent = s.sent := rfl
@[simp] theorem State.modCtx_cmdNext (s : State) (c : Nat) (f : Ctx → Ctx) : (s.modCtx c f).cmdNext = s.cmdNext := rfl
@[simp] theorem State.modCtx_performed (s : State) (c : Nat) (f : Ctx → Ctx) : (s.modCtx c f).performed = s.performed := rfl
@[simp] theorem State.modCtx_hubSeq (s : State) (c : Nat) (f : Ctx → Ctx) : (s.modCtx c f).hubSeq = s.hubSeq := rfl
@[simp] theorem State.modCtx_barOwner (s : State) (c : Nat) (f : Ctx → Ctx) : (s.modCtx c f).barOwner = s.barOwner := rfl
@[simp] theorem State.modCtx_lineErr (s : State) (c : Nat) (f : Ctx → Ctx) : (s.modCtx c f).lineErr = s.lineErr := rfl
@[simp] theorem State.modCtx_poison (s : State) (c : Nat) (f : Ctx → Ctx) : (s.modCtx c f).poison = s.poison := rfl
@[simp] theorem State.modCtx_lineSeq (s : State) (c : Nat) (f : Ctx → Ctx) : (s.modCtx c f).lineSeq = s.lineSeq := rfl
@[simp] theorem State.modCtx_scrub (s : State) (c : Nat) (f : Ctx → Ctx) : (s.modCtx c f).scrub = s.scrub := rfl
@[simp] theorem State.modCtx_scrubAt (s : State) (c : Nat) (f : Ctx → Ctx) : (s.modCtx c f).scrubAt = s.scrubAt := rfl
@[simp] theorem State.modCtx_senders (s : State) (c : Nat) (f : Ctx → Ctx) : (s.modCtx c f).senders = s.senders := rfl
@[simp] theorem State.modCtx_enqueued (s : State) (c : Nat) (f : Ctx → Ctx) : (s.modCtx c f).enqueued = s.enqueued := rfl
@[simp] theorem State.modCtx_power (s : State) (c : Nat) (f : Ctx → Ctx) : (s.modCtx c f).power = s.power := rfl
@[simp] theorem State.modCtx_hub (s : State) (c : Nat) (f : Ctx → Ctx) : (s.modCtx c f).hub = s.hub := rfl
@[simp] theorem State.modCtx_pod (s : State) (c : Nat) (f : Ctx → Ctx) : (s.modCtx c f).pod = s.pod := rfl
@[simp] theorem State.modCtx_tlZero (s : State) (c : Nat) (f : Ctx → Ctx) : (s.modCtx c f).tlZero = s.tlZero := rfl
@[simp] theorem State.modCtx_cc (s : State) (c : Nat) (f : Ctx → Ctx) : (s.modCtx c f).cc = s.cc := rfl
@[simp] theorem State.modCtx_time (s : State) (c : Nat) (f : Ctx → Ctx) : (s.modCtx c f).time = s.time := rfl
@[simp] theorem State.modCtx_lag (s : State) (c : Nat) (f : Ctx → Ctx) : (s.modCtx c f).lag = s.lag := rfl
@[simp] theorem State.modCtx_corrected (s : State) (c : Nat) (f : Ctx → Ctx) : (s.modCtx c f).corrected = s.corrected := rfl
@[simp] theorem State.modCtx_adjust (s : State) (c : Nat) (f : Ctx → Ctx) : (s.modCtx c f).adjust = s.adjust := rfl
@[simp] theorem State.modCtx_ticked (s : State) (c : Nat) (f : Ctx → Ctx) : (s.modCtx c f).ticked = s.ticked := rfl
@[simp] theorem State.modCtx_ttFrac (s : State) (c : Nat) (f : Ctx → Ctx) : (s.modCtx c f).ttFrac = s.ttFrac := rfl
@[simp] theorem State.modCtx_keepTlb (s : State) (c : Nat) (f : Ctx → Ctx) : (s.modCtx c f).keepTlb = s.keepTlb := rfl
@[simp] theorem State.modCtx_late (s : State) (c : Nat) (f : Ctx → Ctx) : (s.modCtx c f).late = s.late := rfl
@[simp] theorem State.modCtx_turn (s : State) (c : Nat) (f : Ctx → Ctx) : (s.modCtx c f).turn = s.turn := rfl
@[simp] theorem State.modCtx_agenda (s : State) (c : Nat) (f : Ctx → Ctx) : (s.modCtx c f).agenda = s.agenda := rfl
@[simp] theorem State.modCtx_unit (s : State) (c : Nat) (f : Ctx → Ctx) : (s.modCtx c f).unit = s.unit := rfl
@[simp] theorem State.modCtx_free (s : State) (c : Nat) (f : Ctx → Ctx) : (s.modCtx c f).free = s.free := rfl

/-! ### modSeq -/

@[simp] theorem State.modSeq_mem (s : State) (c : Nat) (sm : Stream) (f : Seq → Seq) : (s.modSeq c sm f).mem = s.mem := rfl
@[simp] theorem State.modSeq_cluster (s : State) (c : Nat) (sm : Stream) (f : Seq → Seq) : (s.modSeq c sm f).cluster = s.cluster := rfl
@[simp] theorem State.modSeq_clusBad (s : State) (c : Nat) (sm : Stream) (f : Seq → Seq) : (s.modSeq c sm f).clusBad = s.clusBad := rfl
@[simp] theorem State.modSeq_quads (s : State) (c : Nat) (sm : Stream) (f : Seq → Seq) : (s.modSeq c sm f).quads = s.quads := rfl
@[simp] theorem State.modSeq_dies (s : State) (c : Nat) (sm : Stream) (f : Seq → Seq) : (s.modSeq c sm f).dies = s.dies := rfl
@[simp] theorem State.modSeq_parts (s : State) (c : Nat) (sm : Stream) (f : Seq → Seq) : (s.modSeq c sm f).parts = s.parts := rfl
@[simp] theorem State.modSeq_slots (s : State) (c : Nat) (sm : Stream) (f : Seq → Seq) : (s.modSeq c sm f).slots = s.slots := rfl
@[simp] theorem State.modSeq_contracts (s : State) (c : Nat) (sm : Stream) (f : Seq → Seq) : (s.modSeq c sm f).contracts = s.contracts := rfl
@[simp] theorem State.modSeq_exports (s : State) (c : Nat) (sm : Stream) (f : Seq → Seq) : (s.modSeq c sm f).exports = s.exports := rfl
@[simp] theorem State.modSeq_withdrawn (s : State) (c : Nat) (sm : Stream) (f : Seq → Seq) : (s.modSeq c sm f).withdrawn = s.withdrawn := rfl
@[simp] theorem State.modSeq_domains (s : State) (c : Nat) (sm : Stream) (f : Seq → Seq) : (s.modSeq c sm f).domains = s.domains := rfl
@[simp] theorem State.modSeq_regions (s : State) (c : Nat) (sm : Stream) (f : Seq → Seq) : (s.modSeq c sm f).regions = s.regions := rfl
@[simp] theorem State.modSeq_relTime (s : State) (c : Nat) (sm : Stream) (f : Seq → Seq) : (s.modSeq c sm f).relTime = s.relTime := rfl
@[simp] theorem State.modSeq_relKv (s : State) (c : Nat) (sm : Stream) (f : Seq → Seq) : (s.modSeq c sm f).relKv = s.relKv := rfl
@[simp] theorem State.modSeq_barTurn (s : State) (c : Nat) (sm : Stream) (f : Seq → Seq) : (s.modSeq c sm f).barTurn = s.barTurn := rfl
@[simp] theorem State.modSeq_sent (s : State) (c : Nat) (sm : Stream) (f : Seq → Seq) : (s.modSeq c sm f).sent = s.sent := rfl
@[simp] theorem State.modSeq_cmdNext (s : State) (c : Nat) (sm : Stream) (f : Seq → Seq) : (s.modSeq c sm f).cmdNext = s.cmdNext := rfl
@[simp] theorem State.modSeq_performed (s : State) (c : Nat) (sm : Stream) (f : Seq → Seq) : (s.modSeq c sm f).performed = s.performed := rfl
@[simp] theorem State.modSeq_hubSeq (s : State) (c : Nat) (sm : Stream) (f : Seq → Seq) : (s.modSeq c sm f).hubSeq = s.hubSeq := rfl
@[simp] theorem State.modSeq_barOwner (s : State) (c : Nat) (sm : Stream) (f : Seq → Seq) : (s.modSeq c sm f).barOwner = s.barOwner := rfl
@[simp] theorem State.modSeq_lineErr (s : State) (c : Nat) (sm : Stream) (f : Seq → Seq) : (s.modSeq c sm f).lineErr = s.lineErr := rfl
@[simp] theorem State.modSeq_poison (s : State) (c : Nat) (sm : Stream) (f : Seq → Seq) : (s.modSeq c sm f).poison = s.poison := rfl
@[simp] theorem State.modSeq_lineSeq (s : State) (c : Nat) (sm : Stream) (f : Seq → Seq) : (s.modSeq c sm f).lineSeq = s.lineSeq := rfl
@[simp] theorem State.modSeq_scrub (s : State) (c : Nat) (sm : Stream) (f : Seq → Seq) : (s.modSeq c sm f).scrub = s.scrub := rfl
@[simp] theorem State.modSeq_scrubAt (s : State) (c : Nat) (sm : Stream) (f : Seq → Seq) : (s.modSeq c sm f).scrubAt = s.scrubAt := rfl
@[simp] theorem State.modSeq_senders (s : State) (c : Nat) (sm : Stream) (f : Seq → Seq) : (s.modSeq c sm f).senders = s.senders := rfl
@[simp] theorem State.modSeq_enqueued (s : State) (c : Nat) (sm : Stream) (f : Seq → Seq) : (s.modSeq c sm f).enqueued = s.enqueued := rfl
@[simp] theorem State.modSeq_power (s : State) (c : Nat) (sm : Stream) (f : Seq → Seq) : (s.modSeq c sm f).power = s.power := rfl
@[simp] theorem State.modSeq_hub (s : State) (c : Nat) (sm : Stream) (f : Seq → Seq) : (s.modSeq c sm f).hub = s.hub := rfl
@[simp] theorem State.modSeq_pod (s : State) (c : Nat) (sm : Stream) (f : Seq → Seq) : (s.modSeq c sm f).pod = s.pod := rfl
@[simp] theorem State.modSeq_tlZero (s : State) (c : Nat) (sm : Stream) (f : Seq → Seq) : (s.modSeq c sm f).tlZero = s.tlZero := rfl
@[simp] theorem State.modSeq_cc (s : State) (c : Nat) (sm : Stream) (f : Seq → Seq) : (s.modSeq c sm f).cc = s.cc := rfl
@[simp] theorem State.modSeq_time (s : State) (c : Nat) (sm : Stream) (f : Seq → Seq) : (s.modSeq c sm f).time = s.time := rfl
@[simp] theorem State.modSeq_lag (s : State) (c : Nat) (sm : Stream) (f : Seq → Seq) : (s.modSeq c sm f).lag = s.lag := rfl
@[simp] theorem State.modSeq_corrected (s : State) (c : Nat) (sm : Stream) (f : Seq → Seq) : (s.modSeq c sm f).corrected = s.corrected := rfl
@[simp] theorem State.modSeq_adjust (s : State) (c : Nat) (sm : Stream) (f : Seq → Seq) : (s.modSeq c sm f).adjust = s.adjust := rfl
@[simp] theorem State.modSeq_ticked (s : State) (c : Nat) (sm : Stream) (f : Seq → Seq) : (s.modSeq c sm f).ticked = s.ticked := rfl
@[simp] theorem State.modSeq_ttFrac (s : State) (c : Nat) (sm : Stream) (f : Seq → Seq) : (s.modSeq c sm f).ttFrac = s.ttFrac := rfl
@[simp] theorem State.modSeq_keepTlb (s : State) (c : Nat) (sm : Stream) (f : Seq → Seq) : (s.modSeq c sm f).keepTlb = s.keepTlb := rfl
@[simp] theorem State.modSeq_late (s : State) (c : Nat) (sm : Stream) (f : Seq → Seq) : (s.modSeq c sm f).late = s.late := rfl
@[simp] theorem State.modSeq_turn (s : State) (c : Nat) (sm : Stream) (f : Seq → Seq) : (s.modSeq c sm f).turn = s.turn := rfl
@[simp] theorem State.modSeq_agenda (s : State) (c : Nat) (sm : Stream) (f : Seq → Seq) : (s.modSeq c sm f).agenda = s.agenda := rfl
@[simp] theorem State.modSeq_unit (s : State) (c : Nat) (sm : Stream) (f : Seq → Seq) : (s.modSeq c sm f).unit = s.unit := rfl
@[simp] theorem State.modSeq_free (s : State) (c : Nat) (sm : Stream) (f : Seq → Seq) : (s.modSeq c sm f).free = s.free := rfl

/-! ### modCr -/

@[simp] theorem State.modCr_mem (s : State) (c : Nat) (f : CtlRegs → CtlRegs) : (s.modCr c f).mem = s.mem := rfl
@[simp] theorem State.modCr_cluster (s : State) (c : Nat) (f : CtlRegs → CtlRegs) : (s.modCr c f).cluster = s.cluster := rfl
@[simp] theorem State.modCr_clusBad (s : State) (c : Nat) (f : CtlRegs → CtlRegs) : (s.modCr c f).clusBad = s.clusBad := rfl
@[simp] theorem State.modCr_quads (s : State) (c : Nat) (f : CtlRegs → CtlRegs) : (s.modCr c f).quads = s.quads := rfl
@[simp] theorem State.modCr_dies (s : State) (c : Nat) (f : CtlRegs → CtlRegs) : (s.modCr c f).dies = s.dies := rfl
@[simp] theorem State.modCr_parts (s : State) (c : Nat) (f : CtlRegs → CtlRegs) : (s.modCr c f).parts = s.parts := rfl
@[simp] theorem State.modCr_slots (s : State) (c : Nat) (f : CtlRegs → CtlRegs) : (s.modCr c f).slots = s.slots := rfl
@[simp] theorem State.modCr_contracts (s : State) (c : Nat) (f : CtlRegs → CtlRegs) : (s.modCr c f).contracts = s.contracts := rfl
@[simp] theorem State.modCr_exports (s : State) (c : Nat) (f : CtlRegs → CtlRegs) : (s.modCr c f).exports = s.exports := rfl
@[simp] theorem State.modCr_withdrawn (s : State) (c : Nat) (f : CtlRegs → CtlRegs) : (s.modCr c f).withdrawn = s.withdrawn := rfl
@[simp] theorem State.modCr_domains (s : State) (c : Nat) (f : CtlRegs → CtlRegs) : (s.modCr c f).domains = s.domains := rfl
@[simp] theorem State.modCr_regions (s : State) (c : Nat) (f : CtlRegs → CtlRegs) : (s.modCr c f).regions = s.regions := rfl
@[simp] theorem State.modCr_relTime (s : State) (c : Nat) (f : CtlRegs → CtlRegs) : (s.modCr c f).relTime = s.relTime := rfl
@[simp] theorem State.modCr_relKv (s : State) (c : Nat) (f : CtlRegs → CtlRegs) : (s.modCr c f).relKv = s.relKv := rfl
@[simp] theorem State.modCr_barTurn (s : State) (c : Nat) (f : CtlRegs → CtlRegs) : (s.modCr c f).barTurn = s.barTurn := rfl
@[simp] theorem State.modCr_sent (s : State) (c : Nat) (f : CtlRegs → CtlRegs) : (s.modCr c f).sent = s.sent := rfl
@[simp] theorem State.modCr_cmdNext (s : State) (c : Nat) (f : CtlRegs → CtlRegs) : (s.modCr c f).cmdNext = s.cmdNext := rfl
@[simp] theorem State.modCr_performed (s : State) (c : Nat) (f : CtlRegs → CtlRegs) : (s.modCr c f).performed = s.performed := rfl
@[simp] theorem State.modCr_hubSeq (s : State) (c : Nat) (f : CtlRegs → CtlRegs) : (s.modCr c f).hubSeq = s.hubSeq := rfl
@[simp] theorem State.modCr_barOwner (s : State) (c : Nat) (f : CtlRegs → CtlRegs) : (s.modCr c f).barOwner = s.barOwner := rfl
@[simp] theorem State.modCr_lineErr (s : State) (c : Nat) (f : CtlRegs → CtlRegs) : (s.modCr c f).lineErr = s.lineErr := rfl
@[simp] theorem State.modCr_poison (s : State) (c : Nat) (f : CtlRegs → CtlRegs) : (s.modCr c f).poison = s.poison := rfl
@[simp] theorem State.modCr_lineSeq (s : State) (c : Nat) (f : CtlRegs → CtlRegs) : (s.modCr c f).lineSeq = s.lineSeq := rfl
@[simp] theorem State.modCr_scrub (s : State) (c : Nat) (f : CtlRegs → CtlRegs) : (s.modCr c f).scrub = s.scrub := rfl
@[simp] theorem State.modCr_scrubAt (s : State) (c : Nat) (f : CtlRegs → CtlRegs) : (s.modCr c f).scrubAt = s.scrubAt := rfl
@[simp] theorem State.modCr_senders (s : State) (c : Nat) (f : CtlRegs → CtlRegs) : (s.modCr c f).senders = s.senders := rfl
@[simp] theorem State.modCr_enqueued (s : State) (c : Nat) (f : CtlRegs → CtlRegs) : (s.modCr c f).enqueued = s.enqueued := rfl
@[simp] theorem State.modCr_power (s : State) (c : Nat) (f : CtlRegs → CtlRegs) : (s.modCr c f).power = s.power := rfl
@[simp] theorem State.modCr_hub (s : State) (c : Nat) (f : CtlRegs → CtlRegs) : (s.modCr c f).hub = s.hub := rfl
@[simp] theorem State.modCr_pod (s : State) (c : Nat) (f : CtlRegs → CtlRegs) : (s.modCr c f).pod = s.pod := rfl
@[simp] theorem State.modCr_tlZero (s : State) (c : Nat) (f : CtlRegs → CtlRegs) : (s.modCr c f).tlZero = s.tlZero := rfl
@[simp] theorem State.modCr_cc (s : State) (c : Nat) (f : CtlRegs → CtlRegs) : (s.modCr c f).cc = s.cc := rfl
@[simp] theorem State.modCr_time (s : State) (c : Nat) (f : CtlRegs → CtlRegs) : (s.modCr c f).time = s.time := rfl
@[simp] theorem State.modCr_lag (s : State) (c : Nat) (f : CtlRegs → CtlRegs) : (s.modCr c f).lag = s.lag := rfl
@[simp] theorem State.modCr_corrected (s : State) (c : Nat) (f : CtlRegs → CtlRegs) : (s.modCr c f).corrected = s.corrected := rfl
@[simp] theorem State.modCr_adjust (s : State) (c : Nat) (f : CtlRegs → CtlRegs) : (s.modCr c f).adjust = s.adjust := rfl
@[simp] theorem State.modCr_ticked (s : State) (c : Nat) (f : CtlRegs → CtlRegs) : (s.modCr c f).ticked = s.ticked := rfl
@[simp] theorem State.modCr_ttFrac (s : State) (c : Nat) (f : CtlRegs → CtlRegs) : (s.modCr c f).ttFrac = s.ttFrac := rfl
@[simp] theorem State.modCr_keepTlb (s : State) (c : Nat) (f : CtlRegs → CtlRegs) : (s.modCr c f).keepTlb = s.keepTlb := rfl
@[simp] theorem State.modCr_late (s : State) (c : Nat) (f : CtlRegs → CtlRegs) : (s.modCr c f).late = s.late := rfl
@[simp] theorem State.modCr_turn (s : State) (c : Nat) (f : CtlRegs → CtlRegs) : (s.modCr c f).turn = s.turn := rfl
@[simp] theorem State.modCr_agenda (s : State) (c : Nat) (f : CtlRegs → CtlRegs) : (s.modCr c f).agenda = s.agenda := rfl
@[simp] theorem State.modCr_unit (s : State) (c : Nat) (f : CtlRegs → CtlRegs) : (s.modCr c f).unit = s.unit := rfl
@[simp] theorem State.modCr_free (s : State) (c : Nat) (f : CtlRegs → CtlRegs) : (s.modCr c f).free = s.free := rfl

/-! ### modLinks -/

@[simp] theorem State.modLinks_mem (s : State) (c : Nat) (f : Links → Links) : (s.modLinks c f).mem = s.mem := rfl
@[simp] theorem State.modLinks_cluster (s : State) (c : Nat) (f : Links → Links) : (s.modLinks c f).cluster = s.cluster := rfl
@[simp] theorem State.modLinks_clusBad (s : State) (c : Nat) (f : Links → Links) : (s.modLinks c f).clusBad = s.clusBad := rfl
@[simp] theorem State.modLinks_quads (s : State) (c : Nat) (f : Links → Links) : (s.modLinks c f).quads = s.quads := rfl
@[simp] theorem State.modLinks_dies (s : State) (c : Nat) (f : Links → Links) : (s.modLinks c f).dies = s.dies := rfl
@[simp] theorem State.modLinks_parts (s : State) (c : Nat) (f : Links → Links) : (s.modLinks c f).parts = s.parts := rfl
@[simp] theorem State.modLinks_slots (s : State) (c : Nat) (f : Links → Links) : (s.modLinks c f).slots = s.slots := rfl
@[simp] theorem State.modLinks_contracts (s : State) (c : Nat) (f : Links → Links) : (s.modLinks c f).contracts = s.contracts := rfl
@[simp] theorem State.modLinks_exports (s : State) (c : Nat) (f : Links → Links) : (s.modLinks c f).exports = s.exports := rfl
@[simp] theorem State.modLinks_withdrawn (s : State) (c : Nat) (f : Links → Links) : (s.modLinks c f).withdrawn = s.withdrawn := rfl
@[simp] theorem State.modLinks_domains (s : State) (c : Nat) (f : Links → Links) : (s.modLinks c f).domains = s.domains := rfl
@[simp] theorem State.modLinks_regions (s : State) (c : Nat) (f : Links → Links) : (s.modLinks c f).regions = s.regions := rfl
@[simp] theorem State.modLinks_relTime (s : State) (c : Nat) (f : Links → Links) : (s.modLinks c f).relTime = s.relTime := rfl
@[simp] theorem State.modLinks_relKv (s : State) (c : Nat) (f : Links → Links) : (s.modLinks c f).relKv = s.relKv := rfl
@[simp] theorem State.modLinks_barTurn (s : State) (c : Nat) (f : Links → Links) : (s.modLinks c f).barTurn = s.barTurn := rfl
@[simp] theorem State.modLinks_sent (s : State) (c : Nat) (f : Links → Links) : (s.modLinks c f).sent = s.sent := rfl
@[simp] theorem State.modLinks_cmdNext (s : State) (c : Nat) (f : Links → Links) : (s.modLinks c f).cmdNext = s.cmdNext := rfl
@[simp] theorem State.modLinks_performed (s : State) (c : Nat) (f : Links → Links) : (s.modLinks c f).performed = s.performed := rfl
@[simp] theorem State.modLinks_hubSeq (s : State) (c : Nat) (f : Links → Links) : (s.modLinks c f).hubSeq = s.hubSeq := rfl
@[simp] theorem State.modLinks_barOwner (s : State) (c : Nat) (f : Links → Links) : (s.modLinks c f).barOwner = s.barOwner := rfl
@[simp] theorem State.modLinks_lineErr (s : State) (c : Nat) (f : Links → Links) : (s.modLinks c f).lineErr = s.lineErr := rfl
@[simp] theorem State.modLinks_poison (s : State) (c : Nat) (f : Links → Links) : (s.modLinks c f).poison = s.poison := rfl
@[simp] theorem State.modLinks_lineSeq (s : State) (c : Nat) (f : Links → Links) : (s.modLinks c f).lineSeq = s.lineSeq := rfl
@[simp] theorem State.modLinks_scrub (s : State) (c : Nat) (f : Links → Links) : (s.modLinks c f).scrub = s.scrub := rfl
@[simp] theorem State.modLinks_scrubAt (s : State) (c : Nat) (f : Links → Links) : (s.modLinks c f).scrubAt = s.scrubAt := rfl
@[simp] theorem State.modLinks_senders (s : State) (c : Nat) (f : Links → Links) : (s.modLinks c f).senders = s.senders := rfl
@[simp] theorem State.modLinks_enqueued (s : State) (c : Nat) (f : Links → Links) : (s.modLinks c f).enqueued = s.enqueued := rfl
@[simp] theorem State.modLinks_power (s : State) (c : Nat) (f : Links → Links) : (s.modLinks c f).power = s.power := rfl
@[simp] theorem State.modLinks_hub (s : State) (c : Nat) (f : Links → Links) : (s.modLinks c f).hub = s.hub := rfl
@[simp] theorem State.modLinks_pod (s : State) (c : Nat) (f : Links → Links) : (s.modLinks c f).pod = s.pod := rfl
@[simp] theorem State.modLinks_tlZero (s : State) (c : Nat) (f : Links → Links) : (s.modLinks c f).tlZero = s.tlZero := rfl
@[simp] theorem State.modLinks_cc (s : State) (c : Nat) (f : Links → Links) : (s.modLinks c f).cc = s.cc := rfl
@[simp] theorem State.modLinks_time (s : State) (c : Nat) (f : Links → Links) : (s.modLinks c f).time = s.time := rfl
@[simp] theorem State.modLinks_lag (s : State) (c : Nat) (f : Links → Links) : (s.modLinks c f).lag = s.lag := rfl
@[simp] theorem State.modLinks_corrected (s : State) (c : Nat) (f : Links → Links) : (s.modLinks c f).corrected = s.corrected := rfl
@[simp] theorem State.modLinks_adjust (s : State) (c : Nat) (f : Links → Links) : (s.modLinks c f).adjust = s.adjust := rfl
@[simp] theorem State.modLinks_ticked (s : State) (c : Nat) (f : Links → Links) : (s.modLinks c f).ticked = s.ticked := rfl
@[simp] theorem State.modLinks_ttFrac (s : State) (c : Nat) (f : Links → Links) : (s.modLinks c f).ttFrac = s.ttFrac := rfl
@[simp] theorem State.modLinks_keepTlb (s : State) (c : Nat) (f : Links → Links) : (s.modLinks c f).keepTlb = s.keepTlb := rfl
@[simp] theorem State.modLinks_late (s : State) (c : Nat) (f : Links → Links) : (s.modLinks c f).late = s.late := rfl
@[simp] theorem State.modLinks_turn (s : State) (c : Nat) (f : Links → Links) : (s.modLinks c f).turn = s.turn := rfl
@[simp] theorem State.modLinks_agenda (s : State) (c : Nat) (f : Links → Links) : (s.modLinks c f).agenda = s.agenda := rfl
@[simp] theorem State.modLinks_unit (s : State) (c : Nat) (f : Links → Links) : (s.modLinks c f).unit = s.unit := rfl
@[simp] theorem State.modLinks_free (s : State) (c : Nat) (f : Links → Links) : (s.modLinks c f).free = s.free := rfl

/-! ### modLoc -/

@[simp] theorem State.modLoc_mem (s : State) (c : Nat) (f : Pieces → Pieces) : (s.modLoc c f).mem = s.mem := rfl
@[simp] theorem State.modLoc_cluster (s : State) (c : Nat) (f : Pieces → Pieces) : (s.modLoc c f).cluster = s.cluster := rfl
@[simp] theorem State.modLoc_clusBad (s : State) (c : Nat) (f : Pieces → Pieces) : (s.modLoc c f).clusBad = s.clusBad := rfl
@[simp] theorem State.modLoc_quads (s : State) (c : Nat) (f : Pieces → Pieces) : (s.modLoc c f).quads = s.quads := rfl
@[simp] theorem State.modLoc_dies (s : State) (c : Nat) (f : Pieces → Pieces) : (s.modLoc c f).dies = s.dies := rfl
@[simp] theorem State.modLoc_parts (s : State) (c : Nat) (f : Pieces → Pieces) : (s.modLoc c f).parts = s.parts := rfl
@[simp] theorem State.modLoc_slots (s : State) (c : Nat) (f : Pieces → Pieces) : (s.modLoc c f).slots = s.slots := rfl
@[simp] theorem State.modLoc_contracts (s : State) (c : Nat) (f : Pieces → Pieces) : (s.modLoc c f).contracts = s.contracts := rfl
@[simp] theorem State.modLoc_exports (s : State) (c : Nat) (f : Pieces → Pieces) : (s.modLoc c f).exports = s.exports := rfl
@[simp] theorem State.modLoc_withdrawn (s : State) (c : Nat) (f : Pieces → Pieces) : (s.modLoc c f).withdrawn = s.withdrawn := rfl
@[simp] theorem State.modLoc_domains (s : State) (c : Nat) (f : Pieces → Pieces) : (s.modLoc c f).domains = s.domains := rfl
@[simp] theorem State.modLoc_regions (s : State) (c : Nat) (f : Pieces → Pieces) : (s.modLoc c f).regions = s.regions := rfl
@[simp] theorem State.modLoc_relTime (s : State) (c : Nat) (f : Pieces → Pieces) : (s.modLoc c f).relTime = s.relTime := rfl
@[simp] theorem State.modLoc_relKv (s : State) (c : Nat) (f : Pieces → Pieces) : (s.modLoc c f).relKv = s.relKv := rfl
@[simp] theorem State.modLoc_barTurn (s : State) (c : Nat) (f : Pieces → Pieces) : (s.modLoc c f).barTurn = s.barTurn := rfl
@[simp] theorem State.modLoc_sent (s : State) (c : Nat) (f : Pieces → Pieces) : (s.modLoc c f).sent = s.sent := rfl
@[simp] theorem State.modLoc_cmdNext (s : State) (c : Nat) (f : Pieces → Pieces) : (s.modLoc c f).cmdNext = s.cmdNext := rfl
@[simp] theorem State.modLoc_performed (s : State) (c : Nat) (f : Pieces → Pieces) : (s.modLoc c f).performed = s.performed := rfl
@[simp] theorem State.modLoc_hubSeq (s : State) (c : Nat) (f : Pieces → Pieces) : (s.modLoc c f).hubSeq = s.hubSeq := rfl
@[simp] theorem State.modLoc_barOwner (s : State) (c : Nat) (f : Pieces → Pieces) : (s.modLoc c f).barOwner = s.barOwner := rfl
@[simp] theorem State.modLoc_lineErr (s : State) (c : Nat) (f : Pieces → Pieces) : (s.modLoc c f).lineErr = s.lineErr := rfl
@[simp] theorem State.modLoc_poison (s : State) (c : Nat) (f : Pieces → Pieces) : (s.modLoc c f).poison = s.poison := rfl
@[simp] theorem State.modLoc_lineSeq (s : State) (c : Nat) (f : Pieces → Pieces) : (s.modLoc c f).lineSeq = s.lineSeq := rfl
@[simp] theorem State.modLoc_scrub (s : State) (c : Nat) (f : Pieces → Pieces) : (s.modLoc c f).scrub = s.scrub := rfl
@[simp] theorem State.modLoc_scrubAt (s : State) (c : Nat) (f : Pieces → Pieces) : (s.modLoc c f).scrubAt = s.scrubAt := rfl
@[simp] theorem State.modLoc_senders (s : State) (c : Nat) (f : Pieces → Pieces) : (s.modLoc c f).senders = s.senders := rfl
@[simp] theorem State.modLoc_enqueued (s : State) (c : Nat) (f : Pieces → Pieces) : (s.modLoc c f).enqueued = s.enqueued := rfl
@[simp] theorem State.modLoc_power (s : State) (c : Nat) (f : Pieces → Pieces) : (s.modLoc c f).power = s.power := rfl
@[simp] theorem State.modLoc_hub (s : State) (c : Nat) (f : Pieces → Pieces) : (s.modLoc c f).hub = s.hub := rfl
@[simp] theorem State.modLoc_pod (s : State) (c : Nat) (f : Pieces → Pieces) : (s.modLoc c f).pod = s.pod := rfl
@[simp] theorem State.modLoc_tlZero (s : State) (c : Nat) (f : Pieces → Pieces) : (s.modLoc c f).tlZero = s.tlZero := rfl
@[simp] theorem State.modLoc_cc (s : State) (c : Nat) (f : Pieces → Pieces) : (s.modLoc c f).cc = s.cc := rfl
@[simp] theorem State.modLoc_time (s : State) (c : Nat) (f : Pieces → Pieces) : (s.modLoc c f).time = s.time := rfl
@[simp] theorem State.modLoc_lag (s : State) (c : Nat) (f : Pieces → Pieces) : (s.modLoc c f).lag = s.lag := rfl
@[simp] theorem State.modLoc_corrected (s : State) (c : Nat) (f : Pieces → Pieces) : (s.modLoc c f).corrected = s.corrected := rfl
@[simp] theorem State.modLoc_adjust (s : State) (c : Nat) (f : Pieces → Pieces) : (s.modLoc c f).adjust = s.adjust := rfl
@[simp] theorem State.modLoc_ticked (s : State) (c : Nat) (f : Pieces → Pieces) : (s.modLoc c f).ticked = s.ticked := rfl
@[simp] theorem State.modLoc_ttFrac (s : State) (c : Nat) (f : Pieces → Pieces) : (s.modLoc c f).ttFrac = s.ttFrac := rfl
@[simp] theorem State.modLoc_keepTlb (s : State) (c : Nat) (f : Pieces → Pieces) : (s.modLoc c f).keepTlb = s.keepTlb := rfl
@[simp] theorem State.modLoc_late (s : State) (c : Nat) (f : Pieces → Pieces) : (s.modLoc c f).late = s.late := rfl
@[simp] theorem State.modLoc_turn (s : State) (c : Nat) (f : Pieces → Pieces) : (s.modLoc c f).turn = s.turn := rfl
@[simp] theorem State.modLoc_agenda (s : State) (c : Nat) (f : Pieces → Pieces) : (s.modLoc c f).agenda = s.agenda := rfl
@[simp] theorem State.modLoc_unit (s : State) (c : Nat) (f : Pieces → Pieces) : (s.modLoc c f).unit = s.unit := rfl
@[simp] theorem State.modLoc_free (s : State) (c : Nat) (f : Pieces → Pieces) : (s.modLoc c f).free = s.free := rfl

/-! ### modEng -/

@[simp] theorem State.modEng_mem (s : State) (c : Nat) (f : Engine → Engine) : (s.modEng c f).mem = s.mem := rfl
@[simp] theorem State.modEng_cluster (s : State) (c : Nat) (f : Engine → Engine) : (s.modEng c f).cluster = s.cluster := rfl
@[simp] theorem State.modEng_clusBad (s : State) (c : Nat) (f : Engine → Engine) : (s.modEng c f).clusBad = s.clusBad := rfl
@[simp] theorem State.modEng_quads (s : State) (c : Nat) (f : Engine → Engine) : (s.modEng c f).quads = s.quads := rfl
@[simp] theorem State.modEng_dies (s : State) (c : Nat) (f : Engine → Engine) : (s.modEng c f).dies = s.dies := rfl
@[simp] theorem State.modEng_parts (s : State) (c : Nat) (f : Engine → Engine) : (s.modEng c f).parts = s.parts := rfl
@[simp] theorem State.modEng_slots (s : State) (c : Nat) (f : Engine → Engine) : (s.modEng c f).slots = s.slots := rfl
@[simp] theorem State.modEng_contracts (s : State) (c : Nat) (f : Engine → Engine) : (s.modEng c f).contracts = s.contracts := rfl
@[simp] theorem State.modEng_exports (s : State) (c : Nat) (f : Engine → Engine) : (s.modEng c f).exports = s.exports := rfl
@[simp] theorem State.modEng_withdrawn (s : State) (c : Nat) (f : Engine → Engine) : (s.modEng c f).withdrawn = s.withdrawn := rfl
@[simp] theorem State.modEng_domains (s : State) (c : Nat) (f : Engine → Engine) : (s.modEng c f).domains = s.domains := rfl
@[simp] theorem State.modEng_regions (s : State) (c : Nat) (f : Engine → Engine) : (s.modEng c f).regions = s.regions := rfl
@[simp] theorem State.modEng_relTime (s : State) (c : Nat) (f : Engine → Engine) : (s.modEng c f).relTime = s.relTime := rfl
@[simp] theorem State.modEng_relKv (s : State) (c : Nat) (f : Engine → Engine) : (s.modEng c f).relKv = s.relKv := rfl
@[simp] theorem State.modEng_barTurn (s : State) (c : Nat) (f : Engine → Engine) : (s.modEng c f).barTurn = s.barTurn := rfl
@[simp] theorem State.modEng_sent (s : State) (c : Nat) (f : Engine → Engine) : (s.modEng c f).sent = s.sent := rfl
@[simp] theorem State.modEng_cmdNext (s : State) (c : Nat) (f : Engine → Engine) : (s.modEng c f).cmdNext = s.cmdNext := rfl
@[simp] theorem State.modEng_performed (s : State) (c : Nat) (f : Engine → Engine) : (s.modEng c f).performed = s.performed := rfl
@[simp] theorem State.modEng_hubSeq (s : State) (c : Nat) (f : Engine → Engine) : (s.modEng c f).hubSeq = s.hubSeq := rfl
@[simp] theorem State.modEng_barOwner (s : State) (c : Nat) (f : Engine → Engine) : (s.modEng c f).barOwner = s.barOwner := rfl
@[simp] theorem State.modEng_lineErr (s : State) (c : Nat) (f : Engine → Engine) : (s.modEng c f).lineErr = s.lineErr := rfl
@[simp] theorem State.modEng_poison (s : State) (c : Nat) (f : Engine → Engine) : (s.modEng c f).poison = s.poison := rfl
@[simp] theorem State.modEng_lineSeq (s : State) (c : Nat) (f : Engine → Engine) : (s.modEng c f).lineSeq = s.lineSeq := rfl
@[simp] theorem State.modEng_scrub (s : State) (c : Nat) (f : Engine → Engine) : (s.modEng c f).scrub = s.scrub := rfl
@[simp] theorem State.modEng_scrubAt (s : State) (c : Nat) (f : Engine → Engine) : (s.modEng c f).scrubAt = s.scrubAt := rfl
@[simp] theorem State.modEng_senders (s : State) (c : Nat) (f : Engine → Engine) : (s.modEng c f).senders = s.senders := rfl
@[simp] theorem State.modEng_enqueued (s : State) (c : Nat) (f : Engine → Engine) : (s.modEng c f).enqueued = s.enqueued := rfl
@[simp] theorem State.modEng_power (s : State) (c : Nat) (f : Engine → Engine) : (s.modEng c f).power = s.power := rfl
@[simp] theorem State.modEng_hub (s : State) (c : Nat) (f : Engine → Engine) : (s.modEng c f).hub = s.hub := rfl
@[simp] theorem State.modEng_pod (s : State) (c : Nat) (f : Engine → Engine) : (s.modEng c f).pod = s.pod := rfl
@[simp] theorem State.modEng_tlZero (s : State) (c : Nat) (f : Engine → Engine) : (s.modEng c f).tlZero = s.tlZero := rfl
@[simp] theorem State.modEng_cc (s : State) (c : Nat) (f : Engine → Engine) : (s.modEng c f).cc = s.cc := rfl
@[simp] theorem State.modEng_time (s : State) (c : Nat) (f : Engine → Engine) : (s.modEng c f).time = s.time := rfl
@[simp] theorem State.modEng_lag (s : State) (c : Nat) (f : Engine → Engine) : (s.modEng c f).lag = s.lag := rfl
@[simp] theorem State.modEng_corrected (s : State) (c : Nat) (f : Engine → Engine) : (s.modEng c f).corrected = s.corrected := rfl
@[simp] theorem State.modEng_adjust (s : State) (c : Nat) (f : Engine → Engine) : (s.modEng c f).adjust = s.adjust := rfl
@[simp] theorem State.modEng_ticked (s : State) (c : Nat) (f : Engine → Engine) : (s.modEng c f).ticked = s.ticked := rfl
@[simp] theorem State.modEng_ttFrac (s : State) (c : Nat) (f : Engine → Engine) : (s.modEng c f).ttFrac = s.ttFrac := rfl
@[simp] theorem State.modEng_keepTlb (s : State) (c : Nat) (f : Engine → Engine) : (s.modEng c f).keepTlb = s.keepTlb := rfl
@[simp] theorem State.modEng_late (s : State) (c : Nat) (f : Engine → Engine) : (s.modEng c f).late = s.late := rfl
@[simp] theorem State.modEng_turn (s : State) (c : Nat) (f : Engine → Engine) : (s.modEng c f).turn = s.turn := rfl
@[simp] theorem State.modEng_agenda (s : State) (c : Nat) (f : Engine → Engine) : (s.modEng c f).agenda = s.agenda := rfl
@[simp] theorem State.modEng_unit (s : State) (c : Nat) (f : Engine → Engine) : (s.modEng c f).unit = s.unit := rfl
@[simp] theorem State.modEng_free (s : State) (c : Nat) (f : Engine → Engine) : (s.modEng c f).free = s.free := rfl

/-! ### modMat -/

@[simp] theorem State.modMat_mem (s : State) (c : Nat) (f : Matrix → Matrix) : (s.modMat c f).mem = s.mem := rfl
@[simp] theorem State.modMat_cluster (s : State) (c : Nat) (f : Matrix → Matrix) : (s.modMat c f).cluster = s.cluster := rfl
@[simp] theorem State.modMat_clusBad (s : State) (c : Nat) (f : Matrix → Matrix) : (s.modMat c f).clusBad = s.clusBad := rfl
@[simp] theorem State.modMat_quads (s : State) (c : Nat) (f : Matrix → Matrix) : (s.modMat c f).quads = s.quads := rfl
@[simp] theorem State.modMat_dies (s : State) (c : Nat) (f : Matrix → Matrix) : (s.modMat c f).dies = s.dies := rfl
@[simp] theorem State.modMat_parts (s : State) (c : Nat) (f : Matrix → Matrix) : (s.modMat c f).parts = s.parts := rfl
@[simp] theorem State.modMat_slots (s : State) (c : Nat) (f : Matrix → Matrix) : (s.modMat c f).slots = s.slots := rfl
@[simp] theorem State.modMat_contracts (s : State) (c : Nat) (f : Matrix → Matrix) : (s.modMat c f).contracts = s.contracts := rfl
@[simp] theorem State.modMat_exports (s : State) (c : Nat) (f : Matrix → Matrix) : (s.modMat c f).exports = s.exports := rfl
@[simp] theorem State.modMat_withdrawn (s : State) (c : Nat) (f : Matrix → Matrix) : (s.modMat c f).withdrawn = s.withdrawn := rfl
@[simp] theorem State.modMat_domains (s : State) (c : Nat) (f : Matrix → Matrix) : (s.modMat c f).domains = s.domains := rfl
@[simp] theorem State.modMat_regions (s : State) (c : Nat) (f : Matrix → Matrix) : (s.modMat c f).regions = s.regions := rfl
@[simp] theorem State.modMat_relTime (s : State) (c : Nat) (f : Matrix → Matrix) : (s.modMat c f).relTime = s.relTime := rfl
@[simp] theorem State.modMat_relKv (s : State) (c : Nat) (f : Matrix → Matrix) : (s.modMat c f).relKv = s.relKv := rfl
@[simp] theorem State.modMat_barTurn (s : State) (c : Nat) (f : Matrix → Matrix) : (s.modMat c f).barTurn = s.barTurn := rfl
@[simp] theorem State.modMat_sent (s : State) (c : Nat) (f : Matrix → Matrix) : (s.modMat c f).sent = s.sent := rfl
@[simp] theorem State.modMat_cmdNext (s : State) (c : Nat) (f : Matrix → Matrix) : (s.modMat c f).cmdNext = s.cmdNext := rfl
@[simp] theorem State.modMat_performed (s : State) (c : Nat) (f : Matrix → Matrix) : (s.modMat c f).performed = s.performed := rfl
@[simp] theorem State.modMat_hubSeq (s : State) (c : Nat) (f : Matrix → Matrix) : (s.modMat c f).hubSeq = s.hubSeq := rfl
@[simp] theorem State.modMat_barOwner (s : State) (c : Nat) (f : Matrix → Matrix) : (s.modMat c f).barOwner = s.barOwner := rfl
@[simp] theorem State.modMat_lineErr (s : State) (c : Nat) (f : Matrix → Matrix) : (s.modMat c f).lineErr = s.lineErr := rfl
@[simp] theorem State.modMat_poison (s : State) (c : Nat) (f : Matrix → Matrix) : (s.modMat c f).poison = s.poison := rfl
@[simp] theorem State.modMat_lineSeq (s : State) (c : Nat) (f : Matrix → Matrix) : (s.modMat c f).lineSeq = s.lineSeq := rfl
@[simp] theorem State.modMat_scrub (s : State) (c : Nat) (f : Matrix → Matrix) : (s.modMat c f).scrub = s.scrub := rfl
@[simp] theorem State.modMat_scrubAt (s : State) (c : Nat) (f : Matrix → Matrix) : (s.modMat c f).scrubAt = s.scrubAt := rfl
@[simp] theorem State.modMat_senders (s : State) (c : Nat) (f : Matrix → Matrix) : (s.modMat c f).senders = s.senders := rfl
@[simp] theorem State.modMat_enqueued (s : State) (c : Nat) (f : Matrix → Matrix) : (s.modMat c f).enqueued = s.enqueued := rfl
@[simp] theorem State.modMat_power (s : State) (c : Nat) (f : Matrix → Matrix) : (s.modMat c f).power = s.power := rfl
@[simp] theorem State.modMat_hub (s : State) (c : Nat) (f : Matrix → Matrix) : (s.modMat c f).hub = s.hub := rfl
@[simp] theorem State.modMat_pod (s : State) (c : Nat) (f : Matrix → Matrix) : (s.modMat c f).pod = s.pod := rfl
@[simp] theorem State.modMat_tlZero (s : State) (c : Nat) (f : Matrix → Matrix) : (s.modMat c f).tlZero = s.tlZero := rfl
@[simp] theorem State.modMat_cc (s : State) (c : Nat) (f : Matrix → Matrix) : (s.modMat c f).cc = s.cc := rfl
@[simp] theorem State.modMat_time (s : State) (c : Nat) (f : Matrix → Matrix) : (s.modMat c f).time = s.time := rfl
@[simp] theorem State.modMat_lag (s : State) (c : Nat) (f : Matrix → Matrix) : (s.modMat c f).lag = s.lag := rfl
@[simp] theorem State.modMat_corrected (s : State) (c : Nat) (f : Matrix → Matrix) : (s.modMat c f).corrected = s.corrected := rfl
@[simp] theorem State.modMat_adjust (s : State) (c : Nat) (f : Matrix → Matrix) : (s.modMat c f).adjust = s.adjust := rfl
@[simp] theorem State.modMat_ticked (s : State) (c : Nat) (f : Matrix → Matrix) : (s.modMat c f).ticked = s.ticked := rfl
@[simp] theorem State.modMat_ttFrac (s : State) (c : Nat) (f : Matrix → Matrix) : (s.modMat c f).ttFrac = s.ttFrac := rfl
@[simp] theorem State.modMat_keepTlb (s : State) (c : Nat) (f : Matrix → Matrix) : (s.modMat c f).keepTlb = s.keepTlb := rfl
@[simp] theorem State.modMat_late (s : State) (c : Nat) (f : Matrix → Matrix) : (s.modMat c f).late = s.late := rfl
@[simp] theorem State.modMat_turn (s : State) (c : Nat) (f : Matrix → Matrix) : (s.modMat c f).turn = s.turn := rfl
@[simp] theorem State.modMat_agenda (s : State) (c : Nat) (f : Matrix → Matrix) : (s.modMat c f).agenda = s.agenda := rfl
@[simp] theorem State.modMat_unit (s : State) (c : Nat) (f : Matrix → Matrix) : (s.modMat c f).unit = s.unit := rfl
@[simp] theorem State.modMat_free (s : State) (c : Nat) (f : Matrix → Matrix) : (s.modMat c f).free = s.free := rfl

/-! ### setR -/

@[simp] theorem State.setR_mem (s : State) (i : BitVec 5) (v : Word) : (s.setR i v).mem = s.mem := rfl
@[simp] theorem State.setR_cluster (s : State) (i : BitVec 5) (v : Word) : (s.setR i v).cluster = s.cluster := rfl
@[simp] theorem State.setR_clusBad (s : State) (i : BitVec 5) (v : Word) : (s.setR i v).clusBad = s.clusBad := rfl
@[simp] theorem State.setR_quads (s : State) (i : BitVec 5) (v : Word) : (s.setR i v).quads = s.quads := rfl
@[simp] theorem State.setR_dies (s : State) (i : BitVec 5) (v : Word) : (s.setR i v).dies = s.dies := rfl
@[simp] theorem State.setR_parts (s : State) (i : BitVec 5) (v : Word) : (s.setR i v).parts = s.parts := rfl
@[simp] theorem State.setR_slots (s : State) (i : BitVec 5) (v : Word) : (s.setR i v).slots = s.slots := rfl
@[simp] theorem State.setR_contracts (s : State) (i : BitVec 5) (v : Word) : (s.setR i v).contracts = s.contracts := rfl
@[simp] theorem State.setR_exports (s : State) (i : BitVec 5) (v : Word) : (s.setR i v).exports = s.exports := rfl
@[simp] theorem State.setR_withdrawn (s : State) (i : BitVec 5) (v : Word) : (s.setR i v).withdrawn = s.withdrawn := rfl
@[simp] theorem State.setR_domains (s : State) (i : BitVec 5) (v : Word) : (s.setR i v).domains = s.domains := rfl
@[simp] theorem State.setR_regions (s : State) (i : BitVec 5) (v : Word) : (s.setR i v).regions = s.regions := rfl
@[simp] theorem State.setR_relTime (s : State) (i : BitVec 5) (v : Word) : (s.setR i v).relTime = s.relTime := rfl
@[simp] theorem State.setR_relKv (s : State) (i : BitVec 5) (v : Word) : (s.setR i v).relKv = s.relKv := rfl
@[simp] theorem State.setR_barTurn (s : State) (i : BitVec 5) (v : Word) : (s.setR i v).barTurn = s.barTurn := rfl
@[simp] theorem State.setR_sent (s : State) (i : BitVec 5) (v : Word) : (s.setR i v).sent = s.sent := rfl
@[simp] theorem State.setR_cmdNext (s : State) (i : BitVec 5) (v : Word) : (s.setR i v).cmdNext = s.cmdNext := rfl
@[simp] theorem State.setR_performed (s : State) (i : BitVec 5) (v : Word) : (s.setR i v).performed = s.performed := rfl
@[simp] theorem State.setR_hubSeq (s : State) (i : BitVec 5) (v : Word) : (s.setR i v).hubSeq = s.hubSeq := rfl
@[simp] theorem State.setR_barOwner (s : State) (i : BitVec 5) (v : Word) : (s.setR i v).barOwner = s.barOwner := rfl
@[simp] theorem State.setR_lineErr (s : State) (i : BitVec 5) (v : Word) : (s.setR i v).lineErr = s.lineErr := rfl
@[simp] theorem State.setR_poison (s : State) (i : BitVec 5) (v : Word) : (s.setR i v).poison = s.poison := rfl
@[simp] theorem State.setR_lineSeq (s : State) (i : BitVec 5) (v : Word) : (s.setR i v).lineSeq = s.lineSeq := rfl
@[simp] theorem State.setR_scrub (s : State) (i : BitVec 5) (v : Word) : (s.setR i v).scrub = s.scrub := rfl
@[simp] theorem State.setR_scrubAt (s : State) (i : BitVec 5) (v : Word) : (s.setR i v).scrubAt = s.scrubAt := rfl
@[simp] theorem State.setR_senders (s : State) (i : BitVec 5) (v : Word) : (s.setR i v).senders = s.senders := rfl
@[simp] theorem State.setR_enqueued (s : State) (i : BitVec 5) (v : Word) : (s.setR i v).enqueued = s.enqueued := rfl
@[simp] theorem State.setR_power (s : State) (i : BitVec 5) (v : Word) : (s.setR i v).power = s.power := rfl
@[simp] theorem State.setR_hub (s : State) (i : BitVec 5) (v : Word) : (s.setR i v).hub = s.hub := rfl
@[simp] theorem State.setR_pod (s : State) (i : BitVec 5) (v : Word) : (s.setR i v).pod = s.pod := rfl
@[simp] theorem State.setR_tlZero (s : State) (i : BitVec 5) (v : Word) : (s.setR i v).tlZero = s.tlZero := rfl
@[simp] theorem State.setR_cc (s : State) (i : BitVec 5) (v : Word) : (s.setR i v).cc = s.cc := rfl
@[simp] theorem State.setR_time (s : State) (i : BitVec 5) (v : Word) : (s.setR i v).time = s.time := rfl
@[simp] theorem State.setR_lag (s : State) (i : BitVec 5) (v : Word) : (s.setR i v).lag = s.lag := rfl
@[simp] theorem State.setR_corrected (s : State) (i : BitVec 5) (v : Word) : (s.setR i v).corrected = s.corrected := rfl
@[simp] theorem State.setR_adjust (s : State) (i : BitVec 5) (v : Word) : (s.setR i v).adjust = s.adjust := rfl
@[simp] theorem State.setR_ticked (s : State) (i : BitVec 5) (v : Word) : (s.setR i v).ticked = s.ticked := rfl
@[simp] theorem State.setR_ttFrac (s : State) (i : BitVec 5) (v : Word) : (s.setR i v).ttFrac = s.ttFrac := rfl
@[simp] theorem State.setR_keepTlb (s : State) (i : BitVec 5) (v : Word) : (s.setR i v).keepTlb = s.keepTlb := rfl
@[simp] theorem State.setR_late (s : State) (i : BitVec 5) (v : Word) : (s.setR i v).late = s.late := rfl
@[simp] theorem State.setR_turn (s : State) (i : BitVec 5) (v : Word) : (s.setR i v).turn = s.turn := rfl
@[simp] theorem State.setR_agenda (s : State) (i : BitVec 5) (v : Word) : (s.setR i v).agenda = s.agenda := rfl
@[simp] theorem State.setR_unit (s : State) (i : BitVec 5) (v : Word) : (s.setR i v).unit = s.unit := rfl
@[simp] theorem State.setR_free (s : State) (i : BitVec 5) (v : Word) : (s.setR i v).free = s.free := rfl

/-! ### setP -/

@[simp] theorem State.setP_mem (s : State) (i : Nat) (v : Bool) : (s.setP i v).mem = s.mem := rfl
@[simp] theorem State.setP_cluster (s : State) (i : Nat) (v : Bool) : (s.setP i v).cluster = s.cluster := rfl
@[simp] theorem State.setP_clusBad (s : State) (i : Nat) (v : Bool) : (s.setP i v).clusBad = s.clusBad := rfl
@[simp] theorem State.setP_quads (s : State) (i : Nat) (v : Bool) : (s.setP i v).quads = s.quads := rfl
@[simp] theorem State.setP_dies (s : State) (i : Nat) (v : Bool) : (s.setP i v).dies = s.dies := rfl
@[simp] theorem State.setP_parts (s : State) (i : Nat) (v : Bool) : (s.setP i v).parts = s.parts := rfl
@[simp] theorem State.setP_slots (s : State) (i : Nat) (v : Bool) : (s.setP i v).slots = s.slots := rfl
@[simp] theorem State.setP_contracts (s : State) (i : Nat) (v : Bool) : (s.setP i v).contracts = s.contracts := rfl
@[simp] theorem State.setP_exports (s : State) (i : Nat) (v : Bool) : (s.setP i v).exports = s.exports := rfl
@[simp] theorem State.setP_withdrawn (s : State) (i : Nat) (v : Bool) : (s.setP i v).withdrawn = s.withdrawn := rfl
@[simp] theorem State.setP_domains (s : State) (i : Nat) (v : Bool) : (s.setP i v).domains = s.domains := rfl
@[simp] theorem State.setP_regions (s : State) (i : Nat) (v : Bool) : (s.setP i v).regions = s.regions := rfl
@[simp] theorem State.setP_relTime (s : State) (i : Nat) (v : Bool) : (s.setP i v).relTime = s.relTime := rfl
@[simp] theorem State.setP_relKv (s : State) (i : Nat) (v : Bool) : (s.setP i v).relKv = s.relKv := rfl
@[simp] theorem State.setP_barTurn (s : State) (i : Nat) (v : Bool) : (s.setP i v).barTurn = s.barTurn := rfl
@[simp] theorem State.setP_sent (s : State) (i : Nat) (v : Bool) : (s.setP i v).sent = s.sent := rfl
@[simp] theorem State.setP_cmdNext (s : State) (i : Nat) (v : Bool) : (s.setP i v).cmdNext = s.cmdNext := rfl
@[simp] theorem State.setP_performed (s : State) (i : Nat) (v : Bool) : (s.setP i v).performed = s.performed := rfl
@[simp] theorem State.setP_hubSeq (s : State) (i : Nat) (v : Bool) : (s.setP i v).hubSeq = s.hubSeq := rfl
@[simp] theorem State.setP_barOwner (s : State) (i : Nat) (v : Bool) : (s.setP i v).barOwner = s.barOwner := rfl
@[simp] theorem State.setP_lineErr (s : State) (i : Nat) (v : Bool) : (s.setP i v).lineErr = s.lineErr := rfl
@[simp] theorem State.setP_poison (s : State) (i : Nat) (v : Bool) : (s.setP i v).poison = s.poison := rfl
@[simp] theorem State.setP_lineSeq (s : State) (i : Nat) (v : Bool) : (s.setP i v).lineSeq = s.lineSeq := rfl
@[simp] theorem State.setP_scrub (s : State) (i : Nat) (v : Bool) : (s.setP i v).scrub = s.scrub := rfl
@[simp] theorem State.setP_scrubAt (s : State) (i : Nat) (v : Bool) : (s.setP i v).scrubAt = s.scrubAt := rfl
@[simp] theorem State.setP_senders (s : State) (i : Nat) (v : Bool) : (s.setP i v).senders = s.senders := rfl
@[simp] theorem State.setP_enqueued (s : State) (i : Nat) (v : Bool) : (s.setP i v).enqueued = s.enqueued := rfl
@[simp] theorem State.setP_power (s : State) (i : Nat) (v : Bool) : (s.setP i v).power = s.power := rfl
@[simp] theorem State.setP_hub (s : State) (i : Nat) (v : Bool) : (s.setP i v).hub = s.hub := rfl
@[simp] theorem State.setP_pod (s : State) (i : Nat) (v : Bool) : (s.setP i v).pod = s.pod := rfl
@[simp] theorem State.setP_tlZero (s : State) (i : Nat) (v : Bool) : (s.setP i v).tlZero = s.tlZero := rfl
@[simp] theorem State.setP_cc (s : State) (i : Nat) (v : Bool) : (s.setP i v).cc = s.cc := rfl
@[simp] theorem State.setP_time (s : State) (i : Nat) (v : Bool) : (s.setP i v).time = s.time := rfl
@[simp] theorem State.setP_lag (s : State) (i : Nat) (v : Bool) : (s.setP i v).lag = s.lag := rfl
@[simp] theorem State.setP_corrected (s : State) (i : Nat) (v : Bool) : (s.setP i v).corrected = s.corrected := rfl
@[simp] theorem State.setP_adjust (s : State) (i : Nat) (v : Bool) : (s.setP i v).adjust = s.adjust := rfl
@[simp] theorem State.setP_ticked (s : State) (i : Nat) (v : Bool) : (s.setP i v).ticked = s.ticked := rfl
@[simp] theorem State.setP_ttFrac (s : State) (i : Nat) (v : Bool) : (s.setP i v).ttFrac = s.ttFrac := rfl
@[simp] theorem State.setP_keepTlb (s : State) (i : Nat) (v : Bool) : (s.setP i v).keepTlb = s.keepTlb := rfl
@[simp] theorem State.setP_late (s : State) (i : Nat) (v : Bool) : (s.setP i v).late = s.late := rfl
@[simp] theorem State.setP_turn (s : State) (i : Nat) (v : Bool) : (s.setP i v).turn = s.turn := rfl
@[simp] theorem State.setP_agenda (s : State) (i : Nat) (v : Bool) : (s.setP i v).agenda = s.agenda := rfl
@[simp] theorem State.setP_unit (s : State) (i : Nat) (v : Bool) : (s.setP i v).unit = s.unit := rfl
@[simp] theorem State.setP_free (s : State) (i : Nat) (v : Bool) : (s.setP i v).free = s.free := rfl

/-! ### A core after an update of it, and every other core -/

@[simp] theorem State.modCore_core (s : State) (c : Nat) (f : Core → Core) : (s.modCore c f).core c = f (s.core c) := by
  simp [State.core, State.modCore]

theorem State.modCore_core_other (s : State) {c k : Nat} (f : Core → Core) (h : k ≠ c) : (s.modCore c f).core k = s.core k := by
  simp [State.core, State.modCore, get_update_other _ _ _ (Ne.symm h)]

@[simp] theorem State.modCtx_core (s : State) (c : Nat) (f : Ctx → Ctx) :
    (s.modCtx c f).core c = { s.core c with live := f (s.core c).live } := by simp [State.modCtx]

theorem State.modCtx_core_other (s : State) {c k : Nat} (f : Ctx → Ctx) (h : k ≠ c) : (s.modCtx c f).core k = s.core k :=
  s.modCore_core_other _ h

@[simp] theorem State.modCtx_ctx (s : State) (c : Nat) (f : Ctx → Ctx) : (s.modCtx c f).ctx c = f (s.ctx c) := by simp [State.ctx]

theorem State.modCtx_ctx_other (s : State) {c k : Nat} (f : Ctx → Ctx) (h : k ≠ c) : (s.modCtx c f).ctx k = s.ctx k := by
  simp [State.ctx, s.modCtx_core_other f h]

/-! ### A sequencer after an update of it, and every other sequencer -/

@[simp] theorem Ctx.modSeq_seq (x : Ctx) (sm : Stream) (f : Seq → Seq) : (x.modSeq sm f).seq sm = f (x.seq sm) := by cases sm <;> rfl

theorem Ctx.modSeq_seq_other (x : Ctx) {sm r : Stream} (f : Seq → Seq) (h : r ≠ sm) : (x.modSeq sm f).seq r = x.seq r := by
  cases sm <;> cases r <;> first | rfl | exact absurd rfl h

@[simp] theorem Ctx.modSeq_cr (x : Ctx) (sm : Stream) (f : Seq → Seq) : (x.modSeq sm f).cr = x.cr := by cases sm <;> rfl
@[simp] theorem Ctx.modSeq_links (x : Ctx) (sm : Stream) (f : Seq → Seq) : (x.modSeq sm f).links = x.links := by cases sm <;> rfl
@[simp] theorem Ctx.modSeq_loc (x : Ctx) (sm : Stream) (f : Seq → Seq) : (x.modSeq sm f).loc = x.loc := by cases sm <;> rfl
@[simp] theorem Ctx.modSeq_eng (x : Ctx) (sm : Stream) (f : Seq → Seq) : (x.modSeq sm f).eng = x.eng := by cases sm <;> rfl
@[simp] theorem Ctx.modSeq_mat (x : Ctx) (sm : Stream) (f : Seq → Seq) : (x.modSeq sm f).mat = x.mat := by cases sm <;> rfl
@[simp] theorem Ctx.modSeq_pend (x : Ctx) (sm : Stream) (f : Seq → Seq) : (x.modSeq sm f).pend = x.pend := by cases sm <;> rfl
@[simp] theorem Ctx.modSeq_task (x : Ctx) (sm : Stream) (f : Seq → Seq) : (x.modSeq sm f).task = x.task := by cases sm <;> rfl
@[simp] theorem Ctx.modSeq_clean (x : Ctx) (sm : Stream) (f : Seq → Seq) : (x.modSeq sm f).clean = x.clean := by cases sm <;> rfl
@[simp] theorem Ctx.modSeq_resplit (x : Ctx) (sm : Stream) (f : Seq → Seq) : (x.modSeq sm f).resplit = x.resplit := by cases sm <;> rfl
@[simp] theorem Ctx.modSeq_stopAt (x : Ctx) (sm : Stream) (f : Seq → Seq) : (x.modSeq sm f).stopAt = x.stopAt := by cases sm <;> rfl

/-! ### Registers and predicates -/

@[simp] theorem Seq.setReg_reg (q : Seq) (i : Nat) (v : Word) : (q.setReg i v).reg i = v := by simp [Seq.reg, Seq.setReg]

theorem Seq.setReg_reg_other (q : Seq) {i j : Nat} (v : Word) (h : j ≠ i) : (q.setReg i v).reg j = q.reg j := by
  simp [Seq.reg, Seq.setReg, get_put_other _ _ _ (Ne.symm h)]

/-- p0 reads 1 whatever is written (R65). -/
@[simp] theorem Seq.pred_zero (q : Seq) : q.pred 0 = true := rfl

@[simp] theorem Seq.setPred_zero (q : Seq) (v : Bool) : q.setPred 0 v = q := rfl

theorem Seq.setPred_pred (q : Seq) {i : Nat} (v : Bool) (h : i ≠ 0) : (q.setPred i v).pred i = v := by
  simp [Seq.pred, Seq.setPred, h]

theorem Seq.setPred_pred_other (q : Seq) {i j : Nat} (v : Bool) (h : j ≠ i) : (q.setPred i v).pred j = q.pred j := by
  unfold Seq.setPred
  split
  · rfl
  · simp [Seq.pred, get_put_other _ _ _ (Ne.symm h)]

@[simp] theorem Seq.setPred_reg (q : Seq) (i j : Nat) (v : Bool) : (q.setPred i v).reg j = q.reg j := by
  unfold Seq.setPred; split <;> rfl

@[simp] theorem Seq.setReg_pred (q : Seq) (i j : Nat) (v : Word) : (q.setReg i v).pred j = q.pred j := rfl

@[simp] theorem Seq.setReg_pc (q : Seq) (i : Nat) (v : Word) : (q.setReg i v).pc = q.pc := rfl
@[simp] theorem Seq.setReg_hdr (q : Seq) (i : Nat) (v : Word) : (q.setReg i v).hdr = q.hdr := rfl
@[simp] theorem Seq.setReg_hword (q : Seq) (i : Nat) (v : Word) : (q.setReg i v).hword = q.hword := rfl
@[simp] theorem Seq.setReg_inBody (q : Seq) (i : Nat) (v : Word) : (q.setReg i v).inBody = q.inBody := rfl
@[simp] theorem Seq.setReg_rep (q : Seq) (i : Nat) (v : Word) : (q.setReg i v).rep = q.rep := rfl
@[simp] theorem Seq.setReg_reps (q : Seq) (i : Nat) (v : Word) : (q.setReg i v).reps = q.reps := rfl
@[simp] theorem Seq.setReg_preds (q : Seq) (i : Nat) (v : Word) : (q.setReg i v).preds = q.preds := rfl
@[simp] theorem Seq.setReg_imem (q : Seq) (i : Nat) (v : Word) : (q.setReg i v).imem = q.imem := rfl
@[simp] theorem Seq.setReg_iend (q : Seq) (i : Nat) (v : Word) : (q.setReg i v).iend = q.iend := rfl
@[simp] theorem Seq.setReg_imldw (q : Seq) (i : Nat) (v : Word) : (q.setReg i v).imldw = q.imldw := rfl
@[simp] theorem Seq.setReg_lb (q : Seq) (i : Nat) (v : Word) : (q.setReg i v).lb = q.lb := rfl
@[simp] theorem Seq.setReg_lbuf (q : Seq) (i : Nat) (v : Word) : (q.setReg i v).lbuf = q.lbuf := rfl
@[simp] theorem Seq.setReg_fetched (q : Seq) (i : Nat) (v : Word) : (q.setReg i v).fetched = q.fetched := rfl
@[simp] theorem Seq.setReg_wait (q : Seq) (i : Nat) (v : Word) : (q.setReg i v).wait = q.wait := rfl
@[simp] theorem Seq.setReg_waitRem (q : Seq) (i : Nat) (v : Word) : (q.setReg i v).waitRem = q.waitRem := rfl
@[simp] theorem Seq.setReg_stalled (q : Seq) (i : Nat) (v : Word) : (q.setReg i v).stalled = q.stalled := rfl
@[simp] theorem Seq.setReg_cut (q : Seq) (i : Nat) (v : Word) : (q.setReg i v).cut = q.cut := rfl
@[simp] theorem Seq.setReg_part (q : Seq) (i : Nat) (v : Word) : (q.setReg i v).part = q.part := rfl
@[simp] theorem Seq.setReg_flight (q : Seq) (i : Nat) (v : Word) : (q.setReg i v).flight = q.flight := rfl
@[simp] theorem Seq.setReg_icnt (q : Seq) (i : Nat) (v : Word) : (q.setReg i v).icnt = q.icnt := rfl
@[simp] theorem Seq.setReg_blki (q : Seq) (i : Nat) (v : Word) : (q.setReg i v).blki = q.blki := rfl
@[simp] theorem Seq.setReg_loss (q : Seq) (i : Nat) (v : Word) : (q.setReg i v).loss = q.loss := rfl
@[simp] theorem Seq.setReg_waitsOn (q : Seq) (i : Nat) (v : Word) : (q.setReg i v).waitsOn = q.waitsOn := rfl
@[simp] theorem Seq.setPred_pc (q : Seq) (i : Nat) (v : Bool) : (q.setPred i v).pc = q.pc := by unfold Seq.setPred; split <;> rfl
@[simp] theorem Seq.setPred_hdr (q : Seq) (i : Nat) (v : Bool) : (q.setPred i v).hdr = q.hdr := by unfold Seq.setPred; split <;> rfl
@[simp] theorem Seq.setPred_hword (q : Seq) (i : Nat) (v : Bool) : (q.setPred i v).hword = q.hword := by unfold Seq.setPred; split <;> rfl
@[simp] theorem Seq.setPred_inBody (q : Seq) (i : Nat) (v : Bool) : (q.setPred i v).inBody = q.inBody := by unfold Seq.setPred; split <;> rfl
@[simp] theorem Seq.setPred_rep (q : Seq) (i : Nat) (v : Bool) : (q.setPred i v).rep = q.rep := by unfold Seq.setPred; split <;> rfl
@[simp] theorem Seq.setPred_reps (q : Seq) (i : Nat) (v : Bool) : (q.setPred i v).reps = q.reps := by unfold Seq.setPred; split <;> rfl
@[simp] theorem Seq.setPred_regs (q : Seq) (i : Nat) (v : Bool) : (q.setPred i v).regs = q.regs := by unfold Seq.setPred; split <;> rfl
@[simp] theorem Seq.setPred_imem (q : Seq) (i : Nat) (v : Bool) : (q.setPred i v).imem = q.imem := by unfold Seq.setPred; split <;> rfl
@[simp] theorem Seq.setPred_iend (q : Seq) (i : Nat) (v : Bool) : (q.setPred i v).iend = q.iend := by unfold Seq.setPred; split <;> rfl
@[simp] theorem Seq.setPred_imldw (q : Seq) (i : Nat) (v : Bool) : (q.setPred i v).imldw = q.imldw := by unfold Seq.setPred; split <;> rfl
@[simp] theorem Seq.setPred_lb (q : Seq) (i : Nat) (v : Bool) : (q.setPred i v).lb = q.lb := by unfold Seq.setPred; split <;> rfl
@[simp] theorem Seq.setPred_lbuf (q : Seq) (i : Nat) (v : Bool) : (q.setPred i v).lbuf = q.lbuf := by unfold Seq.setPred; split <;> rfl
@[simp] theorem Seq.setPred_fetched (q : Seq) (i : Nat) (v : Bool) : (q.setPred i v).fetched = q.fetched := by unfold Seq.setPred; split <;> rfl
@[simp] theorem Seq.setPred_wait (q : Seq) (i : Nat) (v : Bool) : (q.setPred i v).wait = q.wait := by unfold Seq.setPred; split <;> rfl
@[simp] theorem Seq.setPred_waitRem (q : Seq) (i : Nat) (v : Bool) : (q.setPred i v).waitRem = q.waitRem := by unfold Seq.setPred; split <;> rfl
@[simp] theorem Seq.setPred_stalled (q : Seq) (i : Nat) (v : Bool) : (q.setPred i v).stalled = q.stalled := by unfold Seq.setPred; split <;> rfl
@[simp] theorem Seq.setPred_cut (q : Seq) (i : Nat) (v : Bool) : (q.setPred i v).cut = q.cut := by unfold Seq.setPred; split <;> rfl
@[simp] theorem Seq.setPred_part (q : Seq) (i : Nat) (v : Bool) : (q.setPred i v).part = q.part := by unfold Seq.setPred; split <;> rfl
@[simp] theorem Seq.setPred_flight (q : Seq) (i : Nat) (v : Bool) : (q.setPred i v).flight = q.flight := by unfold Seq.setPred; split <;> rfl
@[simp] theorem Seq.setPred_icnt (q : Seq) (i : Nat) (v : Bool) : (q.setPred i v).icnt = q.icnt := by unfold Seq.setPred; split <;> rfl
@[simp] theorem Seq.setPred_blki (q : Seq) (i : Nat) (v : Bool) : (q.setPred i v).blki = q.blki := by unfold Seq.setPred; split <;> rfl
@[simp] theorem Seq.setPred_loss (q : Seq) (i : Nat) (v : Bool) : (q.setPred i v).loss = q.loss := by unfold Seq.setPred; split <;> rfl
@[simp] theorem Seq.setPred_waitsOn (q : Seq) (i : Nat) (v : Bool) : (q.setPred i v).waitsOn = q.waitsOn := by unfold Seq.setPred; split <;> rfl

end Sys2Proof.Machine
end

