-- ==== Sys2Proof/Laws/Ops.lean ====
section
/-! SUPPORT. Laws of the shared operations of an issue unit: how a unit is settled, and what its going on leaves unchanged. -/
namespace Sys2Proof.Machine

/-! ### A unit settled -/

/-- A unit that issues with its own meaning ends as its body does (R48, R80). -/
theorem issue_runs {s : State} {i : Instr} (h : s.runs i) (body : State → Res) :
    issue i body s = .next (settle i s (body (s.begun i))) := by
  obtain ⟨hf, hg, hr, hp⟩ := h
  have hn : ¬ (i.reports = true ∧ s.my.cr.errors ≠ []) := fun h => h.2 (hr h.1)
  simp only [issue]
  split <;> simp_all [State.begun]

/-- No instruction of the tables stops the machine: whatever its fate, a unit answers a next state. -/
theorem issue_next (i : Instr) (body : State → Res) (s : State) : ∃ t, issue i body s = .next t := by
  unfold issue
  simp only
  repeat' (first | exact ⟨_, rfl⟩ | split)

theorem settle_done {u : State} (i : Instr) (s : State) (lat : Nat) (h : u.roomy) : settle i s (.done u lat) = u.finish lat none := by
  unfold State.roomy at h
  simp [settle, h]

/-! ### What the beginning of a unit leaves -/

/-- Popping tokens changes the token queues alone. -/
theorem Links.popTokens_eq (l : Links) (ix : List Nat) : l.popTokens ix = { l with tok := (l.popTokens ix).tok } := by
  unfold Links.popTokens
  induction ix generalizing l with
  | nil => rfl
  | cons i ix ih => rw [List.foldl_cons, ih]

@[simp] theorem State.popUnit_unit (s : State) : s.popUnit.unit = s.unit := rfl

@[simp] theorem State.segFeed_unit (s : State) (i : Instr) : (s.segFeed i).unit = s.unit := by unfold State.segFeed; split <;> rfl

@[simp] theorem State.begun_unit (s : State) (i : Instr) : (s.begun i).unit = s.unit := by simp [State.begun]

/-- Every field of the state but the cores is as it was when a unit begins. -/
theorem State.begun_eq (s : State) (i : Instr) : s.begun i = { s with cores := (s.begun i).cores } := by
  unfold State.begun State.segFeed; split <;> rfl

@[simp] theorem Ctx.seq_links (x : Ctx) (l : Links) (sm : Stream) : ({ x with links := l } : Ctx).seq sm = x.seq sm := by cases sm <;> rfl

@[simp] theorem Ctx.seq_mat (x : Ctx) (m : Matrix) (sm : Stream) : ({ x with mat := m } : Ctx).seq sm = x.seq sm := by cases sm <;> rfl

@[simp] theorem Ctx.seq_cr (x : Ctx) (r : CtlRegs) (sm : Stream) : ({ x with cr := r } : Ctx).seq sm = x.seq sm := by cases sm <;> rfl

@[simp] theorem Ctx.seq_loc (x : Ctx) (l : Pieces) (sm : Stream) : ({ x with loc := l } : Ctx).seq sm = x.seq sm := by cases sm <;> rfl

@[simp] theorem Ctx.seq_eng (x : Ctx) (g : Engine) (sm : Stream) : ({ x with eng := g } : Ctx).seq sm = x.seq sm := by cases sm <;> rfl

/-- The live context of the unit's core when the unit has begun: its tokens popped, and SEGCRC fed by a unit of MX, whose bytes a
replay may yet want. -/
theorem State.begun_my (s : State) (i : Instr) : ∃ crc ob, (s.begun i).my =
    { s.my with links := s.my.links.popTokens s.unitPops, mat := { s.my.mat with segCrc := crc, opBytes := ob } } := by
  unfold State.begun State.segFeed
  split
  · exact ⟨_, _, by simp [State.my, State.popUnit, State.modMat, State.modLinks]; exact ⟨rfl, rfl⟩⟩
  · exact ⟨s.my.mat.segCrc, s.my.mat.opBytes, by simp [State.my, State.popUnit, State.modLinks]⟩

@[simp] theorem State.begun_here (s : State) (i : Instr) : (s.begun i).here = s.here := by
  obtain ⟨c, o, h⟩ := s.begun_my i
  have : (s.begun i).here = (s.begun i).my.seq s.unit.sq := by simp [State.here, State.seq, State.my]
  rw [this, h]; simp; rfl

@[simp] theorem State.begun_r (s : State) (i : Instr) (d : BitVec 5) : (s.begun i).r d = s.r d := by simp [State.r]

@[simp] theorem State.begun_cr (s : State) (i : Instr) : (s.begun i).my.cr = s.my.cr := by
  obtain ⟨c, o, h⟩ := s.begun_my i; rw [h]

@[simp] theorem State.begun_loc (s : State) (i : Instr) : (s.begun i).my.loc = s.my.loc := by
  obtain ⟨c, o, h⟩ := s.begun_my i; rw [h]

@[simp] theorem State.begun_eng (s : State) (i : Instr) : (s.begun i).my.eng = s.my.eng := by
  obtain ⟨c, o, h⟩ := s.begun_my i; rw [h]

@[simp] theorem State.begun_mem (s : State) (i : Instr) : (s.begun i).mem = s.mem := by rw [s.begun_eq i]

@[simp] theorem State.begun_cluster (s : State) (i : Instr) : (s.begun i).cluster = s.cluster := by rw [s.begun_eq i]

theorem State.begun_core_other (s : State) (i : Instr) {c : Nat} (h : c ≠ s.unit.core) : (s.begun i).core c = s.core c := by
  unfold State.begun State.segFeed
  split
  · simp [State.modMat, State.popUnit, State.modLinks, State.modCtx_core_other _ _ h]
  · simp [State.popUnit, State.modLinks, State.modCtx_core_other _ _ h]

theorem State.begun_core (s : State) (i : Instr) :
    (s.begun i).core s.unit.core = { s.core s.unit.core with live := (s.begun i).my } := by
  unfold State.begun State.segFeed
  split <;> simp [State.my, State.ctx, State.modMat, State.popUnit, State.modLinks]

theorem State.roomy_begun {s : State} (i : Instr) : (s.begun i).roomy ↔ s.roomy := by simp [State.roomy]

/-! ### Frames compose -/

theorem Seq.keeps_refl (q : Seq) (reg pred : Option Nat) : q.keeps q reg pred := ⟨fun _ _ => rfl, fun _ _ _ => rfl, rfl, rfl⟩

theorem Seq.keeps_trans {q r t : Seq} {reg pred : Option Nat} (h : q.keeps r reg pred) (k : r.keeps t reg pred)
    (hr : r.rot = q.rot) : q.keeps t reg pred :=
  ⟨fun n hn => (k.1 n hn).trans (h.1 n hn), fun n hn hp => (k.2.1 n hn (hr ▸ hp)).trans (h.2.1 n hn hp),
    k.2.2.1.trans h.2.2.1, k.2.2.2.trans h.2.2.2⟩

theorem Seq.keeps_weaken {q r : Seq} {reg pred : Option Nat} (h : q.keeps r none none) : q.keeps r reg pred :=
  ⟨fun n _ => h.1 n (by simp), fun n _ hp => h.2.1 n (by simp) hp, h.2.2.1, h.2.2.2⟩

theorem State.keepsOutside_trans {s t u : State} (h : s.keepsOutside t) (k : t.keepsOutside u) : s.keepsOutside u := by
  have hu : t.unit = s.unit := by rw [h.1]
  refine ⟨?_, fun c hc => ?_, ?_, fun a => (k.2.2.2.1 a).trans (h.2.2.2.1 a), fun a => (k.2.2.2.2 a).trans (h.2.2.2.2 a)⟩
  · rw [k.1, h.1]
  · rw [k.2.1 c (hu ▸ hc), h.2.1 c hc]
  · have := k.2.2.1; rw [hu] at this; rw [this, h.2.2.1]

theorem State.keepsContext_trans {s t u : State} (hu : t.unit = s.unit) (h : s.keepsContext t) (k : t.keepsContext u) :
    s.keepsContext u := by
  obtain ⟨a1, a2, a3, a4, a5, a6, a7, a8, a9⟩ := h
  obtain ⟨b1, b2, b3, b4, b5, b6, b7, b8, b9⟩ := k
  refine ⟨fun sm hs => ?_, ?_, ?_, ?_, b5.trans a5, ?_, b7.trans a7, b8.trans a8, b9.trans a9⟩
  · rw [b1 sm (hu ▸ hs), a1 sm hs]
  · rw [b2, a2]
  · rw [b3, a3]
  · rw [b4, a4]
  · rw [b6, a6]

/-- The frames of a unit compose. -/
theorem State.keepsAllBut_trans {s t u : State} {reg pred : Option Nat} (h : s.keepsAllBut t reg pred)
    (k : t.keepsAllBut u reg pred) (hr : t.here.rot = s.here.rot) : s.keepsAllBut u reg pred :=
  have hu : t.unit = s.unit := by rw [h.1.1]
  ⟨keepsOutside_trans h.1 k.1, keepsContext_trans hu h.2.1 k.2.1, Seq.keeps_trans h.2.2 k.2.2 hr⟩

/-- The beginning of a unit changes nothing but tokens and SEGCRC. -/
theorem State.begun_keeps (s : State) (i : Instr) (reg pred : Option Nat) : s.keepsAllBut (s.begun i) reg pred := by
  refine ⟨⟨s.begun_eq i, fun c hc => s.begun_core_other i hc, s.begun_core i, by simp, by simp⟩, ?_, ?_⟩
  · obtain ⟨c, o, h⟩ := s.begun_my i
    rw [State.keepsContext, h]
    exact ⟨fun sm _ => by cases sm <;> rfl, rfl, Links.popTokens_eq _ _, rfl, rfl, rfl, rfl, rfl, rfl⟩
  · rw [s.begun_here]; exact Seq.keeps_refl _ _ _

/-! ### What going on leaves -/

/-- Going on changes neither code nor registers, and of the predicates only the stage predicates of a block that rotates. -/
theorem Seq.stage_keeps (q : Seq) (n j m : Nat) :
    (∀ k, (q.stage n j m).reg k = q.reg k) ∧ (∀ k, k < 16 ∨ 21 < k → (q.stage n j m).pred k = q.pred k)
      ∧ (q.stage n j m).imem = q.imem ∧ (q.stage n j m).iend = q.iend ∧ (q.stage n j m).rot = q.rot := by
  simp only [Seq.stage, iterate, List.range, List.range.loop, List.foldl, Seq.rot]
  refine ⟨fun k => by simp, fun k hk => ?_, by simp, by simp, by simp⟩
  repeat rw [Seq.setPred_pred_other _ _ (by omega)]

theorem Seq.goOn_keeps (q : Seq) (len : Nat) (a : Bool) : q.keeps (q.goOn len a) none none ∧ (q.goOn len a).rot = q.rot := by
  simp only [Seq.goOn]
  generalize (if q.lb = some q.hdr ∧ 0 < q.rep then q.fetched else q.fetched - len) = f
  generalize (if q.lb = some q.hdr ∧ q.rep = 0 then q.lbuf ++ _ else q.lbuf) = b
  split
  · exact ⟨⟨fun _ _ => rfl, fun _ _ _ => rfl, rfl, rfl⟩, rfl⟩
  · split
    · split
      · rename_i h
        obtain ⟨a1, a2, a3, a4, a5⟩ := Seq.stage_keeps
          { q with fetched := f, lbuf := b, pc := BitVec.ofNat 16 (q.hdr.toNat + 2), rep := q.rep + 1 }
          (q.hword.extractLsb' 26 3).toNat.succ (q.rep + 1) q.reps
        refine ⟨⟨fun n _ => a1 n, fun n _ hn => ?_, a3, a4⟩, a5⟩
        have hr : q.rot = true := h
        exact a2 n (by simpa [hr] using hn)
      · exact ⟨⟨fun _ _ => rfl, fun _ _ _ => rfl, rfl, rfl⟩, rfl⟩
    · exact ⟨⟨fun _ _ => rfl, fun _ _ _ => rfl, rfl, rfl⟩, rfl⟩

/-- A context after a unit has issued: what is not the issue's own is as it was. -/
theorem Ctx.finish_keeps (x : Ctx) (sm : Stream) (len : Nat) (p : BitVec 3) (lat : Nat) (ring : Option Nat) (need : BitVec 5) :
    let y := x.finish sm len p lat ring need
    (∀ r, r ≠ sm → y.seq r = x.seq r) ∧ y.cr = { x.cr with atomic := y.cr.atomic } ∧ y.links = x.links
      ∧ y.loc = { x.loc with turn := y.loc.turn } ∧ y.eng = x.eng ∧ y.mat = { x.mat with segClose := y.mat.segClose }
      ∧ y.pend = x.pend ∧ y.task = x.task ∧ y.clean = x.clean
      ∧ (x.seq sm).keeps (y.seq sm) none none ∧ (y.seq sm).rot = (x.seq sm).rot := by
  have g := Seq.goOn_keeps (x.seq sm) len (sm == .ctl && x.cr.atomic.isSome)
  revert g
  simp only [Ctx.finish]
  generalize (x.seq sm).goOn len (sm == .ctl && x.cr.atomic.isSome) = q1
  intro g
  cases sm <;> simp only [reduceCtorEq, if_false, if_true] <;> split <;>
    exact ⟨fun r hr => by cases r <;> first | rfl | exact absurd rfl hr, rfl, rfl, rfl, rfl, rfl, rfl, rfl, rfl,
      ⟨g.1.1, g.1.2.1, g.1.2.2.1, g.1.2.2.2⟩, g.2⟩

/-- THE GOING ON OF A UNIT leaves everything but the unit's own sequencer's progress, the buffered effects of an atomic block, the
window turn and the segment's end. -/
theorem State.finish_keeps (s : State) (lat : Nat) (ring : Option Nat) (reg pred : Option Nat) :
    s.keepsAllBut (s.finish lat ring) reg pred := by
  have k := Ctx.finish_keeps s.my s.unit.sq s.unit.len s.unit.pushM lat ring s.unit.need
  simp only at k
  obtain ⟨k1, k2, k3, k4, k5, k6, k7, k8, k9, k10, -⟩ := k
  have hm : (s.finish lat ring).my = s.my.finish s.unit.sq s.unit.len s.unit.pushM lat ring s.unit.need := by
    simp [State.finish, State.my]
  have hh : (s.finish lat ring).here = (s.finish lat ring).my.seq s.unit.sq := rfl
  refine ⟨⟨rfl, fun c hc => ?_, ?_, fun _ => rfl, fun _ => rfl⟩, ?_, ?_⟩
  · exact State.modCtx_core_other _ _ hc
  · simp [State.finish, State.my, State.ctx]
  · rw [State.keepsContext, hm]
    exact ⟨k1, k2, by rw [k3], k4, k5, by rw [k6], k7, k8, k9⟩
  · rw [hh, hm]; exact Seq.keeps_weaken k10

@[simp] theorem State.finish_unit (s : State) (lat : Nat) (ring : Option Nat) : (s.finish lat ring).unit = s.unit := rfl

theorem State.finish_rot (s : State) (lat : Nat) (ring : Option Nat) : (s.finish lat ring).here.rot = s.here.rot := by
  have k := Ctx.finish_keeps s.my s.unit.sq s.unit.len s.unit.pushM lat ring s.unit.need
  have hm : (s.finish lat ring).my = s.my.finish s.unit.sq s.unit.len s.unit.pushM lat ring s.unit.need := by
    simp [State.finish, State.my]
  have hh : (s.finish lat ring).here = (s.finish lat ring).my.seq s.unit.sq := rfl
  rw [hh, hm]; exact k.2.2.2.2.2.2.2.2.2.2

/-! ### Writing a register or a predicate -/

@[simp] theorem State.setR_here (s : State) (d : BitVec 5) (v : Word) : (s.setR d v).here = s.here.setReg d.toNat v := by
  simp [State.here, State.seq, State.setR, State.modSeq]

@[simp] theorem State.setP_here (s : State) (d : Nat) (v : Bool) : (s.setP d v).here = s.here.setPred d v := by
  simp [State.here, State.seq, State.setP, State.modSeq]

@[simp] theorem State.setR_cr (s : State) (d : BitVec 5) (v : Word) : (s.setR d v).my.cr = s.my.cr := by
  simp [State.my, State.setR, State.modSeq]

@[simp] theorem State.setP_cr (s : State) (d : Nat) (v : Bool) : (s.setP d v).my.cr = s.my.cr := by
  simp [State.my, State.setP, State.modSeq]

theorem State.roomy_setR {s : State} (d : BitVec 5) (v : Word) : (s.setR d v).roomy ↔ s.roomy := by simp [State.roomy]

theorem State.roomy_setP {s : State} (d : Nat) (v : Bool) : (s.setP d v).roomy ↔ s.roomy := by simp [State.roomy]

theorem State.modSeq_keeps (s : State) (f : Seq → Seq) (reg pred : Option Nat) (h : s.here.keeps (f s.here) reg pred) :
    s.keepsAllBut (s.modSeq s.unit.core s.unit.sq f) reg pred := by
  have hm : (s.modSeq s.unit.core s.unit.sq f).my = s.my.modSeq s.unit.sq f := by simp [State.my, State.modSeq]
  have hh : (s.modSeq s.unit.core s.unit.sq f).here = f s.here := by simp [State.here, State.seq, State.modSeq]
  refine ⟨⟨rfl, fun c hc => State.modCtx_core_other _ _ hc, ?_, fun _ => rfl, fun _ => rfl⟩, ?_, by rw [hh]; exact h⟩
  · simp [State.modSeq, State.my, State.ctx]
  · rw [State.keepsContext, hm]
    exact ⟨fun sm hs => Ctx.modSeq_seq_other _ _ hs, by simp, by simp, by simp, by simp, by simp, by simp, by simp, by simp⟩

/-- Writing one register leaves every other. -/
theorem State.setR_keeps (s : State) (d : BitVec 5) (v : Word) (pred : Option Nat) : s.keepsAllBut (s.setR d v) (some d.toNat) pred :=
  s.modSeq_keeps _ _ _ ⟨fun _ hn => Seq.setReg_reg_other _ _ (by simpa using hn), fun _ _ _ => by simp, rfl, rfl⟩

/-- Writing one predicate leaves every other. -/
theorem State.setP_keeps (s : State) (d : Nat) (v : Bool) (reg : Option Nat) : s.keepsAllBut (s.setP d v) reg (some d) :=
  s.modSeq_keeps _ _ _ ⟨fun _ _ => by simp, fun _ hn _ => Seq.setPred_pred_other _ _ (by simpa using hn), by simp, by simp⟩

end Sys2Proof.Machine
end

