-- ==== Sys2Proof/Laws/Memory.lean ====
section
/-! SUPPORT. Laws of memory: what a write at a home does, that a walk and the resolution of an address leave every core alone, and
that every memory operation keeps the canonical form. -/
namespace Sys2Proof.Machine

/-! ### Writes at a home -/

theorem State.codeLine_eq (s : State) (l : Nat) (w : Bool) :
    s.codeLine l w = { s with lineSeq := (s.codeLine l w).lineSeq, lineErr := (s.codeLine l w).lineErr, poison := (s.codeLine l w).poison } := by
  unfold State.codeLine; simp only; split <;> rfl

/-- A write applied at its home changes the written bytes and the code of their lines, and nothing else (R243, R349). -/
theorem State.applyAt_eq (s : State) (pa : Nat) (bs : List Byte) :
    s.applyAt pa bs = { s with
      mem := writeBytes s.mem pa bs, lineSeq := (s.applyAt pa bs).lineSeq, lineErr := (s.applyAt pa bs).lineErr
      poison := (s.applyAt pa bs).poison } := by
  have h : ∀ (ls : List Nat) (g : Nat → Bool) (u : State), ls.foldl (fun s l => s.codeLine l (g l)) u =
      { u with
        lineSeq := (ls.foldl (fun s l => s.codeLine l (g l)) u).lineSeq
        lineErr := (ls.foldl (fun s l => s.codeLine l (g l)) u).lineErr
        poison := (ls.foldl (fun s l => s.codeLine l (g l)) u).poison } := by
    intro ls g
    induction ls with
    | nil => intro u; rfl
    | cons l ls ih => intro u; rw [List.foldl_cons, ih, State.codeLine_eq]
  simp only [State.applyAt]
  rw [h]

@[simp] theorem State.applyAt_mem (s : State) (pa : Nat) (bs : List Byte) : (s.applyAt pa bs).mem = writeBytes s.mem pa bs := by
  rw [State.applyAt_eq]

@[simp] theorem State.applyAt_cores (s : State) (pa : Nat) (bs : List Byte) : (s.applyAt pa bs).cores = s.cores := by
  rw [State.applyAt_eq]

@[simp] theorem State.applyAt_unit (s : State) (pa : Nat) (bs : List Byte) : (s.applyAt pa bs).unit = s.unit := by
  rw [State.applyAt_eq]

@[simp] theorem State.applyAt_cluster (s : State) (pa : Nat) (bs : List Byte) : (s.applyAt pa bs).cluster = s.cluster := by
  rw [State.applyAt_eq]

/-- A write at a home keeps the canonical form. -/
theorem State.applyAt_inForm {s : State} (pa : Nat) (bs : List Byte) (h : s.memoryInForm) : (s.applyAt pa bs).memoryInForm := by
  obtain ⟨a, b⟩ := h
  exact ⟨by simpa [Memory.wf] using tableWf_writeBytes _ _ _ a, by simpa using b⟩

/-! ### Walks -/

/-- What a translation leaves: every core, the unit being run, and cluster SRAM; it keeps the canonical form. -/
def State.walkedTo (s t : State) : Prop :=
  t.cores = s.cores ∧ t.unit = s.unit ∧ t.cluster = s.cluster ∧ (s.memoryInForm → t.memoryInForm)

theorem State.walkedTo_refl (s : State) : s.walkedTo s := ⟨rfl, rfl, rfl, id⟩

theorem State.walkedTo_applyAt {s t : State} (h : s.walkedTo t) (pa : Nat) (bs : List Byte) : s.walkedTo (t.applyAt pa bs) :=
  ⟨by simp [h.1], by simp [h.2.1], by simp [h.2.2.1], fun k => State.applyAt_inForm pa bs (h.2.2.2 k)⟩

theorem State.walkedTo_countWalk {s t : State} (h : s.walkedTo t) (d home : Nat) : s.walkedTo (t.countWalk d home) := by
  unfold State.countWalk
  split
  · exact h
  · exact ⟨h.1, h.2.1, h.2.2.1, h.2.2.2⟩

theorem State.useLeaf_walkedTo {s t : State} {o va lvl ent pa v z : Nat} {rd wr user : Bool}
    (h : s.useLeaf o va lvl ent rd wr user = .ok t pa v z) : t = s := by
  simp only [State.useLeaf] at h
  repeat' split at h
  all_goals first | (cases h; done) | (cases h; rfl)

theorem State.useLeaf_fault {s t : State} {o va lvl ent : Nat} {rd wr user : Bool} {c : Cause} {i : Word}
    (h : s.useLeaf o va lvl ent rd wr user = .fault t c i) : t = s := by
  simp only [State.useLeaf] at h
  repeat' split at h
  all_goals first | (cases h; done) | (cases h; rfl)

/-- A binding writes memory at homes alone, whether it ends in a leaf or in a fault. -/
theorem State.bind_walkedTo {s : State} {o d va lvl a ent : Nat} :
    (∀ t leaf, s.bind o d va lvl a ent = .leaf t leaf → s.walkedTo t) ∧ (∀ t c i, s.bind o d va lvl a ent = .fails t c i → s.walkedTo t) := by
  have k := s.walkedTo_refl
  simp only [State.bind]
  constructor
  · intro t leaf h
    repeat' split at h
    all_goals first
      | (cases h; done)
      | (cases h
         exact State.walkedTo_applyAt (State.walkedTo_countWalk (State.walkedTo_applyAt
           (State.walkedTo_countWalk (State.walkedTo_countWalk k _ _) _ _) _ _) _ _) _ _)
  · intro t c i h
    repeat' split at h
    all_goals first
      | (cases h; done)
      | (cases h; exact State.walkedTo_countWalk (State.walkedTo_countWalk k _ _) _ _)
      | (cases h
         exact State.walkedTo_countWalk (State.walkedTo_applyAt
           (State.walkedTo_countWalk (State.walkedTo_countWalk k _ _) _ _) _ _) _ _)

theorem State.walkedTo_useLeaf {s u : State} {o va lvl ent : Nat} {rd wr user : Bool} (k : s.walkedTo u) :
    (∀ t pa v z, u.useLeaf o va lvl ent rd wr user = .ok t pa v z → s.walkedTo t)
      ∧ (∀ t c i, u.useLeaf o va lvl ent rd wr user = .fault t c i → s.walkedTo t) :=
  ⟨fun _ _ _ _ h => State.useLeaf_walkedTo h ▸ k, fun _ _ _ h => State.useLeaf_fault h ▸ k⟩

theorem State.walkedTo_fault {s u : State} {c : Cause} {i : Word} (k : s.walkedTo u) :
    (∀ t pa v z, Walk.fault u c i = .ok t pa v z → s.walkedTo t) ∧ (∀ t c' i', Walk.fault u c i = .fault t c' i' → s.walkedTo t) :=
  ⟨fun _ _ _ _ h => Walk.noConfusion h, fun _ _ _ h => by cases h; exact k⟩

/-- A walk leaves every core alone and keeps the canonical form of memory, whether it answers an address or faults. -/
theorem State.walk_walks (s : State) (o va : Nat) (d : Option Nat) (rd wr user : Bool) :
    (∀ t pa v z, s.walk o d va rd wr user = .ok t pa v z → s.walkedTo t)
      ∧ (∀ t c i, s.walk o d va rd wr user = .fault t c i → s.walkedTo t) := by
  have k := s.walkedTo_refl
  simp only [State.walk]
  split
  · exact State.walkedTo_fault k
  · split
    · exact State.walkedTo_useLeaf k
    · split
      · exact State.walkedTo_fault k
      · split
        · split
          · exact State.walkedTo_fault k
          · split
            · exact ⟨fun _ _ _ _ h => Walk.noConfusion h, fun _ _ _ h => Walk.noConfusion h⟩
            · split
              · rename_i hb; exact State.walkedTo_fault (State.bind_walkedTo.2 _ _ _ hb)
              · exact ⟨fun _ _ _ _ h => Walk.noConfusion h, fun _ _ _ h => Walk.noConfusion h⟩
              · rename_i hb; exact State.walkedTo_useLeaf (State.bind_walkedTo.1 _ _ hb)
        · refine State.walkedTo_useLeaf ?_
          split <;> exact ⟨rfl, rfl, rfl, id⟩

theorem State.walk_walkedTo {s t : State} {o va pa v z : Nat} {d : Option Nat} {rd wr user : Bool}
    (h : s.walk o d va rd wr user = .ok t pa v z) : s.walkedTo t := (s.walk_walks o va d rd wr user).1 _ _ _ _ h

theorem State.walkPeer_walkedTo {s t : State} {o off pa v z : Nat} {rd wr : Bool} (h : s.walkPeer o off rd wr = .ok t pa v z) :
    s.walkedTo t := by
  simp only [State.walkPeer] at h
  repeat' split at h
  all_goals first | cases h | skip
  rename_i hw
  exact State.walk_walkedTo hw

/-- Resolving an address leaves every core alone and keeps the canonical form of memory. -/
theorem State.resolve_walkedTo {s t : State} {c n : Nat} {a : Word} {rd wr : Bool} {l : Loc}
    (h : s.resolve c a n rd wr = .at t l) : s.walkedTo t := by
  simp only [State.resolve, State.resolveAs] at h
  repeat' split at h
  all_goals first | (cases h; done) | (cases h; exact s.walkedTo_refl) | skip
  · rename_i hw; cases h; exact State.walkPeer_walkedTo hw
  · rename_i hw; cases h; exact State.walk_walkedTo hw

/-! ### The pool (R241, R347) -/

/-- Words of other lines mask nothing of a line. -/
theorem maskWords_others (bad : Table Bool) (l : Nat) (v : Row) : maskWords (bad.filter fun e => e.1 / 128 != l) l v = v := by
  induction bad with
  | nil => rfl
  | cons e t ih =>
    by_cases h : e.1 / 128 = l
    · simpa [List.filter_cons, h] using ih
    · have : (e.1 / 128 == l) = false := by simpa using h
      simp only [maskWords, List.filter_cons, bne, this, Bool.not_false, if_true, List.foldl_cons, Bool.and_false, Bool.false_eq_true, if_false] at ih ⊢
      exact ih

/-- Taking the words of another line away masks a line as before. -/
theorem maskWords_other (bad : Table Bool) {l j : Nat} (v : Row) (h : j ≠ l) :
    maskWords (bad.filter fun e => e.1 / 128 != l) j v = maskWords bad j v := by
  induction bad generalizing v with
  | nil => rfl
  | cons e t ih =>
    by_cases k : e.1 / 128 = l
    · have : (e.1 / 128 == j) = false := by simpa [k] using fun a => h a.symm
      simp only [maskWords, List.filter_cons, bne, k, beq_self_eq_true, Bool.not_true, Bool.false_eq_true, if_false, List.foldl_cons] at ih ⊢
      rw [ih]; simp [← k, this]
    · have : (e.1 / 128 == l) = false := by simpa using k
      simp only [maskWords, List.filter_cons, bne, this, Bool.not_false, if_true, List.foldl_cons] at ih ⊢
      exact ih _

/-- A pool line written whole reads as written. -/
@[simp] theorem Core.line_setLine (k : Core) (l : Nat) (v : Row) : (k.setLine l v).line l = v := by
  simp [Core.line, Core.setLine, maskWords_others]

/-- Writing a pool line leaves every other line. -/
theorem Core.line_setLine_other (k : Core) {l j : Nat} (v : Row) (h : j ≠ l) : (k.setLine l v).line j = k.line j := by
  simp [Core.line, Core.setLine, maskWords_other _ _ h, get_put_other _ _ _ (Ne.symm h)]

/-! ### Stores -/

theorem State.writeCluster_inForm {s : State} (k : Nat) (bs : List Byte) (h : s.memoryInForm) : (s.writeCluster k bs).1.memoryInForm := by
  obtain ⟨a, b⟩ := h
  simp only [State.writeCluster]
  split
  · exact ⟨a, b⟩
  · split
    · exact ⟨a, b⟩
    · exact ⟨a, tableWf_writeBytes _ _ _ b⟩

theorem State.writeHome_inForm {s : State} (c pa : Nat) (bs : List Byte) (h : s.memoryInForm) : (s.writeHome c pa bs).memoryInForm := by
  simp only [State.writeHome]
  split
  · exact State.applyAt_inForm _ _ h
  · exact h

/-- The vector that a store leaves is no byte of memory. -/
theorem State.leaveKv_inForm {s : State} (c : Nat) (l : Loc) (h : s.memoryInForm) : (s.leaveKv c l).memoryInForm := by
  unfold State.leaveKv; exact ⟨h.1, h.2⟩

/-- A store keeps the canonical form. -/
theorem State.storeAt_inForm {s : State} (c : Nat) (l : Loc) (bs : List Byte) (h : s.memoryInForm) : (s.storeAt c l bs).1.memoryInForm := by
  cases l with
  | scr o => exact ⟨h.1, h.2⟩
  | clus k =>
    have hw := State.writeCluster_inForm k bs h
    simp only [State.storeAt]
    split
    · exact State.leaveKv_inForm c _ hw
    · exact hw
  | phys pa =>
    have hw := State.writeHome_inForm c pa bs h
    simp only [State.storeAt]
    split
    · exact h
    · split
      · exact State.leaveKv_inForm c _ hw
      · exact hw

theorem State.leaveKv_mem (s : State) (c : Nat) (l : Loc) : (s.leaveKv c l).mem = s.mem := by unfold State.leaveKv; rfl

theorem State.writeCluster_mem (s : State) (k : Nat) (bs : List Byte) : (s.writeCluster k bs).1.mem = s.mem := by
  simp only [State.writeCluster]
  repeat' split
  all_goals rfl

/-- Every byte of memory outside a write at its home reads as before. -/
theorem State.writeHome_outside (s : State) (c pa : Nat) (bs : List Byte) (a : Nat) (h : a < pa ∨ pa + bs.length ≤ a) :
    get 0#8 (s.writeHome c pa bs).mem a = get 0#8 s.mem a := by
  simp only [State.writeHome]
  split
  · simpa using get_writeBytes_outside s.mem pa bs a h
  · rfl

/-- Every byte of memory outside a store's own bytes reads as before. -/
theorem State.storeAt_outside (s : State) (c : Nat) (l : Loc) (bs : List Byte) (a : Nat)
    (h : ∀ pa, l = .phys pa → a < pa ∨ pa + bs.length ≤ a) : get 0#8 (s.storeAt c l bs).1.mem a = get 0#8 s.mem a := by
  cases l with
  | scr o => rfl
  | clus k =>
    have hw := congrArg (get 0#8 · a) (State.writeCluster_mem s k bs)
    simp only [State.storeAt]
    split
    · rw [State.leaveKv_mem]; exact hw
    · exact hw
  | phys pa =>
    have hw := State.writeHome_outside s c pa bs a (h pa rfl)
    simp only [State.storeAt]
    split
    · rfl
    · split
      · rw [State.leaveKv_mem]; exact hw
      · exact hw

end Sys2Proof.Machine
end

