-- ==== Sys2Proof/Laws/Shaving.lean ====
section
/-! SUPPORT. Laws of the shaving: the sizes of its segments, and that a save into a mapped area goes through. -/
namespace Sys2Proof.Machine

theorem length_leBytes (n x : Nat) : (leBytes n x).length = n := by
  induction n generalizing x with
  | zero => rfl
  | succ n ih => simp [leBytes, ih]

theorem length_words8 (l : List Nat) : (words8 l).length = 8 * l.length := by
  simp [words8, List.length_flatMap, length_leBytes, List.map_const', Nat.mul_comm]

theorem length_fit (n : Nat) (bs : List Byte) : (fit n bs).length = n := by
  simp only [fit, List.length_append, List.length_take, List.length_replicate]; omega

theorem length_flat {α β : Type} (l : List α) (f : α → List β) (k : Nat) (h : ∀ x ∈ l, (f x).length ≤ k) : (l.flatMap f).length ≤ l.length * k := by
  induction l with
  | nil => simp
  | cons a l ih =>
    simp only [List.flatMap_cons, List.length_append, List.length_cons, Nat.succ_mul]
    have := h a (by simp); have := ih fun x hx => h x (by simp [hx]); omega

theorem length_mat (m : Matrix) (free : Nat) : (m.segment true free).length ≤ 2000000 := by
  have a (q : Nat) : ((List.range 256).flatMap fun n => leBytes 4 (transitOperand m q n)).length ≤ 1024 := by
    have := length_flat (List.range 256) (fun n => leBytes 4 (transitOperand m q n)) 4 (by simp [length_leBytes]); simpa using this
  have b := length_flat (List.range 48) _ 1024 fun q _ => a q
  have c (t : Table Row) (d : Row) (n : Nat) : (tableBytes t d n).length ≤ n * 1024 := by
    have := length_flat (List.range n) (fun i => rowBytes (get d t i)) 1024 (by simp [rowBytes, length_leBytes]); simpa [tableBytes] using this
  have d := length_flat (List.range 16) (fun t => (get DrainRecord.cleared m.records t).bytes) 67648
    (by simp [DrainRecord.bytes, length_fit, length_leBytes])
  have e : (replayBytes m.replay).length ≤ 372736 := by
    cases m.replay with
    | none => simp only [replayBytes, List.length_replicate]; omega
    | some o =>
      have e0 (i : Nat) : ((List.range 96).flatMap fun r => leBytes 2 (o.activations i r)).length ≤ 192 := by
        have := length_flat (List.range 96) (fun r => leBytes 2 (o.activations i r)) 2 (by simp [length_leBytes]); simpa using this
      have e1 := length_flat (List.range 256) (fun i => if o.kind = .spec then (List.range 96).flatMap fun r => leBytes 2 (o.activations i r)
        else (rowBytes (get 0#8192 o.acts i)).take 192) 192 (fun i _ => by
          split
          · exact e0 i
          · rw [List.length_take]; exact Nat.min_le_left _ _)
      have e2 := length_flat (List.range 65536) (fun i => leBytes 4 (get 0#64 o.read (512 * (i / 256) + i % 256)).toNat) 4 (by simp [length_leBytes])
      have e3 := length_flat (List.range 24576) (fun i => leBytes 2 (o.set.peWord (i / 256) (i % 256))) 2 (by simp [length_leBytes])
      simp only [replayBytes, List.length_append, List.length_replicate, List.length_range] at *
      omega
  have f : (transformBytes m.xops free).length ≤ 38912 := by
    unfold transformBytes
    split
    · simp only [List.length_replicate, Nat.le_refl]
    · rw [List.length_append, length_fit]
      show _ ≤ 36864 + 2048
      refine Nat.add_le_add_right (Nat.le_trans (length_flat _ _ 1024 fun i _ => ?_) (by simp)) _
      simp only [rowBytes, length_leBytes, Nat.le_refl]
  have g := c (m.weightRows 0) 0 48
  have g1 := c (m.weightRows 1) 0 48
  have g2 := c m.wb0.set.scales scaleRow 12
  have g3 := c m.wb1.set.scales scaleRow 12
  have g4 := c m.actScales scaleRow 12
  have g5 := c m.wScales scaleRow 12
  simp only [List.length_range] at *
  simp only [Matrix.segment, List.length_append, length_fit, listBytes, if_true]
  omega

theorem length_links (l : Links) : l.segment.length ≤ 100000 := by
  have a (n q : Nat) (f : Nat → List Byte) (h : ∀ q, (f q).length = n) (l : List Nat) : (l.flatMap f).length = l.length * n := by
    induction l with
    | nil => simp
    | cons x l ih => simp [h, ih, Nat.succ_mul]; omega
  simp only [Links.segment, List.length_append, List.length_map, List.length_range, length_leBytes, length_words8, length_fit,
    List.length_replicate, List.flatMap_cons, List.flatMap_nil, List.length_nil, List.length_cons]
  omega

theorem length_loc (x : Ctx) : x.locSegment.length ≤ 100000 := by
  have a := length_flat (List.range 8) (fun i => leBytes 128 (get 0#1024 x.loc.masks i).toNat) 128 (by simp [length_leBytes])
  simp only [Ctx.locSegment, List.length_append, List.length_map, List.length_range, length_leBytes, length_words8, length_fit,
    List.length_nil, List.length_cons] at *
  omega

theorem length_eng (g : Engine) : g.segment.length ≤ 100000 := by
  simp only [Engine.segment, List.length_append, length_fit]; omega

theorem length_band (m : Matrix) (ops : List ArrayOp) (r c : Nat) : (m.band ops r c).length ≤ 100000 := by
  refine Nat.le_trans (length_flat _ _ 9 fun i _ => ?_) (by simp)
  simp only [length_leBytes, Nat.le_refl]

theorem length_seq (x : Ctx) (sm : Stream) (b : Bool) (h : x.records sm = []) : (x.seqSegment sm b).length ≤ 1000000 := by
  have i : (x.seq sm |>.imemBytes sm).length ≤ 200000 := by
    refine Nat.le_trans (length_flat _ _ 2 fun i _ => ?_) ?_
    · simp only [length_leBytes, Nat.le_refl]
    · cases sm <;> simp [imemSize]
  have j (z : List Byte) (h : z.length ≤ 200000) : (if b then z else []).length ≤ 200000 := by cases b <;> simp [h]
  have := j _ i
  have r : regCount sm ≤ 32 := by cases sm <;> simp [regCount]
  have w (p : List Byte) (hp : p.length ≤ 1000) : (leBytes 32 (x.seq sm |>.fixed sm x.loc.turn (x.records sm).length x.cr.priv)
      ++ words8 ((List.range (regCount sm)).map fun i => (x.seq sm |>.reg i).toNat) ++ p ++ (x.records sm).flatten
      ++ (if b then (x.seq sm).imemBytes sm else [])).length ≤ 1000000 := by
    rw [h]
    simp only [List.length_append, length_leBytes, length_words8, List.length_map, List.length_range, List.flatten_nil, List.length_nil]
    omega
  refine w _ ?_
  split <;> simp only [CtlRegs.bytes, List.length_append, length_words8, length_fit, List.length_map, List.length_range, List.length_cons, List.length_nil] <;> omega

theorem heldWrite_nil (s : State) (c : Nat) (hs : List PageHold) (va : Nat) : s.heldWrite c hs va [] = some s := by
  cases hs <;> simp [State.heldWrite]

/-- A write whose bytes lie in the first held page goes through. -/
theorem heldWrite_held (s : State) (c : Nat) (h : PageHold) (hs : List PageHold) (va : Nat) (bs : List Byte) (a : h.va ≤ va)
    (b : va + bs.length ≤ h.va + h.size) : ∃ u, s.heldWrite c (h :: hs) va bs = some u := by
  by_cases e : bs = []
  · exact ⟨s, by rw [e, heldWrite_nil]⟩
  · have : 0 < bs.length := List.length_pos_iff.2 e
    have m : Nat.min bs.length (h.va + h.size - va) = bs.length := Nat.min_eq_left (by omega)
    refine ⟨s.writeEngine c 0 (h.pa + (va - h.va)) bs, ?_⟩
    rw [State.heldWrite, if_neg e, if_pos ⟨a, by omega⟩]
    simp only [m, List.take_length, List.drop_length, heldWrite_nil]

theorem length_readBytes (m : Table Byte) (a n : Nat) : (readBytes m a n).length = n := by
  induction n generalizing a with
  | zero => rfl
  | succ n ih => simp [readBytes, ih]

theorem length_held (s : State) (hs : List PageHold) (va n : Nat) (bs : List Byte) (h : s.heldBytes hs va n = some bs) : bs.length = n := by
  induction hs generalizing va n bs with
  | nil =>
    simp only [State.heldBytes] at h
    split at h
    · simp_all
    · simp at h
  | cons g hs ih =>
    simp only [State.heldBytes] at h
    split at h
    · simp_all
    · split at h
      · split at h
        · simp at h
        · obtain ⟨r, e, rfl⟩ := Option.map_eq_some_iff.1 h
          rw [List.length_append, ih _ _ _ e, State.memBytes, length_readBytes]
          exact Nat.add_sub_cancel' (Nat.min_le_left n _)
      · exact ih _ _ _ h

theorem length_area (s : State) (hs : List PageHold) (va n : Nat) : (s.areaBytes hs va n).length = n := by
  rw [State.areaBytes]
  cases e : s.heldBytes hs va n with
  | none => simp
  | some bs => simpa using length_held s hs va n bs e

theorem length_header (s : State) (o : List PageHold) (va : Nat) (own : BitVec 128) (h : ShavingHeader) : (h.bytes (s.segCrcs o va own)).length ≤ 1000 := by
  have c : (s.segCrcs o va own).length ≤ 512 := by
    have f : (segsIn own).length ≤ 128 := Nat.le_trans (List.length_filter_le ..) (by simp)
    have := length_flat (segsIn own) (fun i => s.areaBytes o (va + segPlace i + 8) 4) 4 (by simp [length_area])
    rw [State.segCrcs]; omega
  simp only [ShavingHeader.bytes, List.length_append, length_leBytes, List.length_replicate]
  omega

/-- Segments below 40 whose places lie in the first held page of an area are written. -/
theorem writeSegs_held (s : State) (j : SaveJob) (h : PageHold) (hs : List PageHold) (hh : j.holds = h :: hs) (n : Nat) (hm : Nat.min n j.segments ≤ 40)
    (hl : ∀ i, i < Nat.min n j.segments → h.va ≤ j.area + segPlace i ∧ j.area + segPlace i + (segImage i (s.jobPay j j.ctx i)).length ≤ h.va + h.size) :
    ∃ r, s.writeSegs j n = some r := by
  rw [State.writeSegs]
  generalize Nat.min n j.segments = m at hl hm
  induction m with
  | zero => exact ⟨_, rfl⟩
  | succ m ih =>
    obtain ⟨⟨u, f⟩, e⟩ := ih (fun i hi => hl i (by omega)) (by omega)
    simp only [List.range_succ, List.foldl_append, e, List.foldl_cons, List.foldl_nil]
    split
    · obtain ⟨w, ew⟩ := heldWrite_held u j.core h hs _ _ (hl m (by omega)).1 (hl m (by omega)).2
      have p : s.segParts j m = [(0, segImage m (s.jobPay j j.ctx m))] := by rw [State.segParts, if_pos (Or.inl (by omega))]
      rw [p, hh, State.writeParts, Nat.add_zero, ew]
      exact ⟨_, rfl⟩
    · exact ⟨_, rfl⟩

theorem segs_unwritten (s : State) (j : SaveJob) (n : Nat) (h : ∀ i, i < Nat.min n j.segments → s.jobWrites j i = false) :
    s.writeSegs j n = some (s, 0) := by
  rw [State.writeSegs]
  generalize Nat.min n j.segments = m at h
  induction m with
  | zero => rfl
  | succ m ih =>
    rw [List.range_succ, List.foldl_append, ih fun i hi => h i (by omega)]
    simp [h m (by omega)]

theorem length_jobPay (s : State) (j : SaveJob) (i : Nat) (hi : i < 40) (hc : layoutOf j.core = 0x0A10) (h : ∀ sm, j.ctx.records sm = []) :
    (s.jobPay j j.ctx i).length ≤ 2000000 := by
  rw [State.jobPay, if_pos hi, hc]
  unfold Ctx.payload
  split
  · exact Nat.le_trans (length_seq _ _ _ (h _)) (by omega)
  split
  · exact Nat.le_trans (length_links _) (by omega)
  split
  · exact Nat.le_trans (length_loc _) (by omega)
  split
  · exact Nat.le_trans (length_eng _) (by omega)
  split
  · exact length_mat _ _
  · exact Nat.le_trans (length_band _ _ _ _) (by omega)

theorem image_bound (i p : Nat) (pay : List Byte) (h : pay.length ≤ 2000000) (hp : p < 5000000) :
    p + (segImage i pay).length ≤ areaSize := by
  simp only [segImage, padTo, List.length_append, length_leBytes, List.length_replicate, areaSize]
  omega

theorem dump_steps {s s1 s2 v : State} {j : SaveJob} {seq : Nat} {a b : BitVec 128} (h1 : s.writeSegs j 40 = some (s1, a))
    (h2 : s1.writeSegs j.wholeRows j.segments = some (s2, b))
    (h3 : s2.writeHeader j.core j.holds j.area (j.header (a ||| b) (a ||| b) true seq) = some v) : s.dumpAll j seq = some v := by
  simp only [State.dumpAll, h1, h2, h3]

end Sys2Proof.Machine
end

