-- ==== Sys2Proof/Laws/Traps.lean ====
section
/-! SUPPORT. Laws of taking an exception: what a record of the trace leaves, and the three ways a trap proceeds. -/
namespace Sys2Proof.Machine

theorem State.walkedTo_trans {s t u : State} (h : s.walkedTo t) (k : t.walkedTo u) : s.walkedTo u :=
  ⟨k.1.trans h.1, k.2.1.trans h.2.1, k.2.2.1.trans h.2.2.1, fun i => k.2.2.2 (h.2.2.2 i)⟩

theorem State.hubWrite_walkedTo {s t : State} {o va : Nat} {bs : List Byte} (h : s.hubWrite o va bs = some t) : s.walkedTo t := by
  simp only [State.hubWrite] at h
  split at h
  · rename_i hw; cases h; exact State.walkedTo_applyAt (State.walk_walkedTo hw) _ _
  · cases h

theorem pushRecord_walkedTo (t : TraceRing) (s : State) (write : State → Nat → List Byte → Option State) (lost rec : List Byte)
    (h : ∀ s off b u, write s off b = some u → s.walkedTo u) : s.walkedTo (pushRecord t s write lost rec).1 := by
  simp only [pushRecord]
  repeat' split
  all_goals first
    | exact s.walkedTo_refl
    | (rename_i hw; exact h _ _ _ _ hw)
    | skip
  all_goals first
    | exact State.walkedTo_trans (h _ _ _ _ (by assumption)) (h _ _ _ _ (by assumption))
    | skip
  all_goals first
    | exact h _ _ _ _ (by assumption)

/-- Writing a trace record into its ring leaves every core, the unit being run and cluster SRAM alone (R373). -/
theorem State.writeRec_walkedTo (s : State) (c : Nat) (r : TraceRec) : s.walkedTo (s.writeRec c r) :=
  State.walkedTo_trans (pushRecord_walkedTo _ _ _ _ _ fun _ _ _ _ hw => State.hubWrite_walkedTo hw) ⟨rfl, rfl, rfl, id⟩

/-- A trace record joins those of its core's cycle and leaves every live context alone (R372). -/
@[simp] theorem State.traceAs_ctx (s : State) (c kind corr name data d : Nat) : (s.traceAs c kind corr name data).ctx d = s.ctx d := by
  simp only [State.traceAs]
  split
  · rfl
  · by_cases h : d = c
    · subst h; simp [State.ctx]
    · simp [State.ctx, State.modCore_core_other _ _ h]

@[simp] theorem State.trace_ctx (s : State) (c kind name data d : Nat) : (s.trace c kind name data).ctx d = s.ctx d :=
  s.traceAs_ctx _ _ _ _ _ _

@[simp] theorem State.traceTrap_ctx (s : State) (c : Nat) (sm : Stream) (e : Cause) (i : Word) (d : Nat) :
    (s.traceTrap c sm e i).ctx d = s.ctx d := s.trace_ctx _ _ _ _ _

@[simp] theorem Core.dropCapture_live (k : Core) : k.dropCapture.live = k.live := by unfold Core.dropCapture; split <;> rfl

@[simp] theorem Core.noteTrap_live (k : Core) (precise unwound : Bool) : (k.noteTrap precise unwound).live = k.live := by
  unfold Core.noteTrap; split <;> simp

/-- The head of a sequencer that has trapped stands: no control register changes. -/
@[simp] theorem State.headHeld_cr (s : State) (c : Nat) (sm : Stream) : ((s.headHeld c sm).ctx c).cr = (s.ctx c).cr := by
  cases sm <;> simp [State.headHeld, State.modSeq, State.ctx, Ctx.modSeq]

/-- The state in which a trap is taken: its head held, its record made, and its core's cycle marked (R361, R371). -/
def State.trapped (s : State) (c : Nat) (sm : Stream) (cause : Cause) (info : Word) (precise unwound : Bool) : State :=
  ((if precise ∨ sm = .ctl then s.headHeld c sm else s).traceTrap c sm cause info).modCore c fun k => k.noteTrap precise unwound

/-- The state in which a trap is taken has its control registers as they were. -/
@[simp] theorem State.trapped_cr (s : State) (c : Nat) (sm : Stream) (e : Cause) (i : Word) (p u : Bool) :
    ((s.trapped c sm e i p u).ctx c).cr = (s.ctx c).cr := by
  have h (t : State) : ((t.traceTrap c sm e i).core c).live = (t.core c).live := t.traceTrap_ctx c sm e i c
  have hh := s.headHeld_cr c sm
  simp only [State.ctx] at hh ⊢
  simp only [State.trapped, State.modCore_core, Core.noteTrap_live, h]
  split <;> simp [*]

/-- THE THREE WAYS OF A TRAP (R115, R116). -/
theorem State.takeTrapAt_cases (s : State) (c : Nat) (sm : Stream) (cause : Cause) (info : Word) (skip precise : Bool) :
    s.takeTrapAt c sm cause info skip precise =
      let u := s.trapped c sm cause info precise (contained cause && (s.ctx c).cr.regionOpen)
      if contained cause ∧ (s.ctx c).cr.regionOpen then (u.leaveWait c).modCtx c fun x => x.unwind cause info
      else if (s.ctx c).cr.trapEn ∧ ¬ (s.ctx c).cr.inh then u.modCtx c fun x => x.enter sm cause info skip precise
      else u.faultTask c sm cause info precise := by
  simp only [State.takeTrapAt, State.trapped, Bool.and_eq_true]

end Sys2Proof.Machine
end

