-- ==== Sys2Proof/Tests/Slice0.lean ====
section
/-! SUPPORT. The model's own tests: ill-formed terms, decoding, one step of a few instructions against the specification's own words,
and for every statement states that meet its hypotheses. -/
namespace Sys2Proof.Tests
set_option Elab.async false
open Sys2Proof.Machine

/-! ### States to try one unit in -/

/-- The state in which instruction i, of type ty, is the current unit of sequencer sm on core c. -/
def placed (s : State) (c : Nat) (sm : Stream) (ty : Nat) (i : Instr) : State :=
  let hs := (encodeHalves i).getD []
  { s.modCore c (fun k => k.standAt sm ty hs) with
    agenda := [], turn := .issue c sm
    unit := { core := c, sq := sm, guard := true, ty := ty, popM := 0, pushM := 0, addr := 2, word := 2, len := hs.length,
              hasTyp := false, hasPre := false, pred := 0, need := profMask (i.required ty), stay := false, late := isSteal i } }

/-- An instruction as the current unit of the first stream that accepts it, right after reset. -/
def ready (i : Instr) : State := placed State.reset (coreFor i) (streamFor i) (typeFor i (coreFor i) (streamFor i)) i

/-- Scalar registers of the current unit's sequencer set. -/
def withRegs (s : State) (l : List (Nat × Word)) : State :=
  s.modSeq s.unit.core s.unit.sq fun q => { q with regs := l.foldl (fun m p => put 0#64 m p.1 p.2) q.regs }

/-- The state that an execution answers; reset where it answers none. -/
def after : Host.Outcome State Fault Refusal → State
  | .next t => t
  | _ => State.reset

/-- A scalar register after an instruction has run with registers set. -/
def regAfter (i : Instr) (l : List (Nat × Word)) (n : Nat) : Word := (after (exec i (withRegs (ready i) l))).here.reg n

/-- A predicate after an instruction has run with registers set. -/
def predAfter (i : Instr) (l : List (Nat × Word)) (n : Nat) : Bool := (after (exec i (withRegs (ready i) l))).here.pred n

/-- The cause with which a state's unit has trapped, its core's ECAUSE, when TVEC.EN was set. -/
def trapping (s : State) : State := s.modCr s.unit.core fun r => { r with tvec := 0x10010 }

/-! ### Well-formedness: an ill-formed term for each check -/

/-- R85: a scope above 4, a rounding mode above 3. -/
theorem test_wf_fields : (Instr.amoAdd 1 2 3 5).wf = false ∧ (Instr.fence 7).wf = false ∧ (Instr.vcvt 1 2 1 0 4).wf = false
    ∧ (Instr.amoAdd 1 2 3 4).wf = true := by decide +kernel
/-- R84: the streams that accept an instruction; R119: `csrr` outside CTL. -/
theorem test_wf_streams : (Instr.fwait 5 8 9).streamOk .ld = false ∧ (Instr.mma 0 2 1).streamOk .ctl = false
    ∧ (Instr.csrr 3 4 0).streamOk .mx = false ∧ (Instr.csrr 3 16 3).streamOk .mx = true ∧ Instr.blockEntry.wf = false := by decide +kernel
/-- R52: s16 and above outside CTL, a mask above m7, a kind-01 source above s15. -/
theorem test_wf_registers : (Instr.add 16 1 2).operandsOk .ld = false ∧ (Instr.add 16 1 2).operandsOk .ctl = true
    ∧ (Instr.vcmpLt 8 9 10).wf = false ∧ (Instr.mand 1 2 9).wf = false ∧ (Instr.vadd 1 0x50 2).wf = false
    ∧ (Instr.tcfg 16 1).wf = false := by decide +kernel
/-- R90: p22 is no destination, and p24 no source. -/
theorem test_wf_predicates : (Instr.cmpEq 22 1 2).wf = false ∧ (Instr.pmov 1 24).wf = false ∧ (Instr.pmov 1 23).wf = true
    ∧ (Instr.rngTake 3 4 22).wf = false := by decide +kernel
/-- R72, R100: the queues a stream may push and pop, and the peers of a token. -/
theorem test_wf_queues : (Instr.qpush 3 1).operandsOk .ctl = false ∧ (Instr.qpop 1 0).operandsOk .ctl = false
    ∧ (Instr.qpush 3 1).operandsOk .ld = true ∧ (Instr.kpush 3).wf = false := by decide +kernel
/-- R63: what an atomic block may not hold. -/
theorem test_wf_atomic : (Instr.br 0 0 0).atomicOk = false ∧ (Instr.qpop 1 3).atomicOk = false ∧ (Instr.amoAdd 1 2 3 0).atomicOk = false
    ∧ (Instr.stD 1 2 3).atomicOk = true := by decide +kernel

/-! ### Decoding: a word of every encoding, its fields laid out as R49, R50, R51 and R78 say -/

/-- Whether the decoder reads every word of a list as the instruction beside it. -/
def reads (l : List (Nat × Nat × Instr)) : Bool := l.all fun t => decodeTableWord t.1 t.2.1 == some t.2.2

/-! ### Memory to try accesses in -/

/-- A partition of quad 0 with region 0, whose addresses below 2^29 map to themselves: a table at 0x10000 and a leaf of 512 MiB. -/
def mapped (s : State) : State :=
  { s with
    mem := writeBytes (writeBytes s.mem 0x10000 (leBytes 8 0x20001)) 0x20000 (leBytes 8 0x1F)
    parts := put Part.cleared s.parts 0 { Part.cleared with ptroot := 1, partslot := 1 }
    regions := put Region.free s.regions 0 { Region.free with assigned := true } }

/-- An access that resolves, in terms of what is found. -/
theorem meets {r : Resolved} (P : State → Loc → Prop) [∀ s l, Decidable (P s l)]
    (h : (match r with | .at s l => decide (P s l) | _ => false) = true) : ∃ s l, r = .at s l ∧ P s l := by
  match r with
  | .at s l => exact ⟨s, l, rfl, of_decide_eq_true h⟩
  | .fault _ _ _ => exact absurd h Bool.false_ne_true
  | .stall => exact absurd h Bool.false_ne_true

/-- A result that is there, in terms of what it is. -/
theorem found {α : Type} {r : Option α} (P : α → Prop) [∀ a, Decidable (P a)]
    (h : (match r with | some a => decide (P a) | none => false) = true) : ∃ a, r = some a ∧ P a := by
  match r with
  | some a => exact ⟨a, rfl, of_decide_eq_true h⟩
  | none => exact absurd h Bool.false_ne_true

/-- A result without an error, in terms of what it is. -/
theorem settled {ε α : Type} {r : Except ε α} (P : α → Prop) [∀ a, Decidable (P a)]
    (h : (match r with | .ok a => decide (P a) | .error _ => false) = true) : ∃ a, r = .ok a ∧ P a := by
  match r with
  | .ok a => exact ⟨a, rfl, of_decide_eq_true h⟩
  | .error _ => exact absurd h Bool.false_ne_true

/-- The c16 words. -/
theorem test_decode_c16 : reads [
    (16, 0x0000, .nop), (16, 0x4D42, .movC16 21 9), (16, 0x4D44, .addiC16 21 9), (16, 0x4D46, .addC16 21 9),
    (16, 0x4D48, .subC16 21 9), (16, 0x4D4A, .liC16 21 9), (16, 0x4D4C, .pmov 21 9), (16, 0x4D4E, .pnot 21 9),
    (16, 0x4950, .qpushC16 5 9), (16, 0x4952, .qpopC16 5 9), (16, 0x0054, .kpushC16 1), (16, 0x0056, .kpopC16 1),
    (16, 0x4D58, .mark 21 9), (16, 0x001A, .ret), (16, 0xFFFF, .wall)] = true := by decide +kernel
/-- The scalar words. -/
theorem test_decode_scalar : reads [
    (32, 0x00049A83, .add 21 9 2), (32, 0x00449A83, .sub 21 9 2), (32, 0x00849A83, .and 21 9 2), (32, 0x00C49A83, .or 21 9 2),
    (32, 0x01049A83, .xor 21 9 2), (32, 0x01449A83, .shl 21 9 2), (32, 0x01849A83, .shr 21 9 2), (32, 0x01C49A83, .sra 21 9 2),
    (32, 0x02049A83, .mul 21 9 2), (32, 0x02449A83, .mulh 21 9 2), (32, 0x02849A83, .mulhu 21 9 2), (32, 0x02C49A83, .min 21 9 2),
    (32, 0x03049A83, .max 21 9 2), (32, 0x03449A83, .minu 21 9 2), (32, 0x03849A83, .maxu 21 9 2), (32, 0x03C09A83, .mov 21 9),
    (32, 0xC5C49A85, .addi 21 9 25314), (32, 0xD2D20A87, .li 21 26985), (32, 0xC5C49A89, .andi 21 9 25314)] = true := by decide +kernel
/-- The predicate words. -/
theorem test_decode_predicate : reads [
    (32, 0x00049A8B, .cmpEq 21 9 2), (32, 0x00449A8B, .cmpNe 21 9 2), (32, 0x00849A8B, .cmpLt 21 9 2), (32, 0x00C49A8B, .cmpLe 21 9 2),
    (32, 0x01049A8B, .cmpGt 21 9 2), (32, 0x01449A8B, .cmpGe 21 9 2), (32, 0x01849A8B, .cmpLtu 21 9 2),
    (32, 0x01C49A8B, .cmpGeu 21 9 2), (32, 0x02049A8B, .pand 21 9 2), (32, 0x02449A8B, .por 21 9 2), (32, 0x02849A8B, .pxor 21 9 2),
    (32, 0x02C49A8B, .pandn 21 9 2), (32, 0x04049A8B, .sel 21 9 2), (32, 0xA5C49A8D, .cmpi 21 9 738 5)] = true := by decide +kernel
/-- The memory words. -/
theorem test_decode_memory : reads [
    (32, 0x05C49A8F, .ldB 21 9 738), (32, 0x45C49A8F, .ldH 21 9 738), (32, 0x85C49A8F, .ldW 21 9 738), (32, 0xC5C49A8F, .ldD 21 9 738),
    (32, 0x05C49A91, .stB 21 9 738), (32, 0x45C49A91, .stH 21 9 738), (32, 0x85C49A91, .stW 21 9 738), (32, 0xC5C49A91, .stD 21 9 738),
    (32, 0x0A049A93, .amoAdd 21 9 2 5), (32, 0x0A449A93, .amoSwap 21 9 2 5), (32, 0x0A849A93, .amoCas 21 9 2 5),
    (32, 0x0AC49A93, .amoMin 21 9 2 5), (32, 0x0B049A93, .amoMax 21 9 2 5), (32, 0x0B449A93, .amoAnd 21 9 2 5),
    (32, 0x0B849A93, .amoOr 21 9 2 5)] = true := by decide +kernel
/-- The control words. -/
theorem test_decode_control : reads [
    (32, 0xC5C49A95, .br 21 9 25314), (32, 0xC5C49A97, .call 21 9 25314), (32, 0x00015019, .jr 21), (32, 0x00415019, .callr 21),
    (32, 0xC5C49A9B, .exit 21 9 25314)] = true := by decide +kernel
/-- The queue words. -/
theorem test_decode_queue : reads [
    (32, 0x0000929D, .qpush 5 9), (32, 0x00401A9D, .qpop 21 1), (32, 0x0084929D, .qpushT 5 9 2), (32, 0x00C41A9D, .qpopT 21 1 2),
    (32, 0x0100009D, .kpush 1), (32, 0x0140009D, .kpop 1), (32, 0x0B6A001F, .cut 437 1)] = true := by decide +kernel
/-- The wait words. -/
theorem test_decode_wait : reads [
    (32, 0x00049AA1, .fwait 21 9 2), (32, 0x00449AA1, .bwait 21 9 2), (32, 0x00935021, .barInit 21 9), (32, 0x00C15021, .barArrive 21),
    (32, 0x01135021, .barExpect 21 9), (32, 0x03400021, .fence 5), (32, 0x04000AA1, .time 21)] = true := by decide +kernel
/-- The trap words. -/
theorem test_decode_trap : reads [
    (32, 0xC5C49AA3, .contain 21 9 25314), (32, 0x00000025, .uncontain), (32, 0x00415025, .trap 21), (32, 0x00800025, .eret),
    (32, 0x00C49AA5, .csrr 21 9 2), (32, 0x01049AA5, .csrw 21 9 2), (32, 0x01409AA5, .ctOpen 21 9), (32, 0x01809AA5, .ctClose 21 9),
    (32, 0x01C15025, .yield 21), (32, 0x02000025, .brk)] = true := by decide +kernel
/-- The copy words. -/
theorem test_decode_copy : reads [
    (32, 0x87449AA9, .copyG2s 21 9 2 29 1), (32, 0x8F449AA9, .copyS2g 21 9 2 29 1), (32, 0x97449AA9, .copyG2c 21 9 2 29 1),
    (32, 0x9F449AA9, .copyC2g 21 9 2 29 1), (32, 0xA7449AA9, .copyC2s 21 9 2 29 1), (32, 0xAF449AA9, .copyS2c 21 9 2 29 1),
    (32, 0xB7449AA9, .copyX2s 21 9 2 29 1), (32, 0xBF449AA9, .copyS2x 21 9 2 29 1), (32, 0xC00492A9, .copyRing 5 9 2 1),
    (32, 0xCF4492A9, .copyMx 5 9 2 29 1), (32, 0xD7449AA9, .copyMc 21 9 2 29 1)] = true := by decide +kernel
/-- The scratch words. -/
theorem test_decode_scratch : reads [
    (32, 0x0013502B, .cpSnap 21 9), (32, 0x08009AAB, .salloc 21 9), (32, 0x1001502B, .sfree 21), (32, 0x1893502B, .imld 21 9 2),
    (32, 0x20049AAB, .peerImp 21 9 2), (32, 0x2F449AAB, .peerExp 21 9 2 29),
    (32, 0x30009AAB, .peerRel 21 9)] = true := by decide +kernel
/-- The remote words. -/
theorem test_decode_remote : reads [
    (32, 0x0093502D, .renq 21 9 2), (32, 0x08049AAD, .taskPost 21 9 2), (32, 0x1241502D, .dqPush 21 9), (32, 0x1A400AAD, .dqPop 21 9),
    (32, 0x20809AAD, .dqSteal 21 9 2), (32, 0x2893502D, .rngSet 21 9 2), (32, 0x30809AAD, .rngTake 21 9 2),
    (32, 0x3F449AAD, .rngSteal 21 9 2 29)] = true := by decide +kernel
/-- The gather words. -/
theorem test_decode_gather : reads [
    (32, 0x000092AF, .gath 5 9), (32, 0x080092AF, .scat 5 9), (32, 0x1000502F, .gathQ 5), (32, 0x180492AF, .ringInit 5 9 2),
    (32, 0x200092AF, .ringPush 5 9), (32, 0x28009AAF, .ringPop 21 9)] = true := by decide +kernel
/-- The encoder words. -/
theorem test_decode_encoder : reads [
    (32, 0x00049AB1, .venc 21 9 2)] = true := by decide +kernel
/-- The array words. -/
theorem test_decode_array : reads [
    (32, 0x00028039, .wload 5), (32, 0x20028039, .wloadSpec 5), (32, 0x404A8039, .sload 5 9), (32, 0x60028039, .bload 5),
    (32, 0x804A8039, .oload 5 9), (32, 0xA0028039, .bgeo 5), (32, 0x001482BB, .mma 5 9 2), (32, 0x20104ABB, .mmaSpec 5 9 2),
    (32, 0x400002BB, .mzero 5), (32, 0x00104ABD, .xfFwd 5 9 2), (32, 0x20004ABD, .xfInv 5 9), (32, 0x40104ABD, .domScl 5 9 2),
    (32, 0x1A80003F, .segchk 53)] = true := by decide +kernel
/-- The vector arith words. -/
theorem test_decode_vector_arith : reads [
    (32, 0x1C4D3AC1, .vadd 53 105 226), (32, 0x3C4D3AC1, .vsub 53 105 226), (32, 0x5C4D3AC1, .vmul 53 105 226),
    (32, 0x7C4D3AC1, .vmin 53 105 226), (32, 0x9C4D3AC1, .vmax 53 105 226), (32, 0xA00D3AC1, .vabs 53 105),
    (32, 0xC00D3AC1, .vneg 53 105), (32, 0xE00D3AC1, .vmov 53 105), (32, 0x1C4D3AC3, .vfma 53 105 226),
    (32, 0x3C4D3AC3, .vfms 53 105 226), (32, 0x5C4D3AC3, .vfnma 53 105 226), (32, 0x7C4D3AC3, .vfnms 53 105 226),
    (32, 0x9C4D3AC3, .vcmul 53 105 226), (32, 0x1C4D3AC5, .vand 53 105 226), (32, 0x3C4D3AC5, .vor 53 105 226),
    (32, 0x5C4D3AC5, .vxor 53 105 226), (32, 0x7C4D3AC5, .vshl 53 105 226), (32, 0x9C4D3AC5, .vshr 53 105 226),
    (32, 0xBC4D3AC5, .vsra 53 105 226), (32, 0xDC4D3AC5, .vadds 53 105 226), (32, 0xFC4D3AC5, .vsubs 53 105 226),
    (32, 0xAA4D3AC7, .vcvt 53 105 2 5 5), (32, 0x1C4D3AC9, .vquant 53 105 226), (32, 0x1C4D3ACB, .vcmpEq 53 105 226),
    (32, 0x3C4D3ACB, .vcmpNe 53 105 226), (32, 0x5C4D3ACB, .vcmpLt 53 105 226), (32, 0x7C4D3ACB, .vcmpLe 53 105 226),
    (32, 0x9C4D3ACB, .vcmpGt 53 105 226), (32, 0xBC4D3ACB, .vcmpGe 53 105 226), (32, 0xDC4D3ACB, .vcmpUn 53 105 226),
    (32, 0x1C4D3ACD, .vsel 53 105 226), (32, 0x3C4D3ACD, .mand 53 105 226), (32, 0x5C4D3ACD, .mor 53 105 226),
    (32, 0x7C4D3ACD, .mxor 53 105 226), (32, 0x800D3ACD, .mnot 53 105)] = true := by decide +kernel
/-- The vector rows words. -/
theorem test_decode_vector_rows : reads [
    (32, 0x000D3ACF, .vredAdd 53 105), (32, 0x200D3ACF, .vredMax 53 105), (32, 0x400D3ACF, .vredMin 53 105),
    (32, 0x600D3ACF, .vredAmax 53 105), (32, 0x000D3AD1, .vexp2 53 105), (32, 0x200D3AD1, .vlog2 53 105),
    (32, 0x400D3AD1, .vrcp 53 105), (32, 0x600D3AD1, .vrsqrt 53 105), (32, 0x800D3AD1, .vtanh 53 105), (32, 0xA00D3AD1, .vsigm 53 105),
    (32, 0x1C4D3AD3, .vtopk 53 105 226), (32, 0x1C4D3AD5, .vperm 53 105 226), (32, 0x3C4D3AD5, .vbcast 53 105 226),
    (32, 0x400D3AD5, .vrev 53 105), (32, 0x000D3AD7, .tcfg 53 105), (32, 0x3C4D3AD7, .trowRd 53 105 226),
    (32, 0x5C4D3AD7, .trowWr 53 105 226), (32, 0x7C4D3AD7, .tcolRd 53 105 226), (32, 0x9C4D3AD7, .tcolWr 53 105 226),
    (32, 0xA0001AD7, .tclean 53), (32, 0x0016A359, .vpush ⟨6, 181⟩), (32, 0x2000BAD9, .vpop ⟨53, 5⟩), (32, 0x0014A85B, .drain 5 9 2),
    (32, 0x204A805B, .drainQ 5 9), (32, 0x1C4D3ADD, .vins 53 105 226), (32, 0x3C4D3ADD, .vext 53 105 226)] = true := by decide +kernel
/-- The worked encodings of the opcode map and of the instruction chapters. -/
theorem test_decode_worked : reads [
    (16, 0x20C6, .addC16 3 4), (32, 0x106104C1, .vadd 9 0x08 0x83), (32, 0x8000580D, .cmpi 16 5 0 4), (32, 0x000000BD, .xfFwd 1 0 0),
    (32, 0x001282A1, .fwait 5 8 9), (32, 0x380E001F, .cut 7 7), (32, 0x020A4193, .amoAdd 3 4 5 1), (32, 0x8010418F, .ldW 3 4 8),
    (32, 0x040A418B, .sel 3 4 5), (32, 0x00C041A5, .csrr 3 4 0), (32, 0xFFB1FF95, .br 0x1F 0x1F 0x7FD8), (16, 0x2050, .qpushC16 1 4),
    (32, 0x0296D629, .copyG2s 12 13 11 10 0), (32, 0x8296D629, .copyG2s 12 13 11 10 1), (32, 0x4914D129, .copyMx 2 13 10 4 0),
    (32, 0x080062AB, .salloc 5 6), (32, 0x314041AD, .rngTake 3 4 5), (32, 0x0000522F, .gath 4 5), (32, 0x00018039, .wload 3),
    (32, 0x0009003B, .mma 0 2 1), (32, 0x2008093B, .mmaSpec 2 1 1), (32, 0x4000003B, .mzero 0), (32, 0xA0030039, .bgeo 6),
    (32, 0x20001A3D, .xfInv 4 3), (32, 0x4018113D, .domScl 2 2 3), (32, 0x0480003F, .segchk 9), (32, 0x20018039, .wloadSpec 3)]
    = true := by decide +kernel
/-- The worked encodings of the vector chapter. -/
theorem test_decode_worked_vector : reads [
    (32, 0x98018641, .vmax 12 0x0C 0xC0), (32, 0x10816543, .vfma 10 0x0B 0x84), (32, 0x206104C7, .vcvt 9 8 3 0 1),
    (32, 0x5061214B, .vcmpLt 2 9 0x83), (32, 0x0005344F, .vredAdd 40 0x29), (32, 0x00045151, .vexp2 34 0x22),
    (32, 0x084081D3, .vtopk 3 4 0x42), (32, 0x0008C1D7, .tcfg 3 0x46), (32, 0x78A06A57, .tcolRd 20 3 0xC5), (32, 0x2000B059, .vpop ⟨32, 5⟩),
    (32, 0x00044359, .vpush ⟨6, 0x22⟩), (32, 0x201A005B, .drainQ 4 3), (32, 0x0012805B, .drain 0 5 2)] = true := by decide +kernel
/-- R79, R81: an unused field that is not zero, and a function that is not assigned, are refused. -/
theorem test_decode_refuses : decodeTableWord 32 0x008000BD = none ∧ decodeTableWord 32 0x600000BD = none := by decide +kernel

/-! ### Scalar and predicate instructions -/

/-- The scalar register instructions as units that run. -/
theorem witness_ScalarResults : ∀ i ∈ [Instr.movC16 3 4, .addiC16 3 31, .addC16 3 4, .subC16 3 4, .liC16 3 31, .add 3 4 5, .sub 3 4 5,
    .and 3 4 5, .or 3 4 5, .xor 3 4 5, .shl 3 4 5, .shr 3 4 5, .sra 3 4 5, .mul 3 4 5, .mulh 3 4 5, .mulhu 3 4 5, .min 3 4 5, .max 3 4 5,
    .minu 3 4 5, .maxu 3 4 5, .mov 3 4, .addi 3 4 1, .li 3 1, .andi 3 4 1, .sel 3 4 5], (ready i).runs i ∧ (ready i).roomy := by
  decide +kernel

/-- R86: arithmetic modulo 2^64; D may be a source; R83: an immediate is sign-extended. -/
theorem test_add : regAfter (.add 3 3 4) [(3, 0xFFFFFFFFFFFFFFFF), (4, 2)] 3 = 1 ∧ regAfter (.sub 3 4 3) [(3, 1), (4, 0)] 3 = 0xFFFFFFFFFFFFFFFF
    ∧ regAfter (.addiC16 3 0x1F) [(3, 0)] 3 = 0xFFFFFFFFFFFFFFFF ∧ regAfter (.liC16 3 0x10) [] 3 = 0xFFFFFFFFFFFFFFF0 := by decide +kernel
/-- R86: shifts take B[5:0]. -/
theorem test_shifts : regAfter (.shl 3 4 5) [(4, 3), (5, 65)] 3 = 6 ∧ regAfter (.shr 3 4 5) [(4, 0x8000000000000000), (5, 63)] 3 = 1
    ∧ regAfter (.sra 3 4 5) [(4, 0x8000000000000000), (5, 63)] 3 = 0xFFFFFFFFFFFFFFFF := by decide +kernel
/-- R86: the high halves of signed and unsigned products. -/
theorem test_mulh : regAfter (.mulh 3 4 5) [(4, 0xFFFFFFFFFFFFFFFF), (5, 2)] 3 = 0xFFFFFFFFFFFFFFFF
    ∧ regAfter (.mulhu 3 4 5) [(4, 0xFFFFFFFFFFFFFFFF), (5, 2)] 3 = 1 ∧ regAfter (.mul 3 4 5) [(4, 0xFFFFFFFFFFFFFFFF), (5, 2)] 3 = 0xFFFFFFFFFFFFFFFE := by
  decide +kernel
/-- R86: signed and unsigned minimum and maximum. -/
theorem test_min_max : regAfter (.min 3 4 5) [(4, 0xFFFFFFFFFFFFFFFF), (5, 2)] 3 = 0xFFFFFFFFFFFFFFFF ∧ regAfter (.minu 3 4 5) [(4, 0xFFFFFFFFFFFFFFFF), (5, 2)] 3 = 2
    ∧ regAfter (.max 3 4 5) [(4, 0xFFFFFFFFFFFFFFFF), (5, 2)] 3 = 2 ∧ regAfter (.maxu 3 4 5) [(4, 0xFFFFFFFFFFFFFFFF), (5, 2)] 3 = 0xFFFFFFFFFFFFFFFF := by
  decide +kernel
/-- R87: `andi` zero-extends its literal, `addi` and `li` sign-extend it; R91: `sel` reads the old D. -/
theorem test_immediates : regAfter (.andi 3 4 0x7FFF) [(4, 0xFFFFFFFFFFFFFFFF)] 3 = 0x7FFF ∧ regAfter (.addi 3 4 0x7FFF) [(4, 5)] 3 = 4
    ∧ regAfter (.li 3 0x4000) [] 3 = 0xFFFFFFFFFFFFC000 ∧ regAfter (.sel 3 4 5) [(3, 0), (4, 7), (5, 9)] 3 = 9
    ∧ regAfter (.sel 3 4 5) [(3, 1), (4, 7), (5, 9)] 3 = 7 := by decide +kernel
/-- A unit moves its sequencer on: past a word of two halfwords the block of one repetition ends at its body's end (R53). -/
theorem test_block_ends : (after (exec (.add 3 4 5) (ready (.add 3 4 5)))).here.pc = 4
    ∧ (after (exec (.add 3 4 5) (ready (.add 3 4 5)))).here.inBody = false ∧ (after (exec (.add 3 4 5) (ready (.add 3 4 5)))).here.icnt = 1 := by
  decide +kernel

/-- Compares and predicate logic as units that run, in a block that does not rotate; p21 and p0 among the destinations. -/
theorem witness_PredicateResults : ∀ i ∈ [Instr.cmpEq 1 3 4, .cmpNe 21 3 4, .cmpLt 0 3 4, .cmpLe 1 3 4, .cmpGt 1 3 4, .cmpGe 1 3 4, .cmpLtu 1 3 4,
    .cmpGeu 1 3 4, .cmpi 1 3 0x800 7, .pand 1 22 23, .por 1 2 3, .pxor 1 2 3, .pandn 1 2 3, .pmov 1 23, .pnot 0 1],
    (ready i).runs i ∧ (ready i).roomy ∧ (ready i).here.rot = false := by decide +kernel

/-- R88: signed and unsigned compares; the literal of `cmpi` is sign-extended, also for the unsigned conditions. -/
theorem test_compares : predAfter (.cmpLt 1 3 4) [(3, 0xFFFFFFFFFFFFFFFF), (4, 0)] 1 = true ∧ predAfter (.cmpLtu 1 3 4) [(3, 0xFFFFFFFFFFFFFFFF), (4, 0)] 1 = false
    ∧ predAfter (.cmpi 1 3 0xFFF 7) [(3, 0xFFFFFFFFFFFFFFFF)] 1 = true ∧ predAfter (.cmpi 1 3 0 4) [(3, 1)] 1 = true
    ∧ predAfter (.cmpGeu 1 3 4) [(3, 5), (4, 5)] 1 = true ∧ predAfter (.cmpGt 1 3 4) [(3, 5), (4, 5)] 1 = false := by decide +kernel
/-- R65, R89, R90: p0 reads 1 and a write of it is ignored; the logic of two predicates. -/
theorem test_predicates : predAfter (.pnot 0 0) [] 0 = true ∧ predAfter (.pnot 5 0) [] 5 = false ∧ predAfter (.pandn 5 0 1) [] 5 = true
    ∧ predAfter (.pxor 5 0 0) [] 5 = false := by decide +kernel

/-- A unit guarded false whose fate is its own, and a `nop` that runs. -/
theorem witness_NopAndUnguarded : (ready .nop).runs .nop ∧ (ready .nop).roomy
    ∧ (let s := { ready (.add 3 4 5) with unit := { (ready (.add 3 4 5)).unit with guard := false } }
       (encodeWord (.add 3 4 5)).isSome = true ∧ s.here.wait = .none ∧ s.here.part = 0 ∧ s.unit.guard = false
        ∧ fateOf (.add 3 4 5) s.unit.core s.unit.sq false (s.unit.sq == .ctl && s.my.cr.atomic.isSome) s.unit.ty s.unit.hasTyp s.unit.hasPre
          (s.unit.popM != 0) = .own) := by decide +kernel

/-! ### Scalar memory -/

/-- An instruction about to run with s4 an address, s5 and s3 values, in the mapped memory. -/
def memTry (i : Instr) (a v : Word) : State := withRegs (mapped (ready i)) [(3, v), (4, a), (5, v)]

/-- The address of byte 8 of the own SCR, and of the own cluster SRAM (R92). -/
def scrAt : Word := 0x00FE000000000008
def clusAt : Word := 0x00FD000000000008

/-- A misaligned load and store of each size. -/
theorem witness_LoadResults_misaligned : ∀ p ∈ [(Instr.ldH 3 4 1, 1#13, 2), (.ldW 3 4 2, 2, 4), (.ldD 3 4 4, 4, 8), (.stH 3 4 1, 1, 2), (.stW 3 4 3, 3, 4),
      (.stD 3 4 0x1FFF, 0x1FFF, 8)],
    (memTry p.1 0 0).runs p.1 ∧ ((memTry p.1 0 0).r 4 + p.2.1.signExtend 64).toNat % p.2.2 ≠ 0 := by decide +kernel
/-- A load at an address of SCR, of cluster SRAM and of global memory that resolves to a place that can be read. -/
theorem witness_LoadResults_scr : (memTry (.ldW 3 4 0) scrAt 0).runs (.ldW 3 4 0) ∧ (memTry (.ldW 3 4 0) scrAt 0).plain
    ∧ ((memTry (.ldW 3 4 0) scrAt 0).r 4 + (0#13).signExtend 64).toNat % 4 = 0
    ∧ ∃ s1 l, ((memTry (.ldW 3 4 0) scrAt 0).begun (.ldW 3 4 0)).resolve 0 ((memTry (.ldW 3 4 0) scrAt 0).r 4 + (0#13).signExtend 64) 4 true false = .at s1 l
      ∧ (l = .scr 8 ∧ (s1.core 0).watch.rplLive = 0 ∧ s1.waitsAt 0 l = false ∧ s1.uncorrAt 0 l 4 = false) :=
  ⟨by decide +kernel, by decide +kernel, by decide +kernel, meets _ (by decide +kernel)⟩
theorem witness_LoadResults_clus : (memTry (.ldD 3 4 0) clusAt 0).runs (.ldD 3 4 0) ∧ (memTry (.ldD 3 4 0) clusAt 0).plain
    ∧ ((memTry (.ldD 3 4 0) clusAt 0).r 4 + (0#13).signExtend 64).toNat % 8 = 0
    ∧ ∃ s1 l, ((memTry (.ldD 3 4 0) clusAt 0).begun (.ldD 3 4 0)).resolve 0 ((memTry (.ldD 3 4 0) clusAt 0).r 4 + (0#13).signExtend 64) 8 true false = .at s1 l
      ∧ (l = .clus 8 ∧ (s1.core 0).watch.rplLive = 0 ∧ s1.waitsAt 0 l = false ∧ s1.uncorrAt 0 l 8 = false) :=
  ⟨by decide +kernel, by decide +kernel, by decide +kernel, meets _ (by decide +kernel)⟩
theorem witness_LoadResults_phys : (memTry (.ldB 3 4 1) 0x20000 0).runs (.ldB 3 4 1) ∧ (memTry (.ldB 3 4 1) 0x20000 0).plain
    ∧ ((memTry (.ldB 3 4 1) 0x20000 0).r 4 + (1#13).signExtend 64).toNat % 1 = 0
    ∧ ∃ s1 l, ((memTry (.ldB 3 4 1) 0x20000 0).begun (.ldB 3 4 1)).resolve 0 ((memTry (.ldB 3 4 1) 0x20000 0).r 4 + (1#13).signExtend 64) 1 true false = .at s1 l
      ∧ (l = .phys 0x20001 ∧ (s1.core 0).watch.rplLive = 0 ∧ s1.waitsAt 0 l = false ∧ s1.uncorrAt 0 l 1 = false) :=
  ⟨by decide +kernel, by decide +kernel, by decide +kernel, meets _ (by decide +kernel)⟩
/-- A store that resolves at each kind of place and is made at once. -/
theorem witness_StoreResults : (memTry (.stW 3 4 0) scrAt 7).runs (.stW 3 4 0) ∧ (memTry (.stW 3 4 0) scrAt 7).plain
    ∧ ∀ a ∈ [scrAt, clusAt, 0x30000], ((memTry (.stW 3 4 0) a 7).r 4 + (0#13).signExtend 64).toNat % 4 = 0
      ∧ ∃ s1 l, ((memTry (.stW 3 4 0) a 7).begun (.stW 3 4 0)).resolve 0 ((memTry (.stW 3 4 0) a 7).r 4 + (0#13).signExtend 64) 4 false true = .at s1 l
        ∧ ((s1.storeAt 0 l (leBytes 4 ((memTry (.stW 3 4 0) a 7).r 3).toNat)).2 = true ∧ s1.mayReach 0 l .store = true) := by
  refine ⟨by decide +kernel, by decide +kernel, ?_⟩
  intro a h
  simp only [List.mem_cons, List.not_mem_nil, or_false] at h
  rcases h with rfl | rfl | rfl <;> exact ⟨by decide +kernel, meets _ (by decide +kernel)⟩

/-- The same unit on core 24, of die 1, whose quad is of partition 0: the address has its home on die 0. -/
def farStore : State :=
  let s := (memTry (.stW 3 4 0) 0x30000 7).modQuad 6 fun q => { q with owner := 0 }
  { s.modCore 24 (fun _ => s.core 0) with unit := { s.unit with core := 24 } }
theorem witness_StoreResults_far : farStore.runs (.stW 3 4 0) ∧ farStore.plain ∧ (farStore.r 4 + (0#13).signExtend 64).toNat % 4 = 0
    ∧ ∃ s1 l, (farStore.begun (.stW 3 4 0)).resolve 24 (farStore.r 4 + (0#13).signExtend 64) 4 false true = .at s1 l
      ∧ ((s1.storeAt 24 l (leBytes 4 (farStore.r 3).toNat)).2 = true
        ∧ (match l with | .phys pa => decide (homeOf pa ≠ Config.dieOf 24) | _ => false) = true) :=
  ⟨by decide +kernel, by decide +kernel, by decide +kernel, meets _ (by decide +kernel)⟩

/-- R93: loads are zero-extended, the offset is signed; R2: the byte at the lowest address is the lowest. -/
theorem test_load_store : (after (exec (.stW 3 4 0x1FFC) (memTry (.stW 3 4 0x1FFC) 0x30004 0x1122334455667788))).mem
      = writeBytes (mapped State.reset).mem 0x30000 [0x88, 0x77, 0x66, 0x55]
    ∧ (after (exec (.ldB 3 4 1) (memTry (.ldB 3 4 1) 0x20000 0xFFFFFFFFFFFFFFFF))).here.reg 3 = 0
    ∧ (after (exec (.ldW 3 4 0) (memTry (.ldW 3 4 0) 0x20000 0xFFFFFFFFFFFFFFFF))).here.reg 3 = 0x1F := by decide +kernel
/-- R93: a misaligned access traps ALIGN with the address in EINFO; R92: a bit above 55 is ADDR. -/
theorem test_access_traps : (after (exec (.ldD 3 4 4) (trapping (memTry (.ldD 3 4 4) 0x20000 0)))).my.cr.ecause = BitVec.ofNat 8 (causeCode .align)
    ∧ (after (exec (.ldD 3 4 4) (trapping (memTry (.ldD 3 4 4) 0x20000 0)))).my.cr.einfo = 0x20004
    ∧ (after (exec (.ldD 3 4 0) (trapping (memTry (.ldD 3 4 0) 0x8100000000000000 0)))).my.cr.ecause = BitVec.ofNat 8 (causeCode .addr)
    ∧ (after (exec (.ldD 3 4 0) (trapping (memTry (.ldD 3 4 0) 0x20000000 0)))).my.cr.ecause = BitVec.ofNat 8 (causeCode .pageFault) := by
  decide +kernel

/-- A store in an atomic block of CTL. -/
def inBlock (s : State) : State := s.modCr s.unit.core fun r => { r with atomic := some { regs := [], preds := [], effects := [] } }
theorem witness_StoreResults_buffered : (inBlock (memTry (.stW 3 4 0) 0x30000 7)).runs (.stW 3 4 0)
    ∧ (inBlock (memTry (.stW 3 4 0) 0x30000 7)).unit.sq = .ctl ∧ (inBlock (memTry (.stW 3 4 0) 0x30000 7)).my.cr.atomic = some { regs := [], preds := [], effects := [] }
    ∧ ((inBlock (memTry (.stW 3 4 0) 0x30000 7)).r 4 + (0#13).signExtend 64).toNat % 4 = 0
    ∧ (inBlock (memTry (.stW 3 4 0) 0x30000 7)).unit.pushM = 0
    ∧ ∃ s1 l, ((inBlock (memTry (.stW 3 4 0) 0x30000 7)).begun (.stW 3 4 0)).resolve 0
        ((inBlock (memTry (.stW 3 4 0) 0x30000 7)).r 4 + (0#13).signExtend 64) 4 false true = .at s1 l
      ∧ (s1.buffer (.store l (leBytes 4 7))).roomy :=
  ⟨by decide +kernel, by decide +kernel, by decide +kernel, by decide +kernel, by decide +kernel, meets _ (by decide +kernel)⟩

/-- An atomic at a global doubleword. -/
theorem witness_AtomicResults : ∀ i ∈ [Instr.amoAdd 3 4 5 0, .amoSwap 3 4 5 1, .amoCas 3 4 5 2, .amoMin 3 4 5 3, .amoMax 3 4 5 4, .amoAnd 3 4 5 0,
      .amoOr 3 4 5 0], (memTry i 0x30000 7).runs i ∧ (memTry i 0x30000 7).plain ∧ ((memTry i 0x30000 7).r 4).toNat % 8 = 0
    ∧ ∃ s1 l, ((memTry i 0x30000 7).begun i).resolve 0 ((memTry i 0x30000 7).r 4) 8 true true = .at s1 l
      ∧ ((s1.core 0).watch.rplLive = 0 ∧ s1.homeReady 0 l = true ∧ s1.mayRelease 0 0 = true ∧ s1.mayRelease 0 3 = true ∧ s1.uncorrAt 0 l 8 = false ∧ (s1.atomicWrite 0 l (leBytes 8 7)).2 = true
        ∧ (let u := ((((s1.atomicWrite 0 l (leBytes 8 7)).1.touched 0 l 8).acquire 0 (get 0 s1.relTime (locKey 0 l)) (get [] s1.relKv (locKey 0 l))).release 0 l 0).setR 3 0
           u.roomy ∧ (u.core 0).watch.rplLive = 0)) := by
  intro i h
  simp only [List.mem_cons, List.not_mem_nil, or_false] at h
  rcases h with rfl | rfl | rfl | rfl | rfl | rfl | rfl <;>
    exact ⟨by decide +kernel, by decide +kernel, by decide +kernel, meets _ (by decide +kernel)⟩

/-- R95: D receives the old value; `amo.cas` writes B where the old value is D; signed minimum. -/
theorem test_atomics : (after (exec (.amoAdd 3 4 5 0) (memTry (.amoAdd 3 4 5 0) 0x20000 1))).here.reg 3 = 0x1F
    ∧ (after (exec (.amoAdd 3 4 5 0) (memTry (.amoAdd 3 4 5 0) 0x20000 1))).memWord 0x20000 = 0x20
    ∧ (after (exec (.amoCas 3 4 5 0) (memTry (.amoCas 3 4 5 0) 0x20000 1))).memWord 0x20000 = 0x1F
    ∧ (after (exec (.amoMin 3 4 5 0) (memTry (.amoMin 3 4 5 0) 0x20000 0xFFFFFFFFFFFFFFFF))).memWord 0x20000 = 0xFFFFFFFFFFFFFFFF := by
  decide +kernel

/-- A fence with every write applied, a fence of scope .pod with a write on its way, and a `time`. -/
theorem witness_FenceAndTime : (ready (.fence 3)).runs (.fence 3) ∧ ((ready (.fence 3)).begun (.fence 3)).fenceReady 0 = true
    ∧ (((ready (.fence 3)).begun (.fence 3)).acquire 0 0 []).roomy
    ∧ (let s := { ready (.fence 4) with sent := [{ die := 0, core := 0, seq := 1, stamp := [], home := 1, pa := 2 ^ 36, bytes := [1], engine := false }] }
       s.runs (.fence 4) ∧ (s.begun (.fence 4)).fenceReady 0 = false)
    ∧ (ready (.time 3)).runs (.time 3) ∧ (ready (.time 3)).roomy ∧ ((ready (.time 3)).core 0).watch.rplLive = 0 := by decide +kernel
/-- R113: `time` reads TIME. -/
theorem test_time : (after (exec (.time 3) { ready (.time 3) with time := 77 })).here.reg 3 = 77 := by decide +kernel

/-- R348: the code word of a line is zero at the twelve roots of the generator. -/
theorem test_code_word : (List.range 12).all (fun i => rsAt (({ State.reset with mem := writeBytes [] 0x40 [1, 2, 3] } : State).codeWord 1) (gfPow i) == 0) = true := by
  decide +kernel
/-! ### Blocks, transfers and exceptions -/

/-- Transfers that run, with a target that can be fetched and with one that cannot: the unit's word stands at 2 and END is 4. -/
theorem witness_TransferResults : ∀ i ∈ [Instr.br 31 31 0x7FFE, .br 31 31 0x7FFD, .call 31 31 0x7FFE, .call 0 0 1, .jr 4, .callr 4, .ret],
    (withRegs (ready i) [(4, 0), (31, 0)]).runs i ∧ (withRegs (ready i) [(4, 0), (31, 0)]).here.bound .ctl = (if i = .ret then 3 else 4) := by
  decide +kernel
theorem witness_TransferResults_targets : 2 + ((31#5 ++ 31#5 ++ 0x7FFE#15).toInt) = 0 ∧ 2 + ((31#5 ++ 31#5 ++ 0x7FFD#15).toInt) = -1
    ∧ 2 + ((0#5 ++ 0#5 ++ 1#15).toInt) = 3 ∧ bits (0x10000 : Nat) 63 16 ≠ 0 := by decide +kernel
/-- R96, R97: `br` back to its own header, `call` with the next header in s31, `jr` to an offset of 2^16 trapping FETCH_BOUND. -/
theorem test_transfers : (after (exec (.br 31 31 0x7FFE) (ready (.br 31 31 0x7FFE)))).here.pc = 0
    ∧ regAfter (.call 31 31 0x7FFE) [] 31 = 4
    ∧ (after (exec (.jr 4) (trapping (withRegs (ready (.jr 4)) [(4, 0x10000)])))).my.cr.ecause = BitVec.ofNat 8 (causeCode .fetchBound)
    ∧ (after (exec (.br 0 0 1) (trapping (ready (.br 0 0 1))))).my.cr.ecause = BitVec.ofNat 8 (causeCode .fetchBound) := by decide +kernel

/-- An `exit` in an atomic block and outside one. -/
theorem witness_ExitResults : (inBlock (ready (.exit 0 0 0))).inAtomic = true ∧ (inBlock (ready (.exit 0 0 0))).runs (.exit 0 0 0)
    ∧ (inBlock (ready (.exit 0 0 0))).roomy ∧ (ready (.exit 0 0 0)).inAtomic = false ∧ (ready (.exit 0 0 0)).runs (.exit 0 0 0) := by decide +kernel

/-- A sequencer at the header word w of a body of two halfwords, with END after it. -/
def atHeader (sm : Stream) (w : BitVec 32) : State :=
  ((placed State.reset 0 sm 0 (.add 3 4 5)).modSeq 0 sm fun q =>
    { q with pc := 0, hdr := 0, inBody := false, reps := 0, imem := put 0xFFFF#16 (put 0xFFFF#16 q.imem 0 (w.extractLsb' 0 16)) 1 (w.extractLsb' 16 16) })

/-- LD at a header that takes its count from q0, with entries in it. -/
def counting (es : List QEntry) : State :=
  (atHeader .ld 0x3FC02).modLinks 0 fun l => { l with vq := update VQueue.empty l.vq (ctlQueue .ld) fun v => { v with items := es } }
/-- Headers: beyond the bound, the wall, a body of no halfwords, an atomic block without an exit, counts of 0 and 3, header waits. -/
theorem witness_BlockEntryResults :
    (let s := (atHeader .ctl 2).modSeq 0 .ctl fun q => { q with iend := 1 }
     s.here.inBody = false ∧ s.here.bound s.unit.sq ≤ s.here.pc.toNat + 1)
    ∧ (∀ w ∈ [0xC0000002, 0xFFFFFFFF, 0, 0x40000402], let s := atHeader .ctl (BitVec.ofNat 32 w)
      s.here.inBody = false ∧ s.here.headerAt 0 = BitVec.ofNat 32 w
      ∧ (w = 0xFFFFFFFF ∨ ¬ (s.here.bound .ctl ≤ 1 ∨ s.here.bound .ctl ≤ 1 + w % 1024)))
    ∧ headerOk .ctl 0 = false ∧ (atHeader .ctl 0x40000402).here.headerFault .ctl 0 = none
    ∧ ((atHeader .ctl 0x40000402).here.enterBlock 0 1).endsInExit 2 2 = false
    ∧ (∀ n ∈ [2, 0xC02, 0x80C02], ∀ sm ∈ [Stream.ctl, .ld], let w := BitVec.ofNat 32 n
      (sm = .ctl ∨ n < 0x80000) → (atHeader sm w).here.inBody = false ∧ (atHeader sm w).here.headerFault sm 0 = none
      ∧ (atHeader sm w).here.headerAt 0 = w ∧ (w.extractLsb' 10 8).toNat ≠ 255 ∧ w.extractLsb' 30 2 = 0
      ∧ (w.getLsbD 19 = decide (n = 0x80C02)) ∧ ((w.extractLsb' 10 8).toNat = 0 ↔ n = 2))
    ∧ (∀ v ∈ [0#3, 1#3], headerMet ((atHeader .ctl 0x80C02).my.links.flag 0) v = decide (v = 0)) ∧ (atHeader .ctl 0x80C02).my.cr.wtmo ≠ 0
    ∧ ((atHeader .ctl 0x80C02).modCr 0 fun r => { r with wtmo := 0 }).my.cr.wtmo = 0
    ∧ (counting []).here.headerFault .ld 0 = none ∧ ((counting []).here.headerAt 0).extractLsb' 10 8 = 255
    ∧ (∀ e ∈ [(⟨true, 5⟩ : QEntry), ⟨false, 0⟩, ⟨false, 3⟩], ((counting [e]).my.links.vqueue (ctlQueue .ld)).items = [e]) := by decide +kernel
/-- R55: the block of 3 repetitions is entered at its first unit, with no register changed; a count of 0 passes over the body. -/
theorem test_block_entry : (after (exec .blockEntry (atHeader .ld 0xC02))).here.pc = 2 ∧ (after (exec .blockEntry (atHeader .ld 0xC02))).here.reps = 3
    ∧ (after (exec .blockEntry (atHeader .ld 0xC02))).here.inBody = true ∧ (after (exec .blockEntry (atHeader .ld 2))).here.pc = 4
    ∧ (after (exec .blockEntry (atHeader .ld 2))).here.inBody = false
    ∧ (after (exec .blockEntry (counting [⟨false, 3⟩]))).here.reps = 3 ∧ (after (exec .blockEntry (counting [⟨false, 0⟩]))).here.pc = 4 := by decide +kernel

/-- CTL at the end of an atomic block whose only unit is an exit to halfword 0, with a store buffered. -/
def atCommit : State :=
  (((ready (.exit 31 31 0x7FFE)).modSeq 0 .ctl fun q => { q with pc := 4, hword := q.hword ||| 0x40000000 }).modCr 0 fun r =>
    { r with atomic := some { regs := [], preds := [], effects := [.store (.phys 0x30000) [5]] } })
/-- The same with q0 full and a push to it among the effects. -/
def atCommitFull : State :=
  (atCommit.modLinks 0 fun l => { l with vq := put VQueue.empty l.vq 0 { items := List.replicate 64 { cut := false, val := 0 }, staged := [], popped := 0 } }).modCr 0
    fun r => { r with atomic := some { regs := [], preds := [], effects := [.push 0 { cut := false, val := 1 }] } }
/-- The same with its store at a cluster page that is locked (R141). -/
def atCommitLocked : State :=
  (atCommit.modPage 0 fun p => { p with locked := true }).modCr 0 fun r => { r with atomic := some { regs := [], preds := [], effects := [.store (.clus 0) [5]] } }
theorem witness_AtomicCommit : atCommit.my.ctl.bodyEnd ≤ atCommit.my.ctl.pc.toNat
    ∧ (∃ e, atCommit.my.ctl.firing = some e ∧ (0 ≤ e.target ∧ e.target + 1 < (atCommit.my.ctl.bound .ctl : Int)))
    ∧ (∃ a, atCommit.my.cr.atomic = some a ∧ (atCommit.my.mayCommit a = true ∧ (atCommit.storesTaken atCommit.unit.core a.effects).2 = true))
    ∧ (∃ a, atCommitLocked.my.cr.atomic = some a
        ∧ (atCommitLocked.my.mayCommit a = true ∧ (atCommitLocked.storesTaken atCommitLocked.unit.core a.effects).2 = false))
    ∧ (∃ a, atCommitFull.my.cr.atomic = some a ∧ atCommitFull.my.mayCommit a = false) :=
  ⟨by decide +kernel, found _ (by decide +kernel), found _ (by decide +kernel), found _ (by decide +kernel), found _ (by decide +kernel)⟩
/-- R63: the commit makes the store and goes to the exit's target. -/
theorem test_commit : (after (exec .atomicBlockCommit atCommit)).mem = [(0x30000, 5#8)] ∧ (after (exec .atomicBlockCommit atCommit)).here.pc = 0
    ∧ (after (exec .atomicBlockCommit atCommit)).my.cr.atomic = none := by decide +kernel

/-- A region that stands open. -/
def regioned (s : State) : State := s.modCr s.unit.core fun r => { r with chnd := 0x10008 }
/-- `contain` and `uncontain` with a region open and with none, a target beyond END, and in an atomic block. -/
theorem witness_ContainResults : (ready (.contain 31 31 0x7FFE)).runs (.contain 31 31 0x7FFE) ∧ (ready (.contain 31 31 0x7FFE)).plain
    ∧ (ready (.contain 31 31 0x7FFE)).my.cr.regionOpen = false ∧ (ready (.contain 0 0 1)).runs (.contain 0 0 1) ∧ (ready (.contain 0 0 1)).here.bound .ctl = 4
    ∧ (regioned (ready (.contain 31 31 0x7FFE))).runs (.contain 31 31 0x7FFE) ∧ (regioned (ready (.contain 31 31 0x7FFE))).my.cr.regionOpen = true
    ∧ (ready .uncontain).runs .uncontain ∧ (regioned (ready .uncontain)).runs .uncontain ∧ (regioned (ready .uncontain)).my.cr.regionOpen = true
    ∧ (inBlock (ready .uncontain)).inAtomic = true := by decide +kernel
/-- R114: CHND. -/
theorem test_contain : (after (exec (.contain 31 31 0x7FFE) (ready (.contain 31 31 0x7FFE)))).my.cr.chnd = 0x10000
    ∧ (after (exec .uncontain (regioned (ready .uncontain)))).my.cr.chnd = 8 := by decide +kernel

/-- A debugger attached to the unit's core. -/
def attached (s : State) : State := s.modCore s.unit.core fun k => { k with dbg := { k.dbg with att := true } }
/-- A capture stop whose cycles have been counted. -/
def counted (s : State) : State := s.modCore s.unit.core fun k => { k with captArm := true, captCount := some 0, captStop := 9 }
theorem witness_TrapInstructions : (ready (.trap 4)).runs (.trap 4) ∧ (ready .brk).runs .brk ∧ ((ready .brk).core 0).dbg.att = false
    ∧ (attached (ready .brk)).runs .brk ∧ (attached (ready .brk)).roomy ∧ ((attached (ready .brk)).core 0).dbg.att = true
    ∧ ((counted (ready .nop)).core 0).hasLive = true ∧ ((counted (ready .nop)).core 0).captArm = true ∧ ((counted (ready .nop)).core 0).captCount = some 0
    ∧ ((counted (ready .nop)).core 0).dbg.att = false
    ∧ (ordinary .trapi = true ∧ contained .trapi = false ∧ ((trapping (ready .nop)).ctx 0).cr.trapEn = true ∧ ((trapping (ready .nop)).ctx 0).cr.inh = false) := by decide +kernel
/-- R117: EINFO and SKIP of `trap`; R361: EINFO[63] of a capture stop. -/
theorem test_trap : (after (exec (.trap 4) (trapping (withRegs (ready (.trap 4)) [(4, 77)])))).my.cr.einfo = 77
    ∧ (after (exec (.trap 4) (trapping (withRegs (ready (.trap 4)) [(4, 77)])))).my.cr.skip = true
    ∧ (after (exec (.captureStop 0) (counted (trapping (ready .nop))))).my.cr.einfo.getLsbD 63 = true
    ∧ (after (exec .brk (trapping (ready .brk)))).my.cr.ecause = BitVec.ofNat 8 (causeCode .brk) := by decide +kernel

/-- A trap with the handler enabled; with TVEC.EN = 0 and a task; in the handler with a task; a contained error with a region open. -/
def tasked (s : State) : State := s.modCtx s.unit.core fun x => { x with task := some (0, 5) }
theorem witness_TrapEntersHandler : ordinary .illegal = true ∧ ¬ (contained .illegal = true ∧ ((trapping (ready .nop)).ctx 0).cr.regionOpen = true)
    ∧ ((trapping (ready .nop)).ctx 0).cr.trapEn = true ∧ ((trapping (ready .nop)).ctx 0).cr.inh = false := by decide +kernel
theorem witness_TrapFaultsTask : ordinary .illegal = true ∧ (¬ (contained .illegal = true ∧ ((tasked (ready .nop)).ctx 0).cr.regionOpen = true)
      ∧ ((tasked (ready .nop)).ctx 0).cr.trapEn = false ∧ ((tasked (ready .nop)).ctx 0).task = some (0, 5))
    ∧ (let s := (tasked (trapping (ready .nop))).modCr 0 fun r => { r with estat := 8 }
       (s.ctx 0).cr.inh = true ∧ (s.ctx 0).task = some (0, 5)) := by decide +kernel
theorem witness_ContainedUnwinds : contained .uncorr = true ∧ ((regioned (ready .nop)).ctx 0).cr.regionOpen = true := by decide +kernel
/-- R116: the handler's state; R116 with EN 0: the context is to leave the core and the slot notes the cause; R115: CTL alone unwinds. -/
theorem test_exceptions : ((trapping (ready .nop)).takeTrap 0 .ctl .align 0x44 false).my.ctl.pc = 0x10
    ∧ ((trapping (ready .nop)).takeTrap 0 .ctl .align 0x44 false).my.cr.priv = .guest
    ∧ ((trapping (ready .nop)).takeTrap 0 .ctl .align 0x44 false).my.cr.epc = 2
    ∧ (((tasked (ready .nop)).takeTrap 0 .ctl .align 0x44 false).core 0).leaving.isSome = true
    ∧ (((tasked (ready .nop)).takeTrap 0 .ctl .align 0x44 false).slot 0 5).faulting = some .align
    ∧ ((regioned (ready .nop)).takeTrap 0 .ctl .uncorr 1 false).my.ctl.pc = 8
    ∧ ((regioned (ready .nop)).takeTrap 0 .ctl .uncorr 1 false).my.cr.regionOpen = false := by decide +kernel

/-- `eret` at guest privilege, with SKIP 0 and with SKIP 1 after a trap of LD, and at user privilege. -/
def handling (skip : Bool) : State :=
  (ready .eret).modCr 0 fun r => { r with priv := .guest, estat := if skip then 0xD else 0x9, epc := 0x6, trapAt := if skip then some (.ld, 0) else none }
theorem witness_EretResults : (∀ b ∈ [true, false], (handling b).runs .eret ∧ (handling b).my.cr.priv ≠ .user ∧ (handling b).unit.sq = .ctl
      ∧ (handling b).my.cr.skip = b) ∧ (handling true).my.cr.trapAt = some (.ld, 0) ∧ ((handling true).my.seq .ld).pc = 0
    ∧ (let s := { handling false with unit := { (handling false).unit with pushM := 1 } }
      s.runs .eret ∧ s.my.cr.skip = false ∧ s.unit.pushM ≠ 0 ∧ ((after (exec .eret s)).my.ctl.flight.map (·.pushM)) = [1])
    ∧ (ready .eret).runs .eret ∧ (ready .eret).my.cr.priv = .user := by decide +kernel
/-- R118: CTL at EPC, the privilege of PPRIV, INH 0. -/
theorem test_eret : (after (exec .eret (handling false))).my.ctl.pc = 6 ∧ (after (exec .eret (handling false))).my.cr.priv = .user
    ∧ (after (exec .eret (handling false))).my.cr.inh = false := by decide +kernel

/-- Each fate of R80: a field that is not assigned, an instruction no block may hold, a stream that does not accept it, a B-core. -/
theorem witness_FatesTrap : (let s := ready (.fence 7)
      (encodeWord (.fence 7)).isSome = true ∧ s.here.wait = .none ∧ s.here.part = 0
        ∧ fateOf (.fence 7) 0 .ctl true false 0 false false false = .illegal)
    ∧ fateOf (.jr 4) 0 .ctl true true 0 false false false = .atomicIllegal
    ∧ fateOf (.xfFwd 1 0 0) 0 .ctl true false 0 false false false = .illegalStream
    ∧ fateOf (.xfFwd 1 0 0) 72 .mx true false 0 false false false = .migrate 2
    ∧ (placed State.reset 72 .mx 0 (.xfFwd 1 0 0)).my.mat.xops = []
    ∧ ((placed State.reset 72 .mx 0 (.xfFwd 1 0 0)).core 72).freeShadow ≠ none := by decide +kernel
/-- The table of the opcode map: the word of `xf.fwd` in CTL, and the wall. -/
theorem test_fates : (after (exec (.xfFwd 1 0 0) (trapping (placed State.reset 0 .ctl 0 (.xfFwd 1 0 0))))).my.cr.ecause
      = BitVec.ofNat 8 (causeCode .illegalStream)
    ∧ (after (exec .wall (trapping (ready .wall)))).my.cr.ecause = BitVec.ofNat 8 (causeCode .wall) := by decide +kernel

/-! ### Queues, tokens, cuts, waits and barriers -/

/-- A value queue with given entries. -/
def queued (s : State) (q : Nat) (l : List QEntry) : State :=
  s.modLinks s.unit.core fun x => { x with vq := put VQueue.empty x.vq q { items := l, staged := [], popped := 0 } }
/-- A data entry and a CUT word. -/
def dataOf (v : Word) : QEntry := { cut := false, val := v }
def cutOf (v : Word) : QEntry := { cut := true, val := v }
/-- Queue 0 of CTL full (R19). -/
def full (s : State) : State := queued s 0 (List.replicate 64 (dataOf 0))
/-- A token in a token queue. -/
def token (s : State) (ix n : Nat) : State :=
  s.modLinks s.unit.core fun x => { x with tok := put Token.zero x.tok ix { count := n, staged := 0, popped := 0 } }

/-- Pushes with room, without, timed with 3 and with 0, and in an atomic block. -/
theorem witness_QueuePushResults : ∀ i ∈ [Instr.qpush 0 4, .qpushC16 0 4, .qpushT 0 4 5],
    (∀ v ∈ [0, 3], (withRegs (ready i) [(5, BitVec.ofNat 64 v)]).runs i ∧ (withRegs (ready i) [(5, BitVec.ofNat 64 v)]).inAtomic = false
      ∧ (withRegs (ready i) [(5, BitVec.ofNat 64 v)]).roomy
      ∧ ((withRegs (ready i) [(5, BitVec.ofNat 64 v)]).begun i).my.links.vroom 0 1 = true
      ∧ (full (withRegs (ready i) [(5, BitVec.ofNat 64 v)])).runs i
      ∧ ((full (withRegs (ready i) [(5, BitVec.ofNat 64 v)])).begun i).my.links.vroom 0 1 = false)
    ∧ (i ≠ .qpushT 0 4 5 → (inBlock (ready i)).runs i ∧ (inBlock (ready i)).unit.sq = .ctl
      ∧ (inBlock (ready i)).my.cr.atomic = some { regs := [], preds := [], effects := [] } ∧ (inBlock (ready i)).unit.pushM = 0
      ∧ (((inBlock (ready i)).begun i).buffer (.push 0 (dataOf 0))).roomy) := by decide +kernel
/-- R99: a push is staged, visible from the next cycle (R72); R73: a timed push into a full queue with a timeout of 0 sets p23. -/
theorem test_push : ((after (exec (.qpush 0 4) (withRegs (ready (.qpush 0 4)) [(4, 9)]))).my.links.vqueue 0).staged = [dataOf 9]
    ∧ (after (exec (.qpushT 0 4 5) (full (ready (.qpushT 0 4 5))))).here.pred 23 = true := by decide +kernel

/-- Pops of q3 with an entry, of an empty queue timed and not, and at a CUT word. -/
theorem witness_QueuePopResults : ∀ i ∈ [Instr.qpop 6 3, .qpopC16 3 6, .qpopT 6 3 5],
    (∀ v ∈ [0, 3], (withRegs (ready i) [(5, BitVec.ofNat 64 v)]).runs i ∧ (withRegs (ready i) [(5, BitVec.ofNat 64 v)]).roomy
      ∧ (((withRegs (ready i) [(5, BitVec.ofNat 64 v)]).begun i).my.links.vqueue 3).items = [])
    ∧ (queued (ready i) 3 [dataOf 8, dataOf 9]).runs i ∧ (queued (ready i) 3 [dataOf 8, dataOf 9]).roomy
    ∧ (((queued (ready i) 3 [dataOf 8, dataOf 9]).begun i).my.links.vqueue 3).items = [dataOf 8, dataOf 9]
    ∧ (queued (ready i) 3 [cutOf 8]).runs i ∧ (((queued (ready i) 3 [cutOf 8]).begun i).my.links.vqueue 3).items = [cutOf 8] := by
  decide +kernel
/-- R99: the oldest entry; R73: p23. -/
theorem test_pop : (after (exec (.qpop 6 3) (queued (ready (.qpop 6 3)) 3 [dataOf 8, dataOf 9]))).here.reg 6 = 8
    ∧ (after (exec (.qpopT 6 3 5) (ready (.qpopT 6 3 5)))).here.pred 23 = true := by decide +kernel

/-- Tokens pushed, taken, and waited for. -/
theorem witness_TokenResults : (∀ i ∈ [Instr.kpush 0, .kpushC16 2], (ready i).runs i ∧ (ready i).inAtomic = false ∧ (ready i).roomy
      ∧ (inBlock (ready i)).runs i ∧ (inBlock (ready i)).unit.sq = .ctl ∧ (inBlock (ready i)).unit.pushM = 0
      ∧ (inBlock (ready i)).my.cr.atomic = some { regs := [], preds := [], effects := [] } ∧ (((inBlock (ready i)).begun i).buffer (.token 1)).roomy)
    ∧ ∀ i ∈ [Instr.kpop 1, .kpopC16 1], (ready i).runs i ∧ ((ready i).begun i).my.links.canPop (popIxs .ctl 2) = false
      ∧ (token (ready i) (tokenIx .mx .ctl) 1).runs i ∧ (token (ready i) (tokenIx .mx .ctl) 1).roomy
      ∧ ((token (ready i) (tokenIx .mx .ctl) 1).begun i).my.links.canPop (popIxs .ctl 2) = true := by decide +kernel

/-- A head that has stalled, for each event. -/
def stalledAt (i : Instr) : State := (ready i).modSeq (ready i).unit.core (ready i).unit.sq fun q => { q with stalled := some i }
theorem witness_StallEnds : (let s := stalledAt (.qpush 0 4)
      s.here.stalled = some (.qpush 0 4) ∧ s.runs (.qpush 0 4) ∧ s.inAtomic = false ∧ s.roomy ∧ (s.begun (.qpush 0 4)).my.links.vroom 0 1 = true)
    ∧ (let s := queued (stalledAt (.qpop 6 3)) 3 [dataOf 8]
       s.here.stalled = some (.qpop 6 3) ∧ s.runs (.qpop 6 3) ∧ s.roomy ∧ ((s.begun (.qpop 6 3)).my.links.vqueue 3).items = [dataOf 8])
    ∧ (let s := (stalledAt (.ringPop 5 2)).modCtx 0 fun x => x.modRing 2 fun _ =>
         { on := true, slotsM1 := 3, head := 3, count := 2, rsv := 0, held := false, hslot := 0 }
       s.here.stalled = some (.ringPop 5 2) ∧ s.runs (.ringPop 5 2) ∧ s.roomy ∧ (s.my.ring 2).on = true ∧ (s.my.ring 2).count ≠ 0)
    ∧ (let cmd := newCommand (.copyS2g 1 2 3 4 0) [] 64 0 [] none
       let s := (stalledAt (.copyS2g 1 2 3 4 0)).modEng 0 fun g => { g with waiting := some cmd }
       s.here.stalled = some (.copyS2g 1 2 3 4 0) ∧ isCopy (.copyS2g 1 2 3 4 0) = true ∧ s.my.eng.waiting = some cmd
        ∧ cmd.instr = .copyS2g 1 2 3 4 0 ∧ (s.plan (.copyS2g 1 2 3 4 0)).ring = none ∧ s.runs (.copyS2g 1 2 3 4 0) ∧ s.inAtomic = false ∧ s.roomy
        ∧ s.my.eng.cmds.length < 32)
    ∧ (stalledAt (.add 3 4 5)).here.stalled ≠ none ∧ (stalledAt (.add 3 4 5)).here.wait = .none ∧ (stalledAt (.add 3 4 5)).here.flight = []
    ∧ (let s := (ready (.qpushT 0 4 5)).modSeq 0 .ctl fun q => { q with wait := .queueT, waitRem := 0, stalled := some (.qpushT 0 4 5) }
       s.here.waitRem = 0 ∧ s.here.wait = .queueT) := by decide +kernel

/-- An instruction in progress that owes a token, and one that pops ring 2. -/
def flying (f : Flight) : State := (ready .nop).modSeq 0 .ctl fun q => { q with flight := [f] }
def owing : Flight := { due := 0, pushM := 1, ring := none, after := none, need := 0, late := false }
def ringing : State :=
  (flying { owing with pushM := 0, ring := some 2 }).modCtx 0 fun x => x.modRing 2 fun _ =>
    { on := true, slotsM1 := 3, head := 3, count := 2, rsv := 0, held := false, hslot := 0 }
theorem witness_RetirementResults : ((flying owing).core 0).hasLive = true ∧ ((flying owing).seq 0 .ctl).flight = [owing]
    ∧ owing.ripe ((flying owing).ctx 0).eng.cmds = true ∧ owing.ring = none ∧ ((flying owing).ctx 0).links.canPush (pushIxs .ctl owing.pushM) = true
    ∧ (ringing.core 0).hasLive = true ∧ (ringing.seq 0 .ctl).flight = [{ owing with pushM := 0, ring := some 2 }]
    ∧ ((ringing.ctx 0).ring 2).count ≠ 0
    ∧ (let s := ringing.modCtx 0 fun x => x.modRing 2 fun g => { g with count := 0 }
       (s.core 0).hasLive = true ∧ (s.seq 0 .ctl).flight = [{ owing with pushM := 0, ring := some 2 }]
        ∧ Flight.ripe { owing with pushM := 0, ring := some 2 } (s.ctx 0).eng.cmds = true ∧ ((s.ctx 0).ring 2).count = 0) := by decide +kernel
/-- R136: HEAD wraps to 0 and COUNT falls; R20: the token is pushed. -/
theorem test_retirement : (((after (exec (.retirement 0 .ctl) ringing)).ctx 0).ring 2).head = 0
    ∧ (((after (exec (.retirement 0 .ctl) ringing)).ctx 0).ring 2).count = 1
    ∧ (((after (exec (.retirement 0 .ctl) (flying owing))).ctx 0).links.token (tokenIx .ctl .ld)).staged = 1 := by decide +kernel

/-- `cut` with an empty set, with a full queue, and with room; `mark`. -/
theorem witness_CutResults : (ready (.cut 7 0)).runs (.cut 7 0) ∧ (full (ready (.cut 7 1))).runs (.cut 7 1) ∧ (full (ready (.cut 7 1))).inAtomic = false
    ∧ ((List.range 3).filter fun q => (1#3).getLsbD q && !((full (ready (.cut 7 1))).begun (.cut 7 1)).my.links.vroom q 1) ≠ []
    ∧ (ready (.cut 7 7)).runs (.cut 7 7) ∧ (ready (.cut 7 7)).inAtomic = false ∧ (ready (.cut 7 7)).roomy
    ∧ ((List.range 3).filter fun q => (7#3).getLsbD q && !((ready (.cut 7 7)).begun (.cut 7 7)).my.links.vroom q 1) = []
    ∧ (ready (.mark 1 0)).runs (.mark 1 0) ∧ (ready (.mark 1 0)).roomy := by decide +kernel
/-- R101: the CUT word. -/
theorem test_cut : ((after (exec (.cut 7 5) (ready (.cut 7 5)))).my.links.vqueue 2).staged = [cutOf 0x1407]
    ∧ ((after (exec (.cut 7 5) (ready (.cut 7 5)))).my.links.vqueue 1).staged = [] := by decide +kernel

/-- LD with a CUT word behind a data entry; a search at its marked block; two consumers at their marks. -/
def cutting : State := queued (placed State.reset 0 .ld 0 (.mark 7 0)) 0 [dataOf 1, cutOf 0x0407, dataOf 2]
def searching : State := (placed State.reset 0 .ld 0 (.mark 7 0)).modSeq 0 .ld fun q => { q with cut := .search 7 1 0 }
def meeting : State :=
  ((ready .nop).modSeq 0 .ld fun q => { q with cut := .meeting 7 3 0 }).modSeq 0 .mx fun q => { q with cut := .meeting 7 3 0 }
theorem witness_CutEvents : cutting.my.cutWord cutting.unit.sq = some (cutOf 0x0407) ∧ searching.here.cut = .search 7 1 0
    ∧ searching.here.marked (0#16).toNat 7 = true ∧ (meeting.ctx 0).meeting = some (7, 3) ∧ (meeting.ctx 0).canMeet = true := by decide +kernel
/-- R102: what stands behind the word stays; R104: one meeting token from each. -/
theorem test_cut_events : ((after (exec .cutTaken cutting)).my.links.vqueue 0).items = [dataOf 2]
    ∧ (after (exec .cutTaken cutting)).here.cut = .search 7 1 3
    ∧ ((after (exec (.cutMeeting 0) meeting)).my.links.token (tokenIx .mx .ctl)).count = 1
    ∧ ((after (exec (.cutMeeting 0) meeting)).my.links.token (tokenIx .st .ctl)).count = 0 := by decide +kernel

/-- Flag 5 at a value, and the wait for 200 (a target 100 ahead of it) or for 50 (already passed), with a timeout. -/
def flagged (v : Byte) (i : Instr) (target tmo : Nat) : State :=
  (withRegs (ready i) [(8, BitVec.ofNat 64 target), (9, BitVec.ofNat 64 tmo)]).modLinks 0 fun x => { x with flags := put 0#8 x.flags 5 v }
/-- A barrier word of phase 2 with one arrival pending, in global memory. -/
def barred (i : Instr) (d tmo : Nat) : State :=
  let s := withRegs (mapped (ready i)) [(3, BitVec.ofNat 64 d), (4, 0x30000), (5, BitVec.ofNat 64 tmo)]
  { s with mem := writeBytes s.mem 0x30000 [0x12, 0, 0x10] }
theorem witness_WaitResults_fwait : ∀ p ∈ [(50, 0, true), (200, 0, false), (200, 4, false)],
    (flagged 100 (.fwait 5 8 9) p.1 p.2.1).runs (.fwait 5 8 9) ∧ (flagged 100 (.fwait 5 8 9) p.1 p.2.1).roomy
    ∧ decide (((flagged 100 (.fwait 5 8 9) p.1 p.2.1).my.links.flag 5 - ((flagged 100 (.fwait 5 8 9) p.1 p.2.1).r 8).extractLsb' 0 8).toNat ≤ 127) = p.2.2 := by
  decide +kernel
theorem witness_WaitResults_bwait : ∀ p ∈ [(1, 0), (2, 0), (2, 4)], (barred (.bwait 3 4 5) p.1 p.2).runs (.bwait 3 4 5) ∧ (barred (.bwait 3 4 5) p.1 p.2).plain
    ∧ ((barred (.bwait 3 4 5) p.1 p.2).r 4).toNat % 16 = 0
    ∧ ∃ s1 l, ((barred (.bwait 3 4 5) p.1 p.2).begun (.bwait 3 4 5)).resolve 0 ((barred (.bwait 3 4 5) p.1 p.2).r 4) 16 true false = .at s1 l
      ∧ ((s1.core 0).watch.rplLive = 0 ∧ s1.waitsAt 0 l = false ∧ s1.uncorrAt 0 l 16 = false ∧ barPhase (leNat (s1.bytesAt 0 l 16)) = 2
        ∧ (bwaitEnd 3 2 l s1).roomy ∧ ((bwaitEnd 3 2 l s1).core 0).watch.rplLive = 0) := by
  intro p h
  simp only [List.mem_cons, List.not_mem_nil, or_false] at h
  rcases h with rfl | rfl | rfl <;> exact ⟨by decide +kernel, by decide +kernel, by decide +kernel, meets _ (by decide +kernel)⟩
/-- R107: the flag counts modulo 256; R111: D := PHASE. -/
theorem test_waits : (after (exec (.fwait 5 8 9) (flagged 3 (.fwait 5 8 9) 250 7))).here.wait = .none
    ∧ (after (exec (.fwait 5 8 9) (flagged 3 (.fwait 5 8 9) 4 0))).here.pred 22 = true
    ∧ (after (exec (.fwait 5 8 9) (flagged 3 (.fwait 5 8 9) 4 7))).here.waitRem = 7
    ∧ (after (exec (.bwait 3 4 5) (barred (.bwait 3 4 5) 1 0))).here.reg 3 = 2 := by decide +kernel

/-- Waits whose end has come. -/
def waiting (s : State) (k : WaitKind) (i : Instr) : State := s.modSeq 0 .ctl fun q => { q with wait := k, waitRem := 0, stalled := some i }
theorem witness_WaitEnds : (let s := waiting (flagged 100 (.fwait 5 8 9) 50 4) .fwait (.fwait 5 8 9)
      s.here.wait = .fwait ∧ s.here.stalled = some (.fwait 5 8 9) ∧ reached (s.my.links.flag 5) ((s.r 8).extractLsb' 0 8) = true ∧ s.here.waitRem = 0)
    ∧ (let s := waiting (barred (.bwait 3 4 5) 1 4) .bwait (.bwait 3 4 5)
       s.here.wait = .bwait ∧ s.here.stalled = some (.bwait 3 4 5) ∧ s.here.waitRem = 0)
    ∧ (let s := (atHeader .ctl 0x80002).modSeq 0 .ctl fun q => { q with wait := .header, waitRem := 0 }
       (s.seq 0 .ctl).wait = .header ∧ headerMet (s.my.links.flag (s.seq 0 .ctl).headerWait.1) (s.seq 0 .ctl).headerWait.2 = true ∧ s.here.waitRem = 0)
    ∧ (ready .nop).my.cr.acquireUntil ≤ (ready .nop).timeOf 0 := by decide +kernel
theorem witness_WaitEnds_bwait : ∃ r, (waiting (barred (.bwait 3 4 5) 1 4) .bwait (.bwait 3 4 5)).bwaitSees 4 = some r
    ∧ (r.2.2 ≠ ((waiting (barred (.bwait 3 4 5) 1 4) .bwait (.bwait 3 4 5)).r 3).toNat % 16 ∧ ((bwaitEnd 3 r.2.2 r.2.1 r.1).core 0).watch.rplLive = 0) :=
  found _ (by decide +kernel)

/-- The barrier operations at a word that resolves; a count that fits and one that does not. -/
theorem witness_BarrierInstructions : ∀ p ∈ [(Instr.barInit 4 5, BarKind.init), (.barArrive 4, .arrive), (.barExpect 4 5, .expect)],
    (barred p.1 0 5).runs p.1 ∧ (barred p.1 0 5).plain ∧ ((barred p.1 0 5).r 4).toNat % 16 = 0 ∧ bits ((barred p.1 0 5).r 5).toNat 63 24 = 0
    ∧ ∃ s1 l, ((barred p.1 0 5).begun p.1).resolve 0 ((barred p.1 0 5).r 4) 16 true true = .at s1 l
      ∧ (s1.homeReady 0 l = true ∧ s1.mayReach 0 l p.2 = true ∧ s1.uncorrAt 0 l 16 = false
        ∧ homeServes l (bits ((barred p.1 0 5).r 5).toNat 23 22) = true
        ∧ (let u := (s1.touched 0 l 16).reach 0 l p.2
           u.mayRelease 0 (barScope (u.barWord 0 l)) = true ∧ (u.setBar 0 l (barNew 5)).2 = true ∧ (u.barSub 0 l (u.aim 0) 1 0 (u.timeOf (locRegion 0 l))).2 = true
            ∧ (u.barSub 0 l (u.aim 0) 1 0 (u.timeOf (locRegion 0 l))).1.roomy
            ∧ barBytes (u.barWord 0 l) + ((barred p.1 0 5).r 5).toNat < 2 ^ 40
            ∧ (u.setBar 0 l (setBits (u.barWord 0 l) 75 36 (barBytes (u.barWord 0 l) + 5))).2 = true)) := by
  intro p h
  simp only [List.mem_cons, List.not_mem_nil, or_false] at h
  rcases h with rfl | rfl | rfl <;>
    exact ⟨by decide +kernel, by decide +kernel, by decide +kernel, by decide +kernel, meets _ (by decide +kernel)⟩
/-- A misaligned barrier word, and a sum of BYTEPEND that needs 41 bits. -/
theorem witness_BarrierInstructions_align : ∀ i ∈ [Instr.barInit 3 5, .barArrive 3, .barExpect 3 5], (barred i 8 5).runs i
    ∧ ((barred i 8 5).r 3).toNat % 16 ≠ 0 := by decide +kernel
/-- An arrival on a core one of whose stores is on its way to another die. -/
def heldArrival : State :=
  let s := barred (.barArrive 4) 0 5
  { s with sent := [{ die := 0, core := 0, engine := false, seq := 1, stamp := [], home := 1, pa := 2 ^ 38, bytes := [1] }] }
theorem witness_BarrierInstructions_waiting : heldArrival.runs (.barArrive 4) ∧ heldArrival.plain
    ∧ ∃ s1 l, (heldArrival.begun (.barArrive 4)).resolve 0 (heldArrival.r 4) 16 true true = .at s1 l
      ∧ (s1.homeReady 0 l = true ∧ s1.mayReach 0 l .arrive = true ∧ s1.uncorrAt 0 l 16 = false
        ∧ (let u := (s1.touched 0 l 16).reach 0 l .arrive
           u.mayRelease 0 (barScope (u.barWord 0 l)) = false)) := ⟨by decide +kernel, by decide +kernel, meets _ (by decide +kernel)⟩
/-- The word with BYTEPEND at its largest. -/
def barredOver : State :=
  let s := barred (.barExpect 4 5) 0 5
  { s with mem := writeBytes s.mem 0x30000 (leBytes 16 (setBits (leNat (readBytes s.mem 0x30000 16)) 75 36 (2 ^ 40 - 1))) }
theorem witness_BarrierInstructions_over : ∃ s1 l, ((barredOver).begun (.barExpect 4 5)).resolve 0 (barredOver.r 4) 16 true true = .at s1 l
      ∧ (s1.homeReady 0 l = true ∧ s1.mayReach 0 l .expect = true ∧ s1.uncorrAt 0 l 16 = false
        ∧ (let u := (s1.touched 0 l 16).reach 0 l .expect
           2 ^ 40 ≤ barBytes (u.barWord 0 l) + (barredOver.r 5).toNat ∧ (u.barUnder 0 l (u.aim 0) 2).roomy)) := meets _ (by decide +kernel)
/-- R109: an arrival that leaves both counts at zero flips the phase and reloads; `bar.init` writes the word of R108. -/
theorem test_barriers : readBytes (after (exec (.barArrive 4) (barred (.barArrive 4) 0 0))).mem 0x30000 3 = [0x13, 0, 0x10]
    ∧ readBytes (after (exec (.barInit 4 5) (barred (.barInit 4 5) 0 3))).mem 0x30000 4 = [0x30, 0, 0x30, 0]
    ∧ (after (exec (.barArrive 4) (trapping (withRegs (ready (.barArrive 4)) [(4, 8)])))).my.cr.ecause = BitVec.ofNat 8 (causeCode .align) := by
  decide +kernel

/-! ### Copies, rings, scratch memory, other cores and engines -/

/-- Registers for copies: s1 in SCR, s2 in global memory, s3 a length of 128, s5 in cluster SRAM, s6 a length with one core as target;
ring 2 of four slots of 128 bytes. -/
def copying (i : Instr) : State :=
  (withRegs (mapped (ready i)) [(1, 0x00FE000000000000), (2, 0x30000), (3, 128), (5, 0x00FD000000000000), (6, 0x1000000080)]).modCtx 0
    fun x => x.initRing 2 128 4
/-- The eleven forms. -/
def copies : List Instr :=
  [.copyG2s 1 2 3 4 0, .copyS2g 2 1 3 4 0, .copyG2c 5 2 3 4 0, .copyC2g 2 5 3 4 0, .copyC2s 1 5 3 4 0, .copyS2c 5 1 3 4 0, .copyX2s 1 2 3 4 0,
    .copyS2x 2 1 3 4 0, .copyMc 1 2 6 4 0, .copyRing 2 2 4 0, .copyMx 2 2 4 7 0]
theorem witness_CopyResults : ∀ i ∈ copies, (copying i).runs i ∧ (copying i).plain ∧ (copying i).my.eng.waiting = none
    ∧ ((copying i).begun i).checkPlan 0 (((copying i).begun i).plan i) true = none
    ∧ (((copying i).begun i).plan i).target = 0
    ∧ ((((copying i).begun i).plan i).ring = none ∨ (((copying i).begun i).plan i).ring = some 2) := by decide +kernel
theorem witness_CopyResults_held : ∀ i ∈ copies, ∃ r, ((copying i).begun i).holdAll 0
      [(0, (((copying i).begun i).plan i).src, (((copying i).begun i).plan i).srcLen, true, false),
       (1, (((copying i).begun i).plan i).dst, (((copying i).begun i).plan i).dstLen, false, true),
       (2, 0xFE000000000000, barExtent, true, true)] = .ok r
    ∧ (r.1.my.eng.cmds.length < 32 ∧ r.1.unit = (copying i).unit ∧ r.1.my.cr = (copying i).my.cr ∧ (r.1.my.ring 2).reserve.isSome = true) := by
  intro i h
  simp only [copies, List.mem_cons, List.not_mem_nil, or_false] at h
  rcases h with rfl | rfl | rfl | rfl | rfl | rfl | rfl | rfl | rfl | rfl | rfl <;> exact settled _ (by decide +kernel)
theorem witness_CopyResults_faults : ∀ i ∈ [Instr.copyG2s 1 2 4 4 0, .copyMc 1 2 3 4 0, .copyG2s 2 2 3 4 0], (copying i).runs i
    ∧ (copying i).my.eng.waiting = none ∧ (((copying i).begun i).checkPlan 0 (((copying i).begun i).plan i) true).isSome = true := by decide +kernel
/-- R128: a command joins the queue; R134: the slot is reserved; R127: a length of 0 is ILLEGAL. -/
theorem test_copy : ((after (exec (.copyG2s 1 2 3 4 0) (copying (.copyG2s 1 2 3 4 0)))).my.eng.cmds.map fun k => (k.len, k.dst, k.src)) =
      [(128, 0x00FE000000000000, 0x30000)]
    ∧ ((after (exec (.copyRing 2 2 4 0) (copying (.copyRing 2 2 4 0)))).my.ring 2).rsv = 1
    ∧ (after (exec (.copyG2s 1 2 4 4 0) (trapping (copying (.copyG2s 1 2 4 4 0))))).my.cr.ecause = BitVec.ofNat 8 (causeCode .illegal) := by
  decide +kernel

/-- A queued copy of two lines out of global memory, and the same started. -/
def queuedCopy : State := after (exec (.copyG2s 1 2 3 4 0) (copying (.copyG2s 1 2 3 4 0)))
def startedCopy : State := after (exec (.copyStart 0) queuedCopy)
/-- A chained copy that has landed; a page of cluster SRAM locked for a relayout. -/
def landedCopy : State :=
  (after (exec (.copyMx 2 2 4 7 0) (copying (.copyMx 2 2 4 7 0)))).modEng 0 fun g =>
    { g with cmds := g.cmds.map fun k => { k with started := true, landed := true, counted := true } }
def lockedPage : State := State.reset.modPage (clusKey 0 65536) fun _ => { kbc := true, cls := 0, locked := true, want := 2 }
theorem witness_CopyEvents_start : ∃ e, ((queuedCopy.cmdPlaces 0).filterMap fun p => (queuedCopy.cmdAt 0 p).map fun k => (p, k)).find?
      (fun e => !e.2.started && !isSnap e.2.instr) = some e
    ∧ (e.1 = 0 ∧ ((((queuedCopy.cmdPlaces 0).filterMap fun p => (queuedCopy.cmdAt 0 p).map fun k => (p, k)).filter
        fun e => e.2.started && !isSnap e.2.instr).length < 8) ∧ (queuedCopy.core 0).dbg.stopped = false) := found _ (by decide +kernel)
theorem witness_CopyEvents_completion : ∃ k, startedCopy.cmdAt 0 0 = some k
    ∧ (k.started = true ∧ k.landed = false ∧ isSnap k.instr = false ∧ (startedCopy.core 0).dbg.stopped = false
      ∧ (startedCopy.moveRest 0 false k).2.allMoved = true ∧ (startedCopy.moveRest 0 false k).1.mustWait 0 0 (startedCopy.moveRest 0 false k).2 = false
      ∧ k.hit = false ∧ startedCopy.replays 0 0 = false
      ∧ (startedCopy.moveRest 0 false k).1.performedAll (startedCopy.moveRest 0 false k).2.id = true ∧ (startedCopy.moveRest 0 false k).2.chained = false
      ∧ ((startedCopy.moveRest 0 false k).1.hitTarget 0 false { (startedCopy.moveRest 0 false k).2 with counted := true, landed := true }).2 = true) :=
  found _ (by decide +kernel)
/-- A chained copy that is to complete, with room in q1 for its word and without. -/
def startedMx (n : Nat) : State :=
  (after (exec (.copyStart 0) (after (exec (.copyMx 2 2 4 7 0) (copying (.copyMx 2 2 4 7 0)))))).modCtx 0 fun x =>
    { x with links := { x.links with vq := put VQueue.empty x.links.vq 1 { VQueue.empty with items := List.replicate n { cut := false, val := 0 } } } }
theorem witness_CopyEvents_completionMx : ∀ n ∈ [0, 64], ∃ k, (startedMx n).cmdAt 0 0 = some k
    ∧ (k.started = true ∧ k.landed = false ∧ isSnap k.instr = false ∧ k.hit = false ∧ (startedMx n).replays 0 0 = false
      ∧ (let a := (startedMx n).moveRest 0 false k
         a.2.allMoved = true ∧ a.1.mustWait 0 0 a.2 = false ∧ a.1.performedAll a.2.id = true ∧ a.2.chained = true
          ∧ (a.1.hitTarget 0 false { a.2 with counted := true, landed := true }).2 = true
          ∧ ((a.1.hitTarget 0 false { a.2 with counted := true, landed := true }).1.ctx 0).links.chainRoom = decide (n = 0))) := by
  intro n h
  simp only [List.mem_cons, List.not_mem_nil, or_false] at h
  rcases h with rfl | rfl <;> exact found _ (by decide +kernel)
theorem witness_CopyEvents_chained : (∃ p, (landedCopy.ctx 0).eng.cmds.findIdx? (fun k => k.chained && k.landed) = some p ∧ p < 32)
    ∧ (∃ k, landedCopy.cmdAt 0 0 = some k ∧ k.chained = true) ∧ ((landedCopy.core 0).hasLive = true ∧ (landedCopy.core 0).dbg.stopped = false)
    ∧ (lockedPage.page (clusKey 0 (65536 * 1))).locked = true :=
  ⟨found _ (by decide +kernel), found _ (by decide +kernel), by decide +kernel, by decide +kernel⟩
/-- R129: the bytes are in SCR and the command has left the queue; R134: the chained push; R137: the wanted class. -/
theorem test_copy_events : (((after (exec (.copyCompletion 0 0) startedCopy)).core 0).scrBytes 0 1 = [0#8])
    ∧ (after (exec (.copyCompletion 0 0) startedCopy)).my.eng.cmds = [] ∧ (after (exec (.copyMxChainedPush 0) landedCopy)).my.eng.cmds = []
    ∧ ((after (exec (.copyMxChainedPush 0) landedCopy)).my.links.vqueue 1).staged = [{ cut := false, val := 0 }]
    ∧ ((after (exec (.kbcRelayout 0 1) lockedPage)).page 65536).cls = 2 := by decide +kernel

/-- A snapshot of one block at 0x40000, its table at 0x50000 and its output at 0x60000, with 8,192 bytes of room. -/
def snapping : State :=
  let s := withRegs (mapped (ready (.cpSnap 4 5))) [(4, 0x30000), (5, 0)]
  { s with mem := writeBytes s.mem 0x30000 (leBytes 8 0x40000 ++ leBytes 8 1 ++ leBytes 8 0x50000 ++ leBytes 8 0x60000 ++ leBytes 8 8192) }
theorem witness_SnapshotResults : snapping.runs (.cpSnap 4 5) ∧ snapping.plain ∧ snapping.my.eng.waiting = none
    ∧ (isGlobal (snapping.r 4) || isS (snapping.r 4)) = true ∧ (snapping.r 4).toNat % 64 = 0 ∧ isBarTarget (snapping.r 5) = false
    ∧ ∃ s1 l, (snapping.begun (.cpSnap 4 5)).resolve 0 (snapping.r 4) 64 true true = .at s1 l
      ∧ (s1.waitsAt 0 l = false ∧ s1.uncorrAt 0 l 64 = false ∧
        (let desc := (List.range 8).map fun i => BitVec.ofNat 64 (leNat (((s1.bytesAt 0 l 64).drop (8 * i)).take 8))
         snapFault desc = none ∧
          (match (s1.touched 0 l 64).holdAll 0
              [(0, snapField desc 0, 4096 * 1, true, false), (3, snapField desc 2, 32 * 1, true, true),
               (4, snapField desc 3, Nat.max 64 (snapField desc 4).toNat, false, true), (1, snapping.r 4, 64, true, true),
               (2, 0xFE000000000000, barExtent, true, true)] with
           | .ok r => decide (r.1.my.eng.cmds.length < 32 ∧ r.1.unit = snapping.unit ∧ r.1.my.cr = snapping.my.cr)
           | .error _ => false) = true)) :=
  ⟨by decide +kernel, by decide +kernel, by decide +kernel, by decide +kernel, by decide +kernel, by decide +kernel, meets _ (by decide +kernel)⟩
/-- The enqueued snapshot of no block left to visit. -/
def snapped : State := (after (exec (.cpSnap 4 5) snapping)).modEng 0 fun g => { g with cmds := g.cmds.map fun k => { k with started := true, block := 1 } }
theorem witness_SnapshotResults_completion : ∃ k, snapped.cmdAt 0 0 = some k ∧ (isSnap k.instr = true ∧ k.landed = false ∧ k.hit = false
    ∧ (snapped.core 0).dbg.stopped = false
    ∧ (snapField k.desc 1).toNat - k.block = 0 ∧ (snapField k.desc 1).toNat ≤ k.block) := found _ (by decide +kernel)
/-- The same where a write of the engine is still on its way to another die. -/
def snappedAway : State :=
  { snapped with sent := [{ die := 0, core := 0, seq := 1, stamp := [], home := 1, pa := 2 ^ 36, bytes := [1], engine := true, cmd := snapped.cmdNext }] }
theorem witness_SnapshotResults_performed : ∃ k, snapped.cmdAt 0 0 = some k ∧
    (let w (s : State) := (s.countSnap 0 false 0).writeAt 0 false k
        [(4, snapField k.desc 3, leBytes 8 (snapField k.desc 5).toNat ++ leBytes 8 (snapField k.desc 1).toNat ++ leBytes 8 k.emitted
            ++ List.replicate 40 0#8),
         (1, plus k.dst 48, leBytes 8 k.emitted ++ leBytes 8 (64 + k.written))]
     let h := (w snapped).1.hitTarget 0 false { k with started := true, landed := true }
     (w snapped).2 = true ∧ (w snapped).1.performedAll k.id = true ∧ h.2 = true ∧ h.1.replays 0 0 = false ∧ (w snapped).1.replays 0 0 = false
      ∧ (w snappedAway).2 = true ∧ (w snappedAway).1.performedAll k.id = false) := found _ (by decide +kernel)
/-- R150: the header's NBLK and the two counts. -/
theorem test_snapshot : readBytes (after (exec (.snapshotCompletion 0 0) snapped)).mem 0x60008 8 = leBytes 8 1
    ∧ readBytes (after (exec (.snapshotCompletion 0 0) snapped)).mem 0x30030 16 = leBytes 8 0 ++ leBytes 8 64 := by decide +kernel

/-- Rings: legal and illegal sizes, a push into a ring that is on, and a pop of a ring with an entry, with none, and of one that is off. -/
def popped (n : Nat) : State :=
  (copying (.ringPop 5 2)).modCtx 0 fun x => x.modRing 2 fun r => { r with count := n, head := 3 }
theorem witness_RingResults : (let s := withRegs (ready (.ringInit 2 3 4)) [(3, 65536), (4, 1)]
      s.runs (.ringInit 2 3 4) ∧ s.roomy ∧ s.my.agBase 2 + 65536 * 1 ≤ (s.core 0).liveSl.scrBytes ∧ (s.my.ring 2).rsv = 0
        ∧ (s.r 3).toNat = 65536 ∧ (s.r 4).toNat = 1)
    ∧ (withRegs (ready (.ringInit 2 3 4)) [(3, 32), (4, 64)]).runs (.ringInit 2 3 4)
    ∧ (let s := withRegs (ready (.ringInit 2 3 4)) [(3, 65536), (4, 64)]
       s.runs (.ringInit 2 3 4) ∧ (s.core 0).liveSl.scrBytes < s.my.agBase 2 + 65536 * 64 ∧ (s.r 3).toNat = 65536 ∧ (s.r 4).toNat = 64)
    ∧ (let s := withRegs (copying (.ringPush 2 4)) [(4, 4096)]
       s.runs (.ringPush 2 4) ∧ (s.begun (.ringPush 2 4)).ringOff 0 ((s.begun (.ringPush 2 4)).plan (.ringPush 2 4)) = false
        ∧ (s.begun (.ringPush 2 4)).checkPlan 0 ((s.begun (.ringPush 2 4)).plan (.ringPush 2 4)) false = none ∧ s.my.eng.cmds.length < 32
        ∧ (s.my.ring 2).reserve.isSome = true ∧ s.roomy)
    ∧ (popped 2).runs (.ringPop 5 2) ∧ (popped 2).roomy ∧ ((popped 2).my.ring 2).on = true ∧ ((popped 2).my.ring 2).count ≠ 0
    ∧ (popped 0).runs (.ringPop 5 2) ∧ ((popped 0).my.ring 2).count = 0 ∧ (ready (.ringPop 5 2)).runs (.ringPop 5 2)
    ∧ ((ready (.ringPop 5 2)).my.ring 2).on = false := by decide +kernel
/-- R135: the slot's offset goes to D and HEAD wraps. -/
theorem test_ring : (after (exec (.ringPop 5 2) (popped 2))).here.reg 5 = 384 ∧ ((after (exec (.ringPop 5 2) (popped 2))).my.ring 2).head = 0
    ∧ ((after (exec (.ringInit 2 3 4) (withRegs (ready (.ringInit 2 3 4)) [(3, 128), (4, 4)]))).my.ring 2).slotsM1 = 3 := by decide +kernel

/-- Two sets of four points, one of them with a stride of 2, and one of five. -/
def points (i : Instr) (n : Nat) : State :=
  (ready i).modCtx 0 fun x => { x with loc := { x.loc with
    ag := put 0#64 (put 0#64 (put 0#64 (put 0#64 x.loc.ag 20 0x100) 21 (agDim 4 1)) 25 0x200) 26 (agDim n 2) } }
theorem witness_PointMoves : ∀ i ∈ [Instr.gath 4 5, .scat 4 5], (points i 4).runs i ∧ (points i 4).roomy
    ∧ (points i 4).my.agPoints 5 = (points i 4).my.agPoints 4 ∧ (points i 4).my.agOutside 5 ((points i 4).core 0).liveSl.scrBytes = none
    ∧ (points i 4).my.agOutside 4 ((points i 4).core 0).liveSl.scrBytes = none
    ∧ (∀ o ∈ (points i 4).my.agOffsets 5 ++ (points i 4).my.agOffsets 4, ((points i 4).ctx 0).onKerf o = false)
    ∧ (points i 5).runs i ∧ (points i 5).roomy ∧ (points i 5).my.agPoints 5 ≠ (points i 5).my.agPoints 4 := by decide +kernel
/-- A source outside SCR, then a destination, and the source of a `gath.q`. -/
def outside (i : Instr) (n : Nat) : State :=
  (points i 4).modCtx 0 fun x => { x with loc := { x.loc with ag := put 0#64 x.loc.ag (5 * n) 0x4000000 } }
theorem witness_PointMoves_outside : ∀ i ∈ [Instr.gath 4 5, .scat 4 5], (outside i 5).runs i ∧ (outside i 4).runs i
    ∧ (outside i 5).my.agPoints 5 = (outside i 5).my.agPoints 4 ∧ (outside i 4).my.agPoints 5 = (outside i 4).my.agPoints 4
    ∧ ((outside i 5).my.agOutside 5 ((outside i 5).core 0).liveSl.scrBytes).isSome = true
    ∧ (outside i 4).my.agOutside 5 ((outside i 4).core 0).liveSl.scrBytes = none
    ∧ ((outside i 4).my.agOutside 4 ((outside i 4).core 0).liveSl.scrBytes).isSome = true := by decide +kernel
theorem witness_PointMoves_outsideQ : (outside (.gathQ 4) 4).runs (.gathQ 4) ∧ (outside (.gathQ 4) 4).here.part = 0
    ∧ ((outside (.gathQ 4) 4).my.agOutside 4 ((outside (.gathQ 4) 4).core 0).liveSl.scrBytes).isSome = true := by decide +kernel
/-- R245: a gather reads the byte that an earlier move of LD has yet to land, and the earlier one does not write over a later one. -/
theorem test_move_order : let s := (points (.gath 4 5) 4).modCtx 0 fun x =>
      { x with pend := [{ own := .ld, ord := 7, due := 9, what := .bytes [(0x200, 1), (0x200, 2), (0x300, 3)] }] }
    (((after (exec (.gath 4 5) s)).my.pend.map fun p => (p.ord, p.due)) = [(7, 9), (8, 1)])
    ∧ ((after (exec (.gath 4 5) s)).my.pend.map fun p => p.what.offsets.contains 0x100) = [false, true]
    ∧ ((after (exec (.gath 4 5) s)).core 0).ldByte 0x200 = 2
    ∧ (({ s.my with pend := [{ own := .ld, ord := 1, due := 5, what := .bytes [(8, 1), (9, 2)] },
        { own := .ld, ord := 2, due := 0, what := .bytes [(9, 4)] }] } : Ctx).keepPend false).pend.map (fun p => p.what.offsets) = [[8]] := by decide +kernel
theorem witness_PointMoves_q : (points (.gathQ 4) 4).runs (.gathQ 4) ∧ (points (.gathQ 4) 4).here.part = 0
    ∧ (points (.gathQ 4) 4).my.agOutside 4 ((points (.gathQ 4) 4).core 0).liveSl.scrBytes = none
    ∧ ((points (.gathQ 4) 4).begun (.gathQ 4)).my.links.rroom 5 = true ∧ (points (.gathQ 4) 4).my.agPoints 4 ≤ 1024 ∧ (points (.gathQ 4) 4).roomy
    ∧ (points (.gathQ 5) 1500).runs (.gathQ 5) ∧ 1024 < (points (.gathQ 5) 1500).my.agPoints 5
    ∧ (points (.gathQ 5) 1500).my.agOutside 5 ((points (.gathQ 5) 1500).core 0).liveSl.scrBytes = none
    ∧ (∀ p < (points (.gathQ 4) 4).my.agPoints 4, ((points (.gathQ 4) 4).ctx 0).onKerf ((points (.gathQ 4) 4).my.agPoint 4 p).toNat = false) := by
  decide +kernel

/-- `salloc` with room, without, and of 0 bytes; `sfree` of the newest block and of another; `imld`. -/
def scratch (i : Instr) (n : Word) (top : Nat) : State :=
  (withRegs (ready i) [(6, n)]).modCtx 0 fun x => { x with loc := { x.loc with satop := top, allocs := [(0x1000, 64)] } }
theorem witness_ScratchResults : ∀ p ∈ [(100, 4096), (100, 200), (0, 4096)], (scratch (.salloc 5 6) (BitVec.ofNat 64 p.1) p.2).runs (.salloc 5 6)
    ∧ (scratch (.salloc 5 6) (BitVec.ofNat 64 p.1) p.2).roomy ∧ ((scratch (.salloc 5 6) (BitVec.ofNat 64 p.1) p.2).r 6).toNat = p.1
    ∧ (scratch (.salloc 5 6) (BitVec.ofNat 64 p.1) p.2).my.loc.satop = p.2 ∧ (scratch (.salloc 5 6) (BitVec.ofNat 64 p.1) p.2).my.loc.allocs.length ≠ 64 := by
  decide +kernel
theorem witness_ScratchResults_sfree : ∀ n ∈ [0x1000, 0x2000], (scratch (.sfree 6) (BitVec.ofNat 64 n) 0xF00).runs (.sfree 6)
    ∧ (scratch (.sfree 6) (BitVec.ofNat 64 n) 0xF00).roomy ∧ (scratch (.sfree 6) (BitVec.ofNat 64 n) 0xF00).my.loc.allocs = [(0x1000, 64)]
    ∧ ((scratch (.sfree 6) (BitVec.ofNat 64 n) 0xF00).r 6).toNat = n := by decide +kernel
def loading : State := withRegs (mapped (ready (.imld 4 5 6))) [(4, 0x30000), (5, 1), (6, 40)]
theorem witness_ScratchResults_imld : loading.runs (.imld 4 5 6) ∧ bits (loading.r 5).toNat 15 3 = 0 ∧ bits (loading.r 5).toNat 63 32 = 0
    ∧ bits (loading.r 5).toNat 31 16 + 40 ≤ imemSize .ld ∧ (isGlobal (loading.r 4) || isS (loading.r 4)) = true ∧ (loading.r 4).toNat % 64 = 0
    ∧ (loading.begun (.imld 4 5 6)).windowFault 0 (loading.r 4) 80 = none
    ∧ (match (loading.begun (.imld 4 5 6)).imRead 0 (loading.r 4) (ceilDiv (2 * 40) 64) with | (_, .all bs) => bs.length == 128 | _ => false) = true
    ∧ (loading.modEng 0 fun g => { g with imld := some (1, 0) }).my.eng.imld = some (1, 0) := by decide +kernel
/-- R147: the block is rounded to 64 bytes, between kerfs; a failure leaves all ones. -/
theorem test_scratch : (after (exec (.salloc 5 6) (scratch (.salloc 5 6) 100 4096))).here.reg 5 = 0xF40
    ∧ (after (exec (.salloc 5 6) (scratch (.salloc 5 6) 100 200))).here.reg 5 = 0xFFFFFFFFFFFFFFFF
    ∧ (after (exec (.sfree 6) (scratch (.sfree 6) 0x1000 0xF00))).my.loc.satop = 0xF00 + 192 := by decide +kernel

/-- A second core of quad 0 with a live context, and one of quad 1. -/
def beside (s : State) (c : Nat) : State := s.modCore c fun k => { k with hasLive := true }
/-- `renq` to queue q of core k, with a timeout. -/
def sending (k tmo : Nat) : State :=
  beside (withRegs (ready (.renq 4 5 6)) [(4, 99), (5, BitVec.ofNat 64 (k + 256)), (6, BitVec.ofNat 64 tmo)]) k
theorem witness_RemoteWork_renq : (∀ k ∈ [1, 8], (sending k 0).runs (.renq 4 5 6) ∧ (sending k 0).here.wait = .none ∧ (sending k 0).roomy
      ∧ bits ((sending k 0).r 5).toNat 63 17 = 0 ∧ bits ((sending k 0).r 5).toNat 7 0 = k ∧ k < Config.cores ∧ bits ((sending k 0).r 5).toNat 9 8 = 1)
    ∧ ((sending 1 0).begun (.renq 4 5 6)).sharesWith 0 1 = true ∧ ((sending 8 0).begun (.renq 4 5 6)).sharesWith 0 8 = false
    ∧ ((sending 1 0).begun (.renq 4 5 6)).firstAt 0 (some (1, 1)) 0 = true ∧ ((sending 1 0).begun (.renq 4 5 6)).remoteRoom 1 1 = true
    ∧ (let s := withRegs (ready (.renq 4 5 6)) [(5, 0x101)]
       s.runs (.renq 4 5 6) ∧ (s.begun (.renq 4 5 6)).remoteRoom 1 1 = false ∧ timeout (s.r 6) = 0) := by decide +kernel
/-- An entry on its way to core 1. -/
def arriving : State :=
  { beside State.reset 1 with enqueued := [{ core := 1, sender := 0, queue := 1, val := 99, flag := none, time := 0, kv := [] }] }
theorem witness_RemoteWork_arrival : (∃ e, arriving.enqueued.find? (fun e => e.core == 1) = some e ∧ (e.flag = none
      ∧ (arriving.ctx 1).links.vroom e.queue 1 = true ∧ arriving.mayArrive e = true)) ∧ (arriving.core 1).hasLive = true ∧ (arriving.core 1).dbg.stopped = false
    ∧ (arriving.core 1).watch.rplLive ≠ 2 := ⟨found _ (by decide +kernel), by decide +kernel, by decide +kernel, by decide +kernel⟩
/-- A record of profile `prof` in SCR, a program-table entry at 0x40000, and four slots. -/
def posting (prof : Nat) : State :=
  let s := withRegs (mapped (ready (.taskPost 3 4 5))) [(4, 0x00FE000000000000)]
  let s1 := { s with mem := writeBytes s.mem 0x40010 (leBytes 8 (16 + 46 * 2 ^ 7 + 2 ^ 14 + 2 ^ 27)) }
  (s1.modPart 0 fun p => { p with ptbase := 0x1000, poolqQuota := 4 }).modCore 0 fun k => k.setScr 16 (leBytes 8 prof)
theorem witness_RemoteWork_post : ∀ n ∈ [0, 1], (posting n).runs (.taskPost 3 4 5) ∧ (posting n).here.wait = .none ∧ isS ((posting n).r 4) = true
    ∧ ((posting n).r 4).toNat % 64 = 0
    ∧ ∃ s1 l, ((posting n).begun (.taskPost 3 4 5)).resolve 0 ((posting n).r 4) 64 true false = .at s1 l
      ∧ (match (s1.touched 0 l 64).progEntry 0 (recProg (wordsOf (s1.bytesAt 0 l 64))) with
         | .ok p => decide (p.1.unit = (posting n).unit ∧ p.1.recordOk 0 (wordsOf (s1.bytesAt 0 l 64)) p.2 = (n == 1)
            ∧ p.1.firstAt 0 none 0 = true ∧ p.1.freeSlot 0 = some 0 ∧ (p.1.leaveTarget 0 none 0).freeSlot 0 = some 0
            ∧ (((((p.1.leaveTarget 0 none 0).accept 0 0 (wordsOf (s1.bytesAt 0 l 64))).setR 3 0).modSeq 0 .ctl fun q => q.setP23 false).roomy))
         | .error _ => false) = true := by
  intro n h
  simp only [List.mem_cons, List.not_mem_nil, or_false] at h
  rcases h with rfl | rfl <;> exact ⟨by decide +kernel, by decide +kernel, by decide +kernel, by decide +kernel, meets _ (by decide +kernel)⟩
/-- R152: the word and its queue; R153, R272: the slot is READY, and a refused record leaves all ones. -/
theorem test_remote : ((after (exec (.renq 4 5 6) (sending 1 0))).enqueued.map fun e => (e.core, e.queue, e.val)) = [(1, 1, 99)]
    ∧ (((after (exec (.remoteEnqueueArrival 1) arriving)).ctx 1).links.vqueue 1).staged = [{ cut := false, val := 99 }]
    ∧ ((after (exec (.taskPost 3 4 5) (posting 1))).slot 0 0).st = .ready
    ∧ (after (exec (.taskPost 3 4 5) (posting 0))).here.reg 3 = 0xFFFFFFFFFFFFFFFF := by decide +kernel

/-- A deque of two entries on the own core and on core 1, and a range of 10 to 20 in chunks of 4 on both. -/
def sharing (i : Instr) (l : List (Nat × Word)) : State :=
  let f := fun (x : Links) => { x with deque := [7, 8], lo := 10, hi := 20, ch := 4 }
  ((beside (withRegs (ready i) l) 1).modLinks 0 f).modLinks 1 f
/-- The same where the steal is on its first turn, at the thief's own place in the cycle. -/
def early (s : State) : State := { s with unit := { s.unit with late := false } }
theorem witness_DequeAndRange : (∀ i ∈ [Instr.dqPush 4 2, .dqPop 3 2, .rngTake 3 5 2], (sharing i []).runs i ∧ (sharing i []).roomy)
    ∧ (∀ k ∈ [1, 8, 96], (sharing (.dqSteal 3 4 2) [(4, BitVec.ofNat 64 k)]).runs (.dqSteal 3 4 2) ∧ (sharing (.dqSteal 3 4 2) [(4, BitVec.ofNat 64 k)]).roomy)
    ∧ 1 < Config.cores ∧ ¬ Config.cores ≤ 8 ∧ 96 * 2 < 2 ^ 64 ∧ (sharing (.dqSteal 3 4 2) []).sharesWith 0 1 = true
    ∧ (sharing (.dqSteal 3 4 2) []).sharesWith 0 8 = false ∧ (sharing (.dqSteal 3 4 2) []).unit.late = true
    ∧ (early (sharing (.dqSteal 3 4 2) [(4, 1)])).runs (.dqSteal 3 4 2) ∧ (early (sharing (.dqSteal 3 4 2) [(4, 1)])).unit.late = false
    ∧ (early (sharing (.rngSteal 3 5 4 2) [(4, 1)])).runs (.rngSteal 3 5 4 2) ∧ (early (sharing (.rngSteal 3 5 4 2) [(4, 1)])).unit.late = false
    ∧ (sharing (.rngSteal 3 5 4 2) [(4, 1)]).unit.late = true ∧ (sharing (.rngSteal 3 5 4 2) [(4, 1)]).sharesWith 0 1 = true ∧ ((sharing (.dqSteal 3 4 2) []).core 1).hasLive = true
    ∧ ((sharing (.dqSteal 3 4 2) []).ctx 1).links.deque = [7, 8]
    ∧ (∀ p ∈ [(3, 9, 2), (9, 3, 2), (3, 9, 0)], (sharing (.rngSet 4 5 6) [(4, BitVec.ofNat 64 p.1), (5, BitVec.ofNat 64 p.2.1), (6, BitVec.ofNat 64 p.2.2)]).runs (.rngSet 4 5 6))
    ∧ (sharing (.rngTake 3 5 2) []).my.links.lo.toNat < (sharing (.rngTake 3 5 2) []).my.links.hi.toNat
    ∧ (ready (.rngTake 3 5 2)).my.links.hi.toNat ≤ (ready (.rngTake 3 5 2)).my.links.lo.toNat
    ∧ (sharing (.rngSteal 3 5 4 2) [(4, 1)]).runs (.rngSteal 3 5 4 2) ∧ ((sharing (.rngSteal 3 5 4 2) [(4, 1)]).ctx 1).links.ch.toNat
      < ((sharing (.rngSteal 3 5 4 2) [(4, 1)]).ctx 1).links.hi.toNat - ((sharing (.rngSteal 3 5 4 2) [(4, 1)]).ctx 1).links.lo.toNat
    ∧ (withRegs (ready (.rngSteal 3 5 4 2)) [(4, 1)]).runs (.rngSteal 3 5 4 2) ∧ ((ready (.rngSteal 3 5 4 2)).core 1).hasLive = false := by
  decide +kernel
/-- Victims without a context and with an empty deque. -/
def emptyVictim (live : Bool) : State :=
  if live then beside (withRegs (ready (.dqSteal 3 4 2)) [(4, 1)]) 1 else withRegs (ready (.dqSteal 3 4 2)) [(4, 1)]
theorem witness_DequeAndRange_empty : ∀ b ∈ [true, false], (emptyVictim b).runs (.dqSteal 3 4 2) ∧ (emptyVictim b).roomy
    ∧ (emptyVictim b).sharesWith 0 1 = true ∧ (emptyVictim b).unit.late = true ∧ ((emptyVictim b).core 1).hasLive = b
    ∧ ((emptyVictim b).ctx 1).links.deque = [] := by decide +kernel
/-- A victim outside the package. -/
theorem witness_DequeAndRange_outside : Config.cores ≤ ((sharing (.dqSteal 3 4 2) [(4, 200)]).r 4).toNat
    ∧ (sharing (.dqSteal 3 4 2) [(4, 200)]).runs (.dqSteal 3 4 2)
    ∧ (∀ k ∈ [200, 8], (sharing (.rngSteal 3 5 4 2) [(4, BitVec.ofNat 64 k)]).runs (.rngSteal 3 5 4 2))
    ∧ (sharing (.rngSteal 3 5 4 2) []).sharesWith 0 8 = false := by decide +kernel
/-- R154: the owner pops at the bottom, a thief takes the top; R155: a chunk from below, and the upper half stolen. -/
theorem test_sharing : (after (exec (.dqPop 3 2) (sharing (.dqPop 3 2) []))).here.reg 3 = 8
    ∧ (after (exec (.dqSteal 3 4 2) (sharing (.dqSteal 3 4 2) [(4, 1)]))).here.reg 3 = 7
    ∧ (after (exec (.rngTake 3 5 2) (sharing (.rngTake 3 5 2) []))).here.reg 3 = 10 ∧ (after (exec (.rngTake 3 5 2) (sharing (.rngTake 3 5 2) []))).my.links.lo = 14
    ∧ (after (exec (.rngSteal 3 5 4 2) (sharing (.rngSteal 3 5 4 2) [(4, 1)]))).here.reg 5 = 20 := by decide +kernel

/-- An extent of 64 KiB to export, mapped and not; an import with and without its delay, of a handle that stands and of one that does not. -/
def exporting (a : Nat) : State := withRegs (mapped (ready (.peerExp 3 4 5 6))) [(4, BitVec.ofNat 64 a), (5, 65536), (6, 3)]
def exported : Export := { valid := true, owner := 24, base := 0, len := 65536, rights := 1, check := 5 }
def importing (h : Word) (late : Nat) : State :=
  let s := (withRegs (ready (.peerImp 3 4 5)) [(4, h), (5, 0)]).modPart 0 fun p => { p with impAfter := late }
  { s with exports := put Export.none s.exports 4096 exported }
def releasing (own : Nat) (held : Bool) : State :=
  let s := (withRegs (ready (.peerRel 3 4)) [(4, 0x51000)]).modPart 0 fun p =>
    { p with imports := if held then [{ off := 0, len := 65536, handle := 0x51000 }] else [] }
  { s with exports := put Export.none s.exports 4096 { exported with owner := own } }
/-- Whether an answer is a given value. -/
def isOk {ε α : Type} [DecidableEq α] (a : α) : Except ε α → Bool
  | .ok b => decide (b = a)
  | .error _ => false
/-- The same with a table line that cannot be read (R351). -/
def spoilt (s : State) : State := { s with poison := put false s.poison (0x20000 / 64) true }
/-- Whether the walk of the page at 0x30000 meets that line. -/
def isUncorr (s : State) : Bool :=
  match s.mapped 0 1 0x30000 65536 with
  | .error e => decide (e.1 = .uncorr)
  | .ok _ => false
theorem witness_PeerResults : (∀ a ∈ [0x30000, 0x20000000], (exporting a).runs (.peerExp 3 4 5 6) ∧ (exporting a).roomy
      ∧ bits ((exporting a).r 6).toNat 63 2 = 0 ∧ ((exporting a).r 5).toNat = 65536 ∧ isGlobal ((exporting a).r 4) = true ∧ ((exporting a).r 4).toNat % 65536 = 0)
    ∧ isOk true (((exporting 0x30000).begun (.peerExp 3 4 5 6)).mapped 0 1 0x30000 65536) = true
    ∧ isOk false (((exporting 0x20000000).begun (.peerExp 3 4 5 6)).mapped 0 1 0x20000000 65536) = true
    ∧ isUncorr ((spoilt (exporting 0x30000)).begun (.peerExp 3 4 5 6)) = true ∧ (spoilt (exporting 0x30000)).runs (.peerExp 3 4 5 6)
    ∧ ((exporting 0x30000).begun (.peerExp 3 4 5 6)).freeExport 0 = some 0
    ∧ (importing 0x51000 0).runs (.peerImp 3 4 5) ∧ (importing 0x51000 0).roomy ∧ ((importing 0x51000 0).part 0).impAfter ≤ (importing 0x51000 0).cc
    ∧ ((importing 0x51000 0).begun (.peerImp 3 4 5)).importFails 0 0 0x51000 = none
    ∧ ((importing 0x51000 0).begun (.peerImp 3 4 5)).exportOf 0x51000 = some exported
    ∧ ((importing 0x61000 0).begun (.peerImp 3 4 5)).importFails 0 0 0x61000 = some (-1) ∧ (importing 0x61000 0).runs (.peerImp 3 4 5)
    ∧ (importing 0x51000 9).cc < ((importing 0x51000 9).part 0).impAfter
    ∧ (releasing 24 true).runs (.peerRel 3 4) ∧ (((releasing 24 true).begun (.peerRel 3 4)).part 0).imports.any (fun i => i.handle == (releasing 24 true).r 4) = true
    ∧ (((releasing 0 false).begun (.peerRel 3 4)).part 0).imports.any (fun i => i.handle == (releasing 0 false).r 4) = false
    ∧ ((releasing 0 false).begun (.peerRel 3 4)).exportOf 0x51000 = some { exported with owner := 0 }
    ∧ ((releasing 24 false).begun (.peerRel 3 4)).exportOf 0x51000 = some exported ∧ exported.owner ≠ 0 := by decide +kernel
/-- The handle of an export that has been revoked. -/
theorem witness_PeerResults_revoked : let s := { importing 0x51000 0 with exports := [], withdrawn := [0x51000] }
    s.runs (.peerImp 3 4 5) ∧ s.roomy ∧ (s.begun (.peerImp 3 4 5)).revoked (s.r 4) = true ∧ (s.part 0).impAfter ≤ s.cc
    ∧ ((importing 0x51000 0).begun (.peerImp 3 4 5)).revoked 0x51000 = false ∧ ((importing 0x61000 0).begun (.peerImp 3 4 5)).revoked 0x61000 = false := by
  decide +kernel
/-- A table that holds one value at every key of a range. -/
theorem get_filled {α : Type} (d e : α) : ∀ (n a k : Nat), a ≤ k → k < a + n → get d ((List.range' a n).map fun i => (i, e)) k = e
  | 0, a, k, h, h2 => absurd h2 (by omega)
  | n + 1, a, k, h, h2 => by
    simp only [List.range'_succ, List.map_cons, Machine.get]
    split
    · rfl
    · exact get_filled d e n (a + 1) k (by omega) (by omega)
/-- A domain with all 4,096 entries taken. -/
theorem witness_PeerResults_none :
    State.freeExport { exporting 0x30000 with exports := (List.range' 0 4096).map fun i => (i, exported) } 0 = none := by
  simp only [State.freeExport, List.find?_eq_none, List.mem_range]
  intro k hk
  rw [Nat.mul_zero, Nat.zero_add, get_filled Export.none exported 4096 0 k (by omega) (by omega)]
  decide
/-- R157: the extent exported; R158: 0 for an import, and the delay of a refused one; R159. -/
theorem test_peers : (get Export.none (after (exec (.peerExp 3 4 5 6) (exporting 0x30000))).exports 0).base = 0x30000
    ∧ (after (exec (.peerExp 3 4 5 6) (exporting 0x20000000))).here.reg 3 = 0xFFFFFFFFFFFFFFFF
    ∧ (after (exec (.peerImp 3 4 5) (importing 0x51000 0))).here.reg 3 = 0
    ∧ ((after (exec (.peerImp 3 4 5) (importing 0x61000 0))).part 0).impAfter = 16384
    ∧ (after (exec (.peerRel 3 4) (releasing 24 false))).here.reg 3 = 0xFFFFFFFFFFFFFFFF := by decide +kernel

/-- `venc` with a descriptor in cluster SRAM, for a partition with an engine in force and for one with none. -/
def encoding_ (own : Bool) : State :=
  let s := withRegs (ready (.venc 3 4 5)) [(4, 0x00FD000000000000)]
  let q := Config.quadOf 72
  let s1 := { s with cluster := writeBytes s.cluster (clusKey q 16) (leBytes 8 0x00FD000000001000 ++ leBytes 4 4096) }
  s1.modDie (Config.dieOf 72) fun x => { x with inForce := if own then put 0 x.inForce 2 (q + 1) else [] }
theorem witness_EncoderResults : ∀ b ∈ [true, false], (encoding_ b).runs (.venc 3 4 5) ∧ (isGlobal ((encoding_ b).r 4) || isC ((encoding_ b).r 4)) = true
    ∧ ((encoding_ b).r 4).toNat % 64 = 0 ∧ isBarTarget ((encoding_ b).r 5) = false
    ∧ ∃ s1 l, ((encoding_ b).begun (.venc 3 4 5)).resolve 72 ((encoding_ b).r 4) 64 true true = .at s1 l
      ∧ (s1.waitsAt 72 l = false ∧ s1.uncorrAt 72 l 64 = false ∧
        (match (s1.touched 72 l 64).holdAll 72
            [(1, (encoding_ b).r 4, 64, true, true), (0, BitVec.ofNat 64 (descNat (s1.bytesAt 72 l 64) 16 8), descNat (s1.bytesAt 72 l 64) 24 4, false, true),
             (3, 0xFE000000000000, 16, true, false), (2, 0xFE000000000000, barExtent, true, true)] with
         | .ok r => decide (r.1.unit = (encoding_ b).unit ∧ decide (r.1.here.wait = (encoding_ b).here.wait)
            ∧ (r.1.die (Config.dieOf 72)).queueFor ((encoding_ b).partOf 72) = (if b then some 2 else none) ∧ (r.1.setR 3 0).roomy)
         | .error _ => false) = true) := by
  intro b h
  simp only [List.mem_cons, List.not_mem_nil, or_false] at h
  rcases h with rfl | rfl <;> exact ⟨by decide +kernel, by decide +kernel, by decide +kernel, by decide +kernel, meets _ (by decide +kernel)⟩
/-- A submission that waits for engine 2, and one that the engine works on. -/
def submitted : State := after (exec (.venc 3 4 5) (encoding_ true))
def encodes : State := after (exec (.encoderStart (Config.dieOf 72) 2) submitted)
theorem witness_EncoderResults_events : (∃ x, submitted.nextFor (Config.dieOf 72) 2 = some x ∧ (x.target = 0 ∧ x.coded = false))
    ∧ (get none (submitted.die (Config.dieOf 72)).busy 2).isNone = true
    ∧ (∃ x, get none (encodes.die (Config.dieOf 72)).busy 2 = some x ∧ (x.target = 0 ∧ x.coded = false)) ∧ encodes.engineDone 72 = true :=
  ⟨found _ (by decide +kernel), by decide +kernel, found _ (by decide +kernel), by decide +kernel⟩
/-- A barrier in SCR as a target, and the completion of an engine for a flag, for a barrier and for neither. -/
theorem witness_EncoderResults_targets : let s := withRegs (encoding_ true) [(4, 0x00FD000000000000), (5, 0x00FE000000000040)]
    s.runs (.venc 3 4 5) ∧ isBarTarget (s.r 5) = true ∧ placeOf (s.r 5) ≠ .bad ∧ (s.r 5).toNat % 16 = 0
    ∧ ∃ s1 l, (s.begun (.venc 3 4 5)).resolve 72 (s.r 4) 64 true true = .at s1 l ∧ s1.windowFault 72 (s.r 5) barExtent = none := by
  refine ⟨by decide +kernel, by decide +kernel, by decide +kernel, by decide +kernel, meets _ (by decide +kernel)⟩
def codedFor (target : Word) : State :=
  encodes.modDie (Config.dieOf 72) fun x =>
    { x with busy := put none x.busy 2 ((get none x.busy 2).map fun b => { b with target := target, desc := [] }) }
theorem witness_EncoderResults_completion : ∀ v ∈ [0x8000000000000003, 0], ∃ b, get none ((codedFor (BitVec.ofNat 64 v)).die (Config.dieOf 72)).busy 2 = some b
    ∧ (b.coded = false ∧ isFlagTarget b.target = decide (v ≠ 0)
      ∧ (((codedFor (BitVec.ofNat 64 v)).hitTarget 72 (decide ((codedFor (BitVec.ofNat 64 v)).aim 72 ≠ b.task)) { b.command with status := 0 }).2 = true)
      ∧ (let s := codedFor (BitVec.ofNat 64 v)
         let out := Config.encoded (get [] (s.die (Config.dieOf 72)).last b.sid ++ (b.params (!get false (s.die (Config.dieOf 72)).started b.sid) ++ (s.frame b).1))
         let w := s.writeAt 72 (decide (s.aim 72 ≠ b.task)) b.command ((out.take (descNat b.desc 24 4)).zipIdx.map (fun p => (0, plus b.command.dst p.2, [p.1]))
           ++ [(1, plus b.at_ 28, leBytes 4 (if descNat b.desc 24 4 < out.length then 0xFFFFFFFF else out.length))])
         w.2 = true ∧ w.1.engineDone 72 = true)) := by
  intro v h
  simp only [List.mem_cons, List.not_mem_nil, or_false] at h
  rcases h with rfl | rfl <;> exact found _ (by decide +kernel)
/-- R160: the first submission has number 0; without an engine D is all ones. -/
theorem test_encoder : submitted.here.reg 3 = 0 ∧ (submitted.die (Config.dieOf 72)).queue.length = 1 ∧ (encodes.die (Config.dieOf 72)).queue.length = 0
    ∧ (after (exec (.venc 3 4 5) (encoding_ false))).here.reg 3 = 0xFFFFFFFFFFFFFFFF := by decide +kernel

/-! ### Special registers and vector instructions -/

/-- A privilege for the unit's context. -/
def atPriv (p : Priv) (s : State) : State := s.modCr s.unit.core fun r => { r with priv := p }
theorem witness_CsrResults : (∀ i ∈ [Instr.csrr 3 31 31, .csrr 3 4 4, .csrr 3 4 3, .csrr 3 1 6], (ready i).runs i ∧ (ready i).roomy)
    ∧ fieldsOf 0 (csrNumber 31 31) = none ∧ (∃ f, fieldsOf 0 (csrNumber 4 4) = some f ∧ mayRead .user f = false)
    ∧ (∃ f, fieldsOf 0 (csrNumber 4 3) = some f ∧ (mayRead .user f = true ∧ csrNumber 4 3 ≠ 0xC1)) ∧ csrNumber 1 6 = 0xC1
    ∧ (atPriv .guest (ready (.csrr 3 1 6))).runs (.csrr 3 1 6)
    ∧ ∃ v, ((atPriv .guest (ready (.csrr 3 1 6))).begun (.csrr 3 1 6)).readReg 0 .guest 0xC1 = .ok v
      ∧ (((atPriv .guest (ready (.csrr 3 1 6))).begun (.csrr 3 1 6)).acquire 0 0 [] |>.setR 3 v).roomy :=
  ⟨by decide +kernel, by decide +kernel, found _ (by decide +kernel), found _ (by decide +kernel), by decide +kernel, by decide +kernel,
    settled _ (by decide +kernel)⟩
theorem witness_CsrResults_write : (∀ i ∈ [Instr.csrw 3 31 31, .csrw 3 4 4, .csrw 3 2 4, .csrw 3 4 3, .csrw 3 5 3], (ready i).runs i ∧ (ready i).roomy
      ∧ (atPriv .guest (ready i)).runs i ∧ (atPriv .guest (ready i)).roomy ∧ (ready i).my.cr.priv = .user)
    ∧ csrNumber 4 3 = 0x64 ∧ csrNumber 5 3 = 0x65 ∧ csrNumber 4 4 = 0x84 ∧ csrNumber 2 4 = 0x82 ∧ privRank .guest ≤ privRank (atPriv .guest (ready (.csrw 3 4 4))).my.cr.priv
    ∧ (∃ f, fieldsOf 0 (csrNumber 4 4) = some f ∧ mayWrite .user f = false)
    ∧ (match ((ready (.csrw 3 4 3)).begun (.csrw 3 4 3)).writeReg 0 .user false 0x64 9 with | .ok (.ok u) => decide u.roomy | _ => false) = true :=
  ⟨by decide +kernel, by decide +kernel, by decide +kernel, by decide +kernel, by decide +kernel, by decide +kernel, found _ (by decide +kernel),
    by decide +kernel⟩
/-- R119: WTMO at user; R120: TVEC at guest only. -/
theorem test_csr : (after (exec (.csrw 3 4 3) (withRegs (ready (.csrw 3 4 3)) [(3, 9)]))).my.cr.wtmo = 9
    ∧ (after (exec (.csrr 3 4 3) (ready (.csrr 3 4 3)))).here.reg 3 = 0xFFFFFFFF
    ∧ (after (exec (.csrw 3 4 4) (withRegs (trapping (ready (.csrw 3 4 4))) [(3, 9)]))).my.cr.ecause = BitVec.ofNat 8 (causeCode .priv)
    ∧ (after (exec (.csrw 3 4 4) (withRegs (atPriv .guest (ready (.csrw 3 4 4))) [(3, 0x1000B)]))).my.cr.tvec = 0x1000B := by decide +kernel

/-- A package whose host port has trained. -/
def served : State := { State.reset with hub := { State.reset.hub with trained := [(0, true)] } }
theorem witness_RegisterWriteEvents : poolpwRefused 0x200000 = true ∧ poolpwRefused 0x35C400 = false
    ∧ get false State.reset.hub.trained 0 = false ∧ get false served.hub.trained 2 = false ∧ served.hub.recovery = false ∧ get false served.hub.trained 0 = true ∧ atCore 0x64 = true ∧ 5 < 192 ∧ 0x64 < 256
    ∧ (∃ v, served.readReg 5 .hyp 0x64 = .ok v ∧ v = 0xFFFFFFFF)
    ∧ (match served.writeReg 5 .hyp true 0x64 9 with | .ok (.ok _) => true | _ => false) = true :=
  ⟨by decide +kernel, by decide +kernel, by decide +kernel, by decide +kernel, by decide +kernel, by decide +kernel, by decide +kernel,
    by decide +kernel, by decide +kernel, settled _ (by decide +kernel), by decide +kernel⟩
/-- R68: a tile of type f32 with 256 columns is configured, one of 257 is not; R361: a count of 0 is refused; R319: an answer. -/
theorem test_register_events : tshCfg (((after (exec (.tshWrite 0 3 0x11FE00000) State.reset)).ctx 0).shape 3) = true
    ∧ tshCfg (((after (exec (.tshWrite 0 3 0x120000000) State.reset)).ctx 0).shape 3) = false
    ∧ (after (exec (.capstopWrite 0 0x10000) State.reset)) = State.reset ∧ ((after (exec (.capstopWrite 0 0x10005) State.reset)).core 0).captArm = true
    ∧ (after (exec (.hostWindowAccess ⟨0, none⟩ false 0x50320 0) served)).hub.answer = some 0xFFFFFFFF := by decide +kernel

/-- A unit of MX of a type, with rows 0 to 63 of TILE and given scalar registers. -/
def vector (ty : Nat) (i : Instr) (l : List (Nat × Word)) : State := withRegs (placed State.reset 0 .mx ty i) l
/-- The rows of sources that are in order. -/
def sourceRows (u : State) (ty : Nat) : List (BitVec 8) → Option (List (Option Nat))
  | [] => some []
  | a :: as =>
    match u.source ty a, sourceRows u ty as with
    | .ok x, some xs => some (x.2 :: xs)
    | _, _ => none
/-- Whether the destination row, the sources and their domains of a vector instruction are in order. -/
def fits (s : State) (i : Instr) (d : Option Nat) (srcs : List (BitVec 8)) (spectral : Bool) : Bool :=
  let u := s.begun i
  match sourceRows u s.unit.ty srcs, d with
  | some xs, none => (u.domainCheck spectral xs).toBool
  | some xs, some d => (match u.vname d with | .ok r => (u.domainCheck spectral (some r :: xs)).toBool | .error _ => false)
  | none, _ => false
/-- The lane-wise instructions, each with a type it accepts and its sources; v1 := f(v2, v3). -/
def laneWise : List (Instr × Nat × LaneOp × List (BitVec 8)) :=
  [(.vadd 1 2 3, 1, .add, [2, 3]), (.vsub 1 2 3, 2, .sub, [2, 3]), (.vmul 1 2 0xC1, 7, .mul, [2, 0xC1]), (.vmin 1 2 3, 1, .min, [2, 3]),
    (.vmax 1 2 0x83, 1, .max, [2, 0x83]), (.vfma 1 2 3, 1, .fma, [2, 3]), (.vfms 1 2 3, 1, .fms, [2, 3]), (.vfnma 1 2 3, 1, .fnma, [2, 3]),
    (.vfnms 1 2 3, 1, .fnms, [2, 3]), (.vcmul 1 2 3, 13, .cmul, [2, 3]), (.vand 1 2 3, 7, .and, [2, 3]), (.vor 1 2 3, 7, .or, [2, 3]),
    (.vxor 1 2 3, 7, .xor, [2, 3]), (.vshl 1 2 0xC3, 7, .shl, [2, 0xC3]), (.vshr 1 2 3, 7, .shr, [2, 3]), (.vsra 1 2 3, 7, .sra, [2, 3]),
    (.vadds 1 2 0x43, 9, .adds, [2, 0x43]), (.vsubs 1 2 3, 9, .subs, [2, 3]), (.vabs 1 2, 1, .abs, [2]), (.vneg 1 2, 1, .neg, [2]), (.vmov 1 2, 1, .mov, [2])]
theorem witness_VectorLaneResults : ∀ p ∈ laneWise, (vector p.2.1 p.1 []).runs p.1 ∧ (vector p.2.1 p.1 []).roomy ∧ (vector p.2.1 p.1 []).my.mat.vbusy = 0
    ∧ p.2.2.1.accepts p.2.1 = true ∧ fits (vector p.2.1 p.1 []) p.1 (some 1) p.2.2.2 (p.2.2.1.spectral && isComplex p.2.1) = true := by decide +kernel
theorem witness_VectorLaneResults_types : LaneOp.shl.accepts 1 = false ∧ (vector 1 (.vshl 1 2 3) []).runs (.vshl 1 2 3) ∧ isInt 9 = true
    ∧ 0xFFFF < 2 ^ elemBits 8 := by decide +kernel

/-- The other vector instructions with a type, a destination and sources. -/
def rowWise : List (Instr × Nat × Option Nat × List (BitVec 8)) :=
  [(.vcmpEq 1 2 3, 1, none, [2, 3]), (.vcmpNe 1 2 3, 7, none, [2, 3]), (.vcmpLt 1 2 3, 15, none, [2, 3]), (.vcmpLe 1 2 3, 1, none, [2, 3]),
    (.vcmpGt 1 2 3, 1, none, [2, 3]), (.vcmpGe 1 2 3, 1, none, [2, 3]), (.vcmpUn 1 2 3, 1, none, [2, 3]), (.vsel 1 2 3, 14, some 1, [2, 3]),
    (.vredAdd 1 2, 1, some 1, [2]), (.vredMax 1 2, 7, some 1, [2]), (.vredMin 1 2, 1, some 1, [2]), (.vredAmax 1 2, 1, some 1, [2]),
    (.vexp2 1 2, 1, some 1, [2]), (.vlog2 1 2, 1, some 1, [2]), (.vrcp 1 2, 1, some 1, [2]), (.vrsqrt 1 2, 1, some 1, [2]), (.vtanh 1 2, 1, some 1, [2]),
    (.vsigm 1 2, 1, some 1, [2]), (.vcvt 1 2 3 0 1, 1, some 1, [2]), (.vquant 1 2 3, 1, some 1, [2, 3]), (.vtopk 1 2 0x42, 1, some 1, [2])]
theorem witness_VectorRowResults : ∀ p ∈ rowWise.filter (·.2.1 != 15), (vector p.2.1 p.1 [(2, 0x500000004)]).runs p.1 ∧ (vector p.2.1 p.1 [(2, 0x500000004)]).roomy
    ∧ (vector p.2.1 p.1 [(2, 0x500000004)]).my.mat.vbusy = 0 ∧ fits (vector p.2.1 p.1 [(2, 0x500000004)]) p.1 p.2.2.1 p.2.2.2 false = true := by decide +kernel
theorem witness_VectorRowResults_masks : (∀ i ∈ [Instr.mand 1 2 3, .mor 1 2 3, .mxor 1 2 3, .mnot 1 2], (vector 0 i []).runs i ∧ (vector 0 i []).roomy
      ∧ (vector 0 i []).my.mat.vbusy = 0)
    ∧ cvtOk 1 3 0 = true ∧ kindOf 0x42 = 1 ∧ bits (0x500000004 : Nat) 7 0 = 4 ∧ bits (0x500000004 : Nat) 31 8 = 0
    ∧ (placed State.reset 72 .mx 15 (.vcmpLt 1 2 3)).runs (.vcmpLt 1 2 3) ∧ fits (placed State.reset 72 .mx 15 (.vcmpLt 1 2 3)) (.vcmpLt 1 2 3) none [2, 3] false = true := by
  decide +kernel

/-- Tile 3: 4 rows of 8 f32 columns at row 16 of TILE. -/
def tiled (s : State) : State := s.modCtx 0 fun x => { x with loc := { x.loc with tsh := put 0#64 x.loc.tsh 3 0x100E06021 } }
/-- The lane moves and tile instructions with a type, a destination and sources. -/
def moves : List (Instr × Nat × Option Nat × List (BitVec 8)) :=
  [(.vperm 1 2 3, 1, some 1, [2, 3]), (.vbcast 1 2 0xC3, 1, some 1, [2]), (.vrev 1 2, 1, some 1, [2]), (.vins 1 0x42 0xC3, 1, some 1, []),
    (.vext 5 2 0xC3, 1, none, []), (.vpush ⟨6, 2⟩, 0, none, []), (.tcfg 3 0x46, 0, none, []), (.tclean 3, 0, none, []), (.trowRd 1 3 0xC3, 0, some 1, []),
    (.trowWr 3 2 0xC0, 0, none, []), (.tcolRd 1 3 0xC7, 0, some 1, []), (.tcolWr 3 2 0xC7, 0, none, []), (.vpop ⟨1, 5⟩, 0, some 1, [])]
theorem witness_VectorMoveResults : ∀ p ∈ moves, let s := tiled (vector p.2.1 p.1 [])
    s.runs p.1 ∧ s.roomy ∧ s.my.mat.vbusy = 0 ∧ fits s p.1 p.2.2.1 p.2.2.2 false = true := by decide +kernel
theorem witness_VectorMoveResults_operands : let u := tiled (vector 1 (.vpush ⟨6, 2⟩) [])
    laneType 1 = true ∧ ((u.begun (.vpush ⟨6, 2⟩)).indexOperand 0xC3).toBool = true ∧ ((u.begun (.vpush ⟨6, 2⟩)).rowOperand 2).toBool = true
      ∧ ((u.begun (.vpush ⟨6, 2⟩)).tile 3).toBool = true ∧ tshRows 0x100E06021 = 4 ∧ tshCols 0x100E06021 = 8 ∧ tshBase 0x100E06021 = 16 ∧ tshType 0x100E06021 = 1
      ∧ tshCfg (u.my.shape 3) = true ∧ (u.begun (.vpush ⟨6, 2⟩)).my.links.rroom 6 = true
      ∧ ((u.begun (.vpush ⟨6, 2⟩)).domainCheck false (tileRowsOf 0x100E06021 ++ [some 2])).toBool = true
      ∧ ((u.begun (.vpush ⟨6, 2⟩)).source 1 2).toBool = true := by decide +kernel
theorem witness_VectorMoveResults_pop : let s := (vector 0 (.vpop ⟨1, 5⟩) []).modLinks 0 fun l => { l with rq := put RQueue.empty l.rq 5 { items := [7, 8], staged := [], popped := 0 } }
    s.runs (.vpop ⟨1, 5⟩) ∧ s.roomy ∧ ((s.begun (.vpop ⟨1, 5⟩)).my.links.rqueue 5).items = [7, 8] := by decide +kernel
/-- R196: a lane of `vadd` on i32 wraps; R190: it lands after its latency; R212: `tcfg`. -/
theorem test_vector : ((after (exec (.vadd 1 0xC1 0xC2) (vector 7 (.vadd 1 0xC1 0xC2) []))).my.pend.map fun p => (p.own, p.due)) = [(.mx, 2)]
    ∧ LaneOp.add.elem 7 0xFFFFFFFF 2 0 = 1 ∧ LaneOp.adds.elem 9 0x7F 1 0 = 0x7F
    ∧ ((after (exec (.tcfg 3 0x46) (vector 0 (.tcfg 3 0x46) [(6, 0x100E06021)]))).my.pend.map (·.what)) = [.shape 3 0x100E06021] := by decide +kernel

/-! ### The array, the transform unit and the drains -/

/-- MX or ST at an instruction of a type, with scalar registers and shape registers. -/
def arrayAt (sm : Stream) (ty : Nat) (i : Instr) (l : List (Nat × Word)) (tiles : List (Nat × Word)) : State :=
  (withRegs (placed State.reset 0 sm ty i) l).modCtx 0 fun x =>
    { x with loc := { x.loc with tsh := tiles.foldl (fun m p => put 0#64 m p.1 p.2) x.loc.tsh } }
theorem witness_MatrixLoadResults_fill : ∀ p ∈ [(Instr.wload 3, 4, weightFmt 4, 48), (.wloadSpec 3, 0, 5, 24)], let s := arrayAt .mx p.2.1 p.1 [] []
    s.runs p.1 ∧ s.roomy ∧ p.2.2.1 ≠ 0 ∧ s.my.mat.emptyBuffer = some 0 ∧ ((s.begun p.1).agRead 3 (1024 * p.2.2.2)).toBool = true := by decide +kernel
theorem witness_MatrixLoadResults_lists : ∀ p ∈ [(Instr.sload 3 2, 1, 12288), (.oload 3 2, 0x200, 16), (.bload 3, 0, 16)],
    let s := arrayAt .mx 0 p.1 [(2, BitVec.ofNat 64 p.2.1)] []
    s.runs p.1 ∧ s.roomy ∧ ((s.begun p.1).agRead 3 p.2.2).toBool = true ∧ s.sr 2 = p.2.1 ∧ bits (s.sr 2) 7 1 = 0 ∧ bits (s.sr 2) 63 15 = 0
      ∧ bits (s.sr 2) 14 8 ≤ 64 ∧ (wordsIn 2 (rowOf ((s.core 0).scrBytes 0 16))).all (fun e => bits e.toNat 63 33 == 0) = true := by decide +kernel
/-- `bgeo` of a rectangle of 4 by 2, in MX and in ST, and of one of 4 by 3. -/
def geometry (sm : Stream) (h : Nat) : State :=
  (placed State.reset 0 sm 0 (.bgeo 6)).modCtx 0 fun x => { x with loc := { x.loc with ag := put 0#64 (put 0#64 x.loc.ag 31 (agDim 4 1)) 32 (agDim h 1) } }
theorem witness_MatrixLoadResults_bgeo : (∀ sm ∈ [Stream.mx, .st], (geometry sm 2).runs (.bgeo 6) ∧ (geometry sm 2).roomy ∧ (geometry sm 2).unit.sq = sm
      ∧ (geometry sm 2).my.agCount 6 1 * (geometry sm 2).my.agCount 6 0 = 8)
    ∧ (geometry .mx 3).runs (.bgeo 6) ∧ (geometry .mx 3).my.agCount 6 1 * (geometry .mx 3).my.agCount 6 0 ≠ 8 := by decide +kernel
/-- R166: the lowest empty buffer is filling; R168: GEO is log2 of the rows. -/
theorem test_array_loads : ((after (exec (.wload 3) (arrayAt .mx 4 (.wload 3) [] []))).my.mat.buffer 0).st = 1
    ∧ ((after (exec (.wload 3) (arrayAt .mx 4 (.wload 3) [] []))).my.mat.buffer 1).st = 0
    ∧ (after (exec (.bgeo 6) (geometry .mx 2))).my.mat.geo = 1 := by decide +kernel

/-- Tile 0 of 4 rows of 8 f32 columns; a shape of 2 by 2 by 2; PE weights of e4m3, and spectral ones. -/
def tile0 : Word := 0x100E06001
def shape222 : Word := 0x80402
def weighted (s : State) (spec : Bool) : State :=
  s.modMat 0 fun m => { m with pe := { WeightSet.none with fmt := if spec then 5 else 1, spectral := spec } }
/-- A spectral tile of 4 rows and 8 cf32 columns with LB 3. -/
def spectral0 : Word := tshTags 0xE00E06001 false true 3 0
theorem witness_ArrayResults_mma : let s := weighted (arrayAt .mx 4 (.mma 0 2 1) [(1, shape222)] [(0, tile0)]) false
    s.runs (.mma 0 2 1) ∧ s.roomy ∧ s.my.mat.abusy = 0 ∧ s.my.mat.awaits = false ∧ ((s.begun (.mma 0 2 1)).mmaCheck 0 2 1).toBool = true := by decide +kernel
theorem witness_ArrayResults_fault : let s := arrayAt .mx 4 (.mma 0 2 1) [(1, shape222)] [(0, tile0)]
    s.runs (.mma 0 2 1) ∧ s.my.mat.abusy = 0 ∧ s.my.mat.awaits = false
      ∧ (match (s.begun (.mma 0 2 1)).mmaCheck 0 2 1 with | .error e => decide (e.1 = .wfmt) | .ok _ => false) = true := by decide +kernel
theorem witness_ArrayResults_spec : let s := weighted (arrayAt .mx 0 (.mmaSpec 2 1 1) [(1, shape222)] [(1, spectral0), (2, spectral0)]) true
    s.runs (.mmaSpec 2 1 1) ∧ s.roomy ∧ s.my.mat.abusy = 0 ∧ s.my.mat.awaits = false ∧ ((s.begun (.mmaSpec 2 1 1)).specCheck 2 1 1).toBool = true := by
  decide +kernel
theorem witness_ArrayResults_specFault : let s := weighted (arrayAt .mx 0 (.mmaSpec 2 1 1) [(1, shape222)] [(1, tile0), (2, spectral0)]) true
    s.runs (.mmaSpec 2 1 1) ∧ s.my.mat.abusy = 0 ∧ s.my.mat.awaits = false
      ∧ (match (s.begun (.mmaSpec 2 1 1)).specCheck 2 1 1 with | .error e => decide (e.1 = .domain) | .ok _ => false) = true := by decide +kernel
theorem witness_ArrayResults_mzero : ∀ t ∈ [0, 5], let s := arrayAt .mx 0 (.mzero (BitVec.ofNat 4 t)) [] [(0, tile0)]
    s.runs (.mzero (BitVec.ofNat 4 t)) ∧ s.roomy ∧ s.my.mat.abusy = 0 ∧ tshCfg (s.my.shape t) = (t == 0) := by decide +kernel
/-- R174: the tags of D; R175: an operation of 2 rows keeps the array for 2 cycles; R173: WFMT. -/
theorem test_array : tshDirty ((after (exec (.mma 0 2 1) (weighted (arrayAt .mx 4 (.mma 0 2 1) [(1, shape222)] [(0, tile0)]) false))).my.shape 0) = true
    ∧ (after (exec (.mma 0 2 1) (weighted (arrayAt .mx 4 (.mma 0 2 1) [(1, shape222)] [(0, tile0)]) false))).my.mat.abusy = 2
    ∧ (after (exec (.mma 0 2 1) (trapping (arrayAt .mx 4 (.mma 0 2 1) [(1, shape222)] [(0, tile0)])))).my.cr.ecause = BitVec.ofNat 8 (causeCode .wfmt)
    ∧ tshDom ((after (exec (.mmaSpec 2 1 1) (weighted (arrayAt .mx 0 (.mmaSpec 2 1 1) [(1, shape222)] [(1, spectral0), (2, spectral0)]) true))).my.shape 2) = true
    ∧ (after (exec (.mzero 5) (trapping (arrayAt .mx 0 (.mzero 5) [] [(0, tile0)])))).my.cr.ecause = BitVec.ofNat 8 (causeCode .tileUnconf) := by decide +kernel

/-- `segchk` as the last unit of a block with SEG set: before the last of 2 repetitions, in the last with figures that match its row and
with a cycle count that does not, and outside such a block. -/
def checking (seg : Bool) (reps : Nat) (cyc : Nat) : State :=
  ((placed State.reset 0 .mx 0 (.segchk 9)).modSeq 0 .mx fun q => { q with hword := if seg then q.hword ||| 0x20000000 else q.hword, reps := reps }).modMat 0
    fun m => { m with segCyc := cyc, segCrc := 0xFFFFFFFF }
theorem witness_SegmentChecks : ∀ p ∈ [(false, 1, 0), (true, 2, 0), (true, 1, 0), (true, 1, 7)], let s := checking p.1 p.2.1 p.2.2
    s.runs (.segchk 9) ∧ s.roomy ∧ s.here.inBody = true ∧ s.here.hword.getLsbD 29 = p.1 ∧ s.here.pc.toNat + s.unit.len = s.here.bodyEnd ∧ (s.here.rep + 1 < s.here.reps ↔ p.2.1 = 2)
      ∧ s.my.mat.replaying = 0 ∧ s.my.mat.segDebug = false ∧ s.my.mat.replay = none ∧ s.my.cr.regionOpen = false ∧ (s.core 0).cycle ≠ .unwound
      ∧ ((s.begun (.segchk 9)).vconst 9).toBool = true := by decide +kernel
theorem witness_SegmentChecks_region : let s := regioned (checking true 1 7)
    s.runs (.segchk 9) ∧ s.roomy ∧ s.here.hword.getLsbD 29 = true ∧ s.here.pc.toNat + s.unit.len = s.here.bodyEnd ∧ s.here.reps ≤ s.here.rep + 1
      ∧ s.my.mat.replaying = 0 ∧ s.my.mat.segDebug = false ∧ s.my.mat.replay = none ∧ s.my.cr.regionOpen = true
      ∧ ((s.begun (.segchk 9)).vconst 9).toBool = true := by decide +kernel
/-- An `mzero` of tile 0 as the last operation of the array. -/
def spareOp : ArrayOp :=
  { kind := .zero, redo := false, corr := [], ord := 1, word := 0x4000003B, shape := shape222, ty := 4, dTile := 0, dTsh := tile0, aTsh := 0, base := 0,
    elapsed := 0, set := WeightSet.none, old := WeightSet.none, feeding := none, geo := 0, scales := [], acts := [], read := [], sums := [] }
/-- The same with an array operation to replay, with tries left and with none, and while its replay runs; and a segment that has closed. -/
def replayable (tries busy : Nat) : State := (checking true 1 7).modMat 0 fun m =>
  { m with segStopped := decide (0 < tries), tries := tries, replaying := busy, segHas := true, segClose := decide (0 < busy), replay := some spareOp }
theorem witness_SegmentChecks_replay : ∀ p ∈ [(0, 0), (3, 0), (1, 5)], let s := replayable p.1 p.2
    s.runs (.segchk 9) ∧ s.roomy ∧ s.here.inBody = true ∧ s.my.mat.replaying = p.2 ∧ s.my.mat.segDebug = false ∧ s.my.mat.replay.isSome = true ∧ s.my.mat.segHas = true
      ∧ ((if s.my.mat.segStopped then s.my.mat.tries else 0) = s.my.cr.retryMax.toNat ↔ p.1 = 3) ∧ (s.my.mat.segClose = true ↔ p.2 = 5)
      ∧ (s.modMat 0 fun m => { m with segDebug := true }).my.mat.segDebug = true := by decide +kernel
/-- The constant row that holds the figures of this segment, and one that does not. -/
theorem witness_SegmentChecks_rows : let m := ((checking true 1 7).begun (.segchk 9)).my.mat
    m.matches (BitVec.ofNat 8192 (7 + (m.segCrc ^^^ 0xFFFFFFFF).toNat * 2 ^ 64)) = true ∧ m.matches 0 = false := by decide +kernel
/-- R187: ILLEGAL outside its place, SDC where the figures do not match. -/
theorem test_segchk : (after (exec (.segchk 9) (trapping (checking false 1 0)))).my.cr.ecause = BitVec.ofNat 8 (causeCode .illegal)
    ∧ (after (exec (.segchk 9) (trapping (checking true 1 7)))).my.cr.ecause = BitVec.ofNat 8 (causeCode .sdc)
    ∧ (after (exec (.segchk 9) (checking true 2 7))).here.rep = 1
    ∧ (after (exec (.segchk 9) (replayable 0 0))).my.mat.tries = 1 ∧ (after (exec (.segchk 9) (trapping (replayable 3 0)))).my.cr.ecause = BitVec.ofNat 8 (causeCode .sdc) := by decide +kernel

/-- Tiles for transforms: 0 is spatial with 8 bf16 columns, 1 spectral with 4 cb16 columns and LB 2, 2 as 1 with SEXP 3, 3 spatial as 0 at row 32. -/
def transforming (i : Instr) (r : Word) : State :=
  arrayAt .mx 0 i [(1, r)] [(0, 0x300E06001), (1, tshTags 0xD00606021 false true 2 0), (2, tshTags 0xD00606021 false true 2 3), (3, 0x300E06041)]
theorem witness_TransformResults : (let s := transforming (.xfFwd 1 0 1) 2
      s.runs (.xfFwd 1 0 1) ∧ s.roomy ∧ s.my.mat.xbusy = 0 ∧ tshCfg (s.my.shape 0) = true ∧ tshCfg (s.my.shape 1) = true ∧ s.sr 1 = 2
        ∧ tshDom (s.my.shape 0) = false ∧ tshCols (s.my.shape 0) % 2 ^ 2 = 0 ∧ spectralPair (s.my.shape 0) (s.my.shape 1) = true
        ∧ tshDom (s.my.shape 2) = true)
    ∧ (let s := transforming (.xfInv 3 1) 0
       s.runs (.xfInv 3 1) ∧ s.roomy ∧ s.my.mat.xbusy = 0 ∧ tshDom (s.my.shape 1) = true ∧ tshSexp (s.my.shape 1) = 0
        ∧ tshCols (s.my.shape 1) % (2 ^ tshLb (s.my.shape 1) / 2) = 0 ∧ spectralPair (s.my.shape 3) (s.my.shape 1) = true ∧ tshDom (s.my.shape 0) = false)
    ∧ (let s := transforming (.domScl 2 2 1) 5
       s.runs (.domScl 2 2 1) ∧ s.roomy ∧ s.my.mat.xbusy = 0 ∧ tshDom (s.my.shape 2) = true ∧ s.sr 1 < 64
        ∧ -32 ≤ tshSexp (s.my.shape 2) + signed 6 (s.sr 1) ∧ tshSexp (s.my.shape 2) + signed 6 (s.sr 1) ≤ 31) := by decide +kernel
/-- An operation of `dom.scl` on its first cycle, before its delay, and on the cycle on which its second row is written. -/
def scaling (n : Nat) : TransformOp :=
  { instr := .domScl 2 2 1, ord := 1, lb := 2, exp := 5, dTsh := 0xD00606021, aTsh := 0xD00606021, elapsed := n, rows := [] }
theorem witness_TransformResults_op : (scaling 0).elapsed < tshRows (scaling 0).aTsh ∧ (scaling 1).elapsed < (scaling 1).delay
    ∧ (scaling 3).elapsed = (scaling 3).delay + 1 := by decide +kernel
/-- R182: D is spectral with LB 2 at once; R184: SEXP 3 + 5; R185: an A of the other domain traps DOMAIN. -/
theorem test_transforms : tshLb ((after (exec (.xfFwd 1 0 1) (transforming (.xfFwd 1 0 1) 2))).my.shape 1) = 2
    ∧ tshDom ((after (exec (.xfInv 3 1) (transforming (.xfInv 3 1) 0))).my.shape 3) = false
    ∧ tshSexp ((after (exec (.domScl 2 2 1) (transforming (.domScl 2 2 1) 5))).my.shape 2) = 8
    ∧ (after (exec (.xfInv 3 0) (trapping (transforming (.xfInv 3 0) 0)))).my.cr.ecause = BitVec.ofNat 8 (causeCode .domain) := by decide +kernel

/-- A drain of 2 rows and 4 columns of tile 0 to f16, of a tile that is not configured, and of rows of q6 (1 and 2 rows). -/
def draining (i : Instr) (w : Word) : State :=
  (arrayAt .st 2 i [(2, w)] [(0, tile0)]).modLinks 0 fun l => { l with rq := put RQueue.empty l.rq 6 { items := [7, 8], staged := [], popped := 0 } }
theorem witness_DrainResults : let w : Word := 0x100002
    (let s := draining (.drain 0 5 2) w
     s.runs (.drain 0 5 2) ∧ s.roomy ∧ s.my.mat.drains = [] ∧ drainWordOk w 2 = true ∧ drRows w = 2 ∧ drCols w = 4 ∧ drCol w = 0 ∧ drType w = 0
      ∧ ((s.begun (.drain 0 5 2)).tile 0).toBool = true ∧ drRows w ≤ tshRows tile0 ∧ drCol w + drCols w ≤ tshCols tile0
      ∧ ((s.begun (.drain 0 5 2)).drainSetup false 0 tile0 w 5).toBool = true)
    ∧ ∀ n ∈ [1, 2], let v := BitVec.ofNat 64 (0x40100000 + n)
      let s := draining (.drainQ 5 2) v
      s.runs (.drainQ 5 2) ∧ s.roomy ∧ s.my.mat.drains = [] ∧ s.here.part = 0 ∧ drainWordOk v 2 = true ∧ drType v = 1 ∧ drRows v = n
      ∧ drCol v + drCols v ≤ lanesOf (drType v) ∧ ((s.begun (.drainQ 5 2)).drainSetup true 0 0 v 5).toBool = true
      ∧ ((s.begun (.drainQ 5 2)).my.links.rqueue 6).items = [7, 8] := by decide +kernel
theorem witness_DrainResults_unconfigured : (draining (.drain 1 5 2) 0x100002).runs (.drain 1 5 2) ∧ (draining (.drain 1 5 2) 0x100002).my.mat.drains = []
    ∧ drainWordOk ((draining (.drain 1 5 2) 0x100002).here.reg 2) 2 = true ∧ tshCfg ((draining (.drain 1 5 2) 0x100002).my.shape 1) = false := by decide +kernel
/-- A word that is not legal, one with more rows than the tile, one with a row type, a set outside SCR, and the same for rows of q6. -/
def setOut (s : State) : State := s.modCtx 0 fun x => { x with loc := { x.loc with ag := put 0#64 x.loc.ag 25 0x4000000 } }
theorem witness_DrainResults_stops : (∀ n ∈ [0, 0x100006, 0x40100002], let w := BitVec.ofNat 64 n
      (draining (.drain 0 5 2) w).runs (.drain 0 5 2) ∧ (draining (.drain 0 5 2) w).my.mat.drains = []
      ∧ ((draining (.drain 0 5 2) w).here.reg 2 = w) ∧ drainWordOk w 2 = decide (n ≠ 0))
    ∧ tshRows tile0 < drRows 0x100006 ∧ drType 0x40100002 ≠ 0
    ∧ (let s := setOut (draining (.drain 0 5 2) 0x100002)
       s.runs (.drain 0 5 2) ∧ s.my.mat.drains = [] ∧ drainWordOk 0x100002 2 = true ∧ drRows 0x100002 ≤ tshRows tile0
        ∧ drCol 0x100002 + drCols 0x100002 ≤ tshCols tile0 ∧ drType 0x100002 = 0
        ∧ ((s.begun (.drain 0 5 2)).drainSetup false 0 tile0 0x100002 5).toBool = false)
    ∧ (∀ n ∈ [0, 0x100001], let w := BitVec.ofNat 64 n
      (draining (.drainQ 5 2) w).runs (.drainQ 5 2) ∧ (draining (.drainQ 5 2) w).my.mat.drains = []
      ∧ (draining (.drainQ 5 2) w).here.part = 0 ∧ (drainWordOk w 2 = false ∨ drType w = 0))
    ∧ (let s := setOut (draining (.drainQ 5 2) 0x40100001)
       s.runs (.drainQ 5 2) ∧ s.my.mat.drains = [] ∧ s.here.part = 0 ∧ drainWordOk 0x40100001 2 = true
        ∧ ((s.begun (.drainQ 5 2)).drainSetup true 0 0 0x40100001 5).toBool = false) := by decide +kernel
/-- R215: the first row's bytes land three cycles later; `drain.q` takes a row. -/
theorem test_drains : ((after (exec (.drain 0 5 2) (draining (.drain 0 5 2) 0x100002))).my.pend.map fun p => (p.own, p.due)) = [(.st, 3)]
    ∧ ((after (exec (.drainQ 5 2) (draining (.drainQ 5 2) 0x40100001))).my.links.rqueue 6).items = [8]
    ∧ (after (exec (.drain 1 5 2) (trapping (draining (.drain 1 5 2) 0x100002)))).my.cr.ecause = BitVec.ofNat 8 (causeCode .tileUnconf) := by decide +kernel

/-! ### Tasks -/

/-- A domain with a fresh task READY in slot 0, in an active quad; its program needs a granule of TILE and one of SCR. -/
def posted : State :=
  let s := after (exec (.taskPost 3 4 5) (posting 1))
  { s.modQuad 0 (fun q => { q with active := true }) with mem := writeBytes s.mem 0x40010 (leBytes 8 (129 + 2 ^ 27)) }
/-- `posted` with slot 0 changed. -/
def slotted (f : Slot → Slot) : State := posted.modSlot 0 0 f
theorem witness_TaskEvents_bind : let s := posted.modCore 0 fun k => { k with hasLive := true }
    s.dispatchable 0 0 = true ∧ s.eligible 0 0 1 = true ∧ s.bestFor 0 0 1 = true ∧ s.idle 1 = true
    ∧ s.chosen 0 0 1 = true ∧ s.whereIs (s.slot 0 0).core (0, 0) = .away ∧ (s.slot 0 0).shaving = false := by decide +kernel
/-- The task in slot 0 as the next job of contract 0, on a core 1 that runs with an empty slice. -/
def nextUp : State :=
  ((slotted fun x => { x with record := [0, 0, 0x201, 0, 0, 0, 0, 0], uncontracted := false }).modContract 0 0 fun _ =>
    { Contract.none with isOpen := true, period := 4096, coreset := 2 }).modCore 1 fun k =>
      { k with hasLive := true, slice0 := { k.slice0 with tileg := 0, scrg := 0, constg := 0 } }
/-- A start that gets as far as a context: the entry, the place and the load of a task on core 1. -/
def starts (s : State) : Prop := ∃ p, s.startEntry 0 0 = some p ∧ ∃ q, (p.1.core 1).place (entrySlice p.2 0).size = some q
  ∧ (p.1.loadTask 0 0 1 p.2 q.1 q.2).isSome = true
theorem starts_of {s : State} (h : (match s.startEntry 0 0 with
    | some p => (match (p.1.core 1).place (entrySlice p.2 0).size with | some q => (p.1.loadTask 0 0 1 p.2 q.1 q.2).isSome | none => false)
    | none => false) = true) : starts s := by
  match e : s.startEntry 0 0 with
  | none => rw [e] at h; exact absurd h Bool.false_ne_true
  | some p =>
    rw [e] at h
    refine ⟨p, e, ?_⟩
    match f : (p.1.core 1).place (entrySlice p.2 0).size with
    | none => simp only [f] at h; exact absurd h Bool.false_ne_true
    | some q => simp only [f] at h; exact ⟨q, rfl, h⟩
theorem witness_TaskEvents_preload : (nextUp.nextJob 0 0 1 = true ∧ (nextUp.core 1).hasLive = true ∧ nextUp.parked 0 0 = false
    ∧ (nextUp.slot 0 0).shaving = false ∧ (nextUp.core 1).freeShadow = some false) ∧ starts nextUp :=
  ⟨by decide +kernel, starts_of (by decide +kernel)⟩
/-- The task in slot 0 bound to core 1, of a program table at an address. -/
def bound (table : BitVec 50) : State :=
  ((slotted fun x => { x with st := .preloaded, core := 1 }).modPart 0 fun p => { p with ptbase := table }).modHub fun h => { h with up := true }
theorem witness_TaskEvents_start : (∀ a ∈ [0x1000, 0x1001], (bound (BitVec.ofNat 50 a)).boundTo 1 = some 0 ∧ ((bound (BitVec.ofNat 50 a)).core 1).hasLive = false
    ∧ ((bound (BitVec.ofNat 50 a)).core 1).switchTo = none ∧ (bound (BitVec.ofNat 50 a)).hub.up = true ∧ ((posted.modSlot 0 0 fun x => { x with st := .preloaded, core := 1 }).hub.up = false) ∧ ((bound (BitVec.ofNat 50 a)).quad 0).active = true
    ∧ (let s := (bound (BitVec.ofNat 50 a)).modQuad 0 fun q => { q with active := false }
       s.boundTo 1 = some 0 ∧ (s.core 1).hasLive = false ∧ (s.core 1).switchTo = none ∧ (s.quad 0).active = false)) ∧ (bound 0x1001).startEntry 0 0 = none ∧ starts (bound 0x1000) :=
  ⟨by decide +kernel, by decide +kernel, starts_of (by decide +kernel)⟩
/-- Core 0 asked to yield; core 0 about to switch to a held shadow. -/
def demanded : State := State.reset.modCore 0 fun k => { k with hasLive := true, demand := some 0 }
def switching : State := State.reset.modCore 0 fun k => { k with useA := .held, sliceA := some false, switchTo := some (false, 0) }
theorem witness_TaskEvents_switch : (demanded.core 0).hasLive = true ∧ (demanded.core 0).demand = some 0 ∧ (demanded.ctx 0).atStop = true ∧ (demanded.core 0).dbg.held = false ∧ (demanded.core 0).freeShadow ≠ none
    ∧ (switching.core 0).hasLive = false ∧ (switching.core 0).switchTo = some (false, 0) ∧ (switching.core 0).use false ≠ .restoring
    ∧ (switching.core 0).use false ≠ .empty := by decide +kernel
/-- `yield` with a mode, with an instruction of LD still in flight or none. -/
def yielding (mode : Nat) (busy : Bool) : State :=
  (withRegs (ready (.yield 4)) [(4, BitVec.ofNat 64 mode)]).modSeq 0 .ld fun q =>
    { q with flight := if busy then [{ due := 9, pushM := 0, ring := none, after := none, need := 0, late := false }] else [] }
theorem witness_TaskEvents_yield : ∀ p ∈ [(0, false), (1, false), (2, false), (0, true), (1, true)], (yielding p.1 p.2).runs (.yield 4)
    ∧ (p.1 < 2 → p.2 = false → (((after (exec (.yield 4) (yielding p.1 p.2))).core 0).hasLive = true
      ∧ ((after (exec (.yield 4) (yielding p.1 p.2))).core 0).leaving = some (if p.1 = 0 then .ended else .yielded)))
    ∧ (yielding p.1 p.2).r 4 = BitVec.ofNat 64 p.1 ∧ (yielding p.1 p.2).my.quiet = !p.2 ∧ ((yielding p.1 p.2).core 0).freeShadow ≠ none
    := by decide +kernel
/-- `yield` with mode 1 while both shadows of its core hold contexts. -/
def crowded : State := (yielding 1 false).modCore 0 fun k => { k with useA := .held, useB := .saving }
theorem witness_TaskEvents_crowded : crowded.runs (.yield 4) ∧ crowded.r 4 = 1 ∧ (crowded.core 0).freeShadow = none := by decide +kernel
theorem witness_TaskEvents_end : ((slotted fun x => { x with st := .completing }).slot 0 0).st = .completing
    ∧ (slotted fun x => { x with st := .completing }).working 0 0 = false
    ∧ ({ slotted (fun x => { x with band := 3 }) with cc := 2 ^ 20 } : State).ages 0 0 = true := by decide +kernel
/-- R277: the task is bound; R274: it runs; R280: the shadow holds the context; R122: the slot is COMPLETING; R273: it is free; R276: a band higher. -/
theorem test_tasks : ((after (exec (.dispatchBind 0 0 1) (posted.modCore 0 fun k => { k with hasLive := true }))).slot 0 0).core = 1
    ∧ ((after (exec (.taskStart 1) (bound 0x1000))).slot 0 0).st = .running
    ∧ ((after (exec (.taskStart 1) (bound 0x1001))).slot 0 0).st = .faulted
    ∧ ((after (exec (.preload 0 0 1) nextUp)).core 1).useA = .preload false
    ∧ ((after (exec (.preemptStop 0) demanded)).core 0).hasLive = false
    ∧ ((after (exec (.contextSwitch 0 false) switching)).core 0).hasLive = true
    ∧ (((after (exec (.yield 4) (yielding 0 false))).depart 0).core 0).hasLive = false
    ∧ ((after (exec (.taskCompletion 0 0) (slotted fun x => { x with st := .completing }))).slot 0 0).st = .free
    ∧ ((after (exec (.ageing 0 0) { slotted (fun x => { x with band := 3 }) with cc := 2 ^ 20 })).slot 0 0).band = 2 := by decide +kernel
/-! ### Contracts and pool commands -/

/-- `ct.open` of a descriptor of a period, a BUDGET of 100 and a DEADLINE of 1000 cc on core 0, in SCR. -/
def opening (period : Nat) (p : Priv) : State :=
  let s := withRegs (ready (.ctOpen 3 4)) [(4, 0x00FE000000000000)]
  ((s.modQuad 0 fun q => { q with active := true }).modCore 0 fun k =>
    k.setScr 0 (leBytes 8 period ++ leBytes 4 100 ++ leBytes 4 1000 ++ leBytes 4 0 ++ leBytes 12 1)).modCr 0 fun r => { r with priv := p }
theorem witness_ContractsAndCommands_open : ((opening 4096 .user).runs (.ctOpen 3 4) ∧ (opening 4096 .user).my.cr.priv = .user)
    ∧ ∀ n ∈ [0, 4096], ((opening n .guest).runs (.ctOpen 3 4) ∧ (opening n .guest).my.cr.priv ≠ .user ∧ placeOf ((opening n .guest).r 4) ≠ .bad
      ∧ ((opening n .guest).r 4).toNat % 32 = 0) ∧ ∃ s1 l, ((opening n .guest).begun (.ctOpen 3 4)).resolve 0 ((opening n .guest).r 4) 32 true false = .at s1 l
        ∧ (s1.waitsAt 0 l = false ∧ s1.uncorrAt 0 l 32 = false
          ∧ (s1.touched 0 l 32).admission 0 ((opening n .guest).begun (.ctOpen 3 4) |>.partOf 0) (s1.bytesAt 0 l 32) = (if n = 0 then some (-3) else none)
          ∧ (List.range 4096).find? (fun n => !((s1.touched 0 l 32).contract 0 n).isOpen) = some 0
          ∧ ((s1.touched 0 l 32).setR 3 (BitVec.ofInt 64 (-3))).roomy
          ∧ (((s1.touched 0 l 32).modContract 0 0 fun _ => Contract.none).setR 3 0).roomy) := by
  refine ⟨by decide +kernel, fun n h => ?_⟩
  simp only [List.mem_cons, List.not_mem_nil, or_false] at h
  rcases h with rfl | rfl <;> exact ⟨by decide +kernel, meets _ (by decide +kernel)⟩
/-- `ct.close` of contract 5, own and open, or another's, or none. -/
def closing (n : Nat) (open_ : Bool) (owner : Nat) (p : Priv) : State :=
  ((withRegs (ready (.ctClose 3 4)) [(4, BitVec.ofNat 64 n)]).modContract 0 5 fun _ => { Contract.none with isOpen := open_, owner := owner }).modCr 0
    fun r => { r with priv := p }
theorem witness_ContractsAndCommands_close : ∀ p ∈ [(5, true, 0, Priv.guest), (5, true, 0, .user), (4096, true, 0, .guest), (5, false, 0, .guest), (5, true, 3, .guest)],
    let s := closing p.1 p.2.1 p.2.2.1 p.2.2.2
    s.runs (.ctClose 3 4) ∧ s.roomy ∧ (s.r 4).toNat = p.1 ∧ (s.contract 0 5).isOpen = p.2.1 ∧ (s.contract 0 5).owner = p.2.2.1 ∧ s.my.cr.priv = p.2.2.2
      ∧ (s.begun (.ctClose 3 4)).partOf 0 = 0 := by decide +kernel
/-- The task in slot 0 as the job of contract 0, live on core 0, past its budget and its deadline. -/
def working : State :=
  ((slotted fun x => { x with record := [0, 0, 0x201, 0, 0, 0, 0, 0], uncontracted := false, st := .running, job := true, budget := 9, deadline := some 0 }).modContract 0 0
    fun _ => { Contract.none with isOpen := true, period := 4096, budget := 9, coreset := 1, job := some 0, band := 2 }).modCore 0 fun k =>
      { k with hasLive := true, live := { k.live with task := some (0, 0) } }
theorem witness_ContractsAndCommands_events : (nextUp.contract 0 0).isOpen = true ∧ (nextUp.contract 0 0).next ≤ nextUp.cc
    ∧ (nextUp.contract 0 0).job = none ∧ nextUp.oldestOf 0 0 = some 0 ∧ working.overruns 0 = true ∧ (working.ctx 0).task = some (0, 0)
    ∧ working.misses 0 0 = some 0 := by decide +kernel
/-- The task in slot 0, pre-empted, its context in shadow A of core 0. -/
def standing : State :=
  (slotted fun x => { x with st := .running }).modCore 0 fun k => { k with useA := .held, shA := { k.shA with task := some (0, 0) } }
theorem witness_ContractsAndCommands_commands : (posted.range 0).contains 3 = true ∧ (posted.slot 0 3).st = .free ∧ (posted.range 0).contains 4 = false
    ∧ ((slotted fun x => { x with owner := 1 }).slot 0 0).owner ≠ 0
    ∧ (∀ st ∈ [SlotState.faulted, .ready, .running], (((slotted fun x => { x with st := st }).range 0).contains 0 = true
      ∧ ((slotted fun x => { x with st := st }).slot 0 0).st = st ∧ ((slotted fun x => { x with st := st }).slot 0 0).owner = 0
      ∧ (slotted fun x => { x with st := st }).whereIs ((slotted fun x => { x with st := st }).slot 0 0).core (0, 0) = .away
      ∧ (slotted fun x => { x with st := st }).working 0 0 = false))
    ∧ (working.range 0).contains 0 = true ∧ (working.slot 0 0).st = .running ∧ (working.slot 0 0).owner = 0
    ∧ working.whereIs (working.slot 0 0).core (0, 0) = .live
    ∧ (standing.range 0).contains 0 = true ∧ (standing.slot 0 0).st = .running ∧ (standing.slot 0 0).owner = 0
    ∧ standing.whereIs (standing.slot 0 0).core (0, 0) = .shadow false ∧ standing.bound 0 0 = false := by decide +kernel
/-- A faulted task with a remote write of its core still on its way. -/
def trailing : State := { slotted (fun x => { x with st := .faulted }) with sent := [{ core := 0, home := 0, die := 0, seq := 1, stamp := [], pa := 0, bytes := [], engine := false }] }
theorem witness_ContractsAndCommands_release : (trailing.range 0).contains 0 = true ∧ (trailing.slot 0 0).st = .faulted ∧ (trailing.slot 0 0).owner = 0
    ∧ trailing.whereIs (trailing.slot 0 0).core (0, 0) = .away ∧ trailing.working 0 0 = true
    ∧ ((((slotted fun x => { x with st := .faulted }).learn 0 0).dropShadow 0 0).modSlot 0 0 fun y => { y with st := .completing }).working 0 0 = false := by decide +kernel
/-- R121: D holds the contract, or -3; R283, R285: the job, and the demoted task; R287. -/
theorem test_contracts : (after (exec (.ctOpen 3 4) (opening 4096 .guest))).here.reg 3 = 0
    ∧ (after (exec (.ctOpen 3 4) (opening 0 .guest))).here.reg 3 = 0xFFFFFFFFFFFFFFFD
    ∧ ((after (exec (.ctClose 3 4) (closing 5 true 0 .guest))).contract 0 5).isOpen = false
    ∧ ((after (exec (.contractRelease 0 0) nextUp)).slot 0 0).job = true
    ∧ ((after (exec (.overrun 0) working)).core 0).demand.isSome = true
    ∧ ((after (exec (.miss 0 0) working)).slot 0 0).job = false
    ∧ ((after (exec (.rerun 0 0) (slotted fun x => { x with st := .faulted }))).slot 0 0).st = .ready
    ∧ ((after (exec (.resume 0 0) (slotted fun x => { x with st := .faulted }))).slot 0 0).st = .saved
    ∧ ((after (exec (.drop 0 0) posted)).slot 0 0).st = .free
    ∧ ((after (exec (.release 0 0) trailing)).slot 0 0).st = .completing
    ∧ ((after (exec (.evict 0 0) working)).core 0).demand.isSome = true
    ∧ ((after (exec (.poolqWrite 0 0x5007) posted)).part 0).poolqFirst = 7 := by decide +kernel
/-! ### Saves, restores, and the package -/

/-- `mapped` with its one translation kept, and the slice of core 0 empty. -/
def keeping (s : State) : State :=
  ({ (mapped s).modPart 0 (fun p => { p with kept := [{ va := 0, size := 2 ^ 29, leaf := 0x1F, level := 3 }], shvBase := 16, shvStride := 7 }) with
    keepTlb := true }).modCore 0 fun k => { k with slice0 := { k.slice0 with tileg := 0, scrg := 0, constg := 0 } }
/-- The area of the task in slot 0, in one page that is held. -/
def areaHold : PageHold := { ext := 0, va := 0x100000, pa := 0x100000, size := areaSize, own := 0, at_ := 0, room := 2 ^ 29 }
/-- A held context of the task in slot 0, and a save of it in progress. -/
def heldIn : State :=
  ((keeping State.reset).modCore 0 fun k => { k with useA := .held, shA := { k.shA with task := some (0, 0) } }).modSlot 0 0 fun x => { x with st := .running }
def savingTo : Spindle := { save := true, shadow := false, own := 0, area := 0x100000, holds := [areaHold], sent := 3 }
def saving : State := heldIn.modCore 0 fun k => { k with useA := .saving, spindle := some savingTo }
/-- What the save works from. -/
def savingJob : SaveJob :=
  { holds := [areaHold], area := 0x100000, core := 0, ctx := { Ctx.cleared with task := some (0, 0) }, slice := (saving.core 0).slice0,
    images := [], own := 0, imm := 0 }
theorem header_held (s : State) (h : ShavingHeader) : ∃ u, s.writeHeader 0 [areaHold] 0x100000 h = some u := by
  have := length_header s [areaHold] 0x100000 h.own h
  exact heldWrite_held s 0 areaHold [] _ _ (by decide) (Nat.add_le_add_left (Nat.le_trans this (by decide)) _)
theorem segs_held (s : State) (j : SaveJob) (hh : j.holds = [areaHold]) (ha : j.area = 0x100000) (hn : j.segments = 40)
    (hc : Machine.layoutOf j.core = 0x0A10) (hr : ∀ sm, j.ctx.records sm = []) (n : Nat) : ∃ r, s.writeSegs j n = some r := by
  refine writeSegs_held s j areaHold [] hh n (by rw [hn]; exact Nat.min_le_right ..) fun i hi => ?_
  have hi : i < 40 := by rw [hn] at hi; exact Nat.lt_of_lt_of_le hi (Nat.min_le_right _ _)
  have hp : segPlace i < 5000000 := (by decide +kernel : ∀ i < 40, segPlace i < 5000000) i hi
  have := image_bound i _ _ (length_jobPay s j i hi hc hr) hp
  rw [ha, Nat.add_assoc]
  exact ⟨Nat.le_add_right .., Nat.add_le_add_left this _⟩
theorem witness_RecoveryEvents_saveAll : ∃ p, saving.saveAll savingJob ((saving.slot 0 0).saves + 1) = some p := by
  obtain ⟨⟨u, f⟩, e⟩ := segs_held saving savingJob rfl rfl (by decide +kernel) (by decide +kernel) (by intro sm; cases sm <;> decide +kernel)
    savingJob.segments
  obtain ⟨v, ev⟩ := header_held u (savingJob.header (savingJob.own ||| f) f true ((saving.slot 0 0).saves + 1))
  refine ⟨(v, f), ?_⟩
  rw [State.saveAll, e]
  dsimp only
  rw [show u.writeHeader savingJob.core savingJob.holds savingJob.area (savingJob.header (savingJob.own ||| f) f true ((saving.slot 0 0).saves + 1)) = some v from ev]
/-- The same with a SHVSTRIDE below 7, and with a write that the core made before the save still on its way. -/
def narrowed : State := heldIn.modPart 0 fun p => { p with shvStride := 6 }
def savingLate : State :=
  { saving with sent := [{ die := 0, core := 0, seq := 1, stamp := [], home := 1, pa := 2 ^ 36, bytes := [1], engine := false }] }
theorem witness_RecoveryEvents_save : (heldIn.toSave 0 false = true ∧ (heldIn.core 0).spindle = none ∧ ((heldIn.core 0).shadow false).task = some (0, 0)
      ∧ ((heldIn.holdSlot 0 0 0).2.2 = .whole ∧ (narrowed.holdSlot 0 0 0).2.2 = .fault))
    ∧ (narrowed.toSave 0 false = true ∧ (narrowed.core 0).spindle = none)
    ∧ (saving.core 0).spindle = some savingTo ∧ saving.onItsWay 0 3 = false ∧ (savingLate.core 0).spindle = some savingTo ∧ savingLate.onItsWay 0 3 = true
    ∧ saving.areaServed 0 savingTo.holds = true ∧ saving.saveJob 0 savingTo = some savingJob ∧ ((saving.core 0).shadow false).task = some (0, 0) := by
  decide +kernel
/-- The header of a shaving of no granules whose segments have empty payloads, complete, for a core of kind A (R333); its CRC field holds the
CRC-32C of its other bytes and of the 40 CRC fields. -/
def emptyHeader (crc : Nat) : List Byte :=
  leBytes 4 0x5648534B ++ leBytes 2 0x0A10 ++ leBytes 2 0 ++ leBytes 16 0xFFFFFFFFFF ++ leBytes 16 0 ++ leBytes 2 40 ++ leBytes 2 0x8000 ++ leBytes 4 1
    ++ leBytes 8 0 ++ leBytes 4 crc ++ leBytes 4 15
/-- A state with that shaving at 0x100000. -/
def shaved (s : State) : State :=
  let m := writeBytes s.mem 0x100000 (emptyHeader 0x94E485D0)
  { s with mem := (List.range 40).foldl (fun m i => writeBytes m (0x100000 + segPlace i) [BitVec.ofNat 8 i]) m }
theorem crc_append (r : BitVec 32) (a b : List Byte) : crcBytes r (a ++ b) = crcBytes (crcBytes r a) b := List.foldl_append
theorem crc_header : crc32c (emptyHeader 0 ++ List.replicate 160 0#8) = 0x94E485D0 := by
  rw [crc32c, show emptyHeader 0 ++ List.replicate 160 0#8 = (emptyHeader 0).take 32 ++ ((emptyHeader 0).drop 32 ++ (List.replicate 32 0#8
    ++ (List.replicate 32 0#8 ++ (List.replicate 32 0#8 ++ (List.replicate 32 0#8 ++ List.replicate 32 0#8))))) by decide +kernel,
    crc_append, show crcBytes 0xFFFFFFFF ((emptyHeader 0).take 32) = 0xEDB0DD93 by decide +kernel,
    crc_append, show crcBytes 0xEDB0DD93 ((emptyHeader 0).drop 32) = 0xDDD96FDE by decide +kernel,
    crc_append, show crcBytes 0xDDD96FDE (List.replicate 32 0#8) = 0x438BB383 by decide +kernel,
    crc_append, show crcBytes 0x438BB383 (List.replicate 32 0#8) = 0x177C321A by decide +kernel,
    crc_append, show crcBytes 0x177C321A (List.replicate 32 0#8) = 0xE5AA39D2 by decide +kernel,
    crc_append, show crcBytes 0xE5AA39D2 (List.replicate 32 0#8) = 0x460EE003 by decide +kernel,
    show crcBytes 0x460EE003 (List.replicate 32 0#8) = 0x6B1B7A2F by decide +kernel]
  decide +kernel
theorem restores_of {s : State} (h1 : s.segCrcs [areaHold] 0x100000 (ShavingHeader.read (emptyHeader 0x94E485D0)).own = List.replicate 160 0#8)
    (h2 : (List.range 40).all (fun i => (s.readSeg [areaHold] 0x100000 i).isSome) = true) (h3 : (s.readSeg [areaHold] 0x100000 7) = some []) :
    s.restoreFault [areaHold] 0x100000 0 (emptyHeader 0x94E485D0) = none := by
  have w : s.headerWhole [areaHold] 0x100000 (emptyHeader 0x94E485D0) = true := by
    rw [State.headerWhole, show (emptyHeader 0x94E485D0).take 56 ++ leBytes 4 0 ++ (emptyHeader 0x94E485D0).drop 60 = emptyHeader 0 by decide +kernel]
    rw [h1, crc_header, show segsIn (ShavingHeader.read (emptyHeader 0x94E485D0)).own = List.range 40 by decide +kernel, h2]
    decide +kernel
  rw [State.restoreFault]
  simp only [w, h3]
  decide +kernel
def restoreFrom : Spindle := { save := false, shadow := false, own := 0, area := 0x100000, holds := [areaHold], sent := 0 }
/-- A restore in progress over a state's memory. -/
def restoringIn (s : State) : State := (s.modCore 0 fun k =>
  { k with useA := .restoring, shA := { k.shA with task := some (0, 0) }, sliceA := some false, spindle := some restoreFrom }).modSlot 0 0 fun x =>
    { x with st := .preloaded, shaving := true }
def restoring : State := restoringIn (shaved (keeping State.reset))
theorem witness_RecoveryEvents_restore : ((restoring.core 0).spindle = some restoreFrom ∧ restoring.areaServed 0 restoreFrom.holds = true ∧ ((restoring.core 0).shadow false).task = some (0, 0))
    ∧ restoring.areaBytes [areaHold] 0x100000 64 = emptyHeader 0x94E485D0
    ∧ restoring.restoreFault [areaHold] 0x100000 0 (emptyHeader 0x94E485D0) = none
    ∧ (match restoring.reload 0 0 (ShavingHeader.read (emptyHeader 0x94E485D0)).imm with
       | some q => (q.1.translate [areaHold] 0x100000 0 (ShavingHeader.read (emptyHeader 0x94E485D0))).isSome
       | none => false) = true :=
  ⟨by decide +kernel, by decide +kernel, restores_of (by decide +kernel) (by decide +kernel) (by decide +kernel), by decide +kernel⟩
/-- R344: a header without its magic number. -/
theorem witness_RecoveryEvents_restoreFails : let s := restoringIn (keeping State.reset)
    (s.core 0).spindle = some restoreFrom ∧ s.areaServed 0 restoreFrom.holds = true ∧ ((s.core 0).shadow false).task = some (0, 0)
      ∧ s.restoreFault [areaHold] 0x100000 0 (s.areaBytes [areaHold] 0x100000 64) = some .restoreCrc := by decide +kernel
/-- R327: the spindle begins to stream a held context out. -/
theorem test_save : ((after (exec (.saveStart 0 false) heldIn)).core 0).useA = .saving := by decide +kernel
/-- A line whose scrub stands between its read and its write. -/
def scrubbed (errs : Nat) : State := { State.reset with scrub := [(5, 1)], lineErr := put 0 [] 5 errs }
theorem witness_RecoveryEvents_pod : get 0 State.reset.scrub 5 = 0
    ∧ (∀ n ∈ [2, 9], get 0 (scrubbed n).scrub 5 = get 0 (scrubbed n).lineSeq 5 + 1 ∧ (scrubbed n).badLine 5 = decide (n = 9))
    ∧ get 0 ({ State.reset with time := 600000000 } : State).pod.heard 3 + 600000000 ≤ 600000000
    ∧ (0 / stackLines < 8 ∧ 0 % stackLines = get 0 State.reset.scrubAt (0 / stackLines) ∧ get 0 State.reset.scrub 0 = 0)
    ∧ (List.replicate 4096 (1#8)).length = 4096 ∧ get false State.reset.pod.failed 3 = false
    ∧ get false ({ State.reset with pod := { State.reset.pod with failed := [(3, true)] } } : State).pod.failed 3 = true := by decide +kernel
/-- A pod in which package 3's manifest of epoch 2 has arrived and one of its buddies has acknowledged it. -/
def acked : State :=
  { State.reset with pod := { State.reset.pod with
      manifests := put false [] (manifestKey 2 3) true, acks := put false [] (2 * manifestKey 2 3) true } }
theorem witness_RecoveryEvents_acks : let t := after (exec (.buddyAcknowledgement 2 3 ⟨1, [3]⟩) acked)
    ∀ x ∈ [3], get false t.pod.manifests (manifestKey 2 x) = true ∧ get false t.pod.acks (2 * manifestKey 2 x) = true
      ∧ get false t.pod.acks (2 * manifestKey 2 x + 1) = true := by decide +kernel
/-- R353: valid with the second acknowledgement, not before. -/
theorem test_acks : get false (after (exec (.buddyAcknowledgement 2 3 ⟨1, [3]⟩) acked)).pod.valid (manifestKey 2 3) = true
    ∧ get false (after (exec (.buddyAcknowledgement 2 3 ⟨0, [3]⟩) acked)).pod.valid (manifestKey 2 3) = false := by decide +kernel
/-- A frequency change that is due. -/
def retuning : State := { State.reset with power := { State.reset.power with pend := true, armed := 2, ceilAt := none }, hub := { State.reset.hub with window := 0, joined := true }, ticked := true }
theorem witness_PackageEvents_power : retuning.power.pend = true ∧ retuning.power.at_.toNat ≤ retuning.time ∧ retuning.power.ceilAt = none
    ∧ (retuning.modHub fun h => { h with trace := { h.trace with pwr := true } }).hub.trace.pwr = true ∧ retuning.hub.window ≤ retuning.time ∧ retuning.power.bound < retuning.power.bound + 1 ∧ retuning.hub.trace.pwr = false
    ∧ ((List.range 48).all fun q => !(retuning.part (retuning.ownerOf q)).trace.pwr) = true ∧ bits (56 : Word).toNat 5 0 ≤ 56
    ∧ (∀ r ∈ [3, 56], get 0 retuning.lag r < 2 ∧ retuning.ticked = true ∧ get 0 retuning.corrected r ≤ retuning.time ∧ get 0 retuning.corrected r = 0
      ∧ get 0 ({ retuning with corrected := [(r, 5)], time := 70 } : State).corrected r + 63 ≤ 70)
    ∧ (let p := { retuning.power with quiet := 99, ceil := 1 }
       20 * 100 ≤ 19 * p.bound ∧ 99 ≤ p.quiet ∧ p.ceil ≠ 0 ∧ 100 * pointMhz (p.ceil - 1) ≤ p.bound * pointMhz p.cur)
    ∧ (∀ b ∈ [true, false], let h := { retuning.hub with up := true, trained := put false [] 1 b }
       h.recovery = false ∧ h.up = true ∧ get false h.trained 1 = b) ∧ retuning.hub.joined = true ∧ State.reset.hub.joined = false := by decide +kernel
/-- A remote write of 2 bytes on its way to its home; a pod-link write to a mapped address. -/
def onTheWay : State := { State.reset with sent := [{ core := 0, home := 0, die := 0, seq := 1, stamp := [], pa := 0x500, bytes := [7, 8], engine := false }] }
theorem witness_PackageEvents_writes : (onTheWay.sent[0]? = some { core := 0, home := 0, die := 0, seq := 1, stamp := [], pa := 0x500, bytes := [7, 8], engine := false }
    ∧ (match onTheWay.sent[0]? with | some w => onTheWay.mayLand w | none => false) = true) ∧ ∃ s1, (mapped State.reset).hubStore (podPort 7) 0 0x5000 (leBytes 8 9) = some s1
      ∧ (s1.sent.map fun w => (w.pa, w.home)) = [(0x5000, 0)] := ⟨by decide +kernel, found _ (by decide +kernel)⟩
/-- R350, R258, R265, R393, R395: an uncorrectable line is poisoned; bytes arrive; the frequency in force. -/
theorem test_package : get 0 (after (exec (.scrubLine 0) State.reset)).scrubAt 0 = 1 ∧ get false (after (exec (.scrubLine 5) (scrubbed 9))).poison 5 = true ∧ get 0 (after (exec (.scrubLine 5) (scrubbed 2))).lineErr 5 = 0
    ∧ get 0#8 (after (exec (.remoteWriteApply 0) onTheWay)).mem 0x501 = 8
    ∧ ((after (exec (.podLinkWrite ⟨7, 3, 0⟩ 0x5000 9) (mapped State.reset))).sent.map fun w => w.bytes) = [leBytes 8 9]
    ∧ (after (exec .frequencyChange retuning)).power.cur = Nat.max 2 retuning.power.ceilOn
    ∧ (after (exec (.hostPortTraining 1 (some true) false) { State.reset with hub := { State.reset.hub with up := true } })).hub.ucie2 = [(1, true)]
    ∧ (after (exec (.wearselWrite 57) State.reset)).power.wearsel = State.reset.power.wearsel := by decide +kernel
/-! ### Isolation -/

/-- Region 5 with a byte that waits or in zeroing; quad 1 with its bits; the live context of core 0 in a partition. -/
def region5 (r : Region) : State := { State.reset with regions := put Region.free [] 5 r, mem := [(regionBase 5 + 3, 9#8), (regionBase 6, 7#8)] }
def quad1 (f : Quad → Quad) : State := (State.reset.modQuad 1 f).modHub fun h => { h with up := true }
theorem witness_IsolationEvents_regions : (∀ p ∈ [(false, 0x40), (false, 0x01), (true, 0x41), (true, 0x40)],
      regionRefused 5 (BitVec.ofNat 8 p.2) = false ∧ ((region5 { Region.free with assigned := p.1 }).region 5).assigned = p.1)
    ∧ ((region5 { Region.free with waiting := some 0x40 }).region 5).waiting = some 0x40
    ∧ (region5 { Region.free with waiting := some 0x40 }).regionHeld 5 = false
    ∧ ((region5 { Region.free with zeroing := true }).region 5).zeroing = true
    ∧ regionBase 5 ≤ regionBase 5 + 3 ∧ regionBase 5 + 3 < regionBase 5 + 2 ^ 29 ∧ regionBase 5 + 2 ^ 29 ≤ regionBase 6 := by decide +kernel
theorem witness_IsolationEvents_quads : ((quad1 fun x => { x with active := false }).quad 1).active = false ∧ (quad1 id).hub.up = true ∧ State.reset.hub.up = false
    ∧ (quad1 fun x => { x with active := false, owner := 1 }).activateRefused 1 1 = false
    ∧ (quad1 fun x => { x with active := false, owner := 2 }).activateRefused 1 2 = true
    ∧ ((quad1 fun x => { x with active := true, owner := 0 }).quad 1).active = true
    ∧ (quad1 fun x => { x with active := true, owner := 0 }).deactivateRefused 1 = false
    ∧ ((quad1 fun x => { x with active := true, owner := 0 }).modQuad 0 fun x => { x with active := true, owner := 0 }).deactivateRefused 0 = true
    ∧ ((quad1 fun x => { x with clear := true }).quad 1).clear = true ∧ (quad1 fun x => { x with clear := true }).quadStill 1 = true
    ∧ (quad1 fun x => { x with clear := true }).quadCleared 1 = true := by decide +kernel
theorem witness_IsolationEvents_engines : (∀ v ∈ [0xF1, 0x10], State.reset.slotsRefused 0 (BitVec.ofNat 64 v) = decide (v = 0xF1))
    ∧ ((State.reset.die 3).queue.any fun q => q.engine == 1) = false := by decide +kernel
/-- A write that names a block of zeros in SCR of core 0, with a measurement register or a request. -/
def blockWord (ix : Nat) : Word := BitVec.ofNat 64 (0xFE000000000000 + ix)
/-- A request of core 0 for a report to a place, made by no context and by one that has gone away without an end. -/
def requested (l : Loc) (task : Option Aim) : Attest := { core := 0, task := task, nonce := List.replicate 48 0, flag := 3, places := [l], holds := [] }
def asking (q : Attest) : State := (slotted fun x => { x with st := .saved, begun := 4 }).modPart 0 fun p => { p with attest := [q] }
theorem witness_IsolationEvents_blocks : (∃ p, (State.reset).namedBlock 0 true (blockWord 2) true = .ok p ∧ (p.2.drop 48).all (· == 0) = true)
    ∧ (∃ p, (State.reset).namedBlock 0 true (blockWord 0) (bits (blockWord 0).toNat 1 0 == 0) = .ok p
      ∧ (match p.1.reportPlaces 0 true 12 (BitVec.ofNat 64 (bits (blockWord 0).toNat 55 6 * 64 + 64)) with | .ok r => r.2.1.length == 12 | .error _ => false) = true)
    ∧ (∀ e ∈ [(Loc.scr 64, none), (.phys 64, some { dom := 0, slot := 0, begun := 4 }), (.scr 64, some { dom := 0, slot := 0, begun := 3 })],
      let q := requested e.1 e.2
      ((asking q).part 0).attest = [q] ∧ (q.places.any isScr = false ∨ (asking q).attestAway q = false ∨ q.task.any (asking q).gone = true))
    ∧ (let q := requested (.scr 64) (some { dom := 0, slot := 0, begun := 4 })
       ((asking q).part 0).attest = [q] ∧ q.places.any isScr = true ∧ (asking q).attestAway q = true ∧ q.task.any (asking q).gone = false) :=
  ⟨settled _ (by decide +kernel), settled _ (by decide +kernel), by decide +kernel, by decide +kernel⟩
/-- R307: only the region's bytes are 0; R300: ERR; R301: ERR; R305: the owner plus 1; R311: nothing is kept. -/
theorem test_isolation : get 0#8 (after (exec (.regionZeroingDone 5) (region5 { Region.free with zeroing := true }))).mem (regionBase 5 + 3) = 0
    ∧ get 0#8 (after (exec (.regionZeroingDone 5) (region5 { Region.free with zeroing := true }))).mem (regionBase 6) = 7
    ∧ ((after (exec (.regownWrite 5 0x41) (region5 { Region.free with assigned := true }))).region 5).waiting = some 0x41
    ∧ ((after (exec (.quadActivate 1) (quad1 fun x => { x with active := false, owner := 2 }))).quad 1).err = true
    ∧ ((after (exec (.quadDeactivate 1) (quad1 fun x => { x with active := true, owner := 0 }))).quad 1).clear = true
    ∧ ((after (exec (.partslotWrite 0 0xF1) State.reset)).quad 0).err = true
    ∧ get 0 ((after (exec (.encownEffect 3 0) (after (exec (.encownWrite 3 0x45) State.reset)))).die 3).inForce 0
        = ((after (exec (.encownWrite 3 0x45) State.reset)).die 3).named 0
    ∧ ((after (exec (.tlbInvalidateAll 0) (State.reset.modPart 0 fun p => { p with kept := [{ va := 0, size := 65536, leaf := 0, level := 0 }] }))).part 0).kept = []
    ∧ ((after (exec (.attestRequest 0 (blockWord 0)) State.reset)).part 0).attest.length = 1
    ∧ (after (exec (.makerDebugUnlock true) State.reset)).hub.unlocked = true := by decide +kernel
/-- R322: HMAC with SHA-384 as RFC 4231 works it out in its second case; a multiple of the base point lies on the curve of RFC 5639. -/
theorem test_keys : beNat (hmac384 ("Jefe".toList.map fun c => BitVec.ofNat 8 c.toNat)
      ("what do ya want for nothing?".toList.map fun c => BitVec.ofNat 8 c.toNat))
      = 0xaf45d2e376484031617f78d2b58a6b1b9c7ef464f5a01b47e42ec3736322445e8e2240ca5e69e2c78b3239ecfab21649
    ∧ (match pointMul 3 5 (some curveG) with
      | some (x, y) => decide (y ^ 2 % curveP = (x ^ 3 + curveA * x
          + 0x04A8C7DD22CE28268B39B55416F0447C2FB77DE107DCD2A62E880EA53EEB62D57CB4390295DBC9943AB78696FA504C11) % curveP)
      | none => false) = true := by decide +kernel
/-- R400: no quad becomes active before bring-up; R395: TIME stands before its release, and a first correction aligns it to the pod. -/
theorem test_bringup : ((after (exec (.quadActivate 0) State.reset)).quad 0).active = false
    ∧ State.reset.turnTime.time = 0 ∧ State.reset.turnTime.cc = 1
    ∧ (let s := State.reset.modHub fun h => { h with up := true, trained := put false [] 1 true }
       (after (exec (.timeCorrection 56 true) s)).hub.joined = true ∧ (after (exec (.timeCorrection 56 true) s)).adjust = none) := by decide +kernel
/-! ### Observation -/

/-- A live core 0 with its debug registers changed. -/
def debugged (f : Debug → Debug) : State := State.reset.modCore 0 fun k => { k with hasLive := true, dbg := f k.dbg }
theorem witness_ObservationEvents_debug : ((debugged fun d => { d with stopped := true }).core 0).dbg.stopped = true
    ∧ ((debugged fun d => { d with stopped := true }).core 0).dbg.aside = [] ∧ ((debugged fun d => d).core 0).dbg.stopped = false
    ∧ ((debugged fun d => { d with step := some (false, .ld, 0, 65536) }).modSeq 0 .ld fun q => { q with icnt := 1 }).stepDone 0 = true
    ∧ ((debugged fun d => { d with step := some (false, .ld, 0, 65536) }).core 0).dbg.step = some (false, .ld, 0, 65536) := by decide +kernel
/-- A stopped core 0 that dumps to 0x100000, or to an area that is not mapped. -/
def dumping (area : BitVec 40) : State :=
  (keeping State.reset).modCore 0 fun k => { k with dbg := { k.dbg with stopped := true, busy := 1, area := area } }
theorem witness_ObservationEvents_dumpAll : ∃ s1, (dumping 16).dumpAll ((dumping 16).dumpJob 0 [areaHold]) ((dumping 16).savesOf 0) = some s1 := by
  obtain ⟨⟨u, f⟩, e⟩ := segs_held (dumping 16) ((dumping 16).dumpJob 0 [areaHold]) rfl (by decide +kernel) (by decide +kernel) (by decide +kernel)
    (by intro sm; cases sm <;> decide +kernel) 40
  have seg : ((dumping 16).dumpJob 0 [areaHold]).segments = 40 := by decide +kernel
  have w : u.writeSegs ((dumping 16).dumpJob 0 [areaHold]).wholeRows 40 = some (u, 0) := by
    refine segs_unwritten _ _ _ fun i hi => ?_
    have hi : i < 40 := Nat.lt_of_lt_of_le hi (Nat.min_le_left ..)
    have hc : get false ((List.range 40).map fun i => (i, true)) i = true :=
      (by decide +kernel : ∀ i < 40, get false ((List.range 40).map fun i => (i, true)) i = true) i hi
    have h2 : i < 128 := by omega
    simp only [State.jobWrites, State.differs, SaveJob.wholeRows, hi, hc, h2, if_true, List.find?, decide_true, bne_self_eq_false, Bool.not_true, Bool.or_false,
      Bool.not_eq_false']
    rw [BitVec.getLsbD_ofNat, Nat.testBit_two_pow_sub_one]
    simp only [hi, decide_true, Bool.and_true, decide_eq_true_eq]
    omega
  obtain ⟨v, ev⟩ := header_held u (((dumping 16).dumpJob 0 [areaHold]).header (f ||| 0) (f ||| 0) true ((dumping 16).savesOf 0))
  exact ⟨v, dump_steps e (by rw [seg]; exact w) ev⟩
theorem witness_ObservationEvents_dump : ((dumping 16).core 0).dbg.busy = 1 ∧ ((dumping 16).core 0).dbg.stopped = true
    ∧ ((dumping 16).holdDebug 0).2 = ([areaHold], .whole) ∧ (dumping 16).areaServed 0 [areaHold] = true ∧ ((dumping 0x2000).holdDebug 0).2.2 = .fault := by decide +kernel
/-- The state in which DBGAREA's pages are held is that of the core but for what the walk notes. -/
theorem witness_ObservationEvents_dumpHeld : ((dumping 16).holdDebug 0).1 = dumping 16 := by decide +kernel
/-- A stopped core 0 that loads the shaving at an address. -/
def reloading (area : BitVec 40) : State :=
  (shaved (keeping State.reset)).modCore 0 fun k => { k with dbg := { k.dbg with stopped := true, busy := 2, area := area } }
theorem witness_ObservationEvents_load : (((reloading 16).core 0).dbg.busy = 2 ∧ ((reloading 16).core 0).dbg.stopped = true
      ∧ ((reloading 16).core 0).dbg.areaVa = 0x100000 ∧ ((reloading 16).holdDebug 0).1 = reloading 16
      ∧ ((reloading 16).holdDebug 0).2 = ([areaHold], .whole) ∧ (reloading 16).areaServed 0 [areaHold] = true ∧ ((reloading 0x2000).holdDebug 0).2.2 = .fault)
    ∧ (reloading 16).areaBytes [areaHold] 0x100000 64 = emptyHeader 0x94E485D0
    ∧ (reloading 16).restoreFault [areaHold] 0x100000 0 (emptyHeader 0x94E485D0) = none
    ∧ (let h := ShavingHeader.read (emptyHeader 0x94E485D0)
       h.layout = Machine.layoutOf 0 ∧ h.fits ((reloading 16).core 0).liveSl = true ∧ ((reloading 16).loadCode 0 h.imm).isSome = true) :=
  ⟨by decide +kernel, by decide +kernel, restores_of (by decide +kernel) (by decide +kernel) (by decide +kernel), by decide +kernel⟩
/-- The same where no shaving stands. -/
theorem witness_ObservationEvents_loadFails : let s := (keeping State.reset).modCore 0 fun k => { k with dbg := { k.dbg with stopped := true, busy := 2, area := 16 } }
    (s.core 0).dbg.busy = 2 ∧ (s.core 0).dbg.stopped = true ∧ (s.holdDebug 0).1 = s ∧ (s.holdDebug 0).2 = ([areaHold], .whole) ∧ s.areaServed 0 [areaHold] = true
    ∧ (s.restoreFault [areaHold] 0x100000 0 (s.areaBytes [areaHold] 0x100000 64)).isSome = true := by decide +kernel
/-- Core 0 at a sample point of CTL; in a replay whose next entry has a kind, an index and the value 3; with its capture due, with and without a debugger. -/
def sampling (v : BitVec 17) : State := State.reset.modCore 0 fun k => { k with watch := { k.watch with trcsrc := v } }
def replaying (kind ix : Nat) : State :=
  let s := (mapped State.reset).modCore 0 fun k => { k with hasLive := true, watch := { k.watch with rplLive := 2, rplBase := 0x1000 } }
  { s with mem := writeBytes s.mem 0x40010 (leBytes 8 (kind + 256 * ix) ++ leBytes 8 3) }
def captured (att : Bool) : State := (debugged fun d => { d with att := att }).modCore 0 fun k => { k with captArm := true, captCount := some 0, captStop := 7 }
theorem witness_ObservationEvents_samples : ((sampling 0).core 0).watch.sampleDue = false ∧ ((sampling 0x1001).core 0).watch.sampleDue = true
    ∧ (∀ sm ∈ [Stream.ctl, .ld, .mx, .st], ((sampling 0x1001).core 0).watch.trcsrc.getLsbD (12 + streamCode sm) = (sm == Stream.ctl))
    ∧ ((sampling 0x1001).core 0).watch.trcsrc.getLsbD 16 = false
    ∧ (∀ p ∈ [(1, 9), (2, 1), (4, 0), (7, 0)], (replaying p.1 p.2).injectDue 0 = some { cut := [0, 0, 0, 0], kind := p.1, ix := p.2, value := 3 })
    ∧ (let s := (replaying 3 encoderPlace).modWatch 0 fun w => { w with rplDone := 1 }
       s.injectDue 0 = some { cut := [0, 0, 0, 0], kind := 3, ix := encoderPlace, value := 3 })
    ∧ (let s := (replaying 3 0).modEng 0 fun g => { g with cmds := [{ newCommand (.copyG2s 1 2 3 4 0) [] 0 0 [] none with started := true, hit := true }] }
       s.injectDue 0 = some { cut := [0, 0, 0, 0], kind := 3, ix := 0, value := 3 })
    ∧ (∀ b ∈ [false, true], ((captured b).core 0).hasLive = true ∧ ((captured b).core 0).captArm = true ∧ ((captured b).core 0).captCount = some 0
      ∧ ((captured b).core 0).dbg.att = b ∧ ((captured b).core 0).dbg.stopped = false
      ∧ (((captured b).modDbg 0 fun d => { d with stopped := true }).core 0).dbg.stopped = true)
    ∧ (((replaying 1 9).injected 0 { cut := [0, 0, 0, 0], kind := 1, ix := 9, value := 3 }).modWatch 0 fun w => { w with rplCount := w.rplCount + 1 }).injectDue 0 = none := by decide +kernel
/-- R375: a request, and ERR; R380: WHY 3 and 4; R379: a failed DUMP has ERR; R389: flag 9 is 3; R361: WHY 6. -/
theorem test_observation : ((after (exec (.stop 0 0) (debugged fun d => d))).core 0).dbg.request = some 1
    ∧ ((after (exec (.run 0 0) (debugged fun d => d))).core 0).dbg.err = true
    ∧ ((after (exec (.stepTimeout 0) (debugged fun d => { d with step := some (false, .ld, 0, 65536) }))).core 0).dbg.why = 4
    ∧ ((after (exec (.dumpDone 0) (dumping 0x2000))).core 0).dbg.err = true
    ∧ ((after (exec (.trcsrcWrite 0 0xFFFFFF) State.reset)).core 0).watch.trcsrc = 0x1FF1F
    ∧ ((after (exec (.replayInject 0) (replaying 1 9))).ctx 0).links.flag 9 = 3
    ∧ ((after (exec (.captureStop 0) (captured true))).core 0).dbg.why = 6 := by decide +kernel
/-! ### The step, memory, encodings -/

/-- The halfword form of `s3 := s3 + s4` at the PC of CTL of core 0. -/
def fetched : State := State.reset.withFetchWord 16 0x20C6
/-- `wload` at the PC of MX. -/
def fetchedMx : State := State.reset.withFetchWord 32 0x00018039
/-- What `StepRunsTheDecodedUnit` asks of a state and a framed unit, every condition of it. -/
def picks (s : State) (c : Nat) (sm : Stream) (f : Framed) : Bool :=
  let q := (s.ctx c).seq sm
  let u := q.issueUnit c sm f
  s.agenda == [] && s.turn == .issue c sm && (sm != .ctl || (s.faultFirst c).isNone) && !(s.core c).cycle.seen && (sm != .st || !s.ringTraps c) && (s.core c).hasLive && !(s.core c).dbg.stopped && (s.core c).dbg.stepLets sm q.icnt && !s.frozen c sm
    && !s.logFull c && (sm != .ctl || (s.core c).leaving == none) && (sm == .ctl || (!(s.ctx c).yielding && !(s.core c).yielded))
    && (sm != .ctl || ((s.ctx c).eng.imld.isNone && (s.ctx c).cr.acquireUntil == 0 && !(isH f.instr && decide ((s.core c).demand = some 0))
      && ((s.ctx c).cr.atomic.isNone || decide (q.pc.toNat < q.bodyEnd))))
    && !(s.ctx c).pushBlocked sm && decide (q.cut = .none) && !(s.ctx c).cutFirst sm && !s.replayHolds c sm && q.inBody && decide (q.wait = .none)
    && q.hasFetched f.len && ((s.ctx c).cutWord sm).isNone && decide (({ s.goesAhead c sm with unit := u }).diverges c sm q f.instr = none) && decide ((s.ctx c).stallEvent u f.instr = none)
theorem witness_StepRunsTheDecodedUnit_ctl : ∃ f, ((fetched.ctx 0).seq .ctl).frame .ctl = .ok f ∧ (f.instr = .addC16 3 4 ∧ picks fetched 0 .ctl f = true) :=
  settled _ (by decide +kernel)
theorem witness_StepRunsTheDecodedUnit_mx : ∃ f, ((fetchedMx.ctx 0).seq .mx).frame .mx = .ok f ∧ (f.instr = .wload 3 ∧ picks fetchedMx 0 .mx f = true) :=
  settled _ (by decide +kernel)
theorem witness_StepRunsTheDecodedUnit_frame : let q := (fetchedMx.ctx 0).seq .mx
    (match decodeHalves (q.half q.pc.toNat) (some (q.half (q.pc.toNat + 1))) with | .ok p => decide (p = (.wload 3, 2)) | .error _ => false) = true
    ∧ q.pc.toNat + 2 ≤ q.bodyEnd ∧ q.pc.toNat + 2 ≤ q.bound .mx := by decide +kernel
/-- `dq.steal s3, s4, p2` at the PC of CTL, whose turn after every sequencer's has come (R154). -/
def stealing : State :=
  { (State.reset.withFetchWord 32 (((encodeHalves (.dqSteal 3 4 2)).getD []).reverse.foldl (fun n h => n * 65536 + h.toNat) 0)) with
    turn := .late, late := [0] }
theorem witness_StepRunsTheDecodedUnit_late : stealing.agenda = [] ∧ stealing.turn = .late ∧ stealing.late = [0] ∧ (stealing.core 0).cycle.seen = false
    ∧ (match stealing.pick 0 .ctl with | .run i _ => decide (i = .dqSteal 3 4 2 ∧ isSteal i = true) | .idle _ => false) = true := by decide +kernel
/-- `mzero t0` at the PC of MX, with t0 unconfigured, on a cycle on which another stream has trapped. -/
def secondTrap : State := (State.reset.withFetchWord 32 0x4000003B).modCore 0 fun k => { k with cycle := .trapped }
theorem witness_StepRunsTheDecodedUnit_trap : secondTrap.agenda = [] ∧ secondTrap.turn = .issue 0 .mx ∧ (secondTrap.core 0).hasLive = true
    ∧ (secondTrap.core 0).cycle.seen = true ∧ secondTrap.unit.stay = false
    ∧ (match ((secondTrap.goesAhead 0 .mx).reopened 0).pick 0 .mx with
      | .run i t => (match exec i t with | .next u => decide (i = .mzero 0 ∧ (u.core 0).cycle = .trapped) | _ => false)
      | .idle _ => false) = true := by decide +kernel
/-- The same at the first turn of a cycle that nothing has trapped on, with TVEC.EN 0: its cycle is going to end in a fault of the task. -/
def willFault : State := { (State.reset.withFetchWord 32 0x4000003B).modCore 0 Core.keepStart with turn := .issue 0 .ctl }
theorem witness_StepRunsTheDecodedUnit_fault : willFault.agenda = [] ∧ willFault.turn = .issue 0 .ctl ∧ (willFault.core 0).start ≠ none
    ∧ (willFault.ctx 0).cr.faults = true
    ∧ ∃ e, willFault.foresee State.afterRun 0 turnFuel = some e ∧ (e.1 = .mx ∧ e.2.2.1 = .tileUnconf) :=
  ⟨by decide +kernel, by decide +kernel, by decide +kernel, by decide +kernel, found _ (by decide +kernel)⟩
/-- R362: the context leaves before anything of the cycle has issued. -/
theorem test_fault_first : ((after (step willFault)).core 0).hasLive = false := by decide +kernel
/-- The second trap of a cycle leaves the stream at its instruction and the context live (R346). -/
theorem test_second_trap : ((after (step secondTrap)).core 0).hasLive = true ∧ ((after (step secondTrap)).ctx 0).mx.pc = 2
    ∧ ((after (step secondTrap)).ctx 0).cr.ecause = 0 ∧ (after (step secondTrap)).turn = .issue 0 .st := by decide +kernel
/-- The handler's cycles are frozen ones, and the cycle on which it is entered is not (R116). -/
theorem test_frozen : (((trapping (ready .nop)).takeTrap 0 .ctl .align 0x44 false).core 0).cycle = .trapped
    ∧ ((trapping (ready .nop)).takeTrap 0 .ctl .align 0x44 false).frozen 0 .mx = false
    ∧ (((trapping (ready .nop)).takeTrap 0 .ctl .align 0x44 false).beginCore 0).frozen 0 .mx = true := by decide +kernel
theorem witness_StepRunsTheDecodedUnit_event : ({ State.reset with agenda := [.heartbeat 3] } : State).agenda = .heartbeat 3 :: []
    ∧ isEvent (.heartbeat 3) = true := by decide +kernel
/-- The step of a fetched addition writes s3 and moves the PC on by a halfword; an event leaves the agenda. -/
theorem test_step : ((after (step (fetched.modSeq 0 .ctl fun q => { q with regs := [(3, 5), (4, 6)] }))).ctx 0).ctl.reg 3 = 11 ∧ ((after (step fetched)).ctx 0).ctl.pc = (fetched.ctx 0).ctl.pc + 1
    ∧ (after (step { State.reset with agenda := [.heartbeat 3], time := 77 })).pod.heard = [(3, 77)] := by decide +kernel
theorem witness_MemoryFormKept : (fetched.memoryInForm ∧ (mapped State.reset).memoryInForm) ∧ (∃ t, step fetched = .next t)
    ∧ (∃ t, step { mapped State.reset with agenda := [.heartbeat 3] } = .next t) := by
  refine ⟨by decide +kernel, ?_, ⟨_, rfl⟩⟩
  have h : (match step fetched with | .next _ => true | _ => false) = true := by decide +kernel
  match step fetched, h with
  | .next t, _ => exact ⟨t, rfl⟩
theorem witness_EncodeDecodeAgree : encode (.addC16 3 4) = some [0xC6, 0x20]
    ∧ (match decode ([0x39, 0x80, 0x01, 0x00] ++ [5]) with | .ok p => decide (p = (.wload 3, [5])) | .error _ => false) = true := by decide +kernel

end Sys2Proof.Tests
end

section
/-! PROOF. Laws of translation and of acquires: that an address resolves alike before and after a unit has begun, and what a look at a
place, an acquire and a STAMP record leave. -/
namespace Sys2Proof.Machine

/-! ### Translation looks at no context but for its privilege -/

/-- A state with other cores: the beginning of a unit changes no other field (`State.begun_eq`). -/
def State.withCores (s : State) (cs : Table Core) : State := { s with cores := cs }

/-- What a walk ends in, on a state with other cores. -/
def Walk.withCores (cs : Table Core) : Walk → Walk
  | .ok s pa va size => .ok (s.withCores cs) pa va size
  | .fault s c info => .fault (s.withCores cs) c info
  | .stall => .stall

/-- What a binding ends in, on a state with other cores. -/
def Bound.withCores (cs : Table Core) : Bound → Bound
  | .leaf s ent => .leaf (s.withCores cs) ent
  | .fails s c info => .fails (s.withCores cs) c info
  | .wait => .wait

/-- A resolved access, on a state with other cores. -/
def Resolved.withCores (cs : Table Core) : Resolved → Resolved
  | .at s l => .at (s.withCores cs) l
  | .fault s c info => .fault (s.withCores cs) c info
  | .stall => .stall

theorem State.codeLine_withCores (s : State) (cs : Table Core) (l : Nat) (w : Bool) :
    (s.withCores cs).codeLine l w = (s.codeLine l w).withCores cs := by
  simp only [State.codeLine, apply_ite (State.withCores · cs)]
  rfl

theorem State.applyAt_withCores (s : State) (cs : Table Core) (pa : Nat) (bs : List Byte) :
    (s.withCores cs).applyAt pa bs = (s.applyAt pa bs).withCores cs := by
  have lines (g : Nat → Bool) (ls : List Nat) (u : State) : ls.foldl (fun s l => s.codeLine l (g l)) (u.withCores cs) =
      (ls.foldl (fun s l => s.codeLine l (g l)) u).withCores cs := by
    induction ls generalizing u with
    | nil => rfl
    | cons l ls ih => rw [List.foldl_cons, State.codeLine_withCores, ih, List.foldl_cons]
  simp only [State.applyAt, lines]
  rfl

theorem State.countWalk_withCores (s : State) (cs : Table Core) (d home : Nat) :
    (s.withCores cs).countWalk d home = (s.countWalk d home).withCores cs := by
  simp only [State.countWalk, apply_ite (State.withCores · cs)]
  rfl

theorem State.findLeaf_withCores (s : State) (cs : Table Core) (o va lvl t : Nat) :
    (s.withCores cs).findLeaf o va lvl t = s.findLeaf o va lvl t := by
  have hr : (s.withCores cs).regionOk = s.regionOk := rfl
  have hb : (s.withCores cs).badAt = s.badAt := rfl
  have hm : (s.withCores cs).memWord = s.memWord := rfl
  induction lvl generalizing t with
  | zero =>
    unfold State.findLeaf
    simp only [hr, hb, hm]
  | succ n ih =>
    unfold State.findLeaf
    simp only [hr, hb, hm, ih]

theorem State.bind_withCores (s : State) (cs : Table Core) (o d va lvl a ent : Nat) :
    (s.withCores cs).bind o d va lvl a ent = (s.bind o d va lvl a ent).withCores cs := by
  simp only [State.bind, State.applyAt_withCores, State.countWalk_withCores, apply_ite (Bound.withCores cs)]
  rfl

theorem State.useLeaf_withCores (s : State) (cs : Table Core) (o va lvl ent : Nat) (rd wr user : Bool) :
    (s.withCores cs).useLeaf o va lvl ent rd wr user = (s.useLeaf o va lvl ent rd wr user).withCores cs := by
  simp only [State.useLeaf, apply_ite (Walk.withCores cs)]
  rfl

theorem State.walk_withCores (s : State) (cs : Table Core) (o va : Nat) (d : Option Nat) (rd wr user : Bool) :
    (s.withCores cs).walk o d va rd wr user = (s.walk o d va rd wr user).withCores cs := by
  have hk : (s.withCores cs).keptAt o va = s.keptAt o va := rfl
  have hp : (s.withCores cs).part o = s.part o := rfl
  have ht : (s.withCores cs).keepTlb = s.keepTlb := rfl
  simp only [State.walk, hk, hp, ht, State.findLeaf_withCores, State.bind_withCores, State.useLeaf_withCores]
  split
  · rfl
  · split
    · rfl
    · split
      · rfl
      · split
        · split
          · rfl
          · split
            · rfl
            · cases s.bind o _ va _ _ _ <;> simp only [Bound.withCores, State.useLeaf_withCores] <;> rfl
        · rw [← State.useLeaf_withCores, apply_ite (State.withCores · cs)]
          rfl

theorem State.walkPeer_withCores (s : State) (cs : Table Core) (o off : Nat) (rd wr : Bool) :
    (s.withCores cs).walkPeer o off rd wr = (s.walkPeer o off rd wr).withCores cs := by
  have hi : (s.withCores cs).importAt o off = s.importAt o off := rfl
  simp only [State.walkPeer, hi, State.walk_withCores]
  split
  · rfl
  · split
    · rfl
    · cases s.walk _ none _ rd wr false with
      | fault t c i => cases c <;> rfl
      | _ => rfl

/-- An address resolves to the same place whatever the cores hold but for the core's slice and privilege. -/
theorem State.resolve_withCores {s : State} {cs : Table Core} {c : Nat} (hu : (s.withCores cs).isUser c = s.isUser c)
    (hl : ((s.withCores cs).core c).liveSl = (s.core c).liveSl) (a : Word) (n : Nat) (rd wr : Bool) :
    (s.withCores cs).resolve c a n rd wr = (s.resolve c a n rd wr).withCores cs := by
  have hp : (s.withCores cs).partOf c = s.partOf c := rfl
  have hc : (s.withCores cs).clusterCap = s.clusterCap := rfl
  simp only [State.resolve, State.resolveAs, hu, hl, hp, hc, State.walk_withCores, State.walkPeer_withCores]
  cases placeOf a with
  | bad => rfl
  | cluster off => simp only [apply_ite (Resolved.withCores cs)]; rfl
  | pool off => simp only [apply_ite (Resolved.withCores cs)]; rfl
  | peer off => dsimp only; cases s.walkPeer (s.partOf c) off rd wr <;> rfl
  | global va => dsimp only; cases s.walk (s.partOf c) (some (Config.dieOf c)) va rd wr (s.isUser c) <;> rfl

/-! ### A place looked at from what a unit found, and from what its beginning has left -/

/-- What an access meets at a place depends on the core that makes it, its live context apart. -/
theorem State.looks_withCores {s : State} {cs : Table Core} {c : Nat} {x : Ctx}
    (h : (s.withCores cs).core c = { s.core c with live := x }) (l : Loc) (n : Nat) :
    (s.withCores cs).waitsAt c l = s.waitsAt c l ∧ (s.withCores cs).uncorrAt c l n = s.uncorrAt c l n := by
  cases l with
  | scr o => exact ⟨rfl, by simp only [State.uncorrAt, h]; rfl⟩
  | clus k => exact ⟨rfl, rfl⟩
  | phys pa => exact ⟨by simp only [State.waitsAt, State.served, State.kv, h]; rfl, rfl⟩

/-- A unit that finds an address resolved when it has begun finds it resolved before: its beginning changes tokens and SEGCRC alone. -/
theorem State.resolve_of_begun {s s1 : State} {i : Instr} {a : Word} {n : Nat} {rd wr : Bool} {l : Loc}
    (h : (s.begun i).resolve s.unit.core a n rd wr = .at s1 l) : s.resolve s.unit.core a n rd wr = .at (s1.withCores s.cores) l := by
  have hs : (s.begun i).withCores s.cores = s := by rw [s.begun_eq i]; rfl
  have hu : ((s.begun i).withCores s.cores).isUser s.unit.core = (s.begun i).isUser s.unit.core := by
    have hc := s.begun_cr i
    simp only [State.my, State.begun_unit] at hc
    simp only [hs, State.isUser, hc]
  have hl : (((s.begun i).withCores s.cores).core s.unit.core).liveSl = ((s.begun i).core s.unit.core).liveSl := by
    rw [hs, s.begun_core i]; rfl
  have k := State.resolve_withCores hu hl a n rd wr
  rw [hs, h] at k
  exact k

/-! ### What a look at a place, an acquire and a STAMP record leave -/

theorem State.modCore_ctx {f : Core → Core} (s : State) (c d : Nat) (h : (f (s.core c)).live = (s.core c).live) :
    (s.modCore c f).ctx d = s.ctx d := by
  by_cases e : d = c
  · subst e; simp [State.ctx, h]
  · simp [State.ctx, State.modCore_core_other _ _ e]

@[simp] theorem State.note_ctx (s : State) (c h d : Nat) : (s.note c h).ctx d = s.ctx d := s.modCore_ctx c d (by rfl)

@[simp] theorem State.noteKv_ctx (s : State) (c : Nat) (kv : Table Nat) (d : Nat) : (s.noteKv c kv).ctx d = s.ctx d :=
  s.modCore_ctx c d (by rfl)

@[simp] theorem State.merge_ctx (s : State) (c d : Nat) : (s.merge c).ctx d = s.ctx d := s.modCore_ctx c d (by rfl)

/-- A STAMP record joins those of its core's cycle (R371). -/
theorem State.traceStamp_keeps (s : State) (c e v : Nat) :
    (s.traceStamp c e v).unit = s.unit ∧ (s.traceStamp c e v).mem = s.mem ∧ ∀ d, (s.traceStamp c e v).ctx d = s.ctx d := by
  simp only [State.traceStamp]
  split
  · exact ⟨rfl, rfl, fun _ => rfl⟩
  · exact ⟨rfl, rfl, fun d => s.modCore_ctx c d (by rfl)⟩

/-- The STAMP records of a merge leave every live context, the unit and memory (R371). -/
theorem State.traceMerge_keeps (s t : State) (c : Nat) :
    (s.traceMerge t c).unit = t.unit ∧ (s.traceMerge t c).mem = t.mem ∧ ∀ d, (s.traceMerge t c).ctx d = t.ctx d := by
  unfold State.traceMerge
  refine List.foldlRecOn (motive := fun a : State => a.unit = t.unit ∧ a.mem = t.mem ∧ ∀ d, a.ctx d = t.ctx d) _ _
    ⟨rfl, rfl, fun _ => rfl⟩ fun a ⟨hu, hm, hc⟩ j _ => ?_
  obtain ⟨ku, km, kc⟩ := a.traceStamp_keeps c j (t.kv c j)
  split
  · exact ⟨ku.trans hu, km.trans hm, fun d => (kc d).trans (hc d)⟩
  · exact ⟨hu, hm, hc⟩

/-- An acquire leaves the unit and the atomic block that CTL runs (R263). -/
theorem State.acquire_keeps (s : State) (c time : Nat) (kv : Table Nat) :
    (s.acquire c time kv).unit = s.unit ∧ ((s.acquire c time kv).ctx c).cr.atomic = (s.ctx c).cr.atomic := by
  obtain ⟨ku, -, kc⟩ := s.traceMerge_keeps (((s.note c (Config.dieOf c)).noteKv c kv).merge c) c
  simp only [State.merge_ctx, State.noteKv_ctx, State.note_ctx] at kc
  simp only [State.acquire]
  generalize s.traceMerge _ c = v at ku kc ⊢
  exact ⟨ku, by simp only [State.modCr, State.modCtx_ctx, kc]⟩

theorem State.acquireFlag_keeps (s : State) (c f : Nat) :
    (s.acquireFlag c f).unit = s.unit ∧ ((s.acquireFlag c f).ctx c).cr.atomic = (s.ctx c).cr.atomic := by
  rw [State.acquireFlag]
  exact s.acquire_keeps c _ _

theorem CtlRegs.hold_atomic (r : CtlRegs) (e : HeldError) : (r.hold e).atomic = r.atomic := by
  unfold CtlRegs.hold; split <;> rfl

/-- A look at SCR leaves the unit, and of CTL the atomic block that it runs: a touched kerf is an error held (R148). -/
theorem State.kerfCheck_keeps (s : State) (c o n : Nat) (ag : Agent) :
    (s.kerfCheck c o n ag).unit = s.unit ∧ ((s.kerfCheck c o n ag).ctx c).cr.atomic = (s.ctx c).cr.atomic := by
  unfold State.kerfCheck
  split
  · refine ⟨rfl, ?_⟩
    simp only [State.kerfTouch, State.modCr, State.modCtx_ctx]
    split
    · rfl
    · exact CtlRegs.hold_atomic _ _
  · exact ⟨rfl, rfl⟩

/-- The surroundings of an access leave the unit and the atomic block that CTL runs (R148, R258). -/
theorem State.touched_keeps (s : State) (c : Nat) (l : Loc) (n : Nat) :
    (s.touched c l n).unit = s.unit ∧ ((s.touched c l n).ctx c).cr.atomic = (s.ctx c).cr.atomic := by
  cases l with
  | scr o => exact s.kerfCheck_keeps c o n .ctl
  | clus k => exact ⟨rfl, rfl⟩
  | phys pa => exact ⟨rfl, by simp only [State.touched, State.note_ctx]⟩

/-- What a core that does not record meets joins no log (R387). -/
theorem State.logEvent_idle {s : State} {c : Nat} (h : (s.core c).watch.rplLive = 0) (kind ix value : Nat) :
    s.logEvent c kind ix value = s := by
  simp [State.logEvent, h]

/-- Room for one more effect of a unit depends on the atomic block alone (R63). -/
theorem State.roomy_of_atomic {s t : State} (hu : t.unit = s.unit) (ha : t.my.cr.atomic = s.my.cr.atomic) (h : s.roomy) : t.roomy := by
  simpa only [State.roomy, CtlRegs.overfull, hu, ha] using h

theorem State.roomy_of_plain {s : State} (h : s.plain) : s.roomy := by
  simp only [State.roomy, CtlRegs.overfull, show s.my.cr.atomic = none from h]

/-- The flags stand when a unit begins: it pops tokens alone. -/
theorem State.begun_flag (s : State) (i : Instr) (f : Nat) : (s.begun i).my.links.flag f = s.my.links.flag f := by
  obtain ⟨c, o, h⟩ := s.begun_my i
  rw [h, Links.popTokens_eq]
  rfl

end Sys2Proof.Machine
end

section
/-! PROOF. The waits on flags and barriers (R39, R57, R107, R111, R263): their first look, and their ends. -/
namespace Sys2Proof.Machine

/-! ### The flag wait (R107) -/

/-- How an `fwait` that runs ends: met, expired, or waiting. -/
theorem exec_fwait_runs {s : State} {d a b : BitVec 5} (h : s.runs (.fwait d a b)) :
    let u := s.begun (.fwait d a b)
    exec (.fwait d a b) s = .next (settle (.fwait d a b) s
      (if reached (s.my.links.flag d.toNat) ((s.r a).extractLsb' 0 8) then .done ((u.acquireFlag u.unit.core d.toNat).setP 22 false) 0
       else if timeout (s.r b) = 0 then .done (u.setP 22 true) 0
       else .park u .fwait (timeout (s.r b)) [32 + d.toNat])) := by
  have hu := ((s.begun (.fwait d a b)).acquireFlag_keeps (s.begun (.fwait d a b)).unit.core d.toNat).1
  simp only [show exec (.fwait d a b) s = execFwait d a b s from rfl, execFwait, issue_runs h, State.begun_flag, State.begun_r,
    State.setP, hu]
  rfl

theorem reached_eq (f x : Byte) : reached f x = decide ((f - x).toNat ≤ 127) := rfl

theorem timeout_eq (b : Word) : timeout b = b.toNat % 2 ^ 32 := by simp [timeout, bits]

/-! ### The barrier wait (R111) -/

/-- How a `bwait` ends whose word can be looked at on a core that does not replay: met, or not. -/
theorem bwaitBody_looks {s s1 : State} {d a b : BitVec 5} {l : Loc} (ha : (s.r a).toNat % 16 = 0)
    (hr : s.resolve s.unit.core (s.r a) 16 true false = .at s1 l) (hl : (s1.core s.unit.core).watch.rplLive = 0)
    (hw : s1.waitsAt s.unit.core l = false) (hu : s1.uncorrAt s.unit.core l 16 = false) :
    let phase := barPhase (s1.barWord s.unit.core l)
    bwaitBody d a b s = if phase ≠ bits (s1.r d).toNat 3 0 then .done ((bwaitEnd d phase l s1).logEvent s.unit.core 6 0 phase) 0
      else bwaitUnmet (timeout (s.r b)) (s1.touched s.unit.core l 16) := by
  simp [bwaitBody, ha, hr, State.replayed, hl, hw, hu]

theorem bwaitUnmet_traps (t : Nat) (s : State) : (bwaitUnmet t s).traps = false := by
  unfold bwaitUnmet; split <;> rfl

/-- A look that does not fault when the unit has begun does not fault in the state that the unit found either. -/
theorem bwaitBody_traps_of_begun {s s1 : State} {i : Instr} {d a b : BitVec 5} {l : Loc} (ha : (s.r a).toNat % 16 = 0)
    (hr : (s.begun i).resolve s.unit.core (s.r a) 16 true false = .at s1 l) (hl : (s1.core s.unit.core).watch.rplLive = 0)
    (hw : s1.waitsAt s.unit.core l = false) (hu : s1.uncorrAt s.unit.core l 16 = false) : (bwaitBody d a b s).traps = false := by
  obtain ⟨hcores, -, -, -⟩ := State.resolve_walkedTo hr
  have hc : (s1.withCores s.cores).core s.unit.core = { s1.core s.unit.core with live := s.my } := by
    have hbegun : s1.core s.unit.core = (s.begun i).core s.unit.core := by simp only [State.core, hcores]
    rw [hbegun, s.begun_core i]; rfl
  obtain ⟨hw', hu'⟩ := State.looks_withCores hc l 16
  rw [bwaitBody_looks ha (State.resolve_of_begun hr) (by rw [hc]; exact hl) (hw'.trans hw) (hu'.trans hu)]
  split
  · rfl
  · exact bwaitUnmet_traps _ _

/-- A `bwait` whose word can be looked at issues as any unit does. -/
theorem exec_bwait_runs {s s1 : State} {d a b : BitVec 5} {l : Loc} (h : s.runs (.bwait d a b)) (ha : (s.r a).toNat % 16 = 0)
    (hr : (s.begun (.bwait d a b)).resolve s.unit.core (s.r a) 16 true false = .at s1 l)
    (hl : (s1.core s.unit.core).watch.rplLive = 0) (hw : s1.waitsAt s.unit.core l = false)
    (hu : s1.uncorrAt s.unit.core l 16 = false) {phase : Nat} (hp : barPhase (s1.barWord s.unit.core l) = phase) :
    exec (.bwait d a b) s = .next (settle (.bwait d a b) s
      (if phase ≠ (s.r d).toNat % 16 then .done ((bwaitEnd d phase l s1).logEvent s.unit.core 6 0 phase) 0
       else bwaitUnmet ((s.r b).toNat % 2 ^ 32) (s1.touched s.unit.core l 16))) := by
  obtain ⟨hcores, hunit, -, -⟩ := State.resolve_walkedTo hr
  have hd : s1.r d = s.r d := by
    rw [← s.begun_r (.bwait d a b)]
    simp only [State.r, State.here, State.seq, State.ctx, State.core, hcores, hunit]
  have hbody := bwaitBody_looks (s := s.begun (.bwait d a b)) (d := d) (b := b) (by simpa using ha) (by simpa using hr)
    (by simpa using hl) (by simpa using hw) (by simpa using hu)
  simp only [State.begun_unit, State.begun_r, hd, timeout_eq, hp] at hbody
  simp only [show exec (.bwait d a b) s = execBwait d a b s from rfl, execBwait, bwaitBody_traps_of_begun ha hr hl hw hu,
    issue_runs h, hbody]
  simp [bits]

theorem bwaitEnd_unit (d : BitVec 5) (phase : Nat) (l : Loc) (s : State) : (bwaitEnd d phase l s).unit = s.unit := by
  simp only [bwaitEnd, State.modSeq, State.modCtx, State.modCore_unit, State.setR_unit,
    (State.acquire_keeps _ _ _ _).1, (State.touched_keeps _ _ _ _).1]

/-- A barrier wait that is met leaves PHASE in D (R111). -/
theorem bwaitEnd_r (d : BitVec 5) (phase : Nat) (l : Loc) (s : State) : (bwaitEnd d phase l s).r d = BitVec.ofNat 64 phase := by
  have hu : ((s.touched s.unit.core l 16).acquire s.unit.core (get 0 s.relTime (flipKey s.unit.core l))
      (get [] s.relKv (locKey s.unit.core l))).unit = s.unit := by
    rw [(State.acquire_keeps _ _ _ _).1, (State.touched_keeps _ _ _ _).1]
  rw [State.r, State.here, bwaitEnd_unit]
  simp only [bwaitEnd, State.setR, State.seq, State.modSeq, State.modCtx_ctx, Ctx.modSeq_seq, Seq.setP22, Seq.setPred_reg,
    hu, Seq.setReg_reg]

/-- Going on keeps every register of the unit's sequencer. -/
theorem State.finish_r (s : State) (lat : Nat) (ring : Option Nat) (d : BitVec 5) : (s.finish lat ring).r d = s.r d := by
  obtain ⟨-, -, hreg, -⟩ := s.finish_keeps lat ring none none
  exact hreg _ (by simp)

/-- A met flag wait has room where its unit had: neither its acquire nor p22 is an effect of an atomic block (R63). -/
theorem State.roomy_fwaitMet {s : State} (h : s.roomy) (i : Instr) (f : Nat) :
    (((s.begun i).acquireFlag (s.begun i).unit.core f).setP 22 false).roomy := by
  obtain ⟨hu, ha⟩ := (s.begun i).acquireFlag_keeps (s.begun i).unit.core f
  exact (roomy_setP 22 false).2 (roomy_of_atomic hu (by rw [State.my, hu]; exact ha) ((roomy_begun i).2 h))

/-- A place that resolves for a unit outside an atomic block has been looked at outside one. -/
theorem State.plain_touched {s s1 : State} {i : Instr} {a : Word} {n : Nat} {rd wr : Bool} {l : Loc} (h : s.plain)
    (hr : (s.begun i).resolve s.unit.core a n rd wr = .at s1 l) : (s1.touched s.unit.core l n).plain := by
  obtain ⟨hcores, hunit, -, -⟩ := resolve_walkedTo hr
  obtain ⟨ku, ka⟩ := s1.touched_keeps s.unit.core l n
  have hc := s.begun_cr i
  simp only [State.my, State.ctx, State.core, begun_unit] at hc
  rw [State.plain, State.my, ku, hunit, begun_unit, ka]
  simp only [State.ctx, State.core, hcores, hc]
  exact h

/-- Settles O26: the first look of each wait, by how its unit ends (`exec_fwait_runs`, `exec_bwait_runs`). -/
theorem waitResults : Obligations.WaitResults := by
  unfold Obligations.WaitResults
  refine ⟨fun s d a b h => ?_, fun s s1 d a b l h hplain ha hr hl hw hu => ?_⟩
  · intro i u hit
    have e := exec_fwait_runs h
    have hunit : u.unit = s.unit := s.begun_unit i
    simp only [timeout_eq, reached_eq] at e
    refine ⟨fun hh hroom => ?_, fun hh ht hroom => ?_, fun hh ht => ?_⟩
    · rw [if_pos hh, settle_done _ _ _ (State.roomy_fwaitMet hroom i _), State.setP, (u.acquireFlag_keeps _ _).1, hunit] at e
      exact e
    · have room : (u.setP 22 true).roomy := (State.roomy_setP 22 true).2 ((State.roomy_begun i).2 hroom)
      rw [if_neg (ne_true_of_eq_false hh), if_pos ht, settle_done _ _ _ room, State.setP, hunit] at e
      exact e
    · rw [if_neg (ne_true_of_eq_false hh), if_neg ht] at e
      exact e
  · intro phase
    have e := exec_bwait_runs h ha hr hl hw hu (phase := phase) rfl
    refine ⟨fun hp hroom hlog => ?_, fun hp ht => ?_, fun hp ht => ?_⟩
    · rw [if_pos hp, State.logEvent_idle hlog, settle_done _ _ _ hroom] at e
      exact ⟨e, (State.finish_r ..).trans (bwaitEnd_r ..)⟩
    · have hunit : (s1.touched s.unit.core l 16).unit = s.unit :=
        (s1.touched_keeps _ _ _).1.trans ((State.resolve_walkedTo hr).2.1.trans (s.begun_unit _))
      have room : ((s1.touched s.unit.core l 16).setP 22 true).roomy :=
        (State.roomy_setP 22 true).2 (State.roomy_of_plain (State.plain_touched hplain hr))
      have k := settle_done (.bwait d a b) s 0 room
      rw [State.setP, hunit] at k
      rw [if_neg (fun hne => hne hp), bwaitUnmet, if_pos ht, hunit] at e
      exact e.trans (congrArg _ k)
    · rw [if_neg (fun hne => hne hp), bwaitUnmet, if_neg ht] at e
      exact e

/-! ### The ends of waits -/

/-- A unit that has issued waits no longer. -/
theorem State.finish_wait (s : State) (lat : Nat) (ring : Option Nat) : (s.finish lat ring).here.wait = .none := by
  have hm : (s.finish lat ring).my = s.my.finish s.unit.sq s.unit.len s.unit.pushM lat ring s.unit.need := by
    simp [State.finish, State.my]
  show ((s.finish lat ring).my.seq s.unit.sq).wait = .none
  rw [hm]
  simp only [Ctx.finish]
  generalize Seq.owe _ _ = q
  cases s.unit.sq <;> simp only [reduceCtorEq, if_false, if_true] <;> split <;> rfl

/-- The end of a wait writes p22 and goes on (R39): no register changes, and nothing outside the context. -/
theorem State.endWait_spec (s : State) (expired : Bool) :
    (s.endWait expired).here.wait = .none ∧ (s.endWait expired).here.pred 22 = expired
      ∧ (∀ n, (s.endWait expired).here.reg n = s.here.reg n) ∧ s.keepsOutside (s.endWait expired) := by
  obtain ⟨hout, -, hreg, -⟩ := s.setP_keeps 22 expired none
  obtain ⟨kout, -, kreg, kpred, -⟩ := (s.setP 22 expired).finish_keeps 0 none none none
  refine ⟨State.finish_wait _ _ _, ?_, fun n => (kreg n (by simp)).trans (hreg n (by simp)), keepsOutside_trans hout kout⟩
  calc (s.endWait expired).here.pred 22 = (s.setP 22 expired).here.pred 22 := kpred 22 (by simp) (by omega)
    _ = expired := by rw [State.setP_here, Seq.setPred_pred _ _ (by omega)]

/-- The state in which an acquire has ended: what was noted has joined KV, with its STAMP records (R258, R263). -/
def State.acquired (s : State) : State :=
  (s.traceMerge ((s.modCr s.unit.core fun r => { r with acquireUntil := 0 }).merge s.unit.core) s.unit.core).staying

/-- The end of an acquire changes of its context the wait alone, and of memory nothing. -/
theorem State.acquired_spec (s : State) :
    s.acquired.my = { s.my with cr := { s.my.cr with acquireUntil := 0 } } ∧ s.acquired.here = s.here ∧ s.acquired.mem = s.mem := by
  obtain ⟨ku, km, kc⟩ :=
    s.traceMerge_keeps ((s.modCr s.unit.core fun r => { r with acquireUntil := 0 }).merge s.unit.core) s.unit.core
  unfold State.acquired
  generalize s.traceMerge _ _ = v at ku km kc ⊢
  have hu : v.unit = s.unit := ku
  have hm : v.staying.my = { s.my with cr := { s.my.cr with acquireUntil := 0 } } := by
    show v.ctx v.unit.core = _
    rw [hu, kc, merge_ctx]
    exact modCtx_ctx _ _ _
  refine ⟨hm, ?_, km⟩
  show v.staying.my.seq v.unit.sq = s.here
  rw [hm, hu]
  exact Ctx.seq_cr _ _ _

/-- Settles O27: each end of a wait is the branch of its event whose condition holds. -/
theorem waitEnds : Obligations.WaitEnds := by
  unfold Obligations.WaitEnds
  refine ⟨fun s d a b hw hs hf => ?_, fun s s1 d a b l phase hw hs hl hp hlog => ?_, fun s hw hf => ?_,
    fun s hz => ⟨?_, ?_⟩, fun s h => ?_⟩
  · simp only [show exec .flagWaitMet s = execFlagWaitMet s from rfl, execFlagWaitMet, hw, hs, hf, if_true]
  · have hb : phase ≠ bits (s.r d).toNat 3 0 := by simpa [bits] using hp
    simp only [show exec .barrierWaitMet s = execBarrierWaitMet s from rfl, execBarrierWaitMet, hw, hs, hl, if_pos hb,
      State.logEvent_idle hlog]
  · exact if_pos ⟨hw, hf⟩
  · intro hw
    have e : exec .waitTimeout s = .next (s.endWait true) := by
      rcases hw with hw | hw <;>
        simp only [show exec .waitTimeout s = execWaitTimeout s from rfl, execWaitTimeout, hz, hw, ne_eq, not_true_eq_false, if_false]
    obtain ⟨hwait, hpred, hreg, hout⟩ := s.endWait_spec true
    exact ⟨_, e, hwait, fun _ => hpred, hreg, hout⟩
  · intro hw
    simp only [show exec .waitTimeout s = execWaitTimeout s from rfl, execWaitTimeout, hz, hw, ne_eq, not_true_eq_false, if_false]
  · obtain ⟨hmy, hhere, hmem⟩ := s.acquired_spec
    exact ⟨s.acquired, if_pos h, rfl, by rw [hmy], fun n => by rw [hhere], fun _ => hmem⟩

end Sys2Proof.Machine
end

section
/-! PROOF. No instruction, event or step stops the machine (R80, R116, R346). -/
namespace Sys2Proof.Machine

/-! ### Answers of the shared forms of a meaning -/

/-- A test between two meanings answers a next state when both do. -/
theorem next_of_ite {p : Prop} [Decidable p] {a b : Out State} (ha : ∃ t, a = .next t) (hb : ∃ t, b = .next t) :
    ∃ t, (if p then a else b) = .next t := by
  split
  · exact ha
  · exact hb

/-- A unit that goes on within its wait answers a next state: still parked, held, or settled. -/
theorem resume_next (i : Instr) (body : State → Res) (s : State) : ∃ t, resume i body s = .next t := by
  fun_cases resume i body s <;> exact ⟨_, rfl⟩

/-- A waiting sender that tries again answers a next state: still parked, still stalled, or settled. -/
theorem retry_next (i : Instr) (body : State → Res) (s : State) : ∃ t, retry i body s = .next t := by
  fun_cases retry i body s <;> exact ⟨_, rfl⟩

/-! ### Ends of stalls: the head's own instruction, tried again -/

/-- The end of a stall on a queue (R19, R73) is the head's own instruction, issued or resumed, or changes nothing. -/
theorem execQueueStallEnd_next (s : State) : ∃ t, execQueueStallEnd s = .next t := by
  unfold execQueueStallEnd
  generalize s.here.stalled = o
  rcases o with _ | i
  · exact ⟨_, rfl⟩
  cases i
  case qpush | qpushC16 | qpop | qpopC16 | cut | vpush | vpop => exact issue_next _ _ _
  case qpushT | qpopT => exact next_of_ite (resume_next _ _ _) ⟨_, rfl⟩
  case gathQ | drainQ => exact next_of_ite (issue_next _ _ _) (resume_next _ _ _)
  all_goals exact ⟨_, rfl⟩

/-- The end of a stall on a ring (R135) issues the head's ring operation, where one is stalled. -/
theorem execRingStallEnd_next (s : State) : ∃ t, execRingStallEnd s = .next t := by
  fun_cases execRingStallEnd s
  case case4 => exact ⟨_, rfl⟩
  all_goals exact issue_next _ _ _

/-- The append of a command that waited for room (R128) issues its copy, where one waits. -/
theorem execCopyAppend_next (s : State) : ∃ t, execCopyAppend s = .next t := by
  fun_cases execCopyAppend s
  case case1 => exact issue_next _ _ _
  all_goals exact ⟨_, rfl⟩

/-! ### Every instruction and event -/

/-- Every instruction and event answers a next state: a unit as its issue, its wait or its retry does, an event on every branch. -/
theorem exec_next (i : Instr) (s : State) : ∃ t, exec i s = .next t := by
  cases i
  case bwait => exact next_of_ite ⟨_, rfl⟩ (issue_next _ _ _)
  case gathQ | drainQ => exact next_of_ite (issue_next _ _ _) (resume_next _ _ _)
  case renq | taskPost => exact next_of_ite (retry_next _ _ _) (issue_next _ _ _)
  case queueStallEnd => exact execQueueStallEnd_next s
  case ringStallEnd => exact execRingStallEnd_next s
  case copyAppend => exact execCopyAppend_next s
  -- One answer.
  case atomicBlockCommit | blockEntry | wall | unassignedEncoding | cutTaken | cutMeeting | rerun | resume | drop | release | evict
      | heartbeat | quadDeactivate | quadActivate | tlbInvalidate | tlbInvalidateAll | stepIssue | stepRetire | dump | load
      | trcsrcWrite | tlClear | replayInject | powerControlWindow | poolpwWrite | tshWrite | agndWrite | capstopWrite | railSample =>
    exact ⟨_, rfl⟩
  -- One test, two answers.
  case headerWaitMet | acquireCompletion | retirement | tokenStallEnd | kbcRelayout | preemptStop | contextSwitch | ageing | poolqWrite
      | packageFailureDetection | buddyRecordApply | checkpointManifest | buddyAcknowledgement | spareAssignment | regionZeroingDone
      | quadClearing | quadClearDone | makerDebugUnlock | partslotWrite | encownWrite | encownEffect | stop | run | stepEnd | traceSample
      | freqatWrite | frequencyChange | wearselWrite | wearUpdate | powerOnReset =>
    exact next_of_ite ⟨_, rfl⟩ ⟨_, rfl⟩
  -- Two tests, three answers.
  case taskCompletion | preload | captureStop | regownWrite => exact next_of_ite ⟨_, rfl⟩ (next_of_ite ⟨_, rfl⟩ ⟨_, rfl⟩)
  -- Events of waits and searches of a sequencer.
  case flagWaitMet => show ∃ t, execFlagWaitMet _ = .next t; fun_cases execFlagWaitMet <;> exact ⟨_, rfl⟩
  case barrierWaitMet => show ∃ t, execBarrierWaitMet _ = .next t; fun_cases execBarrierWaitMet <;> exact ⟨_, rfl⟩
  case waitTimeout => show ∃ t, execWaitTimeout _ = .next t; fun_cases execWaitTimeout <;> exact ⟨_, rfl⟩
  case markFound => show ∃ t, execMarkFound _ = .next t; fun_cases execMarkFound <;> exact ⟨_, rfl⟩
  case queueOpTimeout => show ∃ t, execQueueOpTimeout _ = .next t; fun_cases execQueueOpTimeout <;> exact ⟨_, rfl⟩
  -- Events of copies, code loads, enqueues and the encoder.
  case copyStart => show ∃ t, execCopyStart _ _ = .next t; fun_cases execCopyStart <;> exact ⟨_, rfl⟩
  case copyCompletion => show ∃ t, execCopyCompletion _ _ _ = .next t; fun_cases execCopyCompletion <;> exact ⟨_, rfl⟩
  case copyMxChainedPush => show ∃ t, execCopyMxChainedPush _ _ = .next t; fun_cases execCopyMxChainedPush <;> exact ⟨_, rfl⟩
  case snapshotCompletion => show ∃ t, execSnapshotCompletion _ _ _ = .next t; fun_cases execSnapshotCompletion <;> exact ⟨_, rfl⟩
  case imldComplete => show ∃ t, execImldComplete _ _ = .next t; fun_cases execImldComplete <;> exact ⟨_, rfl⟩
  case remoteEnqueueArrival => show ∃ t, execRemoteEnqueueArrival _ _ = .next t; fun_cases execRemoteEnqueueArrival <;> exact ⟨_, rfl⟩
  case encoderStart => show ∃ t, execEncoderStart _ _ _ = .next t; fun_cases execEncoderStart <;> exact ⟨_, rfl⟩
  case encoderCompletion => show ∃ t, execEncoderCompletion _ _ _ = .next t; fun_cases execEncoderCompletion <;> exact ⟨_, rfl⟩
  -- Events of tasks and their contracts, saves and restores.
  case taskStart => show ∃ t, execTaskStart _ _ = .next t; fun_cases execTaskStart <;> exact ⟨_, rfl⟩
  case dispatchBind => show ∃ t, execDispatchBind _ _ _ _ = .next t; fun_cases execDispatchBind <;> exact ⟨_, rfl⟩
  case contractRelease => show ∃ t, execContractRelease _ _ _ = .next t; fun_cases execContractRelease <;> exact ⟨_, rfl⟩
  case overrun => show ∃ t, execOverrun _ _ = .next t; fun_cases execOverrun <;> exact ⟨_, rfl⟩
  case miss => show ∃ t, execMiss _ _ _ = .next t; fun_cases execMiss <;> exact ⟨_, rfl⟩
  case saveStart => show ∃ t, execSaveStart _ _ _ = .next t; fun_cases execSaveStart <;> exact ⟨_, rfl⟩
  case saveComplete => show ∃ t, execSaveComplete _ _ = .next t; fun_cases execSaveComplete <;> exact ⟨_, rfl⟩
  case restoreComplete => show ∃ t, execRestoreComplete _ _ = .next t; fun_cases execRestoreComplete <;> exact ⟨_, rfl⟩
  -- Events of the package, its partitions, its host and its pod.
  case scrubLine => show ∃ t, execScrubLine _ _ = .next t; fun_cases execScrubLine <;> exact ⟨_, rfl⟩
  case regionZeroing => show ∃ t, execRegionZeroing _ _ = .next t; fun_cases execRegionZeroing <;> exact ⟨_, rfl⟩
  case pmrExtend => show ∃ t, execPmrExtend _ _ _ = .next t; fun_cases execPmrExtend <;> exact ⟨_, rfl⟩
  case attestRequest => show ∃ t, execAttestRequest _ _ _ = .next t; fun_cases execAttestRequest <;> exact ⟨_, rfl⟩
  case attestReport => show ∃ t, execAttestReport _ _ = .next t; fun_cases execAttestReport <;> exact ⟨_, rfl⟩
  case timeCorrection => show ∃ t, execTimeCorrection _ _ _ = .next t; fun_cases execTimeCorrection <;> exact ⟨_, rfl⟩
  case hostPortTraining => show ∃ t, execHostPortTraining _ _ _ _ = .next t; fun_cases execHostPortTraining <;> exact ⟨_, rfl⟩
  case hostWindowAccess => show ∃ t, execHostWindowAccess _ _ _ _ _ = .next t; fun_cases execHostWindowAccess <;> exact ⟨_, rfl⟩
  case remoteWriteApply => show ∃ t, execRemoteWriteApply _ _ = .next t; fun_cases execRemoteWriteApply <;> exact ⟨_, rfl⟩
  case podLinkWrite => show ∃ t, execPodLinkWrite _ _ _ _ = .next t; fun_cases execPodLinkWrite <;> exact ⟨_, rfl⟩
  -- Events of the debugger.
  case stepTimeout => show ∃ t, execStepTimeout _ _ = .next t; fun_cases execStepTimeout <;> exact ⟨_, rfl⟩
  case dumpDone => show ∃ t, execDumpDone _ _ = .next t; fun_cases execDumpDone <;> exact ⟨_, rfl⟩
  case loadDone => show ∃ t, execLoadDone _ _ = .next t; fun_cases execLoadDone <;> exact ⟨_, rfl⟩
  -- Every other constructor is an instruction that issues.
  all_goals
    unfold exec
    exact issue_next _ _ _

/-! ### Turns and steps -/

theorem keepOneTrap_next (s : State) (c : Nat) (sm : Stream) {o : Out State} (h : ∃ t, o = .next t) :
    ∃ t, keepOneTrap s c sm o = .next t := by
  obtain ⟨t, rfl⟩ := h
  exact ⟨s.afterTrap c sm t, rfl⟩

theorem afterTurn_next (c : Nat) (sm : Stream) {o : Out State} (h : ∃ t, o = .next t) : ∃ t, afterTurn c sm o = .next t := by
  obtain ⟨t, rfl⟩ := h
  exact ⟨t.endTurn c sm, rfl⟩

theorem afterSteal_next (rest : List Nat) {o : Out State} (h : ∃ t, o = .next t) : ∃ t, afterSteal rest o = .next t := by
  obtain ⟨t, rfl⟩ := h
  exact ⟨{ t with late := rest }, rfl⟩

/-- A sequencer's turn answers a next state, whether it has a unit to run or not. -/
theorem State.runTurn_next (s : State) (c : Nat) (sm : Stream) : ∃ t, s.runTurn c sm = .next t := by
  unfold State.runTurn
  split
  case h_1 => exact ⟨_, rfl⟩
  case h_2 i u _ => exact afterTurn_next c sm (keepOneTrap_next s c sm (exec_next i u))

/-- The turn of the steals answers a next state, whether one is left and still stands there or not. -/
theorem State.goesOn_late {s : State} (ha : s.agenda = []) (ht : s.turn = .late) : s.goesOn := by
  unfold State.goesOn step
  simp only [ha, ht]
  split
  case h_1 => exact ⟨_, rfl⟩
  case h_2 c rest _ =>
    split
    case h_1 => exact ⟨_, rfl⟩
    case h_2 i u _ => exact afterSteal_next rest (keepOneTrap_next s c .ctl (exec_next i u))

/-- A turn of the cycle answers a next state: the cycle's precise fault where it is to end in one, else what the sequencer runs. -/
theorem State.goesOn_issue {s : State} {c : Nat} {sm : Stream} (ha : s.agenda = []) (ht : s.turn = .issue c sm) : s.goesOn := by
  unfold State.goesOn step
  simp only [ha, ht]
  split
  case h_1 t _ => exact ⟨t, rfl⟩
  case h_2 => exact (s.goesAhead c sm).runTurn_next c sm

/-- Every state goes on: by the first event of its agenda, or by its turn. -/
theorem State.goesOn_all (s : State) : s.goesOn := by
  match ha : s.agenda, ht : s.turn with
  | e :: rest, _ =>
    simp only [State.goesOn, step, ha]
    exact next_of_ite (exec_next e _) ⟨_, rfl⟩
  | [], .begin => exact ⟨s.beginCycle, by simp only [step, ha, ht]⟩
  | [], .tick => exact ⟨s.endCycle, by simp only [step, ha, ht]⟩
  | [], .late => exact State.goesOn_late ha ht
  | [], .issue _ _ => exact State.goesOn_issue ha ht

/-- Settles O55: every branch of `exec` answers a next state, and a step is the beginning or end of a cycle, a precise fault, or what
`exec` answers with the turn moved on. -/
theorem nothingStops : Obligations.NothingStops := by
  unfold Obligations.NothingStops
  exact ⟨exec_next, State.goesOn_all⟩

end Sys2Proof.Machine
end

section
/-! PROOF. How a unit that runs ends when its body is done, traps or stalls, and what a body that changes the unit's own context alone
leaves. -/
namespace Sys2Proof.Machine

/-! ### How the body's end becomes the unit's -/

section Ends
variable {i : Instr} {body : State → Res} {s u : State}

/-- A unit whose body is done goes on from the state that the body leaves (R48). -/
theorem issue_done {lat : Nat} (h : s.runs i) (hb : body (s.begun i) = .done u lat) (hr : u.roomy) :
    issue i body s = .next (u.finish lat none) := by rw [issue_runs h, hb, settle_done _ _ _ hr]

/-- A unit whose body traps has changed nothing before it (R116). -/
theorem issue_trap {e : Cause} {info : Word} (h : s.runs i) (hb : body (s.begun i) = .trap e info) :
    issue i body s = .next (s.takeTrap s.unit.core s.unit.sq e info false) := by rw [issue_runs h, hb]; rfl

/-- A unit whose body stalls stays the head, and has changed nothing else. -/
theorem issue_stall {loss : Loss} {on : List Nat} (h : s.runs i) (hb : body (s.begun i) = .stall loss on) :
    issue i body s = .next (s.holdHead i loss on) := by rw [issue_runs h, hb]; rfl

end Ends

/-! ### What the beginning of a unit leaves -/

@[simp] theorem State.begun_ring (s : State) (i : Instr) (n : Nat) : (s.begun i).my.ring n = s.my.ring n := by simp [Ctx.ring]

@[simp] theorem State.begun_ag (s : State) (i : Instr) (n k : Nat) : (s.begun i).my.ag n k = s.my.ag n k := by simp [Ctx.ag]

@[simp] theorem State.begun_agBase (s : State) (i : Instr) (n : Nat) : (s.begun i).my.agBase n = s.my.agBase n := by simp [Ctx.agBase]

@[simp] theorem State.begun_slotSize (s : State) (i : Instr) (n : Nat) : (s.begun i).my.slotSize n = s.my.slotSize n := by
  simp [Ctx.slotSize, Ctx.agCount]

@[simp] theorem State.begun_liveSl (s : State) (i : Instr) : ((s.begun i).core s.unit.core).liveSl = (s.core s.unit.core).liveSl := by
  rw [s.begun_core i]; rfl

@[simp] theorem State.begun_cmdNext (s : State) (i : Instr) : (s.begun i).cmdNext = s.cmdNext := by rw [s.begun_eq i]

/-! ### What going on leaves of the context -/

theorem State.finish_my (s : State) (lat : Nat) (ring : Option Nat) :
    (s.finish lat ring).my = s.my.finish s.unit.sq s.unit.len s.unit.pushM lat ring s.unit.need := by simp [State.finish, State.my]

@[simp] theorem State.finish_eng (s : State) (lat : Nat) (ring : Option Nat) : (s.finish lat ring).my.eng = s.my.eng := by
  obtain ⟨-, -, -, -, h, -⟩ := s.my.finish_keeps s.unit.sq s.unit.len s.unit.pushM lat ring s.unit.need
  rw [finish_my]; exact h

/-- Of segment 5, a unit that goes on changes the window turn alone (R55). -/
theorem State.finish_loc (s : State) (lat : Nat) (ring : Option Nat) : ∃ turn, (s.finish lat ring).my.loc = { s.my.loc with turn := turn } := by
  obtain ⟨-, -, -, h, -⟩ := s.my.finish_keeps s.unit.sq s.unit.len s.unit.pushM lat ring s.unit.need
  rw [finish_my]; exact ⟨_, h⟩

section Pieces
variable (s : State) (lat : Nat) (ring : Option Nat)

@[simp] theorem State.finish_agTable : (s.finish lat ring).my.loc.ag = s.my.loc.ag := by
  obtain ⟨turn, h⟩ := s.finish_loc lat ring; rw [h]

@[simp] theorem State.finish_rings : (s.finish lat ring).my.loc.rings = s.my.loc.rings := by
  obtain ⟨turn, h⟩ := s.finish_loc lat ring; rw [h]

@[simp] theorem State.finish_satop : (s.finish lat ring).my.loc.satop = s.my.loc.satop := by
  obtain ⟨turn, h⟩ := s.finish_loc lat ring; rw [h]

@[simp] theorem State.finish_allocs : (s.finish lat ring).my.loc.allocs = s.my.loc.allocs := by
  obtain ⟨turn, h⟩ := s.finish_loc lat ring; rw [h]

@[simp] theorem State.finish_kerf : (s.finish lat ring).my.loc.kerf = s.my.loc.kerf := by
  obtain ⟨turn, h⟩ := s.finish_loc lat ring; rw [h]

@[simp] theorem State.finish_ring (n : Nat) : (s.finish lat ring).my.ring n = s.my.ring n := by simp [Ctx.ring]

@[simp] theorem State.finish_onKerf (o : Nat) : (s.finish lat ring).my.onKerf o = s.my.onKerf o := by simp [Ctx.onKerf]

end Pieces

/-! ### A change of the unit's own context -/

@[simp] theorem State.modCtx_my (s : State) (f : Ctx → Ctx) : (s.modCtx s.unit.core f).my = f s.my := s.modCtx_ctx _ _

theorem State.here_eq (s : State) : s.here = s.my.seq s.unit.sq := rfl

/-- A change of the unit's own context changes nothing outside it. -/
theorem State.modCtx_outside (s : State) (f : Ctx → Ctx) : s.keepsOutside (s.modCtx s.unit.core f) :=
  ⟨rfl, fun _ hc => s.modCtx_core_other f hc, by rw [modCtx_my, modCtx_core]; rfl, fun _ => rfl, fun _ => rfl⟩

theorem State.setR_my (s : State) (d : BitVec 5) (v : Word) : (s.setR d v).my = s.my.modSeq s.unit.sq (Seq.setReg · d.toNat v) :=
  s.modCtx_my _

@[simp] theorem State.setR_loc (s : State) (d : BitVec 5) (v : Word) : (s.setR d v).my.loc = s.my.loc := by rw [setR_my, Ctx.modSeq_loc]

@[simp] theorem State.setR_ring (s : State) (d : BitVec 5) (v : Word) (n : Nat) : (s.setR d v).my.ring n = s.my.ring n := by simp [Ctx.ring]

@[simp] theorem State.setR_onKerf (s : State) (d : BitVec 5) (v : Word) (o : Nat) : (s.setR d v).my.onKerf o = s.my.onKerf o := by
  simp [Ctx.onKerf]

/-- A change of a context that leaves its sequencers and its control registers. -/
structure LeavesSeqs (f : Ctx → Ctx) : Prop where
  seq : ∀ x sm, (f x).seq sm = x.seq sm
  cr : ∀ x, (f x).cr = x.cr

section Own
variable {s : State} {i : Instr} {f : Ctx → Ctx}

/-- The state of a unit that has begun and has changed its own context. -/
def State.changed (s : State) (i : Instr) (f : Ctx → Ctx) : State := (s.begun i).modCtx s.unit.core f

@[simp] theorem State.changed_unit : (s.changed i f).unit = s.unit := s.begun_unit i

@[simp] theorem State.changed_my : (s.changed i f).my = f (s.begun i).my := by
  have h := (s.begun i).modCtx_my f
  rwa [begun_unit] at h

theorem State.changed_outside (s : State) (i : Instr) (f : Ctx → Ctx) : s.keepsOutside (s.changed i f) := by
  have h := (s.begun i).modCtx_outside f
  rw [begun_unit] at h
  exact keepsOutside_trans (s.begun_keeps i none none).1 h

variable (hf : LeavesSeqs f)
include hf

theorem State.changed_here : (s.changed i f).here = s.here := by
  rw [here_eq, changed_my, changed_unit, hf.seq, ← s.begun_here i, here_eq, begun_unit]

theorem State.roomy_changed (h : s.roomy) : (s.changed i f).roomy :=
  roomy_of_atomic changed_unit (by rw [changed_my, hf.cr, begun_cr]) h

/-- A unit that changes its own context, its sequencers apart, keeps every register and predicate and everything outside. -/
theorem State.changed_done (lat : Nat) : s.here.keeps ((s.changed i f).finish lat none).here none none
    ∧ s.keepsOutside ((s.changed i f).finish lat none) := by
  obtain ⟨hout, -, hseq⟩ := (s.changed i f).finish_keeps lat none none none
  rw [changed_here hf] at hseq
  exact ⟨hseq, keepsOutside_trans (s.changed_outside i f) hout⟩

/-- The same for one that writes a register besides, which holds what was written. -/
theorem State.changed_setR_done (d : BitVec 5) (v : Word) (lat : Nat) :
    (((s.changed i f).setR d v).finish lat none).r d = v
    ∧ s.here.keeps (((s.changed i f).setR d v).finish lat none).here (some d.toNat) none
    ∧ s.keepsOutside (((s.changed i f).setR d v).finish lat none) := by
  obtain ⟨hout, -, hseq⟩ := (s.changed i f).setR_keeps d v none
  obtain ⟨kout, -, kseq⟩ := ((s.changed i f).setR d v).finish_keeps lat none (some d.toNat) none
  refine ⟨?_, ?_, keepsOutside_trans (s.changed_outside i f) (keepsOutside_trans hout kout)⟩
  · rw [finish_r, State.r, setR_here, Seq.setReg_reg]
  · have h := Seq.keeps_trans hseq kseq (by rw [setR_here]; rfl)
    rwa [changed_here hf] at h

end Own

/-- A unit that writes one register and does nothing else. -/
theorem State.begun_setR_done (s : State) (i : Instr) (d : BitVec 5) (v : Word) (lat : Nat) :
    (((s.begun i).setR d v).finish lat none).r d = v ∧ s.keepsAllBut (((s.begun i).setR d v).finish lat none) (some d.toNat) none := by
  refine ⟨by rw [finish_r, State.r, setR_here, Seq.setReg_reg], ?_⟩
  have hset := keepsAllBut_trans (s.begun_keeps i (some d.toNat) none) ((s.begun i).setR_keeps d v none) (by rw [begun_here])
  exact keepsAllBut_trans hset (((s.begun i).setR d v).finish_keeps lat none _ _) (by rw [setR_here, begun_here]; rfl)

end Sys2Proof.Machine
end


section
/-! PROOF. Rings (R132 to R135): `ring.init`, `ring.push` and `ring.pop`. -/
namespace Sys2Proof.Machine

@[simp] theorem Ctx.modRing_ring (x : Ctx) (n : Nat) (g : RingState → RingState) : (x.modRing n g).ring n = g (x.ring n) := by
  simp [Ctx.modRing, Ctx.ring]

theorem leavesSeqs_modRing (n : Nat) (g : RingState → RingState) : LeavesSeqs (Ctx.modRing · n g) :=
  ⟨fun x sm => Ctx.seq_loc x _ sm, fun _ => rfl⟩

/-! ### ring.init (R133) -/

theorem leavesSeqs_initRing (n size slots : Nat) : LeavesSeqs (Ctx.initRing · n size slots) :=
  ⟨fun x sm => Ctx.seq_loc x _ sm, fun _ => rfl⟩

/-- The sizes of a ring that are legal (R133). -/
def ringSizes (size slots : Nat) : Prop := size % 64 = 0 ∧ 64 ≤ size ∧ size ≤ 65536 ∧ 1 ≤ slots ∧ slots ≤ 64

theorem not_illegal_of_ringSizes {size slots : Nat} (h : ringSizes size slots) :
    ¬ (size % 64 ≠ 0 ∨ size < 64 ∨ 65536 < size ∨ slots < 1 ∨ 64 < slots) := by
  obtain ⟨h1, h2, h3, h4, h5⟩ := h
  omega

section Init
variable {s : State} {n : BitVec 4} {a b : BitVec 5}

theorem ringInit_illegal (h : s.runs (.ringInit n a b)) (hs : (s.r a).toNat % 64 ≠ 0 ∨ (s.r a).toNat < 64 ∨ 65536 < (s.r a).toNat
      ∨ (s.r b).toNat < 1 ∨ 64 < (s.r b).toNat) :
    exec (.ringInit n a b) s = .next (s.takeTrap s.unit.core s.unit.sq .illegal 0 false) :=
  issue_trap (body := ringInitBody n a b) h (by simp only [ringInitBody, State.begun_r]; rw [if_pos hs])

theorem ringInit_outside (h : s.runs (.ringInit n a b)) (hs : ringSizes (s.r a).toNat (s.r b).toNat)
    (hb : (s.core s.unit.core).liveSl.scrBytes < s.my.agBase n.toNat + (s.r a).toNat * (s.r b).toNat) :
    exec (.ringInit n a b) s = .next (s.takeTrap s.unit.core s.unit.sq .poolBound (BitVec.ofNat 64 (s.my.agBase n.toNat)) false) := by
  refine issue_trap (body := ringInitBody n a b) h ?_
  simp only [ringInitBody, State.begun_r, State.begun_unit, State.begun_agBase, State.begun_liveSl]
  rw [if_neg (not_illegal_of_ringSizes hs), if_pos hb]

theorem ringInit_done (h : s.runs (.ringInit n a b)) (hs : ringSizes (s.r a).toNat (s.r b).toNat)
    (hb : s.my.agBase n.toNat + (s.r a).toNat * (s.r b).toNat ≤ (s.core s.unit.core).liveSl.scrBytes)
    (hr : (s.my.ring n.toNat).rsv = 0) (hroom : s.roomy) :
    exec (.ringInit n a b) s =
      .next ((s.changed (.ringInit n a b) (Ctx.initRing · n.toNat (s.r a).toNat (s.r b).toNat)).finish 0 none) := by
  refine issue_done (body := ringInitBody n a b) h ?_ (State.roomy_changed (leavesSeqs_initRing ..) hroom)
  simp only [ringInitBody, State.begun_r, State.begun_unit, State.begun_agBase, State.begun_liveSl, State.begun_ring]
  rw [if_neg (not_illegal_of_ringSizes hs), if_neg (Nat.not_lt.2 hb), if_neg (not_not_intro hr)]
  rfl

end Init

/-! ### ring.pop (R135) -/

/-- `ring.pop` of a ring that holds an entry. -/
theorem ringPop_done {s : State} {d : BitVec 5} {n : BitVec 4} (h : s.runs (.ringPop d n)) (hon : (s.my.ring n.toNat).on = true)
    (hc : (s.my.ring n.toNat).count ≠ 0) (hroom : s.roomy) :
    exec (.ringPop d n) s = .next (((s.changed (.ringPop d n) (Ctx.modRing · n.toNat RingState.pop)).setR d
      (BitVec.ofNat 64 (s.my.agBase n.toNat + (s.my.ring n.toNat).head * s.my.slotSize n.toNat))).finish 0 none) := by
  refine issue_done (body := ringPopBody d n) h ?_
    ((State.roomy_setR _ _).2 (State.roomy_changed (leavesSeqs_modRing ..) hroom))
  simp only [ringPopBody, State.begun_ring, State.begun_agBase, State.begun_slotSize, State.begun_unit]
  rw [if_neg (not_not_intro hon), if_neg hc]
  rfl

theorem ringPop_stalls {s : State} {d : BitVec 5} {n : BitVec 4} (h : s.runs (.ringPop d n)) (hon : (s.my.ring n.toNat).on = true)
    (hc : (s.my.ring n.toNat).count = 0) : exec (.ringPop d n) s = .next (s.holdHead (.ringPop d n) .flag [117]) :=
  issue_stall (body := ringPopBody d n) h
    (by simp only [ringPopBody, State.begun_ring]; rw [if_neg (not_not_intro hon), if_pos hc])

theorem ringPop_off {s : State} {d : BitVec 5} {n : BitVec 4} (h : s.runs (.ringPop d n)) (hoff : (s.my.ring n.toNat).on = false) :
    exec (.ringPop d n) s = .next (s.takeTrap s.unit.core s.unit.sq .illegal 0 false) :=
  issue_trap (body := ringPopBody d n) h (by simp only [ringPopBody, State.begun_ring]; rw [if_pos (ne_true_of_eq_false hoff)])

end Sys2Proof.Machine
end

section
/-! PROOF. The enqueue of a copy (R126 to R128, R134), of a `ring.push` (R135) and of a snapshot (R149): one command more in the queue. -/
namespace Sys2Proof.Machine

/-! ### A command appended -/

theorem State.append_my (s : State) (cmd : Command) : (s.append s.unit.core cmd).my =
    { s.my with eng := { s.my.eng with cmds := s.my.eng.cmds ++ [{ cmd with id := s.cmdNext + 1 }] } } :=
  State.modCtx_my { s with cmdNext := s.cmdNext + 1 } _

/-- The state in which a copy of the current unit has joined the queue, and waits no longer to do so (R128). -/
def State.queued (s : State) (cmd : Command) : State := (s.waitAppend none).append s.unit.core cmd

theorem State.queued_my (s : State) (cmd : Command) : (s.queued cmd).my =
    { s.my with eng := { s.my.eng with waiting := none, cmds := s.my.eng.cmds ++ [{ cmd with id := s.cmdNext + 1 }] } } := by
  have h := (s.waitAppend none).append_my cmd
  rw [State.waitAppend, State.modEng, modCtx_my] at h
  exact h

@[simp] theorem State.queued_here (s : State) (cmd : Command) : (s.queued cmd).here = s.here := by
  rw [here_eq, queued_my]; exact Ctx.seq_eng s.my _ _

theorem State.modCtx_pool (s : State) (c d : Nat) (f : Ctx → Ctx) : ((s.modCtx c f).core d).pool = (s.core d).pool := by
  by_cases h : d = c
  · subst h; rw [modCtx_core]
  · rw [modCtx_core_other _ _ h]

theorem State.append_pool (s : State) (d c : Nat) (cmd : Command) : ((s.append d cmd).core c).pool = (s.core c).pool :=
  State.modCtx_pool { s with cmdNext := s.cmdNext + 1 } d c _

theorem State.queued_pool (s : State) (cmd : Command) (c : Nat) : ((s.queued cmd).core c).pool = (s.core c).pool :=
  (State.append_pool _ _ _ _).trans (s.modCtx_pool _ _ _)

/-- What stands after a unit outside an atomic block has appended a command and gone on: the queue, and all else that a copy leaves. -/
theorem State.queued_finish (s : State) (cmd : Command) :
    let t := (s.queued cmd).finish 0 none
    t.my.eng = { s.my.eng with waiting := none, cmds := s.my.eng.cmds ++ [{ cmd with id := s.cmdNext + 1 }] }
      ∧ s.here.keeps t.here none none ∧ t.my.loc.rings = s.my.loc.rings ∧ t.mem = s.mem ∧ t.cluster = s.cluster
      ∧ (∀ c, (t.core c).pool = (s.core c).pool) ∧ t.cmdNext = s.cmdNext + 1 := by
  intro t
  obtain ⟨-, -, hseq⟩ := (s.queued cmd).finish_keeps 0 none none none
  refine ⟨?_, by rwa [queued_here] at hseq, ?_, rfl, rfl, fun c => ?_, rfl⟩
  · rw [finish_eng, queued_my]
  · rw [finish_rings, queued_my]
  · exact (State.modCtx_pool _ _ _ _).trans (s.queued_pool cmd c)

/-! ### The body of an enqueue -/

/-- A command joins a queue that has room, outside an atomic block (R128). -/
theorem appendRoom_done {s : State} (cmd : Command) (hp : s.plain) (hq : s.my.eng.cmds.length < 32) :
    appendRoom cmd s = .done (s.queued cmd) 0 := by
  have ha : s.inAtomic = false := by simp only [State.inAtomic, show s.my.cr.atomic = none from hp]; simp
  simp only [appendRoom, ha]
  exact if_neg (Nat.not_le.2 hq)

/-- A command without a ring joins the queue as it is. -/
theorem appendBody_plain (s : State) (cmd : Command) : appendBody cmd none s = appendRoom cmd s := by
  simp only [appendBody, ite_self]

/-- A command of a ring joins the queue with the slot it reserves (R134). -/
theorem appendBody_slot {s : State} {cmd : Command} {n k : Nat} {r : RingState} (hs : cmd.slot = none)
    (hr : (s.my.ring n).reserve = some (k, r)) :
    appendBody cmd (some n) s =
      appendRoom { cmd with slot := some (n, k), vals := scrAddress (s.my.agBase n + k * s.my.slotSize n) :: cmd.vals.drop 1 }
        (s.modCtx s.unit.core (Ctx.modRing · n fun _ => r)) := by
  unfold appendBody
  rw [hs]
  simp [hr]

/-- An enqueued command is not buffered: the unit issues, and is outside an atomic block after it as before. -/
theorem State.queued_roomy {s : State} (cmd : Command) (h : s.plain) : (s.queued cmd).roomy :=
  roomy_of_plain (by rw [State.plain, queued_my]; exact h)

/-! ### The copies (R126, R128) -/

theorem State.begun_aim (s : State) (i : Instr) : (s.begun i).aim s.unit.core = s.aim s.unit.core := by
  obtain ⟨crc, ob, hmy⟩ := s.begun_my i
  have htask : ((s.begun i).ctx s.unit.core).task = (s.ctx s.unit.core).task := by
    rw [State.my, begun_unit] at hmy; rw [hmy]; rfl
  have hslot : (s.begun i).slot = s.slot := by rw [s.begun_eq i]; rfl
  rw [State.aim, htask, hslot]; rfl

/-- Every copy form issues with the body of an enqueue. -/
theorem exec_copy {i : Instr} (h : isCopy i = true) (s : State) : exec i s = issue i (enqueueBody i) s := by
  unfold isCopy at h
  split at h
  case h_12 => cases h
  all_goals rfl

/-- The extents that a copy translates (R128). -/
def Plan.extents (p : Plan) : List (Nat × Word × Nat × Bool × Bool) :=
  [(0, p.src, p.srcLen, true, false), (1, p.dst, p.dstLen, false, true),
    (2, if isBarTarget p.target then p.target else 0xFE000000000000, barExtent, true, true)]

/-- The command that a copy asks for, its pages held. -/
def Plan.command (p : Plan) (i : Instr) (hs : List PageHold) (task : Option Aim) : Command :=
  { newCommand i [p.dst, p.src, p.lenw, p.extra] (bits p.lenw.toNat 31 0) p.target hs task with chained := p.chain }

/-- A copy whose operands are in order and whose extents translate comes to its append (R128). -/
theorem enqueueBody_holds {i : Instr} {s s1 : State} {hs : List PageHold} (hw : s.my.eng.waiting = none)
    (hc : s.checkPlan s.unit.core (s.plan i) true = none) (hh : s.holdAll s.unit.core (s.plan i).extents = .ok (s1, hs)) :
    enqueueBody i s = appendBody ((s.plan i).command i hs (s.aim s.unit.core)) (s.plan i).ring s1 := by
  unfold Plan.extents at hh
  simp only [enqueueBody, hw, hc, hh]
  rfl

theorem enqueueBody_traps {i : Instr} {s : State} {e : Cause} {info : Word} (hw : s.my.eng.waiting = none)
    (hc : s.checkPlan s.unit.core (s.plan i) true = some (e, info)) : enqueueBody i s = .trap e info := by
  simp only [enqueueBody, hw, hc]

/-- A copy outside a ring that finds room issues with its command last in the queue (R128). -/
theorem copy_queued {i : Instr} {s s1 : State} {hs : List PageHold} (hi : isCopy i = true) (h : s.runs i)
    (hw : s.my.eng.waiting = none) (hc : (s.begun i).checkPlan s.unit.core ((s.begun i).plan i) true = none)
    (hh : (s.begun i).holdAll s.unit.core ((s.begun i).plan i).extents = .ok (s1, hs)) {u : State} {cmd : Command}
    (hb : appendBody (((s.begun i).plan i).command i hs (s.aim s.unit.core)) ((s.begun i).plan i).ring s1 = appendRoom cmd u)
    (hp : u.plain) (hq : u.my.eng.cmds.length < 32) : exec i s = .next ((u.queued cmd).finish 0 none) := by
  rw [exec_copy hi]
  refine issue_done h ?_ (State.queued_roomy cmd hp)
  rw [← appendRoom_done cmd hp hq, ← hb, ← s.begun_aim i]
  have k := enqueueBody_holds (i := i) (s := s.begun i) (s1 := s1) (hs := hs)
  rw [State.begun_eng, State.begun_unit] at k
  exact k hw hc hh

/-- A length word outside R127 is the first thing that the checks of a copy name. -/
theorem checkPlan_illegal {s : State} {c : Nat} {p : Plan} (h : ¬ p.lenOk = true) (aligned : Bool) :
    s.checkPlan c p aligned = some (.illegal, 0) := if_pos (Or.inr h)

/-- Settles O29: a copy in order ends as `copy_queued` says, into its own destination or into the slot it reserves; one out of order
traps with the fault that its checks name. -/
theorem copyResults : Obligations.CopyResults := by
  unfold Obligations.CopyResults
  refine ⟨?_, fun i s e info hform h hw hc => ⟨?_, fun hl => ?_⟩⟩
  · intro i s s1 u hs slot dst hform h hplain hw c p hc hh hq hu hcr hslot
    have hi : isCopy i = true := by
      split at hform
      case h_12 => exact hform.elim
      all_goals rfl
    have hs1 : s1.plain := by rw [State.plain, hcr]; exact hplain
    have hp : p = (s.begun i).plan i := rfl
    cases hring : p.ring with
    | none =>
      rw [hring] at hslot
      obtain ⟨rfl, rfl, rfl⟩ := hslot
      have e := copy_queued (cmd := p.command i hs (s.aim c)) hi h hw hc hh (by rw [← hp, hring, appendBody_plain]) hs1 hq
      obtain ⟨heng, hkeep, hrings, hmem, hclus, hpool, hnext⟩ := u.queued_finish (p.command i hs (s.aim c))
      exact ⟨_, _, e, heng, rfl, rfl, rfl, rfl, rfl, rfl, rfl, rfl, rfl, rfl, rfl, rfl, hnext, hkeep, hrings, hmem, hclus, hpool c⟩
    | some n =>
      rw [hring] at hslot
      obtain ⟨k, r, hres, rfl, rfl, -, rfl⟩ := hslot
      have hc1 : c = s1.unit.core := by rw [hu]
      have hmy : (s1.modCtx c (Ctx.modRing · n fun _ => r)).my = s1.my.modRing n fun _ => r := by rw [hc1]; exact s1.modCtx_my _
      have e := copy_queued hi h hw hc hh (by rw [← hp, hring, appendBody_slot rfl hres, ← hc1]) (by rw [State.plain, hmy]; exact hs1)
        (by rw [hmy]; exact hq)
      obtain ⟨heng, hkeep, hrings, hmem, hclus, hpool, hnext⟩ := (s1.modCtx c (Ctx.modRing · n fun _ => r)).queued_finish _
      exact ⟨_, _, e, heng.trans (by rw [hmy]; rfl), rfl, rfl, rfl, rfl, rfl, rfl, rfl, rfl, rfl, rfl, rfl, rfl, hnext, hkeep, hrings, hmem, hclus,
        (hpool c).trans (s1.modCtx_pool c c _)⟩
  · have hi : isCopy i = true := by
      split at hform
      case h_12 => exact hform.elim
      all_goals rfl
    rw [exec_copy hi]
    refine issue_trap h ?_
    have k := enqueueBody_traps (i := i) (s := s.begun i) (e := e) (info := info)
    rw [State.begun_eng, State.begun_unit] at k
    exact k hw hc
  · rw [checkPlan_illegal hl] at hc
    cases hc
    exact ⟨rfl, rfl⟩

end Sys2Proof.Machine
end

section
/-! PROOF. The ring instructions settled (R132, R133, R135). -/
namespace Sys2Proof.Machine

/-! ### ring.push (R135) -/

theorem State.keepsOutside_withCmdNext {s t : State} (h : s.keepsOutside t) (m : Nat) :
    State.keepsOutside { s with cmdNext := m } { t with cmdNext := m } := by
  obtain ⟨heq, hother, hown, hmem, hclus⟩ := h
  exact ⟨by rw [heq], hother, hown, hmem, hclus⟩

/-- The command that a `ring.push` of slot k queues. -/
def State.pushCommand (s : State) (n : BitVec 4) (a : BitVec 5) (k : Nat) : Command :=
  { newCommand (.ringPush n a) [scrAddress (s.my.agBase n.toNat + k * s.my.slotSize n.toNat), scrAddress (s.r a).toNat,
      BitVec.ofNat 64 (s.my.slotSize n.toNat), 0] (s.my.slotSize n.toNat) 0 [] (s.aim s.unit.core) with slot := some (n.toNat, k) }

/-- The state in which a `ring.push` has reserved its slot and queued its command. -/
def State.reserved (s : State) (n : BitVec 4) (a : BitVec 5) (k : Nat) (r : RingState) : State :=
  (s.modCtx s.unit.core (Ctx.modRing · n.toNat fun _ => r)).append s.unit.core (s.pushCommand n a k)

theorem State.reserved_my (s : State) (n : BitVec 4) (a : BitVec 5) (k : Nat) (r : RingState) : (s.reserved n a k r).my =
    { s.my.modRing n.toNat fun _ => r with
      eng := { s.my.eng with cmds := s.my.eng.cmds ++ [{ s.pushCommand n a k with id := s.cmdNext + 1 }] } } := by
  have h := (s.modCtx s.unit.core (Ctx.modRing · n.toNat fun _ => r)).append_my (s.pushCommand n a k)
  rw [modCtx_my] at h
  exact h

@[simp] theorem State.reserved_here (s : State) (n : BitVec 4) (a : BitVec 5) (k : Nat) (r : RingState) : (s.reserved n a k r).here = s.here := by
  rw [here_eq, reserved_my]
  exact (Ctx.seq_eng _ _ _).trans (Ctx.seq_loc _ _ _)

theorem State.append_outside (s : State) (cmd : Command) :
    State.keepsOutside { s with cmdNext := s.cmdNext + 1 } (s.append s.unit.core cmd) := by
  unfold State.append State.modEng
  exact State.modCtx_outside { s with cmdNext := s.cmdNext + 1 } _

theorem State.reserved_outside (s : State) (n : BitVec 4) (a : BitVec 5) (k : Nat) (r : RingState) :
    State.keepsOutside { s with cmdNext := s.cmdNext + 1 } (s.reserved n a k r) :=
  keepsOutside_trans (keepsOutside_withCmdNext (s.modCtx_outside (Ctx.modRing · n.toNat fun _ => r)) (s.cmdNext + 1))
    (State.append_outside _ _)

theorem State.flyUntil_keeps (s : State) (n k : Nat) : s.keepsAllBut (s.flyUntil n k) none none :=
  s.modSeq_keeps _ _ _ ⟨fun _ _ => rfl, fun _ _ _ => rfl, rfl, rfl⟩

theorem State.flyUntil_rot (s : State) (n k : Nat) : (s.flyUntil n k).here.rot = s.here.rot := by
  simp [State.here, State.seq, State.flyUntil, State.modSeq, Seq.rot]

theorem State.flyUntil_my (s : State) (n k : Nat) : ∃ g, (s.flyUntil n k).my = s.my.modSeq s.unit.sq g := ⟨_, s.modCtx_my _⟩

section Push
variable {s : State} {n : BitVec 4} {a : BitVec 5} {k : Nat} {r : RingState}

theorem ringPushBody_done (hoff : s.ringOff s.unit.core (s.plan (.ringPush n a)) = false) (ha : (s.r a).toNat < 2 ^ 32)
    (hc : s.checkPlan s.unit.core (s.plan (.ringPush n a)) false = none) (hq : s.my.eng.cmds.length < 32)
    (hr : (s.my.ring n.toNat).reserve = some (k, r)) : ringPushBody n a s = .done ((s.reserved n a k r).flyUntil n.toNat k) 0 := by
  unfold ringPushBody
  simp only [hoff, hc, hr]
  rw [if_neg (by decide), if_neg (Nat.not_le.2 ha)]
  exact if_neg (Nat.not_le.2 hq)

theorem State.roomy_push (h : s.roomy) : ((s.reserved n a k r).flyUntil n.toNat k).roomy := by
  obtain ⟨g, hmy⟩ := (s.reserved n a k r).flyUntil_my n.toNat k
  exact roomy_of_atomic (s := s) rfl (by rw [hmy, Ctx.modSeq_cr, reserved_my]; rfl) h

/-- A `ring.push` with its checks passed, room in the queue and a free slot issues with its command last in the queue (R135). -/
theorem ringPush_done (h : s.runs (.ringPush n a))
    (hoff : (s.begun (.ringPush n a)).ringOff s.unit.core ((s.begun (.ringPush n a)).plan (.ringPush n a)) = false)
    (ha : (s.r a).toNat < 2 ^ 32)
    (hc : (s.begun (.ringPush n a)).checkPlan s.unit.core ((s.begun (.ringPush n a)).plan (.ringPush n a)) false = none)
    (hq : s.my.eng.cmds.length < 32) (hr : (s.my.ring n.toNat).reserve = some (k, r)) (hroom : s.roomy) :
    exec (.ringPush n a) s = .next ((((s.begun (.ringPush n a)).reserved n a k r).flyUntil n.toNat k).finish 0 none) := by
  refine issue_done (body := ringPushBody n a) h ?_ (State.roomy_push ((State.roomy_begun _).2 hroom))
  have k := ringPushBody_done (s := s.begun (.ringPush n a)) (n := n) (a := a) (k := k) (r := r)
  simp only [State.begun_unit, State.begun_r, State.begun_eng, State.begun_ring] at k
  exact k hoff ha hc hq hr

/-- What stands after a `ring.push` (R135): its command last in the queue, its ring with the slot reserved, and the numbers of commands one
further. -/
theorem State.push_finish (s : State) (n : BitVec 4) (a : BitVec 5) (k : Nat) (r : RingState) :
    let t := (((s.reserved n a k r).flyUntil n.toNat k).finish 0 none)
    t.my.eng = { s.my.eng with cmds := s.my.eng.cmds ++ [{ s.pushCommand n a k with id := s.cmdNext + 1 }] }
      ∧ t.my.ring n.toNat = r ∧ s.here.keeps t.here none none ∧ State.keepsOutside { s with cmdNext := s.cmdNext + 1 } t := by
  intro t
  obtain ⟨g, hmy⟩ := (s.reserved n a k r).flyUntil_my n.toNat k
  obtain ⟨fout, -, fseq⟩ := (s.reserved n a k r).flyUntil_keeps n.toNat k
  obtain ⟨kout, -, kseq⟩ := ((s.reserved n a k r).flyUntil n.toNat k).finish_keeps 0 none none none
  refine ⟨?_, ?_, ?_, keepsOutside_trans (s.reserved_outside n a k r) (keepsOutside_trans fout kout)⟩
  · rw [finish_eng, hmy, Ctx.modSeq_eng, reserved_my]
  · rw [finish_ring, hmy, Ctx.ring, Ctx.modSeq_loc, reserved_my]
    exact (Ctx.modRing_ring s.my n.toNat _)
  · rw [reserved_here] at fseq
    exact Seq.keeps_trans fseq kseq (by rw [flyUntil_rot, reserved_here])

end Push

/-- Settles O32: `ring.init`, `ring.push` and `ring.pop` end as their rules say when their conditions hold, and trap or stall otherwise. -/
theorem ringResults : Obligations.RingResults := by
  unfold Obligations.RingResults
  refine ⟨?_, ?_, ?_⟩
  · intro s n a b h size slots
    refine ⟨fun h1 h2 h3 h4 h5 hb hr hroom => ?_, ringInit_illegal h, fun h1 h2 h3 h4 h5 hb => ringInit_outside h ⟨h1, h2, h3, h4, h5⟩ hb⟩
    obtain ⟨hkeep, hout⟩ := State.changed_done (s := s) (i := .ringInit n a b) (leavesSeqs_initRing n.toNat size slots) 0
    refine ⟨_, ringInit_done h ⟨h1, h2, h3, h4, h5⟩ hb hr hroom, ?_, ?_, hkeep, hout⟩
    · rw [State.finish_agTable, State.changed_my, ← s.begun_loc (.ringInit n a b)]; rfl
    · rw [State.finish_ring, State.changed_my, ← s.begun_ring (.ringInit n a b)]; simp [Ctx.initRing, Ctx.ring, slots]
  · intro s n a k r h i p hoff ha hc hq hr hroom
    obtain ⟨heng, hring, hseq, hout⟩ := State.push_finish (s.begun i) n a k r
    simp only [State.begun_eng, State.begun_here, State.begun_cmdNext] at heng hseq hout
    have hbegun := State.keepsOutside_withCmdNext (s.begun_keeps i none none).1 (s.cmdNext + 1)
    refine ⟨_, _, ringPush_done h hoff ha hc hq hr hroom, congrArg Engine.cmds heng, rfl, rfl, ?_, ?_, ?_, hring, rfl, hseq,
      State.keepsOutside_trans hbegun hout⟩
    · show scrAddress _ = _
      rw [State.begun_agBase, State.begun_slotSize]
    · show scrAddress _ = _
      rw [State.begun_r]
    · exact State.begun_slotSize s i n.toNat
  · intro s d n h r
    refine ⟨fun hon hc hroom => ?_, ringPop_stalls h, ringPop_off h⟩
    obtain ⟨hd, hkeep, hout⟩ := State.changed_setR_done (s := s) (i := .ringPop d n) (leavesSeqs_modRing n.toNat RingState.pop) d
      (BitVec.ofNat 64 (s.my.agBase n.toNat + r.head * s.my.slotSize n.toNat)) 0
    refine ⟨_, ringPop_done h hon hc hroom, hd, ?_, hkeep, hout⟩
    rw [State.finish_ring, State.setR_ring, State.changed_my]
    exact (Ctx.modRing_ring _ _ _).trans (congrArg RingState.pop (s.begun_ring _ _))

end Sys2Proof.Machine
end

section
/-! PROOF. Scratchpad allocation (R147) and the load of instruction memory (R151). -/
namespace Sys2Proof.Machine

/-! ### Kerfs -/

theorem Ctx.setKerf_onKerf (x : Ctx) (o p : Nat) (b : Bool) : (x.setKerf o b).onKerf p = if o / 64 = p / 64 then b else x.onKerf p :=
  get_put _ _ _ _ _

/-! ### salloc -/

/-- What `salloc` changes of its context: two kerfs around the block, and the top (R147). -/
def Ctx.allocate (x : Ctx) (len top : Nat) : Ctx :=
  let x1 := (x.setKerf (x.loc.satop - 64) true).setKerf top true
  { x1 with loc := { x1.loc with satop := top, allocs := (top + 64, len) :: x1.loc.allocs } }

theorem leavesSeqs_allocate (len top : Nat) : LeavesSeqs (Ctx.allocate · len top) := ⟨fun x sm => by cases sm <;> rfl, fun _ => rfl⟩

theorem Ctx.allocate_allocs (x : Ctx) (len top : Nat) : (x.allocate len top).loc.allocs = (top + 64, len) :: x.loc.allocs := rfl

/-- Both ends of a new block are kerfs. -/
theorem Ctx.allocate_onKerf (x : Ctx) (len top : Nat) {o : Nat} (h : o = x.loc.satop - 64 ∨ o = top) :
    (x.allocate len top).onKerf o = true := by
  show (((x.setKerf (x.loc.satop - 64) true).setKerf top true).onKerf o) = true
  rw [setKerf_onKerf, setKerf_onKerf]
  rcases h with rfl | rfl <;> simp

section Salloc
variable {s : State} {d a : BitVec 5}

theorem salloc_illegal (h : s.runs (.salloc d a)) (hn : (s.r a).toNat = 0 ∨ 2 ^ 32 ≤ (s.r a).toNat) :
    exec (.salloc d a) s = .next (s.takeTrap s.unit.core s.unit.sq .illegal 0 false) :=
  issue_trap (body := sallocBody d a) h (by simp only [sallocBody, State.begun_r]; rw [if_pos hn])

theorem salloc_full (h : s.runs (.salloc d a)) (hn : ¬ ((s.r a).toNat = 0 ∨ 2 ^ 32 ≤ (s.r a).toNat)) (hroom : s.roomy)
    (hf : s.my.loc.allocs.length = 64 ∨ s.my.loc.satop < ceilDiv (s.r a).toNat 64 * 64 + 128) :
    exec (.salloc d a) s = .next (((s.begun (.salloc d a)).setR d (-1)).finish 0 none) := by
  refine issue_done (body := sallocBody d a) h ?_ ((State.roomy_setR _ _).2 ((State.roomy_begun _).2 hroom))
  simp only [sallocBody, State.begun_r, State.begun_loc]
  rw [if_neg hn, if_pos hf]

theorem salloc_done (h : s.runs (.salloc d a)) (hn : ¬ ((s.r a).toNat = 0 ∨ 2 ^ 32 ≤ (s.r a).toNat)) (hroom : s.roomy)
    (hf : ¬ (s.my.loc.allocs.length = 64 ∨ s.my.loc.satop < ceilDiv (s.r a).toNat 64 * 64 + 128)) :
    let len := ceilDiv (s.r a).toNat 64 * 64
    let top := s.my.loc.satop - 128 - len
    exec (.salloc d a) s =
      .next (((s.changed (.salloc d a) (Ctx.allocate · len top)).setR d (BitVec.ofNat 64 (top + 64))).finish 0 none) := by
  refine issue_done (body := sallocBody d a) h ?_ ((State.roomy_setR _ _).2 (State.roomy_changed (leavesSeqs_allocate ..) hroom))
  simp only [sallocBody, State.begun_r, State.begun_loc, State.begun_unit]
  rw [if_neg hn, if_neg hf]
  rfl

end Salloc

/-! ### sfree -/

/-- What `sfree` of the newest block changes of its context (R147). -/
def Ctx.release (x : Ctx) (top len : Nat) (rest : List (Nat × Nat)) : Ctx :=
  let x1 := (x.setKerf (top - 64) false).setKerf (top + len) false
  { x1 with loc := { x1.loc with satop := x1.loc.satop + 128 + len, allocs := rest } }

theorem leavesSeqs_release (top len : Nat) (rest : List (Nat × Nat)) : LeavesSeqs (Ctx.release · top len rest) :=
  ⟨fun x sm => by cases sm <;> rfl, fun _ => rfl⟩

/-- Neither end of a block that is freed is a kerf any more. -/
theorem Ctx.release_onKerf (x : Ctx) (top len : Nat) (rest : List (Nat × Nat)) {o : Nat} (h : o = top - 64 ∨ o = top + len) :
    (x.release top len rest).onKerf o = false := by
  show (((x.setKerf (top - 64) false).setKerf (top + len) false).onKerf o) = false
  rw [setKerf_onKerf, setKerf_onKerf]
  rcases h with rfl | rfl <;> simp

section Sfree
variable {s : State} {a : BitVec 5}

theorem sfree_done {len : Nat} {rest : List (Nat × Nat)} (h : s.runs (.sfree a)) (hroom : s.roomy)
    (ha : s.my.loc.allocs = ((s.r a).toNat, len) :: rest) :
    exec (.sfree a) s = .next ((s.changed (.sfree a) (Ctx.release · (s.r a).toNat len rest)).finish 0 none) := by
  refine issue_done (body := sfreeBody a) h ?_ (State.roomy_changed (leavesSeqs_release ..) hroom)
  simp only [sfreeBody, State.begun_r, State.begun_loc, State.begun_unit, ha]
  rw [if_neg (not_not_intro rfl)]
  rfl

theorem sfree_illegal (h : s.runs (.sfree a)) (ha : ∀ len rest, s.my.loc.allocs ≠ ((s.r a).toNat, len) :: rest) :
    exec (.sfree a) s = .next (s.takeTrap s.unit.core s.unit.sq .illegal 0 false) := by
  refine issue_trap (body := sfreeBody a) h ?_
  simp only [sfreeBody, State.begun_r, State.begun_loc]
  cases hl : s.my.loc.allocs with
  | nil => rfl
  | cons e rest =>
    have hne : (s.r a).toNat ≠ e.1 := fun heq => ha e.2 rest (by rw [hl, heq])
    exact if_pos hne

end Sfree

/-! ### imld (R151) -/

/-- The state in which a load of instruction memory has been made and CTL begins to wait for its cycles. -/
def State.loaded (s : State) (c : Nat) (sm : Stream) (clear : Bool) (off n : Nat) (bs : List Byte) : State :=
  (s.modSeq c sm fun q => ({ q with imem := if clear then [] else q.imem }).loadImem off ((halvesOf bs).take n)).modEng c fun g =>
    { g with imld := some (streamCode sm, ceilDiv n 32) }

theorem imldBody_all {s s1 : State} {a b c : BitVec 5} {bs : List Byte}
    (hz : bits (s.r b).toNat 15 3 = 0) (hz1 : bits (s.r b).toNat 63 32 = 0) (h1 : 1 ≤ (s.r c).toNat)
    (hm : bits (s.r b).toNat 31 16 + (s.r c).toNat ≤ imemSize (streamOf (bits (s.r b).toNat 1 0)))
    (hg : (isGlobal (s.r a) || isS (s.r a)) = true) (hal : (s.r a).toNat % 64 = 0)
    (hw : s.windowFault s.unit.core (s.r a) (2 * (s.r c).toNat) = none)
    (hr : s.imRead s.unit.core (s.r a) (ceilDiv (2 * (s.r c).toNat) 64) = (s1, .all bs)) :
    imldBody a b c s = .done (s1.loaded s.unit.core (streamOf (bits (s.r b).toNat 1 0)) (bit (s.r b).toNat 2) (bits (s.r b).toNat 31 16)
      (s.r c).toNat bs) (ceilDiv (s.r c).toNat 32) := by
  unfold imldBody
  simp only [hw, hr]
  rw [if_neg (by omega), if_neg (not_not_intro hg), if_neg (not_not_intro hal)]
  rfl

/-- Settles O34: each instruction ends as the case of its body says, which its conditions choose. -/
theorem scratchResults : Obligations.ScratchResults := by
  unfold Obligations.ScratchResults
  refine ⟨?_, ?_, ?_, fun s c k h => ?_⟩
  · intro s d a h hroom n len top
    refine ⟨fun h0 h1 ha hs => ?_, fun h0 h1 hf => ?_, salloc_illegal h⟩
    · obtain ⟨hd, hkeep, hout⟩ :=
        State.changed_setR_done (s := s) (i := .salloc d a) (leavesSeqs_allocate len top) d (BitVec.ofNat 64 (top + 64)) 0
      refine ⟨_, salloc_done h (by omega) hroom (not_or.2 ⟨ha, Nat.not_lt.2 hs⟩), hd, ?_, ?_, ?_, ?_, hkeep, hout⟩
      · rw [State.finish_satop, State.setR_loc, State.changed_my]; rfl
      · rw [State.finish_allocs, State.setR_loc, State.changed_my, Ctx.allocate_allocs, State.begun_loc]
      · rw [State.finish_onKerf, State.setR_onKerf, State.changed_my, ← s.begun_loc (.salloc d a)]
        exact Ctx.allocate_onKerf _ _ _ (.inl rfl)
      · rw [State.finish_onKerf, State.setR_onKerf, State.changed_my]
        exact Ctx.allocate_onKerf _ _ _ (.inr rfl)
    · obtain ⟨hd, hkeep⟩ := s.begun_setR_done (.salloc d a) d (-1) 0
      exact ⟨_, salloc_full h (by omega) hroom hf, hd, hkeep⟩
  · intro s a h hroom
    refine ⟨fun len rest ha => ?_, sfree_illegal h⟩
    obtain ⟨hkeep, hout⟩ := State.changed_done (s := s) (i := .sfree a) (leavesSeqs_release (s.r a).toNat len rest) 0
    refine ⟨_, sfree_done h hroom ha, ?_, ?_, ?_, ?_, hkeep, hout⟩
    · rw [State.finish_allocs, State.changed_my]; rfl
    · rw [State.finish_satop, State.changed_my, ← s.begun_loc (.sfree a)]; rfl
    · rw [State.finish_onKerf, State.changed_my]
      exact Ctx.release_onKerf _ _ _ _ (.inr rfl)
    · rw [State.finish_onKerf, State.changed_my]
      exact Ctx.release_onKerf _ _ _ _ (.inl rfl)
  · intro s s1 a b c bs h v n sm hz hz1 h1 hm hg hal hw hr u hroom
    refine issue_done (body := imldBody a b c) h ?_ hroom
    have k := imldBody_all (s := s.begun (.imld a b c)) (s1 := s1) (a := a) (b := b) (c := c) (bs := bs)
    simp only [State.begun_r, State.begun_unit] at k
    exact k hz hz1 h1 hm hg hal hw hr
  · simp only [show exec (.imldComplete c) s = execImldComplete c s from rfl, execImldComplete, h]

end Sys2Proof.Machine
end

section
/-! PROOF. Point moves (R145, R146): what the statement asks of the rows of a `gath.q` after its first is not what the machine does. -/
namespace Sys2Proof.Machine

theorem Links.rpush_token (l : Links) (q i : Nat) (r : Row) : (l.rpush q r).token i = l.token i := rfl

/-- LD of core 0 at a `gath.q` of the 1,500 points of set 0, in a unit that pops a token of CTL, of which two stand. -/
def firstRow : State :=
  { State.reset.modCtx 0 fun x =>
      { x with
        links := { x.links with tok := put Token.zero x.links.tok (tokenIx .ctl .ld) { count := 2, staged := 0, popped := 0 } }
        loc := { x.loc with ag := put 0#64 x.loc.ag 1 (agDim 1500 1) } } with
    unit := { core := 0, sq := .ld, guard := true, ty := 0, popM := 1, pushM := 0, addr := 2, word := 2, len := 4, hasTyp := false
              hasPre := true, pred := 0, need := 0, stay := false, late := false } }

/-- The state that an answer leaves. -/
def answered (s : State) : Out State → State
  | .next t => t
  | _ => s

/-- The same unit at its second row: the first has gone into q5. -/
def secondRow : State := answered firstRow (exec (.gathQ 0) firstRow)

/-- The first row has popped one token (R48). -/
theorem secondRow_after : firstRow.runs (.gathQ 0) ∧ secondRow.here.part = 1
    ∧ (firstRow.my.links.token (tokenIx .ctl .ld)).count = 2 ∧ (secondRow.my.links.token (tokenIx .ctl .ld)).count = 1 := by decide +kernel

/-- The second row meets everything that the statement asks of the state. -/
theorem secondRow_runs : secondRow.runs (.gathQ 0) ∧ secondRow.my.agOutside (0 : BitVec 4).toNat (secondRow.core secondRow.unit.core).liveSl.scrBytes = none
    ∧ (secondRow.begun (.gathQ 0)).my.links.rroom 5 = true ∧ secondRow.roomy ∧ (secondRow.ctx secondRow.unit.core).loc.kerf = [] := by decide +kernel

/-- The second row leaves the other token where it is: a `gath.q` pops its tokens with its first row. -/
theorem secondRow_keeps_token :
    ((answered secondRow (exec (.gathQ 0) secondRow)).my.links.token (tokenIx .ctl .ld)).count = 1 := by decide +kernel

/-- A unit that began afresh would pop it. -/
theorem secondRow_begun_token : ((secondRow.begun (.gathQ 0)).my.links.token (tokenIx .ctl .ld)).count = 0 := by decide +kernel

/-- Refutes O33: at a row after the first the statement has the token pops of the unit made again (`s.begun`), which were made with the first;
`secondRow` keeps the token that a second pop would take. -/
theorem not_pointMoves : ¬ Obligations.PointMoves := by
  unfold Obligations.PointMoves
  rintro ⟨-, -, h⟩
  obtain ⟨hruns, hin, hspace, hroom, hkerf⟩ := secondRow_runs
  obtain ⟨t, he, hlinks, -⟩ := (h secondRow 0 hruns hin).2 hspace hroom fun p _ => by
    rw [Ctx.onKerf, hkerf, get_nil]
  have hleft : (t.my.links.token (tokenIx .ctl .ld)).count = 1 := by
    have k := secondRow_keeps_token
    rwa [he] at k
  have hpopped : (t.my.links.token (tokenIx .ctl .ld)).count = 0 := by
    rw [hlinks, Links.rpush_token, secondRow_begun_token]
  omega

end Sys2Proof.Machine
end

section
/-! PROOF. The events of copies (R128, R129, R134, R137, R141) and the snapshot (R149, R150). -/
namespace Sys2Proof.Machine

/-! ### Copies -/

/-- The oldest queued command starts while fewer than 8 are in progress (R128). -/
theorem copyStart_starts {s : State} {c p : Nat} {cmd : Command}
    (hf : ((s.cmdPlaces c).filterMap fun p => (s.cmdAt c p).map fun k => (p, k)).find? (fun e => !e.2.started && !isSnap e.2.instr)
      = some (p, cmd))
    (hb : (((s.cmdPlaces c).filterMap fun p => (s.cmdAt c p).map fun k => (p, k)).filter fun e => e.2.started && !isSnap e.2.instr).length < 8)
    (hd : (s.core c).dbg.stopped = false) :
    exec (.copyStart c) s = .next ((s.setForm c cmd).setCmd c p { cmd with started := true }) := by
  have hgo : ¬ (8 ≤ (((s.cmdPlaces c).filterMap fun p => (s.cmdAt c p).map fun k => (p, k)).filter
      fun e => e.2.started && !isSnap e.2.instr).length ∨ (s.core c).dbg.stopped = true) := by
    simp only [hd, Bool.false_eq_true, or_false]; omega
  simp only [show exec (.copyStart c) s = execCopyStart c s from rfl, execCopyStart, hf]
  rw [if_neg hgo]

/-- What a landed command of the queue still does: its end, or its chained push where there is room (R137). -/
theorem State.afterLanding_queue (s : State) {c pos : Nat} (cmd : Command) (hp : pos < 32) :
    s.afterLanding c pos cmd = if cmd.chained = false then s.endCmd c pos cmd
      else if (s.ctx c).links.chainRoom = true then (s.chainPush c cmd).endCmd c pos cmd else s.setCmd c pos cmd := by
  have hpos : ¬ 32 ≤ pos := by omega
  unfold State.afterLanding
  cases cmd.chained <;> simp [hpos]

/-- A completion that nothing holds back lands, and its context sees it (R129). -/
theorem copyCompletion_lands {s s1 : State} {c pos : Nat} {cmd cmd1 : Command} (hc : s.cmdAt c pos = some cmd)
    (hs : cmd.started = true) (hl : cmd.landed = false) (hn : isSnap cmd.instr = false) (hd : (s.core c).dbg.stopped = false)
    (hp : pos < 32) (hh : cmd.hit = false) (hr : s.replays c pos = false) (hm : s.moveRest c false cmd = (s1, cmd1))
    (ha : cmd1.allMoved = true) (hf : s1.performedAll cmd1.id = true) (hw : s1.mustWait c pos cmd1 = false)
    (ht : ((s1.landCmd c false cmd1).hitTarget c false { cmd1 with counted := true, landed := true }).2 = true) :
    exec (.copyCompletion c pos) s = .next (((s1.landCmd c false cmd1).hitTarget c false
      { cmd1 with counted := true, landed := true }).1.afterLanding c pos { cmd1 with counted := true, landed := true }) := by
  have hpos : decide (32 ≤ pos) = false := by simpa using hp
  simp only [show exec (.copyCompletion c pos) s = execCopyCompletion c pos s from rfl, execCopyCompletion, hc, hs, hl, hh, hn, hd, hpos,
    hm, ha, hf, hw, hr, ht]
  simp

/-- The chained push of a landed `copy.mx` (R137). -/
theorem copyMxChainedPush_pushes {s : State} {c pos : Nat} {cmd : Command} (hl : (s.core c).hasLive = true)
    (hd : (s.core c).dbg.stopped = false) (hf : (s.ctx c).eng.cmds.findIdx? (fun k => k.chained && k.landed) = some pos)
    (hc : s.cmdAt c pos = some cmd) : exec (.copyMxChainedPush c) s = .next (s.afterLanding c pos cmd) := by
  simp [show exec (.copyMxChainedPush c) s = execCopyMxChainedPush c s from rfl, execCopyMxChainedPush, hl, hd, hf, hc]

/-- Settles O30: each event is the branch of its meaning that its conditions choose. -/
theorem copyEvents : Obligations.CopyEvents := by
  unfold Obligations.CopyEvents
  refine ⟨fun s c p cmd hf hb hd => copyStart_starts hf hb hd, ?_, ?_, fun s quad page h => if_pos h⟩
  · intro s s1 c pos cmd cmd1 hc hs hl hn hd hp hh hr hm ha hf hw s2 done v ht
    have h2 : s1.landCmd c false cmd1 = s2 := by
      simp only [State.landCmd]; rfl
    rw [← h2] at ht
    rw [copyCompletion_lands hc hs hl hn hd hp hh hr hm ha hf hw ht, State.afterLanding_queue _ _ hp, h2]
    rfl
  · intro s c pos cmd hl hd hf hp hc hch
    rw [copyMxChainedPush_pushes hl hd hf hc, State.afterLanding_queue _ _ hp, if_neg (by simp [hch])]
    rfl

/-! ### Snapshots -/

/-- The words of a snapshot's descriptor (R149). -/
def snapWords (bs : List Byte) : List Word := (List.range 8).map fun i => BitVec.ofNat 64 (leNat ((bs.drop (8 * i)).take 8))

/-- The extents of a snapshot with its descriptor at an address (R149). -/
def snapExtents (desc : List Word) (addr target : Word) : List (Nat × Word × Nat × Bool × Bool) :=
  [(0, snapField desc 0, 4096 * (snapField desc 1).toNat, true, false), (3, snapField desc 2, 32 * (snapField desc 1).toNat, true, true),
    (4, snapField desc 3, Nat.max 64 (snapField desc 4).toNat, false, true), (1, addr, 64, true, true),
    (2, if isBarTarget target then target else 0xFE000000000000, barExtent, true, true)]

/-- The command of a snapshot, its pages held. -/
def snapCommand (a b : BitVec 5) (desc : List Word) (addr target : Word) (hs : List PageHold) (task : Option Aim) : Command :=
  { newCommand (.cpSnap a b) [addr, snapField desc 0, 0, 0] (4096 * (snapField desc 1).toNat) target hs task with desc := desc }

/-- A `cp.snap` whose descriptor is read and legal and whose extents translate comes to its append (R149). -/
theorem snapBody_holds {s s1 s2 : State} {a b : BitVec 5} {l : Loc} {desc : List Word} {hs : List PageHold} (hw : s.my.eng.waiting = none)
    (hg : (isGlobal (s.r a) || isS (s.r a)) = true) (hal : (s.r a).toNat % 64 = 0)
    (ht : isBarTarget (s.r b) = true → placeOf (s.r b) ≠ .bad ∧ (s.r b).toNat % 16 = 0 ∧ s1.windowFault s.unit.core (s.r b) barExtent = none)
    (hr : s.resolve s.unit.core (s.r a) 64 true true = .at s1 l) (hwait : s1.waitsAt s.unit.core l = false)
    (hu : s1.uncorrAt s.unit.core l 64 = false) (hdesc : desc = snapWords (s1.bytesAt s.unit.core l 64)) (hf : snapFault desc = none)
    (hh : (s1.touched s.unit.core l 64).holdAll s.unit.core (snapExtents desc (s.r a) (s.r b)) = .ok (s2, hs)) :
    snapBody a b s = appendRoom (snapCommand a b desc (s.r a) (s.r b) hs (s.aim s.unit.core)) s2 := by
  subst hdesc
  unfold snapWords at hf
  unfold snapExtents snapWords at hh
  have hbad : ¬ (isBarTarget (s.r b) = true ∧ placeOf (s.r b) = .bad) := fun h => (ht h.1).1 h.2
  have hmis : ¬ (isBarTarget (s.r b) = true ∧ (s.r b).toNat % 16 ≠ 0) := fun h => h.2 (ht h.1).2.1
  have hwin : (if isBarTarget (s.r b) = true then s1.windowFault s.unit.core (s.r b) barExtent else none) = none := by
    split
    · rename_i h; exact (ht h).2.2
    · rfl
  unfold snapBody
  simp only [hw, hr, hwait, hu, hf, hwin, hh]
  rw [if_neg (not_not_intro hg), if_neg hbad, if_neg (not_not_intro hal), if_neg hmis, if_neg (by simp), if_neg (by simp), appendBody_plain]
  rfl

/-- `cp.snap` issues with its command last in the queue. -/
theorem cpSnap_queued {s s2 : State} {a b : BitVec 5} {cmd : Command} (h : s.runs (.cpSnap a b))
    (hb : snapBody a b (s.begun (.cpSnap a b)) = appendRoom cmd s2) (hp : s2.plain) (hq : s2.my.eng.cmds.length < 32) :
    exec (.cpSnap a b) s = .next ((s2.queued cmd).finish 0 none) :=
  issue_done (body := snapBody a b) h (hb.trans (appendRoom_done cmd hp hq)) (State.queued_roomy cmd hp)

/-- The state and the command after the blocks that a snapshot has yet to visit (R150). -/
def State.snapRest (s : State) (c : Nat) (cmd : Command) : State × Command :=
  iterate ((snapField cmd.desc 1).toNat - cmd.block) (fun _ a => a.1.snapBlock c false a.2) (s, { cmd with started := true })

/-- The last write of a snapshot that has visited its blocks: the header and the two counts (R150). -/
def State.snapLast (s : State) (c : Nat) (cmd cmd1 : Command) : State × Bool :=
  (s.countSnap c false (64 * (cmd1.block - cmd.block))).writeAt c false cmd1 cmd1.snapEnd

section Snapshot
variable {s s1 : State} {c pos : Nat} {cmd cmd1 : Command}

/-- A snapshot that has visited every block and written its end completes once all of it is performed (R150). -/
theorem snapshotCompletion_ends (hc : s.cmdAt c pos = some cmd) (hs : isSnap cmd.instr = true) (hl : cmd.landed = false)
    (hh : cmd.hit = false) (hd : (s.core c).dbg.stopped = false) (hp : pos < 32) (hi : s.snapRest c cmd = (s1, cmd1))
    (hv : (snapField cmd.desc 1).toNat ≤ cmd1.block) (hw : (s1.snapLast c cmd cmd1).2 = true) :
    let v := (s1.snapLast c cmd cmd1).1
    let done := { cmd1 with landed := true }
    exec (.snapshotCompletion c pos) s = .next (if ¬ v.performedAll cmd1.id then v.setCmd c pos done
      else if ¬ (v.hitTarget c false done).2 then ({ v with quads := (v.hitTarget c false done).1.quads }).setCmd c pos done
      else if v.replays c pos then (v.hitTarget c false done).1.setCmd c pos { done with hit := true }
      else (v.hitTarget c false done).1.endCmd c pos done) := by
  intro v done
  have hpos : decide (32 ≤ pos) = false := by simpa using hp
  unfold State.snapRest at hi
  unfold State.snapLast at hw
  have hlt : ¬ cmd1.block < (snapField cmd.desc 1).toNat := Nat.not_lt.2 hv
  simp only [show exec (.snapshotCompletion c pos) s = execSnapshotCompletion c pos s from rfl, execSnapshotCompletion, hc, hpos, hi, hw]
  rw [if_neg (by simp [hs, hh, hd]), if_neg (by simp [hl]), if_neg hlt]
  rfl

end Snapshot

/-- Settles O31: the enqueue by `snapBody_holds` and `cpSnap_queued`, the completion by `snapshotCompletion_ends`. -/
theorem snapshotResults : Obligations.SnapshotResults := by
  unfold Obligations.SnapshotResults
  refine ⟨?_, ?_⟩
  · intro s s1 s2 a b l desc hs h hplain hw hg hal ht hr hwait hu hdesc hf n hh hq hunit hcr
    have hp : s2.plain := by rw [State.plain, hcr]; exact hplain
    have k := snapBody_holds (s := s.begun (.cpSnap a b)) (s1 := s1) (s2 := s2) (a := a) (b := b) (l := l) (desc := desc) (hs := hs)
    simp only [State.begun_eng, State.begun_r, State.begun_unit] at k
    have e := cpSnap_queued h (k hw hg hal ht hr hwait hu hdesc hf hh) hp hq
    obtain ⟨heng, hkeep, -, hmem, -⟩ := s2.queued_finish
      (snapCommand a b desc (s.r a) (s.r b) hs ((s.begun (.cpSnap a b)).aim s.unit.core))
    exact ⟨_, _, e, heng, rfl, rfl, rfl, rfl, rfl, rfl, rfl, hkeep, hmem⟩
  · intro s s1 c pos cmd cmd1 hc hs hl hh hd hp f hi hv g w v done hw
    have e := snapshotCompletion_ends hc hs hl hh hd hp hi hv hw
    refine ⟨fun hf ht _ hr => e.trans (congrArg _ ?_), fun hf => e.trans (congrArg _ (if_pos (ne_true_of_eq_false hf)))⟩
    exact (if_neg (not_not_intro hf)).trans ((if_neg (not_not_intro ht)).trans (if_neg (ne_true_of_eq_false hr)))

end Sys2Proof.Machine
end

section
/-! PROOF. Work between cores: remote enqueue (R152) and posting a task (R153). -/
namespace Sys2Proof.Machine

/-! ### What the beginning of a unit leaves of the package -/

section Begun
variable (s : State) (i : Instr)

@[simp] theorem State.begun_partOf (c : Nat) : (s.begun i).partOf c = s.partOf c := by rw [s.begun_eq i]; rfl

@[simp] theorem State.begun_timeOf (r : Nat) : (s.begun i).timeOf r = s.timeOf r := by rw [s.begun_eq i]; rfl

@[simp] theorem State.begun_enqueued : (s.begun i).enqueued = s.enqueued := by rw [s.begun_eq i]

@[simp] theorem State.begun_kv : ((s.begun i).core s.unit.core).kv = (s.core s.unit.core).kv := by rw [s.begun_core i]

end Begun

/-! ### A timed push that is made, and one that is given up (R73, R292) -/

/-- The state in which a unit has set p23. -/
def State.expired (s : State) (v : Bool) : State := s.modSeq s.unit.core s.unit.sq fun q => q.setP23 v

theorem State.expired_eq {s t : State} (h : s.unit = t.unit) (v : Bool) :
    s.expired v = s.modSeq t.unit.core t.unit.sq fun q => q.setP23 v := by rw [State.expired, h]

theorem State.roomy_expired {s : State} (v : Bool) : (s.expired v).roomy ↔ s.roomy := State.roomy_setP 23 v

/-- What stands when a unit that has set p23 has gone on. -/
theorem State.expired_finish (s : State) (v : Bool) :
    let t := (s.expired v).finish 0 none
    t.here.pred 23 = v ∧ (∀ n, t.here.reg n = s.here.reg n) ∧ t.mem = s.mem ∧ t.enqueued = s.enqueued := by
  obtain ⟨-, -, hreg, -⟩ := s.setP_keeps 23 v none
  obtain ⟨-, -, kreg, kpred, -⟩ := (s.setP 23 v).finish_keeps 0 none none none
  refine ⟨?_, fun n => (kreg n (by simp)).trans (hreg n (by simp)), rfl, rfl⟩
  exact (kpred 23 (by simp) (by omega)).trans (by rw [State.setP_here, Seq.setPred_pred _ _ (by omega)])

section Timed
variable {kind : WaitKind} {t : Nat} {target : Option (Nat × Nat)} {owner : Nat} {ready : State → Bool} {go : State → State} {s : State}

theorem sendTimed_made (hf : s.firstAt s.unit.core target owner = true) (hr : ready s = true)
    (hu : (go (s.leaveTarget s.unit.core target owner)).unit = s.unit) :
    sendTimed kind t target owner ready go s = .done ((go (s.leaveTarget s.unit.core target owner)).expired false) 0 := by
  unfold State.expired
  rw [hu]
  exact if_pos ⟨hf, hr⟩

theorem sendTimed_givenUp (hn : s.firstAt s.unit.core target owner = false ∨ ready s = false) (ht : t = 0) :
    sendTimed kind t target owner ready go s = .done (s.expired true) 0 := by
  have h : ¬ (s.firstAt s.unit.core target owner = true ∧ ready s = true) := by
    rcases hn with h | h <;> simp [h]
  unfold sendTimed
  rw [if_neg h, if_pos ht]
  rfl

end Timed

/-! ### renq (R152) -/

/-- The entry that a `renq` sends. -/
def State.entry (s : State) (a b : BitVec 5) : Enqueued :=
  { core := bits (s.r b).toNat 7 0, sender := s.unit.core, queue := bits (s.r b).toNat 9 8, val := s.r a
    flag := if bit (s.r b).toNat 16 then some (bits (s.r b).toNat 15 10) else none
    time := s.timeOf (Config.quadOf s.unit.core), kv := (s.core s.unit.core).kv }

/-- A state with one more entry on its way. -/
def State.sendEntry (s : State) (e : Enqueued) : State := { s with enqueued := s.enqueued ++ [e] }

section Sent
variable (s : State) (c o : Nat) (t : Option (Nat × Nat)) (e : Enqueued)

theorem State.sendEntry_here : ((s.leaveTarget c t o).sendEntry e).here = s.here := rfl

theorem State.sendEntry_mem : ((s.leaveTarget c t o).sendEntry e).mem = s.mem := rfl

theorem State.sendEntry_enqueued : ((s.leaveTarget c t o).sendEntry e).enqueued = s.enqueued ++ [e] := rfl

theorem State.roomy_sendEntry : ((s.leaveTarget c t o).sendEntry e).roomy ↔ s.roomy := Iff.rfl

end Sent

theorem State.begun_entry (s : State) (i : Instr) (a b : BitVec 5) : (s.begun i).entry a b = s.entry a b := by
  simp only [State.entry, begun_r, begun_unit, begun_timeOf, begun_kv]

/-- The words that `renq` takes (R152). -/
def renqWord (v : Nat) : Prop := bits v 63 17 = 0 ∧ bits v 7 0 < Config.cores ∧ bits v 9 8 ≠ 3

/-- `renq` to a core that it may name is a timed push to that core's queue. -/
theorem renqBody_sends {s : State} {a b c : BitVec 5} (hv : renqWord (s.r b).toNat)
    (hs : s.sharesWith s.unit.core (bits (s.r b).toNat 7 0) = true) :
    renqBody a b c s = sendTimed .renq (timeout (s.r c)) (some (bits (s.r b).toNat 7 0, bits (s.r b).toNat 9 8))
      (s.partOf (bits (s.r b).toNat 7 0)) (State.remoteRoom · (bits (s.r b).toNat 7 0) (bits (s.r b).toNat 9 8))
      (State.sendEntry · (s.entry a b)) s := by
  obtain ⟨hz, hk, hq⟩ := hv
  unfold renqBody
  simp only
  rw [if_neg (by omega), if_neg (not_not_intro hs)]
  rfl

theorem renqBody_priv {s : State} {a b c : BitVec 5} (hv : renqWord (s.r b).toNat)
    (hs : s.sharesWith s.unit.core (bits (s.r b).toNat 7 0) = false) : renqBody a b c s = .trap .priv (s.r b) := by
  obtain ⟨hz, hk, hq⟩ := hv
  unfold renqBody
  simp only
  rw [if_neg (by omega), if_pos (ne_true_of_eq_false hs)]

/-- A `renq` that is not waiting already issues with its body. -/
theorem exec_renq {s : State} {a b c : BitVec 5} (hw : s.here.wait = .none) :
    exec (.renq a b c) s = issue (.renq a b c) (renqBody a b c) s := by
  show execRenq a b c s = _
  rw [execRenq, if_neg (by simp [hw])]

/-! ### REMOTE_ENQUEUE_ARRIVAL (R152) -/

/-- The state in which an entry has arrived, but for its flag. -/
def State.arrived (s : State) (c : Nat) (e : Enqueued) : State :=
  (({ s with enqueued := s.enqueued.erase e }).modLinks c fun l => l.vpush e.queue { cut := false, val := e.val }).logEvent c 2
    e.queue e.val.toNat

/-- The oldest entry sent to a live core that neither stops nor replays arrives where its queue has room. -/
theorem remoteEnqueueArrival_arrives {s : State} {c : Nat} {e : Enqueued} (hf : s.enqueued.find? (fun e => e.core == c) = some e)
    (hl : (s.core c).hasLive = true) (hd : (s.core c).dbg.stopped = false) (hv : (s.ctx c).links.vroom e.queue 1 = true)
    (hm : s.mayArrive e = true) (hr : (s.core c).watch.rplLive ≠ 2) :
    exec (.remoteEnqueueArrival c) s = match e.flag with
      | some f => .next ((s.arrived c e).bumpCore c { flag := f, time := e.time, kv := e.kv, src := .remote })
      | none => .next (s.arrived c e) := by
  simp only [show exec (.remoteEnqueueArrival c) s = execRemoteEnqueueArrival c s from rfl, execRemoteEnqueueArrival, hf]
  rw [if_neg (by simp [hl, hd, hv, hm]), if_neg hr]
  rfl

/-! ### task.post (R153) -/

/-- The state in which the pool has taken a record into its lowest free slot and D names it. -/
def State.posted (s : State) (o : Nat) (r : List Word) (d : BitVec 5) : State :=
  match s.freeSlot o with
  | some n => (s.accept o n r).setR d (BitVec.ofNat 64 n)
  | none => s

theorem State.posted_slot {s : State} {o n : Nat} (r : List Word) (d : BitVec 5) (h : s.freeSlot o = some n) :
    s.posted o r d = (s.accept o n r).setR d (BitVec.ofNat 64 n) := by simp only [State.posted, h]

section Post
variable {s s1 s2 : State} {d a b : BitVec 5} {l : Loc} {e : List Word}

/-- A `task.post` that reads its record and its program-table entry: refused, or a timed push to the pool. -/
theorem taskPostBody_reads (hg : isS (s.r a) = true) (hal : (s.r a).toNat % 64 = 0)
    (hr : s.resolve s.unit.core (s.r a) 64 true false = .at s1 l) {r : List Word} (hrec : r = wordsOf (s1.bytesAt s.unit.core l 64)) {o : Nat}
    (ho : o = s.partOf s.unit.core) (he : (s1.touched s.unit.core l 64).progEntry o (recProg r) = .ok (s2, e)) (hu : s2.unit = s.unit) :
    taskPostBody d a b s = if s2.recordOk o r e = true then
        sendTimed .taskPost (timeout (s.r b)) none o (fun s => (s.freeSlot o).isSome) (State.posted · o r d) s2
      else .done ((s2.setR d (-1)).expired false) 0 := by
  subst hrec ho
  unfold taskPostBody State.expired
  simp only [hr, he, State.setR_unit, hu]
  rw [if_neg (not_not_intro hg), if_neg (not_not_intro hal)]
  cases s2.recordOk (s.partOf s.unit.core) (wordsOf (s1.bytesAt s.unit.core l 64)) e <;> rfl

/-- A `task.post` that is not waiting already issues with its body. -/
theorem exec_taskPost (hw : s.here.wait = .none) :
    exec (.taskPost d a b) s = issue (.taskPost d a b) (taskPostBody d a b) s := by
  show execTaskPost d a b s = _
  rw [execTaskPost, if_neg (by simp [hw])]

end Post

/-- Settles O35: `renq` and `task.post` by what their timed push does, the arrival by the branch that its conditions choose. -/
theorem remoteWork : Obligations.RemoteWork := by
  unfold Obligations.RemoteWork
  refine ⟨?_, ?_, ?_⟩
  · intro s a b c h hw hroom i v k q me hz hk hq
    have hv : renqWord v := ⟨hz, hk, hq⟩
    rw [exec_renq hw]
    have hbegun : s.here.keeps (s.begun i).here none none := by rw [s.begun_here]; exact Seq.keeps_refl _ _ _
    refine ⟨fun hs => issue_trap h ?_, fun hs => ?_⟩
    · have := renqBody_priv (s := s.begun i) (a := a) (b := b) (c := c)
      simp only [State.begun_r, State.begun_unit] at this
      exact this hv hs
    · have hbody := renqBody_sends (s := s.begun i) (a := a) (b := b) (c := c)
      simp only [State.begun_r, State.begun_unit, State.begun_partOf, State.begun_entry] at hbody
      refine ⟨fun hf hr => ?_, fun hn ht => ?_⟩
      · have hmade := sendTimed_made (kind := .renq) (t := timeout (s.r c)) (target := some (k, q)) (owner := s.partOf k)
          (ready := (State.remoteRoom · k q)) (go := (State.sendEntry · (s.entry a b))) (s := s.begun i)
          (by rw [State.begun_unit]; exact hf) hr rfl
        obtain ⟨hpred, hreg, hmem, hsent⟩ :=
          (((s.begun i).leaveTarget (s.begun i).unit.core (some (k, q)) (s.partOf k)).sendEntry (s.entry a b)).expired_finish false
        simp only [State.sendEntry_here, State.sendEntry_mem, State.sendEntry_enqueued, State.begun_here, State.begun_mem,
          State.begun_enqueued] at hreg hmem hsent
        exact ⟨_, issue_done h ((hbody hv hs).trans hmade) ((State.roomy_expired false).2 ((State.roomy_sendEntry ..).2 ((State.roomy_begun i).2 hroom))),
          hsent, fun _ => hpred, hreg, hmem⟩
      · have hup := sendTimed_givenUp (kind := .renq) (target := some (k, q)) (owner := s.partOf k) (ready := (State.remoteRoom · k q))
          (go := (State.sendEntry · (s.entry a b))) (s := s.begun i) (by rw [State.begun_unit]; exact hn) ht
        obtain ⟨hpred, hreg, hmem, hsent⟩ := (s.begun i).expired_finish true
        simp only [State.begun_here, State.begun_mem, State.begun_enqueued] at hreg hmem hsent
        exact ⟨_, issue_done h ((hbody hv hs).trans hup) ((State.roomy_expired true).2 ((State.roomy_begun i).2 hroom)), hsent, fun _ => hpred,
          hreg, hmem⟩
  · intro s c e hf hl hd hv hm hr u
    have harr := remoteEnqueueArrival_arrives hf hl hd hv hm hr
    refine ⟨fun hflag => ?_, fun f hflag => ?_⟩
    · rw [hflag] at harr; exact harr
    · rw [hflag] at harr; exact harr
  · intro s s1 s2 d a b l e h hw hg hal i me hr r o he hu
    rw [exec_taskPost hw]
    have hbody := taskPostBody_reads (s := s.begun i) (s1 := s1) (s2 := s2) (d := d) (a := a) (b := b) (l := l) (e := e) (r := r) (o := o)
    simp only [State.begun_r, State.begun_unit] at hbody
    have hbody := hbody hg hal hr rfl rfl he hu
    refine ⟨?_, ?_⟩
    · intro hok hf n hn hn' u hroom
      have hpost : (s2.leaveTarget s2.unit.core none o).posted o r d = ((s2.leaveTarget me none o).accept o n r).setR d (BitVec.ofNat 64 n) := by
        rw [hu]; exact State.posted_slot r d hn'
      have hmade := sendTimed_made (kind := .taskPost) (t := timeout (s.r b)) (target := none) (owner := o)
        (ready := fun s => (s.freeSlot o).isSome) (go := (State.posted · o r d)) (s := s2) (by rw [hu]; exact hf) (by rw [hn]; rfl)
        (by rw [hpost]; rfl)
      have hu' : (((s2.leaveTarget me none o).accept o n r).setR d (BitVec.ofNat 64 n)).unit = s.unit := hu
      rw [if_pos hok, hmade, hpost] at hbody
      exact issue_done h (hbody.trans (congrArg (Res.done · 0) (State.expired_eq (t := s) hu' false))) hroom
    · intro hok u hroom
      rw [if_neg (ne_true_of_eq_false hok), State.expired, State.setR_unit, hu] at hbody
      exact issue_done h hbody hroom

end Sys2Proof.Machine
end

section
/-! PROOF. Peer handles (R156 to R159, R316). -/
namespace Sys2Proof.Machine

section Begun
variable (s : State) (i : Instr)

@[simp] theorem State.begun_cc : (s.begun i).cc = s.cc := by rw [s.begun_eq i]

@[simp] theorem State.begun_hub : (s.begun i).hub = s.hub := by rw [s.begun_eq i]

@[simp] theorem State.begun_exports : (s.begun i).exports = s.exports := by rw [s.begun_eq i]

@[simp] theorem State.begun_withdrawn : (s.begun i).withdrawn = s.withdrawn := by rw [s.begun_eq i]

end Begun

@[simp] theorem State.modPart_part (s : State) (o : Nat) (f : Part → Part) : (s.modPart o f).part o = f (s.part o) := by
  simp [State.part, State.modPart]

theorem State.part_of_parts {s t : State} (h : t.parts = s.parts) (o : Nat) : t.part o = s.part o := by simp only [State.part, h]

theorem State.here_of_cores {s t : State} (hc : t.cores = s.cores) (hu : t.unit = s.unit) : t.here = s.here := by
  simp only [here, seq, ctx, core, hc, hu]

theorem State.roomy_of_cores {s t : State} (hc : t.cores = s.cores) (hu : t.unit = s.unit) (h : s.roomy) : t.roomy :=
  roomy_of_atomic hu (by simp only [my, ctx, core, hc, hu]) h

/-- A unit whose body changes tables of the package alone and writes a register: D holds what was written, and the tables stand as changed. -/
theorem tables_done {s u : State} {i : Instr} {body : State → Res} {d : BitVec 5} {v : Word} (h : s.runs i)
    (hb : body (s.begun i) = .done (u.setR d v) 0) (hc : u.cores = (s.begun i).cores) (hu : u.unit = (s.begun i).unit) (hroom : s.roomy) :
    let t := (u.setR d v).finish 0 none
    issue i body s = .next t ∧ t.r d = v ∧ s.here.keeps t.here (some d.toNat) none ∧ t.parts = u.parts ∧ t.exports = u.exports
      ∧ t.withdrawn = u.withdrawn ∧ t.mem = u.mem := by
  have hhere : u.here = s.here := (State.here_of_cores hc hu).trans (s.begun_here i)
  have hur : u.roomy := State.roomy_of_cores hc hu ((State.roomy_begun i).2 hroom)
  obtain ⟨-, -, hseq⟩ := u.setR_keeps d v none
  obtain ⟨-, -, kseq⟩ := (u.setR d v).finish_keeps 0 none (some d.toNat) none
  refine ⟨issue_done h hb ((State.roomy_setR _ _).2 hur), ?_, ?_, rfl, rfl, rfl, rfl⟩
  · rw [State.finish_r, State.r, State.setR_here, Seq.setReg_reg]
  · exact hhere ▸ Seq.keeps_trans hseq kseq (by rw [State.setR_here]; rfl)

/-! ### peer.exp (R157) -/

/-- The state in which a `peer.exp` has taken an entry of its domain's table. -/
def State.exported (s : State) (key : Nat) (e : Export) : State :=
  { s with exports := put Export.none s.exports key e, hub := { s.hub with drawn := s.hub.drawn + 1 } }

/-- The entry that a `peer.exp` of an extent makes. -/
def State.newExport (s : State) (o : Nat) (a b c : BitVec 5) : Export :=
  { valid := true, owner := o, base := (s.r a).toNat, len := (s.r b).toNat, rights := (s.r c).extractLsb' 0 2, check := Config.check s.hub.drawn }

theorem State.begun_newExport (s : State) (i : Instr) (o : Nat) (a b c : BitVec 5) : (s.begun i).newExport o a b c = s.newExport o a b c := by
  simp only [State.newExport, begun_r, begun_hub]

theorem State.begun_exported (s : State) (i : Instr) (key : Nat) (e : Export) :
    ((s.begun i).exported key e).exports = put Export.none s.exports key e := by rw [← s.begun_exports i]; rfl

/-- How `peer.exp` of an aligned extent ends: as its pages are mapped and its domain has an entry (R157). -/
theorem peerExpBody_aligned {s : State} {d a b c : BitVec 5} (hc : bits (s.r c).toNat 63 2 = 0) (h1 : 65536 ≤ (s.r b).toNat)
    (h2 : (s.r b).toNat ≤ 2 ^ 40) (hg : isGlobal (s.r a) = true) (ha : (s.r a).toNat % 65536 = 0) (hb : (s.r b).toNat % 65536 = 0)
    {o : Nat} (ho : o = s.partOf s.unit.core) :
    peerExpBody d a b c s = match s.mapped o ((s.r b).toNat / 65536) (s.r a).toNat (s.r b).toNat with
      | .error (e, info) => .trap e info
      | .ok false => .done (s.setR d (-1)) 0
      | .ok true => match s.freeExport (domOfQuad o) with
        | none => .done (s.setR d (-2)) 0
        | some ix => .done ((s.exported (4096 * domOfQuad o + ix) (s.newExport o a b c)).setR d
            (handleOf (domOfQuad o) ix (Config.check s.hub.drawn))) 0 := by
  subst ho
  unfold peerExpBody State.exported State.newExport
  simp only
  have hlen : ¬ ((s.r b).toNat < 65536 ∨ 2 ^ 40 < (s.r b).toNat) := by omega
  refine (if_neg (not_not_intro hc)).trans ((if_neg hlen).trans ((if_neg (not_not_intro hg)).trans ((if_neg (not_not_intro ha)).trans
    ((if_neg (not_not_intro hb)).trans ?_))))
  cases s.mapped (s.partOf s.unit.core) ((s.r b).toNat / 65536) (s.r a).toNat (s.r b).toNat with
  | error e => rfl
  | ok m =>
    cases m with
    | false => rfl
    | true => cases s.freeExport (domOfQuad (s.partOf s.unit.core)) <;> rfl

/-! ### peer.imp (R158, R316) -/

section Import
variable {s : State} {d a b : BitVec 5}

theorem peerImpBody_waits (h : s.cc < (s.part (s.partOf s.unit.core)).impAfter) : peerImpBody d a b s = .stall .engine [] := if_pos h

theorem peerImpBody_revoked (h : (s.part (s.partOf s.unit.core)).impAfter ≤ s.cc) (hr : s.revoked (s.r a) = true) :
    peerImpBody d a b s = .trap .pageFault (walkInfo (s.r b).toNat 6 0) := by
  unfold peerImpBody
  simp only
  rw [if_neg (Nat.not_lt.2 h), if_pos hr]

/-- The state in which an import has been refused: a bad handle delays the partition's next one (R158). -/
def State.refused (s : State) (o : Nat) (e : Int) : State := if e = -1 then s.modPart o fun p => { p with impAfter := s.cc + 2 ^ 14 } else s

theorem State.refused_spec (s : State) (o : Nat) (e : Int) :
    (s.refused o e).cores = s.cores ∧ (s.refused o e).unit = s.unit ∧ (s.refused o e).mem = s.mem
      ∧ ((s.refused o e).part o).imports = (s.part o).imports ∧ (e = -1 → ((s.refused o e).part o).impAfter = s.cc + 2 ^ 14) := by
  unfold State.refused
  split
  · exact ⟨rfl, rfl, rfl, by rw [modPart_part], fun _ => by rw [modPart_part]⟩
  · rename_i hne; exact ⟨rfl, rfl, rfl, rfl, fun h => absurd h hne⟩

theorem peerImpBody_refused {e : Int} (h : (s.part (s.partOf s.unit.core)).impAfter ≤ s.cc) (hr : s.revoked (s.r a) = false)
    (hf : s.importFails (s.partOf s.unit.core) (s.r b).toNat (s.r a) = some e) :
    peerImpBody d a b s = .done ((s.refused (s.partOf s.unit.core) e).setR d (BitVec.ofInt 64 e)) 0 := by
  unfold peerImpBody
  simp only [hf]
  rw [if_neg (Nat.not_lt.2 h), if_neg (ne_true_of_eq_false hr)]
  rfl

/-- The state in which a partition has an import more. -/
def State.imported (s : State) (o off : Nat) (e : Export) (h : Word) : State :=
  s.modPart o fun p => { p with imports := { off := off, len := e.len, handle := h } :: p.imports }

theorem State.imported_imports (s : State) (o off : Nat) (e : Export) (h : Word) :
    ((s.imported o off e h).part o).imports = { off := off, len := e.len, handle := h } :: (s.part o).imports := by
  rw [State.imported, modPart_part]

theorem peerImpBody_imports {e : Export} (h : (s.part (s.partOf s.unit.core)).impAfter ≤ s.cc) (hr : s.revoked (s.r a) = false)
    (hf : s.importFails (s.partOf s.unit.core) (s.r b).toNat (s.r a) = none) (he : s.exportOf (s.r a) = some e) :
    peerImpBody d a b s = .done ((s.imported (s.partOf s.unit.core) (s.r b).toNat e (s.r a)).setR d 0) 0 := by
  unfold peerImpBody
  simp only [hf, he]
  rw [if_neg (Nat.not_lt.2 h), if_neg (ne_true_of_eq_false hr)]
  rfl

end Import

/-! ### peer.rel (R159) -/

section Release
variable {s : State} {d a : BitVec 5}

/-- The state in which a partition has the imports of a handle no more. -/
def State.unimported (s : State) (o : Nat) (h : Word) : State :=
  s.modPart o fun p => { p with imports := p.imports.filter fun i => i.handle != h }

theorem State.unimported_imports (s : State) (o : Nat) (h : Word) :
    ((s.unimported o h).part o).imports = (s.part o).imports.filter fun i => i.handle != h := by rw [State.unimported, modPart_part]

theorem peerRelBody_import (h : ((s.part (s.partOf s.unit.core)).imports.any fun i => i.handle == s.r a) = true) :
    peerRelBody d a s = .done ((s.unimported (s.partOf s.unit.core) (s.r a)).setR d 0) 0 := if_pos h

theorem peerRelBody_export {e : Export} (h : ((s.part (s.partOf s.unit.core)).imports.any fun i => i.handle == s.r a) = false)
    (he : s.exportOf (s.r a) = some e) (ho : e.owner = s.partOf s.unit.core) : peerRelBody d a s = .done ((s.revoke (s.r a)).setR d 0) 0 := by
  unfold peerRelBody
  simp only [he]
  rw [if_neg (ne_true_of_eq_false h), if_pos ho]

theorem peerRelBody_neither (h : ((s.part (s.partOf s.unit.core)).imports.any fun i => i.handle == s.r a) = false)
    (he : ∀ e, s.exportOf (s.r a) = some e → e.owner ≠ s.partOf s.unit.core) : peerRelBody d a s = .done (s.setR d (-1)) 0 := by
  unfold peerRelBody
  simp only
  rw [if_neg (ne_true_of_eq_false h)]
  cases hx : s.exportOf (s.r a) with
  | none => rfl
  | some e => exact if_neg (he e hx)

end Release

/-- Settles O37: each instruction ends as the case of its body says, which its conditions choose. -/
theorem peerResults : Obligations.PeerResults := by
  unfold Obligations.PeerResults
  refine ⟨?_, ?_, ?_⟩
  · intro s d a b c h hroom hc h1 h2 hg ha hb i o dom
    have hbody := peerExpBody_aligned (s := s.begun i) (d := d) (a := a) (b := b) (c := c)
    simp only [State.begun_r, State.begun_unit] at hbody
    have hbody := hbody hc h1 h2 hg ha hb (o := o) rfl
    refine ⟨fun hm => ?_, fun e info hm => ?_, fun hm => ⟨fun hx => ?_, fun ix hx => ?_⟩⟩
    · rw [hm] at hbody
      obtain ⟨hd, hkeep⟩ := s.begun_setR_done i d (-1) 0
      exact ⟨_, issue_done h hbody ((State.roomy_setR _ _).2 ((State.roomy_begun i).2 hroom)), hd, hkeep⟩
    · rw [hm] at hbody
      exact issue_trap (body := peerExpBody d a b c) h hbody
    · rw [hm] at hbody
      simp only [show (s.begun i).freeExport (domOfQuad o) = none from hx] at hbody
      obtain ⟨hd, hkeep⟩ := s.begun_setR_done i d (-2) 0
      exact ⟨_, issue_done h hbody ((State.roomy_setR _ _).2 ((State.roomy_begun i).2 hroom)), hd, hkeep⟩
    · rw [hm] at hbody
      simp only [show (s.begun i).freeExport (domOfQuad o) = some ix from hx, State.begun_newExport, State.begun_hub] at hbody
      obtain ⟨he, hd, hkeep, -, hexp, -, hmem⟩ := tables_done h hbody rfl rfl hroom
      exact ⟨_, he, hd, hexp.trans (State.begun_exported ..), hkeep, hmem.trans (s.begun_mem i)⟩
  · intro s d a b h hroom i o p
    refine ⟨fun ht hr => ?_, fun ht hr => ⟨fun e hf => ?_, fun e hf he => ?_⟩, fun ht => ?_⟩
    · refine issue_trap (body := peerImpBody d a b) h ?_
      have k := peerImpBody_revoked (s := s.begun i) (d := d) (a := a) (b := b)
      simp only [State.begun_r, State.begun_unit, State.begun_cc] at k
      exact k ht hr
    · have k := peerImpBody_refused (s := s.begun i) (d := d) (a := a) (b := b) (e := e)
      simp only [State.begun_r, State.begun_unit, State.begun_cc] at k
      obtain ⟨hcores, hunit, hmem', himp, hafter⟩ := (s.begun i).refused_spec o e
      obtain ⟨he, hd, hkeep, hparts, -, -, hmem⟩ := tables_done h (k ht hr hf) hcores hunit hroom
      have hpart := State.part_of_parts hparts o
      refine ⟨_, he, hd, fun hm => ?_, ?_, (hmem.trans hmem').trans (s.begun_mem i)⟩
      · rw [hpart, hafter hm, s.begun_cc]
      · rw [hpart, himp]
    · have k := peerImpBody_imports (s := s.begun i) (d := d) (a := a) (b := b) (e := e)
      simp only [State.begun_r, State.begun_unit, State.begun_cc] at k
      obtain ⟨he, hd, hkeep, hparts, -, -, hmem⟩ := tables_done h (k ht hr hf he) rfl rfl hroom
      refine ⟨_, he, hd, ?_, hmem.trans (s.begun_mem i)⟩
      rw [State.part_of_parts hparts o, State.imported_imports]
    · refine issue_stall (body := peerImpBody d a b) h ?_
      have k := peerImpBody_waits (s := s.begun i) (d := d) (a := a) (b := b)
      simp only [State.begun_unit, State.begun_cc] at k
      exact k ht
  · intro s d a h hroom i o held
    refine ⟨fun hh => ?_, fun hh e he ho => ?_, fun hh he => ?_⟩
    · have k := peerRelBody_import (s := s.begun i) (d := d) (a := a)
      simp only [State.begun_r, State.begun_unit] at k
      obtain ⟨he, hd, -, hparts, hexp, -, hmem⟩ := tables_done h (k hh) rfl rfl hroom
      refine ⟨_, he, hd, ?_, hexp.trans (s.begun_exports i), hmem.trans (s.begun_mem i)⟩
      rw [State.part_of_parts hparts o, State.unimported_imports]
    · have k := peerRelBody_export (s := s.begun i) (d := d) (a := a) (e := e)
      simp only [State.begun_r, State.begun_unit] at k
      obtain ⟨hx, hd, -, -, hexp, hwd, hmem⟩ := tables_done h (k hh he ho) rfl rfl hroom
      refine ⟨_, hx, hd, hexp.trans ?_, hwd.trans ?_, hmem.trans (s.begun_mem i)⟩
      · rw [← s.begun_exports i]; rfl
      · rw [← s.begun_withdrawn i]; rfl
    · have k := peerRelBody_neither (s := s.begun i) (d := d) (a := a)
      simp only [State.begun_r, State.begun_unit] at k
      obtain ⟨hd, hkeep⟩ := s.begun_setR_done i d (-1) 0
      exact ⟨_, issue_done h (k hh he) ((State.roomy_setR _ _).2 ((State.roomy_begun i).2 hroom)), hd, hkeep⟩

end Sys2Proof.Machine
end

section
/-! PROOF. The encoders (R160, R161): a submission entered, started and completed. -/
namespace Sys2Proof.Machine

/-! ### venc (R160) -/

/-- The extents of a submission with its descriptor's bytes at an address (R160). -/
def vencExtents (desc : List Byte) (addr target : Word) : List (Nat × Word × Nat × Bool × Bool) :=
  [(1, addr, 64, true, true), (0, BitVec.ofNat 64 (descNat desc 16 8), descNat desc 24 4, false, true),
    (3, if BitVec.ofNat 64 (descNat desc 32 8) = 0 then 0xFE000000000000 else BitVec.ofNat 64 (descNat desc 32 8), 16, true, false),
    (2, if isBarTarget target then target else 0xFE000000000000, barExtent, true, true)]

/-- The submission that enters the queue of engine j. -/
def State.submission (s : State) (c : Nat) (desc : List Byte) (addr target : Word) (j : Nat) (hs : List PageHold) (task : Option Aim) : Submission :=
  { desc := desc, at_ := addr, core := c, number := (s.die (Config.dieOf c)).number, engine := j, target := target, holds := hs, task := task
    coded := false, bad := false }

/-- The state in which a submission has entered its die's queue, and the next has the next number. -/
def State.submitted (s : State) (die : Nat) (sub : Submission) : State :=
  s.modDie die fun x => { x with queue := x.queue ++ [sub], number := ((s.die die).number + 1) % 65536 }

/-- A `venc` whose descriptor is read and whose extents translate: refused, or entered at the lowest engine with room (R160, R305). -/
theorem vencBody_holds {s s1 s2 : State} {d a b : BitVec 5} {l : Loc} {hs : List PageHold}
    (hg : (isGlobal (s.r a) || isC (s.r a)) = true) (hal : (s.r a).toNat % 64 = 0)
    (ht : isBarTarget (s.r b) = true → placeOf (s.r b) ≠ .bad ∧ (s.r b).toNat % 16 = 0 ∧ s1.windowFault s.unit.core (s.r b) barExtent = none)
    (hr : s.resolve s.unit.core (s.r a) 64 true true = .at s1 l) (hwait : s1.waitsAt s.unit.core l = false)
    (hu : s1.uncorrAt s.unit.core l 64 = false)
    (hh : (s1.touched s.unit.core l 64).holdAll s.unit.core (vencExtents (s1.bytesAt s.unit.core l 64) (s.r a) (s.r b)) = .ok (s2, hs)) :
    vencBody d a b s = match (s2.die (Config.dieOf s.unit.core)).queueFor (s.partOf s.unit.core) with
      | none => .done (s2.setR d (-1)) 0
      | some j => .done ((s2.submitted (Config.dieOf s.unit.core)
          (s2.submission s.unit.core (s1.bytesAt s.unit.core l 64) (s.r a) (s.r b) j hs (s.aim s.unit.core))).setR d
            (BitVec.ofNat 64 (s2.die (Config.dieOf s.unit.core)).number)) 0 := by
  unfold vencExtents at hh
  have hbad : ¬ (isBarTarget (s.r b) = true ∧ placeOf (s.r b) = .bad) := fun h => (ht h.1).1 h.2
  have hmis : ¬ (isBarTarget (s.r b) = true ∧ (s.r b).toNat % 16 ≠ 0) := fun h => h.2 (ht h.1).2.1
  have hwin : (if isBarTarget (s.r b) = true then s1.windowFault s.unit.core (s.r b) barExtent else none) = none := by
    split
    · rename_i h; exact (ht h).2.2
    · rfl
  unfold vencBody
  simp only [hr, hwait, hu, hwin, hh]
  rw [if_neg (not_not_intro hg), if_neg hbad, if_neg (not_not_intro hal), if_neg hmis, if_neg (by simp), if_neg (by simp)]
  cases (s2.die (Config.dieOf s.unit.core)).queueFor (s.partOf s.unit.core) <;> rfl

/-! ### The engines (R161) -/

/-- An idle engine takes the next eligible submission. -/
theorem encoderStart_takes {s : State} {die engine : Nat} {sub : Submission} (hb : get none (s.die die).busy engine = none)
    (hn : s.nextFor die engine = some sub) :
    exec (.encoderStart die engine) s
      = .next (s.modDie die fun x => { x with queue := x.queue.erase sub, busy := put none x.busy engine (some sub) }) := by
  simp only [show exec (.encoderStart die engine) s = execEncoderStart die engine s from rfl, execEncoderStart, hb, hn]
  rfl

/-- A frame of the live context is coded: what the engine holds it for is freed, and its stream goes on from it (R161). -/
def State.freeEngine (s : State) (die engine : Nat) (sub : Submission) (input : List Byte) : State :=
  s.modDie die fun x =>
    { x with busy := put none x.busy engine none, started := put false x.started sub.sid true, last := put [] x.last sub.sid input }

/-- The completion is recorded for a live context alone. -/
def State.tellEncoder (s : State) (away : Bool) (c status : Nat) : State := if away then s else s.encoderDone c status

/-- What the encoder has taken in of a submission's stream, this frame included. -/
def State.streamInput (s : State) (die : Nat) (sub : Submission) : List Byte :=
  get [] (s.die die).last sub.sid ++ (sub.params (!get false (s.die die).started sub.sid) ++ (s.frame sub).1)

/-- The status of a frame that is coded now: BAD where a line of it was uncorrectable (R161). -/
def State.frameStatus (s : State) (sub : Submission) : Nat := if (s.frame sub).2 then setStatus 0 17 else 0

/-- A frame coded for the first time, whose output every home takes and performs, meets its target (R161). -/
theorem encoderCompletion_ends {s : State} {die engine : Nat} {sub : Submission} (hb : get none (s.die die).busy engine = some sub)
    (hc : sub.coded = false) {v : State}
    (hw : s.writeAt sub.core (decide (s.aim sub.core ≠ sub.task)) sub.command (sub.output (Config.encoded (s.streamInput die sub))) = (v, true))
    (hd : v.engineDone sub.core = true) :
    let away := decide (s.aim sub.core ≠ sub.task)
    let free := fun (u : State) => u.freeEngine die engine sub (s.streamInput die sub)
    let hit := v.hitTarget sub.core away { sub.command with status := s.frameStatus sub }
    (isFlagTarget sub.target = true → exec (.encoderCompletion die engine) s = .next (((free v).bumpFor sub.task sub.core
        { flag := bits sub.target.toNat 5 0, time := s.timeOf (48 + die), kv := (v.core sub.core).kv, src := .encoder }).tellEncoder away sub.core
          (s.frameStatus sub)))
    ∧ (isFlagTarget sub.target = false → hit.2 = true →
        exec (.encoderCompletion die engine) s = .next ((free hit.1).tellEncoder away sub.core (s.frameStatus sub))) := by
  intro away free hit
  unfold State.streamInput at hw
  have e : exec (.encoderCompletion die engine) s = execEncoderCompletion die engine s := rfl
  simp only [e, execEncoderCompletion, hb, hc, Bool.false_eq_true, if_false, hw]
  rw [if_neg (not_not_intro trivial), if_neg (not_not_intro hd)]
  refine ⟨fun hf => ?_, fun hf ht => ?_⟩
  · rw [if_pos hf]; rfl
  · rw [if_neg (ne_true_of_eq_false hf)]; exact if_pos ht

/-- Settles O38: a submission entered (R160), taken by an idle engine, and completed (R161), each by its lemma above. -/
theorem encoderResults : Obligations.EncoderResults := by
  unfold Obligations.EncoderResults
  refine ⟨?_, fun s die engine sub hb hn => encoderStart_takes hb hn, ?_⟩
  · intro s s1 s2 d a b l hs h i c hg hal ht hr hwait hu desc hh hunit die
    have k := vencBody_holds (s := s.begun i) (s1 := s1) (s2 := s2) (d := d) (a := a) (b := b) (l := l) (hs := hs)
    simp only [State.begun_r, State.begun_unit, State.begun_aim] at k
    have k := k hg hal ht hr hwait hu hh
    refine ⟨?_, ?_⟩
    · intro hq hroom
      rw [hq] at k
      exact issue_done (body := vencBody d a b) h k hroom
    · intro j hq n sub u hroom
      rw [hq] at k
      exact issue_done (body := vencBody d a b) h k hroom
  · intro s die engine sub hb hc c past input out max away status w v free tell hw hd
    exact encoderCompletion_ends hb hc (Prod.ext rfl hw) hd

end Sys2Proof.Machine
end

section
/-! PROOF. The package (R258, R265, R385, R386, R393 to R400): what each of its events does, and what the records of a rail sample leave. -/
namespace Sys2Proof.Machine

/-! ### Frequency and power control (R393, R394, R397) -/

/-- A write of FREQAT is refused where NEXT names no point or TIME AT comes too soon (R393). -/
theorem State.freqRefused_iff (s : State) (v : Word) :
    s.freqRefused v = true ↔ 4 < s.power.next.toNat ∨ v.toNat < s.time + 4000 := by
  simp [State.freqRefused]

/-- FREQAT_WRITE arms a change to NEXT, or is refused with ERR (R393). -/
theorem exec_freqatWrite (s : State) (v : Word) : exec (.freqatWrite v) s = .next (s.modPower fun p =>
    if 4 < p.next.toNat ∨ v.toNat < s.time + 4000 then { p with err := true }
    else { p with at_ := v, armed := p.next.toNat, pend := true }) := by
  simp only [show exec (.freqatWrite v) s = execFreqatWrite v s from rfl, execFreqatWrite, State.freqRefused_iff, State.modPower]
  split <;> rfl

/-- An armed change that is due, with no change of CEIL under way, takes effect alone (R394). -/
theorem Power.change_armed {p : Power} {time : Nat} (hp : p.pend = true) (ht : p.at_.toNat ≤ time) (hc : p.ceilAt = none) :
    p.change time = { p with request := p.armed, pend := false, cur := Nat.max p.armed p.ceilOn } := by
  simp only [Power.change, if_pos (And.intro hp ht), hc]

theorem frequencyChange_armed {s : State} (hp : s.power.pend = true) (ht : s.power.at_.toNat ≤ s.time) :
    exec .frequencyChange s = .next { s.modPower (Power.change · s.time) with
      ttFrac := s.ttFrac * pointMhz (s.power.change s.time).cur / pointMhz s.power.cur } :=
  if_pos (by simp only [Power.due, hp, ht, decide_true, Bool.and_self, Bool.true_or])

/-- A draw above the limit lowers CEIL to the fastest point that meets it (R397). -/
theorem Power.control_falls {p : Power} {w : Nat} (time : Nat) (h : p.bound < w) :
    p.control w time = { p with ceil := fastestWithin w p.cur p.bound, ceilAt := some (time + 4000), quiet := 0 } := if_pos h

/-- The hundredth quiet window raises CEIL by a point at which the draw would meet the limit (R397). -/
theorem Power.control_rises {p : Power} {w : Nat} (time : Nat) (hw : 20 * w ≤ 19 * p.bound) (hq : 99 ≤ p.quiet) (hc : p.ceil ≠ 0)
    (hm : w * pointMhz (p.ceil - 1) ≤ p.bound * pointMhz p.cur) :
    p.control w time = { p with ceil := p.ceil - 1, ceilAt := some (time + 4000), quiet := 0 } := by
  have hfall : ¬ p.bound < w := by omega
  have hmore : ¬ p.quiet + 1 < 100 := by omega
  have hstay : ¬ (p.ceil = 0 ∨ p.bound * pointMhz p.cur < w * pointMhz (p.ceil - 1)) :=
    fun h => h.elim hc fun h => Nat.not_lt.2 hm h
  unfold Power.control
  rw [if_neg hfall, if_pos hw, if_neg hmore, if_neg hstay]

theorem powerControlWindow_ends {s : State} (w : Nat) (h : s.hub.window ≤ s.time) : exec (.powerControlWindow w) s =
    .next ((s.modPower fun p => p.control w s.time).modHub fun h => { h with window := h.window + 400000 }) :=
  congrArg Host.Outcome.next (if_neg (Nat.not_lt.2 h))

/-! ### What the records of a rail sample leave -/

/-- What the sampling of a rail leaves: the cores, the power registers, the quads, and PWR of every trace ring. -/
structure State.KeepsSampling (s t : State) : Prop where
  cores : t.cores = s.cores
  power : t.power = s.power
  quads : t.quads = s.quads
  hyp : t.hub.trace.pwr = s.hub.trace.pwr
  guest : ∀ o, (t.part o).trace.pwr = (s.part o).trace.pwr

theorem State.KeepsSampling.refl (s : State) : s.KeepsSampling s := ⟨rfl, rfl, rfl, rfl, fun _ => rfl⟩

theorem State.KeepsSampling.trans {s t u : State} (h : s.KeepsSampling t) (k : t.KeepsSampling u) : s.KeepsSampling u :=
  ⟨k.cores.trans h.cores, k.power.trans h.power, k.quads.trans h.quads, k.hyp.trans h.hyp, fun o => (k.guest o).trans (h.guest o)⟩

/-- A change of a partition that leaves PWR of its guest ring leaves what sampling leaves. -/
theorem State.keepsSampling_modPart (s : State) (o : Nat) (f : Part → Part) (h : (f (s.part o)).trace.pwr = (s.part o).trace.pwr) :
    s.KeepsSampling (s.modPart o f) := by
  refine ⟨rfl, rfl, rfl, rfl, fun p => ?_⟩
  by_cases e : o = p
  · subst e; rw [State.modPart_part, h]
  · rw [State.part, State.modPart, get_update_other _ _ _ e]; rfl

theorem State.keepsSampling_applyAt (s : State) (pa : Nat) (bs : List Byte) : s.KeepsSampling (s.applyAt pa bs) := by
  rw [State.applyAt_eq]; exact ⟨rfl, rfl, rfl, rfl, fun _ => rfl⟩

/-- A walk on behalf of no die binds nothing: at most its translation is kept (R311). -/
theorem State.walk_noDie {s t : State} {o va pa v z : Nat} {rd wr user : Bool} (h : s.walk o none va rd wr user = .ok t pa v z) :
    t = s ∨ ∃ k : Kept, t = s.modPart o fun p => { p with kept := k :: p.kept } := by
  simp only [State.walk] at h
  split at h
  · cases h
  · split at h
    · exact .inl (State.useLeaf_walkedTo h)
    · split at h
      · cases h
      · split at h
        · cases h
        · have ht := State.useLeaf_walkedTo h
          split at ht
          · exact .inr ⟨_, ht⟩
          · exact .inl ht

theorem State.keepsSampling_hubWrite {s t : State} {o va : Nat} {bs : List Byte} (h : s.hubWrite o va bs = some t) : s.KeepsSampling t := by
  simp only [State.hubWrite] at h
  split at h
  · rename_i u pa _ _ hw
    cases h
    obtain rfl | ⟨k, rfl⟩ := State.walk_noDie hw
    · exact u.keepsSampling_applyAt _ _
    · exact (s.keepsSampling_modPart o _ rfl).trans (State.keepsSampling_applyAt _ _ _)
  · cases h

/-- One record written into a ring with room, or dropped; whether it was written. -/
def pushOne (write : State → Nat → List Byte → Option State) (s : State) (t : TraceRing) (b : List Byte) : State × TraceRing × Bool :=
  if (t.head - t.tail).toNat != t.size then
    match write s (t.head.toNat % t.size * 32) b with
    | some s1 => (s1, { t with head := t.head + 1 }, true)
    | none => (s, { t with ovf := true, lost := t.lost + 1 }, false)
  else (s, { t with ovf := true, lost := t.lost + 1 }, false)

/-- A record is pushed as one write, or as two where a LOST record comes first (R372). -/
theorem pushRecord_eq (t : TraceRing) (s : State) (write : State → Nat → List Byte → Option State) (lost rec : List Byte) :
    pushRecord t s write lost rec =
      if ¬ t.en then (s, t)
      else if t.lost = 0 then ((pushOne write s t rec).1, (pushOne write s t rec).2.1)
      else
        let a := pushOne write s t lost
        if a.2.2 then ((pushOne write a.1 { a.2.1 with lost := 0 } rec).1, (pushOne write a.1 { a.2.1 with lost := 0 } rec).2.1)
        else (a.1, a.2.1) := rfl

section
variable {write : State → Nat → List Byte → Option State} (hw : ∀ s off b u, write s off b = some u → s.KeepsSampling u)
include hw

theorem pushOne_keepsSampling (s : State) (t : TraceRing) (b : List Byte) :
    s.KeepsSampling (pushOne write s t b).1 ∧ (pushOne write s t b).2.1.pwr = t.pwr := by
  unfold pushOne
  split
  · split
    · rename_i h; exact ⟨hw _ _ _ _ h, rfl⟩
    · exact ⟨.refl s, rfl⟩
  · exact ⟨.refl s, rfl⟩

/-- A record pushed into a ring leaves what its writes leave, and the ring's PWR. -/
theorem pushRecord_keepsSampling (t : TraceRing) (s : State) (lost rec : List Byte) :
    s.KeepsSampling (pushRecord t s write lost rec).1 ∧ (pushRecord t s write lost rec).2.pwr = t.pwr := by
  rw [pushRecord_eq]
  split
  · exact ⟨.refl s, rfl⟩
  · split
    · exact pushOne_keepsSampling hw s t rec
    · obtain ⟨ha, hp⟩ := pushOne_keepsSampling hw s t lost
      dsimp only
      split
      · obtain ⟨hb, hq⟩ := pushOne_keepsSampling hw (pushOne write s t lost).1 { (pushOne write s t lost).2.1 with lost := 0 } rec
        exact ⟨ha.trans hb, hq.trans hp⟩
      · exact ⟨ha, hp⟩

end

/-- A record for the hyp ring leaves what sampling leaves. -/
theorem State.keepsSampling_traceHyp (s : State) (rec : List Byte) : s.KeepsSampling (s.traceHyp rec) := by
  simp only [State.traceHyp]
  split
  · exact .refl s
  · obtain ⟨hs, hp⟩ := pushRecord_keepsSampling (write := fun s' off b => some (s'.applyAt (s.hub.trace.base.toNat * 64 + off) b))
      (fun u _ _ _ hw => by cases hw; exact u.keepsSampling_applyAt _ _) s.hub.trace s
      (recordBytes s.time 8 0xFF 0 noName (Nat.min s.hub.trace.lost (2 ^ 32 - 1))) rec
    exact ⟨hs.cores, hs.power, hs.quads, hp, hs.guest⟩

/-- A record for a guest ring leaves what sampling leaves. -/
theorem State.keepsSampling_pushGuest (s : State) (o : Nat) (rec : List Byte) : s.KeepsSampling (s.pushGuest o rec) := by
  simp only [State.pushGuest]
  obtain ⟨hs, hp⟩ := pushRecord_keepsSampling (write := fun s' off b => s'.hubWrite o ((s.part o).trace.base.toNat * 64 + off) b)
    (fun _ _ _ _ hw => State.keepsSampling_hubWrite hw) (s.part o).trace s
    (recordBytes s.time 8 0xFF 0 noName (Nat.min (s.part o).trace.lost (2 ^ 32 - 1))) rec
  exact hs.trans (State.keepsSampling_modPart _ o _ (hp.trans (hs.guest o).symm))

/-! ### RAIL_SAMPLE (R385, R386) -/

/-- A state with a sensor's record in the guest ring of the partition whose active quad's rail it measures, where, in a state r, that ring has
PWR. -/
def State.sampleGuest (r : State) (rec : Nat → List Byte) (a : State) (n : Nat) : State :=
  match sensorQuad n with
  | some q => if (r.quad q).active = true ∧ (r.part (r.ownerOf q)).trace.pwr = true then a.pushGuest (r.ownerOf q) (rec n) else a
  | none => a

/-- A state with a sensor's record in the hyp ring, where, in a state r, that ring has PWR. -/
def State.sampleHyp (r : State) (rec : Nat → List Byte) (a : State) (n : Nat) : State :=
  if r.hub.trace.pwr = true then a.traceHyp (rec n) else a

/-- A state with a sensor's record in the rings that, in a state r, take it. -/
def State.sample (r : State) (rec : Nat → List Byte) (a : State) (n : Nat) : State := r.sampleHyp rec (r.sampleGuest rec a n) n

section
variable {r : State} {rec : Nat → List Byte} {a : State} {n : Nat}

theorem State.keepsSampling_sampleGuest : a.KeepsSampling (r.sampleGuest rec a n) := by
  unfold State.sampleGuest
  split
  · split
    · exact a.keepsSampling_pushGuest _ _
    · exact .refl a
  · exact .refl a

theorem State.keepsSampling_sampleHyp : a.KeepsSampling (r.sampleHyp rec a n) := by
  unfold State.sampleHyp
  split
  · exact a.keepsSampling_traceHyp _
  · exact .refl a

theorem State.keepsSampling_sample : a.KeepsSampling (r.sample rec a n) :=
  State.keepsSampling_sampleGuest.trans State.keepsSampling_sampleHyp

/-- Which guest ring takes a sensor's record is the same after other records. -/
theorem State.KeepsSampling.sampleGuest_eq {s : State} (k : s.KeepsSampling r) : r.sampleGuest rec a n = s.sampleGuest rec a n := by
  have hq : r.quad = s.quad := funext fun q => by simp only [State.quad, k.quads]
  have ho : r.ownerOf = s.ownerOf := funext fun q => by simp only [State.ownerOf, hq]
  simp only [State.sampleGuest, hq, ho, k.guest]

theorem State.KeepsSampling.sampleHyp_eq {s : State} (k : s.KeepsSampling r) : r.sampleHyp rec a n = s.sampleHyp rec a n := by
  simp only [State.sampleHyp, k.hyp]

end

/-- Samples that each look at the state the ones before have left are samples that look at the first: no record changes which
rings take the next. -/
theorem State.KeepsSampling.foldl_sample {s a : State} (k : s.KeepsSampling a) (rec : Nat → List Byte) (l : List Nat) :
    l.foldl (fun a n => (a.sampleGuest rec a n).sampleHyp rec (a.sampleGuest rec a n) n) a = l.foldl (s.sample rec) a := by
  induction l generalizing a with
  | nil => rfl
  | cons n l ih =>
    have hg : a.sampleGuest rec a n = s.sampleGuest rec a n := k.sampleGuest_eq
    have hs : (s.sampleGuest rec a n).sampleHyp rec (s.sampleGuest rec a n) n = s.sample rec a n :=
      (k.trans State.keepsSampling_sampleGuest).sampleHyp_eq
    rw [List.foldl_cons, List.foldl_cons, hg, hs]
    exact ih (k.trans State.keepsSampling_sample)

/-- RAIL_SAMPLE writes the record of each sensor in use into the rings that the state before it names. -/
theorem railSample_eq (s : State) : exec .railSample s =
    .next { ((List.range sensors).filter sensorUsed).foldl (s.sample s.powerRecord) s with free := s.free + 132 } := by
  rw [← (State.KeepsSampling.refl s).foldl_sample]
  rfl

/-- The quads whose rails the sensors measure are those of the package (R385). -/
theorem sensorQuad_lt {n q : Nat} (h : sensorQuad n = some q) : q < 48 := by
  unfold sensorQuad at h
  split at h
  · cases h; omega
  · cases h

theorem State.sampleGuest_off {s : State} (h : ∀ q, q < 48 → (s.part (s.ownerOf q)).trace.pwr = false) (rec : Nat → List Byte) (a : State)
    (n : Nat) : s.sampleGuest rec a n = a := by
  unfold State.sampleGuest
  split
  · rename_i q hq
    rw [h q (sensorQuad_lt hq)]
    exact if_neg fun k => Bool.false_ne_true k.2
  · rfl

/-- Without PWR in a guest ring, a sample is that of the hyp ring. -/
theorem State.sample_hyp {s : State} (hh : s.hub.trace.pwr = true) (hg : ∀ q, q < 48 → (s.part (s.ownerOf q)).trace.pwr = false) :
    s.sample s.powerRecord = fun a n => a.traceHyp (s.powerRecord n) :=
  funext fun a => funext fun n => by rw [State.sample, State.sampleGuest_off hg, State.sampleHyp, if_pos hh]

/-- Without PWR in the hyp ring, a sample is that of the guest rings. -/
theorem State.sample_guest {s : State} (hh : s.hub.trace.pwr = false) : s.sample s.powerRecord = s.sampleGuest s.powerRecord :=
  funext fun a => funext fun n => by rw [State.sample, State.sampleHyp, if_neg (by simp [hh])]

/-- Without PWR in any ring, sampling writes nothing. -/
theorem State.foldl_sample_off {s : State} (hh : s.hub.trace.pwr = false) (hg : ∀ q, q < 48 → (s.part (s.ownerOf q)).trace.pwr = false)
    (l : List Nat) : l.foldl (s.sample s.powerRecord) s = s := by
  induction l with
  | nil => rfl
  | cons n l ih =>
    have hs : s.sample s.powerRecord s n = s := by rw [State.sample_guest hh, State.sampleGuest_off hg]
    rw [List.foldl_cons, hs, ih]

theorem State.foldl_sample_keeps (s : State) (l : List Nat) : s.KeepsSampling (l.foldl (s.sample s.powerRecord) s) :=
  List.foldlRecOn l _ (motive := fun a => s.KeepsSampling a) (.refl s) fun _ k _ _ => k.trans State.keepsSampling_sample

/-- CORR of the cores of the quad whose rail a sensor measures, 0 for another sensor (R386). -/
def State.sensorCorr (s : State) (n : Nat) : List Byte :=
  match sensorQuad n with
  | some q => (quadCores q).flatMap fun c => leBytes 4 (s.corr c)
  | none => List.replicate 16 0#8

theorem State.length_sensorCorr (s : State) (n : Nat) : (s.sensorCorr n).length = 16 := by
  unfold State.sensorCorr
  split
  · simp [quadCores, length_leBytes]
  · rfl

/-- A power record is its TIME, KIND and sensor, and then its current, voltage and CORRs (R386). -/
theorem State.powerRecord_eq (s : State) (n : Nat) :
    let w := (Config.freeWord (s.free + n)).toNat
    s.powerRecord n = (leBytes 8 s.time ++ leBytes 1 7 ++ leBytes 1 n)
      ++ (leBytes 2 (bits w 15 0) ++ leBytes 2 (bits w 31 16) ++ leBytes 2 0 ++ s.sensorCorr n) := by
  simp only [State.powerRecord, List.append_assoc]
  rfl

/-- A power record begins with TIME, KIND 7 and the sensor's number, and is 32 bytes long (R386). -/
theorem State.powerRecord_form (s : State) (n : Nat) :
    (s.powerRecord n).take 10 = leBytes 8 s.time ++ leBytes 1 7 ++ leBytes 1 n ∧ (s.powerRecord n).length = 32 := by
  rw [s.powerRecord_eq n]
  exact ⟨List.take_left' (by simp [length_leBytes]), by simp [length_leBytes, State.length_sensorCorr]⟩

/-! ### Wear and the time base (R395, R398, R400) -/

theorem wearselWrite_sets (s : State) {v : Word} (h : bits v.toNat 5 0 ≤ 56) :
    exec (.wearselWrite v) s = .next (s.modPower fun p => { p with wearsel := v.extractLsb' 0 6 }) := if_pos h

theorem wearUpdate_draws (s : State) {r : Nat} (h : r ≤ 56) : exec (.wearUpdate r) s =
    .next { s.modPower (fun p => { p with wear := put 0xFFFF#64 p.wear r (Config.freeWord s.free) }) with free := s.free + 1 } :=
  if_neg (Nat.not_lt.2 h)

/-- The state with a region's last correction at its present count. -/
def State.noteCorrection (s : State) (r : Nat) : State := { s with corrected := put 0 s.corrected r (s.time + 1) }

section
variable (s : State) {r : Nat}

/-- A region that is ahead holds its count on a tick. -/
theorem timeCorrection_holds (hr : r ≠ 56) (hl : get 0 s.lag r < 2) (ht : s.ticked = true) (hc : get 0 s.corrected r ≤ s.time) :
    exec (.timeCorrection r true) s = .next { s.noteCorrection r with lag := put 0 s.lag r (get 0 s.lag r + 1) } :=
  (if_neg hr).trans ((if_pos rfl).trans (if_pos ⟨ht, hl, hc⟩))

/-- A region that is behind takes an extra tick, once in 64. -/
theorem timeCorrection_adds (hr : r ≠ 56) (hc : get 0 s.corrected r = 0 ∨ get 0 s.corrected r + 63 ≤ s.time) :
    exec (.timeCorrection r false) s = .next { s.noteCorrection r with lag := put 0 s.lag r (get 0 s.lag r - 1) } :=
  (if_neg hr).trans ((if_neg Bool.false_ne_true).trans (if_pos hc))

/-- The first correction of the hub's region is the end of bring-up, once a host port has trained (R400). -/
theorem timeCorrection_joins (hr : r = 56) (hj : s.hub.joined = false) (b : Bool) :
    exec (.timeCorrection r b) s = .next (if s.hub.served then s.joinPod b else s) :=
  (if_pos hr).trans (if_pos (ne_true_of_eq_false hj))

theorem timeCorrection_hubAhead (hr : r = 56) (hj : s.hub.joined = true) :
    exec (.timeCorrection r true) s = .next { s with adjust := some true } :=
  (if_pos hr).trans ((if_neg (not_not_intro hj)).trans (if_pos rfl))

theorem timeCorrection_hubBehind (hr : r = 56) (hj : s.hub.joined = true) (hc : get 0 s.corrected r = 0 ∨ get 0 s.corrected r + 63 ≤ s.time) :
    exec (.timeCorrection r false) s = .next { s.noteCorrection r with adjust := some false } :=
  (if_pos hr).trans ((if_neg (not_not_intro hj)).trans ((if_neg Bool.false_ne_true).trans (if_pos hc)))

end

/-! ### Host ports and bring-up (R399, R400) -/

section
variable {s : State} {port : Nat} (hrec : s.hub.recovery = false) (hup : s.hub.up = true) (hport : port < 2)
include hrec hup hport

theorem hostPort_open : ¬ (s.hub.recovery = true ∨ ¬ s.hub.up = true ∨ hostPorts ≤ port) := by
  simp [hrec, hup, hostPorts, hport]

/-- A port that is not trained trains in the mode and the width that come up. -/
theorem hostPortTraining_trains (u n : Bool) (ht : get false s.hub.trained port = false) :
    exec (.hostPortTraining port (some u) n) s = .next (s.modHub fun h =>
      { h with trained := put false h.trained port true, ucie2 := put false h.ucie2 port u, narrow := put false h.narrow port n }) :=
  (if_neg (hostPort_open hrec hup hport)).trans (if_neg (ne_true_of_eq_false ht))

/-- A trained port keeps its mode. -/
theorem hostPortTraining_trained (u n : Bool) (ht : get false s.hub.trained port = true) :
    exec (.hostPortTraining port (some u) n) s = .next s :=
  (if_neg (hostPort_open hrec hup hport)).trans (if_pos ht)

/-- A reset of a port leaves it not trained. -/
theorem hostPortTraining_resets (n : Bool) :
    exec (.hostPortTraining port none n) s = .next (s.modHub fun h => { h with trained := put false h.trained port false }) :=
  if_neg (hostPort_open hrec hup hport)

end

/-- Setting registers of quads leaves every other field of the state. -/
theorem State.foldl_modQuad (f : Nat → Quad → Quad) (l : List Nat) (s : State) :
    ∃ qs, l.foldl (fun a q => a.modQuad q (f q)) s = { s with quads := qs } := by
  induction l generalizing s with
  | nil => exact ⟨_, rfl⟩
  | cons q l ih => exact ih (s.modQuad q (f q))

/-- The certificate is made of MR0 and the maker's unlock alone (R322). -/
theorem State.aliasCertificate_of_hub {s t : State} (hu : t.hub.unlocked = s.hub.unlocked) (hm : t.hub.mr = s.hub.mr) :
    t.aliasCertificate = s.aliasCertificate := by
  simp only [State.aliasCertificate, State.aliasKey, hu, hm]

/-- A bring-up that fails leaves the package in recovery, its cores and memory as at reset. -/
theorem powerOnReset_fails (s : State) : ∃ t, exec (.powerOnReset false) s = .next t
    ∧ t.hub.recovery = true ∧ t.hub.up = false ∧ t.cores = [] ∧ t.mem = [] :=
  ⟨_, rfl, rfl, rfl, rfl, rfl⟩

/-- A bring-up that succeeds ends at the training of the host ports, with the certificate of its alias key. -/
theorem powerOnReset_succeeds (s : State) : ∃ t, exec (.powerOnReset true) s = .next t ∧ t.hub.recovery = false ∧ t.hub.up = true
    ∧ t.hub.certificate = t.aliasCertificate ∧ t.hub.joined = false ∧ t.cores = [] ∧ t.mem = [] := by
  obtain ⟨qs, hq⟩ := State.foldl_modQuad (fun q x => { x with veneer := (Config.freeWord (s.free + 12 + q)).getLsbD 0 }) (List.range 48)
    { State.reset with free := s.free + 62 }
  simp only [show exec (.powerOnReset true) s = execPowerOnReset true s from rfl, execPowerOnReset]
  rw [hq]
  exact ⟨_, rfl, rfl, rfl, State.aliasCertificate_of_hub rfl rfl, rfl, rfl, rfl⟩

/-! ### Writes on their way (R258, R265) -/

theorem remoteWriteApply_lands {s : State} {ix : Nat} {w : Sent} (hw : s.sent[ix]? = some w) (hl : s.mayLand w = true) :
    exec (.remoteWriteApply ix) s = .next (({ s with sent := removeAt s.sent ix }.applyAt w.pa w.bytes).land w) := by
  simp only [show exec (.remoteWriteApply ix) s = execRemoteWriteApply ix s from rfl, execRemoteWriteApply, hw, hl, if_true]

theorem podLinkWrite_enters {s s1 : State} {port k o : Nat} {va : BitVec 56} {v : Word} (ha : va.toNat % 8 = 0) (hp : port < 24)
    (hf : get false s.pod.failed k = false) (hs : s.hubStore (podPort port) o va.toNat (leBytes 8 v.toNat) = some s1) :
    exec (.podLinkWrite ⟨port, k, o⟩ va v) s = .next s1 := by
  have hc : ¬ (va.toNat % 8 ≠ 0 ∨ podPorts ≤ port ∨ get false s.pod.failed k = true) := by
    simp [ha, hf, podPorts, hp]
  simp only [show exec (.podLinkWrite ⟨port, k, o⟩ va v) s = execPodLinkWrite ⟨port, k, o⟩ va v s from rfl, execPodLinkWrite, hs]
  exact if_neg hc

/-- Settles O52: each event by its lemma above; which rings take a sensor's record no record before it changes (`railSample_eq`). -/
theorem packageEvents : Obligations.PackageEvents := by
  unfold Obligations.PackageEvents
  refine ⟨?freqat, ?change, ?window, ?off, ?hyp, ?guest, State.powerRecord_form, ?keeps, ?wearsel, ?wear, ?time, ?training,
    fun s => ⟨powerOnReset_fails s, powerOnReset_succeeds s⟩, fun s ix w => remoteWriteApply_lands,
    fun s s1 port k o va v => podLinkWrite_enters⟩
  case freqat =>
    intro s v
    refine ⟨_, exec_freqatWrite s v, rfl, rfl, ?_⟩
    simp only [State.modPower]
    split <;> rfl
  case change =>
    intro s hp ht hc
    have hch := Power.change_armed hp ht hc
    exact ⟨_, frequencyChange_armed hp ht, congrArg Power.cur hch, congrArg Power.pend hch, rfl, rfl⟩
  case window =>
    intro s w h
    refine ⟨_, powerControlWindow_ends w h, rfl, rfl, fun hw => ?_, fun hw hq hc hm => ?_⟩
    · have hp := Power.control_falls s.time hw
      exact ⟨congrArg Power.ceil hp, congrArg Power.ceilAt hp⟩
    · have hp := Power.control_rises s.time hw hq hc hm
      exact ⟨congrArg Power.ceil hp, congrArg Power.ceilAt hp, congrArg Power.quiet hp⟩
  case off =>
    intro s hh hg
    rw [railSample_eq, State.foldl_sample_off hh hg]
  case hyp =>
    intro s hh hg
    rw [railSample_eq, State.sample_hyp hh hg]
  case guest =>
    intro s hh
    rw [railSample_eq, State.sample_guest hh]
    rfl
  case keeps =>
    intro s
    have k := s.foldl_sample_keeps ((List.range sensors).filter sensorUsed)
    exact ⟨_, railSample_eq s, k.cores, k.power⟩
  case wearsel => exact fun s v h => ⟨_, wearselWrite_sets s h, rfl, rfl⟩
  case wear =>
    exact fun s r h => ⟨_, wearUpdate_draws s h, get_put_same _ _ _ _, fun q hq => get_put_other _ _ _ (Ne.symm hq), rfl⟩
  case time =>
    exact fun s r => ⟨timeCorrection_holds s, timeCorrection_adds s, timeCorrection_joins s, rfl, rfl, Nat.le_add_right _ _,
      timeCorrection_hubAhead s, timeCorrection_hubBehind s⟩
  case training =>
    intro s port u n hrec hup hport
    refine ⟨fun ht => ?_, hostPortTraining_trained hrec hup hport u n, ?_⟩
    · exact ⟨_, hostPortTraining_trains hrec hup hport u n ht, get_put_same false s.hub.trained port true, get_put_same false s.hub.ucie2 port u,
        get_put_same false s.hub.narrow port n, rfl⟩
    · exact ⟨_, hostPortTraining_resets hrec hup hport n, get_put_same false s.hub.trained port false, rfl, rfl⟩

end Sys2Proof.Machine
end

section
/-! PROOF. Isolation (R299, R300, R301, R305, R307, R311, R323, R324, R325): what each of its events does. -/
namespace Sys2Proof.Machine

/-! ### Tables of which a range of keys is erased, and folds that leave a part of the state alone -/

/-- A table without the keys that a test refuses. -/
theorem get_filter_key {α : Type} (d : α) (t : Table α) (p : Nat → Bool) (k : Nat) :
    get d (t.filter fun e => p e.1) k = if p k = true then get d t k else d := by
  induction t with
  | nil => exact (ite_self d).symm
  | cons e t ih =>
    obtain ⟨j, y⟩ := e
    by_cases hj : j = k
    · subst hj
      cases hp : p j <;> simp [get, hp, ih]
    · cases hp : p j <;> simp [get, hp, hj, ih]

/-- A fold leaves what each of its steps leaves. -/
theorem foldl_keeps {α β γ : Type} (g : β → γ) {f : β → α → β} (h : ∀ b a, g (f b a) = g b) (l : List α) (b : β) :
    g (l.foldl f b) = g b := by
  induction l generalizing b with
  | nil => rfl
  | cons a l ih => exact (ih (f b a)).trans (h b a)

theorem within_iff (k lo n : Nat) : within k lo n = true ↔ lo ≤ k ∧ k < lo + n := by simp [within]

/-! ### Regions, quads, dies and partitions after an update -/

@[simp] theorem State.modRegion_region (s : State) (i : Nat) (f : Region → Region) : (s.modRegion i f).region i = f (s.region i) := by
  simp [State.region, State.modRegion]

@[simp] theorem State.modQuad_quad (s : State) (q : Nat) (f : Quad → Quad) : (s.modQuad q f).quad q = f (s.quad q) := by
  simp [State.quad, State.modQuad]

theorem State.modQuad_quad_other (s : State) {p q : Nat} (f : Quad → Quad) (h : q ≠ p) : (s.modQuad q f).quad p = s.quad p := by
  simp [State.quad, State.modQuad, get_update_other _ _ _ h]

@[simp] theorem State.modDie_die (s : State) (d : Nat) (f : Die → Die) : (s.modDie d f).die d = f (s.die d) := by
  simp [State.die, State.modDie]

@[simp] theorem State.modPart_quad (s : State) (o q : Nat) (f : Part → Part) : (s.modPart o f).quad q = s.quad q := rfl

theorem State.core_of_cores {s t : State} (h : t.cores = s.cores) (c : Nat) : t.core c = s.core c := congrArg (get Core.cleared · c) h

theorem State.quad_of_quads {s t : State} (h : t.quads = s.quads) (q : Nat) : t.quad q = s.quad q := congrArg (get Quad.cleared · q) h

/-! ### Regions (R307) -/

/-- A write of REGOWN that is not refused waits where it assigns anew or changes the owner of an assigned region (R307). -/
theorem regownWrite_accepted {s : State} {n : Nat} {v : Byte} (h : regionRefused n v = false) :
    exec (.regownWrite n v) s = .next (s.modRegion n fun r =>
      if (regAssigned v = true ∧ (s.region n).assigned = false) ∨ ((s.region n).assigned = true ∧ regOwner v ≠ (s.region n).owner)
      then { r with waiting := some v } else { r with owner := regOwner v, assigned := regAssigned v, waiting := none }) := by
  simp only [show exec (.regownWrite n v) s = execRegownWrite n v s from rfl, execRegownWrite, h, Bool.false_eq_true, if_false,
    Bool.not_eq_true]
  split <;> rfl

/-- The write that waits takes effect, and zeroing begins, once no page of the region is held (R307). -/
theorem regionZeroing_begins {s : State} {n : Nat} {v : Byte} (hw : (s.region n).waiting = some v) (hh : s.regionHeld n = false) :
    exec (.regionZeroing n) s = .next (s.modRegion n fun _ =>
      { owner := regOwner v, assigned := regAssigned v, zeroing := true, waiting := none }) := by
  simp only [show exec (.regionZeroing n) s = execRegionZeroing n s from rfl, execRegionZeroing, hw, hh]
  exact if_neg Bool.false_ne_true

theorem State.zeroRange_mem (s : State) (lo n a : Nat) :
    get 0#8 (s.zeroRange lo n).mem a = if lo ≤ a ∧ a < lo + n then 0 else get 0#8 s.mem a := by
  rw [show (s.zeroRange lo n).mem = s.mem.filter (fun e => !within e.1 lo n) from rfl,
    get_filter_key 0#8 s.mem (fun k => !within k lo n) a]
  simp only [Bool.not_eq_true', ← Bool.not_eq_true, within_iff, ite_not]
  rfl

theorem regionZeroingDone_zeroes {s : State} {n : Nat} (h : (s.region n).zeroing = true) :
    exec (.regionZeroingDone n) s = .next ((s.zeroRange (regionBase n) (2 ^ 29)).modRegion n fun r => { r with zeroing := false }) :=
  if_pos h

/-! ### Quads activated and deactivated (R300) -/

theorem quadActivate_down {s : State} (q : Nat) (h : s.hub.up = false) : exec (.quadActivate q) s = .next s :=
  congrArg Host.Outcome.next (if_neg (ne_true_of_eq_false h))

theorem State.activate_refused {s : State} {q : Nat} (ha : (s.quad q).active = false) (hr : s.activateRefused q (s.quad q).owner.toNat = true) :
    (s.activate q).1 = s.modQuad q fun x => { x with err := true } := by
  simp only [State.activate, ha, hr, Bool.false_eq_true, if_false, if_true]

/-- A quad becomes active; one that owns itself forms a partition, with PMRs zeroed (R300, R323). -/
theorem State.activate_accepted {s : State} {q : Nat} (ha : (s.quad q).active = false)
    (hr : ¬ s.activateRefused q (s.quad q).owner.toNat = true) :
    let u := s.modQuad q fun x => { x with active := true }
    (s.activate q).1 = if (s.quad q).owner.toNat = q then u.modPart q fun p => { p with pmr := [], ended := false } else u := by
  simp only [State.activate, ha, hr, Bool.false_eq_true, if_false]

theorem quadActivate_inactive {s : State} {q : Nat} (hu : s.hub.up = true) (ha : (s.quad q).active = false) :
    ∃ t : State, exec (.quadActivate q) s = .next t ∧ t.mem = s.mem
      ∧ (if s.activateRefused q (s.quad q).owner.toNat then t.quad q = { s.quad q with err := true }
         else t.quad q = { s.quad q with active := true } ∧ ((s.quad q).owner.toNat = q → (t.part q).pmr = [])) := by
  refine ⟨(s.activate q).1, congrArg Host.Outcome.next (if_pos hu), ?_⟩
  by_cases hr : s.activateRefused q (s.quad q).owner.toNat
  · rw [if_pos hr, State.activate_refused ha hr]
    exact ⟨rfl, s.modQuad_quad q _⟩
  · rw [if_neg hr, State.activate_accepted ha hr]
    refine ⟨?_, ?_, fun ho => ?_⟩
    · split <;> rfl
    · split <;> simp only [State.modPart_quad, State.modQuad_quad]
    · rw [if_pos ho, State.modPart_part]

theorem quadDeactivate_refused {s : State} {q : Nat} (ha : (s.quad q).active = true) (hr : s.deactivateRefused q = true) :
    exec (.quadDeactivate q) s = .next (s.modQuad q fun x => { x with err := true }) := by
  simp only [show exec (.quadDeactivate q) s = .next (s.deactivate q).1 from rfl, State.deactivate, ha, hr, not_true_eq_false, if_false, if_true]

theorem quadDeactivate_accepted {s : State} {q : Nat} (ha : (s.quad q).active = true) (hr : s.deactivateRefused q = false) :
    let u := (quadCores q).foldl (fun (a : State) c => a.evictCore c) (s.modQuad q fun x => { x with active := false, clear := true })
    exec (.quadDeactivate q) s = .next (if (s.quad q).owner.toNat = q then u.endPartition q else u) := by
  simp only [show exec (.quadDeactivate q) s = .next (s.deactivate q).1 from rfl, State.deactivate, ha, hr, not_true_eq_false,
    Bool.false_eq_true, if_false]

/-! ### Quads cleared (R300, R325) -/

/-- Slots freed leave the cores, memory and the cluster SRAM alone. -/
theorem State.freeSlots_keeps (s : State) (o : Nat) (p : Nat → Bool) :
    (s.freeSlots o p).cores = s.cores ∧ (s.freeSlots o p).mem = s.mem ∧ (s.freeSlots o p).cluster = s.cluster :=
  have keeps {γ : Type} (g : State → γ) := foldl_keeps g (f := fun a n => a.freeUp (domOfQuad o) n)
  ⟨keeps State.cores (fun _ _ => rfl) _ s, keeps State.mem (fun _ _ => rfl) _ s, keeps State.cluster (fun _ _ => rfl) _ s⟩

@[simp] theorem State.clearQuad_mem (s : State) (q : Nat) : (s.clearQuad q).mem = s.mem := rfl

theorem State.clearQuad_core (s : State) (q c : Nat) : (s.clearQuad q).core c = if c / 4 = q then Core.cleared else s.core c := by
  rw [show (s.clearQuad q).core c = get Core.cleared (s.cores.filter fun e => e.1 / 4 != q) c from rfl,
    get_filter_key Core.cleared s.cores (fun k => k / 4 != q) c]
  simp only [bne_iff_ne, ne_eq, ite_not]
  rfl

theorem State.clearQuad_cluster (s : State) {q k : Nat} (h : k / 2 ^ 25 = q) : get 0#8 (s.clearQuad q).cluster k = 0 := by
  rw [show (s.clearQuad q).cluster = s.cluster.filter (fun e => e.1 / 2 ^ 25 != q) from rfl,
    get_filter_key 0#8 s.cluster (fun k => k / 2 ^ 25 != q) k]
  exact if_neg fun e => bne_iff_ne.1 e h

theorem quadClearing_still {s : State} {q : Nat} (hc : (s.quad q).clear = true) (hs : s.quadStill q = true) :
    exec (.quadClearing q) s = .next ((if (s.part (s.ownerOf q)).ended then
      s.freeSlots (s.ownerOf q) fun n => (s.slot (domOfQuad (s.ownerOf q)) n).core / 4 == q else s).clearQuad q) :=
  if_neg (by simp [hc, hs])

/-- The clearing of a still quad clears its cores and its cluster SRAM, and no other core nor memory (R325). -/
theorem quadClearing_clears {s : State} {q : Nat} (hc : (s.quad q).clear = true) (hs : s.quadStill q = true) :
    ∃ t : State, exec (.quadClearing q) s = .next t
      ∧ (∀ c, c / 4 = q → t.core c = Core.cleared) ∧ (∀ c, c / 4 ≠ q → t.core c = s.core c) ∧ t.mem = s.mem
      ∧ (∀ k, k / 2 ^ 25 = q → get 0#8 t.cluster k = 0) := by
  refine ⟨_, quadClearing_still hc hs, fun c h => ?_, fun c h => ?_, ?_, fun k h => State.clearQuad_cluster _ h⟩
  · rw [State.clearQuad_core, if_pos h]
  · rw [State.clearQuad_core, if_neg h]
    split
    · exact State.core_of_cores (s.freeSlots_keeps _ _).1 c
    · rfl
  · rw [State.clearQuad_mem]
    split
    · exact (s.freeSlots_keeps _ _).2.1
    · rfl

theorem quadClearDone_clears {s : State} {q : Nat} (hc : (s.quad q).clear = true) (hq : s.quadCleared q = true) :
    exec (.quadClearDone q) s = .next (s.modQuad q fun x => { x with clear := false }) := if_pos ⟨hc, hq⟩

/-! ### The maker's unlock (R325) -/

/-- A quad cleared by the maker's unlock, with DEBUG set. -/
def State.unlockQuad (s : State) (q : Nat) : State := (s.clearQuad q).modQuad q fun x => { x with debug := true }

/-- A region zeroed by the maker's unlock, where it is assigned. -/
def State.zeroAssigned (s : State) (e : Nat × Region) : State := if e.2.assigned then s.zeroRange (regionBase e.1) (2 ^ 29) else s

theorem makerDebugUnlock_signed (s : State) :
    let u := (List.range 48).foldl State.unlockQuad s
    let v := u.regions.foldl State.zeroAssigned u
    exec (.makerDebugUnlock true) s = .next { v with hub := { v.hub with unlocked := true } } := rfl

/-- What the maker's unlock leaves of a quad: DEBUG set and its cores cleared. -/
structure State.Unlocked (s : State) (q : Nat) : Prop where
  debug : (s.quad q).debug = true
  cores : ∀ c, c / 4 = q → s.core c = Core.cleared

theorem State.unlockQuad_core (s : State) (q c : Nat) : (s.unlockQuad q).core c = if c / 4 = q then Core.cleared else s.core c :=
  s.clearQuad_core q c

theorem State.unlockQuad_quad_same (s : State) (q : Nat) : ((s.unlockQuad q).quad q).debug = true := by
  rw [State.unlockQuad, State.modQuad_quad]

theorem State.unlockQuad_quad_other (s : State) {p q : Nat} (h : q ≠ p) : (s.unlockQuad q).quad p = s.quad p := by
  rw [State.unlockQuad, State.modQuad_quad_other _ _ h, State.clearQuad, State.modQuad_quad_other _ _ h]
  rfl

theorem State.unlockQuad_unlocks (s : State) (q : Nat) : (s.unlockQuad q).Unlocked q :=
  ⟨s.unlockQuad_quad_same q, fun c h => by rw [State.unlockQuad_core, if_pos h]⟩

/-- An unlocked quad stays so as another one is unlocked. -/
theorem State.Unlocked.unlockQuad {s : State} {p : Nat} (h : s.Unlocked p) (q : Nat) : (s.unlockQuad q).Unlocked p := by
  by_cases e : q = p
  · exact e ▸ s.unlockQuad_unlocks q
  · refine ⟨?_, fun c hc => ?_⟩
    · rw [State.unlockQuad_quad_other s e]; exact h.debug
    · rw [State.unlockQuad_core, if_neg (fun k => e (k.symm.trans hc))]; exact h.cores c hc

theorem State.Unlocked.foldl {s : State} {p : Nat} (h : s.Unlocked p) (l : List Nat) : (l.foldl State.unlockQuad s).Unlocked p := by
  induction l generalizing s with
  | nil => exact h
  | cons q l ih => exact ih (h.unlockQuad q)

theorem State.foldl_unlockQuad {p : Nat} {l : List Nat} (h : p ∈ l) (s : State) : (l.foldl State.unlockQuad s).Unlocked p := by
  induction l generalizing s with
  | nil => cases h
  | cons q l ih =>
    rcases List.mem_cons.1 h with rfl | h
    · exact (s.unlockQuad_unlocks p).foldl l
    · exact ih h (s.unlockQuad q)

theorem State.zeroAssigned_keeps (s : State) (e : Nat × Region) : (s.zeroAssigned e).quads = s.quads ∧ (s.zeroAssigned e).cores = s.cores := by
  unfold State.zeroAssigned
  split <;> exact ⟨rfl, rfl⟩

/-- A signed unlock leaves every quad unlocked. -/
theorem makerDebugUnlock_unlocks (s : State) : ∃ t : State, exec (.makerDebugUnlock true) s = .next t ∧ t.hub.unlocked = true
    ∧ ∀ q, q < 48 → t.Unlocked q := by
  refine ⟨_, makerDebugUnlock_signed s, rfl, fun q hq => ?_⟩
  have hu := State.foldl_unlockQuad (List.mem_range.2 hq) s
  have hquads (l : Table Region) (u : State) := foldl_keeps State.quads (fun a e => (State.zeroAssigned_keeps a e).1) l u
  have hcores (l : Table Region) (u : State) := foldl_keeps State.cores (fun a e => (State.zeroAssigned_keeps a e).2) l u
  refine ⟨?_, fun c hc => ?_⟩
  · exact (congrArg Quad.debug (State.quad_of_quads (hquads _ _) q)).trans hu.debug
  · exact (State.core_of_cores (hcores _ _) c).trans (hu.cores c hc)

/-! ### Slots of memory and encoder engines (R301, R305) -/

theorem partslotWrite_eq (s : State) (o : Nat) (v : Word) : exec (.partslotWrite o v) s =
    .next (if s.slotsRefused o v then s.setErr o else s.modPart o fun p => { p with partslot := v }) :=
  (apply_ite Host.Outcome.next _ _ _).symm

theorem encownWrite_sets (s : State) {d : Nat} (v : Word) (h : d = 3 ∨ d = 7) :
    exec (.encownWrite d v) s = .next (s.modDie d fun x => { x with encown := v.extractLsb' 0 28 }) := if_pos h

theorem encownEffect_sets {s : State} {d j : Nat} (hj : j < 4) (hq : ((s.die d).queue.any fun q => q.engine == j) = false) :
    exec (.encownEffect d j) s = .next (s.modDie d fun y => { y with inForce := put 0 y.inForce j ((s.die d).named j) }) :=
  if_neg (by rw [hq]; simp [hj])

/-! ### Measurement and attestation (R323, R324) -/

/-- PMREXT of a block whose reserved bytes are 0 extends the register that it names (R323). -/
theorem pmrExtend_core {s s1 : State} {c : Nat} {v : Word} {bs : List Byte} (hb : s.namedBlock c true v true = .ok (s1, bs))
    (hz : ∀ x ∈ bs.drop 48, x = 0) : exec (.pmrExtend c ⟨v, none⟩) s =
      .next (s1.modPart (s.partOf c) fun p => { p with pmr := update 0 p.pmr (bits v.toNat 1 0) fun r => extend r (bs.take 48) }) := by
  have hn : ¬ (bs.drop 48).any (· != 0) = true := by simpa using hz
  simp only [show exec (.pmrExtend c ⟨v, none⟩) s = execPmrExtend c ⟨v, none⟩ s from rfl, execPmrExtend, State.pmrWrite, hb, if_neg hn]

theorem pmrExtend_hyp (s : State) (c : Nat) {i : Nat} (v : Word) (d : BitVec 384) (h2 : 2 ≤ i) (h8 : i < 8) :
    exec (.pmrExtend c ⟨v, some (i, d)⟩) s
      = .next { s with hub := { s.hub with mr := update 0 s.hub.mr i fun r => extend r (leBytes 48 d.toNat) } } :=
  congrArg Host.Outcome.next (if_pos ⟨h2, h8⟩)

/-- ATTREQ with a block and places that resolve is queued at its partition (R324). -/
theorem attestRequest_queues {s s1 s2 : State} {c : Nat} {v : Word} {bs : List Byte} {ls : List Loc} {hs : List PageHold}
    (hb : s.namedBlock c true v (bits v.toNat 1 0 == 0) = .ok (s1, bs))
    (hp : s1.reportPlaces c true 12 (BitVec.ofNat 64 (bits v.toNat 55 6 * 64 + 64)) = .ok (s2, ls, hs)) :
    exec (.attestRequest c v) s = .next (s2.modPart (s.partOf c) fun p => { p with attest := p.attest ++
      [{ core := c, task := s.aim c, nonce := bs.take 48, flag := descNat bs 48 1 % 64, places := ls, holds := hs }] }) := by
  simp only [show exec (.attestRequest c v) s = execAttestRequest c v s from rfl, execAttestRequest, State.attestWrite, hb, hp]

section
variable {s : State} {o : Nat} {q : Attest} {rest : List Attest} (hq : (s.part o).attest = q :: rest)
include hq

/-- The oldest request is answered where its report needs no context, or its context is live or has ended (R324). -/
theorem attestReport_answers (h : q.places.any isScr = false ∨ s.attestAway q = false ∨ q.task.any s.gone = true) :
    exec (.attestReport o) s = .next
      (((s.reportAt q (pieces 64 12 (s.report o q.core q.nonce))).modPart o fun p => { p with attest := rest }).bumpFor q.task q.core
        { flag := q.flag, time := s.time, kv := [], src := .remote }) := by
  have hgo : ¬ (q.places.any isScr = true ∧ s.attestAway q = true ∧ ¬ q.task.any s.gone = true) := by
    rintro ⟨hscr, haway, hgone⟩
    rcases h with h | h | h
    · exact absurd hscr (ne_true_of_eq_false h)
    · exact absurd haway (ne_true_of_eq_false h)
    · exact hgone h
  simp only [show exec (.attestReport o) s = execAttestReport o s from rfl, execAttestReport, hq]
  exact if_neg hgo

/-- A report into the pool waits for a context that is away and has not ended (R324). -/
theorem attestReport_waits (hscr : q.places.any isScr = true) (haway : s.attestAway q = true) (hgone : q.task.any s.gone = false) :
    exec (.attestReport o) s = .next s := by
  simp only [show exec (.attestReport o) s = execAttestReport o s from rfl, execAttestReport, hq]
  exact if_pos ⟨hscr, haway, ne_true_of_eq_false hgone⟩

end

/-- Settles O53: each event by its lemma above; the maker's unlock by what a fold over the quads leaves of each (`makerDebugUnlock_unlocks`). -/
theorem isolationEvents : Obligations.IsolationEvents := by
  unfold Obligations.IsolationEvents
  refine ⟨?regown, ?zeroing, ?zeroed, fun s q => quadActivate_down q, fun s q => quadActivate_inactive,
    fun s q => quadDeactivate_refused, fun s q => quadDeactivate_accepted, fun s q => quadClearing_clears, ?cleared, fun s => rfl, ?unlock,
    ?partslot, ?encown, ?effect, ?tlb, ?tlbAll, ?pmr, fun s c i v d => pmrExtend_hyp s c v d, ?request,
    fun s o q rest hq => ⟨attestReport_answers hq, attestReport_waits hq⟩⟩
  case regown =>
    intro s n v h
    refine ⟨_, regownWrite_accepted h, rfl, rfl, ?_⟩
    rw [State.modRegion_region]
    split <;> rfl
  case zeroing =>
    exact fun s n v hw hh => ⟨_, regionZeroing_begins hw hh, s.modRegion_region n _, rfl⟩
  case zeroed =>
    intro s n h
    refine ⟨_, regionZeroingDone_zeroes h, ?_, fun a hlo hhi => ?_, fun a ha => ?_⟩
    · rw [State.modRegion_region]
    · rw [State.modRegion_mem, State.zeroRange_mem, if_pos ⟨hlo, hhi⟩]
    · rw [State.modRegion_mem, State.zeroRange_mem, if_neg (by omega)]
  case cleared =>
    exact fun s q hc hq => ⟨_, quadClearDone_clears hc hq, s.modQuad_quad q _, rfl, rfl⟩
  case unlock =>
    intro s
    obtain ⟨t, ht, hhub, hquads⟩ := makerDebugUnlock_unlocks s
    exact ⟨t, ht, hhub, fun q hq => (hquads q hq).debug, fun c hc => (hquads (c / 4) (by omega)).cores c rfl⟩
  case partslot =>
    intro s o v
    refine ⟨_, partslotWrite_eq s o v, ?_⟩
    split
    · exact ⟨rfl, rfl, congrArg Quad.err (s.modQuad_quad o _), rfl⟩
    · exact ⟨rfl, rfl, congrArg Part.partslot (s.modPart_part o _), rfl⟩
  case encown => exact fun s d v h => ⟨_, encownWrite_sets s v h, s.modDie_die d _, rfl⟩
  case effect =>
    intro s d j hj hq
    refine ⟨_, encownEffect_sets hj hq, ?_, rfl⟩
    rw [State.modDie_die, get_put_same]
  case tlb => exact fun s c va => ⟨_, rfl, rfl, rfl, congrArg Part.kept (s.modPart_part (s.partOf c) _)⟩
  case tlbAll => exact fun s c => ⟨_, rfl, rfl, rfl, congrArg Part.kept (s.modPart_part (s.partOf c) _)⟩
  case pmr =>
    intro s s1 c v bs hb hz
    refine ⟨_, pmrExtend_core hb hz, rfl, ?_⟩
    rw [State.modPart_part, get_update_same]
  case request =>
    exact fun s s1 s2 c v bs ls hs hb hp => ⟨_, attestRequest_queues hb hp, congrArg Part.attest (s2.modPart_part (s.partOf c) _), rfl⟩

end Sys2Proof.Machine
end

section
/-! PROOF. Recovery (R327 to R329, R332, R344, R350, R353 to R355): saves, restores, the scrubber, and what the pod's events record. -/
namespace Sys2Proof.Machine

/-! ### Shadows -/

@[simp] theorem Core.setUse_use (k : Core) (b : Bool) (u : ShadowUse) : (k.setUse b u).use b = u := by cases b <;> rfl

@[simp] theorem Core.setUse_live (k : Core) (b : Bool) (u : ShadowUse) : (k.setUse b u).live = k.live := by cases b <;> rfl

@[simp] theorem Core.setUse_shadow (k : Core) (b : Bool) (u : ShadowUse) : (k.setUse b u).shadow = k.shadow := by cases b <;> rfl

@[simp] theorem Core.modShadow_shadow (k : Core) (b : Bool) (f : Ctx → Ctx) : (k.modShadow b f).shadow b = f (k.shadow b) := by
  cases b <;> rfl

@[simp] theorem State.modSlot_core (s : State) (d n c : Nat) (f : Slot → Slot) : (s.modSlot d n f).core c = s.core c := rfl

/-! ### Saves (R327 to R329, R332) -/

/-- The stream of a shadow into an area whose pages are held, in the state that holding them has left (R327, R264). -/
def State.saveStream (s1 : State) (c : Nat) (b : Bool) (va : Nat) (hs : List PageHold) : Spindle :=
  { save := true, shadow := b, own := s1.ownBefore c b hs va, area := va, holds := hs, sent := (s1.die (Config.dieOf c)).sc }

section
variable {s s1 : State} {c : Nat} {b : Bool} {a : Nat × Nat} {hs : List PageHold}
  (hsave : s.toSave c b = true) (hfree : (s.core c).spindle = none) (htask : ((s.core c).shadow b).task = some a)
include hsave hfree htask

theorem saveStart_begins (hh : s.holdSlot a.1 a.2 c = (s1, hs, .whole)) :
    exec (.saveStart c b) s = .next (s1.modCore c fun k =>
      { k.setUse b .saving with spindle := some (s1.saveStream c b (s.areaOf a.1 a.2) hs) }) := by
  simp [show exec (.saveStart c b) s = execSaveStart c b s from rfl, execSaveStart, htask, hsave, hfree, hh, State.saveStream]

/-- A fault of the area ends the save with no segment begun (R329). -/
theorem saveStart_fails (hh : s.holdSlot a.1 a.2 c = (s1, hs, .fault)) :
    exec (.saveStart c b) s = .next (s1.failSave c (s1.saveStream c b (s.areaOf a.1 a.2) hs) a { upTo := 0, cut := none }) := by
  simp [show exec (.saveStart c b) s = execSaveStart c b s from rfl, execSaveStart, htask, hsave, hfree, hh, State.saveStream]

end

section
variable {s : State} {c : Nat} {p : Spindle} (hp : (s.core c).spindle = some p)
include hp

/-- A save waits for the writes that its core had sent before it (R264). -/
theorem saveComplete_waits (hsent : s.onItsWay c p.sent = true) : exec (.saveComplete c) s = .next s := by
  simp [show exec (.saveComplete c) s = execSaveComplete c s from rfl, execSaveComplete, hp, hsent]

theorem saveComplete_writes {s1 : State} {j : SaveJob} {dom n : Nat} {r : BitVec 128} (hsave : p.save = true)
    (hsent : s.onItsWay c p.sent = false) (hserved : s.areaServed c p.holds = true) (hjob : s.saveJob c p = some j)
    (htask : ((s.core c).shadow p.shadow).task = some (dom, n)) (hall : s.saveAll j ((s.slot dom n).saves + 1) = some (s1, r)) :
    exec (.saveComplete c) s
      = .next (((s1.modCore c fun k => { (k.modShadow p.shadow fun _ => Ctx.cleared).setUse p.shadow .empty with spindle := none }).modSlot
        dom n fun x => { x with shaving := true, saves := x.saves + 1, infl := j.ctx.infl, images := [(128, j.ctx)] }).settleSaved dom n) := by
  simp [show exec (.saveComplete c) s = execSaveComplete c s from rfl, execSaveComplete, hp, hsave, hsent, hserved, hjob, htask, hall]

end

/-! ### Restores (R344) -/

/-- The state in which a restore has put a context into its shadow (R344), over the slice `z` of its core. -/
def State.restored (s2 : State) (c : Nat) (p : Spindle) (t : Nat × Nat) (z : Slice) (x : Ctx) : State :=
  ((s2.restorePool p.holds p.area c z).drawn.modCore c fun k =>
    { (k.modShadow p.shadow fun _ => x).setUse p.shadow (.preload (k.switchTo.any fun w => w.1 == p.shadow)) with
      spindle := none }).modSlot t.1 t.2 fun y => { y with images := [(128, x)] }

section
variable {s : State} {c : Nat} {p : Spindle} {dom n : Nat} (hp : (s.core c).spindle = some p) (hrest : p.save = false)
  (hserved : s.areaServed c p.holds = true) (htask : ((s.core c).shadow p.shadow).task = some (dom, n))
include hp hrest hserved htask

theorem restoreComplete_fails {e : Cause} (he : s.restoreFault p.holds p.area c (s.areaBytes p.holds p.area 64) = some e) :
    exec (.restoreComplete c) s = .next (s.failRestore c p.shadow (dom, n) e) := by
  simp [show exec (.restoreComplete c) s = execRestoreComplete c s from rfl, execRestoreComplete, hp, hrest, hserved, htask, he]

theorem restoreComplete_loads {s1 s2 : State} {code : Stream → Table Half}
    (he : s.restoreFault p.holds p.area c (s.areaBytes p.holds p.area 64) = none)
    (hcode : s.reload dom n (ShavingHeader.read (s.areaBytes p.holds p.area 64)).imm = some (s1, code))
    (htrans : s1.translate p.holds p.area c (ShavingHeader.read (s.areaBytes p.holds p.area 64)) = some s2) :
    ∃ z, exec (.restoreComplete c) s = .next (s2.restored c p (dom, n) z
      (s2.restoreCtx p.holds p.area (s2.lastImage (dom, n)) (ShavingHeader.read (s.areaBytes p.holds p.area 64)).imm code)) := by
  refine ⟨(s2.core c).slice ((if p.shadow then (s2.core c).sliceB else (s2.core c).sliceA).getD false), ?_⟩
  simp [show exec (.restoreComplete c) s = execRestoreComplete c s from rfl, execRestoreComplete, hp, hrest, hserved, htask, he, hcode, htrans,
    State.restored]

end

/-- The granules of an area are written into the pool alone: the switch that waits at a core goes on waiting. -/
theorem State.restorePool_switchTo (s : State) (hs : List PageHold) (va c : Nat) (z : Slice) :
    ((s.restorePool hs va c z).core c).switchTo = (s.core c).switchTo :=
  foldl_keeps (fun u : State => (u.core c).switchTo) (fun u _ => by rw [State.modCore_core]) _ s

/-- What a restore leaves of its core: a free spindle, and the shadow with its context, committed where a switch to it waits. -/
theorem State.restored_core (s2 : State) (c : Nat) (p : Spindle) (t : Nat × Nat) (z : Slice) (x : Ctx) :
    let k := (s2.restored c p t z x).core c
    k.spindle = none ∧ k.use p.shadow = .preload ((s2.core c).switchTo.any fun w => w.1 == p.shadow) ∧ k.shadow p.shadow = x := by
  have hsw : ((s2.restorePool p.holds p.area c z).drawn.core c).switchTo = (s2.core c).switchTo := s2.restorePool_switchTo p.holds p.area c z
  dsimp only
  rw [State.restored, State.modSlot_core, State.modCore_core, hsw]
  exact ⟨rfl, Core.setUse_use _ _ _, (congrFun (Core.setUse_shadow _ _ _) _).trans (Core.modShadow_shadow _ _ _)⟩

/-! ### The scrubber (R350) -/

theorem scrubLine_reads {s : State} {line : Nat} (hs : get 0 s.scrub line = 0) (h8 : line / stackLines < 8)
    (hat : line % stackLines = get 0 s.scrubAt (line / stackLines)) :
    exec (.scrubLine line) s = .next { s with
      scrub := put 0 s.scrub line (get 0 s.lineSeq line + 1)
      scrubAt := put 0 s.scrubAt (line / stackLines) ((line + 1) % stackLines) } := by
  simp only [show exec (.scrubLine line) s = execScrubLine line s from rfl, execScrubLine, hs]
  exact if_neg fun h => h.elim (Nat.not_le.2 h8) fun hne => hne hat

/-- A line that no write has reached since it was read is written back: poisoned where it is uncorrectable, corrected else (R350). -/
theorem scrubLine_writes {s : State} {line : Nat} (hs : get 0 s.scrub line = get 0 s.lineSeq line + 1) :
    exec (.scrubLine line) s = .next (if s.badLine line then
        { s with scrub := put 0 s.scrub line 0, poison := put false s.poison line true }
      else { s with scrub := put 0 s.scrub line 0, lineErr := put 0 s.lineErr line 0 }) := by
  simp only [show exec (.scrubLine line) s = execScrubLine line s from rfl, execScrubLine, hs, ne_eq, not_true_eq_false, if_false]
  exact (apply_ite Host.Outcome.next _ _ _).symm

/-! ### The pod (R353 to R355) -/

theorem packageFailureDetection_silent {s : State} {k : Nat} (h : get 0 s.pod.heard k + 600000000 ≤ s.time) :
    exec (.packageFailureDetection k) s = .next { s with pod := { s.pod with failed := put false s.pod.failed k true } } := if_pos h

theorem fit_of_length {n : Nat} {bs : List Byte} (h : bs.length = n) : fit n bs = bs := by simp [fit, ← h]

theorem buddyRecordApply_alive {s : State} {k src j : Nat} {bs : List Byte} (h : get false s.pod.failed k = false) :
    exec (.buddyRecordApply k src j bs) s = .next { s with pod := { s.pod with
      images := update [] s.pod.images k fun m => writeBytes m (src + 4096 * j) (fit 4096 bs) } } :=
  if_neg (ne_true_of_eq_false h)

/-- The state in which a manifest that is shipped has been written, or has brought its shavings (R354). -/
def State.shipped (s : State) (e a : Nat) (x : Shipment) : State :=
  if x.pkg = Config.package then s.applyAt a (manifest e x.regions)
  else { s with pod := { s.pod with
    shavings := update [] s.pod.shavings x.pkg fun t => x.shavings.foldl (fun t e => put [] t e.1 e.2) t } }

theorem State.shipped_mem (s : State) (e a : Nat) (x : Shipment) :
    (s.shipped e a x).mem = (if x.pkg = Config.package then s.applyAt a (manifest e x.regions) else s).mem := by
  unfold State.shipped
  split <;> rfl

theorem checkpointManifest_alive {s : State} {e : Nat} {a : BitVec 56} {x : Shipment} (h : get false s.pod.failed x.pkg = false) :
    let u := s.shipped e (a.toNat % 2 ^ 52) x
    exec (.checkpointManifest e a x) s = .next { u with pod := { u.pod with
      manifests := put false u.pod.manifests (manifestKey e x.pkg) (wholeEpoch x.regions) } } :=
  if_neg (ne_true_of_eq_false h)

/-- The records of the pod with an acknowledgement more (R353). -/
def Pod.acknowledge (p : Pod) (e k b : Nat) : Pod := { p with acks := put false p.acks (2 * manifestKey e k + b % 2) true }

/-- The records of the pod with the checkpoint of an epoch valid for the packages of a job (R353). -/
def Pod.validate (p : Pod) (e : Nat) (job : List Nat) : Pod :=
  { p with valid := job.foldl (fun t k => put false t (manifestKey e k) true) p.valid }

theorem buddyAcknowledgement_eq (s : State) (e k b : Nat) (job : List Nat) :
    let p := s.pod.acknowledge e k b
    exec (.buddyAcknowledgement e k ⟨b, job⟩) s = .next { s with pod := if p.isValid e job then p.validate e job else p } :=
  let p := s.pod.acknowledge e k b
  (apply_ite (fun q : Pod => (.next { s with pod := q } : Out State)) (p.isValid e job = true) (p.validate e job) p).symm

/-- A key that a fold sets, or that was set before it, reads as set. -/
theorem get_foldl_put_true {α : Type} (f : α → Nat) {l : List α} {t : Table Bool} {k : Nat}
    (h : (∃ x ∈ l, f x = k) ∨ get false t k = true) : get false (l.foldl (fun t x => put false t (f x) true) t) k = true := by
  induction l generalizing t with
  | nil => exact h.resolve_left fun ⟨_, hx, _⟩ => by cases hx
  | cons y l ih =>
    apply ih
    rcases h with ⟨x, hx, hk⟩ | h
    · rcases List.mem_cons.1 hx with rfl | hx
      · exact .inr (hk ▸ get_put_same false t (f x) true)
      · exact .inl ⟨x, hx, hk⟩
    · exact .inr (by rw [get_put, h, ite_self])

theorem Pod.validate_valid (p : Pod) (e : Nat) {job : List Nat} {x : Nat} (h : x ∈ job) :
    get false (p.validate e job).valid (manifestKey e x) = true := get_foldl_put_true (manifestKey e) (.inl ⟨x, h, rfl⟩)

theorem Pod.isValid_iff (p : Pod) (e : Nat) (job : List Nat) : p.isValid e job = true ↔ ∀ x ∈ job,
    get false p.manifests (manifestKey e x) = true ∧ get false p.acks (2 * manifestKey e x) = true
      ∧ get false p.acks (2 * manifestKey e x + 1) = true := by
  simp [Pod.isValid, and_assoc]

/-- An acknowledgement is noted, and a checkpoint that nothing more is waited for is valid for its job (R353). -/
theorem buddyAcknowledgement_notes (s : State) (e k : Nat) {b : Nat} (job : List Nat) (hb : b < 2) :
    ∃ t : State, exec (.buddyAcknowledgement e k ⟨b, job⟩) s = .next t
      ∧ get false t.pod.acks (2 * manifestKey e k + b) = true ∧ t.mem = s.mem
      ∧ (t.pod.isValid e job = true → ∀ x ∈ job, get false t.pod.valid (manifestKey e x) = true) := by
  refine ⟨_, buddyAcknowledgement_eq s e k b job, ?_, rfl, fun hv x hx => ?_⟩
  · have hack : get false (s.pod.acknowledge e k b).acks (2 * manifestKey e k + b) = true := by
      rw [Pod.acknowledge, Nat.mod_eq_of_lt hb, get_put_same]
    split
    · exact hack
    · exact hack
  · split at hv
    · next hvalid => exact if_pos hvalid ▸ Pod.validate_valid _ e hx
    · contradiction

theorem spareAssignment_failed {s : State} {k x : Nat} (h : get false s.pod.failed k = true) :
    exec (.spareAssignment k x) s = .next { s with pod := { s.pod with spares := put 0 s.pod.spares k (x + 1) } } := if_pos h

/-- Settles O51: each event by its lemma above, what a restore leaves of its core by `State.restored_core`. -/
theorem recoveryEvents : Obligations.RecoveryEvents := by
  unfold Obligations.RecoveryEvents
  refine ⟨?saveStart, ?saveComplete, ?restore, fun s line => scrubLine_reads, ?scrubWrites, fun s k => rfl,
    fun s k => packageFailureDetection_silent, ?record, ?manifest, ?acks, ?spare⟩
  case saveStart =>
    intro s s1 c b a hs hsave hfree htask
    refine ⟨fun hh => ⟨_, saveStart_begins hsave hfree htask hh, ?_⟩, fun hh => ⟨_, saveStart_fails hsave hfree htask hh⟩⟩
    rw [State.modCore_core]
    exact ⟨Core.setUse_use _ _ _, ⟨_, rfl⟩, Core.setUse_live _ _ _, rfl⟩
  case saveComplete =>
    exact fun s s1 c p j dom n r hp hsave => ⟨saveComplete_waits hp, saveComplete_writes hp hsave⟩
  case restore =>
    intro s s1 s2 c p dom n code hp hrest hserved htask
    refine ⟨fun e => restoreComplete_fails hp hrest hserved htask, fun he hcode htrans => ?_⟩
    obtain ⟨z, ht⟩ := restoreComplete_loads hp hrest hserved htask he hcode htrans
    exact ⟨_, ht, State.restored_core s2 c p (dom, n) z _⟩
  case scrubWrites =>
    intro s line hs
    refine ⟨_, scrubLine_writes hs, ?_⟩
    cases s.badLine line <;> simp
  case record =>
    intro s k src j bs hlen halive
    refine ⟨_, buddyRecordApply_alive halive, ?_, rfl⟩
    rw [get_update_same, fit_of_length hlen, ← hlen, readBytes_writeBytes]
  case manifest =>
    intro s k e a l v halive
    refine ⟨_, checkpointManifest_alive halive, get_put_same _ _ _ _, State.shipped_mem s e _ _⟩
  case acks =>
    intro s e k b job hb
    obtain ⟨t, ht, hack, hmem, hvalid⟩ := buddyAcknowledgement_notes s e k job hb
    exact ⟨t, ht, hack, hmem, fun h => hvalid ((t.pod.isValid_iff e job).2 h)⟩
  case spare =>
    exact fun s k x hfailed => ⟨_, spareAssignment_failed hfailed, get_put_same 0 s.pod.spares k (x + 1), rfl⟩

end Sys2Proof.Machine
end

section
/-! PROOF. FLAG entries of a replay log (R388, R389): an entry that counts no increment leaves the table of flags as it is listed, which is
not what the statement asks of a table that lists a flag at 0; of a table in canonical form an entry leaves what the statement asks. -/
namespace Sys2Proof.Machine

/-! ### Tables in canonical form are equal where they read alike -/

section Tables
variable {α : Type} {d : α}

/-- Below every key of a table it reads as its default. -/
theorem get_of_keys_above {t : Table α} {k : Nat} (h : ∀ e ∈ t, k < e.1) : get d t k = d := by
  induction t with
  | nil => rfl
  | cons e t ih =>
    obtain ⟨j, y⟩ := e
    have hj : k < j := h (j, y) List.mem_cons_self
    rw [get, if_neg (Nat.ne_of_gt hj), ih fun e he => h e (List.mem_cons_of_mem _ he)]

variable [DecidableEq α]

/-- Below its first key a table in canonical form reads as its default. -/
theorem get_below_head {j k : Nat} {y : α} {t : Table α} (h : tableWf d ((j, y) :: t) = true) (hk : k < j) :
    get d ((j, y) :: t) k = d := by
  refine get_of_keys_above fun e he => ?_
  rcases List.mem_cons.1 he with rfl | he
  · exact hk
  · exact Nat.lt_trans hk (tableWf_keys d j y t h e he)

/-- Behind its first entry a table in canonical form reads as its default at the first entry's key. -/
theorem get_behind_head {j : Nat} {y : α} {t : Table α} (h : tableWf d ((j, y) :: t) = true) : get d t j = d :=
  get_of_keys_above (tableWf_keys d j y t h)

/-- The first key of one table in canonical form is no smaller than that of another that reads alike. -/
theorem head_le_of_get_eq {i j : Nat} {x y : α} {t u : Table α} (ht : tableWf d ((i, x) :: t) = true)
    (hu : tableWf d ((j, y) :: u) = true) (h : ∀ k, get d ((i, x) :: t) k = get d ((j, y) :: u) k) : i ≤ j := by
  refine Nat.le_of_not_lt fun hlt => ?_
  have hj := h j
  rw [get_below_head ht hlt, get, if_pos rfl] at hj
  exact ((tableWf_cons d j y u).1 hu).1 hj.symm

theorem tableWf_ext {t u : Table α} (ht : tableWf d t = true) (hu : tableWf d u = true) (h : ∀ k, get d t k = get d u k) : t = u := by
  induction t generalizing u with
  | nil =>
    cases u with
    | nil => rfl
    | cons e u =>
      have he := h e.1
      rw [get, get, if_pos rfl] at he
      exact absurd he.symm ((tableWf_cons d e.1 e.2 u).1 hu).1
  | cons e t ih =>
    obtain ⟨i, x⟩ := e
    cases u with
    | nil =>
      have hi := h i
      rw [get, get, if_pos rfl] at hi
      exact absurd hi ((tableWf_cons d i x t).1 ht).1
    | cons e u =>
      obtain ⟨j, y⟩ := e
      obtain rfl : i = j := Nat.le_antisymm (head_le_of_get_eq ht hu h) (head_le_of_get_eq hu ht fun k => (h k).symm)
      have hxy : x = y := by simpa [get] using h i
      subst hxy
      obtain ⟨-, -, htail⟩ := (tableWf_cons d i x t).1 ht
      obtain ⟨-, -, hutail⟩ := (tableWf_cons d i x u).1 hu
      refine congrArg _ (ih htail hutail fun k => ?_)
      by_cases hk : i = k
      · subst hk
        rw [get_behind_head ht, get_behind_head hu]
      · simpa [get, hk] using h k

/-- An update that changes no value leaves a table in canonical form. -/
theorem update_eq_self {t : Table α} {k : Nat} {f : α → α} (ht : tableWf d t = true) (h : f (get d t k) = get d t k) :
    update d t k f = t := by
  refine tableWf_ext (tableWf_update d t k f ht) ht fun j => ?_
  by_cases hj : k = j
  · subst hj; rw [get_update_same, h]
  · exact get_update_other d t f hj

/-- Of a table in canonical form two updates of one key are one. -/
theorem update_update {t : Table α} (ht : tableWf d t = true) (k : Nat) (f g : α → α) :
    update d (update d t k f) k g = update d t k (g ∘ f) := by
  refine tableWf_ext (tableWf_update d _ k g (tableWf_update d t k f ht)) (tableWf_update d t k _ ht) fun j => ?_
  by_cases hj : k = j
  · subst hj; simp only [get_update_same, Function.comp_apply]
  · simp only [get_update_other d _ _ hj]

end Tables

/-! ### Increments of a flag -/

theorem Links.bump_zero {l : Links} (h : tableWf 0#8 l.flags = true) (f : Nat) : l.bump f 0 = l := by
  rw [Links.bump, update_eq_self h (BitVec.add_zero _)]

theorem Links.bump_bump {l : Links} (h : tableWf 0#8 l.flags = true) (f m n : Nat) : (l.bump f m).bump f n = l.bump f (m + n) := by
  simp only [Links.bump, update_update h, Function.comp_def, BitVec.add_assoc, BitVec.ofNat_add]

/-! ### The injection of a FLAG entry (R389) -/

/-- One of the increments that an injected entry counts, with its FLAG record: the round's number, and how often the flag is raised. -/
def State.flagRound (s0 : State) (c f i n : Nat) (a : State) : State :=
  let b := a.modLinks c fun l => l.bump f n
  b.trace c 4 noName (f + ((b.ctx c).links.flag f).toNat * 256 + (Config.freeWord (s0.free + i)).toNat % 4 * 2 ^ 16)

theorem State.injectFlag_eq (s : State) (c f n : Nat) : s.injectFlag c f n =
    iterate (Nat.min n 256) (fun i => s.flagRound c f i (if i = 0 then n - Nat.min n 256 + 1 else 1)) { s with free := s.free + 256 } := rfl

theorem State.flagRound_links (s0 a : State) (c f i n : Nat) : ((s0.flagRound c f i n a).ctx c).links = (a.ctx c).links.bump f n := by
  rw [State.flagRound, State.trace_ctx, State.modLinks, State.modCtx_ctx]

/-- Rounds of which the first raises a flag `k + 1` times and each other once raise it as often as they say together. -/
theorem State.flagRounds_links {s a : State} {c : Nat} (h : tableWf 0#8 (a.ctx c).links.flags = true) (f k m : Nat) :
    ((iterate (m + 1) (fun i => s.flagRound c f i (if i = 0 then k + 1 else 1)) a).ctx c).links
      = (a.ctx c).links.bump f (k + (m + 1)) := by
  induction m with
  | zero => exact s.flagRound_links a c f 0 (k + 1)
  | succ m ih =>
    rw [iterate, List.range_succ, List.foldl_append]
    exact (s.flagRound_links _ c f (m + 1) 1).trans ((congrArg (Links.bump · f 1) ih).trans (Links.bump_bump h f _ 1))

/-- The entry raises its flag by its value where the flags are in canonical form. -/
theorem State.injectFlag_links {s : State} {c : Nat} (h : tableWf 0#8 (s.ctx c).links.flags = true) (f n : Nat) :
    ((s.injectFlag c f n).ctx c).links = (s.ctx c).links.bump f n := by
  cases n with
  | zero => exact (Links.bump_zero h f).symm
  | succ n =>
    obtain ⟨m, hm⟩ : ∃ m, Nat.min (n + 1) 256 = m + 1 := Nat.exists_eq_succ_of_ne_zero (by simp)
    rw [State.injectFlag_eq, hm]
    refine (State.flagRounds_links (a := { s with free := s.free + 256 }) h f _ m).trans ?_
    rw [Nat.sub_add_cancel (hm ▸ Nat.min_le_left ..)]
    rfl

/-- An entry that counts no increment makes no round. -/
theorem State.injectFlag_zero_links (s : State) (c f : Nat) : ((s.injectFlag c f 0).ctx c).links = (s.ctx c).links := rfl

/-! ### A table that lists a flag at 0 -/

/-- Core 0 in a replay. Its log, at 0x40000, begins with an entry of kind 1 for flag 9 with the value 0, and its flags list flag 9 with the
value of an unlisted one. -/
def flagListed : State :=
  let s := State.reset.modCore 0 fun k =>
    { k with
      hasLive := true
      watch := { k.watch with rplLive := 2, rplBase := 0x1000 }
      live := { k.live with links := { k.live.links with flags := [(9, 0#8)] } } }
  { s with
    mem := writeBytes (writeBytes (writeBytes [] 0x10000 (leBytes 8 0x20001)) 0x20000 (leBytes 8 0x1F)) 0x40010 (leBytes 2 (1 + 256 * 9))
    parts := put Part.cleared s.parts 0 { Part.cleared with ptroot := 1, partslot := 1 }
    regions := put Region.free s.regions 0 { Region.free with assigned := true } }

/-- The entry. -/
def emptyIncrement : LogEntry := { cut := [0, 0, 0, 0], kind := 1, ix := 9, value := 0 }

theorem flagListed_due : flagListed.injectDue 0 = some emptyIncrement := by decide +kernel

theorem flagListed_flags : (flagListed.ctx 0).links.flags = [(9, 0#8)] := by decide +kernel

/-- The injection leaves the flags as they are listed. -/
theorem flagListed_injected (f : Watch → Watch) :
    (((flagListed.injected 0 emptyIncrement).modWatch 0 f).ctx 0).links = (flagListed.ctx 0).links := by
  rw [State.modWatch, State.modCore_ctx _ 0 0 rfl]
  exact flagListed.injectFlag_zero_links 0 9

/-- Refutes O54: an entry of a replay log with the value 0 leaves the flags as they stand, and the statement has its flag raised by 0, which
takes the entry of a flag listed at 0 out of the table (`flagListed`). Flags in canonical form an entry raises as the statement says, by
`State.injectFlag_links`. -/
theorem not_observationEvents : ¬ Obligations.ObservationEvents := by
  unfold Obligations.ObservationEvents
  rintro ⟨-, -, -, -, -, -, -, -, -, -, -, -, -, -, hinject, -⟩
  obtain ⟨-, -, -, hflag, -⟩ := hinject flagListed 0 emptyIncrement flagListed_due
  obtain ⟨hraised, -⟩ := hflag rfl
  have hflags : [(9, 0#8)] = update 0#8 [(9, 0#8)] 9 (· + 0#8) := by
    have h := congrArg Links.flags ((flagListed_injected _).symm.trans hraised)
    rwa [Links.bump, flagListed_flags] at h
  exact absurd hflags (by decide)

end Sys2Proof.Machine
end
